-- ==== Sys2Proof/Word.lean ====
section
/-! DEFINITION. The word types of the BH-4812 and their plainest arithmetic. -/

namespace Sys2Proof

/-- One byte, the unit of every memory (R2). -/
abbrev Byte := BitVec 8
/-- A BF16 code (R62). -/
abbrev W16 := BitVec 16
/-- One instruction word (R31) or FP32 code (R62). -/
abbrev W32 := BitVec 32
/-- A transfer id (R224). -/
abbrev W48 := BitVec 48
/-- A scalar register, address or CSR value (R116). -/
abbrev W64 := BitVec 64

end Sys2Proof
end

