-- ==== Sys2Proof/Config.lean ====
section
/-! DEFINITION. What an implementation fixes, and the free values: constants without a body, so
that no proof can use a value the spec leaves open. The argument is a counter held in the state. -/

namespace Sys2Proof.Config

/-- A byte of a CACHED slot whose fill was abandoned (R349): the spec leaves it undefined. -/
opaque freeSlotByte : Nat → Byte

/-- A byte of the signature of an attestation report (R424): the private key leaves no agent. -/
opaque freeSignatureByte : Nat → Byte

/-- A byte of the identity certificate (R424). -/
opaque freeCertificateByte : Nat → Byte

/-- The length of the identity certificate, at most the 1 KiB of the buffer (R424). -/
opaque freeCertificateLength : Nat → Fin 1025

/-- A byte of a spilled image past its header (R256, R260): the module's own layout, encrypted. -/
opaque freeImageByte : Nat → Byte

/-- tXS of the DRAM standard (R399), in cycles of the core clock. -/
opaque exitCycles : Nat

/-- tRC of the DRAM standard (R400), in cycles of the core clock. -/
opaque rowCycles : Nat

/-- tRFM of the DRAM standard (R401), in cycles of the core clock. -/
opaque rfmCycles : Nat

end Sys2Proof.Config
end

