-- ==== Sys2Proof/Syntax.lean ====
section
/-! DEFINITION. The instructions and steps of the BH-4812: one constructor for each row of the
opcode table. The words of the four streams S, V, M and X (R44, R47, R50) come first, then the
events and commands that have no encoding and carry what they bring as plain data. -/

namespace Sys2Proof

/-- A logical scalar register s0–s31 (R41). -/
abbrev Reg := Fin 32
/-- A core id, die × 12 + stack group × 4 + index (R3). -/
abbrev CoreId := Fin 48
/-- A compute die CD0–CD3 (R3). -/
abbrev DieId := Fin 4
/-- A context number, die × 256 + slot (chapter Contexts). -/
abbrev CtxId := Fin 1024
/-- A function of the CXL port: 0 the physical function, 1–8 the virtual functions (R268). -/
abbrev FnId := Fin 9
/-- A queue of a function (R269). -/
abbrev QId := Fin 8

/-- The four engines of a core (R13). -/
inductive Eng where
  | S | V | M | X
  deriving DecidableEq, Repr

/-- A sync nibble: the peer code popped before and the peer code pushed after; 0 is none (R39). -/
structure Sync where
  pop : Fin 4
  push : Fin 4
  deriving DecidableEq, Repr

/-- A source operand of class T: a view, a port or the scalar queue (R47). -/
inductive Src where
  | view (n : Fin 16)
  | port (n : Fin 8)
  | sq
  deriving DecidableEq, Repr

/-- The modifiers of a V word that writes a view (R46, R48, R53). -/
structure VMod where
  sync : Sync
  mask : Fin 8
  ra : Bool
  rb : Bool
  zero : Bool
  deriving DecidableEq, Repr

/-- The atomic operations (R43). -/
inductive AOp where
  | add | and | or | xor | min | max | minu | maxu | swap
  deriving DecidableEq, Repr

/-- The order of an AMO or CAS (R43). -/
inductive MemOrder where
  | rlx | acq | rel | ar
  deriving DecidableEq, Repr

/-- A scope (R94). -/
inductive Scope where
  | core | sg | die | pkg | dom
  deriving DecidableEq, Repr

/-- The conditions of WAITW and of WAIT and COND records (R312, R274). -/
inductive WCond where
  | eq | ne | geu | ltu | ge | lt
  deriving DecidableEq, Repr

/-- The predicates of VCMP (R174). -/
inductive VPred where
  | eq | lt | le | ne
  deriving DecidableEq, Repr

/-- The operations of VMLOG (R176). -/
inductive MaskOp where
  | and | or | xor | andn
  deriving DecidableEq, Repr

/-- The patterns of VMSET (R177). -/
inductive MaskPat where
  | clr | shape | lower | upper
  deriving DecidableEq, Repr

/-- The reduction axis of VRED, VSCAN and VSHF (R53). -/
inductive Axis where
  | rows | cols
  deriving DecidableEq, Repr

/-- The operand formats that MFMT admits (R50, R212). -/
inductive MFormat where
  | bf16 | fp16 | e4m3 | e5m2 | code4
  deriving DecidableEq, Repr

/-- The operand that MBMAP and MCODE name (R50). -/
inductive ABSel where
  | a | b
  deriving DecidableEq, Repr

/-- The operand whose base MBASE sets (R50). -/
inductive ABCSel where
  | a | b | c
  deriving DecidableEq, Repr

/-- The trap causes (R124, Table 5.8); ASID_RETIRING is never raised by instance code. -/
inductive Cause where
  | illegal | privilege | misaligned | protection | storeNonresident | format | tokenOrphan
  | arith | breakpoint | svc | region | asidRetiring | fifoProtocol | watch
  deriving DecidableEq, Repr

/-- A link of the module: a Grenwiut port or a UCIe link (R351). -/
inductive LinkId where
  | gw (l : Fin 16)
  | ucie (u : Fin 10)
  deriving DecidableEq, Repr

/-- How a training ends (R352). -/
inductive Training where
  | allLanes | halfLanes | failed
  deriving DecidableEq, Repr

/-- Packet types (R356, R381). -/
inductive PType where
  | write | readreq | readresp | sig | amo | amoresp | ack | frag | sredc | sredr | mgmt
  | demand | hist | split | grant | xdat | xmark | xack | pdone | final | heart | mirror
  | takeover | exchState | abort
  deriving DecidableEq, Repr

/-- A grant of the phase calendar (R377). -/
structure Grant where
  phase : Nat
  send : Bool
  partner : Nat
  bytes : Nat
  offset : Nat
  deriving DecidableEq, Repr

/-- The fields of a posted row that the arbiter compares (R373), and the row itself (R375, R390): for HIST
the histogram. -/
structure Posting where
  p : Nat
  arb : Nat
  stb : Nat
  ctmo : Nat
  qc : Nat
  xrep : Bool
  tgts : List Nat
  cfg : List Nat
  rank : Nat
  exid : Nat
  row : List Nat
  rcap : Nat
  deriving DecidableEq, Repr

/-- What a packet carries beside its header and payload bytes (R356, R381). -/
inductive PInfo where
  | none
  | post (q : Posting)
  | split (first : List Nat) (w : Nat)
  | grants (g : List Grant)
  | quotas (row col offs : List Nat)
  | final (phases : Nat) (failover nostby keptany : Bool)
  | nexts (n : List Nat)
  | mirrorPost (q : Posting) (hist : Bool) (pkg : Nat) (die : DieId) (cmd ftag gang : Nat)
  | quotaMatrix (g : List (List Nat))
  | window (upTo : Nat)
  | next (n : Nat) (hist : Bool) (resend : Option Posting)
  | status (code : Nat)
  | barrier (obj : Nat) (expect : Nat) (bytes : Nat) (arrived : Bool)
  | sred (rank seq ctag n dt : Nat) (status flags contrib : Nat) (nan : Bool)
  | reserve (sw slot gang ctag nc op dt n tmo : Nat)
  | free (sw slot : Nat)
  deriving DecidableEq, Repr

/-- A packet (R356, Table 15.4). -/
structure Packet where
  typ : PType
  cls : Fin 4
  group : Fin 9
  gang : Nat
  srcPkg : Nat
  srcDie : DieId
  srcCore : Nat
  ftag : Nat
  tgt : Nat
  dstDie : DieId
  addr : Nat
  seq : Nat
  cmd : Nat
  aux : Nat
  data : List Byte
  info : PInfo
  deriving DecidableEq, Repr

/-- The trap that a Faulted or stopped instance carries into its record (R265). -/
structure TrapInfo where
  cause : Cause
  eng : Eng
  hflag : Bool
  pc : W64
  val : W64
  restart : W64
  cycle : Nat
  deriving DecidableEq, Repr

/-- What a stack's request brings back (R404). -/
inductive EccResult where
  | clean | corrected | uncorrectable
  deriving DecidableEq, Repr

/-- Who made a request to a stack (R402). -/
inductive Requester where
  | ctx (c : CtxId)
  | host
  deriving DecidableEq, Repr

/-- A JTAG private request: enabling by firmware at level M, or an instruction (R406). -/
inductive JtagPrivate where
  | enableByFirmware
  | instruction (code : Nat)
  deriving DecidableEq, Repr

/-- The privilege level of a host access (R9). -/
inductive Level where
  | u | g | h | m
  deriving DecidableEq, Repr

/-- What the end of boot verification brings (R28, R355, R423). -/
structure BootInput where
  keyDigestOk : Bool
  signatureOk : Bool
  version : Nat
  minVersion : Nat
  pkg : BitVec 16
  insvc : BitVec 48
  coefs : List W32
  meas : List (BitVec 512)
  deriving DecidableEq, Repr

/-- The instructions and steps: the words of the streams first, then the events, those that only the outside
brings last. -/
inductive Instr where
  -- S: integer group (R126)
  | add (d a b : Reg) | sub (d a b : Reg) | mul (d a b : Reg) | mulh (d a b : Reg)
  | mulhu (d a b : Reg) | div (d a b : Reg) | divu (d a b : Reg) | rem (d a b : Reg)
  | remu (d a b : Reg) | and (d a b : Reg) | or (d a b : Reg) | xor (d a b : Reg)
  | shl (d a b : Reg) | shr (d a b : Reg) | sra (d a b : Reg) | slt (d a b : Reg)
  | sltu (d a b : Reg) | min (d a b : Reg) | max (d a b : Reg) | minu (d a b : Reg)
  | maxu (d a b : Reg) | clz (d a : Reg) | popc (d a : Reg) | bfx (d a b : Reg)
  | bfi (d a b : Reg)
  -- S: FP32 group (R129)
  | fadd (d a b : Reg) | fsub (d a b : Reg) | fmul (d a b : Reg) | ffma (d a b : Reg)
  | fmin (d a b : Reg) | fmax (d a b : Reg) | fceq (d a b : Reg) | fclt (d a b : Reg)
  | fcle (d a b : Reg) | fcvti (d a : Reg) | fcvtf (d a : Reg) | fexp2 (d a : Reg)
  | flog2 (d a : Reg) | frcp (d a : Reg)
  -- S: immediates (R127, R128)
  | addi (d a : Reg) (imm : BitVec 15) | andi (d a : Reg) (imm : BitVec 15)
  | ori (d a : Reg) (imm : BitVec 15) | xori (d a : Reg) (imm : BitVec 15)
  | shli (d a : Reg) (sh : BitVec 6) | shri (d a : Reg) (sh : BitVec 6)
  | srai (d a : Reg) (sh : BitVec 6) | slti (d a : Reg) (imm : BitVec 15)
  | sltui (d a : Reg) (imm : BitVec 15) | lui (d : Reg) (imm : BitVec 20)
  | apc (d : Reg) (imm : BitVec 20)
  -- S: branches, jumps and loops (R130–R136)
  | beq (a b : Reg) (off : BitVec 15) | bne (a b : Reg) (off : BitVec 15)
  | blt (a b : Reg) (off : BitVec 15) | bge (a b : Reg) (off : BitVec 15)
  | bltu (a b : Reg) (off : BitVec 15) | bgeu (a b : Reg) (off : BitVec 15)
  | bpred (g : Fin 8) (off : BitVec 15) | jal (d : Reg) (off : BitVec 20)
  | jalr (d a : Reg) (imm : BitVec 15)
  | loop (n : Fin 4) (rot stg : Bool) (c : Reg) (len : BitVec 16)
  | loopi (n : Fin 4) (rot stg : Bool) (count : BitVec 12) (len : BitVec 9)
  | leave (n : Fin 4)
  -- S: memory and synchronisation (R101–R108, R137, R138)
  | ld (d base : Reg) (size : Fin 4) (off : BitVec 12)
  | ldu (d base : Reg) (size : Fin 3) (off : BitVec 12)
  | st (src base : Reg) (size : Fin 4) (off : BitVec 12)
  | amo (d addr src : Reg) (op : AOp) (order : MemOrder) (scope : Scope)
  | cas (d addr src : Reg) (order : MemOrder) (scope : Scope)
  | acqL (a : Reg) (scope : Scope) | acqC (a b : Reg) (scope : Scope)
  | relL (a : Reg) (scope : Scope) | relC (a : Reg) (scope : Scope)
  | fence (scope : Scope) | bind (d a b : Reg) (k : BitVec 6)
  -- S: coupling (R139–R141, R248, R287, R312, R313)
  | sig (peer : Fin 3) | waitk (peer : Fin 3) | sqput (a : Reg) | eidle (mask : BitVec 3) | exit
  | fpsh (f : Fin 2) (a : Reg) | fpop (d : Reg) (f : Fin 3) | fcnt (d : Reg) (f : Fin 3)
  | waitw (d a b : Reg) (cond : WCond) (scope : Scope) | yield
  -- S: barriers, pages, traps and CSRs (R323–R326, R343, R344, R349, R142, R146, R147, R413, R416)
  | barr (a : Reg) (scope : Scope) | barw (d a : Reg) (scope : Scope)
  | bbpost (a b : Reg) (scope : Scope) | barq (d a : Reg) (scope : Scope)
  | pgreq (d a : Reg) (write : Bool) | pgres (d a : Reg)
  | probe (d a : Reg) (off : BitVec 15) | svc (code : BitVec 20) | tret
  | csrr (d : Reg) (csr : BitVec 12) | csrw (csr : BitVec 12) (a : Reg)
  | csrset (d a : Reg) (csr : BitVec 12) | csrclr (d a : Reg) (csr : BitVec 12)
  | brk (code : BitVec 20) | trace (d : Reg) (tag : BitVec 20)
  -- V (R165)
  | vview (y : Sync) (d : Fin 16) | vpset (y : Sync) (d : Fin 8)
  | vld (o : VMod) (d : Fin 16) (a : Fin 8) (res : Fin 8)
  | vst (y : Sync) (mask : Fin 8) (d : Fin 8) (a : Fin 16)
  | vmov (o : VMod) (d : Fin 16) (a : Src) | vadd (o : VMod) (d : Fin 16) (a b : Src)
  | vsub (o : VMod) (d : Fin 16) (a b : Src) | vmul (o : VMod) (d : Fin 16) (a b : Src)
  | vfma (o : VMod) (d : Fin 16) (a b : Src) | vmin (o : VMod) (d : Fin 16) (a b : Src)
  | vmax (o : VMod) (d : Fin 16) (a b : Src) | vabs (o : VMod) (d : Fin 16) (a : Src)
  | vneg (o : VMod) (d : Fin 16) (a : Src) | vrcp (o : VMod) (d : Fin 16) (a : Src)
  | vrsq (o : VMod) (d : Fin 16) (a : Src) | vsqrt (o : VMod) (d : Fin 16) (a : Src)
  | vexp2 (o : VMod) (d : Fin 16) (a : Src) | vlog2 (o : VMod) (d : Fin 16) (a : Src)
  | vtanh (o : VMod) (d : Fin 16) (a : Src)
  | vcmp (y : Sync) (mask : Fin 8) (ra rb : Bool) (p : VPred) (k : Fin 8) (a b : Src)
  | vsel (y : Sync) (mask : Fin 8) (ra rb : Bool) (d : Fin 16) (a b : Src)
  | vmlog (y : Sync) (op : MaskOp) (k i j : Fin 8)
  | vmset (y : Sync) (pat : MaskPat) (k : Fin 8) (a : Fin 16)
  | vmcnt (y : Sync) (i : Fin 8) (shape : Option (Fin 16))
  | vcvt (o : VMod) (sat : Bool) (d : Fin 16) (a : Src)
  | vrnd (o : VMod) (d : Fin 16) (a : Src)
  | vred (o : VMod) (axis : Axis) (d : Fin 16) (a : Src)
  | vscan (o : VMod) (axis : Axis) (d : Fin 16) (a : Src)
  | vtrn (o : VMod) (d : Fin 16) (a : Src)
  | vshf (o : VMod) (axis : Axis) (d : Fin 16) (a : Src) (b : Fin 16)
  | vxs (y : Sync) (a : Fin 16) | vnop (y : Sync) | vend (y : Sync)
  -- M (R212)
  | mnest (y : Sync) (lv : Fin 6) (rec : BitVec 17) | mbase (y : Sync) (op : ABCSel) (rec : BitVec 17)
  | mmask (y : Sync) (rec : BitVec 17) | mfmt (y : Sync) (fa fb : MFormat)
  | mbmapOn (y : Sync) (op : ABSel) (rec : BitVec 17) | mbmapOff (y : Sync) (op : ABSel)
  | mcode (y : Sync) (op : ABSel) (slot : Fin 8) | mldb (y : Sync) (groups : BitVec 4) (rec : BitVec 17)
  | macc (y : Sync) (set : Fin 3) | maccClear (y : Sync) (set : Fin 3)
  | mgo (y : Sync) (n : Fin 6) | mdrn (y : Sync) (set : Fin 3) (rec : BitVec 17)
  | mnop (y : Sync) | mend (y : Sync)
  -- X (R234)
  | xstg (y : Sync) (stage : Byte) | xcpy (y : Sync) (ch : Fin 8) (rec : BitVec 17)
  | xgth (y : Sync) (ch : Fin 8) (rec : BitVec 17) | xsct (y : Sync) (ch : Fin 8) (rec : BitVec 17)
  | xfill (y : Sync) (ch : Fin 8) (rec : BitVec 17) | xwid (y : Sync) (ch : Fin 8)
  | xwidRec (y : Sync) (ch : Fin 8) (rec : BitVec 17)
  | xcbConfig (y : Sync) (cb : Fin 16) (rec : BitVec 17) | xcbReset (y : Sync) (cb : Fin 16)
  | xnop (y : Sync) | xend (y : Sync)
  -- traps, pre-emption, wakes and engine events
  | trapEntry (c : CoreId) (e : Eng) (cause : Cause) (pc val : W64)
  | faultRecord (ctx : CtxId) (uid : Nat) (core : CoreId) (t : TrapInfo)
  | preemptionRequest (c : CoreId) | coreReleased (c : CoreId)
  | spinRecheck (c : CoreId) | tokenPopWake (c : CoreId) (e : Eng)
  | tokenPushWake (c : CoreId) (e : Eng) | scalarQueueWake (c : CoreId) (e : Eng)
  | fifoWake (c : CoreId) (e : Eng) | eidleWake (c : CoreId)
  | blockFillDone (c : CoreId) (block : Nat) | kstepEnd (c : CoreId) (sa : Fin 16)
  | throttleIdleEnd (c : CoreId) (sa : Fin 16) | commitEnd (c : CoreId)
  | rekeyDone (ctx : CtxId) | transferGranule (c : CoreId) (ch : Fin 8) (id : Nat)
  | transferDone (c : CoreId) (ch : Fin 8) (id : Nat) | f1Result (c : CoreId)
  -- context commands (R250–R266)
  | teardownDone (ctx : CtxId)
  -- queues (R268–R276)
  | queueLaunch (f : FnId) (q : QId)
  | queueWait (f : FnId) (q : QId) | queueSignal (f : FnId) (q : QId)
  | queueCond (f : FnId) (q : QId) | queueLoop (f : FnId) (q : QId)
  | queueSwitch (f : FnId) (q : QId) | waitRecheck (f : FnId) (q : QId)
  | waitTimeout (f : FnId) (q : QId) | completionEntryPost (f : FnId) (q : QId)
  -- launches and dispatchers (R277–R311)
  | dependenceCheck (l : Nat) | placementEval (d : DieId) | steal (d : DieId) | teamSwap (d : DieId)
  | instanceComplete (c : CoreId) | launchRetire (l : Nat) | boostDecay | fairnessBucket
  | landingReplay (c : CoreId)
  -- barriers (R315–R327)
  | barrierArrivalForward (round : Nat) (die : DieId) | barrierRelease (c : CoreId) (round : Nat)
  -- pages (R328–R350)
  | invalComplete (f : FnId) | asidScrubDone (asid : BitVec 16) | countMoveDone (ctx : CtxId) (va : Nat)
  | pullDone (ctx : CtxId) (va : Nat) | pullTimeout (ctx : CtxId) (va : Nat)
  -- links, fabric commands and packets (R351–R371)
  | packetLinkfail (p : Packet)
  | put (c : CoreId) | get (c : CoreId) | putsig (c : CoreId) | ramo (c : CoreId) | coll (c : CoreId)
  | sred (c : CoreId) | dpost (c : CoreId) | xrep (c : CoreId)
  | pktWrite (p : Packet) | readreq (p : Packet) | readresp (p : Packet) | pktSig (p : Packet)
  | pktAmo (p : Packet) | amoresp (p : Packet) | ack (p : Packet) | frag (p : Packet)
  | sredc (p : Packet) | sredr (p : Packet) | mgmt (p : Packet)
  | sredSlotTimeout (sw : Byte) (slot : BitVec 12)
  -- scheduled exchange (R372–R395)
  | demand (p : Packet) | hist (p : Packet) | split (p : Packet) | grant (p : Packet)
  | xdat (p : Packet) | xmark (p : Packet) | xack (p : Packet) | pdone (p : Packet)
  | final (p : Packet) | heart (p : Packet) | heartbeatTimer | mirror (p : Packet)
  | standbyTakeover | takeover (p : Packet) | exchState (p : Packet) | abort (p : Packet)
  | collectTimeout (key : Nat) | stateTimeout (key : Nat) | arbiterSilenceTimeout (cmd : Nat)
  -- memory stacks (R396–R405)
  | selfRefreshEntry (h : Fin 12) (pc : Fin 384) | selfRefreshExit (h : Fin 12) (pc : Fin 384)
  -- debug, health, boot and power (R406–R424, R26–R28)
  | stopLanded (c : CoreId) | stepEnd (c : CoreId)
  | energyWindowEnd
  -- brought from outside the streams and engines: host and firmware commands, sensors, links, power
  | build (f : FnId) (ctx : CtxId) | ctxBind (f : FnId) (ctx : CtxId)
  | keyload (f : FnId) (ctx : CtxId) | suspend (f : FnId) (ctx : CtxId)
  | ctxResume (f : FnId) (ctx : CtxId) | spill (f : FnId) (ctx : CtxId)
  | iresume (f : FnId) (ctx : CtxId) | ikill (f : FnId) (ctx : CtxId)
  | migrate (f : FnId) (ctx : CtxId) | teardown (f : FnId) (ctx : CtxId)
  | release (f : FnId) (ctx : CtxId) | migrateAck (ctx : CtxId) | arm (f : FnId) (q : QId)
  | quiesce (f : FnId) (q : QId) | queueReset (f : FnId) (q : QId)
  | widxWrite (f : FnId) (q : QId) (v : W64) | inval (f : FnId) (ctx : CtxId)
  | pcomplete (f : FnId) (ctx : CtxId) | pgRetire (f : FnId) | linkDown (l : LinkId)
  | retrain (l : LinkId)
  | linkTrainingEnd (l : LinkId) (r : Training) (partner : Byte) (pport : BitVec 6)
  | linkReplay (l : LinkId) | replayAccepted (l : LinkId) | reserve | free
  | layerSensorRead (h : Fin 12) (layer : Fin 16) (t : Nat) | refresh (h : Fin 12) (pc : Fin 384)
  | dramRequest (h : Fin 12) (line : Nat) (bank row : Nat) (write : Bool) (who : Requester) (ecc : EccResult)
  | hotRowWindowEnd (h : Fin 12) | patrolScrub (h : Fin 12) (line : Nat) (ecc : EccResult)
  | stop (f : FnId) | go (f : FnId) | step (f : FnId) | settle (f : FnId) | rdstate (f : FnId)
  | wrstate (f : FnId) | watch (f : FnId) | trccfg (f : FnId) | wlcfg (f : FnId) | wsnap (f : FnId)
  | attach (f : FnId) | attest (f : FnId) | getcert (f : FnId) | hlthRetire (c : CoreId)
  | parityReplay (c : CoreId) (ok : Bool) (savePath : Bool) | lupinSample (c : CoreId) (slack : Nat)
  | lupinPlan (c : CoreId) | jtagBypass | jtagIdcode | jtagSamplePreload | jtagExtest
  | jtagPrivate (r : JtagPrivate) | modEnAssert (inputOk : Bool) | powerOff | cxlFundamentalReset
  | bootVerification (b : BootInput) | powerWindowEnd (watts : Nat)
  | thermalSensorRead (d : DieId) (celsius : Nat) | powerOverrunStop (watts : Nat) (micros : Nat)
  | moduleResume (dies layers : List Nat) (watts : Nat) (millis : Nat)
  | cxlMemAccess (addr : Nat) (write : Bool) (data : List Byte)
  | registerWrite (f : FnId) (lvl : Level) (off : Nat) (v : W64)
  deriving DecidableEq, Repr

end Sys2Proof
end

