-- ==== Sys2Proof/WellFormed.lean ====
section
/-! DEFINITION. Which instructions the encodings admit: the conditions of chapter 02 that the types
of Syntax.lean do not already carry. -/

namespace Sys2Proof

/-- A reuse hint is admitted only on a field that holds a port (R48). -/
def Src.isPort : Src → Bool
  | .port _ => true
  | _ => false

/-- The hints of a V word with sources `a` and `b` (R48). -/
def VMod.hintsOk2 (o : VMod) (a b : Src) : Bool := (!o.ra || a.isPort) && (!o.rb || b.isPort)
/-- The hints of a V word with one source `a`: the b field is none or a view (R48). -/
def VMod.hintsOk1 (o : VMod) (a : Src) : Bool := (!o.ra || a.isPort) && !o.rb

/-- The scopes that the barrier words admit (R323). -/
def Scope.barrierOk : Scope → Bool
  | .core => false
  | _ => true

/-- An instruction that the encodings admit (R35, R42–R50). Steps without an encoding carry
nothing that an encoding could forbid. -/
def Instr.wf : Instr → Bool
  | .loop _ _ _ _ len => len != 0
  | .loopi _ _ _ count len => count != 0 && len != 0
  | .bind _ _ _ k => 6 ≤ k.toNat && k.toNat ≤ 40
  | .eidle mask => mask != 0
  | .barr _ sc => sc.barrierOk
  | .barw _ _ sc => sc.barrierOk
  | .bbpost _ _ sc => sc.barrierOk
  | .barq _ _ sc => sc.barrierOk
  | .vld o _ _ _ => !o.rb
  | .vmov o _ a => o.hintsOk1 a
  | .vadd o _ a b => o.hintsOk2 a b
  | .vsub o _ a b => o.hintsOk2 a b
  | .vmul o _ a b => o.hintsOk2 a b
  | .vfma o _ a b => o.hintsOk2 a b
  | .vmin o _ a b => o.hintsOk2 a b
  | .vmax o _ a b => o.hintsOk2 a b
  | .vabs o _ a => o.hintsOk1 a
  | .vneg o _ a => o.hintsOk1 a
  | .vrcp o _ a => o.hintsOk1 a
  | .vrsq o _ a => o.hintsOk1 a
  | .vsqrt o _ a => o.hintsOk1 a
  | .vexp2 o _ a => o.hintsOk1 a
  | .vlog2 o _ a => o.hintsOk1 a
  | .vtanh o _ a => o.hintsOk1 a
  | .vcmp _ _ ra rb _ k a b => k != 0 && (!ra || a.isPort) && (!rb || b.isPort)
  | .vsel _ _ ra rb _ a b => (!ra || a.isPort) && (!rb || b.isPort)
  | .vmlog _ _ k _ _ => k != 0
  | .vmset _ _ k _ => k != 0
  | .vcvt o _ _ a => o.hintsOk1 a
  | .vrnd o _ a => o.hintsOk1 a
  | .vred o _ _ a => o.hintsOk1 a
  | .vscan o _ _ a => o.hintsOk1 a
  | .vtrn o _ a => o.hintsOk1 a && (a != .sq)
  | .vshf o _ _ a _ => o.hintsOk1 a
  | .mldb _ g _ => g != 0
  | _ => true

end Sys2Proof
end

