-- ==== Sys2Proof/Decode.lean ====
section
/-! DEFINITION. The decoder of the four streams and the encoder after it, both from the tables of
chapter 02 (R42–R50). Words are Nats below 2^32 and fields are read by division and remainder. -/

namespace Sys2Proof

/-- Why a word is not an instruction of its stream (R35). -/
inductive Reject where
  /-- the opcode is not assigned in the stream -/
  | opcode
  /-- a field named zero or reserved is not zero -/
  | reserved
  /-- a function, size, payload or code value is not in the set its row allows -/
  | value
  /-- an operand code is not of a class its row admits -/
  | operand
  deriving DecidableEq, Repr

/-- Bits [lo + n - 1 : lo] of a word (R2). -/
def fld (w lo n : Nat) : Nat := (w / 2 ^ lo) % 2 ^ n

/-- Sign extension of an n-bit value to 64 bits (R6). -/
def sextTo64 {n : Nat} (x : BitVec n) : W64 := x.signExtend 64

/-- Accept a word only if the named field is zero (R4). -/
def needZero (z : Nat) (i : Instr) : Except Reject Instr := if z = 0 then .ok i else .error .reserved

def scopeOf (n : Nat) : Option Scope :=
  match n with
  | 0 => some .core | 1 => some .sg | 2 => some .die | 3 => some .pkg | 4 => some .dom
  | _ => none

def aopOf (n : Nat) : Option AOp :=
  match n with
  | 0 => some .add | 1 => some .and | 2 => some .or | 3 => some .xor | 4 => some .min
  | 5 => some .max | 6 => some .minu | 7 => some .maxu | 8 => some .swap
  | _ => none

def orderOf (n : Nat) : MemOrder :=
  match n with
  | 0 => .rlx | 1 => .acq | 2 => .rel | _ => .ar

def condOf (n : Nat) : Option WCond :=
  match n with
  | 0 => some .eq | 1 => some .ne | 2 => some .geu | 3 => some .ltu | 4 => some .ge | 5 => some .lt
  | _ => none

/-- Accept a word whose scope field holds one of 0–4 (R43). -/
def withScope (n : Nat) (k : Scope → Except Reject Instr) : Except Reject Instr :=
  match scopeOf n with
  | some s => k s
  | none => .error .value

/-- Accept a word whose scope field holds one of 1–4 (R323). -/
def withBarrierScope (n : Nat) (k : Scope → Except Reject Instr) : Except Reject Instr :=
  match scopeOf n with
  | some .core => .error .value
  | some s => k s
  | none => .error .value

/-- The integer group, opcode 0x01 (Table 2.5). -/
def decodeInt (fn : Nat) (d a b : Reg) : Except Reject Instr :=
  match fn with
  | 0 => .ok (.add d a b)
  | 1 => .ok (.sub d a b)
  | 2 => .ok (.mul d a b)
  | 3 => .ok (.mulh d a b)
  | 4 => .ok (.mulhu d a b)
  | 5 => .ok (.div d a b)
  | 6 => .ok (.divu d a b)
  | 7 => .ok (.rem d a b)
  | 8 => .ok (.remu d a b)
  | 9 => .ok (.and d a b)
  | 10 => .ok (.or d a b)
  | 11 => .ok (.xor d a b)
  | 12 => .ok (.shl d a b)
  | 13 => .ok (.shr d a b)
  | 14 => .ok (.sra d a b)
  | 15 => .ok (.slt d a b)
  | 16 => .ok (.sltu d a b)
  | 17 => .ok (.min d a b)
  | 18 => .ok (.max d a b)
  | 19 => .ok (.minu d a b)
  | 20 => .ok (.maxu d a b)
  | 21 => needZero b.val (.clz d a)
  | 22 => needZero b.val (.popc d a)
  | 23 => .ok (.bfx d a b)
  | 24 => .ok (.bfi d a b)
  | _ => .error .value

/-- The FP32 group, opcode 0x02 (Table 2.5). -/
def decodeFp (fn : Nat) (d a b : Reg) : Except Reject Instr :=
  match fn with
  | 0 => .ok (.fadd d a b)
  | 1 => .ok (.fsub d a b)
  | 2 => .ok (.fmul d a b)
  | 3 => .ok (.ffma d a b)
  | 4 => .ok (.fmin d a b)
  | 5 => .ok (.fmax d a b)
  | 6 => .ok (.fceq d a b)
  | 7 => .ok (.fclt d a b)
  | 8 => .ok (.fcle d a b)
  | 9 => needZero b.val (.fcvti d a)
  | 10 => needZero b.val (.fcvtf d a)
  | 11 => needZero b.val (.fexp2 d a)
  | 12 => needZero b.val (.flog2 d a)
  | 13 => needZero b.val (.frcp d a)
  | _ => .error .value

/-- The S stream (R42–R44, Tables 2.3–2.5). -/
def decodeS (w : Nat) : Except Reject Instr :=
  let d : Reg := Fin.ofNat 32 (fld w 20 5)
  let a : Reg := Fin.ofNat 32 (fld w 15 5)
  let b : Reg := Fin.ofNat 32 (fld w 10 5)
  let fn := fld w 0 10
  let imm15 : BitVec 15 := BitVec.ofNat 15 (fld w 0 15)
  let imm20 : BitVec 20 := BitVec.ofNat 20 (fld w 0 20)
  let sh : BitVec 6 := BitVec.ofNat 6 (fld w 0 6)
  let off12 : BitVec 12 := BitVec.ofNat 12 (fld w 0 12)
  let csr : BitVec 12 := BitVec.ofNat 12 (fld w 3 12)
  let sc := fld w 0 3
  match fld w 25 7 with
  | 0x01 => decodeInt fn d a b
  | 0x02 => decodeFp fn d a b
  | 0x08 => .ok (.addi d a imm15)
  | 0x09 => .ok (.andi d a imm15)
  | 0x0A => .ok (.ori d a imm15)
  | 0x0B => .ok (.xori d a imm15)
  | 0x0C => needZero (fld w 6 9) (.shli d a sh)
  | 0x0D => needZero (fld w 6 9) (.shri d a sh)
  | 0x0E => needZero (fld w 6 9) (.srai d a sh)
  | 0x0F => .ok (.slti d a imm15)
  | 0x10 => .ok (.sltui d a imm15)
  | 0x11 => .ok (.lui d imm20)
  | 0x12 => .ok (.apc d imm20)
  | 0x18 => .ok (.beq d a imm15)
  | 0x19 => .ok (.bne d a imm15)
  | 0x1A => .ok (.blt d a imm15)
  | 0x1B => .ok (.bge d a imm15)
  | 0x1C => .ok (.bltu d a imm15)
  | 0x1D => .ok (.bgeu d a imm15)
  | 0x1E => if 8 ≤ d.val then .error .operand else needZero a.val (.bpred (Fin.ofNat 8 d.val) imm15)
  | 0x20 => .ok (.jal d imm20)
  | 0x21 => .ok (.jalr d a imm15)
  | 0x22 =>
    if fld w 0 16 = 0 then .error .value
    else .ok (.loop (Fin.ofNat 4 (fld w 23 2)) (fld w 22 1 == 1) (fld w 21 1 == 1) (Fin.ofNat 32 (fld w 16 5))
      (BitVec.ofNat 16 (fld w 0 16)))
  | 0x23 =>
    if fld w 9 12 = 0 || fld w 0 9 = 0 then .error .value
    else .ok (.loopi (Fin.ofNat 4 (fld w 23 2)) (fld w 22 1 == 1) (fld w 21 1 == 1) (BitVec.ofNat 12 (fld w 9 12))
      (BitVec.ofNat 9 (fld w 0 9)))
  | 0x24 => needZero (fld w 0 23) (.leave (Fin.ofNat 4 (fld w 23 2)))
  | 0x28 => if 4 ≤ fld w 12 3 then .error .value else .ok (.ld d a (Fin.ofNat 4 (fld w 12 3)) off12)
  | 0x29 => if 3 ≤ fld w 12 3 then .error .value else .ok (.ldu d a (Fin.ofNat 3 (fld w 12 3)) off12)
  | 0x2A => if 4 ≤ fld w 12 3 then .error .value else .ok (.st d a (Fin.ofNat 4 (fld w 12 3)) off12)
  | 0x2C =>
    match aopOf (fld w 6 4) with
    | some op => withScope (fld w 1 3) fun s => needZero (fld w 0 1) (.amo d a b op (orderOf (fld w 4 2)) s)
    | none => .error .value
  | 0x2D => withScope (fld w 1 3) fun s => needZero (fld w 0 1 + fld w 6 4) (.cas d a b (orderOf (fld w 4 2)) s)
  | 0x30 =>
    withScope sc fun s =>
      if fld w 9 1 = 0 then needZero (d.val + fld w 3 6 + b.val) (.acqL a s)
      else needZero (d.val + fld w 3 6) (.acqC a b s)
  | 0x31 =>
    withScope sc fun s =>
      needZero (d.val + fld w 3 6 + b.val) (if fld w 9 1 = 0 then .relL a s else .relC a s)
  | 0x32 => withScope sc fun s => needZero (fld w 3 22) (.fence s)
  | 0x33 =>
    if fld w 0 6 < 6 || 40 < fld w 0 6 then .error .value
    else needZero (fld w 6 4) (.bind d a b (BitVec.ofNat 6 (fld w 0 6)))
  | 0x34 => if fld w 0 2 = 0 then .error .value else needZero (fld w 2 23) (.sig (Fin.ofNat 3 (fld w 0 2 - 1)))
  | 0x35 => if fld w 0 2 = 0 then .error .value else needZero (fld w 2 23) (.waitk (Fin.ofNat 3 (fld w 0 2 - 1)))
  | 0x36 => needZero (d.val + fld w 0 15) (.sqput a)
  | 0x37 => if fld w 0 3 = 0 then .error .value else needZero (fld w 3 22) (.eidle (BitVec.ofNat 3 (fld w 0 3)))
  | 0x38 => needZero (fld w 0 25) .exit
  | 0x39 => if 2 ≤ fld w 0 2 then .error .value else needZero (d.val + fld w 2 13) (.fpsh (Fin.ofNat 2 (fld w 0 2)) a)
  | 0x3A => if 3 ≤ fld w 0 2 then .error .value else needZero (fld w 2 18) (.fpop d (Fin.ofNat 3 (fld w 0 2)))
  | 0x3B => if 3 ≤ fld w 0 2 then .error .value else needZero (fld w 2 18) (.fcnt d (Fin.ofNat 3 (fld w 0 2)))
  | 0x3C =>
    match condOf (fld w 0 3) with
    | some c => withScope (fld w 3 3) fun s => needZero (fld w 6 4) (.waitw d a b c s)
    | none => .error .value
  | 0x3D => needZero (fld w 0 25) .yield
  | 0x40 => withBarrierScope sc fun s => needZero (d.val + fld w 3 12) (.barr a s)
  | 0x41 => withBarrierScope sc fun s => needZero (fld w 3 12) (.barw d a s)
  | 0x42 => withBarrierScope sc fun s => needZero (d.val + fld w 3 7) (.bbpost a b s)
  | 0x43 => withBarrierScope sc fun s => needZero (fld w 3 12) (.barq d a s)
  | 0x44 => needZero (fld w 1 14) (.pgreq d a (fld w 0 1 == 1))
  | 0x45 => needZero (fld w 0 15) (.pgres d a)
  | 0x46 => .ok (.probe d a imm15)
  | 0x48 => needZero d.val (.svc imm20)
  | 0x49 => needZero (fld w 0 25) .tret
  | 0x4A => needZero (a.val + fld w 0 3) (.csrr d csr)
  | 0x4B => needZero (d.val + fld w 0 3) (.csrw csr a)
  | 0x4C => needZero (fld w 0 3) (.csrset d a csr)
  | 0x4D => needZero (fld w 0 3) (.csrclr d a csr)
  | 0x4E => needZero d.val (.brk imm20)
  | 0x4F => .ok (.trace d imm20)
  | _ => .error .opcode

/-- A source operand code of class T (R46, R47). -/
def srcOf (n : Nat) : Option Src :=
  if n < 16 then some (.view (Fin.ofNat 16 n))
  else if n < 24 then some (.port (Fin.ofNat 8 (n - 16)))
  else if n = 24 then some .sq
  else none

/-- The number of a view (class V). -/
def viewOf (n : Nat) : Option (Fin 16) := if n < 16 then some (Fin.ofNat 16 n) else none
/-- The number of a port (class P). -/
def portOf (n : Nat) : Option (Fin 8) :=
  if 16 ≤ n && n < 24 then some (Fin.ofNat 8 (n - 16)) else none
/-- A mask number (class K). -/
def maskOf (n : Nat) : Option (Fin 8) := if n < 8 then some (Fin.ofNat 8 n) else none

/-- Accept a V word only when the instruction it forms is well formed (R35, R48). -/
def okIf (z : Nat) (i : Instr) : Except Reject Instr :=
  if z = 0 then (if i.wf then .ok i else .error .operand) else .error .reserved

/-- Form an instruction of one view destination and one source of class T. -/
def dec1 (d a : Nat) (z : Nat) (k : Fin 16 → Src → Instr) : Except Reject Instr :=
  match viewOf d, srcOf a with
  | some d, some a => okIf z (k d a)
  | _, _ => .error .operand

/-- Form an instruction of one view destination and two sources of class T. -/
def dec2 (d a b : Nat) (z : Nat) (k : Fin 16 → Src → Src → Instr) : Except Reject Instr :=
  match viewOf d, srcOf a, srcOf b with
  | some d, some a, some b => okIf z (k d a b)
  | _, _, _ => .error .operand

def predOf (n : Nat) : VPred := match n with | 0 => .eq | 1 => .lt | 2 => .le | _ => .ne
def maskOpOf (n : Nat) : MaskOp := match n with | 0 => .and | 1 => .or | 2 => .xor | _ => .andn
def maskPatOf (n : Nat) : MaskPat := match n with | 0 => .clr | 1 => .shape | 2 => .lower | _ => .upper
def axisOf (n : Nat) : Axis := if n = 0 then .rows else .cols

/-- The distance of a code from the code 31, none (R46). -/
def notNone (n : Nat) : Nat := if n = 31 then 0 else 1

/-- The V stream (R46–R49, Tables 2.7 and 2.8). -/
def decodeV (w : Nat) : Except Reject Instr :=
  let y : Sync := ⟨Fin.ofNat 4 (fld w 24 2), Fin.ofNat 4 (fld w 22 2)⟩
  let d := fld w 17 5
  let a := fld w 12 5
  let b := fld w 7 5
  let mk := fld w 4 3
  let m : Fin 8 := Fin.ofNat 8 mk
  let ra := fld w 3 1 == 1
  let rb := fld w 2 1 == 1
  let hints := fld w 2 2
  let v := fld w 0 2
  let v0 := fld w 0 1
  let v1 := fld w 1 1
  let o : VMod := ⟨y, m, ra, rb, v0 == 1⟩
  match fld w 26 6 with
  | 0x01 => if a = 24 then (match viewOf d with
      | some d => okIf (notNone b + mk + hints + v) (.vview y d)
      | none => .error .operand) else .error .operand
  | 0x02 => if a = 24 then (match portOf d with
      | some d => okIf (notNone b + mk + hints + v) (.vpset y d)
      | none => .error .operand) else .error .operand
  | 0x03 =>
    match viewOf d, portOf a with
    | some d, some a =>
      if b = 31 then okIf v1 (.vld o d a 0)
      else if 1 ≤ b && b < 8 then okIf v1 (.vld o d a (Fin.ofNat 8 b))
      else .error .operand
    | _, _ => .error .operand
  | 0x04 =>
    match portOf d, viewOf a with
    | some d, some a => okIf (notNone b + hints + v) (.vst y m d a)
    | _, _ => .error .operand
  | 0x05 => dec1 d a (notNone b + v1) (.vmov o)
  | 0x08 => dec2 d a b v1 (.vadd o)
  | 0x09 => dec2 d a b v1 (.vsub o)
  | 0x0A => dec2 d a b v1 (.vmul o)
  | 0x0B => dec2 d a b v1 (.vfma o)
  | 0x0C => dec2 d a b v1 (.vmin o)
  | 0x0D => dec2 d a b v1 (.vmax o)
  | 0x0E => dec1 d a (notNone b + v1) (.vabs o)
  | 0x0F => dec1 d a (notNone b + v1) (.vneg o)
  | 0x10 => dec1 d a (notNone b + v1) (.vrcp o)
  | 0x11 => dec1 d a (notNone b + v1) (.vrsq o)
  | 0x12 => dec1 d a (notNone b + v1) (.vsqrt o)
  | 0x13 => dec1 d a (notNone b + v1) (.vexp2 o)
  | 0x14 => dec1 d a (notNone b + v1) (.vlog2 o)
  | 0x15 => dec1 d a (notNone b + v1) (.vtanh o)
  | 0x18 =>
    match maskOf d, srcOf a, srcOf b with
    | some k, some a, some b => okIf 0 (.vcmp y m ra rb (predOf v) k a b)
    | _, _, _ => .error .operand
  | 0x19 => dec2 d a b v (.vsel y m ra rb)
  | 0x1A =>
    match maskOf d, maskOf a, maskOf b with
    | some k, some i, some j => okIf (mk + hints) (.vmlog y (maskOpOf v) k i j)
    | _, _, _ => .error .operand
  | 0x1B =>
    match maskOf d, viewOf a with
    | some k, some a => okIf (notNone b + mk + hints) (.vmset y (maskPatOf v) k a)
    | _, _ => .error .operand
  | 0x1C =>
    match maskOf a with
    | some i =>
      if b = 31 then okIf (notNone d + mk + hints + v) (.vmcnt y i none)
      else (match viewOf b with
        | some s => okIf (notNone d + mk + hints + v) (.vmcnt y i (some s))
        | none => .error .operand)
    | none => .error .operand
  | 0x20 => dec1 d a (notNone b) (.vcvt o (v1 == 1))
  | 0x21 => dec1 d a (notNone b + v1) (.vrnd o)
  | 0x24 => dec1 d a (notNone b) (.vred o (axisOf v1))
  | 0x25 => dec1 d a (notNone b) (.vscan o (axisOf v1))
  | 0x28 => dec1 d a (notNone b + v1) (.vtrn o)
  | 0x29 =>
    match viewOf d, srcOf a, viewOf b with
    | some d, some a, some b => okIf 0 (.vshf o (axisOf v1) d a b)
    | _, _, _ => .error .operand
  | 0x2C => if b = 24 then (match viewOf a with
      | some a => okIf (notNone d + mk + hints + v) (.vxs y a)
      | none => .error .operand) else .error .operand
  | 0x3E => okIf (fld w 0 22) (.vnop y)
  | 0x3F => okIf (fld w 0 22) (.vend y)
  | _ => .error .opcode

def mfmtOf (n : Nat) : Option MFormat :=
  match n with
  | 2 => some .bf16 | 3 => some .fp16 | 4 => some .e4m3 | 5 => some .e5m2 | 6 => some .code4
  | _ => none

def abOf (n : Nat) : ABSel := if n = 0 then .a else .b

/-- The M stream (R50, Table 2.9). -/
def decodeM (w : Nat) : Except Reject Instr :=
  let y : Sync := ⟨Fin.ofNat 4 (fld w 25 2), Fin.ofNat 4 (fld w 23 2)⟩
  let rec' : BitVec 17 := BitVec.ofNat 17 (fld w 0 17)
  match fld w 27 5 with
  | 0x01 => if 6 ≤ fld w 20 3 then .error .value else needZero (fld w 17 3) (.mnest y (Fin.ofNat 6 (fld w 20 3)) rec')
  | 0x02 =>
    match fld w 21 2 with
    | 0 => needZero (fld w 17 4) (.mbase y .a rec')
    | 1 => needZero (fld w 17 4) (.mbase y .b rec')
    | 2 => needZero (fld w 17 4) (.mbase y .c rec')
    | _ => .error .value
  | 0x03 => needZero (fld w 17 6) (.mmask y rec')
  | 0x04 =>
    match mfmtOf (fld w 19 4), mfmtOf (fld w 15 4) with
    | some fa, some fb => needZero (fld w 0 15) (.mfmt y fa fb)
    | _, _ => .error .value
  | 0x05 =>
    if fld w 21 1 = 1 then needZero (fld w 17 4) (.mbmapOn y (abOf (fld w 22 1)) rec')
    else needZero (fld w 0 21) (.mbmapOff y (abOf (fld w 22 1)))
  | 0x06 => needZero (fld w 0 17 + fld w 20 2) (.mcode y (abOf (fld w 22 1)) (Fin.ofNat 8 (fld w 17 3)))
  | 0x07 =>
    if fld w 19 4 = 0 then .error .value
    else needZero (fld w 17 2) (.mldb y (BitVec.ofNat 4 (fld w 19 4)) rec')
  | 0x08 =>
    if fld w 21 2 = 3 then .error .value
    else needZero (fld w 0 20)
      (if fld w 20 1 = 1 then .maccClear y (Fin.ofNat 3 (fld w 21 2)) else .macc y (Fin.ofNat 3 (fld w 21 2)))
  | 0x09 =>
    if fld w 20 3 = 0 || fld w 20 3 = 7 then .error .value
    else needZero (fld w 0 20) (.mgo y (Fin.ofNat 6 (fld w 20 3 - 1)))
  | 0x0A => if fld w 21 2 = 3 then .error .value else needZero (fld w 17 4) (.mdrn y (Fin.ofNat 3 (fld w 21 2)) rec')
  | 0x1E => needZero (fld w 0 23) (.mnop y)
  | 0x1F => needZero (fld w 0 23) (.mend y)
  | _ => .error .opcode

/-- The X stream (R50, Table 2.10). -/
def decodeX (w : Nat) : Except Reject Instr :=
  let y : Sync := ⟨Fin.ofNat 4 (fld w 25 2), Fin.ofNat 4 (fld w 23 2)⟩
  let rec' : BitVec 17 := BitVec.ofNat 17 (fld w 0 17)
  let ch : Fin 8 := Fin.ofNat 8 (fld w 20 3)
  match fld w 27 5 with
  | 0x01 => needZero (fld w 8 15) (.xstg y (BitVec.ofNat 8 (fld w 0 8)))
  | 0x02 => needZero (fld w 17 3) (.xcpy y ch rec')
  | 0x03 => needZero (fld w 17 3) (.xgth y ch rec')
  | 0x04 => needZero (fld w 17 3) (.xsct y ch rec')
  | 0x05 => needZero (fld w 17 3) (.xfill y ch rec')
  | 0x06 =>
    if fld w 19 1 = 1 then needZero (fld w 17 2) (.xwidRec y ch rec')
    else needZero (fld w 0 19) (.xwid y ch)
  | 0x07 =>
    match fld w 17 2 with
    | 0 => .ok (.xcbConfig y (Fin.ofNat 16 (fld w 19 4)) rec')
    | 1 => needZero (fld w 0 17) (.xcbReset y (Fin.ofNat 16 (fld w 19 4)))
    | _ => .error .value
  | 0x1E => needZero (fld w 0 23) (.xnop y)
  | 0x1F => needZero (fld w 0 23) (.xend y)
  | _ => .error .opcode

/-- The decoder: a word means what the stream that fetched it says (R31). -/
def decode (e : Eng) (w : Nat) : Except Reject Instr :=
  match e with
  | .S => decodeS w
  | .V => decodeV w
  | .M => decodeM w
  | .X => decodeX w

/-- The word of four bytes stored little-endian, lowest address first (R2, R31). -/
def wordOfBytes (l : List Byte) : Nat :=
  l.foldr (fun b acc => b.toNat + 256 * acc) 0

/-- The n bytes of a value, lowest address first (R2). -/
def bytesOf : Nat → Nat → List Byte
  | 0, _ => []
  | n + 1, v => BitVec.ofNat 8 v :: bytesOf n (v / 256)

/-- Decoding of the bytes at a stream's program counter. -/
def decodeBytes (e : Eng) (l : List Byte) : Except Reject Instr := decode e (wordOfBytes l)

/-- The stream that the table's word is tried in: the first of V, S, M and X that decodes it. The
table does not name the stream (DESIGN CHOICE, notes/assumptions/5.md). -/
def tableStream (w : Nat) : Eng :=
  match decodeV w with
  | .ok _ => .V
  | .error _ =>
    match decodeS w with
    | .ok _ => .S
    | .error _ =>
      match decodeM w with
      | .ok _ => .M
      | .error _ =>
        match decodeX w with
        | .ok _ => .X
        | .error _ => .S

/-- The instruction that the decoder reads from a word of the opcode table. -/
def decodeTableWord (_nbits w : Nat) : Option Instr :=
  match decodeBytes (tableStream w) (bytesOf 4 w) with
  | .ok i => some i
  | .error _ => none


/-! ## The encoder -/

def Scope.code : Scope → Nat | .core => 0 | .sg => 1 | .die => 2 | .pkg => 3 | .dom => 4
def AOp.code : AOp → Nat
  | .add => 0 | .and => 1 | .or => 2 | .xor => 3 | .min => 4 | .max => 5 | .minu => 6 | .maxu => 7 | .swap => 8
def MemOrder.code : MemOrder → Nat | .rlx => 0 | .acq => 1 | .rel => 2 | .ar => 3
def WCond.code : WCond → Nat | .eq => 0 | .ne => 1 | .geu => 2 | .ltu => 3 | .ge => 4 | .lt => 5
def VPred.code : VPred → Nat | .eq => 0 | .lt => 1 | .le => 2 | .ne => 3
def MaskOp.code : MaskOp → Nat | .and => 0 | .or => 1 | .xor => 2 | .andn => 3
def MaskPat.code : MaskPat → Nat | .clr => 0 | .shape => 1 | .lower => 2 | .upper => 3
def Axis.code : Axis → Nat | .rows => 0 | .cols => 1
def MFormat.code : MFormat → Nat | .bf16 => 2 | .fp16 => 3 | .e4m3 => 4 | .e5m2 => 5 | .code4 => 6
def ABSel.code : ABSel → Nat | .a => 0 | .b => 1
def ABCSel.code : ABCSel → Nat | .a => 0 | .b => 1 | .c => 2
def Src.code : Src → Nat | .view n => n.val | .port n => 16 + n.val | .sq => 24
def Sync.code (y : Sync) : Nat := y.pop.val * 4 + y.push.val

/-- Formats SR, SI, SB, SX: opcode, d, a and the low 15 bits (Table 2.3). -/
def encS (op d a low15 : Nat) : Nat := op * 2 ^ 25 + d * 2 ^ 20 + a * 2 ^ 15 + low15
/-- Format SR with its b and fn fields. -/
def encSR (op d a b fn : Nat) : Nat := encS op d a (b * 2 ^ 10 + fn)
/-- Formats SU and SJ. -/
def encSU (op d imm : Nat) : Nat := op * 2 ^ 25 + d * 2 ^ 20 + imm
/-- Format SA. -/
def encSA (op d a b aop order scope : Nat) : Nat :=
  encS op d a (b * 2 ^ 10 + aop * 2 ^ 6 + order * 2 ^ 4 + scope * 2)
/-- The V format (Table 2.7). -/
def encV (op : Nat) (y : Sync) (d a b mask : Nat) (ra rb : Bool) (var : Nat) : Nat :=
  op * 2 ^ 26 + y.code * 2 ^ 22 + d * 2 ^ 17 + a * 2 ^ 12 + b * 2 ^ 7 + mask * 2 ^ 4
    + ra.toNat * 2 ^ 3 + rb.toNat * 2 ^ 2 + var
/-- A V word whose modifiers are `o` and whose var bit 1 is `hi`. -/
def encVM (op : Nat) (o : VMod) (d a b hi : Nat) : Nat :=
  encV op o.sync d a b o.mask.val o.ra o.rb (o.zero.toNat + 2 * hi)
/-- The M and X formats (R50). -/
def encMX (op : Nat) (y : Sync) (payload : Nat) : Nat := op * 2 ^ 27 + y.code * 2 ^ 23 + payload

/-- The word of an instruction and the stream it belongs to; none for a step without encoding. -/
def encode : Instr → Option (Eng × Nat)
  | .add d a b => some (.S, encSR 0x01 d a b 0)
  | .sub d a b => some (.S, encSR 0x01 d a b 1)
  | .mul d a b => some (.S, encSR 0x01 d a b 2)
  | .mulh d a b => some (.S, encSR 0x01 d a b 3)
  | .mulhu d a b => some (.S, encSR 0x01 d a b 4)
  | .div d a b => some (.S, encSR 0x01 d a b 5)
  | .divu d a b => some (.S, encSR 0x01 d a b 6)
  | .rem d a b => some (.S, encSR 0x01 d a b 7)
  | .remu d a b => some (.S, encSR 0x01 d a b 8)
  | .and d a b => some (.S, encSR 0x01 d a b 9)
  | .or d a b => some (.S, encSR 0x01 d a b 10)
  | .xor d a b => some (.S, encSR 0x01 d a b 11)
  | .shl d a b => some (.S, encSR 0x01 d a b 12)
  | .shr d a b => some (.S, encSR 0x01 d a b 13)
  | .sra d a b => some (.S, encSR 0x01 d a b 14)
  | .slt d a b => some (.S, encSR 0x01 d a b 15)
  | .sltu d a b => some (.S, encSR 0x01 d a b 16)
  | .min d a b => some (.S, encSR 0x01 d a b 17)
  | .max d a b => some (.S, encSR 0x01 d a b 18)
  | .minu d a b => some (.S, encSR 0x01 d a b 19)
  | .maxu d a b => some (.S, encSR 0x01 d a b 20)
  | .clz d a => some (.S, encSR 0x01 d a 0 21)
  | .popc d a => some (.S, encSR 0x01 d a 0 22)
  | .bfx d a b => some (.S, encSR 0x01 d a b 23)
  | .bfi d a b => some (.S, encSR 0x01 d a b 24)
  | .fadd d a b => some (.S, encSR 0x02 d a b 0)
  | .fsub d a b => some (.S, encSR 0x02 d a b 1)
  | .fmul d a b => some (.S, encSR 0x02 d a b 2)
  | .ffma d a b => some (.S, encSR 0x02 d a b 3)
  | .fmin d a b => some (.S, encSR 0x02 d a b 4)
  | .fmax d a b => some (.S, encSR 0x02 d a b 5)
  | .fceq d a b => some (.S, encSR 0x02 d a b 6)
  | .fclt d a b => some (.S, encSR 0x02 d a b 7)
  | .fcle d a b => some (.S, encSR 0x02 d a b 8)
  | .fcvti d a => some (.S, encSR 0x02 d a 0 9)
  | .fcvtf d a => some (.S, encSR 0x02 d a 0 10)
  | .fexp2 d a => some (.S, encSR 0x02 d a 0 11)
  | .flog2 d a => some (.S, encSR 0x02 d a 0 12)
  | .frcp d a => some (.S, encSR 0x02 d a 0 13)
  | .addi d a i => some (.S, encS 8 d a i.toNat)
  | .andi d a i => some (.S, encS 9 d a i.toNat)
  | .ori d a i => some (.S, encS 10 d a i.toNat)
  | .xori d a i => some (.S, encS 11 d a i.toNat)
  | .shli d a i => some (.S, encS 12 d a i.toNat)
  | .shri d a i => some (.S, encS 13 d a i.toNat)
  | .srai d a i => some (.S, encS 14 d a i.toNat)
  | .slti d a i => some (.S, encS 15 d a i.toNat)
  | .sltui d a i => some (.S, encS 16 d a i.toNat)
  | .lui d i => some (.S, encSU 0x11 d i.toNat)
  | .apc d i => some (.S, encSU 0x12 d i.toNat)
  | .beq a b off => some (.S, encS 24 a b off.toNat)
  | .bne a b off => some (.S, encS 25 a b off.toNat)
  | .blt a b off => some (.S, encS 26 a b off.toNat)
  | .bge a b off => some (.S, encS 27 a b off.toNat)
  | .bltu a b off => some (.S, encS 28 a b off.toNat)
  | .bgeu a b off => some (.S, encS 29 a b off.toNat)
  | .bpred g off => some (.S, encS 0x1E g 0 off.toNat)
  | .jal d off => some (.S, encSU 0x20 d off.toNat)
  | .jalr d a i => some (.S, encS 0x21 d a i.toNat)
  | .loop n rot stg c len =>
    some (.S, 0x22 * 2 ^ 25 + n * 2 ^ 23 + rot.toNat * 2 ^ 22 + stg.toNat * 2 ^ 21 + c * 2 ^ 16 + len.toNat)
  | .loopi n rot stg count len =>
    some (.S, 0x23 * 2 ^ 25 + n * 2 ^ 23 + rot.toNat * 2 ^ 22 + stg.toNat * 2 ^ 21 + count.toNat * 2 ^ 9 + len.toNat)
  | .leave n => some (.S, 0x24 * 2 ^ 25 + n * 2 ^ 23)
  | .ld d base size off => some (.S, encS 0x28 d base (size * 2 ^ 12 + off.toNat))
  | .ldu d base size off => some (.S, encS 0x29 d base (size * 2 ^ 12 + off.toNat))
  | .st src base size off => some (.S, encS 0x2A src base (size * 2 ^ 12 + off.toNat))
  | .amo d a b op o s => some (.S, encSA 0x2C d a b op.code o.code s.code)
  | .cas d a b o s => some (.S, encSA 0x2D d a b 0 o.code s.code)
  | .acqL a s => some (.S, encSR 0x30 0 a 0 s.code)
  | .acqC a b s => some (.S, encSR 0x30 0 a b (2 ^ 9 + s.code))
  | .relL a s => some (.S, encSR 0x31 0 a 0 s.code)
  | .relC a s => some (.S, encSR 0x31 0 a 0 (2 ^ 9 + s.code))
  | .fence s => some (.S, encSR 0x32 0 0 0 s.code)
  | .bind d a b k => some (.S, encSR 0x33 d a b k.toNat)
  | .sig p => some (.S, encSR 0x34 0 0 0 (p.val + 1))
  | .waitk p => some (.S, encSR 0x35 0 0 0 (p.val + 1))
  | .sqput a => some (.S, encSR 0x36 0 a 0 0)
  | .eidle m => some (.S, encSR 0x37 0 0 0 m.toNat)
  | .exit => some (.S, encSR 0x38 0 0 0 0)
  | .fpsh f a => some (.S, encSR 0x39 0 a 0 f.val)
  | .fpop d f => some (.S, encSR 0x3A d 0 0 f.val)
  | .fcnt d f => some (.S, encSR 0x3B d 0 0 f.val)
  | .waitw d a b c s => some (.S, encSR 0x3C d a b (s.code * 2 ^ 3 + c.code))
  | .yield => some (.S, encSR 0x3D 0 0 0 0)
  | .barr a s => some (.S, encSR 0x40 0 a 0 s.code)
  | .barw d a s => some (.S, encSR 0x41 d a 0 s.code)
  | .bbpost a b s => some (.S, encSR 0x42 0 a b s.code)
  | .barq d a s => some (.S, encSR 0x43 d a 0 s.code)
  | .pgreq d a w => some (.S, encSR 0x44 d a 0 w.toNat)
  | .pgres d a => some (.S, encSR 0x45 d a 0 0)
  | .probe d a off => some (.S, encS 0x46 d a off.toNat)
  | .svc c => some (.S, encSU 0x48 0 c.toNat)
  | .tret => some (.S, encSR 0x49 0 0 0 0)
  | .csrr d c => some (.S, encS 0x4A d 0 (c.toNat * 2 ^ 3))
  | .csrw c a => some (.S, encS 0x4B 0 a (c.toNat * 2 ^ 3))
  | .csrset d a c => some (.S, encS 0x4C d a (c.toNat * 2 ^ 3))
  | .csrclr d a c => some (.S, encS 0x4D d a (c.toNat * 2 ^ 3))
  | .brk c => some (.S, encSU 0x4E 0 c.toNat)
  | .trace d t => some (.S, encSU 0x4F d t.toNat)
  | .vview y d => some (.V, encV 0x01 y d 24 31 0 false false 0)
  | .vpset y d => some (.V, encV 0x02 y (16 + d) 24 31 0 false false 0)
  | .vld o d a r => some (.V, encVM 0x03 o d (16 + a) (if r.val = 0 then 31 else r.val) 0)
  | .vst y m d a => some (.V, encV 0x04 y (16 + d) a 31 m false false 0)
  | .vmov o d a => some (.V, encVM 0x05 o d a.code 31 0)
  | .vadd o d a b => some (.V, encVM 8 o d a.code b.code 0)
  | .vsub o d a b => some (.V, encVM 9 o d a.code b.code 0)
  | .vmul o d a b => some (.V, encVM 10 o d a.code b.code 0)
  | .vfma o d a b => some (.V, encVM 11 o d a.code b.code 0)
  | .vmin o d a b => some (.V, encVM 12 o d a.code b.code 0)
  | .vmax o d a b => some (.V, encVM 13 o d a.code b.code 0)
  | .vabs o d a => some (.V, encVM 14 o d a.code 31 0)
  | .vneg o d a => some (.V, encVM 15 o d a.code 31 0)
  | .vrcp o d a => some (.V, encVM 16 o d a.code 31 0)
  | .vrsq o d a => some (.V, encVM 17 o d a.code 31 0)
  | .vsqrt o d a => some (.V, encVM 18 o d a.code 31 0)
  | .vexp2 o d a => some (.V, encVM 19 o d a.code 31 0)
  | .vlog2 o d a => some (.V, encVM 20 o d a.code 31 0)
  | .vtanh o d a => some (.V, encVM 21 o d a.code 31 0)
  | .vcmp y m ra rb p k a b => some (.V, encV 0x18 y k a.code b.code m ra rb p.code)
  | .vsel y m ra rb d a b => some (.V, encV 0x19 y d a.code b.code m ra rb 0)
  | .vmlog y op k i j => some (.V, encV 0x1A y k i j 0 false false op.code)
  | .vmset y p k a => some (.V, encV 0x1B y k a 31 0 false false p.code)
  | .vmcnt y i b => some (.V, encV 0x1C y 31 i (match b with | some s => s.val | none => 31) 0 false false 0)
  | .vcvt o sat d a => some (.V, encVM 0x20 o d a.code 31 sat.toNat)
  | .vrnd o d a => some (.V, encVM 0x21 o d a.code 31 0)
  | .vred o ax d a => some (.V, encVM 0x24 o d a.code 31 ax.code)
  | .vscan o ax d a => some (.V, encVM 0x25 o d a.code 31 ax.code)
  | .vtrn o d a => some (.V, encVM 0x28 o d a.code 31 0)
  | .vshf o ax d a b => some (.V, encVM 0x29 o d a.code b ax.code)
  | .vxs y a => some (.V, encV 0x2C y 31 a 24 0 false false 0)
  | .vnop y => some (.V, encV 0x3E y 0 0 0 0 false false 0)
  | .vend y => some (.V, encV 0x3F y 0 0 0 0 false false 0)
  | .mnest y l r => some (.M, encMX 0x01 y (l * 2 ^ 20 + r.toNat))
  | .mbase y op r => some (.M, encMX 0x02 y (op.code * 2 ^ 21 + r.toNat))
  | .mmask y r => some (.M, encMX 0x03 y r.toNat)
  | .mfmt y fa fb => some (.M, encMX 0x04 y (fa.code * 2 ^ 19 + fb.code * 2 ^ 15))
  | .mbmapOn y op r => some (.M, encMX 0x05 y (op.code * 2 ^ 22 + 2 ^ 21 + r.toNat))
  | .mbmapOff y op => some (.M, encMX 0x05 y (op.code * 2 ^ 22))
  | .mcode y op n => some (.M, encMX 0x06 y (op.code * 2 ^ 22 + n * 2 ^ 17))
  | .mldb y g r => some (.M, encMX 0x07 y (g.toNat * 2 ^ 19 + r.toNat))
  | .macc y n => some (.M, encMX 0x08 y (n * 2 ^ 21))
  | .maccClear y n => some (.M, encMX 0x08 y (n * 2 ^ 21 + 2 ^ 20))
  | .mgo y n => some (.M, encMX 0x09 y ((n.val + 1) * 2 ^ 20))
  | .mdrn y n r => some (.M, encMX 0x0A y (n * 2 ^ 21 + r.toNat))
  | .mnop y => some (.M, encMX 0x1E y 0)
  | .mend y => some (.M, encMX 0x1F y 0)
  | .xstg y n => some (.X, encMX 0x01 y n.toNat)
  | .xcpy y c r => some (.X, encMX 0x02 y (c * 2 ^ 20 + r.toNat))
  | .xgth y c r => some (.X, encMX 0x03 y (c * 2 ^ 20 + r.toNat))
  | .xsct y c r => some (.X, encMX 0x04 y (c * 2 ^ 20 + r.toNat))
  | .xfill y c r => some (.X, encMX 0x05 y (c * 2 ^ 20 + r.toNat))
  | .xwid y c => some (.X, encMX 0x06 y (c * 2 ^ 20))
  | .xwidRec y c r => some (.X, encMX 0x06 y (c * 2 ^ 20 + 2 ^ 19 + r.toNat))
  | .xcbConfig y b r => some (.X, encMX 0x07 y (b * 2 ^ 19 + r.toNat))
  | .xcbReset y b => some (.X, encMX 0x07 y (b * 2 ^ 19 + 2 ^ 17))
  | .xnop y => some (.X, encMX 0x1E y 0)
  | .xend y => some (.X, encMX 0x1F y 0)
  | _ => none

end Sys2Proof
end

