-- ==== Sys2Proof/Machine/Numbers.lean ====
section
/-! DEFINITION. Number formats and exact arithmetic (chapter 03): exact values, decoding, rounding,
the functions of Table 3.7 and the K-step sum. Nothing here is rounded except in `roundFmt`. -/

namespace Sys2Proof.Machine
open Sys2Proof

/-- An exact value: NaN, an infinity, or ±(m + δ) × 2^e, where δ = 0 unless `sticky`, and
0 < δ < 1 when `sticky` (used only for irrational results, with m of at least 60 bits). -/
inductive XNum where
  | nan
  | inf (neg : Bool)
  | fin (neg : Bool) (m : Nat) (e : Int) (sticky : Bool)
  deriving DecidableEq, Repr

/-- An exact finite value. -/
def XNum.exact (neg : Bool) (m : Nat) (e : Int) : XNum := .fin neg m e false
/-- +0. -/
def XNum.zero : XNum := .fin false 0 0 false

/-- A floating format of Table 3.2. -/
inductive Fmt where
  | fp32 | bf16 | fp16 | e4m3 | e5m2
  deriving DecidableEq, Repr

/-- The precision p, hidden bit included (Table 3.2). -/
def Fmt.p : Fmt → Nat | .fp32 => 24 | .bf16 => 8 | .fp16 => 11 | .e4m3 => 4 | .e5m2 => 3
/-- The number of exponent bits. -/
def Fmt.ebits : Fmt → Nat | .fp32 => 8 | .bf16 => 8 | .fp16 => 5 | .e4m3 => 4 | .e5m2 => 5
def Fmt.bias : Fmt → Int | .fp32 => 127 | .bf16 => 127 | .fp16 => 15 | .e4m3 => 7 | .e5m2 => 15
/-- The exponent of the smallest normal. -/
def Fmt.emin (f : Fmt) : Int := 1 - f.bias
def Fmt.hasInf : Fmt → Bool | .e4m3 => false | _ => true
/-- The width of a code in bits. -/
def Fmt.width (f : Fmt) : Nat := f.p + f.ebits
/-- The size of an element in bytes. -/
def Fmt.size (f : Fmt) : Nat := f.width / 8
/-- The canonical NaN (Table 3.2). -/
def Fmt.qnan : Fmt → Nat
  | .fp32 => 0x7FC00000 | .bf16 => 0x7FC0 | .fp16 => 0x7E00 | .e4m3 => 0x7F | .e5m2 => 0x7E
/-- The code of the largest finite magnitude (Table 3.2). -/
def Fmt.maxCode : Fmt → Nat
  | .fp32 => 0x7F7FFFFF | .bf16 => 0x7F7F | .fp16 => 0x7BFF | .e4m3 => 0x7E | .e5m2 => 0x7B
/-- The code of +∞ where there is one. -/
def Fmt.infCode : Fmt → Nat
  | .fp32 => 0x7F800000 | .bf16 => 0x7F80 | .fp16 => 0x7C00 | .e4m3 => 0x7F | .e5m2 => 0x7C
/-- The sign bit of a code. -/
def Fmt.signBit (f : Fmt) (neg : Bool) : Nat := if neg then 2 ^ (f.width - 1) else 0

/-- The format an FMT code 1–5 names (Table 3.1). -/
def fmtOfCode (n : Nat) : Option Fmt :=
  match n with
  | 1 => some .fp32 | 2 => some .bf16 | 3 => some .fp16 | 4 => some .e4m3 | 5 => some .e5m2
  | _ => none

/-! ## Flags and rounding modes -/

def flagInvalid : BitVec 6 := 1
def flagOverflow : BitVec 6 := 2
def flagUnderflow : BitVec 6 := 4
def flagInexact : BitVec 6 := 8
def flagDivzero : BitVec 6 := 16
def flagFormatCode : BitVec 6 := 32

/-- Rounding modes (R71). -/
inductive RMode where
  | rne | rz | ru | rd | sr
  deriving DecidableEq, Repr

def rmodeOf (n : Nat) : RMode :=
  match n with
  | 0 => .rne | 1 => .rz | 2 => .ru | 3 => .rd | _ => .sr

/-! ## Decoding -/

/-- Decode a code of a floating format and the flags this raises (R62, R70). -/
def decodeFloat (f : Fmt) (c : Nat) : XNum × BitVec 6 :=
  let c := c % 2 ^ f.width
  let neg := 2 ^ (f.width - 1) ≤ c
  let frac := c % 2 ^ (f.p - 1)
  let ex := (c / 2 ^ (f.p - 1)) % 2 ^ f.ebits
  if ex = 2 ^ f.ebits - 1 && f.hasInf then
    if frac = 0 then (.inf neg, 0) else (.nan, 0)
  else if f = .e4m3 && c % 128 = 127 then (.nan, flagInvalid ||| flagFormatCode)
  else if ex = 0 then (.exact neg frac (f.emin - (f.p - 1 : Nat)), 0)
  else (.exact neg (frac + 2 ^ (f.p - 1)) ((ex : Int) - f.bias - (f.p - 1 : Nat)), 0)

/-- The value of an FP32 register; a NaN raises nothing (R69). -/
def ofFp32 (c : Nat) : XNum := (decodeFloat .fp32 c).1
/-- The value of a BF16 code; a NaN raises nothing (R69). -/
def ofBf16 (c : Nat) : XNum := (decodeFloat .bf16 c).1

/-- Multiply by 2^(scale − 127), the E8M0 scale of R63 and R66; 0xFF is the reserved NaN (R70). -/
def applyScale (x : XNum) (scale : Byte) : XNum × BitVec 6 :=
  if scale = 0xFF then (.nan, flagInvalid ||| flagFormatCode)
  else match x with
    | .fin n m e s => (.fin n m (e + scale.toNat - 127) s, 0)
    | _ => (x, 0)

/-- Divide by 2^(scale − 127), for a store to a scaled page (R67). -/
def removeScale (x : XNum) (scale : Byte) : XNum :=
  match x with
  | .fin n m e s => .fin n m (e - scale.toNat + 127) s
  | _ => x

/-! ## Rounding (R74) -/

/-- floor(log2 m) for m > 0. -/
def ilog2 (m : Nat) : Nat := Nat.log2 m

/-- x × 2^sh truncated toward zero. -/
def shiftNat (x : Nat) (sh : Int) : Nat := if 0 ≤ sh then x * 2 ^ sh.toNat else x / 2 ^ (-sh).toNat

/-- The magnitude y × 2^q compared with the largest finite value of a format (R74). -/
def exceedsMax (f : Fmt) (y : Nat) (q : Int) : Bool :=
  match (decodeFloat f f.maxCode).1 with
  | .fin _ m e _ => if q ≤ e then m * 2 ^ (e - q).toNat < y else m < y * 2 ^ (q - e).toNat
  | _ => false

/-- The code of the representable magnitude y × 2^q. -/
def encodeMag (f : Fmt) (y : Nat) (q : Int) : Nat :=
  if y = 0 then 0
  else
    let ex := (ilog2 y : Int) + q
    if ex < f.emin then shiftNat y (q - (f.emin - (f.p - 1 : Nat)))
    else (ex + f.bias).toNat * 2 ^ (f.p - 1) + (shiftNat y (q - (ex - (f.p - 1 : Nat))) - 2 ^ (f.p - 1))

/-- What a rounding gives: the code and the flags. -/
structure Rounded where
  code : Nat
  flags : BitVec 6
  deriving DecidableEq, Repr

/-- round_fmt of R74 with the draw already made: `rnd` is bits [31:16] of it under SR. `qmin` is the
least exponent of the step, which VRND sets to 0 (R173) and every other caller leaves out. -/
def roundCore (x : XNum) (f : Fmt) (mode : RMode) (sat : Bool) (rnd : Nat) (qmin : Option Int) : Rounded :=
  match x with
  | .nan => ⟨f.qnan, 0⟩
  | .inf neg =>
    if f.hasInf then ⟨f.infCode + f.signBit neg, 0⟩
    else if sat then ⟨f.maxCode + f.signBit neg, 0⟩
    else ⟨f.qnan, flagInvalid⟩
  | .fin neg m e sticky =>
    if m = 0 then ⟨f.signBit neg, 0⟩
    else
      let fl : Int := (ilog2 m : Int) + e
      let q0 : Int := max fl f.emin - (f.p - 1 : Nat)
      let q : Int := match qmin with | some b => max q0 b | none => q0
      let sh : Int := q - e
      let t := shiftNat m (-sh)
      let d : Nat := if 0 ≤ sh then 2 ^ sh.toNat else 1
      let r : Nat := if 0 ≤ sh then m % 2 ^ sh.toNat else 0
      let inexact : Bool := r != 0 || sticky
      let away : Bool :=
        match mode with
        | .rne => decide (d < 2 * r) || (decide (d = 2 * r) && (sticky || t % 2 == 1))
        | .rz => false
        | .ru => inexact && !neg
        | .rd => inexact && neg
        | .sr => decide (rnd * d < r * 65536) || (decide (rnd * d = r * 65536) && sticky)
      let y := if away then t + 1 else t
      let fInexact := if inexact then flagInexact else 0
      let fUnder := if inexact && decide (fl < f.emin) && qmin.isNone then flagUnderflow else 0
      if exceedsMax f y q then
        let fl' := fInexact ||| fUnder ||| flagOverflow ||| flagInexact
        if sat || mode == .rz || (mode == .ru && neg) || (mode == .rd && !neg) then
          ⟨f.maxCode + f.signBit neg, fl'⟩
        else if f.hasInf then ⟨f.infCode + f.signBit neg, fl'⟩
        else ⟨f.qnan, fl'⟩
      else ⟨encodeMag f y q + f.signBit neg, fInexact ||| fUnder⟩

/-- One xorshift32 step of a stochastic generator (R72). -/
def xorshift (x : W32) : W32 :=
  let x := x ^^^ (x <<< 13)
  let x := x ^^^ (x >>> 17)
  x ^^^ (x <<< 5)

/-- The state a generator is seeded with (R72). -/
def seedState (seed : W32) (c : Nat) : W32 :=
  let s := seed ^^^ BitVec.ofNat 32 (c * 0x9E3779B9)
  if s = 0 then 0x6D2B79F5 else s

/-- round_fmt of R74: under SR every call advances the generator once, whatever x is (R73). -/
def roundFmt (x : XNum) (f : Fmt) (mode : RMode) (sat : Bool) (gen : W32) : Rounded × W32 :=
  if mode = .sr then
    let g := xorshift gen
    (roundCore x f mode sat (g.toNat / 65536) none, g)
  else (roundCore x f mode sat 0 none, gen)

/-- VRND's rounding (R173). -/
def roundIntegral (x : XNum) (f : Fmt) (mode : RMode) (sat : Bool) (gen : W32) : Rounded × W32 :=
  if mode = .sr then
    let g := xorshift gen
    (roundCore x f mode sat (g.toNat / 65536) (some 0), g)
  else (roundCore x f mode sat 0 (some 0), gen)

/-! ## Exact arithmetic (R76, R78) -/

/-- The signed numerator of an exact finite value over 2^e0, for e0 at most its exponent. -/
def signedOver (neg : Bool) (m : Nat) (e e0 : Int) : Int :=
  let v : Int := m * 2 ^ (e - e0).toNat
  if neg then -v else v

/-- x + y exactly; a zero sum of opposite signs is +0, or −0 under RD (R76). -/
def addNum (x y : XNum) (mode : RMode) : XNum × BitVec 6 :=
  match x, y with
  | .nan, _ => (.nan, 0)
  | _, .nan => (.nan, 0)
  | .inf a, .inf b => if a = b then (.inf a, 0) else (.nan, flagInvalid)
  | .inf a, _ => (.inf a, 0)
  | _, .inf b => (.inf b, 0)
  | .fin a m e _, .fin b n k _ =>
    if m = 0 && n = 0 then (.exact (if a = b then a else mode == .rd) 0 0, 0)
    else
      let e0 := min e k
      let v := signedOver a m e e0 + signedOver b n k e0
      if v = 0 then (.exact (mode == .rd) 0 0, 0)
      else (.exact (decide (v < 0)) v.natAbs e0, 0)

/-- −x. -/
def negNum : XNum → XNum
  | .nan => .nan
  | .inf a => .inf (!a)
  | .fin a m e s => .fin (!a) m e s

/-- |x|. -/
def absNum : XNum → XNum
  | .nan => .nan
  | .inf _ => .inf false
  | .fin _ m e s => .fin false m e s

/-- x × y exactly (R76). -/
def mulNum (x y : XNum) : XNum × BitVec 6 :=
  match x, y with
  | .nan, _ => (.nan, 0)
  | _, .nan => (.nan, 0)
  | .inf a, .inf b => (.inf (a != b), 0)
  | .inf a, .fin b n _ _ => if n = 0 then (.nan, flagInvalid) else (.inf (a != b), 0)
  | .fin a m _ _, .inf b => if m = 0 then (.nan, flagInvalid) else (.inf (a != b), 0)
  | .fin a m e _, .fin b n k _ => (.exact (a != b) (m * n) (e + k), 0)

/-- x × y + z with the product judged apart from the addend (R76). -/
def fmaNum (x y z : XNum) (mode : RMode) : XNum × BitVec 6 :=
  let (p, fl) := mulNum x y
  let (r, fl') := addNum p z mode
  (r, fl ||| fl')

/-- The order of two values that are not NaN, −0 counting as +0 (R78). -/
def cmpNum (x y : XNum) : Ordering :=
  match x, y with
  | .inf a, .inf b => if a = b then .eq else if a then .lt else .gt
  | .inf a, _ => if a then .lt else .gt
  | _, .inf b => if b then .gt else .lt
  | .fin a m e _, .fin b n k _ =>
    let e0 := min e k
    compare (signedOver a m e e0) (signedOver b n k e0)
  | _, _ => .eq

def XNum.isNan : XNum → Bool | .nan => true | _ => false
def XNum.isZero : XNum → Bool | .fin _ 0 _ _ => true | _ => false
def XNum.isNeg : XNum → Bool | .nan => false | .inf a => a | .fin a _ _ _ => a
def XNum.isInf : XNum → Bool | .inf _ => true | _ => false

/-- x = y, x < y and x ≤ y as the comparisons take them: false on a NaN (R78). -/
def eqNum (x y : XNum) : Bool := !x.isNan && !y.isNan && cmpNum x y == .eq
def ltNum (x y : XNum) : Bool := !x.isNan && !y.isNan && cmpNum x y == .lt
def leNum (x y : XNum) : Bool := !x.isNan && !y.isNan && cmpNum x y != .gt

/-- min and max order −0 below +0 and give NaN on a NaN (R78). -/
def minNum (x y : XNum) : XNum :=
  if x.isNan || y.isNan then .nan
  else match cmpNum x y with
    | .lt => x
    | .gt => y
    | .eq => if x.isNeg then x else y
def maxNum (x y : XNum) : XNum :=
  if x.isNan || y.isNan then .nan
  else match cmpNum x y with
    | .lt => y
    | .gt => x
    | .eq => if x.isNeg then y else x

/-- cvt_int's rounding of a magnitude to an integer in the manner of R74: the integer and whether it
was inexact. -/
def toIntMag (neg : Bool) (m : Nat) (e : Int) (mode : RMode) (rnd : Nat) : Nat × Bool :=
  if 0 ≤ e then (m * 2 ^ e.toNat, false)
  else
    let d := 2 ^ (-e).toNat
    let t := m / d
    let r := m % d
    let away : Bool :=
      match mode with
      | .rne => decide (d < 2 * r) || (decide (d = 2 * r) && t % 2 == 1)
      | .rz => false
      | .ru => r != 0 && !neg
      | .rd => r != 0 && neg
      | .sr => decide (rnd * d < r * 65536)
    (if away then t + 1 else t, r != 0)

/-- cvt_int of R78, with the draw already made. -/
def cvtInt (x : XNum) (mode : RMode) (rnd : Nat) : W64 × BitVec 6 :=
  match x with
  | .nan => (0, flagInvalid)
  | .inf neg => (if neg then BitVec.ofNat 64 (2 ^ 63) else BitVec.ofNat 64 (2 ^ 63 - 1), flagInvalid)
  | .fin neg m e _ =>
    let (t, inex) := toIntMag neg m e mode rnd
    if neg then
      if 2 ^ 63 < t then (BitVec.ofNat 64 (2 ^ 63), flagInvalid)
      else (BitVec.ofInt 64 (-(t : Int)), if inex then flagInexact else 0)
    else
      if 2 ^ 63 ≤ t then (BitVec.ofNat 64 (2 ^ 63 - 1), flagInvalid)
      else (BitVec.ofNat 64 t, if inex then flagInexact else 0)

/-- The exact value of a signed 64-bit integer (R78, FCVTF). -/
def numOfInt (n : W64) : XNum := .exact n.msb n.toInt.natAbs 0

/-! ## Functions (Table 3.7)

Results that are not dyadic are given as a floor of at least 60 bits with `sticky`, which fixes every
rounding of R74. -/

/-- 1 ÷ x. -/
def rcpNum (x : XNum) : XNum × BitVec 6 :=
  match x with
  | .nan => (.nan, 0)
  | .inf a => (.exact a 0 0, 0)
  | .fin a m e _ =>
    if m = 0 then (.inf a, flagDivzero)
    else
      let k := ilog2 m + 80
      (.fin a (2 ^ k / m) (-e - k) (2 ^ k % m != 0), 0)

/-- Bitwise integer square root by structural recursion on the number of result bits. -/
def isqrtBits : Nat → Nat → Nat → Nat
  | 0, _, acc => acc
  | k + 1, n, acc =>
    let c := acc + 2 ^ k
    isqrtBits k n (if c * c ≤ n then c else acc)

/-- floor of the square root of n. -/
def isqrt (n : Nat) : Nat := isqrtBits (ilog2 n / 2 + 1) n 0

/-- √x. -/
def sqrtNum (x : XNum) : XNum × BitVec 6 :=
  match x with
  | .nan => (.nan, 0)
  | .inf a => if a then (.nan, flagInvalid) else (.inf false, 0)
  | .fin a m e _ =>
    if m = 0 then (.exact a 0 0, 0)
    else if a then (.nan, flagInvalid)
    else
      let odd : Nat := if e % 2 = 0 then 0 else 1
      let n := m * 2 ^ (160 + odd)
      let r := isqrt n
      (.fin false r ((e - 160 - odd) / 2) (r * r != n), 0)

/-- 1 ÷ √x. -/
def rsqrtNum (x : XNum) : XNum × BitVec 6 :=
  match x with
  | .nan => (.nan, 0)
  | .inf a => if a then (.nan, flagInvalid) else (.exact false 0 0, 0)
  | .fin a m e _ =>
    if m = 0 then (.inf a, flagDivzero)
    else if a then (.nan, flagInvalid)
    else
      let odd : Nat := if e % 2 = 0 then 0 else 1
      let m' := m * 2 ^ odd
      let n := 2 ^ (2 * (ilog2 m' + 90)) / m'
      let r := isqrt n
      let k : Nat := ilog2 m' + 90
      (.fin false r (-(e - odd) / 2 - k) (r * r * m' != 2 ^ (2 * k)), 0)

/-- Interval evaluation with P fractional bits: a lower and an upper bound. -/
abbrev Ivl := Nat × Nat

/-- Terms of the exponential series: from the current term and sums, n terms more. -/
def expTerms (pw : Nat) (lo hi : Nat) : Nat → Nat → Ivl → Ivl → Ivl
  | 0, _, _, s => (s.1, s.2 + 2)
  | n + 1, i, t, s =>
    let t' : Ivl := (t.1 * lo / (i * pw), t.2 * hi / (i * pw) + 1)
    expTerms pw lo hi n (i + 1) t' (s.1 + t'.1, s.2 + t'.2)

/-- Bounds of exp(y) for y in [lo, hi] ÷ 2^p, 0 ≤ y < 1: halve eight times, series, square. -/
def expIvl (p : Nat) (y : Ivl) : Ivl :=
  let pw := 2 ^ p
  let z : Ivl := (y.1 / 256, y.2 / 256 + 1)
  let s := expTerms pw z.1 z.2 (p / 8 + 4) 1 (pw, pw) (pw, pw)
  (List.range 8).foldl (fun (a : Ivl) _ => (a.1 * a.1 / pw, a.2 * a.2 / pw + 1)) s

/-- Bounds of ln 2 as Σ 1 ÷ (k 2^k). -/
def ln2Ivl (p : Nat) : Ivl :=
  let n := p + 4
  let lo := (List.range n).foldl (fun a k => a + 2 ^ p / ((k + 1) * 2 ^ (k + 1))) 0
  (lo, lo + n + 2)

/-- Try precisions until the lower and the upper bound agree on the wanted floor. -/
def zivFloor (f : Nat → Nat × Nat) : Nat → Nat → Nat
  | 0, p => (f p).1
  | n + 1, p =>
    let (a, b) := f p
    if a = b then a else zivFloor f n (2 * p)

/-- floor(2^f × 2^k) for the fraction f = r ÷ 2^s in (0, 1). -/
def exp2Floor (r s k : Nat) : Nat :=
  zivFloor (fun p =>
    let l := ln2Ivl p
    let y : Ivl := (l.1 * r / 2 ^ s, l.2 * r / 2 ^ s + 1)
    let e := expIvl p y
    (e.1 / 2 ^ (p - k), e.2 / 2 ^ (p - k))) 3 (k + 64)

/-- 2^x. -/
def exp2Num (x : XNum) : XNum × BitVec 6 :=
  match x with
  | .nan => (.nan, 0)
  | .inf a => if a then (.exact false 0 0, 0) else (.inf false, 0)
  | .fin a m e _ =>
    if m = 0 then (.exact false 1 0, 0)
    else if 0 ≤ e then
      let n : Nat := min (m * 2 ^ (min e.toNat 20)) 100000
      (.exact false 1 (if a then -(n : Int) else n), 0)
    else
      let s := (-e).toNat
      let ip := m / 2 ^ s
      let r := m % 2 ^ s
      if r = 0 then (.exact false 1 (if a then -(min ip 100000 : Nat) else (min ip 100000 : Nat)), 0)
      else if 100000 ≤ ip then (.fin false (2 ^ 90) (if a then -100000 else 100000) true, 0)
      else if ilog2 m + 100 < s then
        -- |x| < 2^(−100): the value lies strictly between 1 and its neighbours of 90 bits
        (if a then (.fin false (2 ^ 91 - 1) (-91) true, 0) else (.fin false (2 ^ 90) (-90) true, 0))
      else if a then (.fin false (exp2Floor (2 ^ s - r) s 90) (-90 - ip - 1) true, 0)
      else (.fin false (exp2Floor r s 90) (ip - 90) true, 0)

/-- One step of the digit-by-digit logarithm: square, and halve when the square reaches 2. -/
def logStep (pw : Nat) (y : Nat) (up : Nat) : Nat × Nat :=
  let q := y * y / pw + up
  if 2 * pw ≤ q then (q / 2 + up, 1) else (q, 0)

/-- n fractional bits of log2 y for y in [1, 2) with p bits. -/
def logBits (pw up : Nat) : Nat → Nat → Nat → Nat
  | 0, _, acc => acc
  | n + 1, y, acc =>
    let (y', b) := logStep pw y up
    logBits pw up n y' (2 * acc + b)

/-- log2 x. -/
def log2Num (x : XNum) : XNum × BitVec 6 :=
  match x with
  | .nan => (.nan, 0)
  | .inf a => if a then (.nan, flagInvalid) else (.inf false, 0)
  | .fin a m e _ =>
    if m = 0 then (.inf true, flagDivzero)
    else if a then (.nan, flagInvalid)
    else
      let l := ilog2 m
      let n : Int := (l : Int) + e
      if m = 2 ^ l then (.exact (decide (n < 0)) n.natAbs 0, 0)
      else
        let k := 120
        let fr := zivFloor (fun p => (logBits (2 ^ p) 0 k (m * 2 ^ (p - l)) 0,
          logBits (2 ^ p) 1 k (m * 2 ^ (p - l)) 0)) 3 400
        if 0 ≤ n then (.fin false (n.toNat * 2 ^ k + fr) (-k) true, 0)
        else (.fin true ((-n).toNat * 2 ^ k - fr - 1) (-k) true, 0)

/-- floor(tanh(m × 2^e) × 2^k) for 2^(−32) ≤ m × 2^e < 64. -/
def tanhFloor (m : Nat) (e : Int) (k : Nat) : Nat :=
  zivFloor (fun p =>
    -- exp(2x) with 2x = z × 2^7, z < 1
    let z := shiftNat m (e + p - 6)
    let s := expIvl p (z, z + 1)
    let ex := (List.range 7).foldl (fun (a : Ivl) _ => (a.1 * a.1 / 2 ^ p, a.2 * a.2 / 2 ^ p + 1)) s
    let lo := (ex.1 - 2 ^ p) * 2 ^ k / (ex.1 + 2 ^ p)
    let hi := (ex.2 - 2 ^ p) * 2 ^ k / (ex.2 + 2 ^ p)
    (lo, hi)) 3 (k + 256)

/-- tanh x. -/
def tanhNum (x : XNum) : XNum × BitVec 6 :=
  match x with
  | .nan => (.nan, 0)
  | .inf a => (.exact a 1 0, 0)
  | .fin a m e _ =>
    if m = 0 then (.exact a 0 0, 0)
    else
      let fl : Int := (ilog2 m : Int) + e
      if fl < -32 then (.fin a (m * 2 ^ 40 - 1) (e - 40) true, 0)
      else if 6 ≤ fl then (.fin a (2 ^ 90 - 1) (-90) true, 0)
      else (.fin a (tanhFloor m e 120) (-120) true, 0)

/-! ## The matrix K-step sum (R81) -/

/-- add_fp32 of R81. -/
def addFp32 (x y : XNum) : Rounded :=
  let (s, fl) := addNum x y .rne
  let r := roundCore s .fp32 .rne false 0 none
  ⟨r.code, r.flags ||| fl⟩

/-- floor(log2 |p|) of a nonzero product. -/
def topExp (p : Bool × Nat × Int) : Int := (ilog2 p.2.1 : Int) + p.2.2

/-- The fixed-point part of R81: the largest exponent of the products, the window sum in units of
2^(E − 46), and whether a product was truncated. -/
def windowSum (ps : List (Bool × Nat × Int)) : Option (Int × Int × Bool) :=
  match ps.filter (fun p => p.2.1 != 0) with
  | [] => none
  | q :: qs =>
    let ex := qs.foldl (fun m p => max m (topExp p)) (topExp q)
    let (s, inex) := (q :: qs).foldl (fun (acc : Int × Bool) p =>
      let sh := p.2.2 - (ex - 46)
      let t := shiftNat p.2.1 sh
      let lost := decide (sh < 0) && decide (p.2.1 % 2 ^ (-sh).toNat ≠ 0)
      (if p.1 then acc.1 - t else acc.1 + t, acc.2 || lost)) ((0 : Int), false)
    some (ex, s, inex)

/-- kstep of R81 over the used operand pairs, from the accumulator code `acc`: the new code and the
flags of M. -/
def kstep (acc : W32) (ops : List (XNum × XNum)) : W32 × BitVec 6 :=
  let prods := ops.map fun (a, b) => mulNum a b
  let fl := prods.foldl (fun f (p : XNum × BitVec 6) => f ||| p.2) 0
  let vals := prods.map Prod.fst
  let posInf := vals.any fun v => v == .inf false
  let negInf := vals.any fun v => v == .inf true
  if vals.any XNum.isNan then (0x7FC00000, fl)
  else if posInf && negInf then (0x7FC00000, fl ||| flagInvalid)
  else if posInf || negInf then
    let r := addFp32 (ofFp32 acc.toNat) (.inf negInf)
    (BitVec.ofNat 32 r.code, fl ||| r.flags)
  else
    match windowSum (vals.filterMap fun v => match v with | .fin a m e _ => some (a, m, e) | _ => none) with
    | none => (acc, fl)
    | some (ex, s, inex) =>
      let fl := if inex then fl ||| flagInexact else fl
      if s = 0 then (acc, fl)
      else
        let r1 := roundCore (.exact (decide (s < 0)) s.natAbs (ex - 46)) .fp32 .rne false 0 none
        let r := addFp32 (ofFp32 acc.toNat) (ofFp32 r1.code)
        (BitVec.ofNat 32 r.code, fl ||| r1.flags ||| r.flags)

/-! ## CRC-64 (R293) -/

/-- One bit of the ECMA-182 division, most significant first. -/
def crcBit (c : W64) : W64 :=
  if c.msb then (c <<< 1) ^^^ 0x42F0E1EBA9EA3693 else c <<< 1

/-- One byte fed in. -/
def crcByte (c : W64) (b : Byte) : W64 :=
  (List.range 8).foldl (fun c _ => crcBit c) (c ^^^ (BitVec.setWidth 64 b <<< 56))

/-- CRC-64 with the parameters of R293. -/
def crc64 (l : List Byte) : W64 := l.foldl crcByte 0

end Sys2Proof.Machine
end

