-- ==== Sys2Proof/Machine/State.lean ====
section
/-! DEFINITION. The state of one BH-4812 module and of the fabric objects it owns a part in, as
plain data. The module registers and the power states stand apart (Power) from everything that the
streams and engines work on (Mach). The default of each field is its value after reset. -/

namespace Sys2Proof.Machine
open Sys2Proof

/-- Why a run stops without a next state. -/
inductive Fault where
  /-- Raised by CXL_MEM_ACCESS at an address beyond the 768 GiB of HBM, which the exposed range does
  not contain (R370, R397). Safe: the model stops where the spec describes no access. -/
  | noSuchAddress
  deriving DecidableEq, Repr

/-- Why an instruction has no meaning in the model. -/
inductive Refusal where
  /-- Raised by an arm of exec for an instruction not modelled yet. Safe: nothing is claimed of it. -/
  | notModelled (mnemonic : String)
  deriving DecidableEq, Repr

/-- A sparse store: (index, value) pairs with indices strictly rising and no value equal to 0, which
is what an unlisted index reads as. -/
abbrev Cells (w : Nat) := List (Nat × BitVec w)

/-- An issue fraction: 0 full, 1 half, 2 quarter (R26). -/
abbrev Fraction := Fin 3

/-! ## Streams and the sequencer -/

/-- What a stream waits for. -/
inductive WaitKind where
  /-- a token from the named engine: WAITK or a sync pop (R40, R139) -/
  | token (src : Eng)
  /-- room in the token queue to the named engine (R40, R139) -/
  | push (dst : Eng)
  /-- an entry of the scalar queue (R49) -/
  | sqEmpty
  /-- room in the scalar queue (R140) -/
  | sqFull
  /-- room on the command side of F0 or F1, or on F2 (R248, R178) -/
  | fifoFull (f : Nat)
  /-- a word on the result side of a FIFO (R248) -/
  | fifoEmpty (f : Nat)
  /-- the named engines idle (R141) -/
  | eidle
  /-- the fill of a DIRECT block at a local address (R347) -/
  | fill (block : Nat)
  /-- a sync object (R104), word (R312) or barrier (R325), named by its address -/
  | sync (obj : Nat)
  | word (addr : Nat)
  | barrier (obj : Nat)
  /-- a wait that ends when the word, tried again, finds its condition: a slot, a channel, a commit,
  a transfer id, a page (KIND codes of Table 18.7 and the object) -/
  | retry (kind obj : Nat)
  deriving DecidableEq, Repr

/-- A wait, the cycle it began and the word that waits, which was fetched before (R34). -/
structure Waiting where
  kind : WaitKind
  since : Nat
  word : Instr
  deriving DecidableEq, Repr

/-- What every stream holds: its program counter, whether its current word's sync pop was made
(R40), its wait, a push not made yet (R40) and whether it has ended. -/
structure Stream where
  pc : W64 := 0
  popped : Bool := false
  wait : Option Waiting := none
  pushing : Option Eng := none
  ended : Bool := false
  deriving DecidableEq, Repr

/-- One hardware loop level (R116, R133). `lcnt` of an inactive level is its last CSR value (R121). -/
structure Loop where
  active : Bool := false
  start : W64 := 0
  stop : W64 := 0
  lcnt : BitVec 40 := 0
  rot : Bool := false
  stg : Bool := false
  stages : BitVec 4 := 0
  deriving DecidableEq, Repr

/-- The sequencer (Table 5.1) and its CSRs. `order` lists the active levels, innermost first;
`looped` says whether the last word carried a loop-end event (R409), `checking` whether a re-check of a spinning wait
stalls on an arriving page (R312). -/
structure Seq where
  st : Stream := {}
  regs : Vector W64 32 := Vector.replicate 32 0
  rrb : BitVec 4 := 0
  preds : BitVec 8 := 0
  loops : Vector Loop 4 := Vector.replicate 4 {}
  order : List (Fin 4) := []
  looped : Bool := false
  sq : List W64 := []
  handler : Bool := false
  sret : W64 := 0
  tvec : W64 := 0
  tcode : Byte := 0
  tstrm : BitVec 2 := 0
  ten : BitVec 14 := 0
  tpc : W64 := 0
  tval : W64 := 0
  rcol : BitVec 6 := 0
  rrow : BitVec 6 := 0
  rstrm : BitVec 2 := 0
  rvalid : Bool := false
  snr : Bool := false
  lstages : BitVec 4 := 1
  rmode : BitVec 3 := 0
  seed : W32 := 0
  stsat : Bool := false
  arsat : Bool := false
  scaleOff : W64 := 0
  spinLimit : W16 := 32
  spinCount : W32 := 0
  checking : Bool := false
  prefetch : BitVec 21 := 65536
  trapen : BitVec 6 := 0
  deriving DecidableEq, Repr

/-! ## The vector engine -/

/-- One element of a latched row: its code, its scale byte when the port is scaled, and its
residency flag (R113, R162). -/
structure LatchElem where
  code : Nat
  scale : Option Byte
  flag : Bool
  deriving DecidableEq, Repr

/-- A port (R157): its six descriptor entries, row position, the circular-buffer slot it holds and
its operand-reuse latch. -/
structure Port where
  isSet : Bool := false
  desc : Vector W64 6 := Vector.replicate 6 0
  j : Nat := 0
  held : Option Nat := none
  latch : Option (List LatchElem) := none
  deriving DecidableEq, Repr

/-- The vector engine (R192). Mask m0 is all ones and is not held (R164). -/
structure Vec where
  st : Stream := {}
  views : Vector W64 16 := Vector.replicate 16 0
  ports : Vector Port 8 := Vector.replicate 8 {}
  masks : Vector (BitVec 4096) 7 := Vector.replicate 7 0
  tile : Cells 8 := []
  deriving DecidableEq, Repr

/-! ## The matrix engine -/

/-- A loop-nest level (Table 7.2). -/
structure Level where
  count : Nat := 1
  astep : Int := 0
  bstep : Int := 0
  cstep : Int := 0
  deriving DecidableEq, Repr

/-- The A base (Table 7.3). -/
structure ABase where
  addr : Nat := 0
  pitch : Nat := 0
  space : Nat := 0
  geo : Nat := 0
  saddr : Nat := 0
  deriving DecidableEq, Repr

/-- The B base (Table 7.4). -/
structure BBase where
  off : Nat := 0
  geo : Nat := 0
  soff : Nat := 0
  deriving DecidableEq, Repr

/-- The mask record (Table 7.5). -/
structure NestMask where
  rows : Nat := 0
  cols : Nat := 0
  depth : Nat := 0
  statusAddr : Nat := 0
  sen : Bool := false
  deriving DecidableEq, Repr

/-- A bitmap record (Table 7.6). -/
structure Bitmap where
  base : Nat := 0
  k : Int := 0
  m : Int := 0
  l : List Int := [0, 0, 0, 0, 0]
  deriving DecidableEq, Repr

/-- The shadow configuration (Table 7.1). Formats are FMT codes. -/
structure NestCfg where
  lv : Vector Level 6 := Vector.replicate 6 {}
  a : ABase := {}
  b : BBase := {}
  crow0 : Nat := 0
  mask : NestMask := {}
  fa : Nat := 4
  fb : Nat := 4
  mapA : Option Bitmap := none
  mapB : Option Bitmap := none
  cbA : Vector W16 16 := Vector.replicate 16 0
  cbB : Vector W16 16 := Vector.replicate 16 0
  set : Fin 3 := 0
  deriving DecidableEq, Repr

/-- A commit: a snapshot, its level count, the address of its MGO, the push not made yet (R215), and SCALE_OFFSET
as it stood at the MGO (R85). -/
structure Commit where
  cfg : NestCfg
  n : Nat
  mgo : W64
  push : Option Eng
  scaleOff : W64 := 0
  deriving DecidableEq, Repr

/-- A sub-array's park record: its job and next K-step (Table 7.1), whether it idles and the cycle at which it
no longer does (R201). `due` is the time of the commit, in cycles of its K-steps, at which its next K-step starts. -/
structure SubArray where
  job : Option Nat := none
  k : Nat := 0
  idle : Bool := false
  wake : Nat := 0
  due : Nat := 0
  deriving DecidableEq, Repr

/-- What the last nest fault stood on (R219): a K-step of a sub-array, or the status record; or, once
TRET has named another address, that the commit is to be abandoned (Table 7.12) or ended with no status
record (R211). -/
inductive NestFault where
  | kstep (sa : Fin 16)
  | status
  | abandoned
  | unrecorded
  deriving DecidableEq, Repr

/-- The matrix engine (Table 7.1). `done` lists (group, job) pairs completed, `slots` the A-buffer
slots that jobs hold (R207), `pushes` the pushes that wait in the engine (R40), `dropped` that the active
commit has been abandoned, `drainFault` that the drain resume point was left by a fault (R220), `record` the
record that the word which waits has read (R205). -/
structure Mat where
  st : Stream := {}
  shadow : NestCfg := {}
  active : Option Commit := none
  pending : Option Commit := none
  counters : Vector Nat 4 := Vector.replicate 4 0
  sas : Vector SubArray 16 := Vector.replicate 16 {}
  done : List (Nat × Nat) := []
  slots : List (Nat × Nat) := []
  fault : Option NestFault := none
  dropped : Bool := false
  acc : Cells 32 := []
  drain : Option (Nat × Nat) := none
  drainFault : Bool := false
  nraddr : Option Nat := none
  ksteps : Nat := 0
  kskip : Nat := 0
  bstore : Cells 8 := []
  pushes : List Eng := []
  record : Option (List Byte) := none
  deriving DecidableEq, Repr

/-! ## The transfer unit -/

/-- The kinds of transfer (R224, R349). -/
inductive XKind where
  | copy | fill | gather | scatter | block
  deriving DecidableEq, Repr

/-- The states of a transfer that is not Done (Table 8.2); Parked is Running while its core holds it,
and `abandoned` is to be ended as Abandoned. -/
inductive XState where
  | running | faulted | abandoned
  deriving DecidableEq, Repr

/-- A transfer that is issued and not yet Done or Abandoned (R224, R244). `stg` names the XSTG that
issued it, `tag` the CACHED slot it fills, `sfmt` and `dfmt` the effective formats (R230, R231), `nrLines`
the source lines read as zero (R233), `scaleOff` SCALE_OFFSET as it stood at issue (R85), `gen0` the generator at
the first draw of a transfer whose draws do not follow its walk (R73). -/
structure Transfer where
  ch : Fin 8
  id : Nat
  kind : XKind
  body : List Byte
  recAddr : Nat
  pc : W64
  pos : Nat := 0
  state : XState := .running
  slot : Option Nat := none
  push : Option Eng := none
  stg : Option Nat := none
  tag : Option Nat := none
  nres : Bool := false
  nraddr : Nat := 0
  count : Nat := 0
  oor : Bool := false
  flags : BitVec 6 := 0
  sfmt : Nat := 0
  dfmt : Nat := 0
  nrLines : List Nat := []
  scaleOff : W64 := 0
  gen0 : Option W32 := none
  deriving DecidableEq, Repr

/-- An XSTG whose transfers have not all ended (R238), with its address; `issuing` while the word has entries to
issue. -/
structure Staging where
  num : Nat
  push : Option Eng
  issuing : Bool
  pc : W64 := 0
  deriving DecidableEq, Repr

/-- A circular-buffer slot (R241). -/
inductive SlotState where
  | free | filling | filled | held
  deriving DecidableEq, Repr

/-- A circular buffer (Tables 8.9 and 8.10). -/
structure CBuf where
  ready : Bool := false
  base : Nat := 0
  slot : Nat := 64
  n : Nat := 1
  ph : Nat := 0
  rh : Nat := 0
  slots : List SlotState := []
  deriving DecidableEq, Repr

/-- The transfer unit (R244). `wid` is the id that an XWID waits for. -/
structure Xunit where
  st : Stream := {}
  tissue : Vector W48 8 := Vector.replicate 8 0
  tdone : Vector W48 8 := Vector.replicate 8 0
  xfers : List Transfer := []
  stage : Option Nat := none
  pos : Nat := 0
  stagings : List Staging := []
  nextStg : Nat := 0
  cbs : Vector CBuf 16 := Vector.replicate 16 {}
  pushes : List Eng := []
  wid : Option Nat := none
  deriving DecidableEq, Repr

/-! ## Fabric commands in progress -/

/-- A participant's side of a scheduled exchange (R375–R380, R391–R394). `row`, `col` and `offs` are its row and
column of G and the offsets of its bytes at each receiver, `ready` once its self part is placed, `buckets` the
bucket of each input record, `alen` the segment and length read for a rank, `marks` and `got` the XMARK counts and
the bytes received of (phase, source), `heard` when an arbiter was last heard. -/
structure Part where
  posting : Posting
  key : Nat
  row : List Nat := []
  col : List Nat := []
  offs : List Nat := []
  gotG : Bool := false
  ready : Bool := false
  first : List Nat := []
  w : Nat := 0
  buckets : List Nat := []
  grants : List Grant := []
  next : Nat := 0
  alen : List (Nat × Nat × Nat) := []
  sent : Option Nat := none
  acked : Option Nat := none
  marks : List (Nat × Nat × Nat) := []
  got : List (Nat × Nat × Nat) := []
  recv : List Nat := []
  nan : Nat := 0
  fromStandby : Bool := false
  heard : Nat := 0
  final : Option (Nat × Bool × Bool × Bool) := none
  deriving DecidableEq, Repr

/-- A fabric command in progress (R361): its record, the packets it waits for, its status so far and the
offset at which that failure lies. -/
structure Cmd where
  id : Nat
  code : Nat
  tag : W32
  body : List W64
  started : Bool := false
  outstanding : Nat := 0
  pendingSig : Option Packet := none
  status : Nat := 0
  failAt : Nat := 0
  flags : BitVec 6 := 0
  nan : Bool := false
  snres : Bool := false
  contrib : Nat := 0
  step : Nat := 0
  sentStep : Bool := false
  frags : List (Nat × Nat) := []
  part : Option Part := none
  deriving DecidableEq, Repr

/-- The engine FIFOs of a core (R245, R246): the open record, the complete records not started, the
commands in progress and the result words; `ended1` counts the F1 commands that have ended. -/
structure Fifos where
  open0 : List W64 := []
  queue0 : List (List W64) := []
  cmds : List Cmd := []
  res0 : List W64 := []
  open1 : List W64 := []
  queue1 : List (List W64) := []
  ended1 : Nat := 0
  res1 : List W64 := []
  f2 : List W64 := []
  nextCmd : Nat := 0
  deriving DecidableEq, Repr

/-! ## Scratchpad, regions and pages -/

/-- A region of the scratchpad (Table 14.8). -/
structure Region where
  gbase : Nat
  lbase : Nat
  size : Nat
  cached : Bool
  blk : Nat
  gsize : Nat
  deriving DecidableEq, Repr

/-- The state of a CACHED slot's tag entry (R348). -/
inductive TagState where
  | filling | valid | nrvalid
  deriving DecidableEq, Repr

/-- A probe tag entry that is not Invalid: the slot's local address, its block and its state, the id on ch7 of
the transfer that fills it and, of an NRValid slot, the 64-byte lines that the fill could not read (R348). -/
structure Tag where
  slot : Nat
  block : Nat
  state : TagState
  fill : Nat := 0
  lines : List Nat := []
  deriving DecidableEq, Repr

/-- The outcome of a fill that a word waited for (R347). -/
inductive FillOutcome where
  | nonresident (g : Nat)
  | denied (g : Nat)
  deriving DecidableEq, Repr

/-- The scratchpad partition of an instance with its region copies (R89, R346–R348). `dirty` marks
the bytes written since their fill, `plru` the three bits of each set, `outcomes` the fills that the word of
a stream has waited for, under the block's address plus the code of the stream. -/
structure Pad where
  bytes : Cells 8 := []
  regions : List Region := []
  filled : List Nat := []
  dirty : Cells 1 := []
  tags : List Tag := []
  plru : List (Nat × BitVec 3) := []
  outcomes : List (Nat × FillOutcome) := []
  deriving DecidableEq, Repr

/-- A translation, as a stream register or a die buffer holds it (R329, R336). `entry` is the memory
key of the leaf's word 0 and `word0` its value when it was read. -/
structure Page where
  asid : Nat
  base : Nat
  size : Nat
  frame : Nat
  p : Bool
  w : Bool
  x : Bool
  rd : Bool
  tier : Nat
  fmt : Nat
  geo : Nat
  cb : Nat
  mode : Nat
  peer : Nat
  cthr : Nat
  xframe : Nat
  entry : Nat
  word0 : Nat
  deriving DecidableEq, Repr

/-- The streams that hold page registers (R336). -/
inductive PStream where
  | s
  | port (k : Fin 8)
  | a
  | ch (k : Fin 8)
  | gather
  | map
  deriving DecidableEq, Repr

/-- A stream's current-page and next-page registers and its last address (R336). -/
structure PageRegs where
  who : PStream
  cur : Option Page
  next : Option Page
  last : Nat
  deriving DecidableEq, Repr

/-! ## Instances -/

/-- An arrival record (R322): the object, the round's id in the combiners, once the round has ended
its status and ROUND, and how many landing records of the instance then still wait (R325). -/
structure Arrival where
  obj : Nat
  round : Nat
  ended : Option (Nat × Nat)
  behind : Nat := 0
  deriving DecidableEq, Repr

/-- A watchpoint (R414). -/
structure Watch where
  base : Nat := 0
  k : Nat := 3
  reads : Bool := false
  writes : Bool := false
  on : Bool := false
  deriving DecidableEq, Repr

/-- Stops and watchpoints of an instance (R409–R415). `ran` marks that the stepped stream has done
a word; `watchSkip` is the TPC of a WATCH trap whose word may run once (R414). -/
structure Dbg where
  stopReq : Bool := false
  stopped : Bool := false
  stepping : Option Eng := none
  ran : Bool := false
  settling : Bool := false
  watches : Vector Watch 2 := Vector.replicate 2 {}
  watchSkip : Option W64 := none
  deriving DecidableEq, Repr

/-- Who an instance is and what its launch record gave it (R277, R289, R290). -/
structure Ident where
  uid : Nat := 0
  launch : Nat := 0
  ctx : CtxId := 0
  num : Nat := 0
  run : Nat := 0
  tidx : Nat := 0
  instn : Nat := 1
  tsize : Nat := 1
  team : Nat := 0
  gang : Nat := 0
  prio : Nat := 0
  tsFoot : Nat := 4096
  bsFoot : Nat := 0
  accsets : BitVec 3 := 0
  part : Nat := 65536
  secBase : Vector W64 4 := Vector.replicate 4 0
  secLen : Vector Nat 4 := Vector.replicate 4 0
  sched : W64 := 0
  schedLen : Nat := 0
  dual : Bool := false
  shadow : Int := 0
  outBase : Nat := 0
  outSize : Nat := 0
  deriving DecidableEq, Repr

/-- What trapped last, so that TRET knows what TPC names (R146): a word, the nest or a transfer. -/
inductive TrapSource where
  | word
  | nest
  | transfer (ch : Fin 8) (id : Nat)
  deriving DecidableEq, Repr

/-- An instance: everything its save image holds (R256). `taking` lists the slots that deliveries under way
hold: delivery, buffer, slot (R309, R363). `source` is what the trap that TCAUSE names stood on, `parked` what
the trap that parked the instance stood on. `fresh` says that its parameter area is still to be loaded (R59, R259),
`partAt` the KiB of the spill area that hold its evicted partition (R259), `lost` the deliveries whose payload could
not be placed at replay (R111). -/
structure Inst where
  id : Ident := {}
  s : Seq := {}
  v : Vec := {}
  m : Mat := {}
  x : Xunit := {}
  fifo : Fifos := {}
  pad : Pad := {}
  toks : Vector (Fin 16) 16 := Vector.replicate 16 0
  flags : Vector (BitVec 6) 4 := Vector.replicate 4 0
  gens : Vector W32 11 :=
    #v[0x6D2B79F5, 0x9E3779B9, 0x3C6EF372, 0xDAA66D2B
      , 0x78DDE6E4, 0x1715609D, 0xB54CDA56, 0x5384540F, 0xF1BBCDC8, 0x8FF34781, 0x2E2AC13A]
  arrivals : List Arrival := []
  regs : List PageRegs := []
  dbg : Dbg := {}
  sig : W64 := 0
  source : TrapSource := .word
  parked : TrapSource := .word
  faulted : Option TrapInfo := none
  taking : List (Nat × Nat × Nat) := []
  fresh : Bool := false
  partAt : Option Nat := none
  lost : List Nat := []
  deriving DecidableEq, Repr

/-- A core: its resident instance if any (R254), its partition's place (R259), the KiB of the save region reserved
for its image (R257), whether its streams are held until its team's start is done, with the write-backs of its own
moved copies to make first (R114, R259, R310), whether its own image and partition are restored (R310), and
a pre-emption request latched. -/
structure Core where
  resident : Bool := false
  place : Nat := 0
  saveAt : Nat := 0
  starting : Bool := false
  moved : Bool := false
  restored : Bool := false
  preempt : Bool := false
  inst : Inst := {}
  deriving DecidableEq, Repr

/-- A saved instance (R254, R256): the core it was saved from, the partition left in place (R259), where its image
lies in KiB of the save region or of the spill area (R257, R258), its counter base CBASE, and the fault record it
waits under. -/
structure Image where
  inst : Inst
  core : CoreId
  place : Option (Nat × Nat)
  spilled : Bool
  seq : Nat
  saveAt : Nat := 0
  cbase : Nat := 0
  spillAt : Nat := 0
  deriving DecidableEq, Repr

/-! ## Contexts -/

/-- Context states, in the coding of CTX_STATE (Table 9.8). -/
inductive CtxState where
  | free | built | bound | ready | running | swapped | spilled | waiting | migrating | tearingDown | dead
  deriving DecidableEq, Repr

/-- The activity counted in the open energy window (R263). -/
structure Activity where
  kg8 : Nat := 0
  kg16 : Nat := 0
  vec : Nat := 0
  hbm : Nat := 0
  link : Nat := 0
  deriving DecidableEq, Repr

/-- A trace or wait-log ring (R416, R417). -/
structure Ring where
  base : Nat := 0
  size : Nat := 0
  on : Bool := false
  threshold : Nat := 0
  byPf : Bool := false
  deriving DecidableEq, Repr

/-- A landing record (Table 12.7), the delivery it belongs to and the offset at which it lies in the ring. -/
structure Landing where
  uid : Nat
  kind : Nat
  tgt : Nat
  addr : Nat
  arg : Nat
  data : List Byte
  deliv : Nat
  off : Nat := 0
  deriving DecidableEq, Repr

/-- What R260 keeps of a line on the SRAM die: its write count under the key and the generation of its key. -/
structure Line where
  count : W16 := 0
  gen : Bool := false
  deriving DecidableEq, Repr

/-- A context (R252–R264). `lines` lists the lines written under its key (R260), `rekeyNext` that a count has reached
its last value during a walk (R261), `raised` the cycle of the last arrivals that raised the boost and how many it had
(R300). -/
structure Ctx where
  st : CtxState := .free
  owner : FnId := 0
  ptroot : Nat := 0
  spbase : Nat := 0
  spsize : Nat := 0
  lbsize : Nat := 0
  lbbase : Nat := 0
  fqueue : Nat := 0
  asid : BitVec 16 := 0
  seq : W48 := 0
  key : Option (BitVec 128) := none
  newKey : Option (BitVec 128) := none
  gen : Bool := false
  lines : List (Nat × Line) := []
  rekeyNext : Bool := false
  bindings : List (Nat × Nat × Nat) := []
  codebooks : Vector (Vector W16 16) 8 := Vector.replicate 8 (Vector.replicate 16 0)
  boost : Fin 9 := 0
  raised : Nat × Nat := (0, 0)
  landing : List Landing := []
  lbTail : Nat := 0
  act : Activity := {}
  eUsed : W32 := 0
  thr : Fraction := 0
  eTotal : W64 := 0
  eBudget : W32 := 0
  attached : Bool := false
  trc : Ring := {}
  wl : Ring := {}
  ftag : W32 := 0
  lastPlaced : Nat := 0
  deriving DecidableEq, Repr

/-! ## Functions and queues -/

/-- The BAR0 blocks of one function: context, page, debug and attestation commands and the granted
window (R250, R338, R407, R424, R268). `suspendOf` is the context of a SUSPEND in progress (R251). -/
structure FnRegs where
  ctxCtx : CtxId := 0
  ctxArg : W64 := 0
  ctxBusy : Bool := false
  ctxStatus : BitVec 7 := 0
  suspendOf : Option CtxId := none
  key0 : W64 := 0
  key1 : W64 := 0
  pgArg0 : W64 := 0
  pgArg1 : W64 := 0
  pgBusy : Bool := false
  pgStatus : BitVec 7 := 0
  pgCtx : CtxId := 0
  dbgCtx : CtxId := 0
  dbgInst : W16 := 0
  dbgRun : BitVec 2 := 0
  dbgArg : W64 := 0
  dbgData : W64 := 0
  dbgBusy : Bool := false
  dbgStatus : BitVec 7 := 0
  attArg : W64 := 0
  attStatus : BitVec 7 := 0
  winBase : BitVec 48 := 0
  winSize : W32 := 0
  winSpace : Bool := false
  qfault : Byte := 0
  deriving DecidableEq, Repr

/-- Queue states in the coding of Table 10.2. -/
inductive QState where
  | unconfigured | armed | running | stalled | faulted | quiesced | quiescing
  deriving DecidableEq, Repr

/-- A record waiting for completion space: its 64 bytes and the context whose teardown discards it. -/
structure Entry where
  bytes : List Byte
  ctx : Option CtxId
  deriving DecidableEq, Repr

/-- A queue (R269–R276). WIDX and RIDX are counted without wrapping and read modulo 2^32. `nextRec` is F of
R270, `copies` the records fetched last, `waitFrom` the cycle at which a WAIT record began to wait, `armed` whether an ARM
has been accepted since the queue was unconfigured (R276). -/
structure Queue where
  base : Nat := 0
  log2n : Nat := 4
  home : DieId := 0
  cbase : Nat := 0
  log2m : Nat := 4
  chead : W32 := 0
  widx : Nat := 0
  ridx : Nat := 0
  ctail : W32 := 0
  st : QState := .unconfigured
  fcode : Nat := 0
  nextRec : Nat := 0
  copies : List (Nat × List Byte) := []
  waitFrom : Option Nat := none
  held : List Entry := []
  armed : Bool := false
  deriving DecidableEq, Repr

/-! ## Launches and teams -/

/-- The fields of a launch record (Table 11.1). -/
structure LRec where
  image : Nat
  sptr : List Nat
  param : Nat
  sched : Nat
  views : Nat
  regmap : Nat
  instn : Nat
  tsize : Nat
  plevel : Nat
  gang : Nat
  prio : Nat
  tsFoot : Nat
  bsFoot : Nat
  accsets : BitVec 3
  spfoot : Nat
  scaleOff : W64
  nreg : Nat
  dual : Bool
  shadow : Int
  outBase : Nat
  outSize : Nat
  dep0a : Nat
  dep0v : Nat
  dep1a : Nat
  dep1v : Nat
  compl : Nat
  args : List W64
  deriving DecidableEq, Repr

/-- The lengths a kernel image header gives (Table 2.14). -/
structure ImageHdr where
  secOff : List Nat := []
  secLen : List Nat := []
  paramOff : Nat := 0
  paramLen : Nat := 0
  schedOff : Nat := 0
  schedLen : Nat := 0
  viewsOff : Nat := 0
  viewsLen : Nat := 0
  deriving DecidableEq, Repr

/-- Kernel states (Table 11.3). -/
inductive LState where
  | submitted | waiting | ready | dispatched | running | draining | completing | verifying | retired | failed
  deriving DecidableEq, Repr

/-- Team states (Table 12.6). -/
inductive TState where
  | unstarted | resident | saved | held | done
  deriving DecidableEq, Repr

/-- A team of one run of a launch (R283, R308). `die` owns it, `since` is when it became placeable
or was placed, `waiting` when all its members began to wait, `cores` the cores reserved for it, `groups` the
stack groups that have held it (R291), `yields` that a member's YIELD awaits the next evaluation (R313). -/
structure Team where
  num : Nat
  run : Nat
  die : DieId
  st : TState := .unstarted
  since : Nat := 0
  waiting : Option Nat := none
  cores : List Nat := []
  done : List Nat := []
  group : Option Nat := none
  groups : List Nat := []
  yields : Bool := false
  deriving DecidableEq, Repr

/-- A launch (R277–R294). `hdrs` and `maps` hold the image header and the region map that each die read (R278, R346). -/
structure Launch where
  num : Nat
  fn : FnId
  q : QId
  index : Nat
  tag : W32
  cpl : Bool
  dies : List Nat
  slots : List Nat
  lr : LRec
  hdrs : List ImageHdr := []
  st : LState := .submitted
  status : Nat := 0
  runs : Nat := 1
  teams : List Team := []
  counts : List Nat := [0, 0, 0]
  sigs : List W64 := [0, 0, 0]
  maps : List (List Region) := []
  deriving DecidableEq, Repr

/-! ## Barriers -/

/-- The participants of a round (R317). -/
inductive PSet where
  | team (launch run team : Nat)
  | share (launch run die : Nat)
  | launch (launch run : Nat)
  | domain (launch run : Nat)
  deriving DecidableEq, Repr

/-- An open round in the combiners (R317–R320). `obj` is the memory key of the object's home, `va`
its address in the context, `modules` the modules that have arrived at domain scope and their own round
numbers, `guest` that only another module has opened it so far. A round that has
fired or been poisoned keeps its status and ROUND in `ended` until the cores of `pending` have had
their release. `posted` is CountingPosted (R320), and `opener` names the module and context that opened a guest's
round. -/
structure Round where
  num : Nat
  ctx : CtxId
  obj : Nat
  va : Nat
  scope : Nat
  pset : PSet
  round : Nat
  nmod : Nat
  expect : Nat := 0
  bytes : Nat := 0
  arrived : List Nat := []
  forwarded : List Nat := []
  modules : List (Nat × Nat) := []
  guest : Bool := false
  upward : Bool := false
  posted : Bool := false
  opener : Nat := 0
  ended : Option (Nat × Nat) := none
  pending : List Nat := []
  deriving DecidableEq, Repr

/-! ## Dies and pages -/

/-- A page-request entry (R341). -/
structure PgReq where
  tag : Nat
  ctx : CtxId
  page : Nat
  write : Bool
  deriving DecidableEq, Repr

/-- A cached non-leaf entry (R337): ASID, level, address prefix, next table. -/
structure WalkEntry where
  asid : Nat
  level : Nat
  pre : Nat
  table : Nat
  deriving DecidableEq, Repr

/-- A fairness record (R301). -/
structure Fairness where
  gang : Nat
  current : Nat := 0
  buckets : List Nat := []
  blocked : Bool := false
  deriving DecidableEq, Repr

/-- A compute die (R12). -/
structure Die where
  pgreqs : List PgReq := []
  tlb : List Page := []
  walks : List WalkEntry := []
  counters : List (Nat × Nat × Nat) := []
  fair : List Fairness := []
  waitSwap : W32 := 65536
  deriving DecidableEq, Repr

/-- Who stalls on a page that is arriving: an access of a core's stream, a fetch, or a delivery at an address. -/
inductive Staller where
  | core (c : CoreId) (who : PStream)
  | fetch (c : CoreId) (e : Eng)
  | delivery (va : Nat)
  deriving DecidableEq, Repr

/-- A COUNT move or a pull in progress (R334, R335). `stalled` lists the accesses that stall on it, and `dead`
those that stood stalled when its peer had not been reached for 10 ms: they trap as they are tried again. -/
structure Move where
  ctx : CtxId
  page : Page
  pull : Bool
  stalled : List Staller := []
  dead : List Staller := []
  deriving DecidableEq, Repr

/-- ASID states (Table 14.5). A retiring ASID keeps the memory key of its completion word, if any. -/
inductive AsidState where
  | unused | bound | stale
  | retiring (word : Option Nat)
  deriving DecidableEq, Repr

/-! ## Links, switches and exchanges -/

/-- Link states in the coding of Table 15.3. -/
inductive LinkState where
  | down | training | up | degraded | retrying | failed
  deriving DecidableEq, Repr

/-- A link (R352, R354). -/
structure Link where
  st : LinkState := .down
  before : LinkState := .down
  partner : Byte := 0
  pport : BitVec 6 := 0
  retries : W16 := 0
  trains : Byte := 0
  fails : List Nat := []
  replays : Nat := 0
  deriving DecidableEq, Repr

/-- A held contribution of a reduction slot (R368). -/
structure Contribution where
  rank : Nat
  values : List Nat
  src : Packet
  deriving DecidableEq, Repr

/-- A reduction slot that is not Free (R367, R368). -/
structure RedSlot where
  sw : Nat
  slot : Nat
  gang : Nat
  ctag : Nat
  nc : Nat
  op : Nat
  dt : Nat
  n : Nat
  tmo : Nat
  seq : W16 := 0
  rounds : Nat := 0
  since : Nat := 0
  held : List Contribution := []
  deriving DecidableEq, Repr

/-- The switch command block (Table 15.8). -/
structure SwRegs where
  sw : Byte := 0
  slot : BitVec 12 := 0
  w1 : W64 := 0
  w2 : W64 := 0
  busy : Bool := false
  status : BitVec 7 := 0
  deriving DecidableEq, Repr

/-- The phases of an exchange at its arbiter (Table 16.6). -/
inductive ExchState where
  | collecting | issuing | completing | failingOver
  deriving DecidableEq, Repr

/-- An exchange at an arbiter, or mirrored at a standby (R383–R385). `acting` marks the arbiter that runs it,
`calendar` every grant with its rank, `planned` the phases planned and mirrored, `issued` and `done` how many of each
rank's phases have been issued and reported, `pushed` the ranks whose result is pushed, `missed` the heartbeats in a row
not acknowledged, `beat` the SEQ of the last that was, `heard` the last HEART. -/
structure Exch where
  key : Nat
  standby : Bool
  acting : Bool
  st : ExchState := .collecting
  posts : List Packet := []
  hists : List Packet := []
  since : Nat := 0
  quotas : List (List Nat) := []
  calendar : List (Nat × Grant) := []
  phases : Nat := 0
  planned : Nat := 0
  issued : List Nat := []
  done : List Nat := []
  answered : List Nat := []
  pushed : List Nat := []
  failover : Bool := false
  missed : Nat := 0
  beat : Option Nat := none
  nostby : Bool := false
  heard : Nat := 0
  deriving DecidableEq, Repr

/-! ## Memory stacks and health -/

/-- A command at a gather engine (R403): a gather or scatter transfer of a channel, or (none) an F1 command. -/
structure GatherJob where
  core : CoreId
  uid : Nat
  ch : Option (Fin 8)
  id : Nat
  deriving DecidableEq, Repr

/-- Pseudo-channel power states (Table 17.1). -/
inductive ChanState where
  | active | selfRefresh | exiting
  deriving DecidableEq, Repr

/-- A request to a stack: its line within the stack, its bank and row, and what its check finds (R399, R404). -/
structure DramReq where
  line : Nat
  bank : Nat
  row : Nat
  write : Bool
  who : Requester
  ecc : EccResult
  deriving DecidableEq, Repr

/-- A pseudo-channel (R399): its state, the cycle at which its idle timer last started, the requests held and the
rate its device runs at in self-refresh. -/
structure Chan where
  st : ChanState := .active
  timer : Nat := 0
  held : List DramReq := []
  rate : Fin 4 := 0
  deriving DecidableEq, Repr

/-- A row of a hot-row table (R400). -/
structure HotRow where
  bank : Nat
  row : Nat
  count : Nat
  deriving DecidableEq, Repr

/-- A throttled row, the windows it stays throttled and the cycle of its last activation (R400). -/
structure Throttled where
  bank : Nat
  row : Nat
  windows : Nat
  last : Nat := 0
  deriving DecidableEq, Repr

/-- A bank that refresh-management commands block: until when, and whether the second pair is the one that blocks it
(R401). -/
structure BankBlock where
  bank : Nat
  upto : Nat
  second : Bool
  deriving DecidableEq, Repr

/-- A memory stack (R396–R405): `refreshes` holds the STK code by which each pseudo-channel's next refresh has been
scheduled, `bank` in the tables counts the banks of all pseudo-channels, `blocks` lists the banks blocked and `held` the
requests that wait behind a hot row's spacing or a block, oldest first (R401). -/
structure Stack where
  temps : Vector Nat 16 := Vector.replicate 16 0
  codes : Vector (Fin 4) 16 := Vector.replicate 16 0
  hotev : Byte := 0
  cecnt : W16 := 0
  ueaddr : BitVec 34 := 0
  ue : Bool := false
  chans : List (Nat × Chan) := []
  rows : List HotRow := []
  throttled : List Throttled := []
  blocks : List BankBlock := []
  held : List DramReq := []
  refreshes : List (Nat × Nat) := []
  deriving DecidableEq, Repr

/-- The health registers of a core (R421, R422). -/
structure Health where
  trans : W16 := 0
  cecnt : W16 := 0
  lasting : Bool := false
  aged : Bool := false
  voff : Nat := 0
  slack : Byte := 0
  least : Option Nat := none
  above : Nat := 0
  deriving DecidableEq, Repr

/-- What the test access port last executed (R406). -/
inductive Tap where
  | bypass | idcode | samplePreload | extest | priv (code : Nat)
  deriving DecidableEq, Repr

/-! ## The module -/

/-- Module power states (R28); PWR_STATE codes 1–4, and Off. -/
inductive PowerState where
  | off | booting | locked | active | halted
  deriving DecidableEq, Repr

/-- The module block of BAR0 and what sets it (R23, R26–R28, R423). -/
structure Power where
  st : PowerState := .booting
  modthr : Fraction := 0
  haltTh : Bool := false
  haltPw : Bool := false
  pin : BitVec 12 := 0
  limit : BitVec 12 := 2400
  insvc : BitVec 48 := 0
  dieThr : Vector Fraction 4 := Vector.replicate 4 0
  dieTemp : Vector Nat 4 := Vector.replicate 4 0
  meas : List (BitVec 512) := [0, 0, 0]
  deriving DecidableEq, Repr

/-- Whose turn it is (model): the streams and engines of a core in a fixed rotation. -/
inductive Agent where
  | stream (e : Eng)
  | nest
  | xfer
  | gather
  | fabric
  deriving DecidableEq, Repr

/-- Everything the streams, engines and agents of the module work on. `agenda` holds the steps that
follow from what was done or were brought from outside, oldest first; `cur` and `agent` say whose
turn it is when the agenda is empty; `timers` holds steps due at a cycle; `tick` counts the free
values taken. `wire` lists the packets that have left on Grenwiut links, `unacked` those not acknowledged with
the link each left on (16: none was usable; 17: one of the IOD, which has not left), `gathers` the commands at the
gather engines in the order in which they arrived (R403), `relays` the requests carried on to another module with the
number of the packet that carries each (R357), `redParts` the parts of contributions not whole yet (R368), `heldDel` the
packets that wait at their target die and whether they have been offered (R311), `hostWrites` the host's writes that wait
for a die's link (R22). The agenda, the turn, the timers, the counters and these lists of work under way are the model's own
(notes/assumptions/1.md, 2.md). -/
structure Mach where
  agenda : List Instr := []
  timers : List (Nat × Instr) := []
  cur : CoreId := 0
  agent : Agent := .stream .S
  saTurn : Fin 16 := 0
  tick : Nat := 0
  cycle : Nat := 0
  mem : List Host.Cell := []
  poison : List Nat := []
  cores : Vector Core 48 := Vector.replicate 48 {}
  images : List Image := []
  ctxs : List (Nat × Ctx) := []
  fns : Vector FnRegs 9 := Vector.replicate 9 {}
  queues : List (Nat × Queue) := []
  launches : List Launch := []
  nextLaunch : Nat := 1
  rounds : List Round := []
  nextRound : Nat := 0
  dies : Vector Die 4 := Vector.replicate 4 {}
  moves : List Move := []
  asids : List (Nat × AsidState) := []
  coefs : Vector W32 5 := Vector.replicate 5 0
  pkg : BitVec 16 := 0
  gw : Vector Link 16 := Vector.replicate 16 {}
  ucie : Vector Link 10 := Vector.replicate 10 {}
  wire : List Packet := []
  unacked : List (Nat × Packet) := []
  seqs : List (Nat × Nat) := []
  consumed : List Nat := []
  relays : List (Nat × Packet) := []
  heldDel : List (Packet × Bool) := []
  hostWrites : List (Nat × List Byte) := []
  swRegs : SwRegs := {}
  redSlots : List RedSlot := []
  redParts : List Packet := []
  exchs : List Exch := []
  gathers : List GatherJob := []
  hbm : Vector Stack 12 := Vector.replicate 12 {}
  health : Vector Health 48 := Vector.replicate 48 {}
  jtagPriv : Bool := false
  tap : Tap := .bypass
  irqs : List (Nat × Nat) := []
  deriving DecidableEq, Repr

/-- The state of the module. -/
structure State where
  pwr : Power
  mach : Mach
  deriving DecidableEq, Repr

/-- The module right after a reset (R5, R28): every field at its default above. -/
def State.reset : State := { pwr := {}, mach := {} }

end Sys2Proof.Machine
end

