-- ==== Sys2Proof/Machine/Ops.lean ====
section
/-! DEFINITION. The named operations over registers, streams and the records of a module: sparse
stores, cores and instances, scalar registers and loops, tokens, waits, rings, posted records, and
taking a trap and returning from one. -/

namespace Sys2Proof.Machine
open Sys2Proof

/-! ## Sparse stores -/

/-- The value at an index of a sparse store; an unlisted index reads 0 (notes/assumptions/4.md). -/
def cellGet {w : Nat} : List (Nat × BitVec w) → Nat → BitVec w
  | [], _ => 0
  | (a, v) :: t, k => if a = k then v else cellGet t k

/-- List a value before the first higher index. -/
def cellInsert {w : Nat} : List (Nat × BitVec w) → Nat → BitVec w → List (Nat × BitVec w)
  | [], k, v => [(k, v)]
  | (a, x) :: t, k, v => if k < a then (k, v) :: (a, x) :: t else (a, x) :: cellInsert t k v

/-- Write one index, keeping the canonical form: writing 0 removes the entry. -/
def cellSet {w : Nat} (l : List (Nat × BitVec w)) (k : Nat) (v : BitVec w) : List (Nat × BitVec w) :=
  let rest := l.filter fun e => e.1 != k
  if v = 0 then rest else cellInsert rest k v

/-- The canonical form: indices strictly rising, no listed value 0. -/
def cellsWf {w : Nat} : List (Nat × BitVec w) → Bool
  | [] => true
  | [(_, v)] => v != 0
  | (a, v) :: (b, x) :: t => v != 0 && decide (a < b) && cellsWf ((b, x) :: t)

/-- The canonical form of a memory. -/
def Memory.wf (mem : List Host.Cell) : Bool := cellsWf mem

/-- n values from an index on. -/
def cellsRead {w : Nat} (l : List (Nat × BitVec w)) (a : Nat) : Nat → List (BitVec w)
  | 0 => []
  | n + 1 => cellGet l a :: cellsRead l (a + 1) n

/-- Write values from an index on, the lowest first. -/
def cellsWrite {w : Nat} (l : List (Nat × BitVec w)) (a : Nat) : List (BitVec w) → List (Nat × BitVec w)
  | [] => l
  | v :: t => cellsWrite (cellSet l a v) (a + 1) t

/-- Remove every index of [a, a + n). -/
def cellsClear {w : Nat} (l : List (Nat × BitVec w)) (a n : Nat) : List (Nat × BitVec w) :=
  l.filter fun e => e.1 < a || a + n ≤ e.1

/-- The little-endian number that bytes hold (R2). -/
def leNat (l : List Byte) : Nat := wordOfBytes l

/-! ## Finite maps as association lists -/

def alookup {α : Type} (l : List (Nat × α)) (k : Nat) : Option α :=
  match l with
  | [] => none
  | (a, v) :: t => if a = k then some v else alookup t k

def aset {α : Type} (l : List (Nat × α)) (k : Nat) (v : α) : List (Nat × α) :=
  match l with
  | [] => [(k, v)]
  | (a, x) :: t => if a = k then (k, v) :: t else (a, x) :: aset t k v

def aerase {α : Type} (l : List (Nat × α)) (k : Nat) : List (Nat × α) := l.filter fun e => e.1 != k

/-- Insert in order, after what stands before or beside it. -/
def insertBy {α : Type} (le : α → α → Bool) (x : α) : List α → List α
  | [] => [x]
  | y :: t => if le x y then x :: y :: t else y :: insertBy le x t

/-- Sort by an order; elements it does not tell apart keep their places. -/
def sortBy {α : Type} (le : α → α → Bool) (l : List α) : List α := l.foldr (insertBy le) []

/-- Write one place of a vector. -/
def vset {α : Type} {n : Nat} (v : Vector α n) (i : Fin n) (x : α) : Vector α n := v.set i.val x i.isLt

/-! ## Parts of the module -/

def Mach.core (m : Mach) (c : CoreId) : Core := m.cores.get c
def Mach.inst (m : Mach) (c : CoreId) : Inst := (m.core c).inst

def Mach.setCore (m : Mach) (c : CoreId) (x : Core) : Mach := { m with cores := vset m.cores c x }
def Mach.setInst (m : Mach) (c : CoreId) (x : Inst) : Mach := m.setCore c { m.core c with inst := x }
def Mach.modInst (m : Mach) (c : CoreId) (f : Inst → Inst) : Mach := m.setInst c (f (m.inst c))
/-- Change the sequencer of a core's instance. -/
def Mach.modSeq (m : Mach) (c : CoreId) (f : Seq → Seq) : Mach :=
  m.modInst c fun i => { i with s := f i.s }

/-- The context of a number; a slot never built is Free. -/
def Mach.ctx (m : Mach) (n : Nat) : Ctx := (alookup m.ctxs n).getD {}
def Mach.setCtx (m : Mach) (n : Nat) (x : Ctx) : Mach := { m with ctxs := aset m.ctxs n x }
def Mach.modCtx (m : Mach) (n : Nat) (f : Ctx → Ctx) : Mach := m.setCtx n (f (m.ctx n))
/-- The context that a core's instance belongs to. -/
def Mach.ctxOf (m : Mach) (c : CoreId) : Nat := (m.inst c).id.ctx.val

def Mach.fn (m : Mach) (f : FnId) : FnRegs := m.fns.get f
def Mach.setFn (m : Mach) (f : FnId) (x : FnRegs) : Mach := { m with fns := vset m.fns f x }

/-- Queue q of function f is held under the number 8f + q. -/
def queueKey (f : FnId) (q : Nat) : Nat := f.val * 8 + q
def Mach.queue (m : Mach) (f : FnId) (q : Nat) : Queue := (alookup m.queues (queueKey f q)).getD {}
def Mach.setQueue (m : Mach) (f : FnId) (q : Nat) (x : Queue) : Mach :=
  { m with queues := aset m.queues (queueKey f q) x }

def Mach.die (m : Mach) (d : DieId) : Die := m.dies.get d
def Mach.setDie (m : Mach) (d : DieId) (x : Die) : Mach := { m with dies := vset m.dies d x }

/-- The die of a core (R3). -/
def dieOf (c : CoreId) : DieId := Fin.ofNat 4 (c.val / 12)
/-- The stack group of a core, numbered over the module, 3 × die + group (R3, R289). -/
def groupOf (c : CoreId) : Nat := c.val / 4
/-- The die of a context (chapter Contexts). -/
def ctxDie (c : Nat) : DieId := Fin.ofNat 4 (c / 256)

def Mach.launch (m : Mach) (n : Nat) : Option Launch := m.launches.find? (·.num == n)
def Mach.setLaunch (m : Mach) (x : Launch) : Mach :=
  { m with launches := m.launches.map fun l => if l.num = x.num then x else l }

/-- Append steps that follow from this one (notes/assumptions/1.md). -/
def Mach.post (m : Mach) (es : List Instr) : Mach := { m with agenda := m.agenda ++ es }
/-- A step due after some cycles. -/
def Mach.timer (m : Mach) (after : Nat) (e : Instr) : Mach :=
  { m with timers := m.timers ++ [(m.cycle + after, e)] }

/-- The unique number of an instance: launch, run and instance number (R277, R291). -/
def uidOf (launch run num : Nat) : Nat := launch * 2 ^ 20 + run * 2 ^ 17 + num

/-- The core on which the instance with a number is resident. -/
def Mach.coreOf (m : Mach) (uid : Nat) : Option CoreId :=
  (List.finRange 48).find? fun c => (m.core c).resident && (m.inst c).id.uid == uid

/-- The image of a number. -/
def Mach.image (m : Mach) (uid : Nat) : Option Image := m.images.find? fun g => g.inst.id.uid == uid

/-- The instance of a number, resident or saved. -/
def Mach.instOf (m : Mach) (uid : Nat) : Option Inst :=
  match m.coreOf uid with
  | some c => some (m.inst c)
  | none => (m.image uid).map (·.inst)

/-- Change the instance of a number, resident or saved. -/
def Mach.modUid (m : Mach) (uid : Nat) (f : Inst → Inst) : Mach :=
  match m.coreOf uid with
  | some c => m.modInst c f
  | none => { m with images := m.images.map fun g => if g.inst.id.uid = uid then { g with inst := f g.inst } else g }

/-! ## Links between dies (R12, R22, R351, R352) -/

/-- A link is Up or Degraded. -/
def Link.up (l : Link) : Bool := l.st == .up || l.st == .degraded

/-- A link carries packets. -/
def Link.usable (l : Link) : Bool := l.up || l.st == .retrying

/-- The Grenwiut links of a die. -/
def gwOf (d : DieId) : List (Fin 16) := (List.range 4).map fun k => Fin.ofNat 16 (d.val * 4 + k)

/-- The lowest Grenwiut link of a die that is Up or Degraded, or else the lowest that is Retrying. -/
def Mach.gwLink (m : Mach) (d : DieId) : Option (Fin 16) :=
  match (gwOf d).find? fun l => (m.gw.get l).up with
  | some l => some l
  | none => (gwOf d).find? fun l => (m.gw.get l).usable

/-- The UCIe link of a pair of dies (Table 15.1). -/
def pairLink (a b : DieId) : Fin 10 :=
  let x := min a.val b.val
  let y := max a.val b.val
  if x = 0 then Fin.ofNat 10 (y - 1) else if x = 1 then Fin.ofNat 10 (y + 1) else 5

/-- The UCIe link of a die and the IOD (Table 15.1). -/
def iodLink (d : DieId) : Fin 10 := Fin.ofNat 10 (6 + d.val)

/-- Two dies reach each other. -/
def Mach.pairUsable (m : Mach) (a b : DieId) : Bool := a == b || (m.ucie.get (pairLink a b)).usable

/-- A die reaches the IOD, and the host behind it. -/
def Mach.iodUsable (m : Mach) (d : DieId) : Bool := (m.ucie.get (iodLink d)).usable

/-- The die of an HBM address: of the stack that holds it. -/
def dieOfPa (pa : Nat) : DieId := Fin.ofNat 4 (pa / 2 ^ 36 / 3)

/-! ## Scalar registers (R117, R118) -/

/-- The physical register of a logical one. -/
def physReg (rrb : BitVec 4) (r : Reg) : Fin 32 :=
  if r.val < 16 then r else Fin.ofNat 32 (16 + (r.val + 16 - 16 - rrb.toNat + 16) % 16)

/-- s[r]; s0 reads as zero. -/
def Seq.get (s : Seq) (r : Reg) : W64 := if r = 0 then 0 else s.regs.get (physReg s.rrb r)

/-- s[r] := v; a result written to s0 is discarded. -/
def Seq.put (s : Seq) (r : Reg) (v : W64) : Seq :=
  if r = 0 then s else { s with regs := vset s.regs (physReg s.rrb r) v }

/-! ## Loops (R132–R136) -/

/-- Whether a body, start to stop, contains an address. -/
def Loop.contains (l : Loop) (t : W64) : Bool := decide (l.start ≤ t) && decide (t ≤ l.stop)

/-- A level that became inactive: LCNT 0 (R121). -/
def Loop.ended (l : Loop) : Loop := { l with active := false, lcnt := 0 }

/-- The shift of the stage predicates at a loop end, g0 entering. -/
def shiftPreds (g : BitVec 8) (g0 : Bool) : BitVec 8 := (g <<< 1) ||| (if g0 then 1#8 else 0#8)

/-- The loop-end event of level n (R134); the PC stands on the body's last word. -/
def Seq.loopEnd (s : Seq) (n : Fin 4) : Seq :=
  let l := s.loops.get n
  let preds := if l.stg then shiftPreds s.preds (decide (l.stages.toNat + 1 ≤ l.lcnt.toNat)) else s.preds
  let rrb := if l.rot then s.rrb + 1 else s.rrb
  if l.lcnt ≤ 1 then
    { s with preds, rrb, loops := vset s.loops n l.ended, order := s.order.erase n
             st := { s.st with pc := l.stop + 4 } }
  else
    { s with preds, rrb, loops := vset s.loops n { l with lcnt := l.lcnt - 1 }
             st := { s.st with pc := l.start } }

/-- S goes on past the word it stands on, with the loop-end event the word carries (R134); none
occurs while the handler flag is 1 (R144). -/
def Seq.advance (s : Seq) : Seq :=
  match s.handler, s.order with
  | false, n :: _ =>
    if (s.loops.get n).stop = s.st.pc then { s.loopEnd n with looped := true }
    else { s with st := { s.st with pc := s.st.pc + 4 }, looped := false }
  | _, _ => { s with st := { s.st with pc := s.st.pc + 4 }, looped := false }

/-- Leave every active level whose body does not contain the target (R132). -/
def Seq.leaveOutside (s : Seq) (t : W64) : Seq :=
  let gone := s.order.filter fun n => !(s.loops.get n).contains t
  { s with
    loops := gone.foldl (fun v n => vset v n (v.get n).ended) s.loops
    order := s.order.filter fun n => (s.loops.get n).contains t }

/-- A taken branch or jump (R130–R132); in the handler it leaves no level (R144). -/
def Seq.jump (s : Seq) (t : W64) : Seq :=
  let s' := if s.handler then s else s.leaveOutside t
  { s' with st := { s'.st with pc := t }, looped := false }

/-- Go to an address with no effect on the loops. -/
def Seq.goto (s : Seq) (t : W64) : Seq := { s with st := { s.st with pc := t }, looped := false }

/-- The word at the PC is the last word of an active body (check 5 of R135). -/
def Seq.atBodyEnd (s : Seq) : Bool := s.order.any fun n => (s.loops.get n).stop == s.st.pc

/-! ## Streams and tokens (R39, R40) -/

/-- The codes of the engines, 0 S, 1 V, 2 M, 3 X (R36). -/
def engCode : Eng → Nat | .S => 0 | .V => 1 | .M => 2 | .X => 3

/-- The engine a peer code names (Table 2.1). -/
def peerOf : Eng → Fin 4 → Option Eng
  | _, 0 => none
  | .S, 1 => some .V | .S, 2 => some .M | .S, 3 => some .X
  | .V, 1 => some .S | .V, 2 => some .M | .V, 3 => some .X
  | .M, 1 => some .S | .M, 2 => some .V | .M, 3 => some .X
  | .X, 1 => some .S | .X, 2 => some .V | .X, 3 => some .M

/-- The code by which an engine names a peer (Table 2.1). -/
def peerCode (e p : Eng) : Nat :=
  if peerOf e 1 = some p then 1 else if peerOf e 2 = some p then 2 else 3

def Inst.stream (i : Inst) : Eng → Stream
  | .S => i.s.st | .V => i.v.st | .M => i.m.st | .X => i.x.st

def Inst.setStream (i : Inst) (e : Eng) (st : Stream) : Inst :=
  match e with
  | .S => { i with s := { i.s with st } }
  | .V => { i with v := { i.v with st } }
  | .M => { i with m := { i.m with st } }
  | .X => { i with x := { i.x with st } }

def Inst.modStream (i : Inst) (e : Eng) (f : Stream → Stream) : Inst := i.setStream e (f (i.stream e))

/-- The directed queue from one engine to another. -/
def tokIx (src dst : Eng) : Fin 16 := Fin.ofNat 16 (engCode src * 4 + engCode dst)
def Inst.tokens (i : Inst) (src dst : Eng) : Nat := (i.toks.get (tokIx src dst)).val
def Inst.setTokens (i : Inst) (src dst : Eng) (n : Nat) : Inst :=
  { i with toks := vset i.toks (tokIx src dst) (Fin.ofNat 16 n) }

/-- Push one token; none when the queue holds 15. A token to an ended stream is discarded (R139,
R184, R217, R242, R288). -/
def Inst.pushToken (i : Inst) (src dst : Eng) : Option Inst :=
  if (i.stream dst).ended then some i
  else if i.tokens src dst = 15 then none
  else some (i.setTokens src dst (i.tokens src dst + 1))

/-- Pop one token; none when the queue is empty. -/
def Inst.popToken (i : Inst) (src dst : Eng) : Option Inst :=
  if i.tokens src dst = 0 then none else some (i.setTokens src dst (i.tokens src dst - 1))

/-! ## Rings in HBM (R416, R417) -/

/-- The memory key of a host physical address. -/
def hostKey (pa : Nat) : Nat := 2 ^ 64 + pa
/-- The memory key of a physical HBM address of another module. -/
def remoteKey (pkg pa : Nat) : Nat := 2 ^ 66 * (pkg + 1) + pa
/-- The memory key of an address in the space a window names (R268). -/
def spaceKey (hbm : Bool) (pa : Nat) : Nat := if hbm then pa else hostKey pa

def Mach.bytes (m : Mach) (k n : Nat) : List Byte := cellsRead m.mem k n
def Mach.word (m : Mach) (k : Nat) : Nat := leNat (m.bytes k 8)

/-- The HBM lines that bytes at a key cover whole: a full-line write clears their poison (R404). -/
def linesCleared (k n : Nat) (l : Nat) : Bool := decide (k ≤ l * 64) && decide (l * 64 + 64 ≤ k + n)

/-- Write bytes at a memory key. -/
def Mach.store (m : Mach) (k : Nat) (l : List Byte) : Mach :=
  { m with mem := cellsWrite m.mem k l, poison := m.poison.filter fun p => !linesCleared k l.length p }
def Mach.storeWord (m : Mach) (k v : Nat) : Mach := m.store k (bytesOf 8 v)

/-- Append a 64-byte record to a ring; a record that would overwrite one not consumed is dropped. -/
def Mach.ringAppend (m : Mach) (r : Ring) (rec : List Byte) : Mach :=
  if !r.on then m
  else
    let size := r.size * 64
    let w := m.word r.base
    let rd := m.word (r.base + 16)
    if size - 1 ≤ w - rd then m.storeWord (r.base + 8) (m.word (r.base + 8) + 1)
    else (m.store (r.base + 64 + 64 * (w % (size - 1))) rec).storeWord r.base (w + 1)

/-! ## Waits -/

/-- KIND and OBJ of a wait (Table 18.7). -/
def WaitKind.logCode (e : Eng) : WaitKind → Nat × Nat
  | .token src => (1, (tokIx src e).val)
  | .push dst => (1, (tokIx e dst).val)
  | .sqEmpty => (7, 0) | .sqFull => (7, 0)
  | .fifoFull f => (6, f) | .fifoEmpty f => (6, f)
  | .eidle => (1, 0)
  | .fill b => (10, b)
  | .sync o => (2, o) | .word a => (3, a) | .barrier o => (4, o)
  | .retry k o => (k, o)

/-- The waits that the wait log records (R417): all but EIDLE and SQPUT's stall. -/
def WaitKind.logged : WaitKind → Bool
  | .eidle => false | .sqFull => false
  | .retry k _ => decide (k ≠ 0)
  | _ => true

/-- The engine that satisfies a wait, where its object names one (R418). -/
def WaitKind.engine : WaitKind → Option Eng
  | .token src => some src
  | .push dst => some dst
  | .sqEmpty => some .S
  | .retry 8 _ => some .X
  | .retry 9 _ => some .M
  | _ => none

/-- The wait record (Table 18.7). -/
def waitRecord (m : Mach) (c : CoreId) (e : Eng) (w : Waiting) (outcome : Nat) (satby : Nat) : List Byte :=
  let i := m.inst c
  let (kind, obj) := w.kind.logCode e
  bytesOf 8 (c.val + engCode e * 2 ^ 6 + i.id.ctx.val * 2 ^ 8 + i.id.num * 2 ^ 18)
    ++ bytesOf 8 (kind + outcome * 16) ++ bytesOf 8 obj ++ bytesOf 8 (m.cycle - w.since)
    ++ bytesOf 8 satby ++ bytesOf 8 m.cycle ++ bytesOf 16 0

/-- SATBY for a wait satisfied by an engine of the core; 0 where nothing names the agent. -/
def satByEngine (c : CoreId) (k : WaitKind) : Nat :=
  match k.engine with
  | some e => 1 + engCode e * 16 + c.val * 256
  | none => 0

/-- A stream's wait ends with an outcome of Table 18.7: it is cleared, and logged when it lasted
longer than the threshold of an enabled log. -/
def Mach.endWait (m : Mach) (c : CoreId) (e : Eng) (outcome : Nat) : Mach :=
  match ((m.inst c).stream e).wait with
  | none => m
  | some w =>
    let m' := m.modInst c fun i => i.modStream e fun st => { st with wait := none }
    let wl := (m.ctx (m.ctxOf c)).wl
    let th := if wl.threshold = 0 then 65536 else wl.threshold
    if wl.on && w.kind.logged && decide (th < m.cycle - w.since) then
      m'.ringAppend wl (waitRecord m c e w outcome (if outcome = 0 then satByEngine c w.kind else 0))
    else m'

/-- A stream's word waits; a wait that goes on keeps the cycle it began. -/
def Mach.beginWait (m : Mach) (c : CoreId) (e : Eng) (k : WaitKind) (word : Instr) : Mach :=
  m.modInst c fun i => i.modStream e fun st =>
    let since := match st.wait with
      | some w => if w.kind = k then w.since else m.cycle
      | none => m.cycle
    { st with wait := some { kind := k, since, word } }

/-- Abandon the waits of all four streams (R143, R148, R189): the words start afresh. -/
def Mach.abandonWaits (m : Mach) (c : CoreId) (outcome : Nat) : Mach :=
  let m := [Eng.S, .V, .M, .X].foldl (fun m e => m.endWait c e outcome) m
  m.modInst c fun i => { i with
    pad := { i.pad with outcomes := [] }, x := { i.x with wid := none }, m := { i.m with record := none }
    s := { i.s with checking := false } }

/-- The idle cycles of a core's sub-arrays end (R201). -/
def Mach.endIdles (m : Mach) (c : CoreId) : Mach :=
  m.modInst c fun i => { i with m := { i.m with sas := i.m.sas.map fun a => { a with idle := false } } }

/-! ## Records for the host -/

/-- Hand a 64-byte record to a queue's completion area (R276): it waits its turn, and its posting is
a step of its own. -/
def Mach.postRecord (m : Mach) (f : FnId) (q : Nat) (bytes : List Byte) (ctx : Option CtxId) : Mach :=
  let qu := m.queue f q
  (m.setQueue f q { qu with held := qu.held ++ [{ bytes, ctx }] }).post
    [.completionEntryPost f (Fin.ofNat 8 q)]

/-- The codes of Table 5.8. -/
def causeCode : Cause → Nat
  | .illegal => 1 | .privilege => 2 | .misaligned => 3 | .protection => 4 | .storeNonresident => 5
  | .format => 6 | .tokenOrphan => 7 | .arith => 8 | .breakpoint => 9 | .svc => 10 | .region => 11
  | .asidRetiring => 12 | .fifoProtocol => 13 | .watch => 14

/-- The record of Table 9.7, TYPE 1 FAULT or 4 STOPPED. -/
def faultBytes (typ : Nat) (ctx : CtxId) (num run tidx : Nat) (core : CoreId) (t : TrapInfo) (seq : Nat) :
    List Byte :=
  bytesOf 4 typ ++ bytesOf 4 ctx.val
    ++ bytesOf 8 (num + run * 2 ^ 16 + tidx * 2 ^ 18 + core.val * 2 ^ 32)
    ++ bytesOf 8 (engCode t.eng * 2 ^ 8 + (if t.hflag then 2 ^ 10 else 0) + causeCode t.cause)
    ++ bytesOf 8 t.pc.toNat ++ bytesOf 8 t.val.toNat ++ bytesOf 8 t.restart.toNat
    ++ bytesOf 8 t.cycle ++ bytesOf 8 seq

/-! ## Traps (R143–R147) -/

/-- Whether TCAUSE.EN delivers a cause to the handler (R124): EN bit c − 1 of the field. -/
def Seq.enabled (s : Seq) (k : Cause) : Bool := s.ten.getLsbD (causeCode k - 1)

/-- RESTART as a CSR value (Table 5.9). -/
def Seq.restart (s : Seq) : W64 :=
  BitVec.ofNat 64 (s.rcol.toNat + s.rrow.toNat * 2 ^ 6 + s.rstrm.toNat * 2 ^ 12
    + (if s.rvalid then 2 ^ 14 else 0) + (if s.snr then 2 ^ 15 else 0))

/-- The resident members of an instance's team on other cores. -/
def Mach.teamMates (m : Mach) (c : CoreId) : List CoreId :=
  (List.finRange 48).filter fun d =>
    d != c && (m.core d).resident && (m.inst d).id.launch == (m.inst c).id.launch
      && (m.inst d).id.run == (m.inst c).id.run && (m.inst d).id.team == (m.inst c).id.team

/-- The trap as the fault record carries it (R265). -/
def Mach.trapInfo (m : Mach) (c : CoreId) (e : Eng) (k : Cause) (pc val : W64) : TrapInfo :=
  { cause := k, eng := e, hflag := (m.inst c).s.handler, pc, val
    restart := (m.inst c).s.restart, cycle := m.cycle }

/-- Park the instance Faulted (R143, R265, R296): it is saved, its record is posted, and the other
resident members of its team are pre-empted. -/
def Mach.parkFaulted (m : Mach) (c : CoreId) (t : TrapInfo) (src : TrapSource) : Mach :=
  let i := m.inst c
  let mates := m.teamMates c
  let m := m.modInst c fun i => { i with faulted := some t, parked := src }
  m.post ([.coreReleased c, .faultRecord i.id.ctx i.id.uid c t] ++ mates.map .preemptionRequest)

/-- Stop the instance on a BRK or WATCH trap and post the STOPPED record (R415). -/
def Mach.debugStop (m : Mach) (c : CoreId) (t : TrapInfo) : Mach :=
  let i := m.inst c
  let ctx := m.ctx i.id.ctx.val
  let m := m.modInst c fun i => { i with dbg := { i.dbg with stopped := true, stepping := none } }
  m.postRecord ctx.owner ctx.fqueue
    (faultBytes 4 i.id.ctx i.id.num i.id.run i.id.tidx c t 0) (some i.id.ctx)

/-- Deliver a trap to the handler (R143, step 4). -/
def Seq.deliver (s : Seq) (e : Eng) (k : Cause) (pc val : W64) : Seq :=
  { s with
    tcode := BitVec.ofNat 8 (causeCode k), tstrm := BitVec.ofNat 2 (engCode e)
    tpc := pc &&& ~~~3#64, tval := val
    sret := s.st.pc, handler := true, looped := false
    st := { s.st with pc := s.tvec } }

/-- Taking a trap (R143): the waits of the streams are abandoned; the trap is delivered when the
handler flag is 0, S has not exited (R288) and the cause is enabled, and otherwise parks the instance
Faulted or, with a debugger attached, stops it on a BRK or WATCH. `force` marks the traps that park
whatever EN holds (R404). When S itself traps its return point is TPC. -/
def Mach.takeTrap (m : Mach) (c : CoreId) (e : Eng) (k : Cause) (pc val : W64)
    (src : TrapSource := .word) (force : Bool := false) : Mach :=
  let t := m.trapInfo c e k pc val
  let m := (m.abandonWaits c 2).endIdles c
  let m := m.modInst c fun i => { i with dbg := { i.dbg with ran := i.dbg.ran || i.dbg.stepping.isSome } }
  let s := (m.inst c).s
  if !force && !s.handler && !s.st.ended && s.enabled k then
    m.modInst c fun i =>
      let s1 := i.s.deliver e k pc val
      { i with source := src, s := if e = .S then { s1 with sret := s1.tpc } else s1
               dbg := { i.dbg with watchSkip := if k = .watch then some pc else i.dbg.watchSkip } }
  else if (k = .breakpoint || k = .watch) && (m.ctx (m.ctxOf c)).attached then
    (m.modInst c fun i => { i with dbg := { i.dbg with watchSkip := if k = .watch then some pc else i.dbg.watchSkip } }).debugStop c t
  else
    (m.modInst c fun i => { i with dbg := { i.dbg with watchSkip := if k = .watch then some pc else i.dbg.watchSkip } }).parkFaulted c t src

/-- Resume what a trap stood on at an address (R146): a word of stream e at that address, whose sync pop is
not repeated when it is the word that trapped (R40); the nest or the
transfer when it is the address of the MGO or of the issuing word, and otherwise to be abandoned
(Tables 7.12 and 8.2). -/
def Inst.resumeFrom (i : Inst) (src : TrapSource) (e : Eng) (pc : W64) : Inst :=
  match src with
  | .word => if e = .S then i else i.modStream e fun st => { st with pc, popped := st.popped && st.pc == pc }
  | .nest =>
    let stays := match i.m.active with | some a => a.mgo == pc | none => true
    let other := if i.m.fault = some .status then NestFault.unrecorded else .abandoned
    { i with m := { i.m with fault := if stays then none else some other } }
  | .transfer ch id =>
    { i with x := { i.x with xfers := i.x.xfers.map fun t =>
        if t.ch = ch && t.id = id && t.state = .faulted then
          { t with state := if t.pc = pc then .running else .abandoned }
        else t } }

/-- Resume what the trap that TCAUSE names stood on. -/
def Inst.resumeSource (i : Inst) (e : Eng) (pc : W64) : Inst := i.resumeFrom i.source e pc

/-- The return from a trap (R146), shared by TRET and IRESUME: the handler flag clears, S goes to TPC
when it trapped and otherwise to its return point, and the trapping stream resumes at TPC. -/
def Inst.trapReturn (i : Inst) (e : Eng) (pc : W64) : Inst :=
  let i := { i with s := { i.s with handler := false } }
  let i := i.resumeSource e pc
  let t := if e = .S then pc else i.s.sret
  { i with s := i.s.jump t }

/-- TRET on a core (R146). -/
def Mach.trapReturn (m : Mach) (c : CoreId) (e : Eng) (pc : W64) : Mach := m.modInst c (·.trapReturn e pc)

/-! ## Stops of a word -/

/-- Why a word of a stream, or an engine's access, does not finish. -/
inductive Stop where
  | trap (k : Cause) (val : W64)
  | park (k : Cause) (val : W64)
  | wait (k : WaitKind)
  deriving DecidableEq, Repr

/-- A computation over the module that may stop. -/
abbrev Run (α : Type) := ExceptT Stop (StateM Mach) α

/-- Run it. -/
def Run.go {α : Type} (f : Run α) (m : Mach) : Except Stop α × Mach := Id.run (StateT.run (ExceptT.run f) m)

def trap {α : Type} (k : Cause) (val : Nat) : Run α := throw (.trap k (BitVec.ofNat 64 val))
def waitFor {α : Type} (k : WaitKind) : Run α := throw (.wait k)
def getInst (c : CoreId) : Run Inst := do return (← get).inst c
def setInst (c : CoreId) (f : Inst → Inst) : Run Unit := modify fun m => m.modInst c f
def require (b : Bool) (k : Cause) (val : Nat) : Run Unit := if b then pure () else trap k val

/-! ## Finishing a word of S -/

/-- What a word of S leaves: go on, jump, go to an address with no effect on the loops, or end. -/
inductive Flow where
  | fall
  | jump (t : W64)
  | goto (t : W64)
  | stay
  deriving DecidableEq, Repr

/-- The outcomes of fills but for those that a stream's word has waited for (R347). -/
def Pad.forget (p : Pad) (e : Eng) : Pad := { p with outcomes := p.outcomes.filter fun o => o.1 % 4 != engCode e }

/-- What every completed word of S leaves behind: its wait ended, the fills it waited for forgotten,
and one execution past a WATCH trap used up (R414). -/
def Mach.sDone (m : Mach) (c : CoreId) : Mach :=
  let m := m.endWait c .S 0
  m.modInst c fun i => { i with
    pad := i.pad.forget .S
    s := { i.s with checking := false }
    dbg := { i.dbg with
      watchSkip := if i.dbg.watchSkip = some i.s.st.pc || !i.s.handler then none else i.dbg.watchSkip
      ran := i.dbg.ran || i.dbg.stepping == some .S } }

/-- A word of S completes. -/
def Mach.sFlow (m : Mach) (c : CoreId) (f : Flow) : Mach :=
  (m.sDone c).modSeq c fun s =>
    match f with
    | .fall => s.advance
    | .jump t => s.jump t
    | .goto t => s.goto t
    | .stay => s

/-- A word of S that only computes a register from registers: it cannot stop. -/
def Mach.sResult (m : Mach) (c : CoreId) (d : Reg) (v : W64) : Mach :=
  (m.modSeq c fun s => s.put d v).sFlow c .fall

/-- The cycles from a cycle on to the next re-check of a wait that began at another, at start + 64k (R302). -/
def toRecheck (cycle since : Nat) : Nat := 64 - (cycle - since) % 64

/-- The next re-check of the wait of S, the only one that stands (R302). -/
def Mach.spinTimer (m : Mach) (c : CoreId) : Mach :=
  let since := match (m.inst c).s.st.wait with | some w => w.since | none => m.cycle
  ({ m with timers := m.timers.filter fun t => t.2 != .spinRecheck c } : Mach).timer (toRecheck m.cycle since) (.spinRecheck c)

/-- A word of S stops: a trap on the word, or a wait. A spinning wait sets its next re-check (R302). -/
def Mach.sStop (m : Mach) (c : CoreId) (word : Instr) : Stop → Mach
  | .trap k v => m.takeTrap c .S k (m.inst c).s.st.pc v
  | .park k v => m.takeTrap c .S k (m.inst c).s.st.pc v .word true
  | .wait k =>
    let fresh := match (m.inst c).s.st.wait with | some w => w.kind != k | none => true
    let m := m.beginWait c .S k word
    match k with
    | .token _ | .sync _ | .word _ | .barrier _ => if fresh then m.spinTimer c else m
    | _ => m

/-- Run a word of S. -/
def Mach.sWord (m : Mach) (c : CoreId) (word : Instr) (f : Run Flow) : Mach :=
  match f.go m with
  | (.ok fl, m') => m'.sFlow c fl
  | (.error st, m') => m'.sStop c word st

/-! ## Finishing a word of V, M or X -/

/-- The stream goes on past its word. -/
def Mach.eAdvance (m : Mach) (c : CoreId) (e : Eng) : Mach :=
  (m.endWait c e 0).modInst c fun i =>
    { i.modStream e fun st => { st with pc := st.pc + 4, popped := false, pushing := none } with
      pad := i.pad.forget e
      dbg := { i.dbg with ran := i.dbg.ran || i.dbg.stepping == some e } }

/-- A push that an engine has not made yet stands before a word's push to the same queue (R40). -/
def Inst.behind (i : Inst) (e d : Eng) : Bool :=
  match e with
  | .M => i.m.pushes.contains d
  | .X => i.x.pushes.contains d
  | _ => false

/-- The push of a word: it waits behind its engine's earlier pushes to the queue, and for room (R40). -/
def Inst.pushWord (i : Inst) (e d : Eng) : Option Inst := if i.behind e d then none else i.pushToken e d

/-- A finished word makes its sync push; a push that cannot enter its queue stalls the stream (R40). -/
def Mach.ePush (m : Mach) (c : CoreId) (e : Eng) (y : Sync) (word : Instr) : Mach :=
  match peerOf e y.push with
  | none => m.eAdvance c e
  | some d =>
    match (m.inst c).pushWord e d with
    | some i => (m.setInst c i).eAdvance c e
    | none =>
      (m.modInst c fun i => i.modStream e fun st => { st with pushing := some d }).beginWait c e (.push d) word

/-- A stream has ended, on the word at an address (R184, R217, R242). -/
def Mach.endStream (m : Mach) (c : CoreId) (e : Eng) (pc : W64) : Mach :=
  m.modInst c fun i => i.modStream e fun st => { st with pc, ended := true }

/-- A word of V, M or X stops. -/
def Mach.eStop (m : Mach) (c : CoreId) (e : Eng) (word : Instr) : Stop → Mach
  | .trap k v => m.takeTrap c e k ((m.inst c).stream e).pc v
  | .park k v => m.takeTrap c e k ((m.inst c).stream e).pc v .word true
  | .wait k => m.beginWait c e k word

/-- The sync pop of a word, made once (R40): it waits on an empty queue, and traps TOKEN_ORPHAN when
the peer has ended. -/
def syncPop (c : CoreId) (e : Eng) (y : Sync) : Run Unit := do
  let i ← getInst c
  if (i.stream e).popped then return
  match peerOf e y.pop with
  | none => setInst c fun i => i.modStream e fun st => { st with popped := true }
  | some p =>
    match i.popToken p e with
    | some i' => set ((← get).setInst c (i'.modStream e fun st => { st with popped := true }))
    | none => if (i.stream p).ended then trap .tokenOrphan y.pop.val else waitFor (.token p)

/-- Run a word of V, M or X whose finish is its own end: sync pop, effect, sync push. A word whose
push waits has had its effect. -/
def Mach.eWord (m : Mach) (c : CoreId) (e : Eng) (y : Sync) (word : Instr) (f : Run Unit) : Mach :=
  match ((m.inst c).stream e).pushing with
  | some _ => m.ePush c e y word
  | none =>
    match (do syncPop c e y; f : Run Unit).go m with
    | (.ok _, m') => m'.ePush c e y word
    | (.error st, m') => m'.eStop c e word st

/-! ## Meanings as outcomes -/

/-- The outcome of a meaning. -/
abbrev Out := Host.Outcome State Fault Refusal

/-- The next state of a meaning that changes everything but the module registers of Power. -/
def State.to (s : State) (m : Mach) : Out := .next { s with mach := m }

/-- The sequencer of the instance whose turn it is. -/
def State.seq (s : State) : Seq := (s.mach.inst s.mach.cur).s

/-- A word of S that writes one register from registers. -/
def State.sReg (s : State) (d : Reg) (v : W64) : Out := s.to (s.mach.sResult s.mach.cur d v)

/-- A word of S of the core whose turn it is. -/
def State.sRun (s : State) (word : Instr) (f : CoreId → Run Flow) : Out :=
  s.to (s.mach.sWord s.mach.cur word (f s.mach.cur))

/-- A word of V, M or X of the core whose turn it is. -/
def State.eRun (s : State) (e : Eng) (y : Sync) (word : Instr) (f : CoreId → Run Unit) : Out :=
  s.to (s.mach.eWord s.mach.cur e y word (f s.mach.cur))

/-- The instruction's word, as the traps that carry it show it (R36, R135, R142). -/
def wordOf (i : Instr) : Nat := match encode i with | some (_, w) => w | none => 0

/-- TVAL of a structure trap (R135): the word with bit 34 set. -/
def structVal (i : Instr) : Nat := wordOf i + 2 ^ 34

/-- TVAL of an illegal word or CSR trap of stream e (R36, R142). -/
def illegalVal (e : Eng) (w : Nat) : W64 := BitVec.ofNat 64 (w % 2 ^ 32 + engCode e * 2 ^ 32)

end Sys2Proof.Machine
end

