-- ==== Sys2Proof/Machine/Memory.lean ====
section
/-! DEFINITION. Memory: page tables and translation (R328–R337), accesses to global homes, dual-run
relocation and signatures (R292, R293), and the scratchpad with its region copies (R87–R89,
R346–R348). -/

namespace Sys2Proof.Machine
open Sys2Proof

/-! ## Address spaces (R87, R88) -/

/-- A canonical global address: bits [63:56] all equal (R88). -/
def isCanon (a : Nat) : Bool := a / 2 ^ 56 == 0 || a / 2 ^ 56 == 255

/-- The space an S address names (R88). -/
inductive SAddr where
  | global (a : Nat)
  | local (a : Nat)
  | bad
  deriving DecidableEq, Repr

def sAddr (a : W64) : SAddr :=
  let n := a.toNat
  if isCanon n then .global n
  else if n / 2 ^ 56 = 0x40 && (n / 2 ^ 22) % 2 ^ 34 == 0 then .local (n % 2 ^ 22)
  else .bad

/-- The pieces of [a, a + n) that lie inside one 64-byte line each. -/
def lineSegs (a n : Nat) : List (Nat × Nat) :=
  if n = 0 then []
  else
    let first := a / 64
    let last := (a + n - 1) / 64
    (List.range (last - first + 1)).map fun k =>
      let lo := max a ((first + k) * 64)
      (lo, min (a + n) ((first + k + 1) * 64) - lo)

/-! ## Page tables (R328–R330) -/

/-- The levels of a walk: number, lowest index bit, index bits (Table 14.1). -/
def walkLevels : List (Nat × Nat × Nat) :=
  [(6, 53, 4), (5, 45, 8), (4, 37, 8), (3, 29, 8), (2, 21, 8), (1, 16, 5), (0, 12, 4)]

/-- The size of the page a level maps. -/
def pageSize (level : Nat) : Nat := if level = 2 then 2 ^ 21 else if level = 1 then 2 ^ 16 else 2 ^ 12

/-- Whether [base, base + size) lies in a function's window and its space (R268). -/
def Mach.inWindow (m : Mach) (f : FnId) (hbm : Bool) (base size : Nat) : Bool :=
  let r := m.fn f
  decide (r.winSpace = hbm) && decide (r.winBase.toNat * 2 ^ 16 ≤ base)
    && decide (base + size ≤ r.winBase.toNat * 2 ^ 16 + r.winSize.toNat * 2 ^ 16)

/-- An HBM address names a stack that exists (R397). -/
def isHbm (pa n : Nat) : Bool := decide (pa + n ≤ 12 * 2 ^ 36)

/-- The leaf that a valid entry gives at a level, none when it is malformed (R329, R330). -/
def leafOf (m : Mach) (x : Ctx) (va level key w0 w1 : Nat) : Option Page :=
  let size := pageSize level
  let tier := fld w0 8 2
  let mode := fld w0 21 2
  let peer := fld w0 23 12
  let cthr := fld w0 35 5
  let xframe := fld w0 40 19
  let frame := fld w1 12 52 * 2 ^ 12
  let ok := decide (level ≤ 2) && fld w0 10 2 == level && tier + level == 2
    && fld w0 6 2 == 0 && fld w0 59 5 == 0 && fld w1 0 12 == 0 && frame % size == 0
    && (mode == 0 || tier == 0) && (mode != 0 || peer == 0) && (mode == 2 || cthr == 0)
    && (2 ≤ mode || xframe == 0) && (mode < 2 || isHbm (xframe * 2 ^ 21) (2 ^ 21))
    && (tier != 0 || isHbm frame size)
    && (x.owner == 0 || mode != 0 || m.inWindow x.owner (tier == 0) frame size)
  if ok then
    some { asid := x.asid.toNat, base := va / size * size, size, frame, p := w0.testBit 2, w := w0.testBit 3
           x := w0.testBit 4, rd := w0.testBit 5, tier, fmt := fld w0 12 4, geo := fld w0 16 2
           cb := fld w0 18 3, mode, peer, cthr, xframe := xframe * 2 ^ 21, entry := key, word0 := w0 }
  else none

/-- The walk from a table on; it also lists the non-leaf entries it read. A malformed entry is V = 0.
A poisoned entry cannot be read and is taken as V = 0 (notes/assumptions/12.md). -/
def walkGo (m : Mach) (x : Ctx) (cached : List WalkEntry) (va : Nat) :
    List (Nat × Nat × Nat) → Nat → List WalkEntry → Option Page × List WalkEntry
  | [], _, acc => (none, acc)
  | (level, shift, bits) :: rest, table, acc =>
    let hbm := (m.fn x.owner).winSpace
    let pa := table + 16 * fld va shift bits
    match cached.find? fun e => e.asid == x.asid.toNat && e.level == level && e.pre == va / 2 ^ shift with
    | some e => walkGo m x cached va rest e.table acc
    | none =>
      let key := spaceKey hbm pa
      let w0 := m.word key
      let w1 := m.word (key + 8)
      let readable := (!hbm || (isHbm pa 16 && !m.poison.contains (pa / 64)))
        && (x.owner == 0 || m.inWindow x.owner hbm pa 16)
      if !readable || !w0.testBit 0 then (none, acc)
      else if w0.testBit 1 then (leafOf m x va level key w0 w1, acc)
      else
        let align := match rest with | (_, _, b) :: _ => 16 * 2 ^ b | [] => 0
        if w0 ≠ 1 || fld w1 0 12 ≠ 0 || align = 0 || w1 % align ≠ 0 then (none, acc)
        else walkGo m x cached va rest w1
          (acc ++ [{ asid := x.asid.toNat, level, pre := va / 2 ^ shift, table := w1 }])

/-- The walk of a context's tables, never from a cache. -/
def Mach.walk (m : Mach) (ctx : Nat) (va : Nat) : Option Page :=
  let x := m.ctx ctx
  (walkGo m x [] va walkLevels x.ptroot []).1

/-! ## Translation (R333–R337) -/

def Page.covers (p : Page) (asid va : Nat) : Bool :=
  p.asid == asid && decide (p.base ≤ va) && decide (va < p.base + p.size)

/-- Only present leaves of mode LOCAL, PEER or COUNT are cached (R337). -/
def Page.cacheable (p : Page) : Bool := p.p && decide (p.mode ≤ 2)

/-- A page whose frame lies in another module's HBM. -/
def Mach.remotePage (m : Mach) (p : Page) : Bool := (p.mode = 1 || p.mode = 2) && p.peer ≠ m.pkg.toNat

/-- The memory key of an address of a page. -/
def Mach.pageKey (m : Mach) (p : Page) (va : Nat) : Nat :=
  let pa := p.frame + (va - p.base)
  if m.remotePage p then remoteKey p.peer pa
  else if p.tier = 0 then pa
  else hostKey pa

/-- A die reaches the home of an address of a page: its own HBM, that of another die over the link of the pair, host
memory over its link to the IOD, or another module over a Grenwiut link of its own (R21, R22). -/
def Mach.pageWay (m : Mach) (d : DieId) (p : Page) (va : Nat) : Bool :=
  if m.remotePage p then (m.gwLink d).isSome
  else if p.tier = 0 then m.pairUsable d (dieOfPa (p.frame + (va - p.base)))
  else m.iodUsable d

/-- The page registers of a stream (R336). -/
def Inst.pageRegs (i : Inst) (who : PStream) : PageRegs :=
  (i.regs.find? (·.who == who)).getD { who, cur := none, next := none, last := 0 }

def Inst.setPageRegs (i : Inst) (r : PageRegs) : Inst :=
  { i with regs := (i.regs.filter (·.who != r.who)) ++ [r] }

/-- Take a translation into a stream's current-page register. -/
def Inst.notePage (i : Inst) (who : PStream) (p : Page) (va : Nat) : Inst :=
  let r := i.pageRegs who
  i.setPageRegs { r with cur := if p.cacheable then some p else none
                         next := if r.next = some p then none else r.next, last := va }

/-- Look an address up in a stream's registers, then the die's buffer, then the walk caches and the
walker; what is read is cached (R337). -/
def Mach.lookup (m : Mach) (c : CoreId) (who : PStream) (va : Nat) : Option Page × Mach :=
  let i := m.inst c
  let x := m.ctx i.id.ctx.val
  let asid := x.asid.toNat
  let r := i.pageRegs who
  let hit := fun (p : Option Page) => match p with | some q => q.covers asid va | none => false
  if hit r.cur then (r.cur, m)
  else if hit r.next then (r.next, m)
  else
    let die := m.die (dieOf c)
    match die.tlb.find? fun p => p.covers asid va with
    | some p => (some p, m)
    | none =>
      match walkGo m x die.walks va walkLevels x.ptroot [] with
      | (res, fresh) =>
        let tlb := match res with | some p => if p.cacheable then die.tlb ++ [p] else die.tlb | none => die.tlb
        let walks := die.walks ++ fresh
        (res, m.setDie (dieOf c) { die with tlb := tlb.drop (tlb.length - 16384), walks := walks.drop (walks.length - 256) })

/-- The prefetch of R336 after an access at an address of a page: it never traps, counts or starts anything. -/
def Mach.prefetchPage (m : Mach) (c : CoreId) (who : PStream) (p : Page) (va old : Nat) : Mach :=
  let dist := (m.inst c).s.prefetch.toNat
  let target := (if old ≤ va then va + dist else va + 2 ^ 64 - dist) % 2 ^ 64
  if dist = 0 || p.covers p.asid target || !isCanon target then m
  else
    match m.lookup c who target with
    | (some q, m) => m.modInst c fun i => i.setPageRegs { i.pageRegs who with next := if q.cacheable then some q else none }
    | (none, m) => m.modInst c fun i => i.setPageRegs { i.pageRegs who with next := none }

/-- The rights an access needs (R331). -/
inductive Right where
  | read | write | fetch
  deriving DecidableEq, Repr

def Page.allows (p : Page) : Right → Bool
  | .read => p.rd | .write => p.w | .fetch => p.x

/-- Count requests to a COUNT page in the die's table of 1,024 entries; the lowest count gives way,
the lowest index first (R334). -/
def countPage (l : List (Nat × Nat × Nat)) (asid base n : Nat) : List (Nat × Nat × Nat) × Nat :=
  match l.find? fun e => e.1 == asid && e.2.1 == base with
  | some e => (l.map fun x => if x.1 = asid && x.2.1 = base then (asid, base, e.2.2 + n) else x, e.2.2 + n)
  | none =>
    if l.length < 1024 then (l ++ [(asid, base, n)], n)
    else
      let low := l.foldl (fun b e => min b e.2.2) (l.headD (0, 0, 0)).2.2
      match l.findIdx? fun e => e.2.2 == low with
      | some k => (l.set k (asid, base, n), n)
      | none => (l, n)

/-- Whether a page is being moved or pulled. -/
def Mach.moving (m : Mach) (p : Page) : Bool :=
  m.moves.any fun v => v.page.asid == p.asid && v.page.base == p.base

/-- Start the move of a COUNT page or the pull of a PULL page: the word 0 read now is the one that its end
expects (R334, R335). -/
def Mach.startMove (m : Mach) (ctx : CtxId) (p : Page) (pull : Bool) : Mach :=
  if m.moving p then m
  else
    ({ m with moves := m.moves ++ [{ ctx, page := { p with word0 := m.word p.entry }, pull }] } : Mach).timer 1
      (if pull then .pullDone ctx p.base else .countMoveDone ctx p.base)

/-- An access stalls on a page that is arriving: false; or it stood stalled there when the page's peer had not
been reached for 10 ms, and traps: true (R335). -/
def Mach.stall (m : Mach) (p : Page) (w : Staller) : Bool × Mach :=
  let same := fun (v : Move) => v.page.asid == p.asid && v.page.base == p.base
  let late := m.moves.any fun v => same v && v.dead.contains w
  (late, { m with moves := m.moves.map fun v =>
      if !(same v) then v
      else if late then { v with dead := v.dead.erase w }
      else if v.stalled.contains w then v else { v with stalled := v.stalled ++ [w] } })

/-- Stall on a page that is arriving; a PULL page's first access starts its pull (R334, R335). -/
def stallOn {α : Type} (c : CoreId) (p : Page) (w : Staller) (tv : Nat) : Run α := do
  modify fun m => if p.mode = 3 then m.startMove (m.inst c).id.ctx p true else m
  let (late, m) := (← get).stall p w
  set m
  require (!late) .protection tv
  waitFor (.retry 10 p.base)

/-- Count one request of a die to a COUNT page; true where the count has reached its threshold (R334). -/
def Mach.countRequest (m : Mach) (d : DieId) (p : Page) : Bool × Mach :=
  let die := m.die d
  let (l, n) := countPage die.counters p.asid p.base 1
  (decide (2 ^ p.cthr ≤ n), m.setDie d { die with counters := l })

/-- A request to a present COUNT page: the one that reaches the threshold starts the move and stalls (R334). -/
def countOne (c : CoreId) (p : Page) (w : Staller) (tv : Nat) : Run Unit := do
  let (full, m) := (← get).countRequest (dieOf c) p
  set m
  if full then
    modify fun m => m.startMove (m.inst c).id.ctx p false
    stallOn c p w tv

/-- Translate an address for an access of a stream (R331–R337): PROTECTION where no valid leaf maps
it, or a PULL leaf denies it; a stall on a page that is arriving, or whose home no link reaches now (R22,
notes/assumptions/126.md). The page may be non-resident. -/
def translate (c : CoreId) (who : PStream) (va tv : Nat) (need : Right) : Run Page := do
  let m ← get
  let old := ((m.inst c).pageRegs who).last
  match m.lookup c who va with
  | (none, m') => set m'; trap .protection tv
  | (some p, m') =>
    set (m'.modInst c fun i => i.notePage who p va)
    if p.mode = 3 || m'.moving p then
      require (p.allows need) .protection tv
      stallOn c p (.core c who) tv
    if p.p && p.allows need && !m'.pageWay (dieOf c) p va then waitFor (.retry 10 p.base)
    if p.mode = 2 && p.p && p.allows need then countOne c p (.core c who) tv
    modify fun m => m.prefetchPage c who p va old
    return p

/-! ## Global accesses -/

/-- The address at which a dual-run access is made (R292). -/
def relocate (id : Ident) (va : Nat) : Nat :=
  if id.dual && decide (id.outBase ≤ va) && decide (va < id.outBase + id.outSize) then
    (((va : Int) + id.run * id.shadow) % 2 ^ 64).toNat
  else va

/-- Whether a dual-run write is performed: run 1 everywhere, runs 2 and 3 inside the window (R292). -/
def performed (id : Ident) (va : Nat) : Bool :=
  !id.dual || id.run == 0 || (decide (id.outBase ≤ va) && decide (va < id.outBase + id.outSize))

/-- One term of a signature (R293): an aligned 8-byte unit, the mask of bytes written, the data. -/
def sigUnit (unit : Nat) (bytes : List (Option Byte)) : W64 :=
  let mask := (bytes.zipIdx.map fun (b, k) => if b.isSome then 2 ^ k else 0).sum
  crc64 (bytesOf 8 unit ++ bytesOf 1 mask ++ bytes.map (·.getD 0))

/-- The signature of one write (R293). -/
def sigOf (va : Nat) (l : List Byte) : W64 :=
  let first := va / 8
  let last := (va + l.length - 1) / 8
  ((List.range (last - first + 1)).map fun k =>
    let unit := (first + k) * 8
    sigUnit unit ((List.range 8).map fun b =>
      if va ≤ unit + b && unit + b < va + l.length then l[unit + b - va]? else none)).foldl (· + ·) 0

/-- Sign a write of an instance of a dual-run launch. -/
def Mach.sign (m : Mach) (c : CoreId) (va : Nat) (l : List Byte) : Mach :=
  if (m.inst c).id.dual && l ≠ [] then m.modInst c fun i => { i with sig := i.sig + sigOf va l } else m

/-- Charge a request of up to 64 bytes to the context (R263). -/
def Mach.charge (m : Mach) (c : CoreId) (p : Page) (va : Nat) : Mach :=
  let remote := m.remotePage p
  let own := dieOfPa (p.frame + (va - p.base)) = dieOf c
  m.modCtx (m.ctxOf c) fun x => { x with act := { x.act with
    hbm := x.act.hbm + (if !remote && p.tier = 0 then 1 else 0)
    link := x.act.link + (if remote || (p.tier = 0 && !own) then 1 else 0) } }

/-- The page of an access that must be mapped and allowed: none when it is not resident. -/
def accessPage (c : CoreId) (who : PStream) (va : Nat) (need : Right) : Run (Option (Page × Nat)) := do
  let r := relocate (← getInst c).id va
  let p ← translate c who r va need
  require (p.allows need) .protection va
  if p.p then
    modify fun m => m.charge c p r
    return some (p, (← get).pageKey p r)
  else return none

/-- Read bytes inside one 64-byte line of a global home; none when the page is not resident. A
poisoned line parks the instance (R404). -/
def gReadSeg (c : CoreId) (who : PStream) (va n : Nat) (need : Right := .read) : Run (Option (List Byte)) := do
  match ← accessPage c who va need with
  | none => return none
  | some (_, k) =>
    if (← get).poison.contains (k / 64) then throw (.park .protection (BitVec.ofNat 64 va))
    return some ((← get).bytes k n)

/-- Write bytes inside one 64-byte line of a global home; false when the page is not resident. -/
def gWriteSeg (c : CoreId) (who : PStream) (va : Nat) (l : List Byte) (signed : Bool) : Run Bool := do
  match ← accessPage c who va .write with
  | none => return false
  | some (_, k) =>
    if performed (← getInst c).id va then modify fun m => m.store k l
    if signed then modify fun m => m.sign c va l
    return true

/-- Read a span: the bytes, zeros where the page is not resident, and the first such address. -/
def gRead (c : CoreId) (who : PStream) (va n : Nat) : Run (List Byte × Option Nat) := do
  let mut out : List Byte := []
  let mut nres : Option Nat := none
  for (a, k) in lineSegs va n do
    match ← gReadSeg c who a k with
    | some l => out := out ++ l
    | none =>
      out := out ++ List.replicate k 0
      if nres.isNone then nres := some a
  return (out, nres)

/-- Write a span, stopping at the first address whose page is not resident. -/
def gWrite (c : CoreId) (who : PStream) (va : Nat) (l : List Byte) (signed : Bool := true) : Run (Option Nat) := do
  for (a, k) in lineSegs va l.length do
    if !(← gWriteSeg c who a ((l.drop (a - va)).take k) signed) then return some a
  return none

/-! ## The scratchpad (R87, R346–R348) -/

def Region.bytes (r : Region) : Nat := 2 ^ r.blk

def Pad.regionAt (p : Pad) (a : Nat) : Option Region :=
  p.regions.find? fun r => decide (r.lbase ≤ a) && decide (a < r.lbase + r.size)

/-- The local address of the block or slot of a region that holds a local address. -/
def Region.blockAt (r : Region) (a : Nat) : Nat := r.lbase + (a - r.lbase) / r.bytes * r.bytes

/-- The global address that a local address of a region maps, where it maps one. -/
def Pad.globalOf (p : Pad) (r : Region) (a : Nat) : Option Nat :=
  if r.cached then
    (p.tags.find? fun t => t.slot == r.blockAt a).map fun t => r.gbase + t.block * r.bytes + (a - r.blockAt a)
  else some (r.gbase + (a - r.lbase))

/-- Read the bytes of a block and set the copy (R347): what stops the fill is its outcome. Every 64-byte line is
one request. -/
def fillBlock (c : CoreId) (block : Nat) : Run (Option FillOutcome) := do
  match (← getInst c).pad.regionAt block with
  | none => return none
  | some r =>
    let g := r.gbase + (block - r.lbase)
    let mut out : List Byte := []
    for (a, k) in lineSegs g r.bytes do
      let res : Except Stop (Option (List Byte)) ← tryCatch (do return .ok (← gReadSeg c .map a k))
        (fun st => match st with
          | .trap k v => return .error (.trap k v)
          | st => throw st)
      match res with
      | .error (.trap _ v) => return some (.denied v.toNat)
      | .error _ => return none
      | .ok none => return some (.nonresident a)
      | .ok (some l) => out := out ++ l
    setInst c fun i => { i with pad := { i.pad with
      bytes := cellsWrite i.pad.bytes block out
      filled := i.pad.filled ++ [block]
      dirty := cellsClear i.pad.dirty block r.bytes } }
    return none

/-- Make a local address ready for an access: none when its bytes are resident, and otherwise the
global address it maps. The word of a stream waits for the fill of a DIRECT block and then finds its outcome; an
engine (none) fills it at once. A CACHED slot being filled stalls, and of an NRValid one the lines that its fill
could not read are not resident (R348). -/
def localReady (c : CoreId) (who : Option Eng) (a : Nat) : Run (Option Nat) := do
  let pad := (← getInst c).pad
  match pad.regionAt a with
  | none => return none
  | some r =>
    let b := r.blockAt a
    if r.cached then
      match pad.tags.find? fun t => t.slot == b with
      | none => return none
      | some t =>
        match t.state with
        | .filling => waitFor (.retry 10 b)
        | .valid => return none
        | .nrvalid => return if t.lines.contains ((a - b) / 64) then pad.globalOf r a else none
    else if pad.filled.contains b then return none
    else
      let outcome ← match who with
        | none => fillBlock c b
        | some e =>
          match alookup pad.outcomes (b + engCode e) with
          | some o => pure (some o)
          | none => waitFor (.fill b)
      match outcome with
      | none => return none
      | some (.nonresident _) => return pad.globalOf r a
      | some (.denied g) => trap .protection g

/-- The bound of the partition (R87): PROTECTION with the first byte at or beyond its size. -/
def localBound (c : CoreId) (a n : Nat) : Run Unit := do
  let part := (← getInst c).id.part
  require (a + n ≤ part) .protection (max a part)

/-- Read local bytes: zeros where they are not resident, and the first global address not resident. -/
def lRead (c : CoreId) (who : Option Eng) (a n : Nat) : Run (List Byte × Option Nat) := do
  let mut out : List Byte := []
  let mut nres : Option Nat := none
  for (s, k) in lineSegs a n do
    match ← localReady c who s with
    | none => out := out ++ cellsRead (← getInst c).pad.bytes s k
    | some g =>
      out := out ++ List.replicate k 0
      if nres.isNone then nres := some g
  return (out, nres)

/-- Set local bytes, marking what is written in a copy and signing it at the global address it maps
(R89, R293). -/
def Mach.padStore (m : Mach) (c : CoreId) (a : Nat) (l : List Byte) : Mach :=
  let pad := (m.inst c).pad
  match pad.regionAt a with
  | none => m.modInst c fun i => { i with pad := { i.pad with bytes := cellsWrite i.pad.bytes a l } }
  | some r =>
    let m := m.modInst c fun i => { i with pad := { i.pad with
      bytes := cellsWrite i.pad.bytes a l
      dirty := cellsWrite i.pad.dirty a (List.replicate l.length 1) } }
    match pad.globalOf r a with
    | some g => m.sign c g l
    | none => m

/-- Write local bytes, stopping at the first that is not resident, whose global address it gives. -/
def lWrite (c : CoreId) (who : Option Eng) (a : Nat) (l : List Byte) : Run (Option Nat) := do
  for (s, k) in lineSegs a l.length do
    match ← localReady c who s with
    | some g => return some g
    | none => modify fun m => m.padStore c s ((l.drop (s - a)).take k)
  return none

/-! ## Write-backs and discards of copies (R89, R104–R107) -/

/-- The blocks and slots of an instance that hold a copy: region, local address, global base; the DIRECT blocks in
the order in which they were filled, then the CACHED slots in the order of their tags. Of several copies that meet a
page that is not resident this order says which is met first; the spec gives none (DESIGN CHOICE,
notes/assumptions/111.md). -/
def Pad.copies (p : Pad) : List (Region × Nat × Nat) :=
  (p.filled.filterMap fun b => (p.regionAt b).map fun r => (r, b, r.gbase + (b - r.lbase)))
    ++ p.tags.filterMap fun t => (p.regionAt t.slot).map fun r => (r, t.slot, r.gbase + t.block * r.bytes)

/-- The copies of blocks that overlap some region [base, base + 2^k). -/
def Pad.copiesIn (p : Pad) (rs : List (Nat × Nat)) : List (Region × Nat × Nat) :=
  p.copies.filter fun (r, _, g) => rs.any fun (base, k) => decide (base < g + r.bytes) && decide (g < base + 2 ^ k)

/-- The written bytes of a copy, in 8-byte units: the global address of a unit and what was written of it (R89). -/
def Pad.units (p : Pad) (r : Region) (b g : Nat) : List (Nat × List (Option Byte)) :=
  let dirty := p.dirty.filter fun e => decide (b ≤ e.1) && decide (e.1 < b + r.bytes)
  ((dirty.map (·.1 / 8)).dedup).map fun u =>
    (g + (u * 8 - b), (List.range 8).map fun k =>
      if cellGet p.dirty (u * 8 + k) = 1 then some (cellGet p.bytes (u * 8 + k)) else none)

/-- The offset of the first written byte of a unit. -/
def firstWritten (l : List (Option Byte)) : Nat := (l.findIdx? Option.isSome).getD 0

/-- Write the given bytes of a unit at a memory key. -/
def Mach.storeSome (m : Mach) (k : Nat) (l : List (Option Byte)) : Mach :=
  l.zipIdx.foldl (fun m e => match e.1 with | some b => m.store (k + e.2) [b] | none => m) m

/-- One write of a write-back to its home, unsigned; false when the page is not resident. A poisoned line parks
the instance (R404). -/
def gWriteUnit (c : CoreId) (va : Nat) (l : List (Option Byte)) : Run Bool := do
  let f := firstWritten l
  match ← accessPage c .map (va + f) .write with
  | none => return false
  | some (_, k) =>
    if (← get).poison.contains (k / 64) then throw (.park .protection (BitVec.ofNat 64 (va + f)))
    if performed (← getInst c).id (va + f) then modify fun m => m.storeSome (k - f) l
    return true

/-- Write back the written bytes of one copy, one write per 8-byte unit, unsigned; the first address
that is not resident stops it. What was written stays written. -/
def writeBack (c : CoreId) (r : Region) (b g : Nat) : Run (Option Nat) := do
  for (va, l) in (← getInst c).pad.units r b g do
    if !(← gWriteUnit c va l) then return some (va + firstWritten l)
    setInst c fun i => { i with pad := { i.pad with dirty := cellsClear i.pad.dirty (b + (va - g)) 8 } }
  return none

/-- Discard one copy: a DIRECT block is unfilled, a CACHED slot becomes a miss. -/
def Pad.discard (p : Pad) (r : Region) (b : Nat) : Pad :=
  if r.cached then { p with tags := p.tags.filter (·.slot != b), dirty := cellsClear p.dirty b r.bytes }
  else { p with filled := p.filled.erase b, dirty := cellsClear p.dirty b r.bytes }

/-- Write back copies; a page that is not resident traps STORE_NONRESIDENT with its address. -/
def writeBackAll (c : CoreId) (l : List (Region × Nat × Nat)) : Run Unit := do
  for (r, b, g) in l do
    match ← writeBack c r b g with
    | some a => trap .storeNonresident a
    | none => pure ()

def discardAll (c : CoreId) (l : List (Region × Nat × Nat)) : Run Unit :=
  setInst c fun i => { i with pad := l.foldl (fun p (r, b, _) => p.discard r b) i.pad }

/-- The page and the memory key at which a write reaches a byte's home without waiting, where it can: a page that
is arriving is written where it arrives from, and its bytes come with it (R115, R334). -/
def Mach.atOnce (m : Mach) (c : CoreId) (va : Nat) : Option (Page × Nat) :=
  let r := relocate (m.inst c).id va
  match (m.lookup c .map r).1 with
  | none => none
  | some p =>
    if !p.w then none
    else if p.mode = 3 then
      some (p, (if p.peer = m.pkg.toNat then p.xframe else remoteKey p.peer p.xframe) + (r - p.base))
    else if p.p then some (p, m.pageKey p r)
    else none

/-- One write of the second write-back: it is charged and counted as any, and waits for nothing. -/
def Mach.writeAtOnce (m : Mach) (c : CoreId) (va : Nat) (l : List (Option Byte)) : Mach :=
  let f := firstWritten l
  match m.atOnce c (va + f) with
  | none => m
  | some (p, k) =>
    let m := m.charge c p (va + f)
    let m := if p.mode = 2 && !m.moving p then
        (match m.countRequest (dieOf c) p with
         | (true, m) => m.startMove (m.inst c).id.ctx p false
         | (false, m) => m)
      else m
    if performed (m.inst c).id (va + f) then m.storeSome (k - f) l else m

/-- A copy can be written back at once: every written unit has a home that is resident, allows writing and is not
poisoned. -/
def Mach.flushable (m : Mach) (c : CoreId) (us : List (Nat × List (Option Byte))) : Bool :=
  us.all fun (va, l) => match m.atOnce c (va + firstWritten l) with
    | some (_, k) => !m.poison.contains (k / 64)
    | none => false

/-- The second write-back of ACQ and the discards (R104): it never traps and never waits. A block of which some byte
meets a page that is not resident is neither written back nor discarded; so is one that meets a page that is unmapped
or denies writing, or a poisoned line, of which the spec says nothing (DESIGN CHOICE, notes/assumptions/112.md). -/
def writeBackDiscard (c : CoreId) (l : List (Region × Nat × Nat)) : Run Unit :=
  modify fun m => l.foldl (fun m (r, b, g) =>
    let us := (m.inst c).pad.units r b g
    if m.flushable c us then
      (us.foldl (fun m u => m.writeAtOnce c u.1 u.2) m).modInst c fun i => { i with pad := i.pad.discard r b }
    else m) m

/-! ## Accesses of S (R88, R91, R137, R138, R414) -/

/-- The bytes of an access overlap an enabled watch range of a matching kind (R414). -/
def Dbg.hits (d : Dbg) (pc : W64) (a n : Nat) (rd wr : Bool) : Bool :=
  d.watchSkip != some pc &&
    d.watches.toList.any fun w =>
      w.on && ((w.reads && rd) || (w.writes && wr)) && decide (w.base < a + n) && decide (a < w.base + 2 ^ w.k)

def watchCheck (c : CoreId) (a n : Nat) (rd wr : Bool) : Run Unit := do
  let i ← getInst c
  require (!i.dbg.hits i.s.st.pc a n rd wr) .watch a

/-- A load of S: none when its bytes are not resident (R137). -/
def sLoad (c : CoreId) (addr : W64) (nb : Nat) : Run (Option (List Byte)) := do
  let a := addr.toNat
  match sAddr addr with
  | .bad => trap .protection a
  | .local l =>
    require (a % nb = 0) .misaligned a
    require (l + nb ≤ (← getInst c).id.part) .protection a
    match ← lRead c (some .S) l nb with
    | (bytes, none) => return some bytes
    | (_, some _) => return none
  | .global g =>
    require (a % nb = 0) .misaligned a
    let r := relocate (← getInst c).id g
    let p ← translate c .s r g .read
    require (p.allows .read) .protection a
    watchCheck c g nb true false
    if !p.p then return none
    modify fun m => m.charge c p r
    let k := (← get).pageKey p r
    if (← get).poison.contains (k / 64) then throw (.park .protection addr)
    return some ((← get).bytes k nb)

/-- A store of S (R137). -/
def sStore (c : CoreId) (addr : W64) (bytes : List Byte) : Run Unit := do
  let a := addr.toNat
  let nb := bytes.length
  match sAddr addr with
  | .bad => trap .protection a
  | .local l =>
    require (a % nb = 0) .misaligned a
    require (l + nb ≤ (← getInst c).id.part) .protection a
    match ← lWrite c (some .S) l bytes with
    | none => return
    | some g => trap .storeNonresident g
  | .global g =>
    require (a % nb = 0) .misaligned a
    let r := relocate (← getInst c).id g
    let p ← translate c .s r g .write
    require (p.allows .write) .protection a
    watchCheck c g nb false true
    require p.p .storeNonresident a
    modify fun m => m.charge c p r
    let k := (← get).pageKey p r
    if performed (← getInst c).id g then modify fun m => m.store k bytes
    modify fun m => m.sign c g bytes

/-- One indivisible read and write of an aligned 8-byte unit (R138); f gives the new value, none for
no write. -/
def sAtomic (c : CoreId) (addr : W64) (f : W64 → Option W64) : Run W64 := do
  let a := addr.toNat
  match sAddr addr with
  | .bad => trap .protection a
  | .local l =>
    require (a % 8 = 0) .misaligned a
    require (l + 8 ≤ (← getInst c).id.part) .protection a
    match ← localReady c (some .S) l with
    | some _ => trap .storeNonresident a
    | none =>
      let old := BitVec.ofNat 64 (leNat (cellsRead (← getInst c).pad.bytes l 8))
      match f old with
      | some v => modify fun m => m.padStore c l (bytesOf 8 v.toNat)
      | none => pure ()
      return old
  | .global g =>
    require (a % 8 = 0) .misaligned a
    let r := relocate (← getInst c).id g
    let p ← translate c .s r g .write
    watchCheck c g 8 true true
    require p.p .storeNonresident a
    require p.w .protection a
    modify fun m => m.charge c p r
    let k := (← get).pageKey p r
    if (← get).poison.contains (k / 64) then throw (.park .protection addr)
    let old := BitVec.ofNat 64 ((← get).word k)
    match f old with
    | some v =>
      if performed (← getInst c).id g then modify fun m => m.storeWord k v.toNat
      modify fun m => m.sign c g (bytesOf 8 v.toNat)
    | none => pure ()
    return old

/-- A canonical global address (R88), for the words that take no other. -/
def needCanon (a : W64) : Run Nat := do
  require (isCanon a.toNat) .protection a.toNat
  return a.toNat

/-- The fetch of the word at a stream's program counter (R32): PROTECTION outside the section, from a page that is
not mapped, not executable or no longer resident; a stall on a page that is arriving; a poisoned line parks the
instance (R404). A fetched word counts as one request to a COUNT page (notes/assumptions/113.md). -/
def fetchWord (c : CoreId) (e : Eng) : Run Nat := do
  let m ← get
  let i := m.inst c
  let pc := (i.stream e).pc.toNat
  let k : Fin 4 := Fin.ofNat 4 (engCode e)
  let base := (i.id.secBase.get k).toNat
  require (base ≤ pc && pc < base + 4 * i.id.secLen.get k) .protection pc
  match m.walk i.id.ctx.val pc with
  | none => trap .protection pc
  | some p =>
    require p.x .protection pc
    if p.mode = 3 || m.moving p then stallOn c p (.fetch c e) pc
    require p.p .protection pc
    if !m.pageWay (dieOf c) p pc then waitFor (.retry 10 p.base)
    if p.mode = 2 then countOne c p (.fetch c e) pc
    let m ← get
    if m.poison.contains (m.pageKey p pc / 64) then throw (.park .protection (BitVec.ofNat 64 pc))
    return leNat (m.bytes (m.pageKey p pc) 4)

end Sys2Proof.Machine
end

