-- ==== Sys2Proof/Machine/Send.lean ====
section
/-! DEFINITION. Sending packets: the step that a packet is at its target, sequence numbers, the way out over UCIe and
Grenwiut links, waiting for a link, answers and acknowledgements (R21, R22, R263, R353, R356–R358). -/

namespace Sys2Proof.Machine
open Sys2Proof

/-! ## Types of packets (Tables 15.4, 16.4) -/

/-- The TYPE byte of a packet. -/
def typeCode : PType → Nat
  | .write => 0x01 | .readreq => 0x02 | .readresp => 0x03 | .sig => 0x04 | .amo => 0x05 | .amoresp => 0x06 | .ack => 0x07
  | .frag => 0x08 | .sredc => 0x09 | .sredr => 0x0A | .mgmt => 0x0B
  | .demand => 0x10 | .hist => 0x11 | .split => 0x12 | .grant => 0x13 | .xdat => 0x14 | .xmark => 0x15 | .xack => 0x16
  | .pdone => 0x17 | .final => 0x18 | .heart => 0x19 | .mirror => 0x1A | .takeover => 0x1B | .exchState => 0x1C
  | .abort => 0x1D

/-- The packet types. -/
def allTypes : List PType :=
  [.write, .readreq, .readresp, .sig, .amo, .amoresp, .ack, .frag, .sredc, .sredr, .mgmt, .demand, .hist, .split, .grant,
   .xdat, .xmark, .xack, .pdone, .final, .heart, .mirror, .takeover, .exchState, .abort]

/-- The type of a TYPE byte: a packet with another, 0x1E and 0x1F among them, is dropped. -/
def typeOfCode (b : Nat) : Option PType := allTypes.find? fun t => typeCode t == b

/-- The step that takes a packet in. -/
def packetStep (p : Packet) : Instr :=
  match p.typ with
  | .write => .pktWrite p | .readreq => .readreq p | .readresp => .readresp p | .sig => .pktSig p
  | .amo => .pktAmo p | .amoresp => .amoresp p | .ack => .ack p | .frag => .frag p | .sredc => .sredc p
  | .sredr => .sredr p | .mgmt => .mgmt p | .demand => .demand p | .hist => .hist p | .split => .split p
  | .grant => .grant p | .xdat => .xdat p | .xmark => .xmark p | .xack => .xack p | .pdone => .pdone p
  | .final => .final p | .heart => .heart p | .mirror => .mirror p | .takeover => .takeover p
  | .exchState => .exchState p | .abort => .abort p

/-- Traffic between a die and an arbiter of its module (Table 16.4): it crosses the die's link to the IOD. -/
def arbiterType : PType → Bool
  | .demand => true | .hist => true | .split => true | .grant => true | .pdone => true | .final => true
  | .heart => true | .mirror => true | .takeover => true | .exchState => true | .abort => true
  | _ => false

/-- Packets of an instance's command, requests and answers. -/
def commandType : PType → Bool
  | .write => true | .readreq => true | .readresp => true | .sig => true | .amo => true | .amoresp => true
  | .frag => true | .sredc => true | .sredr => true | .xdat => true | .xmark => true | .xack => true
  | _ => false

/-! ## Acknowledgements name what they answer (R353)

ADDR of an answer holds the SEQ of the packet it answers, its class, its type and its destination die. -/

def answerAddr (p : Packet) : Nat := p.seq + 2 ^ 32 * (p.cls.val + 2 ^ 8 * (typeCode p.typ + 2 ^ 8 * p.dstDie.val))
def answeredSeq (a : Nat) : Nat := a % 2 ^ 32
def answeredClass (a : Nat) : Nat := fld a 32 8
def answeredType (a : Nat) : Option PType := typeOfCode (fld a 40 8)
def answeredDie (a : Nat) : Nat := fld a 48 8

/-- A packet belongs to a command of the instance that its command number names, or acknowledges one that does. -/
def ofCommand (p : Packet) : Bool :=
  if p.typ = .ack then (match answeredType p.addr with | some t => commandType t | none => false) else commandType p.typ

/-! ## Ways out (R21, R22) -/

/-- The module that a TGT word names. -/
def tgtPkg (t : Nat) : Nat := t % 2 ^ 16

/-- The module that a packet goes to. -/
def destPkg (p : Packet) : Nat := tgtPkg p.tgt

/-- The tenant channel group of a function's contexts (R357). -/
def groupOfFn (f : FnId) : Fin 9 := if f = 0 then 8 else Fin.ofNat 9 (f.val - 1)

/-- A packet for a die of this module can reach it now. -/
def Mach.localWay (m : Mach) (p : Packet) : Bool :=
  if arbiterType p.typ then m.iodUsable p.dstDie else m.pairUsable p.srcDie p.dstDie

/-- The die by which packets of the IOD leave the module and come to it: the lowest with a Grenwiut link that is Up or
Degraded (R21). -/
def Mach.iodGate (m : Mach) : Option DieId := (List.finRange 4).find? fun d => (gwOf d).any fun l => (m.gw.get l).up

/-- The same, where the die's link to the IOD carries packets. -/
def Mach.iodWay (m : Mach) : Option DieId := m.iodGate.filter m.iodUsable

/-! ## Sending (R353, R356) -/

/-- The key of a sequence: source die, destination module and die, group and class. -/
def seqKey (p : Packet) : Nat :=
  (((destPkg p * 4 + p.dstDie.val) * 4 + p.srcDie.val) * 9 + p.group.val) * 4 + p.cls.val

/-- Give a packet its SEQ. -/
def Mach.number (m : Mach) (p : Packet) : Packet × Mach :=
  let n := (alookup m.seqs (seqKey p)).getD 0
  ({ p with seq := n }, { m with seqs := aset m.seqs (seqKey p) ((n + 1) % 2 ^ 32) })

/-- The 64-byte units of a packet over a link, header and payload. -/
def packetUnits (p : Packet) : Nat := (48 + p.data.length + 63) / 64

/-- Charge a packet over a link to the context of the command that it belongs to (R263). -/
def Mach.chargePacket (m : Mach) (p : Packet) : Mach :=
  match (if ofCommand p then m.instOf (p.cmd / 2 ^ 32) else none) with
  | some i => m.modCtx i.id.ctx.val fun x => { x with act := { x.act with link := x.act.link + packetUnits p } }
  | none => m

/-- Put a packet on a Grenwiut link. All but acknowledgements are kept until they are acknowledged. A response belongs
to a command of another module, which is charged there. -/
def Mach.putOut (m : Mach) (l : Fin 16) (p : Packet) : Mach :=
  let m : Mach := { m with wire := m.wire ++ [p] }
  let m := if p.cls = 2 then m else m.chargePacket p
  if p.typ = .ack then m else { m with unacked := m.unacked ++ [(l.val, p)] }

/-- A packet that finds no usable link waits for one, up to 10 ms (R353). -/
def Mach.waitLink (m : Mach) (k : Nat) (p : Packet) : Mach :=
  ({ m with unacked := m.unacked ++ [(k, p)] } : Mach).timer 15000000 (.packetLinkfail p)

/-- Two packets leave every hop in the order in which they entered it: same source core, destination die, group, class
and 64-byte line (R358). -/
def inOrder (p q : Packet) : Bool :=
  p.srcPkg == q.srcPkg && p.srcDie == q.srcDie && p.srcCore == q.srcCore && destPkg p == destPkg q && p.dstDie == q.dstDie
    && p.group == q.group && p.cls == q.cls && decide (p.addr / 64 ≤ (q.addr + q.data.length - 1) / 64)
    && decide (q.addr / 64 ≤ (p.addr + p.data.length - 1) / 64)

/-- Put a numbered packet on its way: to a die of this module, out on a link of its die, or waiting for one behind those
whose order it keeps. -/
def Mach.transmit (m : Mach) (p : Packet) : Mach :=
  if m.unacked.any fun e => e.1 == 16 && inOrder e.2 p then m.waitLink 16 p
  else if destPkg p = m.pkg.toNat then
    if m.localWay p then (if p.srcDie = p.dstDie then m else m.chargePacket p).post [packetStep p] else m.waitLink 16 p
  else
    match m.gwLink p.srcDie with
    | some l => m.putOut l p
    | none => m.waitLink 16 p

/-- Send a packet. -/
def Mach.send (m : Mach) (p : Packet) : Mach := let (p, m) := m.number p; m.transmit p

/-- Send packets in order. -/
def Mach.sendAll (m : Mach) (l : List Packet) : Mach := l.foldl Mach.send m

/-- Send a packet of the IOD: to another module it leaves by the IOD's gate (R21). -/
def Mach.sendIod (m : Mach) (p : Packet) : Mach :=
  if destPkg p = m.pkg.toNat then m.send p
  else
    match m.iodWay with
    | some d => m.send { p with srcDie := d }
    | none => m.waitLink 17 p

/-- A management packet of the IOD, about a barrier of domain scope or a reduction slot. -/
def Mach.mgmtPacket (m : Mach) (pkg addr cmd aux : Nat) (info : PInfo) : Packet :=
  { typ := .mgmt, cls := 0, group := 8, gang := 0, srcPkg := m.pkg.toNat, srcDie := 0, srcCore := 0, ftag := 0
    tgt := pkg, dstDie := 0, addr, seq := 0, cmd, aux, data := [], info }

/-! ## Answers -/

/-- The answer to a packet, to the die it came from; its AUX is the request's. -/
def Mach.answerOf (m : Mach) (p : Packet) (typ : PType) (st : Nat) (data : List Byte) : Packet :=
  { typ, cls := 2, group := p.group, gang := 0, srcPkg := m.pkg.toNat, srcDie := p.dstDie, srcCore := 0
    ftag := p.ftag, tgt := p.srcPkg, dstDie := p.srcDie, addr := answerAddr p, seq := 0, cmd := p.cmd, aux := p.aux, data
    info := .status st }

/-- Answer from the die that consumed a packet. -/
def Mach.answer (m : Mach) (p : Packet) (typ : PType) (st : Nat) (data : List Byte) : Mach :=
  m.send (m.answerOf p typ st data)

/-- Acknowledge a packet of another module that the IOD consumed. -/
def Mach.ackFar (m : Mach) (p : Packet) (st : Nat := 0) : Mach :=
  if p.srcPkg = m.pkg.toNat then m else m.sendIod (m.answerOf p .ack st [])

/-- An answer is to a packet. -/
def answers (a p : Packet) : Bool :=
  destPkg p == a.srcPkg && p.dstDie.val == answeredDie a.addr && p.srcDie == a.dstDie && p.seq == answeredSeq a.addr
    && p.group == a.group && p.cls.val == answeredClass a.addr && p.cmd == a.cmd

/-- The packet that an answer is to, where it is kept. -/
def Mach.keptFor (m : Mach) (a : Packet) : Option Packet := (m.unacked.find? fun e => answers a e.2).map (·.2)

/-- A packet has been answered by the die that consumed it. -/
def Mach.acked (m : Mach) (a : Packet) : Mach := { m with unacked := m.unacked.filter fun e => !answers a e.2 }

end Sys2Proof.Machine
end

