-- ==== Sys2Proof/Machine/Barriers.lean ====
section
/-! DEFINITION. Barriers: objects, participants, rounds, firing and poisoning (R315–R322), shared by
the barrier words, EXIT, teardown, failure and fabric deliveries. -/

namespace Sys2Proof.Machine
open Sys2Proof

/-- The scope codes (R94). -/
def scopeCode (x : Scope) : Nat :=
  match x with | .core => 0 | .sg => 1 | .die => 2 | .pkg => 3 | .dom => 4

/-! ## Participants (R317) -/

/-- The instance numbers of a team (R283). -/
def teamMembers (instn tsize t : Nat) : List Nat :=
  ((List.range tsize).map (t * tsize + ·)).filter (· < instn)

/-- Whether an instance has completed EXIT, and so is dropped from every barrier of its launch. -/
def Mach.instExited (m : Mach) (uid : Nat) : Bool :=
  (List.finRange 48).any (fun c => (m.core c).resident && (m.inst c).id.uid == uid && (m.inst c).s.st.ended)
    || m.images.any (fun g => g.inst.id.uid == uid && g.inst.s.st.ended)
    || m.launches.any fun l => l.teams.any fun t =>
      t.done.any fun n => uidOf l.num t.run n == uid

/-- The participant set of an instance at a scope. -/
def psetOf (i : Ident) (die : Nat) (scope : Nat) : PSet :=
  match scope with
  | 1 => .team i.launch i.run i.team
  | 2 => .share i.launch i.run die
  | 3 => .launch i.launch i.run
  | _ => .domain i.launch i.run

/-- The launch and run of a participant set. -/
def psetLaunch : PSet → Nat × Nat
  | .team l r _ => (l, r) | .share l r _ => (l, r) | .launch l r => (l, r) | .domain l r => (l, r)

/-- The instance numbers that take part on this module. -/
def Mach.participants (m : Mach) (p : PSet) : List Nat :=
  match m.launch (psetLaunch p).1 with
  | none => []
  | some l =>
    match p with
    | .team _ _ t => teamMembers l.lr.instn l.lr.tsize t
    | .share _ r d =>
      (l.teams.filter fun t => t.run == r && t.die.val == d).flatMap fun t =>
        teamMembers l.lr.instn l.lr.tsize t.num
    | _ => List.range l.lr.instn

/-- The participants of a round in the share of one die. -/
def Mach.participantsOn (m : Mach) (p : PSet) (d : DieId) : List Nat :=
  let (l, r) := psetLaunch p
  m.participants (.share l r d.val)

/-- Every listed participant has arrived or been dropped. -/
def Mach.allArrived (m : Mach) (r : Round) (l : List Nat) : Bool :=
  let (la, run) := psetLaunch r.pset
  l.all fun n => r.arrived.contains n || m.instExited (uidOf la run n)

/-- The package part of a round is complete: a die unit below package scope, and at package scope and above every die
whose share has a participant that has not been dropped has sent its arrival on. -/
def Mach.packageComplete (m : Mach) (r : Round) : Bool :=
  if r.scope ≤ 2 then m.allArrived r (m.participants r.pset)
  else (List.finRange 4).all fun d =>
    r.forwarded.contains d.val || m.allArrived { r with arrived := [] } (m.participantsOn r.pset d)

/-- Every arrival of a round is in. -/
def Mach.roundComplete (m : Mach) (r : Round) : Bool :=
  m.packageComplete r && (r.scope ≠ 4 || decide (r.nmod ≤ r.modules.length + (if r.guest then 0 else 1)))

/-! ## Ending a round (R320) -/

/-- CTRL of a state, scope and ROUND (Table 13.2). -/
def ctrlWord (st scope round : Nat) : Nat := st + scope * 8 + round * 2 ^ 32

/-- The cores whose resident instance holds a record of a round. -/
def Mach.holders (m : Mach) (num : Nat) : List CoreId :=
  (List.finRange 48).filter fun c => (m.core c).resident && (m.inst c).arrivals.any (·.round == num)

/-- How many landing records wait for an instance. -/
def Mach.landingOf (m : Mach) (i : Ident) : Nat :=
  ((m.ctx i.ctx.val).landing.filter (·.uid == i.uid)).length

/-- Mark the records of a round ended. -/
def endArrivals (l : List Arrival) (num behind : Nat) (res : Nat × Nat) : List Arrival :=
  l.map fun a => if a.round = num && a.ended.isNone then { a with ended := some res, behind } else a

/-- A round that ends at its home is released on every module that arrived (R317); one that is poisoned away
from its home poisons it there. -/
def Mach.tellModules (m : Mach) (r : Round) (res : Nat × Nat) : Mach :=
  let down := r.modules.map fun e => m.mgmtPacket e.1 r.obj e.2 (res.1 + 4 * res.2) (.status 0)
  let up := if r.scope = 4 && decide (2 ^ 66 ≤ r.obj) && res.1 = 2 then
    [m.mgmtPacket (r.obj / 2 ^ 66 - 1) (r.obj % 2 ^ 66) r.num (2 + 4 * (m.word (r.obj + 40) % 2 ^ 10)) (.status 1)] else []
  (down ++ up).foldl Mach.sendIod m

/-- End a round: saved instances' records are marked at once, and one release goes to each core that
holds an arrival. -/
def Mach.endRound (m : Mach) (r : Round) (res : Nat × Nat) : Mach :=
  let cores := m.holders r.num
  let images := m.images.map fun g =>
    { g with inst := { g.inst with
      arrivals := endArrivals g.inst.arrivals r.num (m.landingOf g.inst.id) res } }
  let rest := m.rounds.filter (·.num != r.num)
  let rounds := if cores.isEmpty then rest
    else rest ++ [{ r with ended := some res, pending := cores.map (·.val) }]
  (({ m with images, rounds } : Mach).tellModules r res).post (cores.map fun c => .barrierRelease c r.num)

/-- Replace a round. -/
def Mach.setRound (m : Mach) (r : Round) : Mach :=
  { m with rounds := m.rounds.map fun x => if x.num = r.num then r else x }

/-- The fire check (R320), at the level that holds the round: it fires when every arrival is in and
the bytes have reached the expected count. At domain scope a module that does not hold the object's
home sends its one arrival upward instead. -/
def Mach.fireCheck (m : Mach) (num : Nat) : Mach :=
  match m.rounds.find? fun r => r.num == num && r.ended.isNone with
  | none => m
  | some r =>
    if r.scope = 4 && decide (2 ^ 66 ≤ r.obj) then
      if m.packageComplete r && !r.upward then
        let home := r.obj / 2 ^ 66 - 1
        (m.setRound { r with upward := true }).sendIod
          (m.mgmtPacket home (r.obj % 2 ^ 66) r.num r.ctx.val (.barrier (r.obj % 2 ^ 66) r.expect 0 true))
      else m
    else if !m.roundComplete r then m
    else if r.bytes < r.expect then m.setRound { r with posted := true }
    else
      let excess := decide (r.expect < r.bytes)
      let n := (r.round + 1) % 2 ^ 32
      let m := m.storeWord r.obj (ctrlWord (if excess then 4 else 3) r.scope n)
      let m := m.storeWord (r.obj + 16) r.expect
      let m := m.storeWord (r.obj + 24) r.bytes
      let m := m.storeWord (r.obj + 32) (if excess then r.bytes - r.expect else 0)
      m.endRound r (if excess then 1 else 0, n)

/-- An arrival or a drop has reached a die's unit: below package scope the fire check follows; at
package scope and above the unit sends one arrival on when its share is complete. -/
def Mach.arrivalCheck (m : Mach) (num : Nat) (die : DieId) : Mach :=
  match m.rounds.find? fun r => r.num == num && r.ended.isNone with
  | none => m
  | some r =>
    if r.scope ≤ 2 then m.fireCheck num
    else if !r.forwarded.contains die.val && m.allArrived r (m.participantsOn r.pset die) then
      m.post [.barrierArrivalForward num die]
    else m

/-- Poison an open round (R320): STATE 5 and PCTX are written and every waiter is released with status Poisoned. -/
def Mach.poisonRound (m : Mach) (r : Round) (pctx : Nat) : Mach :=
  let m := m.storeWord r.obj (ctrlWord 5 r.scope r.round)
  let m := m.storeWord (r.obj + 40) (pctx + 2 ^ 63)
  m.endRound r (2, r.round)

/-- Poison the open rounds with a participant of a launch. PCTX is the context torn down or, where none is, the one the
round was opened for. -/
def Mach.poisonRounds (m : Mach) (launch : Nat) (ctx : Option Nat) : Mach :=
  (m.rounds.filter fun r => r.ended.isNone && (psetLaunch r.pset).1 == launch).foldl
    (fun m r => m.poisonRound r (ctx.getD r.ctx.val)) m

/-- A participant of a round lies on a die. -/
def Mach.participatesOn (m : Mach) (r : Round) (d : DieId) : Bool :=
  match m.launch (psetLaunch r.pset).1, r.pset with
  | none, _ => false
  | some l, .team _ run t => l.teams.any fun x => x.run == run && x.num == t && x.die == d
  | some _, .share _ _ k => k == d.val
  | some l, p => l.teams.any fun x => x.run == (psetLaunch p).2 && x.die == d

/-- An instance that completes EXIT is dropped from every open round of its launch (R317). -/
def Mach.dropFromRounds (m : Mach) (i : Ident) (die : DieId) : Mach :=
  (m.rounds.filter fun r => r.ended.isNone && psetLaunch r.pset == (i.launch, i.run)).foldl
    (fun m r => m.arrivalCheck r.num die) m

/-! ## The object (R315, R316) -/

/-- STATE, SCOPE and ROUND of CTRL, and whether an opening accepts the object (R316). -/
structure BarObj where
  st : Nat
  scope : Nat
  round : Nat
  nmod : Nat
  ok : Bool
  deriving DecidableEq, Repr

def Mach.barObj (m : Mach) (key : Nat) : BarObj :=
  let ctrl := m.word key
  let nmod := m.word (key + 8)
  let st := fld ctrl 0 3
  let scope := fld ctrl 3 3
  let pctx := m.word (key + 40)
  let ok := fld ctrl 6 26 == 0 && (st == 0 || st == 3 || st == 4 || st == 5)
    && decide (1 ≤ scope) && decide (scope ≤ 4)
    && fld nmod 11 53 == 0 && (if scope = 4 then decide (1 ≤ nmod) && decide (nmod ≤ 1024) else nmod == 0)
    && fld pctx 10 53 == 0 && m.word (key + 48) == 0 && m.word (key + 56) == 0
  { st, scope, round := ctrl / 2 ^ 32, nmod, ok }

/-- A domain round that only other modules have opened, as a participant set of this module joins it. -/
def Round.adopt (r : Round) (ctx va : Nat) (p : PSet) : Round :=
  if r.guest then { r with guest := false, ctx := Fin.ofNat 1024 ctx, va, pset := p } else r

/-- A round that a participant set joins. -/
def Round.joins (r : Round) (key va : Nat) (p : PSet) : Bool :=
  r.ended.isNone && r.obj == key
    && ((!r.guest && r.va == va && r.pset == p) || (r.guest && match p with | .domain _ _ => true | _ => false))

/-- The open round of a participant set on an object. -/
def Mach.openRound (m : Mach) (ctx key va : Nat) (p : PSet) : Option Round :=
  (m.rounds.find? fun r => r.joins key va p).map fun r => r.adopt ctx va p

/-- The open round of an instance on an object at whatever scope it was opened. -/
def Mach.heldRound (m : Mach) (key va : Nat) (i : Ident) (die : Nat) : Option Round :=
  m.rounds.find? fun r => r.joins key va (psetOf i die r.scope)

/-- Whether one more round may be opened: 16 per context on a die, 64 per context at the IOD (R318). A round that only
other modules have opened counts for the context of the module that opened it. -/
def Mach.roundRoom (m : Mach) (ctx : Nat) (scope : Nat) : Bool :=
  let mine := m.rounds.filter fun r => r.ended.isNone && !r.guest && r.ctx.val == ctx && (decide (r.scope ≤ 2) == decide (scope ≤ 2))
  decide (mine.length < (if scope ≤ 2 then 16 else 64))

/-- Open a round with the counts it begins with. -/
def Mach.openNew (m : Mach) (ctx key va : Nat) (p : PSet) (o : BarObj) (expect bytes : Nat) : Round × Mach :=
  let r : Round :=
    { num := m.nextRound, ctx := Fin.ofNat 1024 ctx, obj := key, va, scope := o.scope, pset := p, round := o.round
      nmod := o.nmod, expect, bytes }
  (r, { m with rounds := m.rounds ++ [r], nextRound := m.nextRound + 1 })

/-- As many rounds as the IOD holds for a context of another module. -/
def Mach.guestRoom (m : Mach) (opener : Nat) : Bool :=
  decide ((m.rounds.filter fun r => r.ended.isNone && r.guest && r.opener == opener).length < 64)

/-- Count payload bytes on a barrier whose object lies here (R319, R320): none where the object is rejected or no round
can be opened; the bytes are discarded on a Poisoned object. Bytes fire a round in CountingPosted only. -/
def Mach.countBytes (m : Mach) (ctx key va : Nat) (p : PSet) (b : Nat) : Option Mach :=
  let o := m.barObj key
  match m.openRound ctx key va p with
  | some r =>
    let r := { r with bytes := r.bytes + b }
    some (if r.posted then (m.setRound r).fireCheck r.num else m.setRound r)
  | none =>
    if o.st = 5 then some m
    else if !o.ok then none
    else if !m.roundRoom ctx o.scope then none
    else some (m.openNew ctx key va p o 0 b).2

/-- Bytes for a domain round are counted at the IOD of the object's home: the delivery is carried on there in the forward
class, and is answered as the home answers (R319, R357). -/
def Mach.carryBytes (m : Mach) (src : Packet) (ctx key b : Nat) : Mach :=
  let q := m.mgmtPacket (key / 2 ^ 66 - 1) (key % 2 ^ 66) m.nextRound ctx (.barrier (key % 2 ^ 66) 0 b false)
  ({ m with relays := m.relays ++ [(m.nextRound, src)], nextRound := m.nextRound + 1 } : Mach).sendIod { q with cls := 1 }

end Sys2Proof.Machine
end

