-- ==== Sys2Proof/Machine/Launches.lean ====
section
/-! DEFINITION. Bookkeeping of launches, teams and contexts, shared by the dispatchers, the context
commands and the queues: what is placeable, the states of teams and contexts, the failure of a launch,
its completion word and entry (Tables 9.4, 11.3 and 12.6, R276, R282). -/

namespace Sys2Proof.Machine
open Sys2Proof

/-! ## Contexts of a launch -/

/-- The context a launch names on a die (R274). -/
def Launch.ctxOn (l : Launch) (d : DieId) : CtxId := Fin.ofNat 1024 (d.val * 256 + l.slots.getD d.val 0)

/-- The dies of a launch. -/
def Launch.onDies (l : Launch) : List DieId := l.dies.map (Fin.ofNat 4)

/-- A launch names a context. -/
def Launch.names (l : Launch) (ctx : Nat) : Bool := l.onDies.any fun d => (l.ctxOn d).val == ctx

/-- A launch that is neither Retired nor Failed. -/
def LState.live : LState → Bool
  | .retired => false | .failed => false | _ => true

/-- A launch whose teams may be placed (R253). A saved team of a Draining launch is placed too, as R266 and R288 have it:
'in either case the instance becomes placeable', 'IRESUME resumes V, M and X' (notes/assumptions/20.md). -/
def Launch.placing (l : Launch) : Bool := l.st == .ready || l.st == .dispatched || l.st == .running || l.st == .draining

/-- The image header that a die of a launch read (R278). -/
def Launch.hdrOn (l : Launch) (d : DieId) : ImageHdr := l.hdrs.getD d.val {}

/-- The unretired launches that name a context. -/
def Mach.ctxLaunches (m : Mach) (ctx : Nat) : List Launch := m.launches.filter fun l => l.st.live && l.names ctx

/-- The context states in which instances may be placed. -/
def CtxState.places : CtxState → Bool
  | .bound => true | .ready => true | .running => true | .waiting => true | _ => false

/-- A SUSPEND of a context is in progress. -/
def Mach.suspending (m : Mach) (ctx : Nat) : Bool :=
  m.fns.toList.any fun r => match r.suspendOf with | some c => c.val == ctx | none => false

/-- A team is placeable on its die (R253). -/
def Mach.teamPlaceable (m : Mach) (l : Launch) (t : Team) : Bool :=
  let ctx := (l.ctxOn t.die).val
  l.placing && (t.st == .unstarted || t.st == .saved) && (m.ctx ctx).st.places && !m.suspending ctx

/-- The cores on which instances of a context are resident. -/
def Mach.residentOf (m : Mach) (ctx : Nat) : List CoreId :=
  (List.finRange 48).filter fun c => (m.core c).resident && m.ctxOf c == ctx

/-- The state a live context takes from what is resident and outstanding (Table 9.4). -/
def Mach.settleCtx (m : Mach) (ctx : Nat) : Mach :=
  if !(m.ctx ctx).st.places then m
  else
    let ls := m.ctxLaunches ctx
    let placeable := ls.any fun l => l.teams.any fun t => (l.ctxOn t.die).val == ctx && m.teamPlaceable l t
    let st : CtxState :=
      if !(m.residentOf ctx).isEmpty then .running
      else if ls.isEmpty then .bound
      else if placeable then .ready
      else .waiting
    m.modCtx ctx fun x => { x with st }

/-- Every context of a launch takes its state. -/
def Mach.settleLaunch (m : Mach) (l : Launch) : Mach := l.onDies.foldl (fun m d => m.settleCtx (l.ctxOn d).val) m

/-! ## Teams (Table 12.6) -/

def Launch.team? (l : Launch) (run num : Nat) : Option Team := l.teams.find? fun t => t.run == run && t.num == num

def Launch.setTeam (l : Launch) (t : Team) : Launch :=
  { l with teams := l.teams.map fun x => if x.run = t.run && x.num = t.num then t else x }

/-- Change a team of a launch. -/
def Mach.modTeam (m : Mach) (launch run num : Nat) (f : Team → Team) : Mach :=
  match m.launch launch with
  | none => m
  | some l =>
    match l.team? run num with
    | none => m
    | some t => m.setLaunch (l.setTeam (f t))

/-- An instance belongs to a team. -/
def Ident.inTeam (i : Ident) (launch run num : Nat) : Bool := i.launch == launch && i.run == run && i.team == num

/-- The members of a team that are still to run (R284). -/
def Launch.toRun (l : Launch) (t : Team) : List Nat :=
  (teamMembers l.lr.instn l.lr.tsize t.num).filter fun n => !t.done.contains n

/-- The state of a team whose members have been saved: Held while one is Faulted, resident while one
is, and otherwise Saved and waiting for cores from now on. -/
def Mach.settleTeam (m : Mach) (launch run num : Nat) : Mach :=
  let held := m.images.any fun g => g.inst.id.inTeam launch run num && g.inst.faulted.isSome
  let res := (List.finRange 48).any fun c => (m.core c).resident && (m.inst c).id.inTeam launch run num
  m.modTeam launch run num fun t =>
    if t.st = .done || t.st = .unstarted then t
    else if held then { t with st := .held, waiting := none }
    else if res then t
    else if t.st = .saved then t
    else { t with st := .saved, since := m.cycle, waiting := none, group := none }

/-! ## Completion words and entries (R276, R282) -/

/-- A completion entry (Table 10.5). -/
def entryBytes (f : FnId) (q index tag status cycle : Nat) : List Byte :=
  bytesOf 4 2 ++ bytesOf 4 (q % 8 + f.val * 8) ++ bytesOf 8 (index % 2 ^ 32) ++ bytesOf 8 tag
    ++ bytesOf 8 status ++ bytesOf 8 cycle ++ bytesOf 24 0

/-- Post a launch's completion entry. -/
def Mach.postEntry (m : Mach) (f : FnId) (q index tag status : Nat) : Mach :=
  m.postRecord f q (entryBytes f q index tag status m.cycle) none

/-- The memory key of an address that a function names: it lies in the space of its window (R268). -/
def Mach.fnKey (m : Mach) (f : FnId) (pa : Nat) : Nat := spaceKey (m.fn f).winSpace pa

/-- The new value of a completion word (R282). -/
def completionValue (old : Nat) (failed : Bool) : Nat :=
  (old % 2 ^ 63 + 1) % 2 ^ 63 + (if failed then 2 ^ 63 else old / 2 ^ 63 % 2 * 2 ^ 63)

/-- Update a launch's completion word; every Waiting launch is then checked again (R281). -/
def Mach.completeWord (m : Mach) (l : Launch) (failed : Bool) : Mach :=
  if l.lr.compl = 0 || l.lr.compl % 8 ≠ 0 || !m.inWindow l.fn (m.fn l.fn).winSpace l.lr.compl 8 then m
  else
    let k := m.fnKey l.fn l.lr.compl
    (m.storeWord k (completionValue (m.word k) failed)).post
      ((m.launches.filter fun x => x.st == .waiting).map fun x => .dependenceCheck x.num)

/-! ## Queue states that follow from launches and entries (Table 10.3) -/

/-- A completion entry is to be written. -/
def Queue.entryHeld (x : Queue) : Bool := x.held.any fun e => e.ctx.isNone

/-- The completion area lies inside the function's window. -/
def Mach.areaOk (m : Mach) (f : FnId) (x : Queue) : Bool :=
  x.cbase % (64 * 2 ^ x.log2m) == 0 && m.inWindow f (m.fn f).winSpace x.cbase (64 * 2 ^ x.log2m)

/-- The completion area has room: of M entries, not M lie between CHEAD and CTAIL (R276). -/
def Queue.room (x : Queue) : Bool := (x.ctail - x.chead).toNat != 2 ^ x.log2m

/-- Records can be written: the queue has been armed, with a valid area, and there is room. -/
def Mach.canWrite (m : Mach) (f : FnId) (x : Queue) : Bool := x.armed && m.areaOk f x && x.room

/-- A completion entry waits to be written: the queue is Stalled (R276). -/
def Mach.entryWaits (m : Mach) (f : FnId) (x : Queue) : Bool := x.entryHeld && !m.canWrite f x

/-- A launch of the queue has neither retired nor failed. -/
def Mach.launchOpen (m : Mach) (f : FnId) (q : QId) : Bool :=
  m.launches.any fun l => l.fn == f && l.q == q && l.st.live

/-- The states a queue takes by itself: Quiesced once its launches have ended and their entries are
written, Stalled while a WAIT or an entry holds it, Armed when it has taken every record. -/
def Mach.settleQueue (m : Mach) (f : FnId) (q : QId) : Mach :=
  let x := m.queue f q.val
  let st : QState :=
    match x.st with
    | .quiescing => if !m.launchOpen f q && !x.entryHeld then .quiesced else .quiescing
    | .armed | .running | .stalled =>
      if x.waitFrom.isSome || m.entryWaits f x then .stalled
      else if x.nextRec = x.ridx && x.ridx = x.widx then .armed
      else .running
    | st => st
  m.setQueue f q.val { x with st }

/-! ## Fairness records (R301) -/

/-- The gangs whose launches are unretired on a die. -/
def Mach.gangOn (m : Mach) (d : DieId) (gang : Nat) : Bool :=
  m.launches.any fun l => l.st.live && l.lr.gang == gang && l.onDies.contains d

/-- Free the record of a gang whose last launch on a die has ended. -/
def Mach.freeFairness (m : Mach) (gang : Nat) (d : DieId) : Mach :=
  if m.gangOn d gang then m
  else m.setDie d { m.die d with fair := (m.die d).fair.filter (·.gang != gang) }

/-- The place of a gang in the table of 512 entries, in order of first placement; none past it. -/
def Die.fairness (d : Die) (gang : Nat) : Option Fairness := (d.fair.take 512).find? (·.gang == gang)

/-- Allocate a record at the first placement of a gang. -/
def Mach.startFairness (m : Mach) (gang : Nat) (d : DieId) : Mach :=
  if gang = 0 || (m.die d).fair.any (·.gang == gang) then m
  else m.setDie d { m.die d with fair := (m.die d).fair ++ [{ gang }] }

/-! ## Ending instances -/

/-- Take what a core holds off it, and free it. -/
def Mach.freeCore (m : Mach) (c : CoreId) : Mach := m.setCore c {}

/-- The ABORT that a participant sends its arbiter when its command is lost or has failed (R384). -/
def Mach.abortPacket (m : Mach) (d : DieId) (ftag n : Nat) (x : Part) : Packet :=
  { typ := .abort, cls := 2, group := 8, gang := 0, srcPkg := m.pkg.toNat, srcDie := d, srcCore := 0, ftag
    tgt := if x.fromStandby then x.posting.stb else x.posting.arb, dstDie := d, addr := 2 * x.key, seq := 0, cmd := n
    aux := x.posting.exid * 2 ^ 48, data := [], info := .status 13 }

/-- The exchanges of an instance that is discarded are aborted: the ABORT step sends a packet for another module on
its way. -/
def Mach.abortParts (m : Mach) (i : Inst) : Mach :=
  let x := m.ctx i.id.ctx.val
  i.fifo.cmds.foldl (fun m k =>
    match k.part with
    | none => m
    | some q =>
      m.post [.abort (m.abortPacket (ctxDie i.id.ctx.val) x.ftag.toNat (i.id.uid * 2 ^ 32 + k.id) q)]) m

/-- The discarded instances' exchanges are aborted: those resident and those saved. -/
def Mach.abortAll (m : Mach) (hit : Ident → Bool) : Mach :=
  let res := (List.finRange 48).filter fun c => (m.core c).resident && hit (m.inst c).id
  let m := res.foldl (fun m c => m.abortParts (m.inst c)) m
  (m.images.filter fun g => hit g.inst.id).foldl (fun m g => m.abortParts g.inst) m

/-- Discard every instance of a launch, resident or saved, with its landing records, and end its
teams. -/
def Mach.discardLaunch (m : Mach) (l : Launch) : Mach :=
  let m := m.abortAll fun i => i.launch == l.num
  let mine := (List.finRange 48).filter fun c => (m.core c).resident && (m.inst c).id.launch == l.num
  let m := mine.foldl (fun m c => m.freeCore c) m
  let m : Mach := { m with images := m.images.filter fun g => g.inst.id.launch != l.num }
  let m : Mach := { m with ctxs := m.ctxs.map fun e =>
    (e.1, { e.2 with landing := e.2.landing.filter fun r => r.uid / 2 ^ 20 != l.num }) }
  m.setLaunch { l with teams := l.teams.map fun t => { t with st := .done, cores := [], waiting := none } }

/-- The launch leaves its outstanding set: contexts, fairness and its queue follow. -/
def Mach.leaveLaunch (m : Mach) (l : Launch) : Mach :=
  l.onDies.foldl (fun m d => m.freeFairness l.lr.gang d) ((m.settleLaunch l).settleQueue l.fn l.q)

/-- Fail a launch (R282): its instances are discarded, its open rounds poisoned (R320), its completion
word and entry written. -/
def Mach.failLaunch (m : Mach) (n status : Nat) (ctx : Option Nat := none) : Mach :=
  match m.launch n with
  | none => m
  | some l =>
    if !l.st.live then m
    else
      let m := m.discardLaunch l
      let m := m.poisonRounds n ctx
      let m := m.completeWord l true
      let m := m.postEntry l.fn l.q.val l.index l.tag.toNat status
      let m := match m.launch n with
        | some l => m.setLaunch { l with st := .failed, status }
        | none => m
      (m.leaveLaunch l).post (l.onDies.map .placementEval)

/-! ## Images (R256–R258) -/

/-- The image size of an instance in KiB (R256). -/
def Ident.imageKib (i : Ident) : Nat :=
  32 + i.tsFoot / 1024 + 256 * ((List.range 3).filter fun k => i.accsets.getLsbD k).length

/-- The images of a context. -/
def Mach.imagesOf (m : Mach) (ctx : Nat) : List Image := m.images.filter fun g => g.inst.id.ctx.val == ctx

/-- KiB of a context's images in the spill area. -/
def Mach.spiltKib (m : Mach) (ctx : Nat) : Nat :=
  ((m.imagesOf ctx).map fun g => if g.spilled then g.inst.id.imageKib else 0).sum

/-- KiB of a context's images in the save region. -/
def Mach.savedKib (m : Mach) (ctx : Nat) : Nat :=
  ((m.imagesOf ctx).map fun g => if g.spilled then 0 else g.inst.id.imageKib).sum

def Mach.setImage (m : Mach) (g : Image) : Mach :=
  { m with images := m.images.map fun x => if x.inst.id.uid = g.inst.id.uid then g else x }

/-- The first place, of an area of some KiB, at which so many KiB are free: the lowest one. The spec lays out neither the
save region nor the spill area (notes/assumptions/123.md). -/
def lowestRun (used : List (Nat × Nat)) (need limit : Nat) : Option Nat :=
  let free := fun (a : Nat) => decide (a + need ≤ limit) && used.all fun (b, k) => decide (a + need ≤ b) || decide (b + k ≤ a)
  ((0 :: used.map fun (b, k) => b + k).filter free).min?

/-- The KiB of a die's save region in use: images and the reservations of resident instances (R257). -/
def Mach.saveRuns (m : Mach) (d : DieId) : List (Nat × Nat) :=
  (((List.finRange 48).filter fun c => (m.core c).resident && dieOf c == d).map fun c =>
      ((m.core c).saveAt, (m.inst c).id.imageKib))
    ++ ((m.images.filter fun g => !g.spilled && ctxDie g.inst.id.ctx.val == d).map fun g => (g.saveAt, g.inst.id.imageKib))

/-- The KiB of a context's spill area in use: spilled images and evicted partitions (R258, R259). -/
def Mach.spillRuns (m : Mach) (ctx : Nat) : List (Nat × Nat) :=
  let part := fun (i : Inst) => match i.partAt with | some a => [(a, i.id.part / 1024)] | none => []
  ((m.imagesOf ctx).flatMap fun g => (if g.spilled then [(g.spillAt, g.inst.id.imageKib)] else []) ++ part g.inst)
    ++ (m.residentOf ctx).flatMap fun c => part (m.inst c)

/-- The first free KiB of a context's spill area for so many. -/
def Mach.spillRoom (m : Mach) (ctx need : Nat) : Option Nat :=
  lowestRun (m.spillRuns ctx) need ((m.ctx ctx).spsize * 1024)

/-- The header of an image (Table 9.6). -/
def Image.header (g : Image) : List Byte :=
  let i := g.inst.id
  bytesOf 4 0x47494D53 ++ bytesOf 2 i.imageKib ++ bytesOf 2 i.ctx.val
    ++ bytesOf 8 (i.num + i.run * 2 ^ 16 + i.tidx * 2 ^ 18 + g.core.val * 2 ^ 32 + (if g.inst.faulted.isSome then 2 ^ 40 else 0))
    ++ bytesOf 8 g.cbase ++ bytesOf 8 (if g.inst.faulted.isSome then g.seq else 0) ++ bytesOf 32 0

/-- An image moves to the spill area (R258): its header is plain there and every other byte is as stored, the module's
own. None when the area has no room. -/
def Mach.spillImage (m : Mach) (g : Image) : Option Mach :=
  let ctx := g.inst.id.ctx.val
  (m.spillRoom ctx g.inst.id.imageKib).map fun a =>
    let n := g.inst.id.imageKib * 1024 - 64
    let body := (List.range n).map fun k => Config.freeImageByte (m.tick + k)
    let m := m.store ((m.ctx ctx).spbase + a * 1024) (g.header ++ body)
    ({ m with tick := m.tick + n } : Mach).setImage { g with spilled := true, spillAt := a }

/-- A Swapped context whose images are all in its spill area is Spilled (R258). -/
def Mach.settleSpilled (m : Mach) (ctx : Nat) : Mach :=
  if (m.ctx ctx).st == .swapped && (m.imagesOf ctx).all (·.spilled) then m.modCtx ctx fun x => { x with st := .spilled } else m

end Sys2Proof.Machine
end

