-- ==== Sys2Proof/Machine/Aes.lean ====
section
/-! DEFINITION. The cipher AES-128 (FIPS 197) by which a context's key is replaced (R261). The spec names the cipher; its
steps are the standard's, and byte 0 of a block is its most significant byte (notes/assumptions/124.md). -/

namespace Sys2Proof.Machine
open Sys2Proof

/-- Multiplication by x modulo x^8 + x^4 + x^3 + x + 1. -/
def aesDouble (b : Byte) : Byte := (b <<< 1) ^^^ (if b.getLsbD 7 then 0x1B else 0)

/-- Multiplication in GF(2^8): the multiples of the first factor that the second one's bits select. -/
def aesMul (a b : Byte) : Byte :=
  ((List.range 8).foldl (fun (p : Byte × Byte) k => (if b.getLsbD k then p.1 ^^^ p.2 else p.1, aesDouble p.2)) (0, a)).1

/-- The inverse, a^254, the product of a^2, a^4, … a^128; 0 has 0. -/
def aesInv (a : Byte) : Byte :=
  ((List.range 7).foldl (fun (p : Byte × Byte) _ => let q := aesMul p.2 p.2; (aesMul p.1 q, q)) (1, a)).1

/-- The S-box. -/
def aesBox (a : Byte) : Byte :=
  let x := aesInv a
  x ^^^ x.rotateLeft 1 ^^^ x.rotateLeft 2 ^^^ x.rotateLeft 3 ^^^ x.rotateLeft 4 ^^^ 0x63

/-- The sum of two byte lists. -/
def aesAdd (l r : List Byte) : List Byte := List.zipWith (· ^^^ ·) l r

/-- Column-major state: row r turns left by r places. -/
def aesRows (l : List Byte) : List Byte := (List.range 16).map fun i => l.getD ((i + 4 * (i % 4)) % 16) 0

/-- Each column times the standard's circulant of 2, 3, 1, 1. -/
def aesColumns (l : List Byte) : List Byte :=
  (List.range 16).map fun i =>
    let at' := fun (k : Nat) => l.getD (i / 4 * 4 + (i + k) % 4) 0
    aesDouble (at' 0) ^^^ aesDouble (at' 1) ^^^ at' 1 ^^^ at' 2 ^^^ at' 3

/-- The round key that follows one. -/
def aesNext (k : List Byte) (rc : Byte) : List Byte :=
  let t := [aesBox (k.getD 13 0) ^^^ rc, aesBox (k.getD 14 0), aesBox (k.getD 15 0), aesBox (k.getD 12 0)]
  let a := aesAdd (k.take 4) t
  let b := aesAdd ((k.drop 4).take 4) a
  let c := aesAdd ((k.drop 8).take 4) b
  a ++ b ++ c ++ aesAdd (k.drop 12) c

/-- The rounds: `n` counts those left, the last without the mixing of columns. -/
def aesRounds : Nat → List Byte → Byte → List Byte → List Byte
  | 0, _, _, l => l
  | n + 1, k, rc, l =>
    let k := aesNext k rc
    let l := aesRows (l.map aesBox)
    aesRounds n k (aesDouble rc) (aesAdd (if n = 0 then l else aesColumns l) k)

/-- The bytes of a block, the most significant first, and back. -/
def aesBytes (b : BitVec 128) : List Byte := (List.range 16).map fun i => BitVec.ofNat 8 (b.toNat / 2 ^ (8 * (15 - i)))
def aesBlock (l : List Byte) : BitVec 128 := BitVec.ofNat 128 (l.foldl (fun n b => n * 256 + b.toNat) 0)

/-- AES-128-encrypt of a block under a key. -/
def aes128 (key block : BitVec 128) : BitVec 128 :=
  aesBlock (aesRounds 10 (aesBytes key) 1 (aesAdd (aesBytes block) (aesBytes key)))

end Sys2Proof.Machine
end

