-- ==== Sys2Proof/Machine/Lines.lean ====
section
/-! DEFINITION. The write counts and key generations of a context's lines on the SRAM die, and the start of a re-key
walk (R203, R260, R261). What the lines hold is kept in the clear: neither keys nor keystream can be read. -/

namespace Sys2Proof.Machine
open Sys2Proof

/-- The number of a line of a core's B store, by its column group and offset. -/
def bLine (c : CoreId) (g off : Nat) : Nat := c.val * 2 ^ 17 + (g * 2 ^ 21 + off) / 64

/-- The number of a KiB of the save region, whose 16 lines are always written together. -/
def saveLine (k : Nat) : Nat := 48 * 2 ^ 17 + k

/-- A line of a context. -/
def Ctx.line (x : Ctx) (n : Nat) : Line := (alookup x.lines n).getD { gen := x.gen }

/-- A line is written under the slot's key; its last count stays until it has been rewritten. -/
def Ctx.writeLine (x : Ctx) (n : Nat) : Ctx :=
  let l := x.line n
  { x with lines := aset x.lines n { count := if l.count = 0xFFFF then l.count else l.count + 1, gen := x.gen } }

/-- The block whose encryption is the next key (R261). -/
def Ctx.rekeyBlock (x : Ctx) : BitVec 128 := BitVec.ofNat 128 (0x52454B4559 * 2 ^ 88 + (if x.gen then 1 else 0))

/-- Begin the re-key walk of a context (R261): the slot holds both keys until the walk has ended. During a walk the
next one is noted. -/
def Mach.startRekey (m : Mach) (ctx : CtxId) : Mach :=
  let x := m.ctx ctx.val
  match x.key, x.newKey with
  | some k, none => (m.setCtx ctx.val { x with newKey := some (aes128 k x.rekeyBlock), rekeyNext := false }).timer 1 (.rekeyDone ctx)
  | some _, some _ => m.setCtx ctx.val { x with rekeyNext := true }
  | none, _ => m

/-- Lines of a context are written: each counts the write, and one that reaches its last count starts a walk. -/
def Mach.writeLines (m : Mach) (ctx : CtxId) (ns : List Nat) : Mach :=
  let x := ns.foldl Ctx.writeLine (m.ctx ctx.val)
  let m := m.setCtx ctx.val x
  if ns.any fun n => (x.line n).count == 0xFFFF then m.startRekey ctx else m

/-- Every line of the context has been rewritten with the new key (R261). -/
def Ctx.rekeyed (x : Ctx) (k : BitVec 128) : Ctx :=
  { x with key := some k, newKey := none, gen := !x.gen, lines := x.lines.map fun e => (e.1, { gen := !x.gen }) }

end Sys2Proof.Machine
end

