-- ==== Sys2Proof/Machine/Preempt.lean ====
section
/-! DEFINITION. Trap entry, fault records and pre-emption as steps (R143, R255, R256, R265). -/

namespace Sys2Proof.Machine
open Sys2Proof

/-- A step on a core does nothing where the core holds no instance. -/
def Mach.onResident (m : Mach) (c : CoreId) (f : Mach → Mach) : Mach := if (m.core c).resident then f m else m

/-- TRAP_ENTRY (R143): the step that takes a trap raised between words, such as one on a fetch (R32). -/
def execTrapEntry (c : CoreId) (e : Eng) (cause : Cause) (pc val : W64) (s : State) : Out :=
  s.to (s.mach.onResident c fun m => m.takeTrap c e cause pc val)

/-- The fault record of a saved instance (R265): SEQ rises by one from 1. -/
def Mach.faultRecord (m : Mach) (ctx : CtxId) (uid : Nat) (core : CoreId) (t : TrapInfo) : Mach :=
  match m.image uid with
  | none => m
  | some g =>
    let x := m.ctx ctx.val
    let seq := x.seq + 1
    let m := m.modCtx ctx.val fun x => { x with seq }
    let m := m.setImage { g with seq := seq.toNat }
    let i := g.inst.id
    m.postRecord x.owner x.fqueue (faultBytes 1 ctx i.num i.run i.tidx core t seq.toNat) (some ctx)

/-- FAULT_RECORD (R265). -/
def execFaultRecord (ctx : CtxId) (uid : Nat) (core : CoreId) (t : TrapInfo) (s : State) : Out :=
  s.to (s.mach.faultRecord ctx uid core t)

/-- A core latches a pre-emption request (R148, R189, R201, R255): every engine is at its boundary between
two steps of the model, so waits are abandoned, throttle idles end, and the release follows. -/
def Mach.requestPreempt (m : Mach) (c : CoreId) : Mach :=
  m.onResident c fun m =>
    if (m.core c).preempt then m
    else
      let m := (m.abandonWaits c 1).endIdles c
      (m.setCore c { m.core c with preempt := true }).post [.coreReleased c]

/-- PREEMPTION_REQUEST (R255): a request to an instance that is already saved is satisfied at once. -/
def execPreemptionRequest (c : CoreId) (s : State) : Out := s.to (s.mach.requestPreempt c)

/-- A SUSPEND that waits for a context's last resident instance completes (R253). -/
def Mach.endSuspend (m : Mach) (ctx : Nat) : Mach :=
  if !m.suspending ctx || !(m.residentOf ctx).isEmpty then m
  else
    let fns := m.fns.map fun r =>
      match r.suspendOf with
      | some c => if c.val = ctx then { r with suspendOf := none, ctxBusy := false, ctxStatus := 0 } else r
      | none => r
    ({ m with fns } : Mach).modCtx ctx fun x => { x with st := .swapped }

/-- The image of a core's instance (R256), written into its reservation (R257): its partition stays in place (R259)
once its start was done, and its page registers are the core's and are not saved (R337). -/
def Mach.imageOf (m : Mach) (c : CoreId) : Image :=
  let i := m.inst c
  let k := m.core c
  { inst := { i with regs := [] }, core := c, place := if k.starting then none else some (k.place, i.id.part)
    spilled := false, seq := 0, saveAt := k.saveAt, cbase := k.saveAt * 1024 }

/-- The accesses of a core no longer stall on any page. -/
def Mach.dropStalls (m : Mach) (c : CoreId) : Mach :=
  let of := fun (x : Staller) => match x with | .core d _ => d == c | .fetch d _ => d == c | .delivery _ => false
  { m with moves := m.moves.map fun v =>
      { v with stalled := v.stalled.filter fun x => !of x, dead := v.dead.filter fun x => !of x } }

/-- The save image is written and the core is released: its team and context follow. -/
def Mach.releaseCore (m : Mach) (c : CoreId) : Mach :=
  m.onResident c fun m =>
    let id := (m.inst c).id
    let g := m.imageOf c
    let m := (({ m with images := m.images ++ [g] } : Mach).freeCore c).dropStalls c
    let m := m.writeLines id.ctx ((List.range id.imageKib).map fun k => saveLine (g.saveAt + k))
    let m := m.settleTeam id.launch id.run id.team
    let m := (m.endSuspend id.ctx.val).settleCtx id.ctx.val
    m.post [.placementEval (dieOf c)]

/-- CORE_RELEASED (R255, R256). -/
def execCoreReleased (c : CoreId) (s : State) : Out := s.to (s.mach.releaseCore c)

end Sys2Proof.Machine
end

