-- ==== Sys2Proof/Machine/SSync.lean ====
section
/-! DEFINITION. The synchronisation and coupling words of S: ACQ, REL, FENCE, BIND (R99–R107), SIG,
WAITK, SQPUT, EIDLE (R139–R141), FPSH, FPOP, FCNT (R245–R248), EXIT (R287), WAITW and YIELD (R302,
R312, R313), and the barrier words (R323–R326). Each spinning wait has one test, which the word makes
first and SPIN_RECHECK makes again. -/

namespace Sys2Proof.Machine
open Sys2Proof

/-! ## Objects -/

/-- The checks of a word on an object at its home: canonical, aligned, resident, allowed (R103, R312,
R323); the answer is the object's memory key. -/
def objectKey (c : CoreId) (a : W64) (align : Nat) (need : Right) : Run Nat := do
  let va ← needCanon a
  require (va % align == 0) .misaligned va
  let r := relocate (← getInst c).id va
  let p ← translate c .s r va need
  require p.p .storeNonresident va
  require (p.allows need) .protection va
  modify fun m => m.charge c p r
  return (← get).pageKey p r

/-- Read an 8-byte word at its home; a poisoned line parks the instance (R404). -/
def readHome (key : Nat) (va : Nat) : Run Nat := do
  if (← get).poison.contains (key / 64) then throw (.park .protection (BitVec.ofNat 64 va))
  return (← get).word key

/-- Write an 8-byte word at its home, under dual-run's rules (R292, R293). -/
def writeHome (c : CoreId) (key va v : Nat) : Run Unit := do
  if performed (← getInst c).id va then modify fun m => m.storeWord key v
  modify fun m => m.sign c va (bytesOf 8 v)

/-- lock_tag(): HELD 1, CORE, PKG and ASID of the issuing instance (R99, R100). -/
def lockTag (m : Mach) (c : CoreId) : Nat :=
  1 + c.val * 2 + m.pkg.toNat * 2 ^ 8 + (m.ctx (m.ctxOf c)).asid.toNat * 2 ^ 32

/-- The regions bound to an object in a context's table (R100). -/
def Ctx.boundTo (x : Ctx) (obj : Nat) : List (Nat × Nat) :=
  (x.bindings.filter (·.1 == obj)).map fun b => b.2

/-- The copies of blocks that overlap a region bound to an object. -/
def boundCopies (c : CoreId) (obj : Nat) : Run (List (Region × Nat × Nat)) := do
  let m ← get
  return (m.inst c).pad.copiesIn ((m.ctx (m.ctxOf c)).boundTo obj)

/-- A spinning wait completes: SPIN_COUNT := 0 (R302). -/
def spinDone (c : CoreId) : Run Unit :=
  setInst c fun i => { i with s := { i.s with spinCount := 0 } }

/-! ## ACQ and REL -/

/-- The check and the end of ACQ (R104, R105): once the condition holds the word completes. -/
def acqTry (c : CoreId) (a : W64) (target : Option W64) : Run Flow := do
  let key ← objectKey c a 64 (if target.isSome then .read else .write)
  let obj := a.toNat
  match target with
  | none =>
    if (← readHome key obj) ≠ 0 then waitFor (.sync obj)
    writeHome c key obj (lockTag (← get) c)
  | some n => if (← readHome (key + 8) obj) < n.toNat then waitFor (.sync obj)
  writeBackDiscard c (← boundCopies c obj)
  spinDone c
  return .fall

/-- ACQ (R103, R104): the first write-back is made before the wait. -/
def acqWord (c : CoreId) (a : W64) (target : Option W64) : Run Flow := do
  let _ ← objectKey c a 64 (if target.isSome then .read else .write)
  writeBackAll c (← boundCopies c a.toNat)
  acqTry c a target

/-- ACQ.L (R102–R105). -/
def execAcqL (a : Reg) (scope : Scope) (s : State) : Out :=
  s.sRun (.acqL a scope) fun c => do acqWord c ((← getInst c).s.get a) none

/-- ACQ.C (R102–R105). -/
def execAcqC (a b : Reg) (scope : Scope) (s : State) : Out :=
  s.sRun (.acqC a b scope) fun c => do
    let q := (← getInst c).s
    acqWord c (q.get a) (some (q.get b))

/-- REL.L (R103, R106): by an agent that is not the holder it traps PROTECTION and changes nothing. The clearing of the
lock compares its tag again, which the word's own write-backs may have changed. -/
def execRelL (a : Reg) (scope : Scope) (s : State) : Out :=
  s.sRun (.relL a scope) fun c => do
    let v := (← getInst c).s.get a
    let key ← objectKey c v 64 .write
    require ((← readHome key v.toNat) == lockTag (← get) c) .protection v.toNat
    writeBackAll c (← boundCopies c v.toNat)
    require ((← readHome key v.toNat) == lockTag (← get) c) .protection v.toNat
    writeHome c key v.toNat 0
    return .fall

/-- REL.C (R103, R106). -/
def execRelC (a : Reg) (scope : Scope) (s : State) : Out :=
  s.sRun (.relC a scope) fun c => do
    let v := (← getInst c).s.get a
    let key ← objectKey c v 64 .write
    writeBackAll c (← boundCopies c v.toNat)
    let n ← readHome (key + 8) v.toNat
    writeHome c (key + 8) (v.toNat + 8) ((n + 1) % 2 ^ 64)
    return .fall

/-! ## FENCE and BIND -/

/-- FENCE's act on the copies at scope stack group or wider (R107): every written byte is written back,
then every copy is discarded. -/
def fenceCopies (c : CoreId) (scope : Nat) : Run Unit := do
  if scope ≥ 1 then
    let copies := (← getInst c).pad.copies
    writeBackAll c copies
    discardAll c copies

/-- FENCE (R107). Every earlier access is already performed when the word runs. -/
def execFence (scope : Scope) (s : State) : Out :=
  s.sRun (.fence scope) fun c => do
    fenceCopies c (scopeCode scope)
    return .fall

/-- BIND (R101): the checks in the order written, then the table, then the count. -/
def execBind (d a b : Reg) (k : BitVec 6) (s : State) : Out :=
  s.sRun (.bind d a b k) fun c => do
    let q := (← getInst c).s
    let size := 2 ^ k.toNat
    let obj ← needCanon (q.get a)
    require (obj % 64 == 0) .misaligned obj
    let sb := (q.get b).toNat
    let rm := sb % 2 == 1
    let base := sb - sb % 2
    require (base % size == 0) .misaligned sb
    let last := (base + size - 1) % 2 ^ 64
    require (isCanon base && isCanon last && (base / 2 ^ 56 == last / 2 ^ 56)) .protection sb
    let m ← get
    let x := m.ctx (m.ctxOf c)
    let e := (obj, base, k.toNat)
    if rm then modify fun m => m.modCtx (m.ctxOf c) fun x => { x with bindings := x.bindings.erase e }
    else if !x.bindings.contains e then
      require (decide (x.bindings.length < 1024) && decide ((x.boundTo obj).length < 8)) .region obj
      modify fun m => m.modCtx (m.ctxOf c) fun x => { x with bindings := x.bindings ++ [e] }
    let n := (((← get).ctx (m.ctxOf c)).boundTo obj).length
    setInst c fun i => { i with s := i.s.put d (BitVec.ofNat 64 n) }
    return .fall

/-! ## Tokens, the scalar queue and idle engines -/

/-- The engine a peer code of S names; SIG and WAITK hold a nonzero one. -/
def sPeer (p : Fin 3) : Eng := match p with | 0 => .V | 1 => .M | _ => .X

/-- SIG (R139). -/
def sigTry (c : CoreId) (p : Fin 3) : Run Flow := do
  match (← getInst c).pushToken .S (sPeer p) with
  | some i => setInst c fun _ => i; return .fall
  | none => waitFor (.push (sPeer p))

/-- SIG (R139): a full queue stalls S. -/
def execSig (peer : Fin 3) (s : State) : Out := s.sRun (.sig peer) fun c => sigTry c peer

/-- WAITK's check (R139). -/
def waitkTry (c : CoreId) (p : Fin 3) : Run Flow := do
  let i ← getInst c
  match i.popToken (sPeer p) .S with
  | some i' =>
    setInst c fun _ => i'
    spinDone c
    return .fall
  | none => if (i.stream (sPeer p)).ended then trap .tokenOrphan (p.val + 1) else waitFor (.token (sPeer p))

/-- WAITK (R139). -/
def execWaitk (peer : Fin 3) (s : State) : Out := s.sRun (.waitk peer) fun c => waitkTry c peer

/-- SQPUT's check (R140). -/
def sqputTry (c : CoreId) (a : Reg) : Run Flow := do
  let i ← getInst c
  if i.v.st.ended then return .fall
  if i.s.sq.length < 32 then
    setInst c fun i => { i with s := { i.s with sq := i.s.sq ++ [i.s.get a] } }
    return .fall
  else waitFor .sqFull

/-- SQPUT (R140). -/
def execSqput (a : Reg) (s : State) : Out := s.sRun (.sqput a) fun c => sqputTry c a

/-- An engine is idle (R141): ended, or stopped before a word whose sync pop names S on an empty
queue, with every access of its completed words performed. -/
def Inst.engineIdle (i : Inst) (e : Eng) : Bool :=
  let st := i.stream e
  let stopped := st.ended || (match st.wait with
    | some w => w.kind == .token .S && i.tokens .S e == 0
    | none => false)
  stopped && match e with
    | .M => i.m.active.isNone && i.m.pending.isNone
    | .X => i.x.xfers.isEmpty
    | _ => true

/-- EIDLE's check (R141). -/
def eidleTry (c : CoreId) (mask : BitVec 3) : Run Flow := do
  let i ← getInst c
  let ok := (!mask.getLsbD 0 || i.engineIdle .V) && (!mask.getLsbD 1 || i.engineIdle .M)
    && (!mask.getLsbD 2 || i.engineIdle .X)
  if ok then return .fall else waitFor .eidle

/-- EIDLE (R141). -/
def execEidle (mask : BitVec 3) (s : State) : Out := s.sRun (.eidle mask) fun c => eidleTry c mask

/-! ## EXIT -/

/-- A launch whose last instance's S has completed EXIT drains (Table 11.3). -/
def Mach.drainLaunch (m : Mach) (n : Nat) : Mach :=
  match m.launch n with
  | none => m
  | some l =>
    let all := (List.range l.runs).all fun r => (List.range l.lr.instn).all fun k => m.instExited (uidOf n r k)
    if l.st = .running && all then m.setLaunch { l with st := .draining } else m

/-- EXIT (R287): with the handler flag set it parks the instance with cause ILLEGAL. -/
def execExit (s : State) : Out :=
  s.sRun .exit fun c => do
    let q := (← getInst c).s
    require (!q.atBodyEnd) .illegal (structVal .exit)
    require (!q.handler) .illegal (wordOf .exit)
    setInst c fun i =>
      let i := ((i.setTokens .V .S 0).setTokens .M .S 0).setTokens .X .S 0
      { i with
        s := { i.s with
          loops := i.s.order.foldl (fun v n => vset v n (v.get n).ended) i.s.loops
          order := [], st := { i.s.st with ended := true } }
        fifo := { i.fifo with f2 := [], open0 := [], open1 := [] } }
    let id := (← getInst c).id
    modify fun m => (m.dropFromRounds id (dieOf c)).drainLaunch id.launch
    return .stay

/-! ## Engine FIFOs (R245–R248) -/

/-- The body length of a command code of F0 (Table 15.5, R374, R386) and F1 (R247). -/
def bodyLength (f : Fin 2) (code : Nat) : Option Nat :=
  match f.val, code with
  | 0, 1 => some 4 | 0, 2 => some 4 | 0, 3 => some 6 | 0, 4 => some 6 | 0, 5 => some 4 | 0, 6 => some 4
  | 0, 7 => some 8 | 0, 8 => some 9
  | 1, 1 => some 4 | 1, 2 => some 4
  | _, _ => none

/-- A header that FPSH accepts (R246). -/
def headerOk (f : Fin 2) (w : W64) : Bool :=
  bodyLength f (fld w.toNat 0 8) == some (fld w.toNat 8 8) && fld w.toNat 48 16 == 0

/-- The words on the command side. -/
def Fifos.used (x : Fifos) (f : Nat) : Nat :=
  if f = 0 then x.open0.length + x.queue0.flatten.length else x.open1.length + x.queue1.flatten.length

/-- The capacity of each side (Table 8.11). -/
def fifoCap (f : Nat) : Nat := if f = 1 then 32 else 64

/-- Put a word on the command side; a record that it completes is handed to the engine. -/
def Fifos.push (x : Fifos) (f : Fin 2) (w : W64) : Fifos :=
  if f = 0 then
    let o := x.open0 ++ [w]
    if o.length = 1 + fld (o.headD 0).toNat 8 8 then { x with open0 := [], queue0 := x.queue0 ++ [o] }
    else { x with open0 := o }
  else
    let o := x.open1 ++ [w]
    if o.length = 1 + fld (o.headD 0).toNat 8 8 then { x with open1 := [], queue1 := x.queue1 ++ [o] }
    else { x with open1 := o }

def Fifos.isOpen (x : Fifos) (f : Nat) : Bool :=
  if f = 0 then !x.open0.isEmpty else if f = 1 then !x.open1.isEmpty else false

/-- Complete records that await their results. -/
def Fifos.awaiting (x : Fifos) (f : Nat) : Nat :=
  if f = 0 then x.queue0.length + x.cmds.length else if f = 1 then x.queue1.length else 0

def Fifos.results (x : Fifos) (f : Nat) : List W64 :=
  if f = 0 then x.res0 else if f = 1 then x.res1 else x.f2

def Fifos.setResults (x : Fifos) (f : Nat) (l : List W64) : Fifos :=
  if f = 0 then { x with res0 := l } else if f = 1 then { x with res1 := l } else { x with f2 := l }

/-- FPSH's check and act (R246, R248, R292). -/
def fpshTry (c : CoreId) (f : Fin 2) (a : Reg) : Run Flow := do
  let i ← getInst c
  let w := i.s.get a
  if !i.fifo.isOpen f.val then
    require (headerOk f w && !(f == 0 && i.id.dual)) .fifoProtocol w.toNat
  if i.fifo.used f.val < fifoCap f.val then
    setInst c fun i => { i with fifo := i.fifo.push f w }
    return .fall
  else waitFor (.fifoFull f.val)

/-- FPSH (R248). -/
def execFpsh (f : Fin 2) (a : Reg) (s : State) : Out := s.sRun (.fpsh f a) fun c => fpshTry c f a

/-- FPOP's check and act (R248). -/
def fpopTry (c : CoreId) (d : Reg) (f : Fin 3) : Run Flow := do
  let i ← getInst c
  match i.fifo.results f.val with
  | w :: rest =>
    setInst c fun i => { i with fifo := i.fifo.setResults f.val rest, s := i.s.put d w }
    return .fall
  | [] =>
    let never := if f = 2 then i.v.st.ended else i.fifo.awaiting f.val == 0
    if never then trap .fifoProtocol f.val else waitFor (.fifoEmpty f.val)

/-- FPOP (R248). -/
def execFpop (d : Reg) (f : Fin 3) (s : State) : Out := s.sRun (.fpop d f) fun c => fpopTry c d f

/-- FCNT (R248): the fields that F2 lacks read 0. -/
def execFcnt (d : Reg) (f : Fin 3) (s : State) : Out :=
  let x := (s.mach.inst s.mach.cur).fifo
  let v := (x.results f.val).length
    + (if f = 2 then 0 else
        (fifoCap f.val - x.used f.val) * 2 ^ 16 + x.awaiting f.val * 2 ^ 32 + (if x.isOpen f.val then 2 ^ 48 else 0))
  s.sReg d (BitVec.ofNat 64 v)

/-! ## WAITW and YIELD -/

/-- The conditions of Table 2.5 and R274. -/
def condHolds (k : WCond) (x v : W64) : Bool :=
  match k with
  | .eq => x == v | .ne => x != v | .geu => !x.ult v | .ltu => x.ult v | .ge => !x.slt v | .lt => x.slt v

/-- WAITW's check (R312). -/
def waitwTry (c : CoreId) (d a b : Reg) (k : WCond) : Run Flow := do
  let q := (← getInst c).s
  let key ← objectKey c (q.get a) 8 .read
  let x := BitVec.ofNat 64 (← readHome key (q.get a).toNat)
  if condHolds k x (q.get b) then
    setInst c fun i => { i with s := { i.s.put d x with spinCount := 0 } }
    return .fall
  else waitFor (.word (q.get a).toNat)

/-- WAITW (R312). -/
def execWaitw (d a b : Reg) (cond : WCond) (scope : Scope) (s : State) : Out :=
  s.sRun (.waitw d a b cond scope) fun c => waitwTry c d a b cond

/-- The boost that a YIELD leaves: 0, and what the arrivals of its cycle add, which come after it (R300). -/
def Ctx.yielded (x : Ctx) (cycle : Nat) : Fin 9 := if x.raised.1 = cycle then Fin.ofNat 9 (min 8 (4 * x.raised.2)) else 0

/-- YIELD (R313): the boost of the context is cleared, and the next evaluation weighs the team. -/
def execYield (s : State) : Out :=
  s.sRun .yield fun c => do
    let id := (← getInst c).id
    modify fun m =>
      let m := m.modCtx id.ctx.val fun x => { x with boost := x.yielded m.cycle }
      match m.launch id.launch with
      | none => m
      | some l => m.setLaunch { l with teams := l.teams.map fun t =>
          if t.num = id.team && t.run = id.run then { t with yields := true } else t }
    return .fall

/-! ## The barrier words -/

/-- The record an instance holds on an object. -/
def Inst.record (i : Inst) (obj : Nat) : Option Arrival := i.arrivals.find? (·.obj == obj)

/-- The checks of R323 up to the scope: the object's key and its open round. -/
def barrierChecks (c : CoreId) (a : W64) (scope : Nat) : Run (Nat × Option Round) := do
  let key ← objectKey c a 64 .write
  let m ← get
  let r := m.heldRound key a.toNat (m.inst c).id (dieOf c).val
  let held := match r with | some r => r.scope | none => (m.barObj key).scope
  require (held == scope) .region a.toNat
  return (key, r)

/-- BARR and BBPOST (R321, R322, R324). -/
def arriveWord (c : CoreId) (a : W64) (n scope : Nat) : Run Flow := do
  let (key, _) ← barrierChecks c a scope
  let i ← getInst c
  let obj := a.toNat
  match i.arrivals.find? fun r => r.obj == obj && r.ended.isNone with
  | some _ => waitFor (.retry 4 obj)
  | none => pure ()
  let m ← get
  let die := dieOf c
  let p := psetOf i.id die.val scope
  let round := m.openRound i.id.ctx.val key obj p
  let o := m.barObj key
  let joins := match round with | some r => m.rounds.any fun x => x.num == r.num && !x.guest | none => false
  if !joins && o.st ≠ 5 then require (o.ok && m.roundRoom (m.ctxOf c) scope) .region obj
  if scope = 4 && i.id.dual then trap .fifoProtocol obj
  let room := (i.arrivals.filter (·.obj != obj)).length < 16
  require room .region obj
  fenceCopies c scope
  let old := i.arrivals.filter (·.obj != obj)
  match round with
  | some r =>
    modify fun m => m.setRound { r with expect := r.expect + n, arrived := r.arrived ++ [i.id.num] }
    setInst c fun i => { i with arrivals := old ++ [{ obj, round := r.num, ended := none }] }
    modify fun m => m.arrivalCheck r.num die
  | none =>
    if o.st = 5 then
      setInst c fun i => { i with arrivals := old ++ [{ obj, round := 0, ended := some (2, o.round) }] }
    else
      let (r, m) := (← get).openNew i.id.ctx.val key obj p o n 0
      set (m.setRound { r with arrived := [i.id.num] })
      setInst c fun i => { i with arrivals := old ++ [{ obj, round := r.num, ended := none }] }
      modify fun m => m.arrivalCheck r.num die
  return .fall

/-- BARR (R323, R324). -/
def execBarr (a : Reg) (scope : Scope) (s : State) : Out :=
  s.sRun (.barr a scope) fun c => do arriveWord c ((← getInst c).s.get a) 0 (scopeCode scope)

/-- BBPOST (R323, R324): bits [63:48] of the count must be zero. -/
def execBbpost (a b : Reg) (scope : Scope) (s : State) : Out :=
  s.sRun (.bbpost a b scope) fun c => do
    let q := (← getInst c).s
    let _ ← barrierChecks c (q.get a) (scopeCode scope)
    let n := (q.get b).toNat
    require (decide (n < 2 ^ 48)) .region n
    arriveWord c (q.get a) n (scopeCode scope)

/-- Consume the record of an object, with the acquire and discards of a firing (R325, R326). -/
def consumeRecord (c : CoreId) (obj status scope : Nat) : Run Unit := do
  if status ≠ 2 then fenceCopies c scope
  setInst c fun i => { i with
    arrivals := i.arrivals.filter (·.obj != obj)
    s := { i.s with spinCount := 0 } }

/-- BARW's loop (R325): only the record is looked at again. -/
def barwLoop (c : CoreId) (d : Reg) (a : W64) (scope : Nat) : Run Flow := do
  let obj := a.toNat
  match (← getInst c).record obj with
  | none => setInst c fun i => { i with s := i.s.put d 3 }
  | some r =>
    match r.ended with
    | none => waitFor (.barrier obj)
    | some (st, n) =>
      if r.behind ≠ 0 then waitFor (.barrier obj)
      consumeRecord c obj st scope
      setInst c fun i => { i with s := i.s.put d (BitVec.ofNat 64 (st + n * 2 ^ 32)) }
  return .fall

/-- BARW's first check (R325): the checks of R323 are made once. -/
def barwTry (c : CoreId) (d : Reg) (a : W64) (scope : Nat) : Run Flow := do
  let _ ← barrierChecks c a scope
  barwLoop c d a scope

/-- BARW (R325). -/
def execBarw (d a : Reg) (scope : Scope) (s : State) : Out :=
  s.sRun (.barw d a scope) fun c => do barwTry c d ((← getInst c).s.get a) (scopeCode scope)

/-- BARQ (R326): the live state from the combiner when a round is open, the object at its home
otherwise. -/
def execBarq (d a : Reg) (scope : Scope) (s : State) : Out :=
  s.sRun (.barq d a scope) fun c => do
    let v := (← getInst c).s.get a
    let (key, round) ← barrierChecks c v (scopeCode scope)
    let m ← get
    let o := m.barObj key
    let (st, n) := match round with
      | some r => (if r.posted then 2 else 1, r.round)
      | none => (o.st, o.round)
    let rec? := (← getInst c).record v.toNat
    let seen := match rec? with | some r => r.ended.isSome && r.behind == 0 | none => false
    if seen then
      match rec?.bind (·.ended) with
      | some (status, _) => consumeRecord c v.toNat status (scopeCode scope)
      | none => pure ()
    let out := st + scopeCode scope * 8 + (if rec?.isSome then 64 else 0) + (if seen then 128 else 0) + n * 2 ^ 32
    setInst c fun i => { i with s := i.s.put d (BitVec.ofNat 64 out) }
    return .fall

end Sys2Proof.Machine
end

