-- ==== Sys2Proof/Machine/Wakes.lean ====
section
/-! DEFINITION. The ends of waits as steps: the re-check of a spinning wait (R302), and the wakes of
waits on tokens, the scalar queue, FIFOs, idle engines and block fills (R40, R49, R139–R141, R248, R347). -/

namespace Sys2Proof.Machine
open Sys2Proof

/-- The test that a waiting word of S makes again, without the parts it makes only once. -/
def retest (c : CoreId) : Instr → Option (Run Flow)
  | .sig p => some (sigTry c p)
  | .waitk p => some (waitkTry c p)
  | .sqput a => some (sqputTry c a)
  | .eidle k => some (eidleTry c k)
  | .fpsh f a => some (fpshTry c f a)
  | .fpop d f => some (fpopTry c d f)
  | .acqL a _ => some (do acqTry c ((← getInst c).s.get a) none)
  | .acqC a b _ => some (do let q := (← getInst c).s; acqTry c (q.get a) (some (q.get b)))
  | .waitw d a b k _ => some (waitwTry c d a b k)
  | .barw d a x => some (do barwLoop c d ((← getInst c).s.get a) (scopeCode x))
  | _ => none

/-- The wait of a stream. -/
def Mach.waitOf (m : Mach) (c : CoreId) (e : Eng) : Option Waiting := ((m.inst c).stream e).wait

/-- The waits whose re-checks count spins (R302). -/
def WaitKind.spins : WaitKind → Bool
  | .token _ => true | .sync _ => true | .word _ => true | .barrier _ => true | _ => false

/-- SPIN_COUNT rises by one and saturates (R302). -/
def Seq.spin (s : Seq) : Seq :=
  { s with spinCount := if s.spinCount = BitVec.allOnes 32 then s.spinCount else s.spinCount + 1 }

/-- Test the waiting word of S again: it completes, traps, or goes on waiting. At a re-check (`spin`) a condition that does
not hold counts one spin; a read that stalls on an arriving page counts none, and the re-check goes on until the page is
there (R302, R312). -/
def Mach.retestS (m : Mach) (c : CoreId) (word : Instr) (spin : Bool) : Mach :=
  match retest c word with
  | none => m
  | some f =>
    match f.go m with
    | (.ok fl, m') => m'.sFlow c fl
    | (.error (.wait k), m') =>
      let failed := match m.waitOf c .S with | some w => w.kind == k | none => false
      if !spin then m'
      else if failed then (m'.modSeq c fun s => { s.spin with checking := false }).spinTimer c
      else m'.modSeq c fun s => { s with checking := true }
    | (.error st, m') => m'.sStop c word st

/-- SPIN_RECHECK (R302): at cycles start + 64k of a spinning wait, or a re-check that a page holds up. -/
def execSpinRecheck (c : CoreId) (s : State) : Out :=
  let m := s.mach
  match m.waitOf c .S with
  | some w =>
    let age := m.cycle - w.since
    let due := (m.inst c).s.checking || (decide (0 < age) && age % 64 == 0)
    if (m.core c).resident && w.kind.spins && due then s.to (m.retestS c w.word true)
    else s.to m
  | none => s.to m

/-- A stream's wait has ended; its word, fetched before, runs at the stream's next turn. -/
def Mach.rerun (m : Mach) (c : CoreId) (e : Eng) (w : Waiting) : Mach :=
  (m.endWait c e 0).beginWait c e (.retry 0 0) w.word

/-- A waiting sync pop receives its token, or finds its peer ended (R40, R288). -/
def Mach.wakePop (m : Mach) (c : CoreId) (e : Eng) (w : Waiting) (src : Eng) : Mach :=
  match (m.inst c).popToken src e with
  | some i => (m.setInst c (i.modStream e fun st => { st with popped := true })).rerun c e w
  | none =>
    if ((m.inst c).stream src).ended then
      m.takeTrap c e .tokenOrphan ((m.inst c).stream e).pc (BitVec.ofNat 64 (peerCode e src))
    else m

/-- TOKEN_POP_WAKE (R40, R139). -/
def execTokenPopWake (c : CoreId) (e : Eng) (s : State) : Out :=
  s.to (s.mach.onResident c fun m =>
    match m.waitOf c e with
    | some w =>
      match w.kind with
      | .token src => if e = .S then m.retestS c w.word false else m.wakePop c e w src
      | _ => m
    | none => m)

/-- The words that end their streams once their push is made (R184, R217, R242). -/
def endsStream : Instr → Bool
  | .vend _ => true | .mend _ => true | .xend _ => true | _ => false

/-- A push that waited enters its queue, and the stream goes on, or ends where its word ends it (R40). -/
def Mach.wakePush (m : Mach) (c : CoreId) (e : Eng) (word : Instr) : Mach :=
  match ((m.inst c).stream e).pushing with
  | none => m
  | some d =>
    match (m.inst c).pushWord e d with
    | some i =>
      let m' := (m.setInst c i).eAdvance c e
      if endsStream word then m'.endStream c e ((m.inst c).stream e).pc else m'
    | none => m

/-- TOKEN_PUSH_WAKE (R40, R139). -/
def execTokenPushWake (c : CoreId) (e : Eng) (s : State) : Out :=
  s.to (s.mach.onResident c fun m =>
    match m.waitOf c e with
    | some w =>
      match w.kind with
      | .push _ => if e = .S then m.retestS c w.word false else m.wakePush c e w.word
      | _ => m
    | none => m)

/-- SCALAR_QUEUE_WAKE (R49, R140): V goes on once an entry is there or S has exited, S once there is
room or V has ended. -/
def execScalarQueueWake (c : CoreId) (e : Eng) (s : State) : Out :=
  s.to (s.mach.onResident c fun m =>
    match m.waitOf c e with
    | some w =>
      match w.kind with
      | .sqFull => if e = .S then m.retestS c w.word false else m
      | .sqEmpty => if (m.inst c).s.sq ≠ [] || (m.inst c).s.st.ended then m.rerun c e w else m
      | _ => m
    | none => m)

/-- FIFO_WAKE (R248, R178). -/
def execFifoWake (c : CoreId) (e : Eng) (s : State) : Out :=
  s.to (s.mach.onResident c fun m =>
    match m.waitOf c e with
    | some w =>
      match w.kind with
      | .fifoFull f =>
        if e = .S then m.retestS c w.word false
        else if ((m.inst c).fifo.results f).length < fifoCap f || (m.inst c).s.st.ended then m.rerun c e w
        else m
      | .fifoEmpty _ => if e = .S then m.retestS c w.word false else m
      | _ => m
    | none => m)

/-- EIDLE_WAKE (R141). -/
def execEidleWake (c : CoreId) (s : State) : Out :=
  s.to (s.mach.onResident c fun m =>
    match m.waitOf c .S with
    | some w => if w.kind = .eidle then m.retestS c w.word false else m
    | none => m)

/-- The streams that wait for the fill of a block. -/
def Mach.fillWaiters (m : Mach) (c : CoreId) (block : Nat) : List (Eng × Waiting) :=
  [Eng.S, .V, .M, .X].filterMap fun e =>
    match m.waitOf c e with
    | some w => if w.kind = .fill block then some (e, w) else none
    | none => none

/-- The block at a local address is filled, or lies in no region. -/
def Pad.isFilled (p : Pad) (block : Nat) : Bool := p.filled.contains block

/-- BLOCK_FILL_DONE (R347): the copy is set, unless an engine's access has set it meanwhile, or what denied it is
kept for the words that waited, which run again. A poisoned line parks the instance on the first of them (R404). -/
def execBlockFillDone (c : CoreId) (block : Nat) (s : State) : Out :=
  s.to (s.mach.onResident c fun m =>
    match m.fillWaiters c block with
    | [] => m
    | (e, w) :: rest =>
      if (m.inst c).pad.isFilled block then ((e, w) :: rest).foldl (fun m p => m.rerun c p.1 p.2) m
      else
      match (fillBlock c block).go m with
      | (.ok none, m) => ((e, w) :: rest).foldl (fun m p => m.rerun c p.1 p.2) m
      | (.ok (some o), m) =>
        ((e, w) :: rest).foldl (fun m p =>
          (m.modInst c fun i => { i with pad :=
            { i.pad with outcomes := aset i.pad.outcomes (block + engCode p.1) o } }).rerun c p.1 p.2) m
      | (.error (.wait _), m) => m
      | (.error (.trap k v), m) => m.takeTrap c e k ((m.inst c).stream e).pc v
      | (.error (.park k v), m) => m.takeTrap c e k ((m.inst c).stream e).pc v .word true)

end Sys2Proof.Machine
end

