-- ==== Sys2Proof/Machine/BarrierSteps.lean ====
section
/-! DEFINITION. The steps of the combiners: an arrival of a die's unit and the release at a core (R317, R320,
R325). -/

namespace Sys2Proof.Machine
open Sys2Proof

/-- BARRIER_ARRIVAL_FORWARD (R22, R317): the IOD receives the one arrival of a die's share over the die's link, and the
fire check follows. -/
def execBarrierArrivalForward (round : Nat) (die : DieId) (s : State) : Out :=
  let m := s.mach
  match m.rounds.find? fun r => r.num == round && r.ended.isNone with
  | none => s.to m
  | some r =>
    if r.forwarded.contains die.val || !m.allArrived r (m.participantsOn r.pset die) then s.to m
    else if !m.iodUsable die then s.to (m.timer 1 (.barrierArrivalForward round die))
    else s.to ((m.setRound { r with forwarded := r.forwarded ++ [die.val] }).fireCheck round)

/-- The release of a round reaches a core: the records of its instance are marked ended, and the round leaves
the combiners with its last core. -/
def Mach.releaseRound (m : Mach) (c : CoreId) (r : Round) (res : Nat × Nat) : Mach :=
  let pending := r.pending.filter (· != c.val)
  let m := if pending.isEmpty then { m with rounds := m.rounds.filter (·.num != r.num) } else m.setRound { r with pending }
  m.onResident c fun m =>
    m.modInst c fun i => { i with arrivals := endArrivals i.arrivals r.num (m.landingOf i.id) res }

/-- The images of instances that were saved between a round's end and its release are marked as well. -/
def Mach.releaseImages (m : Mach) (r : Round) (res : Nat × Nat) : Mach :=
  { m with images := m.images.map fun g =>
      { g with inst := { g.inst with arrivals := endArrivals g.inst.arrivals r.num (m.landingOf g.inst.id) res } } }

/-- A barrier wait of S is tested again. -/
def Mach.wakeBarrier (m : Mach) (c : CoreId) : Mach :=
  m.onResident c fun m =>
    match m.waitOf c .S with
    | some w => match w.kind with | .barrier _ => m.retestS c w.word false | _ => m
    | none => m

/-- BARRIER_RELEASE (R22, R320, R325): a BARW waiting on the core completes. From package scope up the release crosses the
link of the core's die to the IOD. -/
def execBarrierRelease (c : CoreId) (round : Nat) (s : State) : Out :=
  let m := s.mach
  match m.rounds.find? fun r => r.num == round with
  | none => s.to m
  | some r =>
    match r.ended with
    | none => s.to m
    | some res =>
      if 3 ≤ r.scope && !m.iodUsable (dieOf c) then s.to (m.timer 1 (.barrierRelease c round))
      else s.to (((m.releaseRound c r res).releaseImages r res).wakeBarrier c)

end Sys2Proof.Machine
end

