-- ==== Sys2Proof/Machine/Flags.lean ====
section
/-! DEFINITION. The FLAGS copies of the engines and the rounding of S and V results (R71–R75, R82–R84). -/

namespace Sys2Proof.Machine
open Sys2Proof

/-- The copy of FLAGS of an engine. -/
def Inst.flagsOf (i : Inst) (e : Eng) : BitVec 6 := i.flags.get (Fin.ofNat 4 (engCode e))

/-- Set sticky flags in an engine's copy (R82). -/
def Inst.addFlags (i : Inst) (e : Eng) (f : BitVec 6) : Inst :=
  { i with flags := vset i.flags (Fin.ofNat 4 (engCode e)) (i.flagsOf e ||| f) }

/-- Raise the flags of a word of S or V: ARITH with every flag it would raise when one of them is
enabled in TRAPEN, before anything is written (R84). M and X never trap on flags. -/
def raiseFlags (c : CoreId) (e : Eng) (f : BitVec 6) : Run Unit := do
  let i ← getInst c
  if (e = .S || e = .V) && f &&& i.s.trapen ≠ 0 then trap .arith f.toNat
  setInst c fun i => i.addFlags e f

/-- RMODE.MODE of S and V. -/
def Seq.mode (s : Seq) : RMode := rmodeOf s.rmode.toNat

/-- Set a stochastic generator (R72). -/
def Inst.setGen (i : Inst) (ch : Fin 11) (g : W32) : Inst := { i with gens := vset i.gens ch g }

/-- Seed all eleven generators from SEED (R72). -/
def seedAll (seed : W32) : Vector W32 11 := Vector.ofFn fun (k : Fin 11) => seedState seed k.val

/-- The FP32 result of a word of S: its rounding, its draw and its flags (R129). -/
def sRound (c : CoreId) (x : XNum × BitVec 6) : Run W64 := do
  let i ← getInst c
  let (r, g) := roundFmt x.1 .fp32 i.s.mode false (i.gens.get 0)
  raiseFlags c .S (r.flags ||| x.2)
  setInst c fun i => i.setGen 0 g
  return BitVec.ofNat 64 r.code

end Sys2Proof.Machine
end

