-- ==== Sys2Proof/Machine/Csr.lean ====
section
/-! DEFINITION. The user CSRs (R45, Table 2.6): reads, the checks of a write, and writes, shared by the
CSR words and the debugger. -/

namespace Sys2Proof.Machine
open Sys2Proof

/-- The penalty of an instance (R303). -/
def penaltyOf (s : Seq) : Nat := min 8 (2 * (s.spinCount.toNat / s.spinLimit.toNat))

/-- The instances, resident or saved, of a team of one run. -/
def Mach.teamInsts (m : Mach) (launch run team : Nat) : List Inst :=
  let mine := fun (i : Inst) => i.id.launch == launch && i.id.run == run && i.id.team == team
  (((List.finRange 48).filter fun c => (m.core c).resident).map fun c => m.inst c).filter mine
    ++ (m.images.map (·.inst)).filter mine

/-- The penalty of a team: the largest among its members that have not completed EXIT (R299). -/
def Mach.teamPenalty (m : Mach) (launch run team : Nat) : Nat :=
  ((m.teamInsts launch run team).filter fun i => !i.s.st.ended).foldl (fun p i => max p (penaltyOf i.s)) 0

/-- E of R299. -/
def Mach.effective (m : Mach) (ctx launch run team base : Nat) : Nat :=
  min 23 (base + (m.ctx ctx).boost.val - m.teamPenalty launch run team)

/-- FLAGS as S reads it (R82): the OR of the four copies, and TRAPEN. -/
def Inst.flagsWord (i : Inst) : Nat :=
  (i.flagsOf .S ||| i.flagsOf .V ||| i.flagsOf .M ||| i.flagsOf .X).toNat + i.s.trapen.toNat * 2 ^ 8

/-- The value of a user CSR; none where the number is not assigned. -/
def Mach.csrRead (m : Mach) (c : CoreId) (n : Nat) : Option W64 :=
  let i := m.inst c
  let q := i.s
  let id := i.id
  (match n with
  | 0x001 => some i.flagsWord
  | 0x002 => some (q.rmode.toNat + q.seed.toNat * 2 ^ 32)
  | 0x003 => some ((if q.stsat then 1 else 0) + (if q.arsat then 2 else 0))
  | 0x010 => some q.spinLimit.toNat
  | 0x011 => some (q.spinCount.toNat + penaltyOf q * 2 ^ 32)
  | 0x012 => some (id.prio + (m.ctx id.ctx.val).boost.val * 2 ^ 4
      + m.teamPenalty id.launch id.run id.team * 2 ^ 8
      + m.effective id.ctx.val id.launch id.run id.team id.prio * 2 ^ 12)
  | 0x013 => some id.gang
  | 0x020 => some (id.num + id.run * 2 ^ 16 + id.tidx * 2 ^ 18)
  | 0x021 => some (id.instn + id.tsize * 2 ^ 17)
  | 0x022 => some c.val
  | 0x023 => some (dieOf c).val
  | 0x024 => some m.pkg.toNat
  | 0x025 => some (groupOf c)
  | 0x030 => some q.lstages.toNat
  | 0x031 => some q.rrb.toNat
  | 0x038 => some (q.loops.get 0).lcnt.toNat
  | 0x039 => some (q.loops.get 1).lcnt.toNat
  | 0x03A => some (q.loops.get 2).lcnt.toNat
  | 0x03B => some (q.loops.get 3).lcnt.toNat
  | 0x060 => some m.cycle
  | 0x070 => some q.tvec.toNat
  | 0x071 => some (q.tcode.toNat + q.tstrm.toNat * 2 ^ 8 + q.ten.toNat * 2 ^ 17)
  | 0x072 => some q.tpc.toNat
  | 0x073 => some q.tval.toNat
  | 0x074 => some q.restart.toNat
  | 0x080 => some q.scaleOff.toNat
  | 0x081 => some q.prefetch.toNat
  | _ =>
    if 0x040 ≤ n && n ≤ 0x047 then some (i.x.tdone.get (Fin.ofNat 8 n)).toNat
    else if 0x048 ≤ n && n ≤ 0x04F then some (i.x.tissue.get (Fin.ofNat 8 n)).toNat
    else none).map (BitVec.ofNat 64)

/-- Whether a CSR may be written (Table 2.6). -/
def csrWritable (n : Nat) : Bool :=
  [0x001, 0x002, 0x003, 0x010, 0x030, 0x031, 0x038, 0x039, 0x03A, 0x03B, 0x070, 0x071, 0x072, 0x073, 0x074
    , 0x080, 0x081].contains n

/-- A written value that the CSR accepts: its reserved fields zero and its own rules kept (R142). -/
def csrAccepts (n v : Nat) : Bool :=
  match n with
  | 0x001 => fld v 6 2 == 0 && fld v 14 50 == 0
  | 0x002 => fld v 3 29 == 0 && decide (fld v 0 3 ≤ 4)
  | 0x003 => fld v 2 62 == 0
  | 0x010 => fld v 16 48 == 0 && v != 0
  | 0x030 => fld v 4 60 == 0 && decide (1 ≤ v) && decide (v ≤ 8)
  | 0x031 => fld v 4 60 == 0
  | 0x038 | 0x039 | 0x03A | 0x03B => fld v 40 24 == 0
  | 0x070 | 0x072 => fld v 0 2 == 0
  | 0x071 => fld v 10 7 == 0 && fld v 31 33 == 0 && !v.testBit 28
  | 0x073 => true
  | 0x074 => fld v 16 48 == 0
  | 0x080 => fld v 0 12 == 0 && fld v 57 7 == (if v.testBit 56 then 127 else 0)
  | 0x081 => fld v 21 43 == 0
  | _ => false

/-- Write a user CSR other than FLAGS. -/
def Inst.csrPut (i : Inst) (n v : Nat) : Inst :=
  let q := i.s
  let b := BitVec.ofNat 64 v
  match n with
  | 0x002 =>
    let seed := BitVec.ofNat 32 (v / 2 ^ 32)
    { i with s := { q with rmode := BitVec.ofNat 3 v, seed }, gens := seedAll seed }
  | 0x003 => { i with s := { q with stsat := v.testBit 0, arsat := v.testBit 1 } }
  | 0x010 => { i with s := { q with spinLimit := BitVec.ofNat 16 v } }
  | 0x030 => { i with s := { q with lstages := BitVec.ofNat 4 v } }
  | 0x031 => { i with s := { q with rrb := BitVec.ofNat 4 v } }
  | 0x038 | 0x039 | 0x03A | 0x03B =>
    let k : Fin 4 := Fin.ofNat 4 (n - 0x038)
    { i with s := { q with loops := vset q.loops k { q.loops.get k with lcnt := BitVec.ofNat 40 v } } }
  | 0x070 => { i with s := { q with tvec := b } }
  | 0x071 => { i with s := { q with
      tcode := BitVec.ofNat 8 v, tstrm := BitVec.ofNat 2 (v / 2 ^ 8), ten := BitVec.ofNat 14 (v / 2 ^ 17) } }
  | 0x072 => { i with s := { q with tpc := b } }
  | 0x073 => { i with s := { q with tval := b } }
  | 0x074 => { i with s := { q with
      rcol := BitVec.ofNat 6 v, rrow := BitVec.ofNat 6 (v / 2 ^ 6), rstrm := BitVec.ofNat 2 (v / 2 ^ 12)
      rvalid := v.testBit 14, snr := v.testBit 15 } }
  | 0x080 => { i with s := { q with scaleOff := b } }
  | 0x081 => { i with s := { q with prefetch := BitVec.ofNat 21 v } }
  | _ => i

/-- How a CSR word writes. -/
inductive CsrOp where
  | write | set | clear
  deriving DecidableEq, Repr

/-- Write FLAGS (R82): CSRW sets S's copy and clears the others, CSRSET sets the named bits in S's
copy, CSRCLR clears them in all four; TRAPEN is written normally. -/
def Inst.flagsPut (i : Inst) (op : CsrOp) (named new : Nat) : Inst :=
  let b := BitVec.ofNat 6 named
  let flags : Vector (BitVec 6) 4 :=
    match op with
    | .write => #v[BitVec.ofNat 6 new, 0, 0, 0]
    | .set => vset i.flags 0 (i.flags.get 0 ||| b)
    | .clear => i.flags.map fun f => f &&& ~~~b
  { i with flags, s := { i.s with trapen := BitVec.ofNat 6 (new / 2 ^ 8) } }

/-- The check of a CSR number before any other effect (R45, R142). -/
def csrNumber (c : CoreId) (word : Instr) (n : Nat) : Run W64 := do
  if 0x100 ≤ n && n ≤ 0x3FF then trap .privilege (wordOf word)
  match (← get).csrRead c n with
  | some v => return v
  | none => trap .illegal (wordOf word)

/-- CSRW, CSRSET and CSRCLR (R142). s[d] is the register that d names before the write, for a change of RRB takes
effect from the next S word (R118). -/
def csrChange (c : CoreId) (word : Instr) (op : CsrOp) (d a : Reg) (csr : BitVec 12) : Run Flow := do
  let n := csr.toNat
  let old ← csrNumber c word n
  let src := (← getInst c).s.get a
  require (csrWritable n) .illegal (wordOf word)
  let new := match op with | .write => src | .set => old ||| src | .clear => old &&& ~~~src
  require (csrAccepts n new.toNat) .illegal (wordOf word)
  setInst c fun i =>
    let i := if op = .write then i else { i with s := i.s.put d old }
    if n = 0x001 then i.flagsPut op src.toNat new.toNat else i.csrPut n new.toNat
  return .fall

end Sys2Proof.Machine
end

