-- ==== Sys2Proof/Machine/Operands.lean ====
section
/-! DEFINITION. Parameter records (R51), elements of global pages (R65, R66) and the operands of V: views (R150, R151), masks (R164), ports with their walks, slots and
latches (R157–R163), the scalar queue (R49), and the values they give at a position (R153). -/

namespace Sys2Proof.Machine
open Sys2Proof

/-- TVAL of a rejected operand (R185). -/
def rejectedVal (word : Instr) (k : Nat) : Nat := wordOf word + 2 ^ 32 + 2 ^ 35 + k * 2 ^ 36

/-! ## Views -/

/-- A view descriptor's fields, the counts as counts (Table 6.1). -/
structure ViewD where
  off : Nat
  pitch : Nat
  ar : Nat
  ac : Nat
  vr : Nat
  vc : Nat
  fmt : Fmt
  deriving DecidableEq, Repr

def viewD (d : W64) : ViewD :=
  let n := d.toNat
  { off := fld n 0 14 * 16, pitch := fld n 14 10 * 16, ar := fld n 24 6 + 1, ac := fld n 30 6 + 1
    vr := fld n 36 6 + 1, vc := fld n 42 6 + 1, fmt := if n.testBit 48 then .bf16 else .fp32 }

/-- Tile-store offset of element (r, c) (R150). -/
def ViewD.at (v : ViewD) (r c : Nat) : Nat := v.off + r * v.pitch + c * v.fmt.size

/-- Check 1 of R151. -/
def viewShapeOk (d : W64) : Bool :=
  let v := viewD d
  decide (d.toNat < 2 ^ 49) && decide (1 ≤ v.pitch) && decide (v.ac * v.fmt.size ≤ v.pitch)
    && decide (v.vr ≤ v.ar) && decide (v.vc ≤ v.ac)

/-- The lowest offset of a tile at or above a footprint (check 2 of R151). -/
def viewBreach (v : ViewD) (foot : Nat) : Option Nat :=
  (List.range v.ar).findSome? fun r =>
    if v.at r 0 + v.ac * v.fmt.size ≤ foot then none else some (max (v.at r 0) foot)

/-- The code of a view element. -/
def Vec.tileAt (v : Vec) (off n : Nat) : Nat := leNat (cellsRead v.tile off n)

/-- The view that a field names; a null view is a rejected operand (R151). -/
def needView (c : CoreId) (word : Instr) (n : Fin 16) : Run ViewD := do
  let d := (← getInst c).v.views.get n
  require (d != 0) .illegal (rejectedVal word 0)
  return viewD d

/-! ## Masks -/

/-- Bit (r, c) of a mask; m0 is all ones (R164). -/
def Vec.maskBit (v : Vec) (k : Fin 8) (r c : Nat) : Bool :=
  if k = 0 then true else (v.masks.get (Fin.ofNat 7 (k.val - 1))).getLsbD (r * 64 + c)

/-- A mask from its bits. -/
def maskOf (f : Nat → Nat → Bool) : BitVec 4096 :=
  (List.range 64).foldr (fun r acc =>
    (List.range 64).foldr (fun c acc => (acc <<< 1) ||| (if f r c then 1#4096 else 0#4096)) acc) 0#4096

/-- Write mask k, 1–7. -/
def Inst.setMask (i : Inst) (k : Fin 8) (b : BitVec 4096) : Inst :=
  if k = 0 then i else { i with v := { i.v with masks := vset i.v.masks (Fin.ofNat 7 (k.val - 1)) b } }

/-! ## Ports (R157–R161) -/

/-- A port descriptor's fields (Table 6.3). -/
structure PortD where
  base : Nat
  cbm : Bool
  write : Bool
  fmt : Nat
  geo : Nat
  rlen : Nat
  cslot : Nat
  sbase : Nat
  counts : List Nat
  strides : List Int
  deriving DecidableEq, Repr

/-- A field of n bits read as a signed number. -/
def sfld (w lo n : Nat) : Int :=
  let v := fld w lo n
  if v.testBit (n - 1) then (v : Int) - 2 ^ n else v

def portD (d : Vector W64 6) : PortD :=
  let e0 := (d.get 0).toNat
  let lv := [(d.get 2).toNat, (d.get 3).toNat, (d.get 4).toNat, (d.get 5).toNat]
  { base := fld e0 0 22, cbm := e0.testBit 22, write := e0.testBit 23, fmt := fld e0 24 4, geo := fld e0 28 2
    rlen := fld e0 30 6 + 1, cslot := fld e0 36 3, sbase := fld (d.get 1).toNat 0 22
    counts := lv.map fun w => fld w 0 16 + 1, strides := lv.map fun w => sfld w 16 32 }

/-- Twice the size in bytes of an element of an FMT code, so that CODE4 is 1. -/
def halfBytes (fmt : Nat) : Nat :=
  match fmt with
  | 1 => 8 | 2 => 4 | 3 => 4 | 6 => 1 | _ => 2

/-- N of R159. -/
def PortD.rows (p : PortD) : Nat := p.counts.foldl (· * ·) 1

/-- Σ i_k × STRIDE_k of R159, for the levels from k on and the position divided by the counts below. -/
def walkOff : List Nat → List Int → Nat → Int
  | n :: ns, st :: sts, j => (j % n : Nat) * st + walkOff ns sts (j / n)
  | _, _, _ => 0

/-- row_addr(j) − BASE. -/
def PortD.off (p : PortD) (j : Nat) : Int := walkOff p.counts p.strides j

/-- The address of element c of the row at an offset, counted from BASE's origin (R159). -/
def PortD.elemAddr (p : PortD) (row : Int) (c : Nat) : Int := row + (c * halfBytes p.fmt / 2 : Nat)

/-- The address of the scale of element c of the row at an offset (R159). -/
def PortD.scaleAddr (p : PortD) (off : Int) (c : Nat) : Int :=
  let b : Int := if p.geo = 1 then 32 else 16
  p.sbase + (off * 2 / (halfBytes p.fmt : Int) + c) / b

/-- Check 1 of R158: the entry that offends. A nonzero SBASE with GEO = 0, which Table 6.3 gives as zero and no check
names, is accepted (DESIGN CHOICE, notes/assumptions/122.md). -/
def portReserved (d : Vector W64 6) : Option Nat :=
  let p := portD d
  let e0 := (d.get 0).toNat
  if fld e0 39 25 ≠ 0 || (p.cbm && (fld e0 4 18 ≠ 0 || p.write)) then some 0
  else if fld (d.get 1).toNat 22 42 ≠ 0 then some 1
  else (List.range 4).findSome? fun k =>
    if fld ((d.get (Fin.ofNat 6 (2 + k))).toNat) 48 16 ≠ 0 then some (2 + k) else none

/-- Check 2 of R158. -/
def PortD.formatOk (p : PortD) : Bool :=
  decide (1 ≤ p.fmt) && decide (p.fmt ≤ 6) && decide (p.geo ≤ 2)
    && (p.geo == 0 || (decide (4 ≤ p.fmt) && !p.cbm)) && (!p.write || decide (p.fmt ≤ 5))

/-- Check 3 of R158: the first value that is not a multiple of the element size. -/
def PortD.misaligned (p : PortD) : Option Int :=
  let w : Int := if p.fmt = 1 then 4 else if p.fmt = 2 || p.fmt = 3 then 2 else 1
  if p.cbm then none else (((p.base : Int) :: p.strides).find? fun v => v % w != 0)

/-- The port that a read or a write names: unset, against its DIR, or on an unconfigured buffer it is a
rejected operand (R163, R185, R241). -/
def needPort (c : CoreId) (word : Instr) (n : Fin 8) (write : Bool) : Run Unit := do
  let i ← getInst c
  let p := i.v.ports.get n
  let d := portD p.desc
  let ok := p.isSet && d.write == write && (!d.cbm || (i.x.cbs.get (Fin.ofNat 16 d.base)).ready)
  require ok .illegal (rejectedVal word 0)

/-! ## Reading rows -/

/-- An address of 64 bits that holds a signed offset. -/
def addr64 (a : Int) : Nat := (a % 2 ^ 64).toNat

/-- Local bytes with a residency flag for each: zeros where they are not resident (R162). -/
def lReadFlags (c : CoreId) (a n : Nat) : Run (List (Byte × Bool)) := do
  let mut out : List (Byte × Bool) := []
  for (s, k) in lineSegs a n do
    match ← localReady c (some .V) s with
    | none => out := out ++ (cellsRead (← getInst c).pad.bytes s k).map fun b => (b, false)
    | some _ => out := out ++ List.replicate k (0, true)
  return out

/-- The codes of a row's elements with their residency flags, from its bytes. -/
def rowElems (fmt n : Nat) (l : List (Byte × Bool)) : List (Nat × Bool) :=
  (List.range n).map fun c =>
    let h := halfBytes fmt
    let bytes := (l.drop (c * h / 2)).take (max 1 (h / 2))
    let v := leNat (bytes.map Prod.fst)
    let v := if fmt = 6 then (if c % 2 = 1 then v / 16 else v % 16) else v
    let flag := bytes.any Prod.snd
    (if flag then 0 else v, flag)

/-- The bytes that a row of n elements spans. -/
def rowBytes (fmt n : Nat) : Nat := (n * halfBytes fmt + 1) / 2

/-- The scale bytes of a row: none for each element of an unscaled port. -/
def rowScales (c : CoreId) (p : PortD) (off : Int) (part : Nat) : Run (List (Option Byte)) := do
  if p.geo = 0 then return List.replicate p.rlen none
  let addrs := (List.range p.rlen).map fun k => p.scaleAddr off k
  match addrs.find? fun a => decide (a < 0) || decide ((part : Int) ≤ a) with
  | some a => trap .protection (addr64 a)
  | none => pure ()
  let mut out : List (Option Byte) := []
  for a in addrs do
    let l ← lReadFlags c a.toNat 1
    out := out ++ [l.head?.map Prod.fst]
  return out

/-- Read the row at an offset, from a base address and within a limit (R159, R161). -/
def readRow (c : CoreId) (p : PortD) (origin limit : Nat) (shift : Nat) (off : Int) : Run (List LatchElem) := do
  let row : Int := off + shift
  let n := rowBytes p.fmt p.rlen
  if row < 0 then trap .protection (addr64 row)
  require (decide (row.toNat + n ≤ limit)) .protection (max row.toNat limit)
  let part := (← getInst c).id.part
  let bytes ← lReadFlags c (origin + row.toNat) n
  let scales ← rowScales c p off part
  return ((rowElems p.fmt p.rlen bytes).zip scales).map fun ((code, flag), scale) => { code, scale, flag }

/-- Change a port. -/
def setPort (c : CoreId) (n : Fin 8) (f : Port → Port) : Run Unit :=
  setInst c fun i => { i with v := { i.v with ports := vset i.v.ports n (f (i.v.ports.get n)) } }

/-- Change a circular buffer. -/
def Inst.setCb (i : Inst) (k : Fin 16) (f : CBuf → CBuf) : Inst :=
  { i with x := { i.x with cbs := vset i.x.cbs k (f (i.x.cbs.get k)) } }

/-- The state of a slot. -/
def CBuf.slotAt (b : CBuf) (k : Nat) : SlotState := (b.slots[k]?).getD .free

/-- A reader takes the slot at the reader head (R241): it waits while that slot is not filled. -/
def takeFilled (c : CoreId) (k : Fin 16) : Run Nat := do
  let b := (← getInst c).x.cbs.get k
  match b.slotAt b.rh with
  | .filled =>
    setInst c fun i => i.setCb k fun b => { b with slots := b.slots.set b.rh .held, rh := (b.rh + 1) % b.n }
    return b.rh
  | _ => waitFor (.retry 5 k.val)

/-- A slot becomes free. -/
def Inst.releaseSlot (i : Inst) (k : Fin 16) (slot : Nat) : Inst :=
  i.setCb k fun b => { b with slots := b.slots.set slot .free }

/-- Pop one row of a read port into its latch (R159–R163). -/
def popRow (c : CoreId) (n : Fin 8) : Run (List LatchElem) := do
  let i ← getInst c
  let p := i.v.ports.get n
  let d := portD p.desc
  require (d.formatOk) .format 0
  let row ←
    if d.cbm then
      let k : Fin 16 := Fin.ofNat 16 d.base
      let slot ← match p.held with | some s => pure s | none => takeFilled c k
      let b := i.x.cbs.get k
      let row ← readRow c d (b.base + slot * b.slot) b.slot 0 (d.off p.j)
      if p.j + 1 = d.rows then
        setInst c fun i => i.releaseSlot k slot
        setPort c n fun p => { p with j := 0, held := none }
      else setPort c n fun p => { p with j := p.j + 1, held := some slot }
      pure row
    else
      let row ← readRow c d 0 i.id.part d.base (d.off p.j)
      setPort c n fun p => { p with j := (p.j + 1) % d.rows }
      pure row
  setPort c n fun p => { p with latch := some row }
  return row

/-- Read a row for a field: a hinted field reads the latch unless it is empty (R113, R160). -/
def portRow (c : CoreId) (n : Fin 8) (hint : Bool) : Run (List LatchElem) := do
  match hint, ((← getInst c).v.ports.get n).latch with
  | true, some row => return row
  | _, _ => popRow c n

/-! ## Decoding -/

/-- The value of a code of FMT 1–6; a CODE4 code is read through a codebook (R62, R64, R70). -/
def decodeCode (fmt code : Nat) (book : Vector W16 16) : XNum × BitVec 6 :=
  match fmtOfCode fmt with
  | some f => decodeFloat f code
  | none => (ofBf16 (book.get (Fin.ofNat 16 code)).toNat, 0)

/-- Apply a scale where there is one. -/
def scaled (x : XNum × BitVec 6) : Option Byte → XNum × BitVec 6
  | none => x
  | some s =>
    let y := applyScale x.1 s
    (y.1, x.2 ||| y.2)

/-- The value of a latched element: one that is not resident is +0 (R162). -/
def LatchElem.value (e : LatchElem) (fmt : Nat) (book : Vector W16 16) : XNum × BitVec 6 :=
  if e.flag then (.zero, 0) else scaled (decodeCode fmt e.code book) e.scale

/-- The codebook slot of a context. -/
def Ctx.book (x : Ctx) (n : Nat) : Vector W16 16 := x.codebooks.get (Fin.ofNat 8 n)

/-! ## Sources (R153) -/

/-- A source as read: a view of a tile, a port's rows with its format and codebook, or a value. -/
inductive SrcVal where
  | tile (v : ViewD) (t : Vec)
  | rows (fmt rlen : Nat) (book : Vector W16 16) (rows : List (List LatchElem))
  | const (x : XNum)

/-- The value at (r, c) and the flags that decoding it raises. -/
def SrcVal.get (x : SrcVal) (r c : Nat) : XNum × BitVec 6 :=
  match x with
  | .tile v t => if r < v.vr && c < v.vc then decodeFloat v.fmt (t.tileAt (v.at r c) v.fmt.size) else (.zero, 0)
  | .rows fmt rlen book l =>
    if c < rlen then
      match (l[r]?).bind (·[c]?) with
      | some e => e.value fmt book
      | none => (.zero, 0)
    else (.zero, 0)
  | .const x => (x, 0)

/-- The checks of a source field (step 2 of R186): the view, if it names one. -/
def checkSrc (c : CoreId) (word : Instr) : Src → Run (Option ViewD)
  | .view n => do return some (← needView c word n)
  | .port n => do
    needPort c word n false
    return none
  | .sq => return none

/-- Pop n entries of the scalar queue (R49): V waits until they are there, and traps once S has
exited (R288). -/
def popSq (c : CoreId) (n : Nat) : Run (List W64) := do
  let i ← getInst c
  if i.s.sq.length < n then
    if i.s.st.ended then trap .tokenOrphan 0x18 else waitFor .sqEmpty
  setInst c fun i => { i with s := { i.s with sq := i.s.sq.drop n } }
  return i.s.sq.take n

def Src.takesSq : Src → Nat | .sq => 1 | _ => 0

/-- Pop rows for the fields that are ports, a before b at each row (R160). -/
def popRows (c : CoreId) (a b : Option (Fin 8 × Bool)) : Nat → Run (List (List LatchElem) × List (List LatchElem))
  | 0 => return ([], [])
  | n + 1 => do
    let x ← match a with | some (p, h) => do pure [← portRow c p h] | none => pure []
    let y ← match b with | some (p, h) => do pure [← portRow c p h] | none => pure []
    let (xs, ys) ← popRows c a b n
    return (x ++ xs, y ++ ys)

/-- The port of a field with its hint. -/
def Src.portOf (x : Src) (hint : Bool) : Option (Fin 8 × Bool) :=
  match x with | .port n => some (n, hint) | _ => none

/-- Steps 3 and 4 of R186 for one or two source fields over a number of rows. -/
def readSrcs (c : CoreId) (a : Src) (b : Option Src) (ra rb : Bool) (rows : Nat) : Run (SrcVal × SrcVal) := do
  let na := Src.takesSq a
  let nb := match b with | some x => Src.takesSq x | none => 0
  let sq ← popSq c (na + nb)
  let (xa, xb) ← popRows c (Src.portOf a ra) (b.bind fun x => Src.portOf x rb) rows
  let m ← get
  let i := m.inst c
  let x := m.ctx i.id.ctx.val
  let make := fun (s : Src) (rows : List (List LatchElem)) (q : Option W64) =>
    match s with
    | .view n => SrcVal.tile (viewD (i.v.views.get n)) i.v
    | .port n =>
      let d := portD (i.v.ports.get n).desc
      SrcVal.rows d.fmt d.rlen (x.book d.cslot) rows
    | .sq => SrcVal.const (ofFp32 (fld (q.getD 0).toNat 0 32))
  return (make a xa sq.head?, match b with | some y => make y xb (sq.drop na).head? | none => .const .zero)

/-! ## Parameter records (R51) -/

/-- The 32 bytes of a record at rec × 32, read by a word of M or X. -/
def readRecord (c : CoreId) (e : Eng) (rec : BitVec 17) : Run (List Byte) := do
  let a := rec.toNat * 32
  localBound c a 32
  return (← lRead c (some e) a 32).1

/-- A field of n bytes of a record. -/
def recField (l : List Byte) (o n : Nat) : Nat := leNat ((l.drop o).take n)
/-- A signed field of 4 bytes. -/
def recInt (l : List Byte) (o : Nat) : Int := sfld (recField l o 4) 0 32

/-- TVAL of a rejected record of M or X (R205, R235). -/
def recordVal (word : Instr) (e : Eng) (off : Nat) : Nat :=
  wordOf word + engCode e * 2 ^ 32 + 2 ^ 35 + off / 4 * 2 ^ 36

/-- The checks of a record's fields, by ascending offset. -/
def checkFields (word : Instr) (e : Eng) (l : List (Nat × Bool)) : Run Unit :=
  match l.find? fun f => !f.2 with
  | some f => trap .illegal (recordVal word e f.1)
  | none => pure ()

/-! ## Elements of global pages (R65, R66) -/

/-- Half-byte h lies at byte h ÷ 2. -/
def nibByte (h : Int) : Nat := addr64 (h / 2)

/-- The page of an element of a global operand and the address as relocated. -/
def elemPage (c : CoreId) (who : PStream) (va : Nat) (need : Right) : Run (Page × Nat) := do
  require (isCanon va) .protection va
  let r := relocate (← getInst c).id va
  let p ← translate c who r va need
  require (p.allows need) .protection va
  return (p, r)

/-- The scale of the element that starts at a half-byte of a scaled page (R66), under the SCALE_OFFSET that the word
read when it started (R85); none on an unscaled one. A scale page that is not resident reads as zero. -/
def pageScale (c : CoreId) (who : PStream) (p : Page) (va r : Nat) (half : Bool) (fmt : Nat) (so : W64) :
    Run (Option Byte) := do
  if p.geo = 0 then return none
  require (p.geo != 3 && decide (4 ≤ p.fmt) && decide (p.fmt ≤ 6)) .format va
  let block := if p.geo = 1 then 32 else 16
  let o := (r - p.base) * 2 + (if half then 1 else 0)
  let sva := addr64 ((p.base : Int) + so.toInt + (o / (halfBytes fmt * block) : Nat))
  require (isCanon sva) .format sva
  let m ← get
  match m.lookup c who sva with
  | (none, m') => set m'; trap .format sva
  | (some q, m') =>
    set m'
    require (q.fmt == 8) .format sva
    require q.rd .protection sva
    if q.mode = 3 || m'.moving q then stallOn c q (.core c who) sva
    if !q.p then return some 0
    if q.mode = 2 then countOne c q (.core c who) sva
    modify fun m => m.charge c q sva
    let k := (← get).pageKey q sva
    if (← get).poison.contains (k / 64) then throw (.park .protection (BitVec.ofNat 64 sva))
    return ((← get).bytes k 1).head?

/-- The positions of a shape in row-major order. -/
def positions (ir ic : Nat) : List (Nat × Nat) :=
  (List.range ir).flatMap fun r => (List.range ic).map fun c => (r, c)

end Sys2Proof.Machine
end

