-- ==== Sys2Proof/Machine/SFlow.lean ====
section
/-! DEFINITION. The branches, jumps and loop words of S (R130–R136). -/

namespace Sys2Proof.Machine
open Sys2Proof

/-- Check 5 of R135: a control word is not the last word of an active body. -/
def notBodyEnd (c : CoreId) (word : Instr) : Run Seq := do
  let q := (← getInst c).s
  require (!q.atBodyEnd) .illegal (structVal word)
  return q

/-- The target of a branch (R130). -/
def branchTarget (pc : W64) (off : BitVec 15) : W64 := pc + sextTo64 off * 4

/-- A branch (R130): taken where its condition holds. -/
def branchWord (s : State) (word : Instr) (off : BitVec 15) (cond : Seq → Bool) : Out :=
  s.sRun word fun c => do
    let q ← notBodyEnd c word
    return if cond q then .jump (branchTarget q.st.pc off) else .fall

/-- BEQ (R130). -/
def execBeq (a b : Reg) (off : BitVec 15) (s : State) : Out :=
  branchWord s (.beq a b off) off fun q => q.get a == q.get b

/-- BNE (R130). -/
def execBne (a b : Reg) (off : BitVec 15) (s : State) : Out :=
  branchWord s (.bne a b off) off fun q => q.get a != q.get b

/-- BLT (R130). -/
def execBlt (a b : Reg) (off : BitVec 15) (s : State) : Out :=
  branchWord s (.blt a b off) off fun q => (q.get a).slt (q.get b)

/-- BGE (R130). -/
def execBge (a b : Reg) (off : BitVec 15) (s : State) : Out :=
  branchWord s (.bge a b off) off fun q => !(q.get a).slt (q.get b)

/-- BLTU (R130). -/
def execBltu (a b : Reg) (off : BitVec 15) (s : State) : Out :=
  branchWord s (.bltu a b off) off fun q => (q.get a).ult (q.get b)

/-- BGEU (R130). -/
def execBgeu (a b : Reg) (off : BitVec 15) (s : State) : Out :=
  branchWord s (.bgeu a b off) off fun q => !(q.get a).ult (q.get b)

/-- BPRED (R130). -/
def execBpred (g : Fin 8) (off : BitVec 15) (s : State) : Out :=
  branchWord s (.bpred g off) off fun q => q.preds.getLsbD g.val

/-- JAL (R131). -/
def execJal (d : Reg) (off : BitVec 20) (s : State) : Out :=
  s.sRun (.jal d off) fun c => do
    let q ← notBodyEnd c (.jal d off)
    setInst c fun i => { i with s := i.s.put d (q.st.pc + 4) }
    return .jump (q.st.pc + sextTo64 off * 4)

/-- JALR (R131): the target is read before s[d] is written; a misaligned one changes nothing. -/
def execJalr (d a : Reg) (imm : BitVec 15) (s : State) : Out :=
  s.sRun (.jalr d a imm) fun c => do
    let q ← notBodyEnd c (.jalr d a imm)
    let t := q.get a + sextTo64 imm
    require (t.toNat % 4 == 0) .misaligned t.toNat
    setInst c fun i => { i with s := i.s.put d (q.st.pc + 4) }
    return .jump t

/-- The checks of R135 that LOOP and LOOPI meet. -/
def loopChecks (c : CoreId) (word : Instr) (n : Fin 4) (len : Nat) : Run Seq := do
  let q ← notBodyEnd c word
  let stop := q.st.pc + BitVec.ofNat 64 (4 * len)
  let nested := match q.order with
    | [] => true
    | k :: _ => !(q.loops.get k).contains q.st.pc || decide (stop < (q.loops.get k).stop)
  require (!q.handler && !(q.loops.get n).active && nested) .illegal (structVal word)
  return q

/-- The start of a loop (R133), N > 0. -/
def Seq.startLoop (q : Seq) (n : Fin 4) (rot stg : Bool) (count len : Nat) : Seq :=
  let ls := q.lstages.toNat
  let l : Loop :=
    { active := true, start := q.st.pc + 4, stop := q.st.pc + BitVec.ofNat 64 (4 * len), rot, stg
      lcnt := BitVec.ofNat 40 (if stg then count + ls - 1 else count)
      stages := if stg then q.lstages else 0 }
  { q with
    loops := vset q.loops n l
    order := n :: q.order
    preds := if stg then 1 else q.preds
    rrb := if rot then 0 else q.rrb }

/-- LOOP and LOOPI (R133). -/
def loopWord (c : CoreId) (n : Fin 4) (rot stg : Bool) (count len : Nat) : Run Flow := do
  let pc := (← getInst c).s.st.pc
  if count = 0 then return .goto (pc + BitVec.ofNat 64 (4 * len) + 4)
  setInst c fun i => { i with s := i.s.startLoop n rot stg count len }
  return .goto (pc + 4)

/-- LOOP (R133, R135). -/
def execLoop (n : Fin 4) (rot stg : Bool) (r : Reg) (len : BitVec 16) (s : State) : Out :=
  let word := Instr.loop n rot stg r len
  s.sRun word fun c => do
    let q ← loopChecks c word n len.toNat
    let count := (q.get r).toNat
    require (count < 2 ^ 32) .illegal (structVal word)
    loopWord c n rot stg count len.toNat

/-- LOOPI (R133, R135). -/
def execLoopi (n : Fin 4) (rot stg : Bool) (count : BitVec 12) (len : BitVec 9) (s : State) : Out :=
  let word := Instr.loopi n rot stg count len
  s.sRun word fun c => do
    let _ ← loopChecks c word n len.toNat
    loopWord c n rot stg count.toNat len.toNat

/-- LEAVE (R135, R136): level n and every level that became active after it. -/
def execLeave (n : Fin 4) (s : State) : Out :=
  s.sRun (.leave n) fun c => do
    let q ← notBodyEnd c (.leave n)
    require (!q.handler && (q.loops.get n).active) .illegal (structVal (.leave n))
    let keep := (q.order.dropWhile (· != n)).drop 1
    let gone := q.order.filter (!keep.contains ·)
    setInst c fun i => { i with s := { i.s with
      loops := gone.foldl (fun v k => vset v k (v.get k).ended) i.s.loops
      order := keep } }
    return .goto ((q.loops.get n).stop + 4)

end Sys2Proof.Machine
end

