-- ==== Sys2Proof/Machine/SPage.lean ====
section
/-! DEFINITION. Page requests (R341, R342), PGREQ, PGRES (R343, R344) and PROBE (R348, R349). -/

namespace Sys2Proof.Machine
open Sys2Proof

/-! ## Page requests -/

/-- INST of a record: INST_ID and CORE_ID (Tables 9.7, 14.6). -/
def instWord (i : Ident) (c : Nat) : Nat := i.num + i.run * 2 ^ 16 + i.tidx * 2 ^ 18 + c * 2 ^ 32

/-- The page-request record (Table 14.6). -/
def pageRecord (ctx inst page tag cycle : Nat) (write : Bool) : List Byte :=
  bytesOf 4 3 ++ bytesOf 4 ctx ++ bytesOf 8 inst ++ bytesOf 8 page
    ++ bytesOf 8 ((if write then 1 else 0) + tag * 2 ^ 16) ++ bytesOf 8 cycle ++ bytesOf 24 0

/-- The lowest free TAG a context may take: a reserved one first, then a shared one (R341), which the requests of
write-backs do not take (R347). -/
def freeTag (l : List PgReq) (ctx : Nat) (reserved : Bool := false) : Option Nat :=
  let free := fun t => !l.any (·.tag == t)
  let s := ctx % 256
  match (List.range 8).find? fun k => free (8 * s + k) with
  | some k => some (8 * s + k)
  | none =>
    if reserved then none
    else if (l.filter fun e => e.ctx.val == ctx && decide (2048 ≤ e.tag)).length < 512 then
      ((List.range 2048).find? fun k => free (2048 + k)).map (2048 + ·)
    else none

/-- Post a page-request record to the context's FQUEUE (R342). -/
def Mach.postPage (m : Mach) (ctx : CtxId) (inst page tag : Nat) (write : Bool) : Mach :=
  let x := m.ctx ctx.val
  m.postRecord x.owner x.fqueue (pageRecord ctx.val inst page tag m.cycle write) (some ctx)

/-- Ask for a page (R341–R343): the low bits of the result and the TAG. -/
def Mach.requestPage (m : Mach) (ctx : CtxId) (inst page : Nat) (write : Bool) (reserved : Bool := false) : Nat × Mach :=
  let d := ctxDie ctx.val
  let die := m.die d
  match die.pgreqs.find? fun e => e.ctx == ctx && e.page == page with
  | some e =>
    if write && !e.write then
      let l := die.pgreqs.map fun x => if x.tag = e.tag then { x with write := true } else x
      (3 + e.tag * 2 ^ 16, (m.setDie d { die with pgreqs := l }).postPage ctx inst page e.tag true)
    else (3 + e.tag * 2 ^ 16, m)
  | none =>
    match freeTag die.pgreqs ctx.val reserved with
    | some t =>
      let l := die.pgreqs ++ [{ tag := t, ctx, page, write }]
      (t * 2 ^ 16, (m.setDie d { die with pgreqs := l }).postPage ctx inst page t write)
    | none => (1, m)

/-- PGREQ (R343). -/
def execPgreq (d a : Reg) (write : Bool) (s : State) : Out :=
  s.sRun (.pgreq d a write) fun c => do
    let i ← getInst c
    let va ← needCanon (i.s.get a)
    let m ← get
    let v ← match m.walk i.id.ctx.val va with
      | none => pure 4
      | some p =>
        if !(if write then p.w else p.rd) then pure 4
        else if p.mode = 3 then do
          set (m.startMove i.id.ctx p true)
          pure 5
        else if p.p then pure 2
        else do
          let (r, m) := m.requestPage i.id.ctx (instWord i.id c.val) p.base write
          set m
          pure r
    setInst c fun i => { i with s := i.s.put d (BitVec.ofNat 64 v) }
    return .fall

/-- The SIZE code of a page (Table 14.2). -/
def Page.sizeCode (p : Page) : Nat := if p.size = 2 ^ 21 then 2 else if p.size = 2 ^ 16 then 1 else 0

/-- The value that PGRES writes (R344). -/
def Mach.pageReport (m : Mach) (ctx va : Nat) : Nat :=
  match m.walk ctx va with
  | none => 3
  | some p =>
    let held := (m.die (ctxDie ctx)).pgreqs.any fun e => e.ctx.val == ctx && e.page == p.base
    let st := if p.mode = 3 || m.moving p then 4 else if p.p then 0 else if held then 1 else 2
    st + (if p.w then 8 else 0) + (if p.x then 16 else 0) + (if p.rd then 32 else 0)
      + p.mode * 64 + p.sizeCode * 256 + p.fmt * 1024

/-- PGRES (R344). -/
def execPgres (d a : Reg) (s : State) : Out :=
  s.sRun (.pgres d a) fun c => do
    let i ← getInst c
    let va ← needCanon (i.s.get a)
    let v := (← get).pageReport i.id.ctx.val va
    setInst c fun i => { i with s := i.s.put d (BitVec.ofNat 64 v) }
    return .fall

/-! ## PROBE -/

/-- The three bits of a set, b0 lowest; the set is named by its first slot's local address. -/
def Pad.plruOf (p : Pad) (set : Nat) : BitVec 3 := (alookup p.plru set).getD 0

/-- Touch of way w (R348). -/
def touchWay (b : BitVec 3) (w : Nat) : BitVec 3 :=
  if w ≤ 1 then (b &&& 4) ||| 1 ||| (if w = 0 then 2 else 0)
  else (b &&& 2) ||| (if w = 2 then 4 else 0)

def Pad.touch (p : Pad) (set w : Nat) : Pad := { p with plru := aset p.plru set (touchWay (p.plruOf set) w) }

/-- The tag of a slot. -/
def Pad.tagAt (p : Pad) (slot : Nat) : Option Tag := p.tags.find? (·.slot == slot)

/-- The victim way of a set (R348). -/
def Pad.victim (p : Pad) (set size : Nat) : Nat :=
  let st := fun w => (p.tagAt (set + w * size)).map (·.state)
  match (List.range 4).find? fun w => st w == none || st w == some .nrvalid with
  | some w => w
  | none =>
    let b := p.plruOf set
    if !b.getLsbD 0 then (if !b.getLsbD 1 then 0 else 1) else (if !b.getLsbD 2 then 2 else 3)

/-- The module before a computation, with the moves and pulls of pages that the computation started and
what it counted on the dies. -/
def Mach.keepMoves (m after : Mach) : Mach :=
  { m with moves := after.moves, timers := after.timers, dies := after.dies }

/-- Restore the module when a computation stops, keeping how it stopped; page moves that it waits for
go on. -/
def orRestore {α : Type} (f : Run α) : Run α := do
  let m ← get
  tryCatch f fun st => do
    modify fun after => m.keepMoves after
    throw st

/-- The trap of an issue that would take id 2^48 (R226, R235). -/
def idValue (word : Nat) : Nat := word + 3 * 2 ^ 32 + 2 ^ 35 + 15 * 2 ^ 36

/-- Take the next id of a channel (R224). -/
def nextId (c : CoreId) (ch : Fin 8) (word : Nat) : Run Nat := do
  let i ← getInst c
  let id := (i.x.tissue.get ch).toNat + 1
  require (decide (id < 2 ^ 48)) .illegal (idValue word)
  setInst c fun i => { i with x := { i.x with tissue := vset i.x.tissue ch (BitVec.ofNat 48 id) } }
  return id

/-- How many transfers a channel holds (R224). -/
def Xunit.holds (x : Xunit) (ch : Fin 8) : Nat := (x.xfers.filter (·.ch == ch)).length

/-- A miss of PROBE: the way is chosen, its written bytes go home, and the fill is issued on ch7. -/
def probeMiss (c : CoreId) (word : Nat) (r : Region) (set n : Nat) : Run Nat := do
  let pad := (← getInst c).pad
  let size := r.bytes
  let at' := fun w => pad.tagAt (set + w * size)
  if (List.range 4).all fun w => (at' w).map (·.state) == some .filling then waitFor (.retry 10 set)
  let w := match (List.range 4).find? fun w => (at' w).map (fun t => (t.block, t.state)) == some (n, .nrvalid) with
    | some w => w
    | none => pad.victim set size
  let slot := set + w * size
  match at' w with
  | some t => orRestore (writeBackAll c [(r, slot, r.gbase + t.block * size)])
  | none => pure ()
  let i ← getInst c
  if 4 ≤ i.x.holds 7 then waitFor (.retry 8 7)
  let id ← nextId c 7 word
  let t : Transfer := { ch := 7, id, kind := .block, body := [], recAddr := n, pc := i.s.st.pc, tag := some slot }
  setInst c fun i =>
    let pad := i.pad.discard r slot
    let tag : Tag := { slot, block := n, state := .filling, fill := id }
    let pad := { pad with tags := pad.tags ++ [tag] }
    { i with pad := pad.touch set w, x := { i.x with xfers := i.x.xfers ++ [t] } }
  return slot

/-- PROBE (R349). -/
def execProbe (d a : Reg) (off : BitVec 15) (s : State) : Out :=
  let word := Instr.probe d a off
  s.sRun word fun c => do
    let q ← notBodyEnd c word
    let g ← needCanon (q.get a)
    let pad := (← getInst c).pad
    match pad.regions.find? fun r => r.cached && decide (r.gbase ≤ g) && decide (g < r.gbase + r.gsize) with
    | none => trap .region g
    | some r =>
      let size := r.bytes
      let n := (g - r.gbase) / size
      let set := r.lbase + (n % (r.size / size / 4)) * 4 * size
      let hit := (List.range 4).find? fun w =>
        match pad.tagAt (set + w * size) with
        | some t => t.block == n && t.state != .nrvalid
        | none => false
      let finish := fun (slot : Nat) => setInst c fun i =>
        { i with s := i.s.put d (BitVec.ofNat 64 (2 ^ 62 + slot + g % size)) }
      match hit with
      | some w =>
        setInst c fun i => { i with pad := i.pad.touch set w }
        finish (set + w * size)
        return .fall
      | none =>
        let slot ← probeMiss c (wordOf word) r set n
        finish slot
        return .jump (branchTarget q.st.pc off)

end Sys2Proof.Machine
end

