-- ==== Sys2Proof/Machine/Submit.lean ====
section
/-! DEFINITION. What a dispatcher does with a launch before its first placement: reading the launch record
and the image header, the checks of Table 11.2, the home dies and the dependences (R58, R277, R278, R281,
R283, R346). -/

namespace Sys2Proof.Machine
open Sys2Proof

/-- The little-endian number of n bytes at an offset. -/
def recNat (l : List Byte) (o n : Nat) : Nat := leNat ((l.drop o).take n)

/-! ## Reads through a context -/

/-- Read bytes of a context's address space; none where a page is unmapped, not readable or not
resident, or a line is poisoned. -/
def Mach.ctxRead (m : Mach) (ctx va n : Nat) : Option (List Byte) :=
  (lineSegs va n).foldl (fun acc s =>
    match acc with
    | none => none
    | some l =>
      match m.walk ctx s.1 with
      | none => none
      | some p =>
        let k := m.pageKey p s.1
        if isCanon s.1 && p.rd && p.p && p.mode ≠ 3 && !m.poison.contains (k / 64) then some (l ++ m.bytes k s.2)
        else none) (some [])

/-! ## The image header (R58) -/

/-- The sections of a header as (offset, bytes, alignment, needed). -/
def headerSections (h : List Byte) : List (Nat × Nat × Nat × Bool) :=
  [(recNat h 0x08 4, 4 * recNat h 0x0C 4, 64, true), (recNat h 0x10 4, 4 * recNat h 0x14 4, 64, true),
    (recNat h 0x18 4, 4 * recNat h 0x1C 4, 64, true), (recNat h 0x20 4, 4 * recNat h 0x24 4, 64, true),
    (recNat h 0x28 4, recNat h 0x2C 4, 32, false), (recNat h 0x30 4, 64 * recNat h 0x34 4, 1, false),
    (recNat h 0x38 4, 256, 64, false), (recNat h 0x40 4, recNat h 0x44 4, 1, false),
    (recNat h 0x48 4, 16 * recNat h 0x4C 4, 1, false)]

/-- Ranges (base, bytes) that do not overlap. -/
def disjointRanges : List (Nat × Nat) → Bool
  | [] => true
  | (a, n) :: t => t.all (fun (b, k) => decide (a + n ≤ b) || decide (b + k ≤ a)) && disjointRanges t

/-- The header is accepted. -/
def headerAccepted (h : List Byte) : Bool :=
  let secs := headerSections h
  recNat h 0 4 == 0x4B534842 && recNat h 4 2 == 1 && recNat h 6 2 == 0 && recNat h 0x3C 4 == 0
    && recNat h 0x50 16 == 0
    && recNat h 0x2C 4 % 32 == 0 && decide (recNat h 0x2C 4 ≤ 65536)
    && secs.all (fun (o, n, al, need) => if n = 0 then o == 0 && !need else o % al == 0)
    && disjointRanges ((0, 96) :: (secs.filter fun (_, n, _, _) => n ≠ 0).map fun (o, n, _, _) => (o, n))

/-- The fields of a header that a launch uses. -/
def imageHdr (h : List Byte) : ImageHdr :=
  { secOff := [recNat h 0x08 4, recNat h 0x10 4, recNat h 0x18 4, recNat h 0x20 4]
    secLen := [recNat h 0x0C 4, recNat h 0x14 4, recNat h 0x1C 4, recNat h 0x24 4]
    paramOff := recNat h 0x28 4, paramLen := recNat h 0x2C 4, schedOff := recNat h 0x30 4
    schedLen := recNat h 0x34 4, viewsOff := recNat h 0x48 4, viewsLen := recNat h 0x4C 4 }

/-! ## The launch record (Table 11.1) -/

/-- A 64-bit field as a signed number. -/
def signed64 (n : Nat) : Int := if n < 2 ^ 63 then n else (n : Int) - 2 ^ 64

/-- The fields of a launch record. -/
def launchRec (l : List Byte) : LRec :=
  let counts := recNat l 0x48 4
  let schedp := recNat l 0x4C 4
  let foot := recNat l 0x50 4
  { image := recNat l 0 8, sptr := [recNat l 0x08 8, recNat l 0x10 8, recNat l 0x18 8, recNat l 0x20 8]
    param := recNat l 0x28 8, sched := recNat l 0x30 8, views := recNat l 0x38 8, regmap := recNat l 0x40 8
    instn := fld counts 0 17 + 1, tsize := fld counts 17 2 + 1, plevel := fld counts 19 2
    gang := fld schedp 0 24, prio := fld schedp 24 4
    tsFoot := fld foot 0 7 * 4096, bsFoot := fld foot 8 6 * 65536, accsets := BitVec.ofNat 3 (fld foot 16 3)
    spfoot := recNat l 0x54 4, scaleOff := BitVec.ofNat 64 (recNat l 0x58 8), nreg := recNat l 0x60 4
    dual := recNat l 0x64 4 == 1, shadow := signed64 (recNat l 0x68 8), outBase := recNat l 0x70 8
    outSize := recNat l 0x78 8, dep0a := recNat l 0x80 8, dep0v := recNat l 0x88 8, dep1a := recNat l 0x90 8
    dep1v := recNat l 0x98 8, compl := recNat l 0xA0 8
    args := (List.range 4).map fun k => BitVec.ofNat 64 (recNat l (0xA8 + 8 * k) 8) }

/-- The partition of a scratchpad footprint (R259). -/
def partitionOf (spfoot : Nat) : Nat :=
  ([16, 17, 18, 19, 20, 21].find? fun k => decide (spfoot ≤ 2 ^ k)).elim (2 ^ 22) (2 ^ ·)

/-- A region-map entry (Table 14.8), where it is well formed. -/
def regionEntry (part paramLen : Nat) (e : List Byte) : Option Region :=
  let gbase := recNat e 0 8
  let lbase := recNat e 8 8
  let size := recNat e 16 4
  let ctrl := recNat e 20 4
  let gsize := recNat e 24 8
  let blk := fld ctrl 1 4
  let b := 2 ^ blk
  let cached := ctrl.testBit 0
  let sets := size / (4 * b)
  let kindOk := if cached then size % (4 * b) == 0 && sets != 0 && 2 ^ Nat.log2 sets == sets && gsize % b == 0
    else gsize == 0
  let ok := decide (ctrl < 32) && decide (8 ≤ blk) && decide (blk ≤ 14) && isCanon gbase && gbase % b == 0
    && decide (lbase < 2 ^ 22) && lbase % b == 0 && decide (size < 2 ^ 23) && size % b == 0
    && kindOk && decide (paramLen ≤ lbase) && decide (lbase + size ≤ part)
  if ok then some { gbase, lbase, size, cached, blk, gsize } else none

/-- The tag entries that regions use (R346). -/
def tagEntries (l : List Region) : Nat := (l.map fun r => if r.cached then r.size / 2 ^ r.blk else 0).sum

/-- The region map of a launch on a die, where it is accepted. -/
def Mach.regionMap (m : Mach) (ctx : Nat) (lr : LRec) (paramLen : Nat) : Option (List Region) :=
  match m.ctxRead ctx lr.regmap (32 * lr.nreg) with
  | none => none
  | some l =>
    let entries := (List.range lr.nreg).map fun k => regionEntry (partitionOf lr.spfoot) paramLen ((l.drop (32 * k)).take 32)
    let rs := entries.filterMap id
    if rs.length = lr.nreg && disjointRanges (rs.map fun r => (r.lbase, r.size)) && decide (tagEntries rs ≤ 4096) then some rs
    else none

/-- The dual-run fields obey Table 11.1 and R292. -/
def dualOk (l : List Byte) (lr : LRec) : Bool :=
  let last := lr.outBase + lr.outSize - 1
  if recNat l 0x64 4 = 1 then
    lr.shadow != 0 && lr.shadow % 2 ^ 21 == 0 && lr.outBase % 4096 == 0 && lr.outSize % 4096 == 0
      && decide (lr.outSize ≤ lr.shadow.natAbs)
      && (lr.outSize == 0 || (isCanon lr.outBase && isCanon last && lr.outBase / 2 ^ 56 == last / 2 ^ 56))
  else recNat l 0x64 4 == 0 && recNat l 0x68 24 == 0

/-- An address field of the launch record that names a word in the window, or zero (R281). -/
def Mach.wordInWindow (m : Mach) (f : FnId) (a : Nat) : Bool :=
  a == 0 || (a % 8 == 0 && m.inWindow f (m.fn f).winSpace a 8)

/-- Every field of a launch record is within Table 11.1; the answer is the region map. -/
def Mach.launchFields (m : Mach) (f : FnId) (ctx : Nat) (l : List Byte) (h : ImageHdr) : Option (List Region) :=
  let lr := launchRec l
  let foot := recNat l 0x50 4
  let ok := decide (recNat l 0x48 4 < 2 ^ 21) && lr.plevel != 3 && !(lr.plevel == 0 && decide (1 < lr.tsize))
    && decide (lr.instn ≤ 65536) && decide (recNat l 0x4C 4 < 2 ^ 28)
    && decide (4096 ≤ lr.tsFoot) && decide (lr.tsFoot ≤ 64 * 4096) && !foot.testBit 7
    && decide (fld foot 8 6 ≤ 32) && fld foot 14 2 == 0 && decide (foot < 2 ^ 19)
    && lr.spfoot % 4096 == 0 && decide (4096 ≤ lr.spfoot) && decide (lr.spfoot ≤ 2 ^ 22) && decide (h.paramLen ≤ lr.spfoot)
    && lr.scaleOff.toNat % 4096 == 0 && isCanon lr.scaleOff.toNat
    && decide (lr.nreg ≤ 32) && lr.regmap % 8 == 0 && dualOk l lr
    && m.wordInWindow f lr.dep0a && m.wordInWindow f lr.dep1a && m.wordInWindow f lr.compl
    && (l.drop 0xC8).all (· == 0)
  if ok then m.regionMap ctx lr h.paramLen else none

/-! ## The checks of Table 11.2 -/

/-- The in-service cores of a stack group of a die. -/
def groupCores (insvc : BitVec 48) (d : DieId) (g : Nat) : List CoreId :=
  ((List.range 4).map fun k => (Fin.ofNat 48 (d.val * 12 + g * 4 + k) : CoreId)).filter fun c => insvc.getLsbD c.val

/-- The stack groups of a die with as many in-service cores as a team needs. -/
def goodGroups (insvc : BitVec 48) (d : DieId) (n : Nat) : Nat :=
  ((List.range 3).filter fun g => decide (n ≤ (groupCores insvc d g).length)).length

/-- The pointers of a launch record equal IMAGE plus the header's offsets. -/
def pointersOk (lr : LRec) (h : ImageHdr) : Bool :=
  let at' := fun (o : Nat) => (lr.image + o) % 2 ^ 64
  lr.sptr == h.secOff.map at' && lr.param == at' h.paramOff && lr.sched == at' h.schedOff && lr.views == at' h.viewsOff

/-- What one die's checks give: a status that fails the launch, or the header and the region map. -/
def Mach.checkDie (m : Mach) (insvc : BitVec 48) (f : FnId) (ctx : CtxId) (l : List Byte) :
    Except Nat (ImageHdr × List Region) :=
  let x := m.ctx ctx.val
  let lr := launchRec l
  let noCtx := match x.st with
    | .free => true | .built => true | .migrating => true | .tearingDown => true | .dead => true | _ => false
  if noCtx then .error 10
  else
    match m.ctxRead ctx.val lr.image 96 with
    | none => .error 2
    | some h =>
      if !headerAccepted h || !pointersOk lr (imageHdr h) then .error 2
      else
        match m.launchFields f ctx.val l (imageHdr h) with
        | none => .error 3
        | some regions =>
          if x.key.isNone then .error 4
          else if goodGroups insvc (ctxDie ctx.val) lr.tsize < (if lr.dual then 2 else 1) then .error 5
          else .ok (imageHdr h, regions)

/-! ## Homes and teams (R283) -/

/-- The number of teams. -/
def LRec.teams (lr : LRec) : Nat := (lr.instn + lr.tsize - 1) / lr.tsize

/-- The teams of a run, each at its home die. -/
def homeTeams (lr : LRec) (dies : List Nat) (run : Nat) : List Team :=
  (List.range lr.teams).map fun t =>
    { num := t, run, die := Fin.ofNat 4 (dies.getD (t * dies.length / lr.teams) 0) }

/-! ## Dependences (R281) -/

/-- A dependence: an address of zero is met. -/
inductive Dep where
  | met | unmet | failed
  deriving DecidableEq, Repr

def Mach.dependence (m : Mach) (f : FnId) (a v : Nat) : Dep :=
  if a = 0 then .met
  else
    let x := m.word (m.fnKey f a)
    if x.testBit 63 then .failed else if v ≤ x then .met else .unmet

/-- The dependence check of a Waiting launch. -/
def Mach.checkDeps (m : Mach) (n : Nat) : Mach :=
  match m.launch n with
  | none => m
  | some l =>
    if l.st ≠ .waiting then m
    else
      let d0 := m.dependence l.fn l.lr.dep0a l.lr.dep0v
      let d1 := m.dependence l.fn l.lr.dep1a l.lr.dep1v
      if d0 = .failed || d1 = .failed then m.failLaunch n 6
      else if d0 = .met && d1 = .met then
        ((m.setLaunch { l with st := .ready, teams := l.teams.map fun t => { t with since := m.cycle } }).settleLaunch l).post
          (l.onDies.map .placementEval)
      else m

/-- DEPENDENCE_CHECK (R281). -/
def execDependenceCheck (l : Nat) (s : State) : Out := s.to (s.mach.checkDeps l)

/-! ## Submission -/

/-- A LAUNCH record reaches the dispatchers of its dies (R278): the lowest-numbered failing die gives the
status. -/
def Mach.submit (m : Mach) (insvc : BitVec 48) (f : FnId) (q : QId) (index tag : Nat) (cpl : Bool) (lrec place : Nat) :
    Mach :=
  let bytes := m.bytes (m.fnKey f lrec) 256
  let lr := launchRec bytes
  let dies := (List.range 4).filter fun d => place.testBit d
  let slots := (List.range 4).map fun d => fld place (8 + 8 * d) 8
  let checks := dies.map fun d => (d, m.checkDie insvc f (Fin.ofNat 1024 (d * 256 + slots.getD d 0)) bytes)
  let bad := checks.find? fun c => match c.2 with | .error _ => true | .ok _ => false
  let hdrs := (List.range 4).map fun d =>
    match checks.find? (·.1 == d) with | some (_, .ok (h, _)) => h | _ => {}
  let maps := (List.range 4).map fun d =>
    match checks.find? (·.1 == d) with | some (_, .ok (_, r)) => r | _ => []
  let runs := if lr.dual then 2 else 1
  let l : Launch :=
    { num := m.nextLaunch, fn := f, q, index, tag := BitVec.ofNat 32 tag, cpl, dies, slots, lr, hdrs, runs, maps
      teams := (List.range runs).flatMap (homeTeams lr dies) }
  let m : Mach := { m with launches := m.launches ++ [l], nextLaunch := m.nextLaunch + 1 }
  match bad with
  | some (_, .error st) => m.failLaunch l.num st
  | _ => ((m.setLaunch { l with st := .waiting }).settleLaunch l).checkDeps l.num

end Sys2Proof.Machine
end

