-- ==== Sys2Proof/Machine/Deliver.lean ====
section
/-! DEFINITION. Deliveries at a target die: the target a packet names, global homes, the scratchpad and
circular buffers of an instance, the landing buffer and its replay, arrivals and boost (R298, R300, R309–R311,
R319, R359–R363). -/

namespace Sys2Proof.Machine
open Sys2Proof

/-- What becomes of a delivery: accepted, held by the receiver, carried on and answered later, or answered with a status
(Table 15.6). -/
inductive Took where
  | ok
  | hold
  | carried
  | fail (st : Nat)
  deriving DecidableEq, Repr

/-- The statuses of Table 15.6. -/
def fabOk : Nat := 0
def fabRej : Nat := 1
def fabNoTarget : Nat := 2
def fabDenied : Nat := 3
def fabNres : Nat := 4
def fabLinkfail : Nat := 5
def fabFault : Nat := 6
def fabTimeout : Nat := 7
def fabLate : Nat := 8
def fabMismatch : Nat := 9
def fabRefused : Nat := 10

/-! ## Global homes through a context -/

/-- The page and memory key of a delivery's access: a PULL page, or one that moves, holds the delivery, and
requests to a COUNT page count (R333–R335). -/
def Mach.ctxPage (m : Mach) (ctx va : Nat) (need : Right) : Except Took (Page × Nat) × Mach :=
  match (if isCanon va then m.walk ctx va else none) with
  | none => (.error (.fail fabDenied), m)
  | some p =>
    let stalls := fun (m : Mach) =>
      match m.stall p (.delivery va) with
      | (true, m) => (.error (.fail fabDenied), m)
      | (false, m) => (.error .hold, m)
    if !p.allows need then (.error (.fail fabDenied), m)
    else if p.mode = 3 then stalls (m.startMove (Fin.ofNat 1024 ctx) p true)
    else if m.moving p then stalls m
    else if !p.p then (.error (.fail fabNres), m)
    else if !m.pageWay (ctxDie ctx) p va then (.error .hold, m)
    else if p.mode = 2 then
      match m.countRequest (ctxDie ctx) p with
      | (true, m) => stalls (m.startMove (Fin.ofNat 1024 ctx) p false)
      | (false, m) => (.ok (p, m.pageKey p va), m)
    else (.ok (p, m.pageKey p va), m)

/-- Store bytes in a context's address space; the first failure in address order stops it, and what was
written stays. -/
def Mach.ctxStore (m : Mach) (ctx va : Nat) (l : List Byte) : Took × Mach :=
  (lineSegs va l.length).foldl (fun acc s =>
    match acc with
    | (.ok, m) =>
      match m.ctxPage ctx s.1 .write with
      | (.error t, m) => (t, m)
      | (.ok (_, k), m) => (.ok, m.store k ((l.drop (s.1 - va)).take s.2))
    | r => r) (.ok, m)

/-- Read bytes of a context's address space: zeros, and true, where a page is not resident. -/
def Mach.ctxLoad (m : Mach) (ctx va n : Nat) : Except Took (List Byte × Bool) × Mach :=
  (lineSegs va n).foldl (fun acc s =>
    match acc with
    | (.ok (l, nr), m) =>
      match m.ctxPage ctx s.1 .read with
      | (.error (.fail 4), m) => (.ok (l ++ List.replicate s.2 0, true), m)
      | (.error t, m) => (.error t, m)
      | (.ok (_, k), m) =>
        if m.poison.contains (k / 64) then (.error (.fail fabFault), m) else (.ok (l ++ m.bytes k s.2, nr), m)
    | r => r) (.ok ([], false), m)

/-- One indivisible read and write of a word of a context (R365). -/
def Mach.ctxAtomic (m : Mach) (ctx va : Nat) (f : W64 → Option W64) : Took × W64 × Mach :=
  match m.ctxPage ctx va .write with
  | (.error t, m) => (t, 0, m)
  | (.ok (_, k), m) =>
    if m.poison.contains (k / 64) then (.fail fabFault, 0, m)
    else
    let old := BitVec.ofNat 64 (m.word k)
    match f old with
    | some v => (.ok, old, m.storeWord k v.toNat)
    | none => (.ok, old, m)

/-! ## The target of a packet (R359, R360) -/

/-- The fields of a TGT word. -/
def tgtCtx (t : Nat) : Nat := fld t 16 10
def tgtInst (t : Nat) : Nat := fld t 26 16

/-- The context of a packet, accepted by its tag, or the status that answers it. -/
def Mach.targetCtx (m : Mach) (tgt ftag : Nat) : Except Nat Nat :=
  let n := tgtCtx tgt
  let x := m.ctx n
  if x.st = .free || x.st = .dead then .error fabNoTarget
  else if x.ftag.toNat ≠ ftag || ftag = 0 then .error fabDenied
  else .ok n

/-- A target instance: its launch and team, and its number. -/
structure Target where
  launch : Launch
  team : Team
  num : Nat

def Target.uid (t : Target) : Nat := uidOf t.launch.num t.team.run t.num
def Target.ctx (t : Target) : CtxId := t.launch.ctxOn t.team.die

/-- The instance that a TGT word names in the earliest unretired launch of its context with a gang. -/
def Mach.targetInst (m : Mach) (tgt gang : Nat) : Option Target :=
  match m.launches.find? fun l => l.st.live && l.names (tgtCtx tgt) && l.lr.gang == gang with
  | none => none
  | some l =>
    match l.teams.find? fun t => t.run == 0 && (teamMembers l.lr.instn l.lr.tsize t.num).contains (tgtInst tgt) with
    | none => none
    | some t => if t.st = .done || t.done.contains (tgtInst tgt) then none else some { launch := l, team := t, num := tgtInst tgt }

/-! ## Arrivals (R298, R300) -/

/-- One arrival adds 4 to a boost, up to 8 (R300). -/
def Ctx.raise (x : Ctx) (cycle : Nat) : Ctx :=
  { x with boost := Fin.ofNat 9 (min 8 (x.boost.val + 4)), raised := (cycle, if x.raised.1 = cycle then x.raised.2 + 1 else 1) }

/-- An arrival of a gang at a die raises the boost of its contexts there, unless its fairness record is
blocked or it waits for one. -/
def Mach.arrival (m : Mach) (gang : Nat) (d : DieId) : Mach :=
  let rec? := (m.die d).fairness gang
  let waits := (m.die d).fair.any (·.gang == gang) && rec?.isNone
  let blocked := match rec? with | some r => r.blocked | none => waits
  if gang = 0 || blocked then m
  else
    { m with ctxs := m.ctxs.map fun e =>
        let mine := m.launches.any fun l => l.st.live && l.lr.gang == gang && l.onDies.contains d && (l.ctxOn d).val == e.1
        if mine then (e.1, e.2.raise m.cycle) else e }

/-! ## The landing buffer (R309, Table 12.7) -/

/-- The bytes a record takes. -/
def Landing.size (r : Landing) : Nat := 32 + (r.data.length + 31) / 32 * 32

def Ctx.lbCap (x : Ctx) : Nat := (if x.lbsize = 0 then 256 else x.lbsize) * 1024

/-- The bytes of the ring in use: from its oldest record to its tail. The room of a record freed before an older one is
free again when that one is (notes/assumptions/125.md). -/
def Ctx.lbUsed (x : Ctx) : Nat :=
  match x.landing with
  | [] => 0
  | r :: _ =>
    let n := (x.lbTail + x.lbCap - r.off) % x.lbCap
    if n = 0 then x.lbCap else n

/-- The record's bytes. -/
def Landing.bytes (r : Landing) : List Byte :=
  bytesOf 4 r.kind ++ bytesOf 4 r.data.length ++ bytesOf 8 (r.tgt % 2 ^ 48) ++ bytesOf 8 r.addr ++ bytesOf 8 r.arg
    ++ r.data ++ List.replicate (r.size - 32 - r.data.length) 0

/-- Write and read bytes at an offset of the ring, over its end. -/
def Mach.ringStore (m : Mach) (x : Ctx) (off : Nat) (l : List Byte) : Mach :=
  let cut := min l.length (x.lbCap - off)
  let m := m.store (x.lbbase + off) (l.take cut)
  if cut < l.length then m.store x.lbbase (l.drop cut) else m
def Mach.ringLoad (m : Mach) (x : Ctx) (off n : Nat) : List Byte :=
  let cut := min n (x.lbCap - off)
  m.bytes (x.lbbase + off) cut ++ m.bytes x.lbbase (n - cut)

/-- Append a record to the ring of a context: false when it does not fit (R311). -/
def Mach.land (m : Mach) (ctx : Nat) (r : Landing) : Bool × Mach :=
  let x := m.ctx ctx
  if x.lbCap < x.lbUsed + r.size then (false, m)
  else
    let r := { r with off := x.lbTail }
    (true, (m.ringStore x x.lbTail r.bytes).setCtx ctx
      { x with landing := x.landing ++ [r], lbTail := (x.lbTail + r.size) % x.lbCap })

/-- A record as its bytes in HBM hold it (R309): the ring is ordinary memory. -/
def Mach.landed (m : Mach) (ctx : Nat) (r : Landing) : Landing :=
  let l := m.ringLoad (m.ctx ctx) r.off r.size
  let at' := fun (o n : Nat) => leNat ((l.drop o).take n)
  { r with kind := at' 0 4 % 16, addr := at' 16 8, arg := at' 24 8, data := (l.drop 32).take (min r.data.length (at' 4 4 % 2 ^ 13)) }

/-! ## Deliveries to an instance -/

/-- Run a delivery's access on the core of its instance: a stall holds it. -/
def Mach.tryOn (m : Mach) (f : Run Unit) : Took × Mach :=
  match f.go m with
  | (.ok _, m') => (.ok, m')
  | (.error (.wait _), m') => (.hold, m.keepMoves m')
  | (.error (.trap .storeNonresident _), m') => (.fail fabNres, m.keepMoves m')
  | (.error (.park _ _), m') => (.fail fabFault, m.keepMoves m')
  | (.error _, m') => (.fail fabDenied, m.keepMoves m')

/-- Write payload bytes at a local address, filling blocks as a first access does (R347). -/
def putLocal (c : CoreId) (a : Nat) (l : List Byte) : Run Unit := do
  match ← lWrite c none a l with
  | some g => trap .storeNonresident g
  | none => pure ()

/-- Add to a local 8-byte word. -/
def addLocal (c : CoreId) (a : Nat) (v : Nat) : Run Unit := do
  match ← localReady c none a with
  | some g => trap .storeNonresident g
  | none =>
    let old := leNat (cellsRead (← getInst c).pad.bytes a 8)
    modify fun m => m.padStore c a (bytesOf 8 ((old + v) % 2 ^ 64))

/-- The slot that a delivery holds in a buffer. -/
def Inst.takenSlot (i : Inst) (deliv cb : Nat) : Option Nat :=
  (i.taking.find? fun t => t.1 == deliv && t.2.1 == cb).map (·.2.2)

/-- The last byte of a delivery has come: its slot is counted filled (R241). -/
def Inst.fillTaken (i : Inst) (deliv : Nat) (cb : Fin 16) : Inst :=
  match i.takenSlot deliv cb.val with
  | none => i
  | some s =>
    let i := i.setCb cb fun b => { b with slots := b.slots.set s .filled }
    { i with taking := i.taking.filter fun t => !(t.1 == deliv && t.2.1 == cb.val) }

/-- Take a producer slot for a delivery's first byte. -/
def takeForDelivery (c : CoreId) (deliv : Nat) (cb : Fin 16) : Run Unit := do
  let b := (← getInst c).x.cbs.get cb
  match b.slotAt b.ph with
  | .free =>
    setInst c fun i =>
      let i := i.setCb cb fun b => { b with slots := b.slots.set b.ph .filling, ph := (b.ph + 1) % b.n }
      { i with taking := i.taking ++ [(deliv, cb.val, b.ph)] }
  | _ => waitFor (.retry 5 cb.val)

/-- A piece of a delivery into a buffer slot: the slot is taken at the first byte and filled after the
last. -/
def putBuffer (c : CoreId) (deliv : Nat) (cb : Fin 16) (off : Nat) (l : List Byte) (first last : Bool) : Run Unit := do
  if first && ((← getInst c).takenSlot deliv cb.val).isNone then takeForDelivery c deliv cb
  match (← getInst c).takenSlot deliv cb.val with
  | none => waitFor (.retry 5 cb.val)
  | some s =>
    let b := (← getInst c).x.cbs.get cb
    putLocal c (b.base + s * b.slot + off) l
    if last then setInst c fun i => i.fillTaken deliv cb

/-- The instance can take a delivery at its core: it is resident, its start is done, and no record of it
waits in the landing buffer. -/
def Mach.directCore (m : Mach) (t : Target) : Option CoreId :=
  match m.coreOf t.uid with
  | none => none
  | some c => if (m.core c).starting || (m.ctx t.ctx.val).landing.any (·.uid == t.uid) then none else some c

/-- The partition of a target (R259). -/
def Target.part (t : Target) : Nat := partitionOf t.launch.lr.spfoot

/-- A payload piece offered to an instance (R309): DKIND 1 the scratchpad at `addr`, 2 the buffer
addr[3:0] at the offset addr[41:20]; `done` bytes of the delivery lie before the piece and `total` is its whole length. A
piece whose delivery's first piece took no slot is denied as that one was. -/
def Mach.offer (m : Mach) (t : Target) (deliv tgt dkind addr : Nat) (l : List Byte) (done total : Nat) : Took × Mach :=
  let cb : Fin 16 := Fin.ofNat 16 addr
  let off := if dkind = 1 then addr else addr / 2 ^ 20
  let first := done == 0
  let last := done + l.length == total
  let known := (m.instOf t.uid).map fun i => (i, i.x.cbs.get cb)
  let core := m.directCore t
  let bad :=
    if dkind = 1 then decide (t.part < off + l.length)
    else match known with
      | some (i, b) => !b.ready || decide (b.slot < off - done + total)
          || (core.isSome && !first && (i.takenSlot deliv cb.val).isNone)
      | none => false
  if bad then (.fail fabDenied, m)
  else
    match core with
    | some c =>
      if dkind = 1 then m.tryOn (putLocal c off l) else m.tryOn (putBuffer c deliv cb off l first last)
    | none =>
      let r : Landing :=
        { uid := t.uid, kind := dkind, tgt, addr := if dkind = 1 then off else cb.val + off * 2 ^ 20
          arg := if dkind = 1 then 0 else (if first then 1 else 0) + (if last then 2 else 0), data := l, deliv }
      match m.land t.ctx.val r with
      | (true, m) => (.ok, m)
      | (false, m) => (.hold, m)

/-- The payload of a delivery could not be placed at replay (R111). -/
def Mach.payloadLost (m : Mach) (uid deliv : Nat) : Bool :=
  match m.instOf uid with | some i => i.lost.contains deliv | none => false

/-- A counter update offered to an instance, for a delivery: one whose payload was lost is answered as its payload would
have been (R111, R363). -/
def Mach.offerSig (m : Mach) (t : Target) (deliv tgt addr v : Nat) : Took × Mach :=
  if t.part < addr + 8 then (.fail fabDenied, m)
  else if m.payloadLost t.uid deliv then (.fail fabNres, m)
  else
    match m.directCore t with
    | some c => m.tryOn (addLocal c addr v)
    | none =>
      match m.land t.ctx.val { uid := t.uid, kind := 3, tgt, addr, arg := v % 2 ^ 64, data := [], deliv } with
      | (true, m) => (.ok, m)
      | (false, m) => (.hold, m)

/-! ## Replay (R310) -/

/-- Apply one record on the core of its instance. A payload that cannot be placed, in a block whose fill is denied or
meets a page that is not resident, is lost with the update that follows it, as it would have been had the delivery been
direct (R111). -/
def applyRecord (c : CoreId) (r : Landing) : Run Unit := do
  let lose := fun (st : Stop) =>
    match st with
    | .wait k => (throw (.wait k) : Run Unit)
    | _ => setInst c fun i => { i with lost := r.deliv :: i.lost }
  if r.kind = 1 then tryCatch (putLocal c (r.addr % 2 ^ 22) r.data) lose
  else if r.kind = 3 then
    if (← getInst c).lost.contains r.deliv then pure () else addLocal c (r.addr % 2 ^ 22) r.arg
  else
    let cb : Fin 16 := Fin.ofNat 16 r.addr
    let off := fld r.addr 20 22
    let b := (← getInst c).x.cbs.get cb
    let fits := b.ready && decide (off + r.data.length ≤ b.slot)
    if fits && r.arg.testBit 0 then takeForDelivery c r.deliv cb
    match (← getInst c).takenSlot r.deliv cb.val with
    | none => pure ()
    | some s =>
      if fits then tryCatch (putLocal c (b.base + s * b.slot + off) r.data) lose
      if r.arg.testBit 1 then setInst c fun i => i.fillTaken r.deliv cb

/-- The records of instances on cores are applied in ring order; what holds one holds those of its instance behind it, and
each is freed as it is applied. A record applied counts down the records a barrier's end waits for. -/
def Mach.replay (m : Mach) (ctx : Nat) (who : List (Nat × CoreId)) : List Landing → Mach
  | [] => m
  | r :: rest =>
    match alookup who r.uid with
    | none => m.replay ctx who rest
    | some c =>
      match m.tryOn (applyRecord c (m.landed ctx r)) with
      | (.hold, m) => m.replay ctx (aerase who r.uid) rest
      | (_, m) =>
        let m := m.modCtx ctx fun x => { x with landing := x.landing.erase r }
        let m := m.modInst c fun i => { i with arrivals := i.arrivals.map fun a => { a with behind := a.behind - 1 } }
        m.replay ctx who rest

/-- Replay what the instances of cores of one context have in its buffer. -/
def Mach.replayFor (m : Mach) (cs : List CoreId) : Mach :=
  match cs with
  | [] => m
  | c :: _ => m.replay (m.ctxOf c) (cs.map fun d => ((m.inst d).id.uid, d)) (m.ctx (m.ctxOf c)).landing

/-! ## Counted bytes (R319) -/

/-- Count payload bytes on a barrier for the round of an instance, for the packet src. -/
def Mach.countFor (m : Mach) (src : Packet) (ctx va : Nat) (t : Target) (n : Nat) : Took × Mach :=
  match m.ctxPage ctx va .write with
  | (.error e, m) => (e, m)
  | (.ok (_, key), m) =>
    let id : Ident := { launch := t.launch.num, run := t.team.run, team := t.team.num }
    let scope := match [1, 2, 3, 4].find? fun k => (m.openRound ctx key va (psetOf id t.team.die.val k)).isSome with
      | some k => k
      | none => (m.barObj key).scope
    if scope = 4 && decide (2 ^ 66 ≤ key) then (.carried, m.carryBytes src ctx key n)
    else
      match m.countBytes ctx key va (psetOf id t.team.die.val scope) n with
      | some m => (.ok, m)
      | none => (.fail fabRefused, m)

end Sys2Proof.Machine
end

