-- ==== Sys2Proof/Machine/Placement.lean ====
section
/-! DEFINITION. The die dispatchers: effective priority, placement, the start and resumption of instances,
displacement, slices, swaps, yields and steals (R257–R259, R284, R285, R290, R299, R304–R307, R313). -/

namespace Sys2Proof.Machine
open Sys2Proof

/-! ## Teams on a die -/

/-- A team with its launch. -/
structure TeamOn where
  l : Launch
  t : Team

/-- E of a team (R299). -/
def Mach.teamE (m : Mach) (x : TeamOn) : Nat :=
  m.effective (x.l.ctxOn x.t.die).val x.l.num x.t.run x.t.num x.l.lr.prio

/-- The teams of a die. -/
def Mach.teamsOn (m : Mach) (d : DieId) : List TeamOn :=
  (m.launches.filter (·.st.live)).flatMap fun l => (l.teams.filter (·.die == d)).map fun t => { l, t }

/-- The order of R304. -/
def TeamOn.before (m : Mach) (x y : TeamOn) : Bool :=
  let ex := m.teamE x
  let ey := m.teamE y
  let key := fun (z : TeamOn) => [z.t.since, (z.l.ctxOn z.t.die).val % 256, z.l.num, z.t.num, z.t.run]
  decide (ey < ex) || (ex == ey && decide (key x ≤ key y))

/-- The placeable teams of a die in the order of R304. -/
def Mach.placeable (m : Mach) (d : DieId) : List TeamOn :=
  sortBy (TeamOn.before m) ((m.teamsOn d).filter fun x => m.teamPlaceable x.l x.t)

/-- A team's core need (R284). -/
def TeamOn.need (x : TeamOn) : Nat := (x.l.toRun x.t).length

/-- The cores that hold members of a team. -/
def Mach.teamCores (m : Mach) (x : TeamOn) : List CoreId :=
  (List.finRange 48).filter fun c => (m.core c).resident && (m.inst c).id.inTeam x.l.num x.t.run x.t.num

/-- A core is reserved for a team that waits for it. -/
def Mach.reserved (m : Mach) (c : CoreId) : Bool :=
  m.launches.any fun l => l.st.live && l.teams.any fun t =>
    (t.st == .unstarted || t.st == .saved) && t.cores.contains c.val

/-- The free in-service cores of a stack group that no team has reserved. -/
def Mach.freeCores (m : Mach) (insvc : BitVec 48) (d : DieId) (g : Nat) : List CoreId :=
  (groupCores insvc d g).filter fun c => !(m.core c).resident && !m.reserved c

/-- The stack groups a team may use: none that has held its copy of another run (R291). -/
def TeamOn.groupOk (x : TeamOn) (d : DieId) (g : Nat) : Bool :=
  !x.l.lr.dual || !(x.l.teams.any fun t => t.num == x.t.num && t.run != x.t.run && t.groups.contains (d.val * 3 + g))

/-- The cores a team would take now: its reserved cores once they are free, and otherwise the lowest free
cores of the lowest stack group with enough. -/
def Mach.fit (m : Mach) (insvc : BitVec 48) (x : TeamOn) : Option (List CoreId) :=
  let d := x.t.die
  if x.t.cores ≠ [] then
    let cs := x.t.cores.map (Fin.ofNat 48)
    if cs.all fun c => !(m.core c).resident && insvc.getLsbD c.val then some (cs.take x.need) else none
  else
    ((List.range 3).find? fun g => x.groupOk d g && decide (x.need ≤ (m.freeCores insvc d g).length)).map
      fun g => (m.freeCores insvc d g).take x.need

/-! ## The conditions of R284 -/

/-- Every page of a range is resident. -/
def Mach.pagesThere (m : Mach) (ctx base n : Nat) : Bool :=
  n == 0 || ((List.range ((base % 4096 + n + 4095) / 4096)).all fun k =>
    match m.walk ctx ((base / 4096 + k) * 4096) with | some p => p.p && p.mode != 3 | none => false)

/-- The code, parameter and schedule pages of a team's launch are resident on its die (R32, R284). -/
def Mach.launchPages (m : Mach) (x : TeamOn) : Bool :=
  let ctx := (x.l.ctxOn x.t.die).val
  let h := x.l.hdrOn x.t.die
  ((x.l.lr.sptr.zip h.secLen).all fun (a, n) => m.pagesThere ctx a (4 * n))
    && m.pagesThere ctx x.l.lr.param h.paramLen && m.pagesThere ctx x.l.lr.sched (64 * h.schedLen)

/-- KiB of an unstarted instance's image. -/
def LRec.imageKib (lr : LRec) : Nat :=
  ({ tsFoot := lr.tsFoot, accsets := lr.accsets } : Ident).imageKib

/-- Room in the save region for the members of a team that have none yet, the lowest first: for each member its place
(R257). A saved member whose image lies there keeps it. -/
def Mach.reserveSave (m : Mach) (x : TeamOn) : List Nat → List (Nat × Nat) → Option (List (Nat × Nat))
  | [], _ => some []
  | n :: rest, used =>
    let fresh := fun (kib : Nat) =>
      match lowestRun used kib 32768 with
      | none => none
      | some a => (m.reserveSave x rest ((a, kib) :: used)).map ((n, a) :: ·)
    match m.image (uidOf x.l.num x.t.run n) with
    | some g => if g.spilled then fresh g.inst.id.imageKib else (m.reserveSave x rest used).map ((n, g.saveAt) :: ·)
    | none => fresh x.l.lr.imageKib

/-- The images that may be spilled to make room (R257): the contexts that have waited longest since their
last placement first, and within one the largest image first. -/
def Mach.spillable (m : Mach) (x : TeamOn) : List Image :=
  let before := fun (a b : Image) =>
    let la := (m.ctx a.inst.id.ctx.val).lastPlaced
    let lb := (m.ctx b.inst.id.ctx.val).lastPlaced
    decide ([la, a.inst.id.ctx.val] < [lb, b.inst.id.ctx.val])
      || (la == lb && a.inst.id.ctx == b.inst.id.ctx && decide (b.inst.id.imageKib ≤ a.inst.id.imageKib))
  sortBy before (m.images.filter fun g => !g.spilled && ctxDie g.inst.id.ctx.val == x.t.die
    && !g.inst.id.inTeam x.l.num x.t.run x.t.num)

/-- Reserve room for a team, spilling images until there is; an image its spill area cannot hold stays (R257, R258). -/
def Mach.spillFor (m : Mach) (x : TeamOn) : List Image → Option (Mach × List (Nat × Nat))
  | [] => (m.reserveSave x (x.l.toRun x.t) (m.saveRuns x.t.die)).map fun at' => (m, at')
  | g :: rest =>
    match m.reserveSave x (x.l.toRun x.t) (m.saveRuns x.t.die) with
    | some at' => some (m, at')
    | none =>
      match m.spillImage g with
      | some m => (m.settleSpilled g.inst.id.ctx.val).spillFor x rest
      | none => m.spillFor x rest

/-! ## Starting and resuming an instance -/

/-- The place of a new partition on a core: aligned to its size, over the fewest partitions in place, the
lowest first (notes/assumptions/21.md). -/
def Mach.overlaps (m : Mach) (c : CoreId) (a n : Nat) : List Image :=
  m.images.filter fun g => g.core == c && match g.place with
    | some (b, k) => decide (a < b + k) && decide (b < a + n)
    | none => false

def Mach.newPlace (m : Mach) (c : CoreId) (part : Nat) : Nat :=
  ((List.range (2 ^ 22 / part)).map (· * part)).foldl
    (fun best a => if (m.overlaps c a part).length < (m.overlaps c best part).length then a else best) 0

/-- The view registers that an initial-views table sets (R59, R152). An entry that R151 does not accept, or that names
no view, sets nothing, so that no view names a byte beyond the footprint (R149): the spec leaves its meaning open (DESIGN
CHOICE, notes/assumptions/121.md). -/
def initialViews (foot : Nat) (l : List Byte) : Vector W64 16 :=
  (List.range (l.length / 16)).foldl
    (fun v k =>
      let n := recNat l (16 * k) 1
      let d := BitVec.ofNat 64 (recNat l (16 * k + 8) 8)
      if n < 16 && viewShapeOk d && (viewBreach (viewD d) foot).isNone then vset v (Fin.ofNat 16 n) d else v)
    (Vector.replicate 16 0)

/-- A new instance (R290); its parameter area and its views are loaded on its core (R59, R259). -/
def TeamOn.newInst (x : TeamOn) (n : Nat) : Inst :=
  let l := x.l
  let ctx := l.ctxOn x.t.die
  let h := l.hdrOn x.t.die
  let part := partitionOf l.lr.spfoot
  let entry := fun (k : Nat) => BitVec.ofNat 64 (l.lr.sptr.getD k 0)
  let id : Ident :=
    { uid := uidOf l.num x.t.run n, launch := l.num, ctx, num := n, run := x.t.run, tidx := n % l.lr.tsize
      instn := l.lr.instn, tsize := l.lr.tsize, team := x.t.num, gang := l.lr.gang, prio := l.lr.prio
      tsFoot := l.lr.tsFoot, bsFoot := l.lr.bsFoot, accsets := l.lr.accsets, part
      secBase := Vector.ofFn fun (k : Fin 4) => entry k.val
      secLen := Vector.ofFn fun (k : Fin 4) => h.secLen.getD k.val 0
      sched := BitVec.ofNat 64 l.lr.sched, schedLen := h.schedLen, dual := l.lr.dual, shadow := l.lr.shadow
      outBase := l.lr.outBase, outSize := l.lr.outSize }
  let regs := ((List.range 4).zip l.lr.args).foldl (fun v (p : Nat × W64) => vset v (Fin.ofNat 32 (2 + p.1)) p.2)
    (Vector.replicate 32 0)
  { id, fresh := true
    s := { st := { pc := entry 0 }, regs, scaleOff := l.lr.scaleOff }
    v := { st := { pc := entry 1 } }
    m := { st := { pc := entry 2 } }
    x := { st := { pc := entry 3 } }
    pad := { regions := l.maps.getD x.t.die.val [] } }

/-- The parameter area and the views of a new instance are loaded (R59): where the launch's parameters or views cannot be
read, nothing is. -/
def Mach.loadFresh (m : Mach) (c : CoreId) : Mach :=
  let i := m.inst c
  if !i.fresh then m
  else
    match m.launch i.id.launch with
    | none => m
    | some l =>
      let h := l.hdrOn (dieOf c)
      let param := (m.ctxRead i.id.ctx.val l.lr.param h.paramLen).getD []
      let views := (m.ctxRead i.id.ctx.val l.lr.views (16 * h.viewsLen)).getD []
      m.modInst c fun i => { i with
        fresh := false, pad := { i.pad with bytes := cellsWrite i.pad.bytes 0 param }
        v := { i.v with views := initialViews i.id.tsFoot views } }

/-- Put a member of a team on a core, with its room in the save region: a saved one is restored, another is started. Its
streams are held until LANDING_REPLAY has finished its team's start. -/
def Mach.placeMember (m : Mach) (x : TeamOn) (n : Nat) (c : CoreId) (saveAt : Nat) : Mach :=
  let uid := uidOf x.l.num x.t.run n
  match m.image uid with
  | some g =>
    let m : Mach := { m with images := m.images.filter fun h => h.inst.id.uid != uid }
    let there := g.core == c && g.place.isSome
    let place := match g.place with
      | some (a, _) => if there then a else m.newPlace c g.inst.id.part
      | none => m.newPlace c g.inst.id.part
    m.setCore c { resident := true, place, saveAt, starting := true, moved := !there, inst := g.inst }
  | none =>
    let i := x.newInst n
    m.setCore c { resident := true, place := m.newPlace c i.id.part, saveAt, starting := true, inst := i }

/-- A launch whose first team, or last unstarted team, has been placed (Table 11.3). -/
def Launch.afterPlacing (l : Launch) : Launch :=
  let st := if l.st = .ready then .dispatched else l.st
  { l with st := if st = .dispatched && l.teams.all fun t => t.st != .unstarted then .running else st }

/-- Place a team on cores: every member in one step, with its room in the save region. -/
def Mach.placeTeam (m : Mach) (x : TeamOn) (cs : List CoreId) (room : List (Nat × Nat)) : Mach :=
  let d := x.t.die
  let ctx := (x.l.ctxOn d).val
  let members := (x.l.toRun x.t).zip (sortBy (fun a b => decide (a.val ≤ b.val)) cs)
  let m := members.foldl (fun m (p : Nat × CoreId) => m.placeMember x p.1 p.2 ((alookup room p.1).getD 0)) m
  let g := match cs with | c :: _ => groupOf c | [] => 0
  let t : Team := { x.t with
    st := .resident, since := m.cycle, waiting := none, cores := [], group := some g, groups := x.t.groups ++ [g]
    yields := false }
  let m := m.setLaunch ((x.l.setTeam t).afterPlacing)
  let m := (m.startFairness x.l.lr.gang d).modCtx ctx fun x => { x with lastPlaced := m.cycle }
  (m.settleCtx ctx).post (members.map fun p => .landingReplay p.2)

/-- Place a team where its conditions hold. -/
def Mach.tryPlace (m : Mach) (insvc : BitVec 48) (x : TeamOn) : Option Mach :=
  if x.need = 0 then none
  else
    match m.fit insvc x with
    | none => none
    | some cs =>
      if !m.launchPages x then none
      else (m.spillFor x (m.spillable x)).map fun p => p.1.placeTeam x cs p.2

/-- The team as it stands now. -/
def Mach.again (m : Mach) (x : TeamOn) : Option TeamOn :=
  match m.launch x.l.num with
  | none => none
  | some l => (l.team? x.t.run x.t.num).map fun t => { l, t }

/-- Place what can be placed, in order; the rest waits. -/
def Mach.placeAll (m : Mach) (insvc : BitVec 48) : List TeamOn → Mach × List TeamOn
  | [] => (m, [])
  | x :: rest =>
    match m.again x with
    | none => m.placeAll insvc rest
    | some x =>
      match m.tryPlace insvc x with
      | some m => m.placeAll insvc rest
      | none =>
        let (m, left) := m.placeAll insvc rest
        (m, x :: left)

/-! ## Pre-emption for a waiting team -/

/-- Pre-empt teams and reserve their cores, and free ones of the group after them, for a team. -/
def Mach.makeRoom (m : Mach) (insvc : BitVec 48) (x : TeamOn) (g : Nat) (ys : List TeamOn) : Mach :=
  let freed := ys.flatMap m.teamCores
  let cs := (freed ++ m.freeCores insvc x.t.die g).take x.need
  (m.modTeam x.l.num x.t.run x.t.num fun t => { t with cores := cs.map (·.val) }).post
    (freed.map .preemptionRequest)

/-- The running teams of a stack group that are not being pre-empted. -/
def Mach.runningIn (m : Mach) (d : DieId) (g : Nat) : List TeamOn :=
  (m.teamsOn d).filter fun y => y.t.st == .resident && y.t.group == some (d.val * 3 + g)
    && (m.teamCores y).all fun c => !(m.core c).preempt
    && !m.reserved c

/-- Pre-empting a set of running teams of a group meets a team's need. -/
def Mach.meets (m : Mach) (insvc : BitVec 48) (x : TeamOn) (g : Nat) (ys : List TeamOn) : Bool :=
  x.groupOk x.t.die g && decide (x.need ≤ (ys.flatMap m.teamCores).length + (m.freeCores insvc x.t.die g).length)

/-- A choice of R305 or R306: the group, the teams, and the keys by which it is taken. -/
structure Choice where
  g : Nat
  ys : List TeamOn
  key : List Nat

/-- The choices whose teams all satisfy a bound on E, with the keys of R305 or of the starvation rule. -/
def Mach.choices (m : Mach) (insvc : BitVec 48) (x : TeamOn) (bound : Nat → Bool) (starve : Bool) : List Choice :=
  (List.range 3).flatMap fun g =>
    let ys := (m.runningIn x.t.die g).filter fun y => bound (m.teamE y)
    ((ys.sublists.filter fun s => !s.isEmpty && m.meets insvc x g s).map fun s =>
      let cores := s.flatMap m.teamCores
      let top := (s.map m.teamE).foldl max 0
      let high := (cores.map (·.val)).foldl max 0
      let start := (s.map (·.t.since)).foldl min m.cycle
      { g, ys := s, key := if starve then [top, start, cores.length, g, high] else [top, cores.length, g, high] })

/-- The first choice by its keys. -/
def firstChoice : List Choice → Option Choice
  | [] => none
  | c :: t => some (t.foldl (fun b x => if x.key < b.key then x else b) c)

/-- A waiting team for which nothing has been reserved, with its pages resident. -/
def Mach.wants (m : Mach) (x : TeamOn) : Bool := x.t.cores == [] && m.launchPages x

/-- A team that has waited 2^24 cycles is placed whatever its E (R306). -/
def Mach.starving (m : Mach) (x : TeamOn) : Bool := decide (2 ^ 24 ≤ m.cycle - x.t.since)

def Mach.relieve (m : Mach) (insvc : BitVec 48) (x : TeamOn) : Mach :=
  if !m.wants x then m
  else
    match firstChoice (m.choices insvc x (fun _ => true) true) with
    | some c => m.makeRoom insvc x c.g c.ys
    | none => m

/-- R305 and R306 for one waiting team: displacement by two, or the end of an equal's slice. -/
def Mach.pressFor (m : Mach) (insvc : BitVec 48) (x : TeamOn) : Mach :=
  let e := m.teamE x
  if !m.wants x then m
  else
    match firstChoice (m.choices insvc x (fun y => decide (y + 2 ≤ e)) false) with
    | some c => m.makeRoom insvc x c.g c.ys
    | none =>
      let ended := (List.range 3).flatMap fun g =>
        ((m.runningIn x.t.die g).filter fun y =>
          m.teamE y == e && decide (2 ^ 21 ≤ m.cycle - y.t.since) && m.meets insvc x g [y]).map fun y => (g, y)
      match ended with
      | [] => m
      | p :: t =>
        let b := t.foldl (fun b q => if q.2.t.since < b.2.t.since then q else b) p
        m.makeRoom insvc x b.1 [b.2]

/-- The teams that press for room: at each E the one that has waited longest. -/
def Mach.pressing (m : Mach) : List TeamOn → List Nat → List TeamOn
  | [], _ => []
  | x :: t, seen =>
    let e := m.teamE x
    if seen.contains e then m.pressing t seen else x :: m.pressing t (e :: seen)

/-! ## YIELD, swaps and steals -/

/-- The waiting teams of a die that have no cores reserved, in order. -/
def Mach.waitingTeams (m : Mach) (d : DieId) : List TeamOn := (m.placeable d).filter fun x => x.t.cores == []

/-- The place of a group among a die's. -/
def groupOfTeam (t : Team) : Nat := t.group.getD 0 % 3

/-- A team is the same one. -/
def TeamOn.same (x y : TeamOn) : Bool := x.l.num == y.l.num && x.t.run == y.t.run && x.t.num == y.t.num

/-- A yielding team gives its cores to the first waiting team of at least its E that they can meet
(R313), unless the same evaluation has already taken them. -/
def Mach.yieldOne (m : Mach) (insvc : BitVec 48) (y : TeamOn) : Mach :=
  let g := groupOfTeam y.t
  let runs := (m.runningIn y.t.die g).any y.same
  let m := m.modTeam y.l.num y.t.run y.t.num fun t => { t with yields := false }
  let cand := (m.waitingTeams y.t.die).find? fun x =>
    decide (m.teamE y ≤ m.teamE x) && m.launchPages x && m.meets insvc x g [y]
  match cand with
  | some x => if runs then m.makeRoom insvc x g [y] else m
  | none => m

/-- Whether a resident team has waited long enough to be swapped (R307). -/
def Mach.swapDue (m : Mach) (d : DieId) (y : TeamOn) : Bool :=
  y.t.st == .resident && match y.t.waiting with
    | some since => decide ((m.die d).waitSwap.toNat ≤ m.cycle - since)
    | none => false

/-- The first team whose need a waiting team's group would meet. -/
def Mach.swapFor (m : Mach) (insvc : BitVec 48) (y : TeamOn) : Option TeamOn :=
  (m.waitingTeams y.t.die).find? fun x => m.launchPages x && m.meets insvc x (groupOfTeam y.t) [y]

/-- The first swap of a die that R307 asks for. -/
def Mach.nextSwap (m : Mach) (insvc : BitVec 48) (d : DieId) : Option (TeamOn × TeamOn) :=
  ((List.range 3).flatMap fun g => m.runningIn d g).findSome? fun y =>
    if m.swapDue d y then (m.swapFor insvc y).map fun x => (y, x) else none

/-- TEAM_SWAP (R307): one team is swapped, and the next one that is due follows. -/
def execTeamSwap (d : DieId) (s : State) : Out :=
  match s.mach.nextSwap s.pwr.insvc d with
  | some (y, x) =>
    let m := s.mach.makeRoom s.pwr.insvc x (groupOfTeam y.t) [y]
    s.to (if (m.nextSwap s.pwr.insvc d).isSome then m.post [.teamSwap d] else m)
  | none => s.to s.mach

/-- The unstarted teams of a die's share of a launch. -/
def Launch.unstartedOn (l : Launch) (d : DieId) : List Team := l.teams.filter fun t => t.die == d && t.st == .unstarted

/-- The victims of a steal by a die (R285), the best first: the most unstarted teams of one launch, the
lower die, the earlier launch. -/
def Mach.victims (m : Mach) (d : DieId) : List (Launch × DieId) :=
  let eligible := m.launches.filter fun l =>
    l.placing && l.lr.plevel != 2 && l.onDies.contains d && (m.ctx (l.ctxOn d).val).st.places
      && !m.suspending (l.ctxOn d).val
  let all := eligible.flatMap fun l => (l.onDies.filter fun e => e != d && !(l.unstartedOn e).isEmpty).map fun e => (l, e)
  let before := fun (a b : Launch × DieId) =>
    let na := (a.1.unstartedOn a.2).length
    let nb := (b.1.unstartedOn b.2).length
    decide (nb < na) || (na == nb && decide ([a.2.val, a.1.num] ≤ [b.2.val, b.1.num]))
  sortBy before all

/-- A die has an idle in-service core and no placeable work (R285). -/
def Mach.idleDie (m : Mach) (insvc : BitVec 48) (d : DieId) : Bool :=
  ((List.range 3).any fun g => !(m.freeCores insvc d g).isEmpty) && (m.placeable d).isEmpty

/-- STEAL (R285): the highest-numbered unstarted team of the best victim joins the thief's share, with its
expected arrivals (R317). -/
def execSteal (d : DieId) (s : State) : Out :=
  let m := s.mach
  if !m.idleDie s.pwr.insvc d then s.to m
  else
    match m.victims d with
    | [] => s.to m
    | (l, e) :: _ =>
      match (if m.pairUsable d e then (l.unstartedOn e).reverse else []) with
      | [] => s.to m
      | t :: rest =>
        let t := rest.foldl (fun b x => if b.num < x.num then x else b) t
        let m := m.setLaunch (l.setTeam { t with die := d, since := m.cycle, cores := [] })
        let moved := fun (r : Round) => r.ended.isNone && psetLaunch r.pset == (l.num, t.run)
        let opened := fun (r : Round) => if moved r then { r with forwarded := r.forwarded.filter (· != d.val) } else r
        let m : Mach := { m with rounds := m.rounds.map opened }
        let m := (m.rounds.filter moved).foldl (fun m r => m.arrivalCheck r.num e) m
        s.to ((m.settleLaunch l).post [.placementEval d])

/-- The evaluation of a die (R304): placements, then the starving, pressure, yields, and the swaps and steals that
follow. -/
def Mach.evaluate (m : Mach) (insvc : BitVec 48) (d : DieId) : Mach :=
  let (m, left) := m.placeAll insvc (m.placeable d)
  let m := (left.filter m.starving).foldl (fun m x => match m.again x with | some x => m.relieve insvc x | none => m) m
  let m := (m.pressing left []).foldl (fun m x => match m.again x with | some x => m.pressFor insvc x | none => m) m
  let m := ((m.teamsOn d).filter fun y => y.t.yields && y.t.st == .resident).foldl (fun m y => m.yieldOne insvc y) m
  let m := if (m.nextSwap insvc d).isSome then m.post [.teamSwap d] else m
  let m := if m.idleDie insvc d && !(m.victims d).isEmpty then m.post [.steal d] else m
  left.foldl (fun m x => m.settleCtx (x.l.ctxOn d).val) m

/-- PLACEMENT_EVAL (R304): none while the module is not Active (R27, R28). -/
def execPlacementEval (d : DieId) (s : State) : Out :=
  if s.pwr.st = .active then s.to (s.mach.evaluate s.pwr.insvc d) else s.to s.mach

end Sys2Proof.Machine
end

