-- ==== Sys2Proof/Machine/LaunchSteps.lean ====
section
/-! DEFINITION. The steps that end instances and launches and keep the dispatchers' records: partition
eviction and replay at a start, instance completion, retirement and the comparison of dual runs, boost decay
and fairness (R114, R259, R286, R291–R294, R300, R301, R310). -/

namespace Sys2Proof.Machine
open Sys2Proof

/-! ## Writing copies back outside a word (R286, R347) -/

/-- Write back and discard copies, in order. A page that is not resident is asked for and waited for, and
so is a page that is arriving: false. Bytes whose page maps nothing or denies writing are dropped
(notes/assumptions/22.md). -/
def Mach.flushCopies (m : Mach) (c : CoreId) : List (Region × Nat × Nat) → Mach × Bool
  | [] => (m, true)
  | (r, b, g) :: rest =>
    match (writeBack c r b g).go m with
    | (.ok none, m) => (m.modInst c fun i => { i with pad := i.pad.discard r b }).flushCopies c rest
    | (.ok (some a), m) =>
      let id := (m.inst c).id
      let page := match m.walk id.ctx.val a with | some p => p.base | none => a / 4096 * 4096
      ((m.requestPage id.ctx (instWord id c.val) page true true).2, false)
    | (.error (.wait _), m) => (m, false)
    | (.error _, m) => (m.modInst c fun i => { i with pad := i.pad.discard r b }).flushCopies c rest

/-- Flush every copy of the instance of a core. -/
def Mach.flushPad (m : Mach) (c : CoreId) : Mach × Bool := m.flushCopies c (m.inst c).pad.copies

/-- The bytes of a partition that lie in no region go to a key, over its whole length (R259, step 3). -/
def Mach.storePart (m : Mach) (k : Nat) (i : Inst) : Mach :=
  let out := i.pad.bytes.filter fun e => i.pad.regions.all fun r => decide (e.1 < r.lbase) || decide (r.lbase + r.size ≤ e.1)
  { m with
    mem := out.foldl (fun l (e : Nat × Byte) => cellSet l (k + e.1) e.2) (cellsClear m.mem k i.id.part)
    poison := m.poison.filter fun p => !linesCleared k i.id.part p }

/-- The bytes that a key holds of a partition. -/
def Mach.loadPart (m : Mach) (k n : Nat) : Cells 8 :=
  (m.mem.filter fun e => decide (k ≤ e.1) && decide (e.1 < k + n)).map fun e => (e.1 - k, e.2)

/-- The memory key of a place in a context's spill area. -/
def Ctx.spillKey (x : Ctx) (at' : Nat) : Nat := x.spbase + at' * 1024

/-- Evict the partition of a saved instance from a core (R259): its copies are written back and discarded
under its own context, the bytes in no region go to its spill area, and it is no longer in place. An area without room
holds the eviction up (notes/assumptions/123.md). -/
def Mach.evict (m : Mach) (c : CoreId) (g : Image) : Mach × Bool :=
  let here := m.inst c
  let (m, done) := (m.setInst c g.inst).flushPad c
  let inst := { m.inst c with regs := [] }
  let m := m.setInst c here
  let ctx := inst.id.ctx.val
  match (if done then m.spillRoom ctx (inst.id.part / 1024) else none) with
  | none => (m.setImage { g with inst }, false)
  | some a =>
    let m := m.storePart ((m.ctx ctx).spillKey a) inst
    (m.setImage { g with inst := { inst with pad := { inst.pad with bytes := [] }, partAt := some a }, place := none }, true)

/-- Evict partitions until one has to wait. -/
def Mach.evictAll (m : Mach) (c : CoreId) : List Image → Mach × Bool
  | [] => (m, true)
  | g :: rest =>
    match m.evict c g with
    | (m, true) => m.evictAll c rest
    | r => r

/-! ## LANDING_REPLAY -/

/-- The next record of an instance waits for a Free slot of its buffer: the streams go on meanwhile (R310). -/
def Mach.slotWait (m : Mach) (c : CoreId) : Bool :=
  let i := m.inst c
  match (m.ctx i.id.ctx.val).landing.find? (·.uid == i.id.uid) with
  | none => true
  | some r => r.kind == 2 && r.arg.testBit 0 &&
      (let b := i.x.cbs.get (Fin.ofNat 16 r.addr); b.slotAt b.ph != .free)

/-- An evicted partition is brought back (R259). -/
def Mach.restorePart (m : Mach) (c : CoreId) : Mach :=
  let i := m.inst c
  match i.partAt with
  | none => m
  | some a =>
    let bytes := m.loadPart ((m.ctx i.id.ctx.val).spillKey a) i.id.part
    m.setInst c { i with partAt := none, pad := { i.pad with bytes } }

/-- The start of an instance on its core (R59, R114, R259): the partitions in its way are evicted, its own is brought
back, the copies of its old core are written back when it moved, and a new one's parameters and views are loaded. -/
def Mach.restoreOn (m : Mach) (c : CoreId) : Mach :=
  match m.evictAll c (m.overlaps c (m.core c).place (m.inst c).id.part) with
  | (m, false) => m
  | (m, true) =>
    let m := m.restorePart c
    match (if (m.core c).moved then m.flushPad c else (m, true)) with
    | (m, false) => m
    | (m, true) =>
      let m := m.loadFresh c
      m.setCore c { m.core c with moved := false, restored := true }

/-- The cores of the team of a core's instance. -/
def Mach.teamOf (m : Mach) (c : CoreId) : List CoreId := c :: m.teamMates c

/-- LANDING_REPLAY on a core whose start is going on (R310): once every member of the team is restored the team's records
are replayed in ring order, and once none of them waits but for a Free slot the streams of all members run. -/
def Mach.startOn (m : Mach) (c : CoreId) : Mach :=
  if !(m.core c).starting then m.replayFor [c]
  else
    let m := if (m.core c).restored then m else m.restoreOn c
    let cs := m.teamOf c
    if !cs.all fun d => (m.core d).restored || !(m.core d).starting then m
    else
      let m := m.replayFor cs
      if cs.all m.slotWait then cs.foldl (fun m d => m.setCore d { m.core d with starting := false, restored := false }) m else m

/-- LANDING_REPLAY (R310). -/
def execLandingReplay (c : CoreId) (s : State) : Out := s.to (s.mach.onResident c fun m => m.startOn c)

/-! ## INSTANCE_COMPLETE -/

/-- The conditions under which an instance completes (R286). -/
def Inst.finished (i : Inst) : Bool :=
  i.s.st.ended && i.v.st.ended && i.m.st.ended && i.x.st.ended && i.x.xfers.isEmpty
    && i.fifo.queue0.isEmpty && i.fifo.cmds.isEmpty && i.fifo.queue1.isEmpty

/-- Add one to an element. -/
def bump (l : List Nat) (k : Nat) : List Nat := l.set k (l.getD k 0 + 1)

/-- The count and the signature of a completed instance reach its launch; its team is done with its last
member. -/
def Mach.countInst (m : Mach) (id : Ident) (sig : W64) : Mach :=
  match m.launch id.launch with
  | none => m
  | some l =>
    let l := { l with counts := bump l.counts id.run, sigs := l.sigs.set id.run (l.sigs.getD id.run 0 + sig) }
    match l.team? id.run id.team with
    | none => m.setLaunch l
    | some t =>
      let t := { t with done := t.done ++ [id.num] }
      m.setLaunch (l.setTeam (if l.toRun t = [] then { t with st := .done, waiting := none } else t))

/-- The package count of every running run has reached INSTN. -/
def Launch.counted (l : Launch) : Bool := (List.range l.runs).all fun r => l.counts.getD r 0 == l.lr.instn

/-- An instance completes: its copies go home, its core is freed and it is counted (R286). -/
def Mach.completeInst (m : Mach) (c : CoreId) : Mach :=
  if !(m.inst c).finished then m
  else
    match m.flushPad c with
    | (m, false) => m
    | (m, true) =>
      let id := (m.inst c).id
      let m := (m.countInst id (m.inst c).sig).freeCore c
      let m := m.modCtx id.ctx.val fun x => { x with landing := x.landing.filter (·.uid != id.uid) }
      let m := m.settleTeam id.launch id.run id.team
      let m := (m.endSuspend id.ctx.val).settleCtx id.ctx.val
      let m := m.post [.placementEval (dieOf c)]
      match m.launch id.launch with
      | some l => if l.counted && l.st == .draining then m.post [.launchRetire l.num] else m
      | none => m

/-- INSTANCE_COMPLETE (R286). -/
def execInstanceComplete (c : CoreId) (s : State) : Out := s.to (s.mach.onResident c fun m => m.completeInst c)

/-! ## LAUNCH_RETIRE -/

/-- A launch retires with a status: the completion word, then its entry where the record asked for one
(R276, R282). -/
def Mach.retire (m : Mach) (l : Launch) (status : Nat) : Mach :=
  let m := m.completeWord l false
  let m := if l.cpl then m.postEntry l.fn l.q.val l.index l.tag.toNat status else m
  (m.setLaunch { l with st := .retired, status }).leaveLaunch l

/-- Every team has a stack group of its home die for a third copy: one with enough in-service cores that has held none
(R291). -/
def Launch.thirdFits (l : Launch) (insvc : BitVec 48) : Bool :=
  (homeTeams l.lr l.dies 2).all fun t =>
    (List.range 3).any fun g =>
      decide ((teamMembers l.lr.instn l.lr.tsize t.num).length ≤ (groupCores insvc t.die g).length)
        && !(l.teams.any fun u => u.num == t.num && u.groups.contains (t.die.val * 3 + g))

/-- Copy the window of run 2 onto the window of run 1, at the homes; false while a page of it holds the
copy up. A line that cannot be copied keeps run 1's bytes (notes/assumptions/23.md). -/
def Mach.copyWindow (m : Mach) (l : Launch) : Mach × Bool :=
  let ctx := match l.onDies with | d :: _ => (l.ctxOn d).val | [] => 0
  (lineSegs l.lr.outBase l.lr.outSize).foldl (fun acc s =>
    if !acc.2 then acc
    else
      let src := (((s.1 : Int) + l.lr.shadow) % 2 ^ 64).toNat
      match acc.1.ctxLoad ctx src s.2 with
      | (.error .hold, m) => (m, false)
      | (.error _, m) => (m, true)
      | (.ok (_, true), m) => (m, false)
      | (.ok (b, false), m) =>
        match m.ctxStore ctx s.1 b with
        | (.ok, m) => (m, true)
        | (.fail st, m) => (m, st != fabNres)
        | (_, m) => (m, false)) (m, true)

/-- Verifying (R294): the comparison of the signatures. -/
def Mach.verify (m : Mach) (insvc : BitVec 48) (l : Launch) : Mach :=
  let sig := fun (k : Nat) => l.sigs.getD k 0
  let l := { l with st := .verifying }
  if l.runs ≤ 2 then
    if sig 0 = sig 1 then m.retire l 0
    else if l.thirdFits insvc then
      let third := (homeTeams l.lr l.dies 2).map fun t => { t with since := m.cycle }
      ((m.setLaunch { l with st := .dispatched, runs := 3, teams := l.teams ++ third }).settleLaunch l).post
        (l.onDies.map .placementEval)
    else m.failLaunch l.num 8
  else if sig 2 = sig 0 then m.retire l 9
  else if sig 2 = sig 1 then
    match m.copyWindow l with
    | (m, true) => m.retire l 9
    | (m, false) => m.setLaunch l
  else m.failLaunch l.num 8

/-- LAUNCH_RETIRE (R282, R294). -/
def execLaunchRetire (n : Nat) (s : State) : Out :=
  match s.mach.launch n with
  | none => s.to s.mach
  | some l =>
    if (l.st == .draining && l.counted) || l.st == .verifying then
      s.to (if l.lr.dual then s.mach.verify s.pwr.insvc l else s.mach.retire { l with st := .completing } 0)
    else s.to s.mach

/-! ## BOOST_DECAY and FAIRNESS_BUCKET -/

/-- BOOST_DECAY (R300). -/
def execBoostDecay (s : State) : Out :=
  s.to { s.mach with ctxs := s.mach.ctxs.map fun e => (e.1, { e.2 with boost := e.2.boost - (if e.2.boost = 0 then 0 else 1) }) }

/-- A record at a bucket boundary (R301). -/
def Fairness.bucket (r : Fairness) : Fairness :=
  let buckets := (r.current :: r.buckets).take 64
  let v := buckets.sum
  { r with current := 0, buckets, blocked := if 2 ^ 20 < v then true else if v < 2 ^ 20 then false else r.blocked }

/-- FAIRNESS_BUCKET (R301): only the records that stand in the tables of 512 entries count. -/
def execFairnessBucket (s : State) : Out :=
  s.to { s.mach with dies := s.mach.dies.map fun d =>
    { d with fair := (d.fair.take 512).map Fairness.bucket ++ d.fair.drop 512 } }

/-- In each cycle a record counts one if a team of its gang is resident on the die while its context's boost is
nonzero (R301). -/
def Mach.countFairness (m : Mach) : Mach :=
  let counts := fun (d : DieId) (gang : Nat) =>
    (List.finRange 48).any fun c => (m.core c).resident && dieOf c == d && (m.inst c).id.gang == gang
      && (m.ctx (m.ctxOf c)).boost != 0
  { m with dies := Vector.ofFn fun d =>
      let x := m.die d
      { x with fair := (x.fair.take 512).map (fun r => if counts d r.gang then { r with current := r.current + 1 } else r)
          ++ x.fair.drop 512 } }

end Sys2Proof.Machine
end

