-- ==== Sys2Proof/Machine/Vec.lean ====
section
/-! DEFINITION. What the V words share: their start (R188), the rounding of written elements in order
(R73, R156), the writing of a view (R155), and the words over elements, lines and masks. -/

namespace Sys2Proof.Machine
open Sys2Proof

/-! ## Starting a word -/

/-- V starts a word (R188): a recorded point is consumed, resumed by the VST at TPC, whose pop is not
repeated, and cleared by any other word. A word counts as started when V first turns to it, before its sync pop, and a
word that waits looks again each time it is tried (DESIGN CHOICE, notes/assumptions/116.md). -/
def Mach.vStart (m : Mach) (c : CoreId) (word : Instr) : Mach :=
  let i := m.inst c
  if i.v.st.pushing.isSome || !i.s.rvalid || i.s.rstrm ≠ 1 then m
  else
    let resumes := match word with | .vst .. => i.v.st.pc == i.s.tpc | _ => false
    if resumes then m.modInst c fun i => i.modStream .V fun st => { st with popped := true }
    else m.modSeq c fun s => { s with rvalid := false }

/-- Run a V word that has no effect when it stops: what it did before a wait, a slot that it finished included, is
undone until the whole word completes (DESIGN CHOICE, notes/assumptions/117.md). -/
def State.vRun (s : State) (y : Sync) (word : Instr) (f : CoreId → Run Unit) : Out :=
  let c := s.mach.cur
  s.to ((s.mach.vStart c word).eWord c .V y word (orRestore (f c)))

/-- Run a V word that keeps what it did before it stopped. -/
def State.vKeep (s : State) (y : Sync) (word : Instr) (f : CoreId → Run Unit) : Out :=
  let c := s.mach.cur
  s.to ((s.mach.vStart c word).eWord c .V y word (f c))

/-- Run a word that ends its stream: once its push is made the stream has ended, on this word. -/
def State.endRun (s : State) (e : Eng) (y : Sync) (word : Instr) (f : CoreId → Run Unit) : Out :=
  let c := s.mach.cur
  let pc := ((s.mach.inst c).stream e).pc
  let m := s.mach.eWord c e y word (f c)
  s.to (if ((m.inst c).stream e).pc = pc then m else m.endStream c e pc)

/-! ## Writing a view -/

/-- One element to be written: its position, its exact value and the flags raised on the way. -/
structure Elem where
  r : Nat
  c : Nat
  x : XNum
  fl : BitVec 6

/-- How an element is rounded: format, value and generator. -/
abbrev Rounder := Fmt → XNum → W32 → Rounded × W32

/-- round_fmt with V's mode and a saturation (R156). -/
def vRounder (mode : RMode) (sat : Bool) : Rounder := fun f x g => roundFmt x f mode sat g

/-- Round elements in order: positions with codes, the generator and the flags. -/
def roundElems (f : Fmt) (rd : Rounder) (g : W32) (l : List Elem) : List (Nat × Nat × Nat) × W32 × BitVec 6 :=
  let (out, g, fl) := l.foldl (fun (acc : List (Nat × Nat × Nat) × W32 × BitVec 6) e =>
    let (r, g) := rd f e.x acc.2.1
    ((e.r, e.c, r.code) :: acc.1, g, acc.2.2 ||| e.fl ||| r.flags)) ([], g, 0)
  (out.reverse, g, fl)

/-- The tile after a write: with zero, +0 over the rest of the allocated shape (R155). -/
def putTile (t : Cells 8) (d : ViewD) (zero : Bool) (l : List (Nat × Nat × Nat)) : Cells 8 :=
  let t := if zero then (positions d.ar d.ac).foldl (fun t (r, c) => cellsClear t (d.at r c) d.fmt.size) t else t
  l.foldl (fun t (r, c, code) => cellsWrite t (d.at r c) (bytesOf d.fmt.size code)) t

/-- Charge element operations to the context (R263). -/
def chargeVec (c : CoreId) (n : Nat) : Run Unit :=
  modify fun m => m.modCtx (m.ctxOf c) fun x => { x with act := { x.act with vec := x.act.vec + n } }

/-- Write a view: flags and ARITH first (R84, R186), then the generator and the elements. -/
def vCommit (c : CoreId) (d : ViewD) (zero : Bool) (l : List (Nat × Nat × Nat)) (g : W32) (fl : BitVec 6) : Run Unit := do
  raiseFlags c .V fl
  setInst c fun i => { i.setGen 1 g with v := { i.v with tile := putTile i.v.tile d zero l } }
  chargeVec c l.length

/-- Generator 1. -/
def Inst.gen1 (i : Inst) : W32 := i.gens.get 1

/-- Round elements and write them. -/
def vPut (c : CoreId) (d : ViewD) (zero : Bool) (rd : Rounder) (l : List Elem) : Run Unit := do
  let (codes, g, fl) := roundElems d.fmt rd (← getInst c).gen1 l
  vCommit c d zero codes g fl

/-- The rounder of V arithmetic: RMODE.MODE and SATMODE.ARSAT. -/
def Inst.arRounder (i : Inst) : Rounder := vRounder i.s.mode i.s.arsat

/-- The positions of a shape that a mask selects, in row-major order. -/
def Inst.selected (i : Inst) (mask : Fin 8) (ir ic : Nat) : List (Nat × Nat) :=
  (positions ir ic).filter fun (r, c) => i.v.maskBit mask r c

/-! ## Element words -/

/-- What an element word computes: the mode, a, b and the old d give the exact value. -/
abbrev ElemFn := RMode → XNum → XNum → XNum → XNum × BitVec 6

/-- A word that computes each written element from its sources at the same position (R156). -/
def vElem (c : CoreId) (word : Instr) (o : VMod) (d : Fin 16) (a : Src) (b : Option Src)
    (fn : ElemFn) (rd : Inst → Rounder := Inst.arRounder) : Run Unit := do
  let dv ← needView c word d
  let _ ← checkSrc c word a
  match b with
  | some x => discard (checkSrc c word x)
  | none => pure ()
  let (xa, xb) ← readSrcs c a b o.ra o.rb dv.vr
  let i ← getInst c
  let old := SrcVal.tile dv i.v
  let elems := (i.selected o.mask dv.vr dv.vc).map fun (r, k) =>
    let (u, f1) := xa.get r k
    let (v, f2) := match b with | some _ => xb.get r k | none => (.zero, 0)
    let (x, f3) := fn i.s.mode u v (old.get r k).1
    { r, c := k, x, fl := f1 ||| f2 ||| f3 : Elem }
  vPut c dv o.zero (rd i) elems

/-- A function of one operand. -/
def fn1 (f : XNum → XNum × BitVec 6) : ElemFn := fun _ a _ _ => f a

/-! ## Lines: VRED and VSCAN (R79, R80, R179, R180) -/

/-- The generator and the flags as a word goes. -/
abbrev Draw := W32 × BitVec 6

/-- round_fp32 of x + y with V's mode. -/
def addRound (mode : RMode) (x y : XNum) (s : Draw) : XNum × Draw :=
  let (v, f1) := addNum x y mode
  let (r, g) := roundFmt v .fp32 mode false s.1
  (ofFp32 r.code, g, s.2 ||| f1 ||| r.flags)

/-- One level of tree_sum (R79). -/
def treeLevel (mode : RMode) : List (Option XNum) → Draw → List (Option XNum) × Draw
  | some x :: some y :: t, s =>
    let (v, s) := addRound mode x y s
    let (l, s) := treeLevel mode t s
    (some v :: l, s)
  | none :: y :: t, s => let (l, s) := treeLevel mode t s; (y :: l, s)
  | x :: none :: t, s => let (l, s) := treeLevel mode t s; (x :: l, s)
  | l, s => (l, s)

/-- tree_sum over 64 positions (R79). -/
def treeSum (mode : RMode) (l : List (Option XNum)) (s : Draw) : XNum × Draw :=
  let (l, s) := (List.range 6).foldl (fun (acc : List (Option XNum) × Draw) _ => treeLevel mode acc.1 acc.2) (l, s)
  ((l.head?.join).getD .zero, s)

/-- The value of a source at a selected position of a line, with the flags of its decoding. -/
def lineElem (i : Inst) (mask : Fin 8) (x : SrcVal) (r c : Nat) : Option (XNum × BitVec 6) :=
  if i.v.maskBit mask r c then some (x.get r c) else none

/-- The positions of line k of a shape along an axis. -/
def linePos (axis : Axis) (ir ic k : Nat) : List (Nat × Nat) :=
  match axis with
  | .rows => (List.range ic).map fun c => (k, c)
  | .cols => (List.range ir).map fun r => (r, k)

/-- One line of VRED: the code of its output, where it is written. -/
def redLine (i : Inst) (mask : Fin 8) (x : SrcVal) (d : ViewD) (axis : Axis) (ir ic k : Nat)
    (acc : List (Nat × Nat × Nat) × Draw) : List (Nat × Nat × Nat) × Draw :=
  let els := (linePos axis ir ic k).map fun (r, c) => lineElem i mask x r c
  let fl := els.foldl (fun f e => match e with | some (_, g) => f ||| g | none => f) acc.2.2
  let vals := els.map fun e => e.map Prod.fst
  let (y, s) := treeSum i.s.mode (vals ++ List.replicate (64 - vals.length) none) (acc.2.1, fl)
  let (r, c) := match axis with | .rows => (k, 0) | .cols => (0, k)
  if r < d.vr && c < d.vc then
    let (o, g) := i.arRounder d.fmt y s.1
    (acc.1 ++ [(r, c, o.code)], g, s.2 ||| o.flags)
  else (acc.1, s)

/-- One position of VSCAN: the running value, then the output. -/
def scanStep (i : Inst) (mask : Fin 8) (x : SrcVal) (d : ViewD)
    (acc : Option XNum × List (Nat × Nat × Nat) × Draw) (p : Nat × Nat) :
    Option XNum × List (Nat × Nat × Nat) × Draw :=
  let (run, out, s) := acc
  let (run, s) : Option XNum × Draw :=
    match lineElem i mask x p.1 p.2, run with
    | none, r => (r, s)
    | some (v, f), none => (some v, s.1, s.2 ||| f)
    | some (v, f), some r =>
      let (w, s) := addRound i.s.mode r v (s.1, s.2 ||| f)
      (some w, s)
  if p.1 < d.vr && p.2 < d.vc then
    let (o, g) := i.arRounder d.fmt (run.getD .zero) s.1
    (run, (p.1, p.2, o.code) :: out, g, s.2 ||| o.flags)
  else (run, out, s)

/-- One line of VSCAN. -/
def scanLine (i : Inst) (mask : Fin 8) (x : SrcVal) (d : ViewD) (axis : Axis) (ir ic k : Nat)
    (acc : List (Nat × Nat × Nat) × Draw) : List (Nat × Nat × Nat) × Draw :=
  let (_, out, s) := (linePos axis ir ic k).foldl (scanStep i mask x d) (none, [], acc.2)
  (acc.1 ++ out.reverse, s)

/-- VRED and VSCAN over their lines. -/
def vLines (c : CoreId) (word : Instr) (o : VMod) (axis : Axis) (d : Fin 16) (a : Src)
    (line : Inst → SrcVal → ViewD → Nat → Nat → Nat → List (Nat × Nat × Nat) × Draw → List (Nat × Nat × Nat) × Draw) :
    Run Unit := do
  let dv ← needView c word d
  let av ← checkSrc c word a
  let shape := av.getD dv
  let (x, _) ← readSrcs c a none o.ra false shape.vr
  let i ← getInst c
  let n := match axis with | .rows => shape.vr | .cols => shape.vc
  let (codes, g, fl) := (List.range n).foldl (fun acc k => line i x dv shape.vr shape.vc k acc) ([], i.gen1, 0)
  vCommit c dv o.zero codes g fl

/-! ## F2 -/

/-- Push a word to F2 (R178): V stalls while it is full; after EXIT the word is discarded. -/
def pushF2 (c : CoreId) (w : Nat) : Run Unit := do
  let i ← getInst c
  if i.s.st.ended then return
  if 64 ≤ i.fifo.f2.length then waitFor (.fifoFull 2)
  setInst c fun i => { i with fifo := { i.fifo with f2 := i.fifo.f2 ++ [BitVec.ofNat 64 w] } }

/-! ## VST (R168, R187, R189) -/

/-- One element that a VST stores: position, address and code. -/
structure StoreElem where
  r : Nat
  c : Nat
  addr : Int
  code : Nat

/-- Wait for every block that a store addresses to be filled, before the first store (R189). -/
def awaitFills (c : CoreId) (part : Nat) (l : List StoreElem) : Run Unit := do
  for e in l do
    if 0 ≤ e.addr && e.addr < part then
      let _ ← tryCatch (localReady c (some .V) e.addr.toNat) fun st =>
        match st with
        | .wait k => throw (.wait k)
        | _ => return none

/-- What a store meets: nothing, or the trap it faults with. -/
def storeElem (c : CoreId) (part size : Nat) (e : StoreElem) : Run (Option (Cause × Nat)) := do
  if e.addr < 0 || (part : Int) < e.addr + size then return some (.protection, addr64 e.addr)
  let res ← tryCatch (do return (← localReady c (some .V) e.addr.toNat).map fun g => (Cause.storeNonresident, g))
    fun st => match st with
      | .trap k v => return some (k, v.toNat)
      | st => throw st
  match res with
  | some f => return some f
  | none =>
    modify fun m => m.padStore c e.addr.toNat (bytesOf size e.code)
    return none

/-- The scale of an element of a write port. -/
def storeScale (c : CoreId) (p : PortD) (part : Nat) (off : Int) (k : Nat) : Run (Option Byte) := do
  if p.geo = 0 then return none
  let a := p.scaleAddr off k
  if a < 0 || (part : Int) ≤ a then trap .protection (addr64 a)
  let l ← lReadFlags c a.toNat 1
  return l.head?.map Prod.fst

/-- The value that is encoded under a scale (R67), with the flags that decoding the scale raises (R70). -/
def underScale (x : XNum) : Option Byte → XNum × BitVec 6
  | none => (x, 0)
  | some s => if s = 0xFF then (.nan, flagInvalid ||| flagFormatCode) else (removeScale x s, 0)

/-- VST (R168, R187). -/
def vstWord (c : CoreId) (word : Instr) (mask : Fin 8) (d : Fin 8) (a : Fin 16) : Run Unit := do
  let v ← needView c word a
  needPort c word d true
  let i ← getInst c
  let p := i.v.ports.get d
  let pd := portD p.desc
  let f ← match fmtOfCode pd.fmt with | some f => pure f | none => trap .format 0
  let resume := i.s.rvalid && i.s.rstrm == 1
  let r0 := if resume then i.s.rrow.toNat else 0
  let c0 := if resume then i.s.rcol.toNat else 0
  let pos := (i.selected mask v.vr v.vc).filter fun (r, k) =>
    decide (k < pd.rlen) && (decide (r0 < r) || (r == r0 && decide (c0 ≤ k)))
  let src := SrcVal.tile v i.v
  let mut out : List StoreElem := []
  let mut g := i.gen1
  let mut fl : BitVec 6 := 0
  for (r, k) in pos do
    let off := pd.off ((p.j + (r - r0)) % pd.rows)
    let sc ← storeScale c pd i.id.part off k
    let (x, fs) := underScale (src.get r k).1 sc
    let (res, g') := roundFmt x f i.s.mode i.s.stsat g
    g := g'
    fl := fl ||| fs ||| res.flags
    out := out ++ [{ r, c := k, addr := pd.elemAddr (off + pd.base) k, code := res.code }]
  if fl &&& i.s.trapen ≠ 0 then trap .arith fl.toNat
  awaitFills c i.id.part out
  for e in out do
    match ← storeElem c i.id.part f.size e with
    | none => pure ()
    | some (k, val) =>
      setPort c d fun p => { p with j := (p.j + (e.r - r0)) % pd.rows }
      setInst c fun i => { i with s := { i.s with
        rrow := BitVec.ofNat 6 e.r, rcol := BitVec.ofNat 6 e.c, rstrm := 1, rvalid := true } }
      trap k val
  setPort c d fun p => { p with j := (p.j + (v.vr - r0)) % pd.rows }
  chargeVec c out.length
  setInst c fun i =>
    let i := (i.addFlags .V fl).setGen 1 g
    if resume then { i with s := { i.s with rvalid := false } } else i

end Sys2Proof.Machine
end

