-- ==== Sys2Proof/Machine/Mat.lean ====
section
/-! DEFINITION. The matrix engine: its records (R205–R210), the geometry of nests and jobs (R194–R196),
the checks of a commit (R215), jobs (R197), K-steps (R196–R202), pushes (R40) and the end of a commit
(R211, R218, R219). -/

namespace Sys2Proof.Machine
open Sys2Proof

/-- Change the matrix engine of a core's instance. -/
def setMat (c : CoreId) (f : Mat → Mat) : Run Unit := setInst c fun i => { i with m := f i.m }
def Mach.modMat (m : Mach) (c : CoreId) (f : Mat → Mat) : Mach := m.modInst c fun i => { i with m := f i.m }

/-! ## Geometry (R194, R195) -/

/-- MB of R194. -/
def NestCfg.mblocks (g : NestCfg) : Nat := (g.mask.rows + 63) / 64

/-- The outer levels L1 to L(n−1). -/
def Commit.outer (k : Commit) : List Level := (k.cfg.lv.toList.take k.n).drop 1
/-- L0. -/
def Commit.inner (k : Commit) : Level := k.cfg.lv.get 0

/-- J of R194. -/
def Commit.jobs (k : Commit) : Nat := (k.outer.map (·.count)).foldl (· * ·) k.cfg.mblocks

/-- Column group g is active. -/
def Commit.active (k : Commit) (g : Nat) : Bool := decide (64 * g < k.cfg.mask.cols)

/-- i1 … of a job number with its m-block taken off, innermost first. -/
def splitJob : List Level → Nat → List Nat
  | [], _ => []
  | l :: t, j => j % l.count :: splitJob t (j / l.count)

/-- The m-block and the outer indices of a job. -/
def Commit.tuple (k : Commit) (j : Nat) : Nat × List Nat :=
  (j % k.cfg.mblocks, splitJob k.outer (j / k.cfg.mblocks))

/-- Σ ik × step(k) over the outer levels. -/
def dotSteps (ix : List Nat) (steps : List Int) : Int := ((ix.zip steps).map fun (i, s) => (i : Int) * s).sum

/-- crow(i, b). -/
def Commit.crow (k : Commit) (j : Nat) : Int :=
  let (b, ix) := k.tuple j
  256 * k.cfg.set.val + k.cfg.crow0 + 64 * b + dotSteps ix (k.outer.map (·.cstep))

/-- Twice RB: the half-bytes of one B row. -/
def NestCfg.rb (g : NestCfg) : Nat := 32 * halfBytes g.fb

/-! ## Checks of a commit (R215) -/

/-- The first job row, in job order, that is outside 0–767 or in an undeclared set. Levels come
outermost first; a level whose row step is zero repeats itself, and one of thirteen or more steps leaves
the range within thirteen. -/
def firstBadRow (accsets : BitVec 3) (mb : Nat) : List Level → Int → Option Int
  | [], base => (List.range mb).findSome? fun (b : Nat) =>
      let r := base + 64 * (b : Int)
      if 0 ≤ r && r ≤ 704 && accsets.getLsbD (r.toNat / 256) then none else some r
  | l :: t, base =>
      (List.range (if l.cstep = 0 then 1 else min l.count 13)).findSome? fun (i : Nat) =>
        firstBadRow accsets mb t (base + (i : Int) * l.cstep)

/-- The rows at which an accepted commit's jobs begin. -/
def Commit.rowsOf (k : Commit) : List Int :=
  let start : List Int := (List.range k.cfg.mblocks).map fun (b : Nat) => ((256 * k.cfg.set.val + k.cfg.crow0 : Nat) : Int) + 64 * (b : Int)
  k.outer.foldl (fun acc l =>
    acc.flatMap fun x => (List.range (if l.cstep = 0 then 1 else min l.count 13)).map fun (i : Nat) => x + (i : Int) * l.cstep) start

/-- A commit has a job row in a set. -/
def Commit.rowIn (k : Commit) (set : Nat) : Bool := k.rowsOf.any fun r => r / 256 == set

/-- The number of K-steps that read B rows. -/
def Commit.ksteps (k : Commit) : Nat := min k.inner.count ((k.cfg.mask.depth + 63) / 64)

/-- The rows that K-step s reads of its 64. -/
def Commit.depthAt (k : Commit) (s : Nat) : Nat := min 64 (k.cfg.mask.depth - 64 * s)

/-- The offset of the scale row of the B row at an offset (R202). -/
def NestCfg.scaleRow (g : NestCfg) (x : Int) : Int :=
  let block : Int := if g.b.geo = 1 then 32 else 16
  g.b.soff + (x - g.b.off) / ((g.rb : Int) * block) * 64

/-- The offset that a B row at x offends with, if it does (check 3 of R215): the first offset of the row, or of its
scale row, that lies outside 0 to BS_FOOT − 1, which is BS_FOOT itself for a row that straddles it; the data row before
its scale row. Which of several offending offsets TVAL holds the spec does not say (DESIGN CHOICE,
notes/assumptions/114.md). -/
def NestCfg.badRow (g : NestCfg) (foot : Nat) (x : Int) : Option Int :=
  let rb : Int := g.rb
  if x < 0 then some x
  else if (foot : Int) < x + rb then some (max x foot)
  else if g.b.geo = 0 then none
  else if x < g.b.off then some x
  else
    let y := g.scaleRow x
    if (foot : Int) < y + 64 then some (max y foot) else none

/-- The least and the greatest sum of steps of a list of (count, step). -/
def stepHull (l : List (Nat × Int)) : Int × Int :=
  l.foldl (fun (a : Int × Int) (n, st) =>
    let d := ((n : Int) - 1) * st
    (a.1 + min 0 d, a.2 + max 0 d)) (0, 0)

/-- The least and greatest offsets that the K-steps add to a job's first B row. -/
def Commit.stepRange (k : Commit) : Int × Int :=
  let n := k.ksteps
  let last := fun (s : Nat) => (s : Int) * k.inner.bstep + (k.depthAt s - 1 : Nat) * (k.cfg.rb : Int)
  (min 0 (((n : Int) - 1) * k.inner.bstep), max (max (last 0) (last (n - 1))) (last (n - 2)))

/-- The first B row, in order of jobs and K-steps, that offends. -/
def Commit.firstBadB (k : Commit) (foot : Nat) : Option Int :=
  let inner := k.stepRange
  let bad := fun (lo hi : Int) => (k.cfg.badRow foot lo).isSome || (k.cfg.badRow foot hi).isSome
  let rec go : List (Nat × Int) → Int → Option Int
    | [], base => (List.range k.ksteps).findSome? fun (s : Nat) =>
        (List.range (k.depthAt s)).findSome? fun (kk : Nat) =>
          k.cfg.badRow foot (base + (s : Int) * k.inner.bstep + (kk : Int) * (k.cfg.rb : Int))
    | (n, st) :: t, base =>
        let h := stepHull t
        match (List.range n).find? fun (i : Nat) =>
            bad (base + (i : Int) * st + h.1 + inner.1) (base + (i : Int) * st + h.2 + inner.2) with
        | some i => go t (base + (i : Int) * st)
        | none => none
  go ((k.outer.map fun l => (l.count, l.bstep)).reverse) k.cfg.b.off

/-- Whether a commit may read a byte of [d, d + n) of a group's slice (R214, R215). -/
def Commit.readsB (k : Commit) (d n : Nat) : Bool :=
  let inner := k.stepRange
  let meets := fun (lo hi : Int) => decide (lo < d + n) && decide ((d : Int) < hi)
  let hit := fun (lo hi : Int) =>
    meets lo (hi + k.cfg.rb) || (k.cfg.b.geo != 0 && meets (k.cfg.scaleRow lo) (k.cfg.scaleRow hi + 64))
  let rec go : List (Nat × Int) → Int → Bool
    | [], base => (List.range k.ksteps).any fun s =>
        (List.range (k.depthAt s)).any fun kk =>
          let x := base + s * k.inner.bstep + kk * (k.cfg.rb : Int)
          hit x x
    | (n, st) :: t, base =>
        let h := stepHull t
        (List.range (if st = 0 then 1 else n)).any fun i =>
          hit (base + i * st + h.1 + inner.1) (base + i * st + h.2 + inner.2) && go t (base + i * st)
  go ((k.outer.map fun l => (l.count, l.bstep)).reverse) k.cfg.b.off

/-! ## Starting a commit and taking jobs (R197, R218) -/

/-- The sub-arrays of a group. -/
def groupSas (g : Nat) : List (Fin 16) := (List.range 4).map fun k => Fin.ofNat 16 (4 * g + k)

/-- A free sub-array takes the next job of its group. -/
def Mat.take (m : Mat) (k : Commit) (sa : Fin 16) : Mat :=
  let g := sa.val / 4
  let next := m.counters.get (Fin.ofNat 4 g)
  if k.active g && decide (next < k.jobs) then
    { m with
      sas := vset m.sas sa { m.sas.get sa with job := some next, k := 0 }
      counters := vset m.counters (Fin.ofNat 4 g) (next + 1) }
  else { m with sas := vset m.sas sa { m.sas.get sa with job := none, k := 0 } }

/-- A commit becomes active and its jobs begin. -/
def Mat.start (m : Mat) (k : Commit) : Mat :=
  let m := { m with
    active := some k, pending := none, counters := Vector.replicate 4 0, sas := Vector.replicate 16 {}
    done := [], slots := [], fault := none, dropped := false, ksteps := 0, kskip := 0 }
  (List.finRange 16).foldl (fun m sa => m.take k sa) m

/-- The last job of every active group has ended. -/
def Mat.allEnded (m : Mat) (k : Commit) : Bool :=
  (List.range 4).all fun g =>
    !k.active g || (decide (k.jobs ≤ m.counters.get (Fin.ofNat 4 g))
      && (groupSas g).all fun sa => (m.sas.get sa).job.isNone)

/-! ## Pushes (R40) -/

/-- Pushes of an engine enter their queues in order; one that finds its queue full waits, and so do
later ones to the same queue. -/
def pushAll (i : Inst) (e : Eng) (l : List Eng) : Inst × List Eng :=
  l.foldl (fun (acc : Inst × List Eng) d =>
    if acc.2.contains d then (acc.1, acc.2 ++ [d])
    else match acc.1.pushToken e d with
      | some i => (i, acc.2)
      | none => (acc.1, acc.2 ++ [d])) (i, [])

/-- M's pushes that wait enter their queues. -/
def Inst.flushMat (i : Inst) : Inst :=
  let (j, l) := pushAll i .M i.m.pushes
  { j with m := { j.m with pushes := l } }

/-! ## Reading a K-step's operands (R195, R200, R202) -/

/-- A nest's first address read from a page that is not resident (R211). -/
def noteNres (c : CoreId) (a : Nat) : Run Unit :=
  setMat c fun m => { m with nraddr := match m.nraddr with | some x => some x | none => some a }

/-- n local bytes for the nest, from an offset of an area: outside it the nest faults (R219). Bytes of A elements and
bitmap words are noted where they are not resident, scale bytes are not (Table 7.7). -/
def nestLocal (c : CoreId) (origin limit : Nat) (a : Int) (n : Nat) (noted : Bool := true) : Run (List Byte × Bool) := do
  if a < 0 then trap .protection (addr64 a)
  require (decide (a.toNat + n ≤ limit)) .protection (max a.toNat limit)
  let (l, nres) ← lRead c none (origin + a.toNat) n
  match nres with
  | some g => if noted then noteNres c g
  | none => pure ()
  return (l, nres.isSome)

/-- The code in element bytes that start at a half-byte. -/
def halfCode (fmt : Nat) (l : List Byte) (odd : Bool) : Nat :=
  let v := leNat l
  if fmt = 6 then (if odd then v / 16 else v % 16) else v

/-- One A element at a half-byte address: its exact value and the flags of its decoding. -/
def readA (c : CoreId) (k : Commit) (origin limit : Nat) (h : Int) : Run (XNum × BitVec 6) := do
  let g := k.cfg
  let fmt := g.fa
  let w := max 1 (halfBytes fmt / 2)
  let odd := h % 2 == 1
  if g.a.space = 2 then
    let va := nibByte h
    let (p, r) ← elemPage c .a va .read
    require (p.fmt == 0 || p.fmt == fmt) .format va
    let sc ← pageScale c .a p va r odd fmt k.scaleOff
    if !p.p then
      noteNres c va
      return (.zero, 0)
    let (l, nres) ← gRead c .a va w
    match nres with
    | some a =>
      noteNres c a
      return (.zero, 0)
    | none => return scaled (decodeCode fmt (halfCode fmt l odd) g.cbA) sc
  else
    let (l, nres) ← nestLocal c origin limit (h / 2) w
    let x := decodeCode fmt (halfCode fmt l odd) g.cbA
    if g.a.geo = 0 then return (if nres then (.zero, 0) else x)
    let block : Int := if g.a.geo = 1 then 32 else 16
    let part := (← getInst c).id.part
    let (s, _) ← nestLocal c 0 part (g.a.saddr + (h - 2 * g.a.addr) / ((halfBytes fmt : Int) * block)) 1 false
    return (if nres then (.zero, 0) else scaled x s.head?)

/-- One B element: row offset x, column c of its group (R202). -/
def readB (m : Mat) (g : NestCfg) (grp : Nat) (x : Int) (col : Nat) : XNum × BitVec 6 :=
  let h := halfBytes g.fb
  let base := grp * 2 ^ 21
  let l := cellsRead m.bstore (base + x.toNat + col * h / 2) (max 1 (h / 2))
  let v := decodeCode g.fb (halfCode g.fb l (col % 2 == 1)) g.cbB
  if g.b.geo = 0 then v
  else scaled v (some (cellGet m.bstore (base + (g.scaleRow x).toNat + col)))

/-- A bitmap word (R200); none when the bitmap is off. -/
def bitmapWord (c : CoreId) (b : Option Bitmap) (ix : List Nat) (mOrG s : Nat) : Run (Option Nat) := do
  match b with
  | none => return none
  | some b =>
    let part := (← getInst c).id.part
    let a : Int := (b.base : Int) + mOrG * b.m + s * b.k + dotSteps ix b.l
    let (l, _) ← nestLocal c 0 part a 8
    return some (leNat l)

/-- K-group q is skipped (R200). -/
def skipped (wa wb : Option Nat) (q : Nat) : Bool :=
  (match wa with | some w => (List.range 8).all fun rb => w.testBit (8 * rb + q) | none => false)
    || (match wb with | some w => (List.range 8).all fun cb => w.testBit (8 * q + cb) | none => false)

/-- The slot of a job's A panel (R207): jobs take slots in ascending order. -/
def jobSlot (c : CoreId) (k : Commit) (j : Nat) : Run Nat := do
  let i ← getInst c
  match alookup i.m.slots j with
  | some s => return s
  | none =>
    let b : Fin 16 := Fin.ofNat 16 k.cfg.a.addr
    require (i.x.cbs.get b).ready .illegal k.cfg.a.addr
    let groups := (List.range 4).filter k.active
    let released := fun n => groups.all fun g => i.m.done.contains (g, n)
    let turn := (List.range j).all fun n => released n || (alookup i.m.slots n).isSome
    if !turn then waitFor (.retry 5 b.val)
    let s ← takeFilled c b
    setMat c fun m => { m with slots := m.slots ++ [(j, s)] }
    return s

/-- A job has ended on a group; its slot is released when every active group has completed it. -/
def Inst.endJob (i : Inst) (k : Commit) (g j : Nat) : Inst :=
  let done := i.m.done ++ [(g, j)]
  let i := { i with m := { i.m with done } }
  if (((List.range 4).filter k.active).all fun g => done.contains (g, j)) then
    match alookup i.m.slots j with
    | some s =>
      let i := { i with m := { i.m with slots := aerase i.m.slots j } }
      i.releaseSlot (Fin.ofNat 16 k.cfg.a.addr) s
    | none => i
  else i

/-- A K-step may start: the sub-array has a job, does not idle, and no other of its group runs an
earlier job with the same rows (R197). -/
def Mat.mayStep (m : Mat) (k : Commit) (sa : Fin 16) : Option (Nat × Nat) :=
  let a := m.sas.get sa
  match a.job with
  | none => none
  | some j =>
    let blocked := a.k == 0 && (groupSas (sa.val / 4)).any fun o =>
      o != sa && match (m.sas.get o).job with
        | some n => decide (n < j) && k.crow n == k.crow j
        | none => false
    if a.idle || blocked then none else some (j, a.k)

/-- A sub-array that is free and does not idle takes the next job of its group (R197). -/
def Mat.ready (m : Mat) (k : Commit) (sa : Fin 16) : Mat :=
  let a := m.sas.get sa
  if a.job.isNone && !a.idle then m.take k sa else m

/-- A sub-array has a job to take or a K-step to start. -/
def Mat.canAct (m : Mat) (k : Commit) (sa : Fin 16) : Bool :=
  let a := m.sas.get sa
  (m.mayStep k sa).isSome || (a.job.isNone && !a.idle && k.active (sa.val / 4)
    && decide (m.counters.get (Fin.ofNat 4 (sa.val / 4)) < k.jobs))

/-- The sub-array whose turn it is: of those that can act the one that stands at the earliest time, and of several
the lowest-numbered (R197, R219). -/
def Mat.nextSa (m : Mat) (k : Commit) : Option (Fin 16) :=
  ((List.finRange 16).filter (m.canAct k)).foldl (fun best sa =>
    match best with
    | some b => if (m.sas.get sa).due < (m.sas.get b).due then some sa else best
    | none => some sa) none

/-- The cycles of a K-step with q skipped groups (R199). -/
def kstepCycles (g : NestCfg) (q : Nat) : Nat :=
  let fp8 := fun f => f == 4 || f == 5
  max 2 ((if fp8 g.fa && fp8 g.fb then 8 else 16) * (8 - q))

/-- The operands and the work of one K-step (R196): it leaves the accumulators, the flags, the counts
and the charge; the answer is the K-step's cycles. Of several operands that fault the first in this order is reported:
the slot, the A bitmap word, the B bitmap word, then the A elements row by row; R219 gives no order (DESIGN CHOICE,
notes/assumptions/114.md). -/
def runKstep (c : CoreId) (k : Commit) (sa : Fin 16) (j s : Nat) : Run Nat := do
  let g := k.cfg
  let grp := sa.val / 4
  let (b, ix) := k.tuple j
  let slot ← if g.a.space = 1 then jobSlot c k j else pure 0
  let wa ← bitmapWord c g.mapA ix b s
  let wb ← bitmapWord c g.mapB ix grp s
  let skips := (List.range 8).filter (skipped wa wb)
  let i ← getInst c
  let cb := i.x.cbs.get (Fin.ofNat 16 g.a.addr)
  let (origin, limit) := if g.a.space = 1 then (cb.base + slot * cb.slot, cb.slot) else (0, i.id.part)
  let rows := (List.range 64).filter fun r => decide (64 * b + r < g.mask.rows)
  let cols := (List.range 64).filter fun x => decide (64 * grp + x < g.mask.cols)
  let kks := (List.range 64).filter fun kk => decide (64 * s + kk < g.mask.depth) && !skips.contains (kk / 8)
  let outer := dotSteps ix (k.outer.map (·.astep))
  let bouter := dotSteps ix (k.outer.map (·.bstep))
  let brow := fun (kk : Nat) => (g.b.off : Int) + bouter + s * k.inner.bstep + kk * (g.rb : Int)
  let bvals := cols.map fun col => kks.map fun kk => readB i.m g grp (brow kk) col
  let mut acc := i.m.acc
  let mut fl : BitVec 6 := if rows.isEmpty then 0 else bvals.flatten.foldl (fun f v => f ||| v.2) 0
  for r in rows do
    let base : Int := if g.a.space = 1 then (r : Int) * g.a.pitch + s * k.inner.astep
      else (g.a.addr : Int) + outer + (64 * b + r : Nat) * (g.a.pitch : Int) + s * k.inner.astep
    let mut avals : List (XNum × BitVec 6) := []
    for kk in kks do
      avals := avals ++ [← readA c k origin limit (2 * base + (kk * halfBytes g.fa : Nat))]
    fl := avals.foldl (fun f v => f ||| v.2) fl
    for (col, bs) in cols.zip bvals do
      let at' := ((k.crow j).toNat + r) * 256 + 64 * grp + col
      let (v, f) := kstep (cellGet acc at') ((avals.zip bs).map fun (x, y) => (x.1, y.1))
      acc := cellSet acc at' v
      fl := fl ||| f
  let fp8 := kstepCycles g 0 == 64
  setInst c fun i => { i.addFlags .M fl with m := { i.m with
    acc, ksteps := i.m.ksteps + 1, kskip := i.m.kskip + skips.length } }
  modify fun m => m.modCtx i.id.ctx.val fun x => { x with act := { x.act with
    kg8 := x.act.kg8 + (if fp8 then 8 - skips.length else 0)
    kg16 := x.act.kg16 + (if fp8 then 0 else 8 - skips.length) } }
  return kstepCycles g skips.length

/-- A nest fault (R219): the trap is entered with TPC at the commit's MGO, and the nest parks on what
failed. -/
def Mach.nestFault (m : Mach) (c : CoreId) (k : Commit) (f : NestFault) (cause : Cause) (val : W64)
    (force : Bool) : Mach :=
  (m.modMat c fun x => { x with fault := some f }).takeTrap c .M cause k.mgo val .nest force

/-- The jobs of a group that wait for one with the same rows, which ends at a time, start no earlier (R197). -/
def Mat.holdTo (m : Mat) (k : Commit) (sa : Fin 16) (j due : Nat) : Mat :=
  let held := fun (o : Fin 16) => o != sa && (m.sas.get o).k == 0 &&
    match (m.sas.get o).job with | some n => decide (j < n) && k.crow n == k.crow j | none => false
  { m with sas := (groupSas (sa.val / 4)).foldl (fun v o =>
      if held o then vset v o { v.get o with due := max (v.get o).due due } else v) m.sas }

/-- After a K-step: the next one, or the job's end; then the idle cycles (R201). -/
def Mach.afterKstep (m : Mach) (c : CoreId) (k : Commit) (sa : Fin 16) (j s cycles : Nat) (thr : Fraction) : Mach :=
  let idle := decide (thr ≠ 0)
  let rest := if thr = 1 then cycles else 3 * cycles
  let wake := m.cycle + rest
  let due := ((m.inst c).m.sas.get sa).due + cycles + (if idle then rest else 0)
  let m := m.modInst c fun i =>
    let i := if s + 1 < k.inner.count then
        { i with m := { i.m with sas := vset i.m.sas sa { i.m.sas.get sa with k := s + 1 } } }
      else
        let i := i.endJob k (sa.val / 4) j
        let m := i.m.holdTo k sa j due
        { i with m := { m with sas := vset m.sas sa { m.sas.get sa with job := none, k := 0 } } }
    { i with m := { i.m with sas := vset i.m.sas sa { i.m.sas.get sa with idle, wake, due } } }
  if idle then m.timer rest (.throttleIdleEnd c sa) else m

/-- One K-step of a sub-array, where it may start one. -/
def Mach.kstepOf (m : Mach) (c : CoreId) (sa : Fin 16) (thr : Fraction) : Mach :=
  match (m.inst c).m.active with
  | none => m
  | some k =>
    let m := m.modMat c fun x => x.ready k sa
    match (m.inst c).m.mayStep k sa with
    | none => m
    | some (j, s) =>
      match (runKstep c k sa j s).go m with
      | (.ok cycles, m') => m'.afterKstep c k sa j s cycles thr
      | (.error (.trap cause val), _) => m.nestFault c k (.kstep sa) cause val false
      | (.error (.park cause val), _) => m.nestFault c k (.kstep sa) cause val true
      | (.error (.wait _), m') => (m.keepMoves m').modMat c fun x =>
        { x with sas := vset x.sas sa { x.sas.get sa with due := (x.sas.get sa).due + 1 } }

/-! ## The end of a commit (R211, R218) -/

/-- The status record (Table 7.7). -/
def Mat.statusRecord (m : Mat) : List Byte :=
  bytesOf 8 m.ksteps ++ bytesOf 8 m.kskip ++ bytesOf 8 (m.nraddr.getD 0)
    ++ bytesOf 8 ((if m.nraddr.isSome then 1 else 0) + (if m.dropped then 2 else 0))

/-- Write the status record, checked as an access of the M stream. -/
def writeStatus (c : CoreId) (k : Commit) : Run Unit := do
  let i ← getInst c
  let a := k.cfg.mask.statusAddr
  localBound c a 32
  let bad : Option Cause ← tryCatch (do return (← localReady c none a).map fun _ => Cause.storeNonresident)
    fun st => match st with
      | .trap cause _ => return some cause
      | st => throw st
  match bad with
  | some cause => trap cause a
  | none => pure ()
  modify fun m => m.padStore c a i.m.statusRecord
  setMat c fun m => { m with nraddr := none }

/-- The active commit ends: its slots are free, its push is made or waits, and a pending commit
becomes active. -/
def Inst.finishCommit (i : Inst) (k : Commit) : Inst :=
  let i := i.m.slots.foldl (fun i (_, s) => i.releaseSlot (Fin.ofNat 16 k.cfg.a.addr) s) i
  let m := { i.m with
    active := none, sas := Vector.replicate 16 {}, done := [], slots := [], fault := none, dropped := false
    pushes := i.m.pushes ++ k.push.toList }
  let m := match m.pending with | some p => m.start p | none => m
  ({ i with m } : Inst).flushMat

/-- An abandoned commit runs no further job. -/
def Mat.drop (m : Mat) (k : Commit) : Mat :=
  { m with
    fault := none, dropped := true, sas := Vector.replicate 16 {}, counters := Vector.replicate 4 k.jobs }

/-- COMMIT_END: where the active commit is to end. -/
def Mach.commitEndOf (m : Mach) (c : CoreId) : Mach :=
  let x := (m.inst c).m
  match x.active with
  | none => m
  | some k =>
    if x.fault = some .unrecorded then m.modInst c fun i => i.finishCommit k
    else
      let m := if x.fault = some .abandoned then m.modMat c fun x => x.drop k else m
      let x := (m.inst c).m
      if x.fault.isSome || !x.allEnded k then m
      else if !k.cfg.mask.sen then m.modInst c fun i => i.finishCommit k
      else
        match (writeStatus c k).go m with
        | (.ok _, m') => m'.modInst c fun i => i.finishCommit k
        | (.error (.trap cause val), m') => m'.nestFault c k .status cause val false
        | (.error (.park cause val), m') => m'.nestFault c k .status cause val true
        | (.error (.wait _), m') => m'

end Sys2Proof.Machine
end

