-- ==== Sys2Proof/Machine/MWords.lean ====
section
/-! DEFINITION. The meanings of the M words (R205–R217, R220). -/

namespace Sys2Proof.Machine
open Sys2Proof

/-! ## Starting a word -/

/-- M starts a word: a recorded point is resumed by the MDRN at TPC and cleared by any other word (R220);
a drain resume point that a fault left serves no other start. -/
def Mach.mStart (m : Mach) (c : CoreId) (word : Instr) : Mach :=
  let i := m.inst c
  if i.m.st.pushing.isSome then m
  else
    let mdrn := match word with | .mdrn .. => true | _ => false
    let recorded := i.s.rvalid && i.s.rstrm == 2
    if recorded && mdrn && i.m.st.pc == i.s.tpc then
      m.modInst c fun i => i.modStream .M fun st => { st with popped := true }
    else
      let m := if recorded then m.modSeq c fun s => { s with rvalid := false } else m
      if !mdrn || i.m.drainFault then m.modMat c fun x => { x with drain := none, drainFault := false } else m

/-- Run an M word that has no effect when it stops. -/
def State.mRun (s : State) (y : Sync) (word : Instr) (f : CoreId → Run Unit) : Out :=
  let c := s.mach.cur
  s.to ((s.mach.mStart c word).eWord c .M y word (orRestore (f c)))

/-- Run an M word that keeps what it did before it stopped. -/
def State.mKeep (s : State) (y : Sync) (word : Instr) (f : CoreId → Run Unit) : Out :=
  let c := s.mach.cur
  s.to ((s.mach.mStart c word).eWord c .M y word (f c))

/-- A configuration word stalls while a pending commit exists (R213). -/
def noPending (c : CoreId) : Run Unit := do
  if (← getInst c).m.pending.isSome then waitFor (.retry 0 0)

/-- Wait until neither commit has a job row in a set. -/
def setFree (c : CoreId) (set : Nat) : Run Unit := do
  let m := (← getInst c).m
  let busy := fun (k : Option Commit) => match k with | some k => k.rowIn set | none => false
  if busy m.active || busy m.pending then waitFor (.retry 9 0)

/-- A set must be declared (R204). -/
def setDeclared (c : CoreId) (set : Fin 3) : Run Unit := do
  require ((← getInst c).id.accsets.getLsbD set.val) .protection set.val

/-- Change the shadow. -/
def setShadow (c : CoreId) (f : NestCfg → NestCfg) : Run Unit := setMat c fun m => { m with shadow := f m.shadow }

/-- Bytes of a record that are reserved. -/
def recZero (l : List Byte) (o n : Nat) : Bool := ((l.drop o).take n).all (· == 0)

/-- The record of a word that may wait, read once: the word that waits keeps what it has read (R205). -/
def recordOnce (c : CoreId) (rec : BitVec 17) : Run (List Byte) := do
  match (← getInst c).m.record with
  | some l => return l
  | none =>
    let l ← readRecord c .M rec
    setMat c fun m => { m with record := some l }
    return l

/-- The word is done with its record. -/
def recordDone (c : CoreId) : Run Unit := setMat c fun m => { m with record := none }

/-! ## Configuration words (R213) -/

/-- MNEST (R206). -/
def execMnest (y : Sync) (lv : Fin 6) (rec : BitVec 17) (s : State) : Out :=
  let word := Instr.mnest y lv rec
  s.mRun y word fun c => do
    noPending c
    let l ← readRecord c .M rec
    let b := recInt l 8
    let cs := recInt l 12
    checkFields word .M [(0, recField l 2 2 == 0), (8, b % 32 == 0), (12, cs % 64 == 0 && (lv != 0 || cs == 0))
      , (16, recZero l 16 16)]
    let level : Level := { count := recField l 0 2 + 1, astep := recInt l 4, bstep := b, cstep := cs }
    setShadow c fun g => { g with lv := vset g.lv lv level }

/-- The A base record (R207). -/
def mbaseA (c : CoreId) (word : Instr) (l : List Byte) : Run Unit := do
  let ctrl := recField l 12 4
  let space := fld ctrl 0 2
  let geo := fld ctrl 2 2
  let addr := recField l 0 8
  let saddr := recField l 16 8
  let addrOk := match space with
    | 0 => decide (addr < 2 ^ 22) | 1 => decide (addr < 16) | 2 => isCanon addr | _ => true
  checkFields word .M [(0, addrOk)
    , (12, decide (ctrl < 16) && space != 3 && geo != 3 && (geo == 0 || space == 0))
    , (16, if geo = 0 then saddr == 0 else decide (saddr < 2 ^ 22)), (24, recZero l 24 8)]
  setShadow c fun g => { g with a := { addr, pitch := recField l 8 4, space, geo, saddr } }

/-- The B base record (R208). -/
def mbaseB (c : CoreId) (word : Instr) (l : List Byte) : Run Unit := do
  let off := recField l 0 4
  let geo := recField l 4 4
  let soff := recField l 8 4
  checkFields word .M [(0, decide (off < 2 ^ 21) && off % 32 == 0), (4, decide (geo < 3))
    , (8, decide (soff < 2 ^ 21) && soff % 64 == 0 && (geo != 0 || soff == 0)), (12, recZero l 12 20)]
  setShadow c fun g => { g with b := { off, geo, soff } }

/-- The C base record (R208). -/
def mbaseC (c : CoreId) (word : Instr) (l : List Byte) : Run Unit := do
  let row := recField l 0 4
  checkFields word .M [(0, [0, 64, 128, 192].contains row), (4, recZero l 4 28)]
  setShadow c fun g => { g with crow0 := row }

/-- MBASE (R207, R208). -/
def execMbase (y : Sync) (op : ABCSel) (rec : BitVec 17) (s : State) : Out :=
  let word := Instr.mbase y op rec
  s.mRun y word fun c => do
    noPending c
    let l ← readRecord c .M rec
    match op with
    | .a => mbaseA c word l
    | .b => mbaseB c word l
    | .c => mbaseC c word l

/-- MMASK (R209). -/
def execMmask (y : Sync) (rec : BitVec 17) (s : State) : Out :=
  let word := Instr.mmask y rec
  s.mRun y word fun c => do
    noPending c
    let l ← readRecord c .M rec
    let rows := recField l 0 4
    let cols := recField l 4 4
    let depth := recField l 8 4
    let st := recField l 16 8
    checkFields word .M [(0, decide (1 ≤ rows) && decide (rows ≤ 768)), (4, decide (1 ≤ cols) && decide (cols ≤ 256))
      , (8, decide (1 ≤ depth) && decide (depth ≤ 4194304)), (12, recZero l 12 4)
      , (16, fld st 0 22 % 32 == 0 && fld st 22 41 == 0), (24, recZero l 24 8)]
    setShadow c fun g => { g with mask := { rows, cols, depth, statusAddr := fld st 0 22, sen := st.testBit 63 } }

/-- MFMT (R213). -/
def execMfmt (y : Sync) (fa fb : MFormat) (s : State) : Out :=
  s.mRun y (.mfmt y fa fb) fun c => do
    noPending c
    setShadow c fun g => { g with fa := fa.code, fb := fb.code }

/-- MBMAP ON (R210). -/
def execMbmapOn (y : Sync) (op : ABSel) (rec : BitVec 17) (s : State) : Out :=
  let word := Instr.mbmapOn y op rec
  s.mRun y word fun c => do
    noPending c
    let r ← readRecord c .M rec
    let base := recField r 0 4
    checkFields word .M ((0, decide (base < 2 ^ 22) && base % 8 == 0)
      :: (List.range 7).map fun k => (4 + 4 * k, recInt r (4 + 4 * k) % 8 == 0))
    let b : Bitmap :=
      { base, k := recInt r 4, m := recInt r 8, l := (List.range 5).map fun k => recInt r (12 + 4 * k) }
    setShadow c fun g => match op with | .a => { g with mapA := some b } | .b => { g with mapB := some b }

/-- MBMAP OFF (R213). -/
def execMbmapOff (y : Sync) (op : ABSel) (s : State) : Out :=
  s.mRun y (.mbmapOff y op) fun c => do
    noPending c
    setShadow c fun g => match op with | .a => { g with mapA := none } | .b => { g with mapB := none }

/-- MCODE (R213): the slot is read now. -/
def execMcode (y : Sync) (op : ABSel) (slot : Fin 8) (s : State) : Out :=
  s.mRun y (.mcode y op slot) fun c => do
    noPending c
    let m ← get
    let b := (m.ctx (m.ctxOf c)).codebooks.get slot
    setShadow c fun g => match op with | .a => { g with cbA := b } | .b => { g with cbB := b }

/-- MACC (R213). -/
def execMacc (y : Sync) (set : Fin 3) (s : State) : Out :=
  s.mRun y (.macc y set) fun c => do
    noPending c
    setDeclared c set
    setShadow c fun g => { g with set }

/-- MACC CLEAR (R213): the check is made before the wait. -/
def execMaccClear (y : Sync) (set : Fin 3) (s : State) : Out :=
  s.mRun y (.maccClear y set) fun c => do
    noPending c
    setDeclared c set
    setFree c set.val
    setMat c fun m => { m with shadow := { m.shadow with set }, acc := cellsClear m.acc (set.val * 65536) 65536 }

/-! ## MLDB (R214, R203) -/

/-- Write one row of a group's slice: each line counts the write, and a line at its last count waits
for the re-key walk. -/
def writeBRow (c : CoreId) (g off : Nat) (row : List Byte) : Run Unit := do
  let lines := (List.range ((off % 64 + row.length + 63) / 64)).map fun k => bLine c g off + k
  let ctx := (← getInst c).id.ctx
  let x := (← get).ctx ctx.val
  if lines.any fun n => (x.line n).count == 0xFFFF then waitFor (.retry 0 1)
  setMat c fun m => { m with bstore := cellsWrite m.bstore (g * 2 ^ 21 + off) row }
  modify fun m => m.writeLines ctx lines

/-- MLDB (R214). A wait for the re-key walk leaves the rows written so far, which the word writes again. -/
def execMldb (y : Sync) (groups : BitVec 4) (rec : BitVec 17) (s : State) : Out :=
  let word := Instr.mldb y groups rec
  s.mKeep y word fun c => do
    let l ← recordOnce c rec
    let src := recField l 0 8
    let nrow := recField l 8 4
    let rb := recField l 12 4
    let doff := recField l 24 4
    checkFields word .M [(0, decide (src < 2 ^ 22)), (8, decide (nrow < 2 ^ 16)), (12, [32, 64, 128].contains rb)
      , (24, decide (doff < 2 ^ 21) && doff % 32 == 0), (28, recZero l 28 4)]
    let n := (nrow + 1) * rb
    let i ← getInst c
    require (decide (doff + n ≤ i.id.bsFoot)) .protection doff
    let sel := (List.range 4).filter fun g => groups.getLsbD g
    let reads := fun (k : Option Commit) =>
      match k with | some k => sel.any (fun g => k.active g) && k.readsB doff n | none => false
    if reads i.m.active || reads i.m.pending then waitFor (.retry 9 0)
    let addr := fun (g row : Nat) => (src : Int) + g * recInt l 20 + row * recInt l 16
    let rows := sel.flatMap fun g => (List.range (nrow + 1)).map fun r => (g, r)
    for (g, r) in rows do
      let a := addr g r
      if a < 0 then trap .protection (addr64 a)
      require (decide (a.toNat + rb ≤ i.id.part)) .protection (max a.toNat i.id.part)
    let mut data : List (Nat × Nat × List Byte) := []
    let mut nres : Option Nat := none
    for (g, r) in rows do
      let (bytes, bad) ← lRead c (some .M) (addr g r).toNat rb
      data := data ++ [(g, r, bytes)]
      if nres.isNone then nres := bad
    match nres with
    | some a => noteNres c a
    | none => pure ()
    for (g, r, bytes) in data do
      writeBRow c g (doff + r * rb) bytes
    recordDone c

/-! ## MGO (R215) -/

/-- MGO (R215): it is accepted here, and its push is made when its commit ends. -/
def execMgo (y : Sync) (n : Fin 6) (s : State) : Out :=
  let word := Instr.mgo y n
  s.mRun { y with push := 0 } word fun c => do
    noPending c
    let i ← getInst c
    let k : Commit := { cfg := i.m.shadow, n := n.val + 1, mgo := i.m.st.pc, push := peerOf .M y.push, scaleOff := i.s.scaleOff }
    require (k.cfg.mask.rows != 0) .illegal (recordVal word .M 60)
    match firstBadRow i.id.accsets k.cfg.mblocks k.outer.reverse (256 * k.cfg.set.val + k.cfg.crow0) with
    | some r => trap .protection (addr64 r)
    | none => pure ()
    match k.firstBadB i.id.bsFoot with
    | some o => trap .protection (addr64 o)
    | none => pure ()
    setMat c fun m => if m.active.isNone then m.start k else { m with pending := some k }

/-! ## MDRN (R216, R220) -/

/-- A drain's record (Table 7.11). -/
structure DrainRec where
  addr : Nat
  pitch : Nat
  global : Bool
  fmt : Fmt
  code : Nat
  mode : RMode
  sat : Bool
  add : Bool
  row0 : Nat
  nr : Nat
  col0 : Nat
  nc : Nat

/-- Check and read a drain's record. Where FMT is invalid the record gives no element size, and DPITCH, which stands
first, is held to 4 bytes (DESIGN CHOICE, notes/assumptions/115.md). -/
def drainRecord (word : Instr) (l : List Byte) : Run DrainRec := do
  let ctrl := recField l 12 4
  let code := fld ctrl 1 3
  let f := (fmtOfCode code).getD .fp32
  let rs := recField l 16 4
  let cs := recField l 20 4
  let global := ctrl.testBit 0
  let addr := recField l 0 8
  let selOk := fun v => decide (v < 2 ^ 17) && decide (1 ≤ fld v 8 9) && decide (fld v 0 8 + fld v 8 9 ≤ 256)
  checkFields word .M [(0, if global then isCanon addr else decide (addr < 2 ^ 22))
    , (8, recField l 8 4 % f.size == 0)
    , (12, decide (ctrl < 2 ^ 9) && (fmtOfCode code).isSome && decide (fld ctrl 4 3 ≤ 4))
    , (16, selOk rs), (20, selOk cs), (24, recZero l 24 8)]
  return { addr, pitch := recField l 8 4, global, fmt := f, code, mode := rmodeOf (fld ctrl 4 3)
           sat := ctrl.testBit 7, add := ctrl.testBit 8, row0 := fld rs 0 8, nr := fld rs 8 9
           col0 := fld cs 0 8, nc := fld cs 8 9 }

/-- The value of a drained element with the flags of its addition, for the bytes it adds to. -/
def drainValue (d : DrainRec) (acc : W32) (old : List Byte) : XNum × BitVec 6 :=
  if d.add then
    let (x, f1) := decodeFloat d.fmt (leNat old)
    let (v, f2) := addNum (ofFp32 acc.toNat) x d.mode
    (v, f1 ||| f2)
  else (ofFp32 acc.toNat, 0)

/-- Round a drained element with generator 2; its flags and draw stand once it is stored. -/
def drainRound (c : CoreId) (d : DrainRec) (v : XNum × BitVec 6) : Run (List Byte) := do
  let (r, g) := roundFmt v.1 d.fmt d.mode d.sat ((← getInst c).gens.get 2)
  setInst c fun i => (i.addFlags .M (r.flags ||| v.2)).setGen 2 g
  return bytesOf d.fmt.size r.code

/-- Store one element of a drain in the scratchpad. -/
def drainLocal (c : CoreId) (d : DrainRec) (a : Nat) (acc : W32) : Run Unit := do
  let n := d.fmt.size
  localBound c a n
  match ← localReady c (some .M) a with
  | some g => trap .storeNonresident g
  | none => pure ()
  match ← localReady c (some .M) (a + n - 1) with
  | some g => trap .storeNonresident g
  | none => pure ()
  let old := cellsRead (← getInst c).pad.bytes a n
  let bytes ← drainRound c d (drainValue d acc old)
  for (s, k) in lineSegs a n do
    modify fun m => m.padStore c s ((bytes.drop (s - a)).take k)

/-- Store one element of a drain at a global address. FMT and GEO are those of the page of its first byte, an element
that crosses into a second page included (DESIGN CHOICE, notes/assumptions/115.md). -/
def drainGlobal (c : CoreId) (d : DrainRec) (va : Nat) (acc : W32) : Run Unit := do
  let n := d.fmt.size
  let (p, _) ← elemPage c .a va .write
  require (!d.add || p.rd) .protection va
  require ((p.fmt == 0 || p.fmt == d.code) && p.geo == 0) .format va
  require p.p .storeNonresident va
  let old ← if d.add then pure (← gRead c .a va n).1 else pure []
  let bytes ← drainRound c d (drainValue d acc old)
  match ← gWrite c .a va bytes with
  | some a => trap .storeNonresident a
  | none => pure ()

/-- MDRN (R216): elements in order from the resume point; one that faults records where (R220). -/
def execMdrn (y : Sync) (set : Fin 3) (rec : BitVec 17) (s : State) : Out :=
  let word := Instr.mdrn y set rec
  s.mKeep y word fun c => do
    setDeclared c set
    let d ← drainRecord word (← recordOnce c rec)
    setFree c set.val
    let i ← getInst c
    let (r0, c0) := i.m.drain.getD (d.row0, d.col0)
    let pos := ((List.range d.nr).flatMap fun r => (List.range d.nc).map fun k => (d.row0 + r, d.col0 + k)).filter
      fun (r, k) => decide (r0 < r) || (r == r0 && decide (c0 ≤ k))
    for (r, k) in pos do
      let a := d.addr + (r - d.row0) * d.pitch + (k - d.col0) * d.fmt.size
      let acc := cellGet i.m.acc (set.val * 65536 + r * 256 + k)
      tryCatch (orRestore (if d.global then drainGlobal c d (a % 2 ^ 64) acc else drainLocal c d a acc)) fun st => do
        let fault := match st with | .wait _ => false | _ => true
        setMat c fun m => { m with drain := some (r, k), drainFault := fault }
        if fault then
          setInst c fun i => { i with s := { i.s with
            rrow := BitVec.ofNat 6 (r - d.row0), rcol := BitVec.ofNat 6 (k - d.col0), rstrm := 2, rvalid := true } }
        throw st
    setInst c fun i =>
      let i := { i with m := { i.m with drain := none, drainFault := false, record := none } }
      if i.s.rvalid && i.s.rstrm == 2 then { i with s := { i.s with rvalid := false } } else i

/-! ## MNOP and MEND (R217) -/

/-- MNOP (R217). -/
def execMnop (y : Sync) (s : State) : Out := s.mRun y (.mnop y) fun _ => pure ()

/-- MEND (R217): it waits until no commit is active or pending and every earlier push is made. -/
def execMend (y : Sync) (s : State) : Out :=
  ({ s with mach := s.mach.mStart s.mach.cur (.mend y) } : State).endRun .M y (.mend y) fun c => do
    let m := (← getInst c).m
    if m.active.isSome || m.pending.isSome || !m.pushes.isEmpty then waitFor (.retry 9 0)

end Sys2Proof.Machine
end

