-- ==== Sys2Proof/Machine/Keys.lean ====
section
/-! DEFINITION. The keys of XREP: quantisation, Morton and Hilbert curves (R387–R389), and the phases of an
exchange: quotas and the calendar (R375, R376, R390). -/

namespace Sys2Proof.Machine
open Sys2Proof

/-! ## Quantisation (R387) -/

/-- round_fp32 under RNE with its flags. -/
def roundS (x : XNum × BitVec 6) : XNum × BitVec 6 :=
  let r := roundCore x.1 .fp32 .rne false 0 none
  (ofFp32 r.code, x.2 ||| r.flags)

/-- 2^b ÷ d for an exact positive d, to 64 bits with what is left over noted. -/
def quotientNum (b : Nat) : XNum → XNum
  | .fin _ m e _ =>
    if m = 0 then .inf false
    else
      let k := ilog2 m + 64
      .fin false (2 ^ k / m) ((b : Int) - e - k) (2 ^ k % m != 0)
  | _ => .zero

/-- m(k) of R387: the rounded multiplier. -/
def multiplier (b : Nat) (lo hi : XNum) : XNum × BitVec 6 :=
  roundS (quotientNum b (addNum hi (negNum lo) .rne).1, 0)

/-- A coordinate's cell: q, the flags, and whether it was a NaN. -/
def quantise (b : Nat) (lo mul x : XNum) : Nat × BitVec 6 × Bool :=
  if x.isNan then (0, flagInvalid, true)
  else
    let t := roundS (addNum x (negNum lo) .rne)
    let p := mulNum t.1 mul
    let u := roundS (p.1, t.2 ||| p.2)
    let q := match u.1 with
      | .nan => 0
      | .inf neg => if neg then 0 else 2 ^ b - 1
      | .fin neg m e _ => if neg then 0 else min (2 ^ b - 1) (shiftNat m e)
    (q, u.2, false)

/-! ## Curves (R388, R389) -/

/-- A bit of a cell. -/
def cellBit (x : List Nat) (k i : Nat) : Nat := if (x.getD k 0).testBit i then 1 else 0

/-- The Morton key. -/
def mortonKey (x : List Nat) (b : Nat) : Nat :=
  ((List.range b).flatMap fun i => (List.range x.length).map fun k => cellBit x k i * 2 ^ (i * x.length + k)).sum

/-- One dimension of the undoing of excess work at Qv = 2^j. -/
def undoAt (j i : Nat) (x : List Nat) : List Nat :=
  let pm := 2 ^ j - 1
  let x0 := x.getD 0 0
  let xi := x.getD i 0
  if xi.testBit j then x.set 0 (x0 ^^^ pm)
  else
    let tt := (x0 ^^^ xi) &&& pm
    let x := x.set 0 (x0 ^^^ tt)
    x.set i (x.getD i 0 ^^^ tt)

/-- Undo excess work from Qv = 2^j down to 2. -/
def undoFrom : Nat → List Nat → List Nat
  | 0, x => x
  | j + 1, x => undoFrom j ((List.range x.length).foldl (fun x i => undoAt (j + 1) i x) x)

/-- The exclusive or of all that lies at and before each element (Gray encode). -/
def grayFrom : Nat → List Nat → List Nat
  | _, [] => []
  | a, x :: t => (a ^^^ x) :: grayFrom (a ^^^ x) t

/-- The correction of the last dimension, from Qv = 2^j down to 2. -/
def lastMask (last : Nat) : Nat → Nat
  | 0 => 0
  | j + 1 => (if last.testBit (j + 1) then 2 ^ (j + 1) - 1 else 0) ^^^ lastMask last j

/-- The Hilbert key by Skilling's transpose. -/
def hilbertKey (x : List Nat) (b : Nat) : Nat :=
  if x.length ≤ 1 then x.getD 0 0
  else
    let g := grayFrom 0 (undoFrom (b - 1) x)
    let tt := lastMask (g.getD (g.length - 1) 0) (b - 1)
    let y := g.map (· ^^^ tt)
    ((List.range b).reverse.flatMap fun j => (List.range y.length).map fun i => cellBit y i j).foldl
      (fun key v => 2 * key + v) 0

/-! ## Splitting by load (R390) -/

/-- The sum of histograms modulo 2^64. -/
def sumHist (hs : List (List Nat)) : List Nat :=
  (List.range 4096).map fun c => (hs.map fun h => h.getD c 0).sum % 2 ^ 64

/-- The owner of every bucket from a start on. -/
def ownersFrom (p w : Nat) : Nat → List Nat → List Nat
  | _, [] => []
  | start, h :: t => (if w = 0 then 0 else min (p - 1) (start * p / w)) :: ownersFrom p w (start + h) t

/-- The first bucket of every rank and W. -/
def splitBuckets (p : Nat) (hs : List (List Nat)) : List Nat × Nat :=
  let h := sumHist hs
  let w := h.sum
  let owners := ownersFrom p w 0 h
  ((List.range p).map fun r => (owners.findIdx? fun o => decide (r ≤ o)).getD 4096, w)

/-- The owner of a bucket, from the first buckets of the ranks. -/
def ownerOf (first : List Nat) (c : Nat) : Nat := (first.filter fun f => decide (f ≤ c)).length - 1

/-! ## Quotas and phases (R375, R376) -/

/-- The quotas of one receiver, sources in ascending rank. -/
def quotaCol : Nat → List Nat → List Nat
  | _, [] => []
  | room, d :: t => min d room :: quotaCol (room - min d room) t

/-- G from the rows D and the capacities: G[s][d]. -/
def quotaMatrix (d : List (List Nat)) (rcap : List Nat) : List (List Nat) :=
  let cols := (List.range rcap.length).map fun j => quotaCol (rcap.getD j 0) (d.map fun r => r.getD j 0)
  (List.range d.length).map fun s => cols.map fun c => c.getD s 0

/-- An entry of a matrix. -/
def entryAt (g : List (List Nat)) (s d : Nat) : Nat := (g.getD s []).getD d 0

/-- The pairs with something left, largest first, then by source and destination. -/
def remaining (p : Nat) (rm : List (List Nat)) : List (Nat × Nat × Nat) :=
  let all := (List.range p).flatMap fun s => (List.range p).map fun d => (entryAt rm s d, s, d)
  sortBy (fun a b => decide (b.1 < a.1) || (a.1 == b.1 && decide ([a.2.1, a.2.2] ≤ [b.2.1, b.2.2])))
    (all.filter fun e => decide (0 < e.1))

/-- One phase: the pairs taken in order, each rank sending and receiving once at most. -/
def phasePairs : List (Nat × Nat × Nat) → List Nat → List Nat → List (Nat × Nat × Nat)
  | [], _, _ => []
  | (r, s, d) :: t, snd, rcv =>
    if snd.contains s || rcv.contains d then phasePairs t snd rcv
    else (r, s, d) :: phasePairs t (s :: snd) (d :: rcv)

/-- The calendar: each grant with its rank. -/
def calendarFrom (p q : Nat) (g : List (List Nat)) : Nat → Nat → List (List Nat) → List (Nat × Grant) × Nat
  | 0, phase, _ => ([], phase)
  | fuel + 1, phase, rm =>
    match phasePairs (remaining p rm) [] [] with
    | [] => ([], phase)
    | l =>
      let grants := l.flatMap fun e =>
        let n := min e.1 q
        let o := entryAt g e.2.1 e.2.2 - e.1
        [ (e.2.1, ({ phase, send := true, partner := e.2.2, bytes := n, offset := o } : Grant)),
          (e.2.2, ({ phase, send := false, partner := e.2.1, bytes := n, offset := o } : Grant)) ]
      let rm := l.foldl (fun rm e => rm.set e.2.1 ((rm.getD e.2.1 []).set e.2.2 (e.1 - min e.1 q))) rm
      let (rest, n) := calendarFrom p q g fuel (phase + 1) rm
      (grants ++ rest, n)

/-- The calendar of G with a quantum, and its number of phases; self parts take none. -/
def calendar (q : Nat) (g : List (List Nat)) : List (Nat × Grant) × Nat :=
  let rm := g.zipIdx.map fun (r, k) => r.set k 0
  calendarFrom g.length q g ((rm.map List.sum).sum + 1) 0 rm

end Sys2Proof.Machine
end

