-- ==== Sys2Proof/Machine/Xfer.lean ====
section
/-! DEFINITION. The transfer unit: issue and its checks (R228–R236), the granules of copies, fills and
gathers (R231–R233, R236), block fills (R349), completion (R227, R233) and faults (R243). -/

namespace Sys2Proof.Machine
open Sys2Proof

/-- Change the transfer unit of a core's instance. -/
def setX (c : CoreId) (f : Xunit → Xunit) : Run Unit := setInst c fun i => { i with x := f i.x }
def Mach.modX (m : Mach) (c : CoreId) (f : Xunit → Xunit) : Mach := m.modInst c fun i => { i with x := f i.x }

/-- Change one transfer. -/
def Xunit.modT (x : Xunit) (ch : Fin 8) (id : Nat) (f : Transfer → Transfer) : Xunit :=
  { x with xfers := x.xfers.map fun t => if t.ch = ch && t.id = id then f t else t }

def Xunit.find (x : Xunit) (ch : Fin 8) (id : Nat) : Option Transfer :=
  x.xfers.find? fun t => t.ch == ch && t.id == id

/-! ## Records of copies and fills (R228–R230) -/

/-- The fields of a copy or fill record, its pitches resolved (R232). -/
structure CopyD where
  fill : Bool
  src : Nat
  dst : Nat
  rows : Nat
  ssp : Nat
  dsp : Nat
  sf : Nat
  df : Nat
  mode : RMode
  sat : Bool
  crec : Bool
  cslot : Nat
  srb : Nat
  spitch : Int
  dpitch : Int

/-- Read the fields of a record (Tables 8.3, 8.4). -/
def copyD (fill : Bool) (l : List Byte) : CopyD :=
  let ctrl := recField l 20 4
  let geom := recField l 24 8
  { fill, src := recField l 0 8, dst := recField l 8 8, rows := recField l 16 4
    ssp := fld ctrl 0 3, dsp := fld ctrl 3 3, sf := fld ctrl 6 4, df := fld ctrl 10 4
    mode := rmodeOf (fld ctrl 14 3), sat := ctrl.testBit 17, crec := ctrl.testBit 18, cslot := fld ctrl 19 3
    srb := (fld geom 0 12 + 1) * 16, spitch := sfld geom 16 24, dpitch := sfld geom 40 24 }

/-- An address field as its space reads it (R230): the rest zero. A global field that is not canonical, and a local one
whose rest is not zero, breaks its record, which is rejected; R235 names only the tables for that (DESIGN CHOICE,
notes/assumptions/118.md). -/
def addrField (space a : Nat) : Bool :=
  match space with
  | 0 => isCanon a | 1 => decide (a < 2 ^ 22) | 2 => decide (a < 2 ^ 18) | 3 => decide (a < 16)
  | 4 => decide (a < 8) | _ => true

/-- The fields that Tables 8.3 and 8.4 judge, in ascending offset. -/
def copyFields (fill : Bool) (l : List Byte) (crecOk : Bool) : List (Nat × Bool) :=
  let d := copyD fill l
  let ctrl := recField l 20 4
  let geom := recField l 24 8
  let book := d.dsp == 4
  [(0, fill || addrField (if 2 < d.ssp then 7 else d.ssp) d.src), (8, addrField d.dsp d.dst)
  , (16, decide (1 ≤ d.rows) && decide (d.rows ≤ 65536) && (!book || d.rows == 1))
  , (20, decide (ctrl < 2 ^ 22) && decide (d.ssp ≤ 2) && decide (d.dsp ≤ 4) && decide (fld ctrl 14 3 ≤ 4)
      && (!fill || (d.ssp == 0 && d.sf == 0 && d.df == 0 && fld ctrl 14 4 == 0 && d.cslot == 0))
      && (!book || (d.sf == 0 && d.df == 0)) && (crecOk || !d.crec))
  , (24, fld geom 12 4 == 0 && (!book || d.srb == 32))]

/-- The effective format of a side at issue (R65, R230): a global side's page, when it has one. -/
def effective (m : Mach) (ctx : Nat) (global : Bool) (a fmt : Nat) : Nat :=
  if global then
    match m.walk ctx a with
    | some p => if p.fmt = 0 then fmt else p.fmt
    | none => fmt
  else fmt

/-- A transfer converts when both effective formats are nonzero and differ (R231). -/
def converts (sf df : Nat) : Bool := sf != 0 && df != 0 && sf != df

/-- The formats that a conversion admits (R231); the tile store holds FP32 and BF16. -/
def convertOk (d : CopyD) (sf df : Nat) : Bool :=
  decide (sf ≤ 6) && decide (df ≤ 5) && (d.ssp != 2 || decide (sf ≤ 2)) && (d.dsp != 2 || decide (df ≤ 2))

/-- The destination row's bytes. -/
def CopyD.drb (d : CopyD) (sf df : Nat) : Nat :=
  if !d.fill && converts sf df then d.srb * halfBytes df / halfBytes sf else d.srb

/-- The row steps, packed where the pitch is 0 (R232). -/
def CopyD.sstep (d : CopyD) : Int := if d.spitch = 0 then d.srb else d.spitch
def CopyD.dstep (d : CopyD) (drb : Nat) : Int := if d.dpitch = 0 then drb else d.dpitch

/-- The first byte of a walk, in order, outside [0, limit). -/
def walkBreach (start step : Int) (rows rb limit : Nat) : Option Nat :=
  (List.range rows).findSome? fun (k : Nat) =>
    let a := start + (k : Int) * step
    if a < 0 then some (addr64 a)
    else if limit < a.toNat + rb then some (max a.toNat limit) else none

/-- The element size that an alignment rule uses. -/
def alignOf (fmt : Nat) : Int := if fmt = 1 || fmt = 7 then 4 else if fmt = 2 || fmt = 3 then 2 else 1

/-- The limit of a local space of an instance. -/
def localLimit (i : Inst) (space : Nat) (dst : Nat) : Option Nat :=
  match space with
  | 1 => some i.id.part
  | 2 => some i.id.tsFoot
  | 3 => some (i.x.cbs.get (Fin.ofNat 16 dst)).slot
  | _ => none

/-- How a rejected record is reported: the word's TVAL for an offset, or 60 for no field (R226, R238). -/
abbrev Reject := Nat → Nat

/-- The checks of a copy or fill in the order of R235. -/
def checkCopy (c : CoreId) (rej : Reject) (fill crecOk : Bool) (l : List Byte) (recAddr : Nat) : Run (CopyD × Nat × Nat) := do
  match (copyFields fill l crecOk).find? fun f => !f.2 with
  | some f => trap .illegal (rej f.1)
  | none => pure ()
  let d := copyD fill l
  require (decide (d.sf ≤ 8) && decide (d.df ≤ 8)) .format 0
  let m ← get
  let i := m.inst c
  let sf := effective m i.id.ctx.val (!fill && d.ssp == 0) d.src d.sf
  let df := effective m i.id.ctx.val (d.dsp == 0) d.dst d.df
  if !fill && converts sf df then require (convertOk d sf df) .format 0
  let drb := d.drb sf df
  let breach := fun (space : Nat) (start : Int) (step : Int) (rb : Nat) (buf : Nat) =>
    match localLimit i space buf with
    | some lim => if space = 3 && !(i.x.cbs.get (Fin.ofNat 16 buf)).ready then none else walkBreach start step d.rows rb lim
    | none => none
  let b1 := if fill then none else breach d.ssp d.src d.sstep d.srb 0
  match b1 with
  | some a => trap .protection a
  | none => pure ()
  match breach d.dsp (if d.dsp = 3 then 0 else d.dst) (d.dstep drb) drb d.dst with
  | some a => trap .protection a
  | none => pure ()
  if d.crec then localBound c (recAddr + 32) 32
  let bad : List (Int × Int) :=
    (if fill then [] else [((d.src : Int), alignOf sf)]) ++ (if d.dsp < 3 then [((d.dst : Int), alignOf df)] else [])
      ++ (if fill then [] else [(d.spitch, alignOf sf)]) ++ [(d.dpitch, alignOf df)]
  match bad.find? fun (v, n) => v % n != 0 with
  | some (v, _) => trap .misaligned (addr64 v)
  | none => pure ()
  if d.dsp = 3 then require (i.x.cbs.get (Fin.ofNat 16 d.dst)).ready .illegal (rej 8)
  return (d, sf, df)

/-! ## Gather records (R236) -/

/-- The fields of a gather record (Table 8.7). -/
structure GatherD where
  table : Nat
  idxa : Nat
  loc : Nat
  lsp : Nat
  crec : Bool
  ntab : Nat
  n : Nat
  rb : Nat

def gatherD (l : List Byte) : GatherD :=
  let loc := recField l 16 4
  { table := recField l 0 8, idxa := recField l 8 8, loc := fld loc 0 22, lsp := fld loc 22 3, crec := loc.testBit 25
    ntab := recField l 20 4, n := recField l 24 4 + 1, rb := (fld (recField l 28 4) 0 12 + 1) * 16 }

def gatherFields (scatter : Bool) (l : List Byte) : List (Nat × Bool) :=
  let d := gatherD l
  let loc := recField l 16 4
  let lspOk := d.lsp == 1 || d.lsp == 2 || (d.lsp == 3 && !scatter)
  [(0, isCanon d.table), (8, isCanon d.idxa && d.idxa % 4 == 0)
  , (16, decide (loc < 2 ^ 26) && lspOk && (d.lsp != 3 || decide (d.loc < 16)))
  , (20, d.ntab != 0), (24, decide (d.n ≤ 65536)), (28, decide (recField l 28 4 < 2 ^ 12))]

/-- The checks of a gather or scatter in the order of R235. -/
def checkGather (c : CoreId) (rej : Reject) (scatter : Bool) (l : List Byte) (recAddr : Nat) : Run GatherD := do
  match (gatherFields scatter l).find? fun f => !f.2 with
  | some f => trap .illegal (rej f.1)
  | none => pure ()
  let d := gatherD l
  let i ← getInst c
  let ready := d.lsp != 3 || (i.x.cbs.get (Fin.ofNat 16 d.loc)).ready
  match localLimit i d.lsp d.loc with
  | some lim =>
    let start := if d.lsp = 3 then 0 else d.loc
    if ready then require (decide (start + d.n * d.rb ≤ lim)) .protection (max start lim)
  | none => pure ()
  if d.crec then localBound c (recAddr + 32) 32
  require ready .illegal (rej 16)
  return d

/-! ## Issue (R224, R235, R241) -/

/-- A producer takes the slot at the producer head (R241): it waits while that slot is not free. -/
def takeFree (c : CoreId) (k : Fin 16) : Run Nat := do
  let b := (← getInst c).x.cbs.get k
  match b.slotAt b.ph with
  | .free =>
    setInst c fun i => i.setCb k fun b => { b with slots := b.slots.set b.ph .filling, ph := (b.ph + 1) % b.n }
    return b.ph
  | _ => waitFor (.retry 5 k.val)

/-- Who issues a transfer: the word's address and push, and the XSTG it belongs to. -/
structure Issuer where
  pc : W64
  push : Option Eng
  stg : Option Nat

/-- Issue one transfer of a checked record (R235): it has no effect when it waits or traps. -/
def issue (c : CoreId) (rej : Reject) (ch : Fin 8) (kind : XKind) (l : List Byte) (recAddr : Nat) (crecOk : Bool)
    (by' : Issuer) : Run Unit := orRestore do
  let (buf, sfmt, dfmt) : Option Nat × Nat × Nat ←
    match kind with
    | .gather | .scatter => do
      let d ← checkGather c rej (kind == .scatter) l recAddr
      pure (if d.lsp = 3 then some d.loc else none, 0, 0)
    | _ => do
      let (d, sf, df) ← checkCopy c rej (kind == .fill) crecOk l recAddr
      pure (if d.dsp = 3 then some d.dst else none, sf, df)
  if 4 ≤ (← getInst c).x.holds ch then waitFor (.retry 8 ch.val)
  let slot ← match buf with
    | some b => do pure (some (← takeFree c (Fin.ofNat 16 b)))
    | none => pure none
  let id := ((← getInst c).x.tissue.get ch).toNat + 1
  require (decide (id < 2 ^ 48)) .illegal (rej 60)
  let t : Transfer :=
    { ch, id, kind, body := l, recAddr, pc := by'.pc, slot, push := by'.push, stg := by'.stg, sfmt, dfmt
      scaleOff := (← getInst c).s.scaleOff }
  setX c fun x => { x with tissue := vset x.tissue ch (BitVec.ofNat 48 id), xfers := x.xfers ++ [t] }

/-! ## What a transfer has read and done -/

/-- A transfer in progress of one granule: what it adds to its record. -/
structure Note where
  nres : Option Nat := none
  lines : List Nat := []

/-- Note a source line read as zero (R233). -/
def Note.add (n : Note) (a : Nat) : Note :=
  { nres := match n.nres with | some x => some x | none => some a
    lines := if n.lines.contains (a / 64) then n.lines else n.lines ++ [a / 64] }

def Transfer.note (t : Transfer) (n : Note) : Transfer :=
  { t with
    nres := t.nres || n.nres.isSome
    nraddr := if t.nres then t.nraddr else n.nres.getD 0
    nrLines := t.nrLines ++ n.lines.filter fun l => !t.nrLines.contains l }

/-- One piece of a granule on its way to the destination: its place in the walk, and the bytes, or the
value to be rounded with the flags of its decoding. -/
inductive Piece where
  | raw (pos : Nat) (bytes : List Byte)
  | elem (pos : Nat) (x : XNum) (fl : BitVec 6)

def Piece.pos : Piece → Nat | .raw p _ => p | .elem p _ _ => p

/-- Tile-store bytes. -/
def tileRead (c : CoreId) (a n : Nat) : Run (List Byte) := do return cellsRead (← getInst c).v.tile a n
def tileWrite (c : CoreId) (a : Nat) (l : List Byte) : Run Unit :=
  setInst c fun i => { i with v := { i.v with tile := cellsWrite i.v.tile a l } }

/-- Source bytes inside one line, from a space; the flag says that they read as zero. A global address that is not
canonical maps nothing (R230). -/
def readSource (c : CoreId) (ch : Fin 8) (space : Nat) (a n : Nat) : Run (List Byte × Option Nat) := do
  match space with
  | 0 => do
    require (isCanon a) .protection a
    gRead c (.ch ch) a n
  | 1 => lRead c none a n
  | _ => do return (← tileRead c a n, none)

/-- The rows of destination bytes [pos, stop) of a walk: (row, first byte of the row, bytes). -/
def rowPieces (drb pos stop : Nat) : List (Nat × Nat × Nat) :=
  if drb = 0 || stop ≤ pos then []
  else
    let first := pos / drb
    (List.range ((stop - 1) / drb - first + 1)).map fun k =>
      let r := first + k
      let lo := max pos (r * drb)
      (r, lo - r * drb, min stop ((r + 1) * drb) - lo)

/-- The address of a walk's byte as 64 bits in the global space and as it stands in a local one. -/
def spaceAddr (space : Nat) (a : Int) : Nat := if space = 0 then addr64 a else a.toNat

/-- Source pieces of an unconverted copy, line by line. -/
def rawSources (d : CopyD) (drb pos stop : Nat) : List (Nat × Nat × Nat) :=
  (rowPieces drb pos stop).flatMap fun (r, o, n) =>
    let a := spaceAddr d.ssp ((d.src : Int) + r * d.sstep + o)
    (lineSegs a n).map fun (x, k) => (r * drb + o + (x - a), x, k)

/-- What was read before a stop, and the stop. -/
abbrev Gathered := List Piece × Note × Option Stop

/-- Run a read, keeping how it stopped; a wait stops the granule. -/
def tryRead {α : Type} (f : Run α) : Run (Except Stop α) :=
  tryCatch (do return .ok (← f)) fun st =>
    match st with
    | .wait k => throw (.wait k)
    | st => return .error st

/-- Read the pieces of an unconverted copy. -/
def readRaw (c : CoreId) (ch : Fin 8) (d : CopyD) (drb pos stop : Nat) : Run Gathered := do
  let mut out : List Piece := []
  let mut note : Note := {}
  for (p, a, k) in rawSources d drb pos stop do
    match ← tryRead (readSource c ch d.ssp a k) with
    | .error st => return (out, note, some st)
    | .ok (l, nres) =>
      out := out ++ [.raw p l]
      match nres with
      | some g => note := note.add g
      | none => pure ()
  return (out, note, none)

/-- Check a global page of a converting transfer (R65, R66). -/
def convPage (p : Page) (field eff va : Nat) : Run Unit :=
  require ((if p.fmt = 0 then field else p.fmt) == eff && (p.fmt == 0 || field == 0 || p.fmt == field)
    && p.geo != 3 && (p.geo == 0 || (decide (4 ≤ p.fmt) && decide (p.fmt ≤ 6)))) .format va

/-- One source element of a conversion at a half-byte address (R231). -/
def readElem (c : CoreId) (ch : Fin 8) (d : CopyD) (sf : Nat) (so : W64) (h : Int) : Run ((XNum × BitVec 6) × Option Nat) := do
  let w := max 1 (halfBytes sf / 2)
  let odd := h % 2 == 1
  let m ← get
  let x := m.ctx (m.ctxOf c)
  if d.ssp = 0 then
    let va := nibByte h
    let (p, r) ← elemPage c (.ch ch) va .read
    convPage p d.sf sf va
    if !p.p then return ((.zero, 0), some va)
    let sc ← pageScale c (.ch ch) p va r odd sf so
    match ← gRead c (.ch ch) va w with
    | (_, some a) => return ((.zero, 0), some a)
    | (l, none) => return (scaled (decodeCode sf (halfCode sf l odd) (x.book p.cb)) sc, none)
  else
    let (l, nres) ← readSource c ch d.ssp (h / 2).toNat w
    match nres with
    | some g => return ((.zero, 0), some g)
    | none => return (decodeCode sf (halfCode sf l odd) (x.book d.cslot), none)

/-- Read the elements of a converting copy. -/
def readConv (c : CoreId) (ch : Fin 8) (d : CopyD) (so : W64) (sf df drb pos stop : Nat) : Run Gathered := do
  let wd := halfBytes df / 2
  let mut out : List Piece := []
  let mut note : Note := {}
  for (r, o, n) in rowPieces drb pos stop do
    for e in (List.range (n / wd)).map (o / wd + ·) do
      let h : Int := 2 * ((d.src : Int) + r * d.sstep) + (e * halfBytes sf : Nat)
      match ← tryRead (readElem c ch d sf so h) with
      | .error st => return (out, note, some st)
      | .ok ((x, fl), nres) =>
        out := out ++ [.elem (r * drb + e * wd) x fl]
        match nres with
        | some g => note := note.add g
        | none => pure ()
  return (out, note, none)

/-! ## Writing a granule -/

/-- Write bytes into a codebook slot (R64). -/
def writeBook (c : CoreId) (slot o : Nat) (l : List Byte) : Run Unit :=
  modify fun m => m.modCtx (m.ctxOf c) fun x =>
    let k : Fin 8 := Fin.ofNat 8 slot
    let b := (l.zipIdx).foldl (fun (b : Vector W16 16) (y, n) =>
      let j : Fin 16 := Fin.ofNat 16 ((o + n) / 2)
      let v := (b.get j).toNat
      let v := if (o + n) % 2 = 0 then v / 256 * 256 + y.toNat else v % 256 + y.toNat * 256
      vset b j (BitVec.ofNat 16 v)) (x.codebooks.get k)
    { x with codebooks := vset x.codebooks k b }

/-- The address of byte pos of a destination walk. -/
def CopyD.dstAt (d : CopyD) (i : Inst) (slot : Option Nat) (drb pos : Nat) : Nat :=
  let r := pos / drb
  let base : Int := match d.dsp with
    | 3 => let b := i.x.cbs.get (Fin.ofNat 16 d.dst); (b.base + slot.getD 0 * b.slot : Nat)
    | 4 => 0
    | _ => d.dst
  spaceAddr d.dsp (base + r * d.dstep drb + (pos % drb : Nat))

/-- Where a granule that is to end at a byte of the walk ends: an aligned 8-byte unit of the destination that it has
begun is written whole (R91, notes/assumptions/119.md). -/
def CopyD.granuleEnd (d : CopyD) (i : Inst) (slot : Option Nat) (drb stop : Nat) : Nat :=
  let whole := stop + (8 - d.dstAt i slot drb stop % 8) % 8
  if d.dstep drb = drb then whole
  else if stop % drb = 0 then stop
  else min whole ((stop / drb + 1) * drb)

/-- Write bytes at a destination address, line by line: where they stop, and why. -/
def writeDest (c : CoreId) (ch : Fin 8) (d : CopyD) (a : Nat) (l : List Byte) : Run (Option (Nat × Stop)) := do
  match d.dsp with
  | 2 => tileWrite c a l; return none
  | 4 => writeBook c d.dst a l; return none
  | _ =>
    for (x, k) in lineSegs a l.length do
      let bytes := (l.drop (x - a)).take k
      let res ← tryRead (if d.dsp = 0 then do require (isCanon x) .protection x; gWrite c (.ch ch) x bytes else lWrite c none x bytes)
      match res with
      | .ok none => pure ()
      | .ok (some g) => return some (x - a, .trap .storeNonresident (BitVec.ofNat 64 g))
      | .error st => return some (x - a, st)
    return none

/-- The number of elements of a destination walk that a channel draws for before one at a place of it: those at lower
addresses, and of one address those of earlier rows (R73). -/
def CopyD.drawRank (d : CopyD) (df drb pos : Nat) : Nat :=
  let w := halfBytes df / 2
  let cols := drb / w
  let row := pos / drb
  let col := pos % drb / w
  ((List.range d.rows).map fun (q : Nat) =>
    let at' : Int := (col : Int) + ((row : Int) - q) * d.dstep drb / w
    (min (cols : Int) (max 0 (if q < row then at' + 1 else at'))).toNat).sum

/-- A walk whose destination addresses do not rise (R73). -/
def CopyD.mixed (d : CopyD) (drb : Nat) : Bool := decide (1 < d.rows) && decide (d.dstep drb < drb)

/-- The generator after n draws. -/
def drawn (g : W32) : Nat → W32
  | 0 => g
  | n + 1 => drawn (xorshift g) n

/-- The bytes of a converted element, with its flags and the generator after it (R67, R231). Where the walk's addresses
rise the draws follow it; elsewhere an element takes the draw of its rank by address, and the generator counts the
elements written (R73). -/
def roundDest (c : CoreId) (ch : Fin 8) (d : CopyD) (gen0 : Option W32) (df drb pos : Nat) (x : XNum) (sc : Option Byte) :
    Run (List Byte × BitVec 6 × W32) := do
  let f := (fmtOfCode df).getD .fp32
  let (x, fs) := underScale x sc
  match gen0 with
  | some g0 =>
    let (r, _) := roundFmt x f d.mode d.sat (drawn g0 (d.drawRank df drb pos))
    return (bytesOf f.size r.code, fs ||| r.flags, drawn g0 (pos / (halfBytes df / 2) + 1))
  | none =>
    let g := (← getInst c).gens.get (Fin.ofNat 11 (3 + ch.val))
    let (r, g) := roundFmt x f d.mode d.sat g
    return (bytesOf f.size r.code, fs ||| r.flags, g)

/-- Write one converted element: its flags and its draw stand once it is written. -/
def writeElem (c : CoreId) (ch : Fin 8) (d : CopyD) (gen0 : Option W32) (so : W64) (df drb pos a : Nat) (x : XNum) (fl : BitVec 6) :
    Run (Option Stop × BitVec 6) := do
  let res ← tryRead (do
    let sc ← if d.dsp = 0 then do
        let (p, r) ← elemPage c (.ch ch) a .write
        convPage p d.df df a
        require p.p .storeNonresident a
        pageScale c (.ch ch) p a r false df so
      else pure none
    roundDest c ch d gen0 df drb pos x sc)
  match res with
  | .error st => return (some st, 0)
  | .ok (bytes, f, g) =>
    match ← writeDest c ch d a bytes with
    | some (_, st) => return (some st, 0)
    | none =>
      setInst c fun i => (i.addFlags .X (fl ||| f)).setGen (Fin.ofNat 11 (3 + ch.val)) g
      return (none, fl ||| f)

/-- Write the pieces of a granule in order: where the walk then stands, its flags, and what stopped it. -/
def writePieces (c : CoreId) (ch : Fin 8) (d : CopyD) (slot : Option Nat) (gen0 : Option W32) (so : W64) (df drb stop : Nat)
    (l : List Piece) : Run (Nat × BitVec 6 × Option Stop) := do
  let mut fl : BitVec 6 := 0
  for p in l do
    let a := d.dstAt (← getInst c) slot drb p.pos
    match p with
    | .raw pos bytes =>
      match ← writeDest c ch d a bytes with
      | some (k, st) => return (pos + k, fl, some st)
      | none => pure ()
    | .elem pos x f =>
      match ← writeElem c ch d gen0 so df drb pos a x f with
      | (some st, _) => return (pos, fl, some st)
      | (none, f) => fl := fl ||| f
  return (stop, fl, none)

/-- The bytes of a fill's pattern for destination bytes [pos, stop) (R232). -/
def fillPieces (d : CopyD) (drb pos stop : Nat) : List Piece :=
  (rowPieces drb pos stop).map fun (r, o, n) =>
    .raw (r * drb + o) ((List.range n).map fun k => BitVec.ofNat 8 (fld d.src ((o + k) % 8 * 8) 8))

/-- A granule of a copy or fill (R232): its reads, then its writes; the transfer as it then stands and what
stopped it. -/
def copyGranule (c : CoreId) (t : Transfer) : Run (Transfer × Option Stop) := do
  let d := copyD (t.kind == .fill) t.body
  let drb := d.drb t.sfmt t.dfmt
  let total := d.rows * drb
  let stop := min total (d.granuleEnd (← getInst c) t.slot drb ((t.pos / 4096 + 1) * 4096))
  let conv := !d.fill && converts t.sfmt t.dfmt
  let (pieces, note, bad) ←
    if d.fill then pure (fillPieces d drb t.pos stop, ({} : Note), none)
    else if conv then readConv c t.ch d t.scaleOff t.sfmt t.dfmt drb t.pos stop
    else readRaw c t.ch d drb t.pos stop
  let reached := match bad, pieces.getLast? with
    | none, _ => stop
    | some _, none => t.pos
    | some _, some (.raw p l) => p + l.length
    | some _, some (.elem p _ _) => p + halfBytes t.dfmt / 2
  let mixed := conv && d.mode == .sr && d.mixed drb
  let i ← getInst c
  let gen0 := if !mixed then none else some (t.gen0.getD (i.gens.get (Fin.ofNat 11 (3 + t.ch.val))))
  let (pos, fl, st) ← writePieces c t.ch d t.slot gen0 t.scaleOff t.dfmt drb reached pieces
  let t := { t with gen0 }
  let t := { t.note note with pos, flags := t.flags ||| fl }
  return (t, match st with | some st => some st | none => bad)

/-! ## Gathers and scatters (R236) -/

/-- Every byte of a span lies in LOCAL pages in HBM frames of the stack of the core's group (R236). -/
def ownStack (c : CoreId) (who : PStream) (va n : Nat) (need : Right) : Run Page := do
  let mut first : Option Page := none
  for (a, k) in lineSegs va n do
    let (p, r) ← elemPage c who (a % 2 ^ 64) need
    let pa := p.frame + (r - p.base)
    require (p.mode == 0 && p.tier == 0 && pa / 2 ^ 36 == groupOf c && (pa + k - 1) / 2 ^ 36 == groupOf c) .protection a
    if first.isNone then first := some p
  match first with
  | some p => return p
  | none => trap .protection va

/-- Store bytes of a gather in a local space. -/
def gatherStore (c : CoreId) (space a : Nat) (l : List Byte) : Run Unit := do
  if space = 2 then tileWrite c a l
  else
    match ← lWrite c none a l with
    | some g => trap .storeNonresident g
    | none => pure ()

/-- One row of a gather or scatter: whether its index was out of range, and what it read as zero. -/
def gatherRow (c : CoreId) (who : PStream) (scatter : Bool) (d : GatherD) (loc j : Nat) : Run (Bool × Note) := do
  let ia := (d.idxa + 4 * j) % 2 ^ 64
  let p ← ownStack c who ia 4 .read
  require (p.fmt == 0 || p.fmt == 7) .format ia
  let (l, nres) ← gRead c who ia 4
  let note : Note := match nres with | some a => ({} : Note).add a | none => {}
  let x := leNat l
  let la := loc + j * d.rb
  if d.ntab ≤ x then
    if !scatter then gatherStore c d.lsp la (List.replicate d.rb 0)
    return (true, note)
  let ta := (d.table + x * d.rb) % 2 ^ 64
  if scatter then
    let _ ← ownStack c who ta d.rb .write
    let (row, bad) ← if d.lsp = 2 then do pure (← tileRead c la d.rb, none) else lRead c none la d.rb
    match ← gWrite c who ta row with
    | some a => trap .storeNonresident a
    | none => pure ()
    return (false, match bad with | some g => note.add g | none => note)
  else
    let _ ← ownStack c who ta d.rb .read
    let (row, bad) ← gRead c who ta d.rb
    gatherStore c d.lsp la row
    return (false, match bad with | some g => note.add g | none => note)

/-- The local address of a gather's first row. -/
def gatherLoc (i : Inst) (d : GatherD) (slot : Option Nat) : Nat :=
  if d.lsp = 3 then
    let b := i.x.cbs.get (Fin.ofNat 16 d.loc)
    b.base + slot.getD 0 * b.slot
  else d.loc

/-- A granule of a gather: as many whole rows as 4 KiB of local bytes hold, at least one. `pos` counts
rows. -/
def gatherGranule (c : CoreId) (t : Transfer) : Run (Transfer × Option Stop) := do
  let d := gatherD t.body
  let loc := gatherLoc (← getInst c) d t.slot
  let n := min (d.n - t.pos) (max 1 (4096 / d.rb))
  let mut t := t
  for _ in List.range n do
    match ← tryRead (orRestore (gatherRow c (.ch t.ch) (t.kind == .scatter) d loc t.pos)) with
    | .error st => return (t, some st)
    | .ok (oor, note) =>
      let u := t.note note
      t := { u with pos := t.pos + 1, oor := t.oor || oor, count := t.count + (if oor then 1 else 0) }
  return (t, none)

/-! ## Block fills (R349) -/

/-- The region, the slot and the global address of the block that a fill brings, whose number stands in `recAddr`:
the fill goes on whatever becomes of the slot's tag (R349). -/
def blockOf (i : Inst) (t : Transfer) : Option (Region × Nat × Nat) := do
  let slot ← t.tag
  let r ← i.pad.regionAt slot
  return (r, slot, r.gbase + t.recAddr * r.bytes)

/-- A tag entry awaits the end of a block fill. -/
def Tag.awaits (g : Tag) (t : Transfer) : Bool := t.tag == some g.slot && g.state == .filling && g.fill == t.id

/-- A granule of a block fill: the block's bytes into its slot. -/
def blockGranule (c : CoreId) (t : Transfer) : Run (Transfer × Option Stop) := do
  match blockOf (← getInst c) t with
  | none => return ({ t with pos := 16384 }, none)
  | some (r, slot, g) =>
    let stop := min r.bytes ((t.pos / 4096 + 1) * 4096)
    let mut t := t
    for (a, k) in lineSegs (g + t.pos) (stop - t.pos) do
      match ← tryRead (gReadSeg c .map a k) with
      | .error st => return (t, some st)
      | .ok l =>
        setInst c fun i => { i with pad := { i.pad with
          bytes := cellsWrite i.pad.bytes (slot + (a - g)) (l.getD (List.replicate k 0)) } }
        t := if l.isNone then t.note (({} : Note).add a) else t
        t := { t with pos := a - g + k }
    return (t, none)

/-! ## Progress and completion -/

/-- The end of a transfer's walk, in its own unit. -/
def Transfer.total (t : Transfer) (i : Inst) : Nat :=
  match t.kind with
  | .gather | .scatter => (gatherD t.body).n
  | .block => match blockOf i t with | some (r, _, _) => r.bytes | none => 0
  | _ =>
    let d := copyD (t.kind == .fill) t.body
    d.rows * d.drb t.sfmt t.dfmt

/-- A transfer whose conversion draws (R231). -/
def Transfer.draws (t : Transfer) : Bool :=
  t.kind == .copy && converts t.sfmt t.dfmt && (copyD false t.body).mode == .sr

/-- A transfer may move on: it runs, has more to move, and no earlier drawing transfer of its channel is
before it. -/
def Xunit.mayMove (x : Xunit) (i : Inst) (t : Transfer) : Bool :=
  t.state == .running && decide (t.pos < t.total i)
    && !(t.draws && x.xfers.any fun u => u.ch == t.ch && decide (u.id < t.id) && u.draws)

/-! ## The gather engines (R403) -/

/-- What an instance asks of the gather engine of its core's stack group: its gather and scatter transfers that run,
and its F1 commands. -/
def Inst.gatherJobs (i : Inst) (c : CoreId) : List GatherJob :=
  ((i.x.xfers.filter fun t => (t.kind == .gather || t.kind == .scatter) && t.state == .running).map fun t =>
      { core := c, uid := i.id.uid, ch := some t.ch, id := t.id })
    ++ (List.range i.fifo.queue1.length).map fun k => { core := c, uid := i.id.uid, ch := none, id := i.fifo.ended1 + k }

/-- The commands that a core has at its engine. -/
def Mach.gatherJobs (m : Mach) (c : CoreId) : List GatherJob :=
  if (m.core c).resident then (m.inst c).gatherJobs c else []

/-- A core's new commands have arrived at its engine, and those that ended or left have gone. -/
def Mach.noteGathers (m : Mach) (c : CoreId) : Mach :=
  let jobs := m.gatherJobs c
  let l := m.gathers.filter fun j => j.core != c || jobs.contains j
  { m with gathers := l ++ jobs.filter fun j => !l.contains j }

/-- A command is in progress: fewer than 16 of its engine's commands arrived before it. -/
def Mach.gatherRuns (m : Mach) (c : CoreId) (ch : Option (Fin 8)) (id : Nat) : Bool :=
  let mine := m.gathers.filter fun j => groupOf j.core == groupOf c && (m.gatherJobs j.core).contains j
  let before := mine.takeWhile fun j => j != { core := c, uid := (m.inst c).id.uid, ch, id }
  decide (before.length < 16)

/-- A transfer may move on at its core: a gather or scatter only while its engine has it in progress. -/
def Mach.xferMoves (m : Mach) (c : CoreId) (t : Transfer) : Bool :=
  let i := m.inst c
  i.x.mayMove i t && ((t.kind != .gather && t.kind != .scatter) || m.gatherRuns c (some t.ch) t.id)

/-- A transfer fault (R243): precise, with TPC at the word that issued the transfer. -/
def Mach.xferFault (m : Mach) (c : CoreId) (t : Transfer) (k : Cause) (v : W64) (force : Bool) : Mach :=
  (m.modX c fun x => x.modT t.ch t.id fun t => { t with state := .faulted }).takeTrap c .X k t.pc v
    (.transfer t.ch t.id) force

/-- One granule of a transfer. -/
def Mach.granuleOf (m : Mach) (c : CoreId) (ch : Fin 8) (id : Nat) : Mach :=
  let i := m.inst c
  match i.x.find ch id with
  | none => m
  | some t =>
    if !m.xferMoves c t then m
    else
      let run := match t.kind with
        | .gather | .scatter => gatherGranule c t
        | .block => blockGranule c t
        | _ => copyGranule c t
      match run.go m with
      | (.ok (u, st), m') =>
        let m' := m'.modX c fun x => x.modT ch id fun _ => u
        match st with
        | some (.trap k v) => m'.xferFault c u k v false
        | some (.park k v) => m'.xferFault c u k v true
        | _ => m'
      | (.error (.trap k v), m') => m'.xferFault c t k v false
      | (.error (.park k v), m') => m'.xferFault c t k v true
      | (.error (.wait _), m') => m.keepMoves m'

/-- The completion record (Table 8.5). -/
def Transfer.record (t : Transfer) (abandoned : Bool) : List Byte :=
  let gather := t.kind == .gather || t.kind == .scatter
  bytesOf 8 t.id
    ++ bytesOf 8 ((if abandoned then 4 else 1) + (if t.nres then 2 else 0) + (if t.oor then 8 else 0) + t.flags.toNat * 16)
    ++ bytesOf 8 t.nraddr ++ bytesOf 8 (if gather then t.count else t.nrLines.length)

/-- Whether a transfer writes a completion record. -/
def Transfer.crec (t : Transfer) : Bool :=
  match t.kind with
  | .gather | .scatter => (gatherD t.body).crec
  | .block => false
  | _ => (copyD (t.kind == .fill) t.body).crec

/-- TDONE of a channel (R225). -/
def Xunit.doneId (x : Xunit) (ch : Fin 8) : W48 :=
  BitVec.ofNat 48 ((x.xfers.filter (·.ch == ch)).foldl (fun d t => min d (t.id - 1)) (x.tissue.get ch).toNat)

/-- X's pushes that wait enter their queues (R40). -/
def Inst.flushX (i : Inst) : Inst :=
  let (j, l) := pushAll i .X i.x.pushes
  { j with x := { j.x with pushes := l } }

/-- An XSTG whose transfers have all ended finishes and makes its push (R238). -/
def Xunit.endStagings (x : Xunit) : Xunit :=
  let ended := x.stagings.filter fun s => !s.issuing && !x.xfers.any fun t => t.stg == some s.num
  { x with
    stagings := x.stagings.filter fun s => s.issuing || x.xfers.any fun t => t.stg == some s.num
    pushes := x.pushes ++ ended.filterMap (·.push) }

/-- The buffer a transfer fills. -/
def Transfer.buffer (t : Transfer) : Fin 16 :=
  match t.kind with
  | .gather | .scatter => Fin.ofNat 16 (gatherD t.body).loc
  | _ => Fin.ofNat 16 (copyD (t.kind == .fill) t.body).dst

/-- The tag entry that awaits a block fill which ends (R348, R349): Valid, NRValid with the lines that read as zero,
or Invalid when abandoned. -/
def Pad.endFill (p : Pad) (t : Transfer) (abandoned : Bool) : Pad :=
  if abandoned then { p with tags := p.tags.filter fun g => !g.awaits t }
  else { p with tags := p.tags.map fun g =>
    if !g.awaits t then g
    else if t.nres then
      match p.regionAt g.slot with
      | some r => { g with state := .nrvalid, lines := t.nrLines.map (· - (r.gbase + t.recAddr * r.bytes) / 64) }
      | none => { g with state := .nrvalid }
    else { g with state := .valid } }

/-- The bytes of a slot whose fill was abandoned are free values (R349, notes/assumptions/2.md). -/
def Mach.freeSlot (m : Mach) (c : CoreId) (t : Transfer) : Mach :=
  if !(m.inst c).pad.tags.any (·.awaits t) then m
  else
    match blockOf (m.inst c) t with
    | some (r, slot, _) =>
      let bytes := (List.range r.bytes).map fun k => Config.freeSlotByte (m.tick + k)
      ({ m with tick := m.tick + r.bytes } : Mach).modInst c fun i =>
        { i with pad := { i.pad with bytes := cellsWrite i.pad.bytes slot bytes } }
    | none => m

/-- A transfer is Done or Abandoned (R227), after its completion record. -/
def Inst.endTransfer (i : Inst) (t : Transfer) (abandoned : Bool) : Inst :=
  let i := match t.slot with
    | some s => i.setCb t.buffer fun b => { b with slots := b.slots.set s .filled }
    | none => i
  let i := { i with pad := i.pad.endFill t abandoned }
  let x := { i.x with xfers := i.x.xfers.filter fun u => !(u.ch == t.ch && u.id == t.id) }
  let x := { x with tdone := vset x.tdone t.ch (x.doneId t.ch), pushes := x.pushes ++ t.push.toList }
  ({ i with x := x.endStagings } : Inst).flushX

/-- Write a completion record (R233). -/
def writeCrec (c : CoreId) (t : Transfer) (abandoned : Bool) : Run Unit := do
  match ← lWrite c none (t.recAddr + 32) (t.record abandoned) with
  | some g => trap .storeNonresident g
  | none => pure ()

/-- TRANSFER_DONE: where the transfer has moved its last byte or is to be abandoned. -/
def Mach.transferDoneOf (m : Mach) (c : CoreId) (ch : Fin 8) (id : Nat) : Mach :=
  let i := m.inst c
  match i.x.find ch id with
  | none => m
  | some t =>
    let abandoned := t.state == .abandoned
    if !abandoned && !(t.state == .running && decide (t.total i ≤ t.pos)) then m
    else
      let m := if abandoned then m.freeSlot c t else m
      if !t.crec then m.modInst c fun i => i.endTransfer t abandoned
      else
        match (writeCrec c t abandoned).go m with
        | (.ok _, m') => m'.modInst c fun i => i.endTransfer t abandoned
        | (.error (.trap k v), m') =>
          if abandoned then m'.modInst c fun i => i.endTransfer t abandoned else m'.xferFault c t k v false
        | (.error (.park k v), m') =>
          if abandoned then m'.modInst c fun i => i.endTransfer t abandoned else m'.xferFault c t k v true
        | (.error (.wait _), m') => m.keepMoves m'

/-! ## F1 commands (R247) -/

/-- The 32 bytes of a command's four body words. -/
def bodyBytes (l : List W64) : List Byte := l.flatMap fun w => bytesOf 8 w.toNat

/-- The result word of an F1 command. -/
def f1Word (tag oor : Nat) (nres rej fault : Bool) : W64 :=
  BitVec.ofNat 64 (tag + oor * 2 ^ 32 + (if nres then 2 ^ 49 else 0) + (if rej then 2 ^ 50 else 0)
    + (if fault then 2 ^ 51 else 0))

/-- Run an F1 command: rows in ascending order up to a fault; an uncorrectable line parks the instance (R404). -/
def runF1 (c : CoreId) (scatter : Bool) (tag : Nat) (l : List Byte) : Run W64 := do
  let d := gatherD l
  let i ← getInst c
  let fields := (gatherFields scatter l).all Prod.snd && d.lsp != 3 && !d.crec
  let room := match localLimit i d.lsp d.loc with | some lim => decide (d.loc + d.n * d.rb ≤ lim) | none => false
  if !fields || !room then return f1Word tag 0 false true false
  let mut oor := 0
  let mut nres := false
  for j in List.range d.n do
    match ← tryRead (gatherRow c .gather scatter d d.loc j) with
    | .error (.park k v) => throw (.park k v)
    | .error _ => return f1Word tag oor nres false true
    | .ok (o, n) =>
      oor := oor + (if o then 1 else 0)
      nres := nres || n.nres.isSome
  return f1Word tag oor nres false false

end Sys2Proof.Machine
end

