-- ==== Sys2Proof/Machine/XWords.lean ====
section
/-! DEFINITION. The meanings of the X words (R234–R242). -/

namespace Sys2Proof.Machine
open Sys2Proof

/-- X starts a word: an XSTG that stopped among its entries is left behind by any other word. -/
def Mach.xStart (m : Mach) (c : CoreId) (word : Instr) : Mach :=
  match word with
  | .xstg .. => m
  | _ => m.modX c fun x => { x with stagings := x.stagings.filter (!·.issuing) }

/-- Run an X word that has no effect when it stops. -/
def State.xRun (s : State) (y : Sync) (word : Instr) (f : CoreId → Run Unit) : Out :=
  let c := s.mach.cur
  s.to ((s.mach.xStart c word).eWord c .X y word (orRestore (f c)))

/-- A word that issues one transfer of the record at rec × 32: its push is the transfer's (R235). -/
def xIssue (s : State) (y : Sync) (word : Instr) (ch : Fin 8) (rec : BitVec 17) (kind : XKind) : Out :=
  s.xRun { y with push := 0 } word fun c => do
    let l ← readRecord c .X rec
    let pc := (← getInst c).x.st.pc
    issue c (recordVal word .X) ch kind l (rec.toNat * 32) true { pc, push := peerOf .X y.push, stg := none }

/-- XCPY (R228–R235). -/
def execXcpy (y : Sync) (ch : Fin 8) (rec : BitVec 17) (s : State) : Out := xIssue s y (.xcpy y ch rec) ch rec .copy

/-- XFILL (R228–R235). -/
def execXfill (y : Sync) (ch : Fin 8) (rec : BitVec 17) (s : State) : Out := xIssue s y (.xfill y ch rec) ch rec .fill

/-- XGTH (R235, R236). -/
def execXgth (y : Sync) (ch : Fin 8) (rec : BitVec 17) (s : State) : Out := xIssue s y (.xgth y ch rec) ch rec .gather

/-- XSCT (R235, R236). -/
def execXsct (y : Sync) (ch : Fin 8) (rec : BitVec 17) (s : State) : Out := xIssue s y (.xsct y ch rec) ch rec .scatter

/-! ## XSTG (R238) -/

/-- TVAL of a rejected schedule entry: the offset in the entry and its index. -/
def entryVal (word : Instr) (k : Nat) (off : Nat) : Nat :=
  (if off = 60 then recordVal word .X 60 else recordVal word .X off) + k % 2 ^ 16 * 2 ^ 40

/-- Issue one schedule entry. -/
def issueEntry (c : CoreId) (word : Instr) (k num : Nat) (l : List Byte) : Run Unit := do
  let ch := recField l 1 1
  let kind := recField l 2 1
  let push := recField l 3 1
  let rej := entryVal word k
  match [(1, decide (ch < 8)), (2, kind == 2 || kind == 5), (3, decide (push < 4)), (4, (l.drop 4).take 28 |>.all (· == 0))].find?
      fun (f : Nat × Bool) => !f.2 with
  | some f => trap .illegal (rej f.1)
  | none => pure ()
  let pc := (← getInst c).x.st.pc
  issue c (fun o => rej (if o = 60 then 60 else o + 32)) (Fin.ofNat 8 ch) (if kind = 2 then .copy else .fill) (l.drop 32) 0 false
    { pc, push := peerOf .X (Fin.ofNat 4 push), stg := some num }

/-- Issue entries from the schedule position on while their stage is released. -/
def issueStage (c : CoreId) (word : Instr) (n num : Nat) : Nat → Run Unit
  | 0 => pure ()
  | fuel + 1 => do
    let i ← getInst c
    let k := i.x.pos
    if k < i.id.schedLen then
      let l := (← gRead c (.ch 0) ((i.id.sched.toNat + 64 * k) % 2 ^ 64) 64).1
      if recField l 0 1 ≤ n then
        issueEntry c word k num l
        setX c fun x => { x with pos := k + 1 }
        issueStage c word n num fuel

/-- XSTG (R238): its push is made when every transfer it issued has ended. Entries issued before a stop
stay issued, and the same word, tried again, goes on with them; another XSTG leaves them behind. -/
def execXstg (y : Sync) (stage : Byte) (s : State) : Out :=
  let word := Instr.xstg y stage
  let c := s.mach.cur
  s.to (s.mach.eWord c .X { y with push := 0 } word (do
    let i ← getInst c
    let push := peerOf .X y.push
    let num ← match i.x.stagings.find? fun g => g.issuing && g.pc == i.x.st.pc && g.push == push with
      | some g => pure g.num
      | none => do
        let num := i.x.nextStg
        setX c fun x => { x with
          nextStg := num + 1
          stagings := x.stagings.filter (!·.issuing) ++ [{ num, push, issuing := true, pc := i.x.st.pc : Staging }] }
        pure num
    let n := stage.toNat
    if (match i.x.stage with | some k => decide (k ≤ n) | none => true) then
      setX c fun x => { x with stage := some n }
      issueStage c word n num (i.id.schedLen - i.x.pos)
    setX c fun x => { x with stagings := x.stagings.map fun g => if g.num = num then { g with issuing := false } else g }
    setInst c fun i => ({ i with x := i.x.endStagings } : Inst).flushX))

/-! ## XWID (R237) -/

/-- Wait until TDONE has reached an id. -/
def awaitId (c : CoreId) (ch : Fin 8) (id : Nat) : Run Unit := do
  if ((← getInst c).x.tdone.get ch).toNat < id then waitFor (.retry 8 ch.val)

/-- XWID, form 0 (R237): the id is TISSUE as it stood when the word started. -/
def execXwid (y : Sync) (ch : Fin 8) (s : State) : Out :=
  let word := Instr.xwid y ch
  let c := s.mach.cur
  s.to ((s.mach.xStart c word).eWord c .X y word (do
    let x := (← getInst c).x
    let id := x.wid.getD (x.tissue.get ch).toNat
    setX c fun x => { x with wid := some id }
    awaitId c ch id
    setX c fun x => { x with wid := none }))

/-- XWID, form 1 (R237). -/
def execXwidRec (y : Sync) (ch : Fin 8) (rec : BitVec 17) (s : State) : Out :=
  let word := Instr.xwidRec y ch rec
  s.xRun y word fun c => do
    let l ← readRecord c .X rec
    let id := recField l 0 8
    let x := (← getInst c).x
    require (decide (id ≤ (x.tissue.get ch).toNat)) .illegal (recordVal word .X 0)
    require ((l.drop 8).all (· == 0)) .illegal (recordVal word .X 8)
    awaitId c ch id

/-! ## XCB (R240, R241) -/

/-- A buffer with a slot Filling or Held makes XCB wait. -/
def bufferIdle (c : CoreId) (cb : Fin 16) : Run Unit := do
  if ((← getInst c).x.cbs.get cb).slots.any fun s => s == .filling || s == .held then waitFor (.retry 5 cb.val)

/-- XCB CONFIG (R240, R241). -/
def execXcbConfig (y : Sync) (cb : Fin 16) (rec : BitVec 17) (s : State) : Out :=
  let word := Instr.xcbConfig y cb rec
  s.xRun y word fun c => do
    let l ← readRecord c .X rec
    let base := recField l 0 4
    let slot := recField l 4 4
    let n := recField l 8 4
    checkFields word .X [(0, decide (base < 2 ^ 22) && base % 64 == 0)
      , (4, decide (64 ≤ slot) && decide (slot ≤ 2 ^ 20) && slot % 64 == 0)
      , (8, decide (1 ≤ n) && decide (n ≤ 256)), (12, (l.drop 12).all (· == 0))]
    localBound c base (n * slot)
    bufferIdle c cb
    setInst c fun i => i.setCb cb fun _ =>
      { ready := true, base, slot, n, ph := 0, rh := 0, slots := List.replicate n .free }

/-- XCB RESET (R240, R241). -/
def execXcbReset (y : Sync) (cb : Fin 16) (s : State) : Out :=
  s.xRun y (.xcbReset y cb) fun c => do
    bufferIdle c cb
    setInst c fun i => i.setCb cb fun b => { b with ph := 0, rh := 0, slots := b.slots.map fun _ => .free }

/-! ## XNOP and XEND (R242) -/

/-- XNOP (R242). -/
def execXnop (y : Sync) (s : State) : Out := s.xRun y (.xnop y) fun _ => pure ()

/-- XEND (R242): it waits until every transfer has ended and every earlier push is made. -/
def execXend (y : Sync) (s : State) : Out :=
  ({ s with mach := s.mach.xStart s.mach.cur (.xend y) } : State).endRun .X y (.xend y) fun c => do
    let x := (← getInst c).x
    if !x.xfers.isEmpty || !x.pushes.isEmpty then waitFor (.retry 8 0)

end Sys2Proof.Machine
end

