-- ==== Sys2Proof/Machine/EngineSteps.lean ====
section
/-! DEFINITION. The steps of the nest, the transfer unit, the re-key walk and the gather engine (R196, R201,
R218, R227, R232, R247, R261). -/

namespace Sys2Proof.Machine
open Sys2Proof

/-- The issue fraction of a core's sub-arrays: the least of the module's, the die's and the context's
(R26, R263). -/
def State.throttle (s : State) (c : CoreId) : Fraction :=
  max s.pwr.modthr (max (s.pwr.dieThr.get (dieOf c)) (s.mach.ctx (s.mach.ctxOf c)).thr)

/-- KSTEP_END (R196, R197): the K-step with which a sub-array stands. -/
def execKstepEnd (c : CoreId) (sa : Fin 16) (s : State) : Out :=
  s.to (s.mach.onResident c fun m => m.kstepOf c sa (s.throttle c))

/-- THROTTLE_IDLE_END (R201): at the cycle to which the sub-array idles. A timer of an idle time that a trap or a
pre-emption has ended does nothing. -/
def execThrottleIdleEnd (c : CoreId) (sa : Fin 16) (s : State) : Out :=
  let a := (s.mach.inst c).m.sas.get sa
  s.to (if a.wake ≤ s.mach.cycle then s.mach.modMat c fun x => { x with sas := vset x.sas sa { a with idle := false } }
    else s.mach)

/-- COMMIT_END (R211, R218). -/
def execCommitEnd (c : CoreId) (s : State) : Out := s.to (s.mach.onResident c fun m => m.commitEndOf c)

/-- REKEY_DONE (R261): the slot holds only the new key, the generation flips and every line has been
rewritten at count 0. A count that reached its last value meanwhile starts the next walk. -/
def execRekeyDone (ctx : CtxId) (s : State) : Out :=
  let x := s.mach.ctx ctx.val
  match x.newKey with
  | none => s.to s.mach
  | some k =>
    let m := s.mach.setCtx ctx.val (x.rekeyed k)
    s.to (if x.rekeyNext then m.startRekey ctx else m)

/-- TRANSFER_GRANULE (R232). -/
def execTransferGranule (c : CoreId) (ch : Fin 8) (id : Nat) (s : State) : Out :=
  s.to (s.mach.onResident c fun m => m.granuleOf c ch id)

/-- TRANSFER_DONE (R227). -/
def execTransferDone (c : CoreId) (ch : Fin 8) (id : Nat) (s : State) : Out :=
  s.to (s.mach.onResident c fun m => m.transferDoneOf c ch id)

/-- The next F1 command of a core with room for its result. -/
def Fifos.nextGather (x : Fifos) : Option (List W64) :=
  if x.res1.length < 32 then x.queue1.head? else none

/-- A core's next F1 command may run: its engine has it in progress (R403). -/
def Mach.f1Ready (m : Mach) (c : CoreId) : Bool :=
  (m.inst c).fifo.nextGather.isSome && m.gatherRuns c none (m.inst c).fifo.ended1

/-- Run the next F1 command and push its result word (R247). A command that meets an arriving page is run
again when the page is there; one that meets an uncorrectable line parks the instance, as a trap of S at the word it
stands on (R404, notes/assumptions/120.md). -/
def Mach.gatherStep (m : Mach) (c : CoreId) : Mach :=
  if !m.f1Ready c then m else
  match (m.inst c).fifo.nextGather with
  | none => m
  | some rec =>
    let h := (rec.headD 0).toNat
    match (runF1 c (fld h 0 8 == 2) (fld h 16 32) (bodyBytes (rec.drop 1))).go m with
    | (.ok w, m') => m'.modInst c fun i => { i with fifo := { i.fifo with
        queue1 := i.fifo.queue1.drop 1, ended1 := i.fifo.ended1 + 1, res1 := i.fifo.res1 ++ [w] } }
    | (.error (.park k v), m') => (m.keepMoves m').takeTrap c .S k (m.inst c).s.st.pc v .word true
    | (.error _, m') => m.keepMoves m'

/-- F1_RESULT (R247). -/
def execF1Result (c : CoreId) (s : State) : Out := s.to (s.mach.onResident c fun m => m.gatherStep c)

end Sys2Proof.Machine
end

