-- ==== Sys2Proof/Machine/Contexts.lean ====
section
/-! DEFINITION. The context commands, teardown and the energy windows (R250–R266). -/

namespace Sys2Proof.Machine
open Sys2Proof

/-! ## A command -/

/-- The status codes of CTX_STAT (Table 9.1). -/
def ctxOk : Nat := 0
def ctxBusyCode : Nat := 1
def ctxBadState : Nat := 2
def ctxRetiring : Nat := 3
def ctxNoSpace : Nat := 4
def ctxBadDesc : Nat := 5
def ctxNotOwned : Nat := 6
def ctxBadArg : Nat := 7

/-- A command of a function ends with a status. -/
def Mach.ctxEnd (m : Mach) (f : FnId) (st : Nat) : Mach :=
  m.setFn f { m.fn f with ctxBusy := false, ctxStatus := BitVec.ofNat 7 st }

/-- Another function has a command in progress on the context (R251). -/
def Mach.ctxTaken (m : Mach) (f : FnId) (ctx : CtxId) : Bool :=
  (List.finRange 9).any fun g => g != f && match (m.fn g).suspendOf with | some c => c == ctx | none => false

/-- The function owns the context, or is the physical function (R251). -/
def Mach.ctxOwned (m : Mach) (f : FnId) (ctx : CtxId) : Bool :=
  f == 0 || (m.ctx ctx.val).st == .free || (m.ctx ctx.val).owner == f

/-- Run a command (R251, R253): busy, ownership and the context's state are checked first, and a status
other than OK changes nothing. -/
def State.ctxCmd (s : State) (f : FnId) (ctx : CtxId) (states : List CtxState)
    (go : Mach → Ctx → Nat → Except Nat Mach) : Out :=
  let m := s.mach
  let x := m.ctx ctx.val
  let fail := fun (st : Nat) => s.to (m.ctxEnd f st)
  if m.ctxTaken f ctx then fail ctxBusyCode
  else if !m.ctxOwned f ctx then fail ctxNotOwned
  else if !states.contains x.st || m.suspending ctx.val then fail ctxBadState
  else
    match go m x (m.fn f).ctxArg.toNat with
    | .ok m' => s.to (m'.ctxEnd f ctxOk)
    | .error st => fail st

/-- A command whose argument must be zero. -/
def noArg (arg : Nat) (m : Mach) : Except Nat Mach := if arg = 0 then .ok m else .error ctxBadArg

/-! ## BUILD and BIND -/

/-- The descriptor of Table 9.3 fits a context of a die. -/
def descriptorOk (m : Mach) (f : FnId) (die : DieId) (l : List Byte) : Bool :=
  let at8 := fun (o n : Nat) => leNat ((l.drop o).take n)
  let ptroot := at8 0 8
  let spbase := at8 8 8
  let spsize := at8 16 4
  let lbsize := at8 20 4
  let lbbase := at8 24 8
  ptroot % 4096 == 0 && (!(m.fn f).winSpace || isHbm ptroot 4096)
    && spbase % 2 ^ 21 == 0 && isHbm spbase 1 && spbase / 2 ^ 36 / 3 == die.val
    && decide (1 ≤ spsize) && decide (spsize ≤ 65535)
    && lbsize % 64 == 0 && lbbase % 65536 == 0 && isHbm lbbase 1
    && decide (at8 32 2 ≤ 7) && (l.drop 34).all (· == 0)

/-- BUILD (R252). -/
def execBuild (f : FnId) (ctx : CtxId) (s : State) : Out :=
  s.ctxCmd f ctx [.free] fun m _ arg =>
    let hbm := (m.fn f).winSpace
    if arg % 64 ≠ 0 || !m.inWindow f hbm arg 64 then .error ctxBadArg
    else
      let l := m.bytes (m.fnKey f arg) 64
      let at8 := fun (o n : Nat) => leNat ((l.drop o).take n)
      if (hbm && !isHbm arg 64) || m.poison.contains (m.fnKey f arg / 64) then .error ctxBadDesc
      else if !descriptorOk m f (ctxDie ctx.val) l then .error ctxBadDesc
      else
        let x : Ctx :=
          { st := .built, owner := f, ptroot := at8 0 8, spbase := at8 8 8, spsize := at8 16 4, lbsize := at8 20 4
            lbbase := at8 24 8, fqueue := at8 32 2, ftag := (m.ctx ctx.val).ftag, eBudget := (m.ctx ctx.val).eBudget }
        .ok (m.setCtx ctx.val x)

/-- The state of an ASID (Table 14.5). -/
def Mach.asidState (m : Mach) (a : Nat) : AsidState := (alookup m.asids a).getD .unused
def Mach.setAsid (m : Mach) (a : Nat) (st : AsidState) : Mach := { m with asids := aset m.asids a st }

/-- BIND of an ASID (R253, R339). -/
def execCtxBind (f : FnId) (ctx : CtxId) (s : State) : Out :=
  s.ctxCmd f ctx [.built] fun m x arg =>
    if 2 ^ 16 ≤ arg then .error ctxBadArg
    else
      match m.asidState arg with
      | .bound => .error ctxBadArg
      | .stale => .error ctxRetiring
      | .retiring _ => .error ctxRetiring
      | .unused => .ok ((m.setAsid arg .bound).setCtx ctx.val { x with st := .bound, asid := BitVec.ofNat 16 arg })

/-! ## KEYLOAD -/

/-- KEYLOAD (R253, R260): CTX_KEY0 and CTX_KEY1 are zeroed whether it completes or fails. -/
def execKeyload (f : FnId) (ctx : CtxId) (s : State) : Out :=
  let r := s.mach.fn f
  let key := r.key1 ++ r.key0
  let s := { s with mach := s.mach.setFn f { r with key0 := 0, key1 := 0 } }
  s.ctxCmd f ctx [.built, .bound] fun m x arg =>
    if !(m.residentOf ctx.val).isEmpty || !(m.imagesOf ctx.val).isEmpty then .error ctxBadState
    else noArg arg (m.setCtx ctx.val { x with key := some key, newKey := none, lines := [], rekeyNext := false })

/-! ## SUSPEND, RESUME and SPILL -/

/-- The states with instances that may run. -/
def liveStates : List CtxState := [.ready, .running, .waiting]

/-- SUSPEND (R253): every resident instance is pre-empted, and the command completes once none is. -/
def execSuspend (f : FnId) (ctx : CtxId) (s : State) : Out :=
  let m := s.mach
  let x := m.ctx ctx.val
  let ok := !m.ctxTaken f ctx && m.ctxOwned f ctx && liveStates.contains x.st && !m.suspending ctx.val
    && (m.fn f).ctxArg == 0
  if ok && !(m.residentOf ctx.val).isEmpty then
    let m := m.setFn f { m.fn f with ctxBusy := true, suspendOf := some ctx }
    s.to (m.post ((m.residentOf ctx.val).map .preemptionRequest))
  else
    s.ctxCmd f ctx liveStates fun m x arg => noArg arg (m.setCtx ctx.val { x with st := .swapped })

/-- The unstarted and saved teams of a context become placeable now (R304). -/
def Mach.placeableNow (m : Mach) (ctx : Nat) : Mach :=
  { m with launches := m.launches.map fun l => { l with teams := l.teams.map fun t =>
      if (l.ctxOn t.die).val = ctx && (t.st == .unstarted || t.st == .saved) then { t with since := m.cycle } else t } }

/-- RESUME (R253). -/
def execCtxResume (f : FnId) (ctx : CtxId) (s : State) : Out :=
  s.ctxCmd f ctx [.swapped, .spilled] fun m x arg =>
    noArg arg ((((m.setCtx ctx.val { x with st := .waiting }).placeableNow ctx.val).settleCtx ctx.val).post
      [.placementEval (ctxDie ctx.val)])

/-- Images move to the spill area, all of them or none. -/
def Mach.spillAll (m : Mach) : List Image → Option Mach
  | [] => some m
  | g :: rest => if g.spilled then m.spillAll rest else (m.spillImage g).bind fun m => m.spillAll rest

/-- SPILL (R258): every image moves, or none. -/
def execSpill (f : FnId) (ctx : CtxId) (s : State) : Out :=
  s.ctxCmd f ctx [.swapped] fun m _ arg =>
    if arg ≠ 0 then .error ctxBadArg
    else
      match m.spillAll (m.imagesOf ctx.val) with
      | none => .error ctxNoSpace
      | some m => .ok (m.modCtx ctx.val fun x => { x with st := .spilled })

/-! ## IRESUME and IKILL -/

/-- The states in which a context may hold a Faulted instance (R254). -/
def faultStates : List CtxState := [.ready, .running, .waiting, .swapped, .spilled]

/-- The Faulted image of a context whose record has a SEQ. -/
def Mach.faultedImage (m : Mach) (ctx seq : Nat) : Option (Image × TrapInfo) :=
  match m.images.find? fun g => g.inst.id.ctx.val == ctx && g.inst.faulted.isSome && g.seq == seq with
  | some g => g.inst.faulted.map fun t => (g, t)
  | none => none

/-- Resume a Faulted instance (R266), as TRET would with TPC naming the trapping word or the next one. A
trap taken in the handler leaves the handler flag, TPC and the return point of the first trap. -/
def Inst.iresume (i : Inst) (t : TrapInfo) (skip : Bool) : Inst :=
  let pc := if skip then t.pc + 4 else t.pc
  let i := { i with faulted := none, s := { i.s with rvalid := i.s.rvalid && !skip } }
  if t.hflag then
    if t.eng = .S then { i with s := i.s.goto pc } else i.resumeFrom i.parked t.eng pc
  else
    let i := { i with s := { i.s with tpc := pc } }
    if t.eng = .S then { i with s := i.s.jump pc } else i.resumeFrom i.parked t.eng pc

/-- IRESUME (R266). -/
def execIresume (f : FnId) (ctx : CtxId) (s : State) : Out :=
  s.ctxCmd f ctx faultStates fun m _ arg =>
    let skip := arg.testBit 48
    if 2 ^ 49 ≤ arg then .error ctxBadArg
    else
      match m.faultedImage ctx.val (arg % 2 ^ 48) with
      | none => .error ctxBadArg
      | some (g, t) =>
        if skip && t.cause == .svc then .error ctxBadArg
        else
          let id := g.inst.id
          let m := m.setImage { g with inst := g.inst.iresume t skip, seq := 0 }
          .ok (((m.settleTeam id.launch id.run id.team).settleCtx ctx.val).post [.placementEval (ctxDie ctx.val)])

/-- IKILL (R254): the launch fails with KILLED. -/
def execIkill (f : FnId) (ctx : CtxId) (s : State) : Out :=
  s.ctxCmd f ctx faultStates fun m _ arg =>
    if 2 ^ 48 ≤ arg then .error ctxBadArg
    else
      match m.faultedImage ctx.val arg with
      | none => .error ctxBadArg
      | some (g, _) => .ok (m.failLaunch g.inst.id.launch 7 (some ctx.val))

/-! ## TEARDOWN and RELEASE -/

/-- The discards of R262 that do not fail a launch: instances, images and teams on the context's die. -/
def Mach.discardCtx (m : Mach) (ctx : Nat) : Mach :=
  let m := m.abortAll fun i => i.ctx.val == ctx
  let m := (m.residentOf ctx).foldl (fun m c => m.freeCore c) m
  { m with
    images := m.images.filter fun g => g.inst.id.ctx.val != ctx
    launches := m.launches.map fun l =>
      { l with teams := l.teams.map fun t => if (l.ctxOn t.die).val = ctx then { t with st := .done } else t } }

/-- Drop the records of a context that no queue has taken yet (R262, R276). -/
def Mach.dropRecords (m : Mach) (ctx : Nat) : Mach :=
  { m with queues := m.queues.map fun e =>
      (e.1, { e.2 with held := e.2.held.filter fun r => match r.ctx with | some c => c.val != ctx | none => true }) }

/-- Free the page-request entries of a context (R341). -/
def Mach.dropRequests (m : Mach) (ctx : Nat) : Mach :=
  { m with dies := m.dies.map fun d => { d with pgreqs := d.pgreqs.filter fun r => r.ctx.val != ctx } }

/-- Steps 1 to 3 of R262, and step 4 as TEARDOWN_DONE. -/
def Mach.teardown (m : Mach) (ctx : CtxId) (fail : Bool) : Mach :=
  let ls := m.ctxLaunches ctx.val
  let m := if fail then ls.foldl (fun m l => m.failLaunch l.num 7 (some ctx.val)) m
    else ((m.rounds.filter fun r => r.ended.isNone && ls.any fun l =>
      (psetLaunch r.pset).1 == l.num && (l.ctxOn (ctxDie ctx.val)).val == ctx.val && m.participatesOn r (ctxDie ctx.val)).foldl
        (fun m r => m.poisonRound r ctx.val) m).discardCtx ctx.val
  let m := (m.dropRecords ctx.val).dropRequests ctx.val
  let m := m.modCtx ctx.val fun x => { x with st := .tearingDown, landing := [], lbTail := 0, bindings := [], ftag := 0 }
  m.post [.teardownDone ctx]

/-- TEARDOWN (R262). -/
def execTeardown (f : FnId) (ctx : CtxId) (s : State) : Out :=
  s.ctxCmd f ctx [.built, .bound, .ready, .running, .waiting, .swapped, .spilled] fun m _ arg =>
    noArg arg (m.teardown ctx true)

/-- RELEASE (R253): the slot is emptied. -/
def execRelease (f : FnId) (ctx : CtxId) (s : State) : Out :=
  s.ctxCmd f ctx [.dead] fun m x arg => noArg arg (m.setCtx ctx.val { ftag := x.ftag })

/-- MIGRATE_ACK (R253): the actions of TEARDOWN, with no launch failed. -/
def execMigrateAck (ctx : CtxId) (s : State) : Out :=
  if (s.mach.ctx ctx.val).st = .migrating then s.to (s.mach.teardown ctx false) else s.to s.mach

/-- TEARDOWN_DONE (R262, R339): the key slot is zeroized, the context is Dead and its ASID stale. -/
def execTeardownDone (ctx : CtxId) (s : State) : Out :=
  let x := s.mach.ctx ctx.val
  if x.st = .tearingDown then
    let m := s.mach.setCtx ctx.val { x with st := .dead, key := none, newKey := none, lines := [], rekeyNext := false }
    let a := x.asid.toNat
    let held := m.ctxs.any fun e => e.1 != ctx.val && e.2.asid.toNat == a && e.2.st != .free && e.2.st != .built
      && e.2.st != .dead
    s.to (if m.asidState a = .bound && !held then m.setAsid a .stale else m)
  else s.to s.mach

/-! ## Energy (R263) -/

/-- The energy of a window in picojoules. -/
def Activity.pj (a : Activity) (k : Vector W32 5) : Nat :=
  a.kg8 * (k.get 0).toNat + a.kg16 * (k.get 1).toNat + a.vec / 1024 * (k.get 2).toNat
    + a.hbm * (k.get 3).toNat + a.link * (k.get 4).toNat

/-- The throttle of the next window. -/
def throttleStep (thr : Fraction) (budget used : Nat) : Fraction :=
  if budget ≠ 0 && decide (budget < used) then (if thr = 0 then 1 else 2)
  else if 16 * used ≤ 7 * budget then (if thr = 2 then 1 else 0)
  else thr

/-- A context at a window's end; what falls short of 1,024 vector operations stays counted. -/
def Ctx.endWindow (x : Ctx) (k : Vector W32 5) : Ctx :=
  let used := x.act.pj k / 1000000
  { x with
    act := { vec := x.act.vec % 1024 }, eUsed := BitVec.ofNat 32 used, eTotal := x.eTotal + BitVec.ofNat 64 used
    thr := throttleStep x.thr x.eBudget.toNat used }

/-- ENERGY_WINDOW_END (R263). -/
def execEnergyWindowEnd (s : State) : Out :=
  s.to { s.mach with ctxs := s.mach.ctxs.map fun e => (e.1, e.2.endWindow s.mach.coefs) }

end Sys2Proof.Machine
end

