-- ==== Sys2Proof/Machine/Queues.lean ====
section
/-! DEFINITION. Queues: arming, write-index validation, the six records and the completion area (R268–R276). -/

namespace Sys2Proof.Machine
open Sys2Proof

/-! ## Queue states (Table 10.3) -/

/-- Raise an MSI-X vector of a function. -/
def Mach.msix (m : Mach) (f : FnId) (v : Nat) : Mach := { m with irqs := m.irqs ++ [(f.val, v)] }

/-- The reasons of FCODE (Table 10.2). -/
def badBase : Nat := 1
def badRange : Nat := 2
def badOverrun : Nat := 3
def badRec : Nat := 4
def badAddr : Nat := 5

/-- A queue enters Faulted, and both ends are told (R271). -/
def Mach.queueFault (m : Mach) (f : FnId) (q : QId) (code : Nat) : Mach :=
  let m := m.setQueue f q.val { m.queue f q.val with st := .faulted, fcode := code, waitFrom := none }
  let m := m.setFn f { m.fn f with qfault := (m.fn f).qfault ||| BitVec.ofNat 8 (2 ^ q.val) }
  (m.msix f (q.val + 1)).msix 0 0

/-- The ring and the completion area are aligned and inside the window. -/
def Mach.ringOk (m : Mach) (f : FnId) (x : Queue) : Bool :=
  x.base % (64 * 2 ^ x.log2n) == 0 && m.inWindow f (m.fn f).winSpace x.base (64 * 2 ^ x.log2n) && m.areaOk f x

/-- RIDX advances with W toward a jump target beyond it (R275). -/
def Queue.advance (x : Queue) : Queue := { x with ridx := max x.ridx (min x.nextRec x.widx) }

/-- ARM (R272): from Quiesced the queue resumes from RIDX, or goes on toward a jump target beyond it
(notes/assumptions/129.md), and a failed check has no row there. -/
def execArm (f : FnId) (q : QId) (s : State) : Out :=
  let m := s.mach
  let x := m.queue f q.val
  match x.st with
  | .unconfigured =>
    if m.ringOk f x then
      s.to (m.setQueue f q.val { x with
        st := .armed, ridx := 0, widx := 0, nextRec := 0, ctail := 0, chead := 0, copies := [], waitFrom := none
        armed := true })
    else s.to (m.queueFault f q badBase)
  | .quiesced =>
    if m.ringOk f x then
      let x := ({ x with st := .running, nextRec := max x.ridx x.nextRec } : Queue).advance
      s.to ((m.setQueue f q.val x).settleQueue f q)
    else s.to m
  | _ => s.to m

/-- QUIESCE (R272): a WAIT in progress is given up. -/
def execQuiesce (f : FnId) (q : QId) (s : State) : Out :=
  let m := s.mach
  let x := m.queue f q.val
  match x.st with
  | .armed | .running | .stalled =>
    s.to ((m.setQueue f q.val { x with st := .quiescing, waitFrom := none }).settleQueue f q)
  | _ => s.to m

/-- RESET (R272): the registers return to reset; held records stay (R276). -/
def execQueueReset (f : FnId) (q : QId) (s : State) : Out :=
  let m := s.mach
  let x := m.queue f q.val
  match x.st with
  | .quiesced | .faulted => s.to (m.setQueue f q.val { held := x.held })
  | _ => s.to m

/-! ## Write-index validation (R271) -/

/-- What R271 finds of a value written to WIDX: the accepted W, or the fault code. -/
def Queue.checkWidx (x : Queue) (v : Nat) : Except Nat Nat :=
  let d := (v % 2 ^ 32 + 2 ^ 32 - x.ridx % 2 ^ 32) % 2 ^ 32
  if 2 ^ 32 ≤ v then .error badRange
  else if d ≤ 2 ^ x.log2n && x.widx - x.ridx ≤ d then .ok (x.ridx + d)
  else .error badOverrun

/-- WIDX_WRITE (R271, R272): the window is checked again, then the value. -/
def execWidxWrite (f : FnId) (q : QId) (v : W64) (s : State) : Out :=
  let m := s.mach
  let x := m.queue f q.val
  match x.st with
  | .unconfigured | .faulted => s.to m
  | .quiesced =>
    if !m.ringOk f x then s.to (m.queueFault f q badBase)
    else
      match x.checkWidx v.toNat with
      | .ok w => s.to (m.setQueue f q.val ({ x with widx := w } : Queue).advance)
      | .error _ => s.to m
  | st =>
    if !m.ringOk f x then s.to (m.queueFault f q badBase)
    else
      match x.checkWidx v.toNat with
      | .error code => s.to (m.queueFault f q code)
      | .ok w =>
        let x := ({ x with widx := w } : Queue).advance
        let st := match st with | .armed => .running | st => st
        s.to ((m.setQueue f q.val { x with st }).settleQueue f q)

/-! ## Records (R273, R274) -/

/-- Bytes outside the named fields are zero. -/
def onlyFields (l : List Byte) (fields : List (Nat × Nat)) : Bool :=
  (List.range 64).all fun k => fields.any (fun (o, n) => decide (o ≤ k) && decide (k < o + n)) || l.getD k 0 == 0

/-- The layout and limits of a record's body (Table 10.4). -/
def bodyOk (l : List Byte) : Bool :=
  let n4 := recNat l 0x18 4
  let skip := recNat l 0x1C 4
  match recNat l 0 1 with
  | 1 =>
    let p := recNat l 0x10 8
    onlyFields l [(0, 24)] && p % 16 != 0 && fld p 4 4 == 0 && fld p 40 24 == 0
      && (List.range 4).all fun d => p.testBit d || fld p (8 + 8 * d) 8 == 0
  | 2 => onlyFields l [(0, 32)] && decide (n4 ≤ 5)
  | 3 => onlyFields l [(0, 28)] && decide (n4 ≤ 2)
  | 4 => onlyFields l [(0, 32)] && decide (n4 ≤ 5) && decide (1 ≤ skip) && decide (skip ≤ 65535)
  | 5 => onlyFields l [(0, 16), (0x18, 4)] && decide (1 ≤ n4) && decide (n4 ≤ 64)
  | 6 =>
    let nc := recNat l 0x10 4
    decide (1 ≤ nc) && decide (nc ≤ 20) && onlyFields l [(0, 20), (0x18, 40)]
      && (List.range 20).all fun j => decide (j < nc) == (recNat l (0x18 + 2 * j) 2 != 0)
  | _ => false

/-- The checks of a record (R273): none when it is taken. -/
def Mach.recordFault (m : Mach) (f : FnId) (l : List Byte) : Option Nat :=
  let launch := recNat l 0 1 == 1
  let a := recNat l 8 8
  if fld (recNat l 0 8) 10 22 ≠ 0 || !bodyOk l then some badRec
  else if a % (if launch then 64 else 8) ≠ 0 || !m.inWindow f (m.fn f).winSpace a (if launch then 256 else 8) then some badAddr
  else none

/-- The next record of a running queue, before it is taken: its index and bytes, or none where the queue
has none to take. No bytes are known of a record whose copy is not held, and none are read of a ring that lies outside
the window (R268). -/
def Mach.peekRecord (m : Mach) (f : FnId) (q : QId) : Option (Nat × Option (List Byte)) :=
  let x := m.queue f q.val
  if x.nextRec < x.ridx then some (x.nextRec, alookup x.copies x.nextRec)
  else if x.nextRec < x.widx then
    let a := x.base + 64 * (x.nextRec % 2 ^ x.log2n)
    some (x.nextRec, if m.inWindow f (m.fn f).winSpace a 64 then some (m.bytes (m.fnKey f a) 64) else none)
  else none

/-- Fetch the record that is next, where it stands in the ring: it is consumed, and a copy is kept. -/
def Queue.consume (x : Queue) (l : List Byte) : Queue :=
  if x.nextRec < x.ridx then x
  else
    let ridx := x.nextRec + 1
    { x with ridx, copies := (x.copies ++ [(x.nextRec, l)]).filter fun e => decide (ridx ≤ e.1 + 65) }

/-- Go to record t (R275). -/
def Queue.goTo (x : Queue) (t : Nat) : Queue := ({ x with nextRec := t } : Queue).advance

/-- A record of a queue whose turn it is: its number, bytes, and the module after it was consumed. -/
structure Taken where
  i : Nat
  bytes : List Byte
  mach : Mach

/-- Take the next record of one type; `any` stands for a type that names none. A record rejected faults
the queue; a record that waits for FENCE is left for a later turn. -/
def Mach.takeRecord (m : Mach) (f : FnId) (q : QId) (typ : Nat) : Mach × Option Taken :=
  let x := m.queue f q.val
  let runs := match x.st with
    | .running => !m.entryWaits f x
    | .stalled => x.waitFrom.isSome && !m.entryWaits f x
    | _ => false
  if !runs then (m, none)
  else
    match m.peekRecord f q with
    | none => (m, none)
    | some (i, none) => (m.queueFault f q (if i < x.ridx then badRec else badBase), none)
    | some (i, some l) =>
      let t := recNat l 0 1
      let known := decide (1 ≤ t) && decide (t ≤ 6)
      if t ≠ typ && (known || typ ≠ 1) then (m, none)
      else
        let m := m.setQueue f q.val (x.consume l)
        match m.recordFault f l with
        | some code => (m.queueFault f q code, none)
        | none =>
          if ((recNat l 1 1).testBit 0 || t == 3) && m.launchOpen f q then (m, none)
          else (m, some { i, bytes := l, mach := m })

/-- A record has taken effect: its entry when CPL is set, and the next record. -/
def Mach.recordDone (m : Mach) (f : FnId) (q : QId) (t : Taken) (next : Nat) : Mach :=
  let x := m.queue f q.val
  let m := m.setQueue f q.val (({ x with waitFrom := none } : Queue).goTo next)
  let m := if (recNat t.bytes 1 1).testBit 1 then m.postEntry f q.val t.i (recNat t.bytes 4 4) 0 else m
  m.settleQueue f q

/-- The word a record names. -/
def Mach.recWord (m : Mach) (f : FnId) (t : Taken) : W64 := BitVec.ofNat 64 (m.word (m.fnKey f (recNat t.bytes 8 8)))

/-- The condition codes of WAIT and COND records. -/
def recCond : Nat → WCond
  | 0 => .eq | 1 => .ne | 2 => .geu | 3 => .ltu | 4 => .ge | _ => .lt

def Taken.holds (t : Taken) (x : W64) : Bool :=
  condHolds (recCond (recNat t.bytes 0x18 4)) x (BitVec.ofNat 64 (recNat t.bytes 0x10 8))

/-- Run a record's effect where it is the next of its type. -/
def State.onRecord (s : State) (f : FnId) (q : QId) (typ : Nat) (go : Taken → Mach) : Out :=
  match s.mach.takeRecord f q typ with
  | (m, none) => s.to m
  | (_, some t) => s.to (go t)

/-- QUEUE_LAUNCH (R275, R278): the launch is dispatched and not waited for; its entry follows its end. A
record of no known type is rejected here. -/
def execQueueLaunch (f : FnId) (q : QId) (s : State) : Out :=
  s.onRecord f q 1 fun t =>
    let x := t.mach.queue f q.val
    let m := (t.mach.setQueue f q.val (x.goTo (t.i + 1))).settleQueue f q
    m.submit s.pwr.insvc f q t.i (recNat t.bytes 4 4) ((recNat t.bytes 1 1).testBit 1) (recNat t.bytes 8 8)
      (recNat t.bytes 0x10 8)

/-- Drop the timers of a queue's WAIT. -/
def Mach.dropWaitTimers (m : Mach) (f : FnId) (q : QId) : Mach :=
  { m with timers := m.timers.filter fun t => t.2 != .waitRecheck f q && t.2 != .waitTimeout f q }

/-- QUEUE_WAIT (R275): the queue is Stalled until the condition holds. -/
def execQueueWait (f : FnId) (q : QId) (s : State) : Out :=
  s.onRecord f q 2 fun t =>
    let m := t.mach
    let x := m.queue f q.val
    if t.holds (m.recWord f t) then m.recordDone f q t (t.i + 1)
    else if x.waitFrom.isSome then m
    else
      let tmo := recNat t.bytes 0x1C 4
      let m := m.setQueue f q.val { x with st := .stalled, waitFrom := some m.cycle }
      let m := (m.dropWaitTimers f q).timer 256 (.waitRecheck f q)
      if tmo = 0 then m else m.timer (1500 * tmo) (.waitTimeout f q)

/-- The value a SIGNAL writes. -/
def signalValue (op : Nat) (x v : W64) : W64 :=
  match op with | 0 => v | 1 => x + v | _ => if x.ult v then v else x

/-- QUEUE_SIGNAL (R275): one indivisible read and write, after every earlier launch. -/
def execQueueSignal (f : FnId) (q : QId) (s : State) : Out :=
  s.onRecord f q 3 fun t =>
    let m := t.mach
    let v := signalValue (recNat t.bytes 0x18 4) (m.recWord f t) (BitVec.ofNat 64 (recNat t.bytes 0x10 8))
    (m.storeWord (m.fnKey f (recNat t.bytes 8 8)) v.toNat).recordDone f q t (t.i + 1)

/-- QUEUE_COND (R275). -/
def execQueueCond (f : FnId) (q : QId) (s : State) : Out :=
  s.onRecord f q 4 fun t =>
    let next := if t.holds (t.mach.recWord f t) then t.i + 1 else t.i + 1 + recNat t.bytes 0x1C 4
    t.mach.recordDone f q t next

/-- A backward jump target is held in the copies (R275). -/
def Queue.copyHeld (x : Queue) (t : Nat) : Bool := decide (x.ridx ≤ t) || x.copies.any (·.1 == t)

/-- QUEUE_LOOP (R275): a target that is not held rejects the record. -/
def execQueueLoop (f : FnId) (q : QId) (s : State) : Out :=
  s.onRecord f q 5 fun t =>
    let m := t.mach
    let x := (m.recWord f t).toNat
    let back := recNat t.bytes 0x18 4
    if x = 0 then m.recordDone f q t (t.i + 1)
    else if t.i < back || !(m.queue f q.val).copyHeld (t.i - back) then m.queueFault f q badRec
    else (m.storeWord (m.fnKey f (recNat t.bytes 8 8)) (x - 1)).recordDone f q t (t.i - back)

/-- QUEUE_SWITCH (R275). -/
def execQueueSwitch (f : FnId) (q : QId) (s : State) : Out :=
  s.onRecord f q 6 fun t =>
    let j := min (t.mach.recWord f t).toNat (recNat t.bytes 0x10 4 - 1)
    t.mach.recordDone f q t (t.i + recNat t.bytes (0x18 + 2 * j) 2)

/-- The WAIT record on which a queue is stalled. -/
def Mach.waitRecord (m : Mach) (f : FnId) (q : QId) : Option (Taken × Nat) :=
  let x := m.queue f q.val
  match x.waitFrom, alookup x.copies x.nextRec with
  | some since, some l => some ({ i := x.nextRec, bytes := l, mach := m }, since)
  | _, _ => none

/-- WAIT_RECHECK (R275): the word is read again every 256 cycles. One that the window no longer holds is not read: the
record is rejected (R268, R273). -/
def execWaitRecheck (f : FnId) (q : QId) (s : State) : Out :=
  let m := s.mach
  match m.waitRecord f q with
  | none => s.to m
  | some (t, _) =>
    if !m.inWindow f (m.fn f).winSpace (recNat t.bytes 8 8) 8 then s.to ((m.dropWaitTimers f q).queueFault f q badAddr)
    else if t.holds (m.recWord f t) then s.to ((m.dropWaitTimers f q).recordDone f q t (t.i + 1))
    else s.to (m.timer 256 (.waitRecheck f q))

/-- WAIT_TIMEOUT (R275, R276): only the TIMEOUT entry is posted. -/
def execWaitTimeout (f : FnId) (q : QId) (s : State) : Out :=
  let m := s.mach
  match m.waitRecord f q with
  | none => s.to m
  | some (t, since) =>
    let tmo := recNat t.bytes 0x1C 4
    if tmo ≠ 0 && decide (since + 1500 * tmo ≤ m.cycle) then
      let x := m.queue f q.val
      let m := (m.dropWaitTimers f q).setQueue f q.val (({ x with waitFrom := none } : Queue).goTo (t.i + 1))
      s.to ((m.postEntry f q.val t.i (recNat t.bytes 4 4) 1).settleQueue f q)
    else s.to m

/-! ## The completion area (R276) -/

/-- A held record can be written. -/
def Mach.canPost (m : Mach) (f : FnId) (q : QId) : Bool :=
  let x := m.queue f q.val
  x.held != [] && m.canWrite f x

/-- COMPLETION_ENTRY_POST (R276): the oldest held record, then CTAIL, then the interrupt. -/
def execCompletionEntryPost (f : FnId) (q : QId) (s : State) : Out :=
  let m := s.mach
  let x := m.queue f q.val
  match x.held with
  | e :: rest =>
    if m.canPost f q then
      let m := m.store (m.fnKey f (x.cbase + 64 * (x.ctail.toNat % 2 ^ x.log2m))) e.bytes
      s.to (((m.setQueue f q.val { x with held := rest, ctail := x.ctail + 1 }).msix f (q.val + 1)).settleQueue f q)
    else s.to (m.settleQueue f q)
  | [] => s.to (m.settleQueue f q)

/-! ## Whose turn a queue has -/

/-- The step that takes the next record of a queue, where one can be taken now. -/
def Mach.queueStep (m : Mach) (f : FnId) (q : QId) : Option Instr :=
  let x := m.queue f q.val
  if x.st ≠ .running || m.entryWaits f x then none
  else
    match m.peekRecord f q with
    | none => none
    | some (_, none) => some (.queueLaunch f q)
    | some (_, some l) =>
      let t := recNat l 0 1
      let fenced := decide (x.nextRec < x.ridx) && ((recNat l 1 1).testBit 0 || t == 3) && m.launchOpen f q
      if fenced then none
      else
        match t with
        | 2 => some (.queueWait f q) | 3 => some (.queueSignal f q) | 4 => some (.queueCond f q)
        | 5 => some (.queueLoop f q) | 6 => some (.queueSwitch f q) | _ => some (.queueLaunch f q)

end Sys2Proof.Machine
end

