-- ==== Sys2Proof/Machine/PageSteps.lean ====
section
/-! DEFINITION. Page commands, the retirement of ASIDs, and the ends of COUNT moves and pulls (R334, R335,
R338, R339). -/

namespace Sys2Proof.Machine
open Sys2Proof

/-! ## Dropping translations -/

/-- Two ranges share a byte; a length of 0 covers the whole space. -/
def overlapRange (base len a n : Nat) : Bool := len == 0 || (decide (a < base + len) && decide (base < a + n))

/-- The range that a walk-cache entry covers. -/
def WalkEntry.range (e : WalkEntry) : Nat × Nat :=
  match walkLevels.find? (·.1 == e.level) with
  | some (_, shift, _) => (e.pre * 2 ^ shift, 2 ^ shift)
  | none => (0, 2 ^ 64)

/-- Drop every translation of an ASID that covers a byte of a range, in every stream register, buffer and
walk cache (R338). -/
def Mach.dropPages (m : Mach) (asid base len : Nat) : Mach :=
  let hit := fun (p : Page) => p.asid == asid && overlapRange base len p.base p.size
  let keep := fun (p : Option Page) => match p with | some q => if hit q then none else some q | none => none
  { m with
    cores := m.cores.map fun c =>
      { c with inst := { c.inst with regs := c.inst.regs.map fun r => { r with cur := keep r.cur, next := keep r.next } } }
    dies := m.dies.map fun d =>
      { d with
        tlb := d.tlb.filter fun p => !hit p
        walks := d.walks.filter fun e => !(e.asid == asid && overlapRange base len e.range.1 e.range.2) } }

/-! ## Page commands (R338) -/

/-- A command of the page block ends with a status. -/
def Mach.pgEnd (m : Mach) (f : FnId) (st : Nat) : Mach :=
  m.setFn f { m.fn f with pgBusy := false, pgStatus := BitVec.ofNat 7 st }

/-- The contexts that hold a bound ASID. -/
def CtxState.hasAsid : CtxState → Bool
  | .free => false | .built => false | .dead => false | _ => true

/-- Another function has a page command in progress on a context. -/
def Mach.pgTaken (m : Mach) (f : FnId) (ctx : CtxId) : Bool :=
  (List.finRange 9).any fun g => g != f && (m.fn g).pgBusy && (m.fn g).pgCtx == ctx

/-- Why a page command on a context fails before its arguments are looked at (R251, R338). -/
def Mach.pgFail (m : Mach) (f : FnId) (ctx : CtxId) : Option Nat :=
  if m.pgTaken f ctx then some ctxBusyCode
  else if !m.ctxOwned f ctx then some ctxNotOwned
  else if !(m.ctx ctx.val).st.hasAsid then some ctxBadState
  else none

/-- INVAL (R338): the translations are dropped, and the command is busy until INVAL_COMPLETE. -/
def execInval (f : FnId) (ctx : CtxId) (s : State) : Out :=
  let m := s.mach
  let r := m.fn f
  let base := r.pgArg0.toNat
  let len := r.pgArg1.toNat
  match m.pgFail f ctx with
  | some st => s.to (m.pgEnd f st)
  | none =>
    if base % 4096 ≠ 0 || len % 4096 ≠ 0 then s.to (m.pgEnd f ctxBadArg)
    else
      let m := m.dropPages (m.ctx ctx.val).asid.toNat base len
      s.to ((m.setFn f { r with pgBusy := true, pgCtx := ctx }).post [.invalComplete f])

/-- INVAL_COMPLETE (R338): every access of a dropped translation has been performed. -/
def execInvalComplete (f : FnId) (s : State) : Out :=
  s.to (if (s.mach.fn f).pgBusy then s.mach.pgEnd f ctxOk else s.mach)

/-- PCOMPLETE (R338, R341). -/
def execPcomplete (f : FnId) (ctx : CtxId) (s : State) : Out :=
  let m := s.mach
  let r := m.fn f
  let d := ctxDie ctx.val
  let die := m.die d
  let mine := fun (e : PgReq) => e.ctx == ctx && e.tag == r.pgArg0.toNat
  match m.pgFail f ctx with
  | some st => s.to (m.pgEnd f st)
  | none =>
    if r.pgArg1 ≠ 0 || !die.pgreqs.any mine then s.to (m.pgEnd f ctxBadArg)
    else s.to ((m.setDie d { die with pgreqs := die.pgreqs.filter fun e => !mine e }).pgEnd f ctxOk)

/-! ## ASID retirement (R339) -/

/-- Write the completion word of a retirement. -/
def Mach.retireWord (m : Mach) (word : Option Nat) (asid : Nat) : Mach :=
  match word with
  | some k => m.storeWord k (2 ^ 63 + asid)
  | none => m

/-- RETIRE (R338, R339): a retirement of an Unused ASID ends at once. -/
def execPgRetire (f : FnId) (s : State) : Out :=
  let m := s.mach
  let r := m.fn f
  let asid := r.pgArg0.toNat
  let word := r.pgArg1.toNat
  if 2 ^ 16 ≤ asid || (word ≠ 0 && !m.wordInWindow f word) then s.to (m.pgEnd f ctxBadArg)
  else
    let key := if word = 0 then none else some (m.fnKey f word)
    match m.asidState asid with
    | .unused => s.to ((m.retireWord key asid).pgEnd f ctxOk)
    | .stale => s.to (((m.setAsid asid (.retiring key)).pgEnd f ctxOk).post [.asidScrubDone (BitVec.ofNat 16 asid)])
    | _ => s.to (m.pgEnd f ctxBadState)

/-- ASID_SCRUB_DONE (R339): nothing of the ASID is left on any die, and the completion word is written. -/
def execAsidScrubDone (asid : BitVec 16) (s : State) : Out :=
  let m := s.mach
  let a := asid.toNat
  match m.asidState a with
  | .retiring word =>
    let m := m.dropPages a 0 0
    let dies := m.dies.map fun d =>
      { d with
        counters := d.counters.filter (·.1 != a)
        pgreqs := d.pgreqs.filter fun e => (m.ctx e.ctx.val).asid.toNat != a || (m.ctx e.ctx.val).st.hasAsid }
    s.to ((({ m with dies } : Mach).setAsid a .unused).retireWord word a)
  | _ => s.to m

/-! ## Moves and pulls (R334, R335) -/

/-- A die reaches a module: its own, or another over a Grenwiut link of its own (R353). -/
def Mach.reaches (m : Mach) (d : DieId) (pkg : Nat) : Bool := pkg == m.pkg.toNat || (m.gwLink d).isSome

/-- Copy n bytes of memory from one key to another; a poisoned line arrives poisoned (R404). -/
def Mach.copyBytes (m : Mach) (src dst n : Nat) : Mach :=
  let from' := m.mem.filter fun e => decide (src ≤ e.1) && decide (e.1 < src + n)
  let mem := from'.foldl (fun l (e : Nat × Byte) => cellSet l (e.1 - src + dst) e.2) (cellsClear m.mem dst n)
  let bad := (m.poison.filter fun p => decide (src ≤ p * 64) && decide (p * 64 < src + n)).map fun p => p - src / 64 + dst / 64
  { m with mem, poison := (m.poison.filter fun p => !linesCleared dst n p) ++ bad }

/-- Word 0 of a leaf once its page is local (R334, step 3). -/
def localWord0 (w : Nat) : Nat := w % 2 ^ 21 + w / 2 ^ 59 * 2 ^ 59 + (if w.testBit 2 then 0 else 4)

/-- The memory key of a frame of a module. -/
def Mach.frameKey (m : Mach) (pkg pa : Nat) : Nat := if pkg = m.pkg.toNat then pa else remoteKey pkg pa

/-- The timers of a move. -/
def Mach.dropMoveTimers (m : Mach) (ctx : CtxId) (va : Nat) : Mach :=
  { m with timers := m.timers.filter fun t =>
      t.2 != .pullTimeout ctx va && t.2 != .pullDone ctx va && t.2 != .countMoveDone ctx va }

/-- A move that cannot reach its peer tries again, and times out 10 ms after it first failed. -/
def Mach.moveAgain (m : Mach) (v : Move) : Mach :=
  let e := if v.pull then Instr.pullDone v.ctx v.page.base else .countMoveDone v.ctx v.page.base
  let m := m.timer 1024 e
  if m.timers.any fun t => t.2 == .pullTimeout v.ctx v.page.base then m
  else m.timer 15000000 (.pullTimeout v.ctx v.page.base)

/-- A move or pull has its bytes: the entry is rewritten where the host has not rewritten it, and the page's
translations are dropped. -/
def Mach.moveDone (m : Mach) (v : Move) : Mach :=
  let p := v.page
  let m : Mach := { m.dropMoveTimers v.ctx p.base with moves := m.moves.erase v }
  let src := m.frameKey p.peer (if v.pull then p.xframe else p.frame)
  let dst := if v.pull then p.frame else p.xframe
  let m := m.copyBytes src dst (2 ^ 21)
  if m.word p.entry = p.word0 then
    let m := if v.pull then m else m.storeWord (p.entry + 8) dst
    (m.storeWord p.entry (localWord0 p.word0)).dropPages p.asid p.base p.size
  else
    { m with dies := m.dies.map fun d =>
        { d with counters := d.counters.filter fun e => !(e.1 == p.asid && e.2.1 == p.base) } }

/-- End the move of a page of one kind, where its peer is reached. -/
def Mach.endMove (m : Mach) (ctx : CtxId) (va : Nat) (pull : Bool) : Mach :=
  match m.moves.find? fun v => v.ctx == ctx && v.page.base == va && v.pull == pull with
  | none => m
  | some v => if m.reaches (ctxDie ctx.val) v.page.peer then m.moveDone v else m.moveAgain v

/-- COUNT_MOVE_DONE (R334). -/
def execCountMoveDone (ctx : CtxId) (va : Nat) (s : State) : Out := s.to (s.mach.endMove ctx va false)

/-- PULL_DONE (R335). -/
def execPullDone (ctx : CtxId) (va : Nat) (s : State) : Out := s.to (s.mach.endMove ctx va true)

/-- PULL_TIMEOUT (R335): the accesses that now stall on the page trap as they are tried again; the move or pull runs
on, the entry is unchanged, and accesses made after this stall (Table 14.7). -/
def execPullTimeout (ctx : CtxId) (va : Nat) (s : State) : Out :=
  s.to { s.mach with moves := s.mach.moves.map fun v =>
    if v.ctx = ctx && v.page.base = va then { v with stalled := [], dead := v.dead ++ v.stalled } else v }

end Sys2Proof.Machine
end

