-- ==== Sys2Proof/Machine/Packets.lean ====
section
/-! DEFINITION. Packets at their target: duplicates, held deliveries, acknowledgement of responses, and the commands in
progress that packets belong to (R353, R356–R362). -/

namespace Sys2Proof.Machine
open Sys2Proof

/-- A packet of a core's instance for a command in progress. -/
def Mach.packetOf (m : Mach) (c : CoreId) (id : Nat) (typ : PType) (cls : Fin 4) (tgt addr aux : Nat)
    (data : List Byte) (info : PInfo := .none) : Packet :=
  let i := (m.inst c).id
  let x := m.ctx i.ctx.val
  { typ, cls, group := groupOfFn x.owner, gang := i.gang, srcPkg := m.pkg.toNat, srcDie := dieOf c, srcCore := c.val
    ftag := x.ftag.toNat, tgt, dstDie := ctxDie (tgtCtx tgt), addr, seq := 0, cmd := i.uid * 2 ^ 32 + id, aux, data
    info }

/-! ## Receiving -/

/-- The key by which a die knows a packet it has consumed (R353). -/
def takenKey (p : Packet) : Nat :=
  (((((p.srcPkg * 4 + p.srcDie.val) * 4 + p.dstDie.val) * 9 + p.group.val) * 4 + p.cls.val) * 2 ^ 32) + p.seq

/-- Two packets use one sender's channel. -/
def sameChannel (p q : Packet) : Bool :=
  p.srcPkg == q.srcPkg && p.srcDie == q.srcDie && p.srcCore == q.srcCore && p.dstDie == q.dstDie
    && p.group == q.group && p.cls == q.cls

/-- What stands before a packet in its channel. -/
def heldBefore (l : List (Packet × Bool)) (p : Packet) : List (Packet × Bool) :=
  (l.takeWhile fun e => e.1 != p).filter fun e => sameChannel e.1 p

/-- A response of another module is acknowledged by the die that consumes it, or by the IOD for its own packets, and
charged to the context of its command (R263, R353). -/
def Mach.sunk (m : Mach) (p : Packet) : Mach :=
  if p.cls ≠ 2 then m
  else
    let m := m.chargePacket p
    if p.typ = .ack then m
    else if p.typ = .abort && p.addr % 2 = 0 then m.ackFar p
    else m.answer p .ack 0 []

/-- Take a packet in: duplicates and packets for another module are dropped; one behind a held packet of its
request channel waits unoffered; one that `go` holds waits offered (R311). `go` is told whether the packet has
been offered before, and answers what was taken and how. -/
def Mach.receive (m : Mach) (p : Packet) (go : Bool → Mach → Took × Mach) (done : Took → Mach → Mach) : Mach :=
  let held := m.heldDel.find? fun e => e.1 == p
  if destPkg p ≠ m.pkg.toNat then m
  else if held.isNone && p.srcPkg ≠ m.pkg.toNat && m.consumed.contains (takenKey p) then m
  else if p.cls = 0 && !(heldBefore m.heldDel p).isEmpty then
    if held.isSome then m else { m with heldDel := m.heldDel ++ [(p, false)] }
  else
    let offered := match held with | some e => e.2 | none => false
    match go offered m with
    | (.hold, m) =>
      let heldDel := if held.isSome then m.heldDel.map fun e => if e.1 = p then (p, true) else e
        else m.heldDel ++ [(p, true)]
      { m with heldDel }
    | (t, m) =>
      let m : Mach := { m with heldDel := m.heldDel.filter fun e => e.1 != p }
      if p.srcPkg = m.pkg.toNat then done t m
      else done t (({ m with consumed := m.consumed ++ [(takenKey p)] } : Mach).sunk p)

/-- The status that an outcome answers with. -/
def Took.status : Took → Nat
  | .ok => 0 | .hold => 0 | .carried => 0 | .fail st => st

/-! ## Commands in progress (R361, R362) -/

/-- The result word (Table 15.6). -/
def Cmd.result (x : Cmd) : W64 :=
  BitVec.ofNat 64 (x.tag.toNat + x.status * 2 ^ 32 + x.flags.toNat * 2 ^ 40 + (if x.nan then 2 ^ 46 else 0)
    + (if x.snres then 2 ^ 47 else 0) + x.contrib * 2 ^ 48)

def Cmd.word (x : Cmd) (k : Nat) : Nat := (x.body.getD (k - 1) 0).toNat

/-- Command id of an instance. -/
def Inst.cmd? (i : Inst) (id : Nat) : Option Cmd := i.fifo.cmds.find? (·.id == id)
def Mach.cmd? (m : Mach) (n : Nat) : Option Cmd := (m.instOf (n / 2 ^ 32)).bind fun i => i.cmd? (n % 2 ^ 32)

def Mach.modCmd (m : Mach) (n : Nat) (f : Cmd → Cmd) : Mach :=
  m.modUid (n / 2 ^ 32) fun i => { i with fifo := { i.fifo with
    cmds := i.fifo.cmds.map fun x => if x.id = n % 2 ^ 32 then f x else x } }

/-- A command ends: its result word enters F0's result side. -/
def Mach.endCmd (m : Mach) (n : Nat) : Mach :=
  m.modUid (n / 2 ^ 32) fun i =>
    match i.cmd? (n % 2 ^ 32) with
    | none => i
    | some x => { i with fifo := { i.fifo with
        cmds := i.fifo.cmds.filter (·.id != n % 2 ^ 32), res0 := i.fifo.res0 ++ [x.result] } }

/-- End a command with a status. -/
def Mach.failCmd (m : Mach) (n st : Nat) : Mach := (m.modCmd n fun x => { x with status := st }).endCmd n

/-- Keep the first failure in address order. -/
def Cmd.noteFail (x : Cmd) (st off : Nat) : Cmd :=
  if st = 0 || (x.status ≠ 0 && decide (x.failAt ≤ off)) then x else { x with status := st, failAt := off }

/-- A PUT, GET or RAMO whose packets are all answered sends its signal or ends (R363). -/
def Mach.settleCmd (m : Mach) (n : Nat) : Mach :=
  match m.cmd? n with
  | none => m
  | some x =>
    if x.outstanding ≠ 0 then m
    else
      match x.pendingSig with
      | some p =>
        if x.status = 0 then (m.modCmd n fun x => { x with outstanding := 1, pendingSig := none }).send p
        else m.endCmd n
      | none => m.endCmd n

/-- An answer of a command's packet has come. -/
def Mach.answered (m : Mach) (n st off : Nat) : Mach :=
  m.modCmd n fun x => { x.noteFail st off with outstanding := x.outstanding - 1 }

/-! ## Starting commands -/

/-- The next record of F0 that the engine may start: 16 in progress at most, and room for every result. -/
def Fifos.nextFabric (x : Fifos) : Option (List W64) :=
  if x.cmds.length < 16 && x.res0.length + x.cmds.length < 64 then x.queue0.head? else none

/-- What starting a command gives: a status that ends it, or the command as it goes on and its packets. -/
abbrev Begun := Except Nat (Cmd × List Packet)

/-- Start the next command of a core when it has a code (R361): what its local accesses are denied ends it with
FAULT, and one that waits for a page is started again later. -/
def Mach.startCmd (m : Mach) (c : CoreId) (code : Nat) (go : Cmd → Run Begun) : Mach :=
  match (m.inst c).fifo.nextFabric with
  | none => m
  | some rec =>
    let h := (rec.headD 0).toNat
    if fld h 0 8 ≠ code then m
    else
      let uid := (m.inst c).id.uid
      let x : Cmd := { id := (m.inst c).fifo.nextCmd, code, tag := BitVec.ofNat 32 (fld h 16 32), body := rec.drop 1 }
      let begin' := fun (m : Mach) (x : Cmd) => m.modInst c fun i => { i with fifo := { i.fifo with
        queue0 := i.fifo.queue0.drop 1, cmds := i.fifo.cmds ++ [x], nextCmd := i.fifo.nextCmd + 1 } }
      let n := uid * 2 ^ 32 + x.id
      match (go x).go m with
      | (.ok (.ok (y, ps)), m') => (begin' m' { y with started := true }).sendAll ps
      | (.ok (.error st), m') => (begin' m' x).failCmd n st
      | (.error (.wait _), m') => m.keepMoves m'
      | (.error _, m') => (begin' (m.keepMoves m') x).failCmd n fabFault

/-! ## Local memory of a command (R360) -/

/-- Read local memory: zeros, and true, where a page is not resident. -/
def fabRead (c : CoreId) (addr n : Nat) : Run (List Byte × Bool) := do
  match sAddr (BitVec.ofNat 64 addr) with
  | .bad => trap .protection addr
  | .local a =>
    localBound c a n
    let (l, nr) ← lRead c none a n
    return (l, nr.isSome)
  | .global g =>
    require (isCanon (g + n - 1) && decide (g + n ≤ 2 ^ 64)) .protection addr
    let (l, nr) ← gRead c .map g n
    return (l, nr.isSome)

/-- The instance of a number as a target. -/
def Mach.targetOf (m : Mach) (uid : Nat) : Option Target :=
  match m.instOf uid with
  | none => none
  | some i => (m.launch i.id.launch).bind fun l =>
      (l.team? i.id.run i.id.team).map fun t => { launch := l, team := t, num := i.id.num }

/-- The cuts of n bytes for an address into at most 4,096 each, with their offsets: no cut divides an aligned 8-byte unit
(R91). -/
def cuts (a n : Nat) : List (Nat × Nat) :=
  (List.range ((a % 8 + n + 4095) / 4096)).map fun k =>
    let o := 4096 * k - a % 8
    (o, min n (4096 * (k + 1) - a % 8) - o)

/-- The pieces of a payload for an address, with their offsets. -/
def pieces (a : Nat) (l : List Byte) : List (Nat × List Byte) :=
  if l.isEmpty then [] else (cuts a l.length).map fun p => (p.1, (l.drop p.1).take p.2)

/-- Write local memory of an instance, resident or saved: scratchpad bytes go to its core or land (R309). A
denied write is FAULT. -/
def Mach.localPut (m : Mach) (uid addr : Nat) (l : List Byte) : Took × Mach :=
  let local' := fun (t : Took) => match t with | .fail _ => Took.fail fabFault | t => t
  match sAddr (BitVec.ofNat 64 addr) with
  | .bad => (.fail fabFault, m)
  | .local a =>
    match m.targetOf uid with
    | none => (.fail fabNoTarget, m)
    | some t =>
      let word := m.pkg.toNat + t.ctx.val * 2 ^ 16 + t.num * 2 ^ 26
      (pieces a l).foldl (fun acc p =>
        match acc with
        | (.ok, m) =>
          if 2 ^ 22 ≤ a + p.1 then (.fail fabFault, m)
          else
            let (t', m) := m.offer t 0 word 1 (a + p.1) p.2 0 p.2.length
            (local' t', m)
        | r => r) (.ok, m)
  | .global g =>
    match m.instOf uid with
    | none => (.fail fabNoTarget, m)
    | some i =>
      let (t, m) := m.ctxStore i.id.ctx.val g l
      (local' t, m)

/-! ## MIGRATE (R253) -/

/-- The bytes of an image where it lies: a spilled one's in HBM, another's from the save region, which only its header
shows (R256, R260). `k` is the number of the first free value. -/
def Mach.imageBytes (m : Mach) (g : Image) (k : Nat) : List Byte :=
  let n := g.inst.id.imageKib * 1024
  if g.spilled then m.bytes ((m.ctx g.inst.id.ctx.val).spbase + g.spillAt * 1024) n
  else g.header ++ (List.range (n - 64)).map fun j => Config.freeImageByte (k + j)

/-- The bytes of a saved instance's B store, which stay encrypted (R203, R260). -/
def Image.storeBytes (g : Image) (k : Nat) : List Byte :=
  (List.range (4 * g.inst.id.bsFoot)).map fun j => Config.freeImageByte (k + j)

/-- The bytes of an evicted partition (R259). -/
def Mach.partBytes (m : Mach) (g : Image) : List Byte :=
  match g.inst.partAt with
  | some a => m.bytes ((m.ctx g.inst.id.ctx.val).spbase + a * 1024) g.inst.id.part
  | none => []

/-- What leaves with a context: its images, evicted partitions and B stores, and its landing records (R253, R309). -/
def Mach.migrated (m : Mach) (ctx : Nat) : List Byte :=
  let images := (m.imagesOf ctx).foldl
    (fun (p : Nat × List Byte) g =>
      let l := m.imageBytes g p.1 ++ g.storeBytes (p.1 + g.inst.id.imageKib * 1024) ++ m.partBytes g
      (p.1 + l.length, p.2 ++ l)) (m.tick, [])
  images.2 ++ (m.ctx ctx).landing.flatMap fun r => m.ringLoad (m.ctx ctx) r.off r.size

/-- MIGRATE (R253): the bytes of the context leave for the destination module in management packets of its die. The form
of their stream is the module's own: ADDR is the offset in it (notes/assumptions/44.md). -/
def execMigrate (f : FnId) (ctx : CtxId) (s : State) : Out :=
  s.ctxCmd f ctx [.swapped, .spilled] fun m x arg =>
    let l := m.migrated ctx.val
    let pkt := fun (o : Nat) (data : List Byte) =>
      ({ typ := .mgmt, cls := 0, group := 8, gang := 0, srcPkg := m.pkg.toNat, srcDie := ctxDie ctx.val, srcCore := 0
         ftag := x.ftag.toNat, tgt := arg % 2 ^ 16, dstDie := 0, addr := o, seq := 0, cmd := ctx.val, aux := l.length
         data, info := .none } : Packet)
    let ps := match pieces 0 l with | [] => [pkt 0 []] | ps => ps.map fun p => pkt p.1 p.2
    .ok ((({ m with tick := m.tick + l.length } : Mach).setCtx ctx.val { x with st := .migrating }).sendAll ps)

end Sys2Proof.Machine
end

