-- ==== Sys2Proof/Machine/SMem.lean ====
section
/-! DEFINITION. The loads, stores and atomics of S (R137, R138). -/

namespace Sys2Proof.Machine
open Sys2Proof

/-- The address of a load or store (R137). -/
def memAddr (q : Seq) (base : Reg) (off : BitVec 12) : W64 := q.get base + sextTo64 off

/-- The bytes of a load, sign- or zero-extended; a load that is not resident gives zero and sets SNR. -/
def loadWord (c : CoreId) (d base : Reg) (nb : Nat) (off : BitVec 12) (signed : Bool) : Run Flow := do
  let q := (← getInst c).s
  match ← sLoad c (memAddr q base off) nb with
  | some l =>
    let v := leNat l
    let x := if signed && v.testBit (8 * nb - 1) then BitVec.ofInt 64 ((v : Int) - 2 ^ (8 * nb)) else BitVec.ofNat 64 v
    setInst c fun i => { i with s := i.s.put d x }
  | none => setInst c fun i => { i with s := { i.s.put d 0 with snr := true } }
  return .fall

/-- LD (R137). -/
def execLd (d base : Reg) (size : Fin 4) (off : BitVec 12) (s : State) : Out :=
  s.sRun (.ld d base size off) fun c => loadWord c d base (2 ^ size.val) off true

/-- LDU (R137). -/
def execLdu (d base : Reg) (size : Fin 3) (off : BitVec 12) (s : State) : Out :=
  s.sRun (.ldu d base size off) fun c => loadWord c d base (2 ^ size.val) off false

/-- ST (R137): the low bytes of the source, little-endian. -/
def execSt (src base : Reg) (size : Fin 4) (off : BitVec 12) (s : State) : Out :=
  s.sRun (.st src base size off) fun c => do
    let q := (← getInst c).s
    sStore c (memAddr q base off) (bytesOf (2 ^ size.val) (q.get src).toNat)
    return .fall

/-- The atomic operations (R138). -/
def atomicOp (op : AOp) (old v : W64) : W64 :=
  match op with
  | .add => old + v
  | .and => old &&& v
  | .or => old ||| v
  | .xor => old ^^^ v
  | .min => if v.slt old then v else old
  | .max => if old.slt v then v else old
  | .minu => if v.ult old then v else old
  | .maxu => if old.ult v then v else old
  | .swap => v

/-- AMO (R138). Every access is made at its home in one step, so every order and scope holds
(notes/assumptions/6.md). -/
def execAmo (d addr src : Reg) (op : AOp) (order : MemOrder) (scope : Scope) (s : State) : Out :=
  s.sRun (.amo d addr src op order scope) fun c => do
    let q := (← getInst c).s
    let old ← sAtomic c (q.get addr) fun x => some (atomicOp op x (q.get src))
    setInst c fun i => { i with s := i.s.put d old }
    return .fall

/-- CAS (R138): a failed CAS writes nothing. -/
def execCas (d addr src : Reg) (order : MemOrder) (scope : Scope) (s : State) : Out :=
  s.sRun (.cas d addr src order scope) fun c => do
    let q := (← getInst c).s
    let old ← sAtomic c (q.get addr) fun x => if x = q.get d then some (q.get src) else none
    setInst c fun i => { i with s := i.s.put d old }
    return .fall

end Sys2Proof.Machine
end

