-- ==== Sys2Proof/Machine/Fabric.lean ====
section
/-! DEFINITION. The one-sided fabric commands PUT, PUTSIG, GET and RAMO and their packets (R298, R309, R359–R365).
AUX of a request holds its kind in [1:0], its offset in the command in [25:2] and the command's length above. -/

namespace Sys2Proof.Machine
open Sys2Proof

/-- AUX of a request. -/
def auxOf (kind off len : Nat) : Nat := kind + 4 * (off + 2 ^ 24 * len)
def auxOff (aux : Nat) : Nat := fld aux 2 24
def auxLen (aux : Nat) : Nat := aux / 2 ^ 26

/-- The command number of a core's command in progress. -/
def Mach.cmdNum (m : Mach) (c : CoreId) (x : Cmd) : Nat := (m.inst c).id.uid * 2 ^ 32 + x.id

/-- The context of a core's instance has TAG 0: its commands send nothing (R359). -/
def Mach.noTag (m : Mach) (c : CoreId) : Bool := (m.ctx (m.ctxOf c)).ftag == 0

/-! ## PUT and PUTSIG (R363) -/

/-- DST of Table 15.7. -/
def dstOk (dkind dst : Nat) : Bool :=
  if dkind = 0 then isCanon dst
  else if dkind = 1 then decide (dst < 2 ^ 22)
  else dkind == 2 && fld dst 4 16 == 0 && decide (dst < 2 ^ 42)

/-- SIGA and SIGV of Table 15.7. -/
def sigOk (skind siga sigv : Nat) : Bool :=
  if skind = 0 then isCanon siga && siga % 8 == 0
  else if skind = 1 then decide (siga < 2 ^ 22) && siga % 8 == 0
  else skind == 2 && isCanon siga && siga % 64 == 0 && sigv == 0

/-- The address of a piece at an offset. -/
def pieceAddr (dkind dst off : Nat) : Nat := if dkind = 2 then dst + off * 2 ^ 20 else dst + off

/-- PUT and PUTSIG up to the sending of the payload. -/
def putGo (c : CoreId) (sig : Bool) (x : Cmd) : Run Begun := do
  let src := x.word 1
  let dst := x.word 2
  let tgt := x.word 3
  let ctl := x.word 4
  let len := ctl % 2 ^ 24 + 1
  let dkind := fld ctl 24 2
  let skind := fld ctl 26 2
  let ok := fld ctl 28 36 == 0 && dstOk dkind dst && fld tgt 42 22 == 0
    && (dkind != 0 || skind != 0 || tgtInst tgt == 0)
    && (if sig then sigOk skind (x.word 5) (x.word 6) else skind == 0)
  if !ok then return .error fabRej
  let m ← get
  if m.noTag c then return .error fabDenied
  let (data, nr) ← fabRead c src len
  let m ← get
  let ps := (pieces (if dkind = 2 then dst / 2 ^ 20 else dst) data).map fun p =>
    m.packetOf c x.id .write 0 tgt (pieceAddr dkind dst p.1) (auxOf dkind p.1 len) p.2
  let pendingSig := if sig then
    some (m.packetOf c x.id .sig 0 tgt (x.word 5) (auxOf skind 0 len) (bytesOf 8 (x.word 6))) else none
  return .ok ({ x with outstanding := ps.length, pendingSig, snres := nr }, ps)

/-- PUT (R363). -/
def execPut (c : CoreId) (s : State) : Out :=
  s.to (s.mach.onResident c fun m => m.startCmd c 1 (putGo c false))

/-- PUTSIG (R363). -/
def execPutsig (c : CoreId) (s : State) : Out :=
  s.to (s.mach.onResident c fun m => m.startCmd c 3 (putGo c true))

/-- The delivery that a packet of a command belongs to. -/
def delivOf (p : Packet) : Nat := p.cmd + 2 ^ 128 * (p.srcPkg + 1)

/-- A WRITE packet at its target (R309, R363). -/
def Mach.takeWrite (m : Mach) (p : Packet) (offered : Bool) : Took × Mach :=
  let dkind := p.aux % 4
  let off := auxOff p.aux
  let len := auxLen p.aux
  match m.targetCtx p.tgt p.ftag with
  | .error st => (.fail st, m)
  | .ok ctx =>
    let arrive := fun (m : Mach) => if offered || off ≠ 0 then m else m.arrival p.gang (ctxDie ctx)
    if dkind = 0 then (arrive m).ctxStore ctx p.addr p.data
    else
      match m.targetInst p.tgt p.gang with
      | none => (.fail fabNoTarget, m)
      | some t => (arrive m).offer t (delivOf p) p.tgt dkind p.addr p.data off len

/-- PKT_WRITE (R309, R363). -/
def execPktWrite (p : Packet) (s : State) : Out :=
  s.to (s.mach.receive p (fun offered m => m.takeWrite p offered) fun t m => m.answer p .ack t.status [])

/-- A SIG packet at its target (R319, R363). -/
def Mach.takeSig (m : Mach) (p : Packet) (offered : Bool) : Took × Mach :=
  let skind := p.aux % 4
  let v := leNat p.data
  match m.targetCtx p.tgt p.ftag with
  | .error st => (.fail st, m)
  | .ok ctx =>
    let arrive := fun (m : Mach) => if offered then m else m.arrival p.gang (ctxDie ctx)
    if skind = 0 then
      match (arrive m).ctxAtomic ctx p.addr fun old => some (old + BitVec.ofNat 64 v) with
      | (t, _, m) => (t, m)
    else
      match m.targetInst p.tgt p.gang with
      | none => (.fail fabNoTarget, m)
      | some t =>
        if skind = 1 then (arrive m).offerSig t (delivOf p) p.tgt p.addr v
        else (arrive m).countFor p ctx p.addr t (auxLen p.aux)

/-- PKT_SIG (R319, R363). -/
def execPktSig (p : Packet) (s : State) : Out :=
  s.to (s.mach.receive p (fun offered m => m.takeSig p offered) fun t m =>
    if t = .carried then m else m.answer p .ack t.status [])

/-! ## GET (R364) -/

/-- GET up to the sending of its read requests. -/
def getGo (c : CoreId) (x : Cmd) : Run Begun := do
  let src := x.word 1
  let tgt := x.word 3
  let ctl := x.word 4
  let len := ctl % 2 ^ 24 + 1
  if fld ctl 24 40 ≠ 0 || 2 ^ 26 ≤ tgt || !isCanon src then return .error fabRej
  let m ← get
  if m.noTag c then return .error fabDenied
  let ps := (cuts (x.word 2) len).map fun p =>
    m.packetOf c x.id .readreq 0 tgt (src + p.1) (auxOf 0 p.1 (p.1 + p.2)) []
  return .ok ({ x with outstanding := ps.length }, ps)

/-- GET (R364). -/
def execGet (c : CoreId) (s : State) : Out :=
  s.to (s.mach.onResident c fun m => m.startCmd c 2 (getGo c))

/-- What a read request reads: its status, 256 more where a byte read as zero, and the bytes. -/
def Mach.serveRead (m : Mach) (p : Packet) : Took × (Nat × List Byte) × Mach :=
  let n := min 4096 (auxLen p.aux - auxOff p.aux)
  match m.targetCtx p.tgt p.ftag with
  | .error st => (.fail st, (st, []), m)
  | .ok ctx =>
    match m.ctxLoad ctx p.addr n with
    | (.ok (l, nr), m) => (.ok, (if nr then 256 else 0, l), m)
    | (.error t, m) => (t, (t.status, []), m)

/-- READREQ (R364). -/
def execReadreq (p : Packet) (s : State) : Out :=
  let r := s.mach.serveRead p
  s.to (s.mach.receive p (fun _ m => let r := m.serveRead p; (r.1, r.2.2)) fun _ m =>
    m.answer p .readresp r.2.1.1 r.2.1.2)

/-- The status an answer carries. -/
def answerStatus (p : Packet) : Nat := match p.info with | .status n => n | _ => 0

/-- A GET's data at the issuing die: written at DST, and the request is answered. -/
def Mach.takeRead (m : Mach) (p : Packet) : Took × Mach :=
  match m.cmd? p.cmd with
  | none => (.ok, m)
  | some x => if answerStatus p % 256 ≠ 0 then (.ok, m) else m.localPut (p.cmd / 2 ^ 32) (x.word 2 + auxOff p.aux) p.data

/-- READRESP (R364). -/
def execReadresp (p : Packet) (s : State) : Out :=
  s.to (s.mach.receive p (fun _ m => m.takeRead p) fun t m =>
    let st := answerStatus p
    let m := (m.acked p).modCmd p.cmd fun x => { x with snres := x.snres || decide (256 ≤ st) }
    (m.answered p.cmd (if st % 256 ≠ 0 then st % 256 else t.status) (auxOff p.aux)).settleCmd p.cmd)

/-! ## RAMO (R365) -/

/-- The atomic operation of a code of R43; 9 is CAS. -/
def ramoOp (aop : Nat) (opnd cmp old : W64) : Option W64 :=
  match aop with
  | 0 => some (atomicOp .add old opnd) | 1 => some (atomicOp .and old opnd) | 2 => some (atomicOp .or old opnd)
  | 3 => some (atomicOp .xor old opnd) | 4 => some (atomicOp .min old opnd) | 5 => some (atomicOp .max old opnd)
  | 6 => some (atomicOp .minu old opnd) | 7 => some (atomicOp .maxu old opnd) | 8 => some (atomicOp .swap old opnd)
  | _ => if old = cmp then some opnd else none

/-- RAMO up to the sending of its packet. -/
def ramoGo (c : CoreId) (x : Cmd) : Run Begun := do
  let addr := x.word 1
  let ctl := x.word 6
  let aop := ctl % 16
  let ret := ctl.testBit 4
  let ok := decide (ctl < 2 ^ 6) && decide (aop ≤ 9) && (aop == 9 || x.word 3 == 0) && (ret || x.word 4 == 0)
    && decide (x.word 5 < 2 ^ 26) && isCanon addr && addr % 8 == 0 && x.word 4 % 8 == 0
  if !ok then return .error fabRej
  let m ← get
  if m.noTag c then return .error fabDenied
  let data := bytesOf 8 (x.word 2) ++ bytesOf 8 (x.word 3)
  return .ok ({ x with outstanding := 1 }, [m.packetOf c x.id .amo 0 (x.word 5) addr ctl data])

/-- RAMO (R365). -/
def execRamo (c : CoreId) (s : State) : Out :=
  s.to (s.mach.onResident c fun m => m.startCmd c 4 (ramoGo c))

/-- A remote atomic at its home: the old value too. -/
def Mach.serveAmo (m : Mach) (p : Packet) (offered : Bool) : Took × W64 × Mach :=
  match m.targetCtx p.tgt p.ftag with
  | .error st => (.fail st, 0, m)
  | .ok ctx =>
    let m := if offered then m else m.arrival p.gang (ctxDie ctx)
    m.ctxAtomic ctx p.addr
      (ramoOp (p.aux % 16) (BitVec.ofNat 64 (leNat (p.data.take 8))) (BitVec.ofNat 64 (leNat (p.data.drop 8))))

/-- PKT_AMO (R365). -/
def execPktAmo (p : Packet) (s : State) : Out :=
  let old := (s.mach.serveAmo p true).2.1
  s.to (s.mach.receive p (fun offered m => let r := m.serveAmo p offered; (r.1, r.2.2)) fun t m =>
    m.answer p .amoresp t.status (bytesOf 8 old.toNat))

/-- The old value at the issuing die: written at RADDR when RET is 1. -/
def Mach.takeOld (m : Mach) (p : Packet) : Took × Mach :=
  match m.cmd? p.cmd with
  | none => (.ok, m)
  | some x =>
    if answerStatus p ≠ 0 || !(x.word 6).testBit 4 then (.ok, m) else m.localPut (p.cmd / 2 ^ 32) (x.word 4) p.data

/-- AMORESP (R365). -/
def execAmoresp (p : Packet) (s : State) : Out :=
  s.to (s.mach.receive p (fun _ m => m.takeOld p) fun t m =>
    let st := answerStatus p
    ((m.acked p).answered p.cmd (if st ≠ 0 then st else t.status) 0).settleCmd p.cmd)

end Sys2Proof.Machine
end

