-- ==== Sys2Proof/Machine/Collect.lean ====
section
/-! DEFINITION. Collectives: the ring all-reduce COLL with its fragments (R366) and the reductions of the GS-64
with their slots (R367–R369). -/

namespace Sys2Proof.Machine
open Sys2Proof

/-! ## COLL (R366)

A COLL in progress keeps the P words of its ring behind the four words of its body, its step, whether the
step's fragment has been sent, and the bytes received of each step. -/

def Cmd.collN (x : Cmd) : Nat := x.word 4 % 2 ^ 16 + 1
def Cmd.collP (x : Cmd) : Nat := fld (x.word 4) 16 6 + 1
def Cmd.collRank (x : Cmd) : Nat := fld (x.word 4) 22 6

/-- ⌈N ÷ P⌉. -/
def Cmd.chunkLen (x : Cmd) : Nat := (x.collN + x.collP - 1) / x.collP

/-- The first element and the length of a chunk; the last may be shorter or empty. -/
def Cmd.chunk (x : Cmd) (k : Nat) : Nat × Nat :=
  let lo := min x.collN (k * x.chunkLen)
  (lo, min x.collN ((k + 1) * x.chunkLen) - lo)

/-- The chunks that a member sends and receives in a step. -/
def Cmd.sendChunk (x : Cmd) (k : Nat) : Nat := (x.collRank + 2 * x.collP - k) % x.collP
def Cmd.recvChunk (x : Cmd) (k : Nat) : Nat := (x.collRank + 2 * x.collP - k - 1) % x.collP
def Cmd.lastStep (x : Cmd) : Nat := 2 * x.collP - 2

/-- The local offset that a local-window address names. -/
def windowOff (a : Nat) : Nat := a % 2 ^ 22
def isWindow (a : Nat) : Bool := match sAddr (BitVec.ofNat 64 a) with | .local _ => true | _ => false

/-- The scratchpad offset of a step's fragment. -/
def Cmd.stageOff (x : Cmd) (k : Nat) : Nat := windowOff (x.word 2) + k * (2 * x.chunkLen)

/-- COLL up to its first step: the body, the ring and the areas. -/
def collGo (c : CoreId) (x : Cmd) : Run Begun := do
  let ok := decide (x.word 4 < 2 ^ 28) && decide (2 ≤ x.collP) && decide (x.collRank < x.collP)
  if !ok then return .error fabRej
  if (← get).noTag c then return .error fabDenied
  if !isWindow (x.word 1) || !isWindow (x.word 2) then return .error fabFault
  localBound c (windowOff (x.word 1)) (2 * x.collN)
  localBound c (windowOff (x.word 2)) (x.lastStep * (2 * x.chunkLen))
  let (ring, nr) ← fabRead c (x.word 3) (8 * x.collP)
  let words := (List.range x.collP).map fun k => BitVec.ofNat 64 (leNat ((ring.drop (8 * k)).take 8))
  let m ← get
  let id := (m.inst c).id
  let own := m.pkg.toNat + id.ctx.val * 2 ^ 16 + id.num * 2 ^ 26
  if words.any (fun w => decide (2 ^ 42 ≤ w.toNat)) || (words.getD x.collRank 0).toNat ≠ own then return .error fabRej
  return .ok ({ x with body := x.body ++ words, snres := nr }, [])

/-- The ring word of the next member. -/
def Cmd.nextMember (x : Cmd) : Nat := (x.body.getD (4 + (x.collRank + 1) % x.collP) 0).toNat

/-- The packets of a step's fragment, in pieces of at most 4,096 bytes. -/
def sendFrag (c : CoreId) (x : Cmd) : Run (Cmd × List Packet) := do
  let (lo, n) := x.chunk (x.sendChunk x.step)
  let (data, nr) ← lRead c none (windowOff (x.word 1) + 2 * lo) (2 * n)
  let m ← get
  let ps := (if data.isEmpty then [(0, [])] else pieces (x.stageOff x.step) data).map fun p =>
    m.packetOf c x.id .frag 3 x.nextMember x.step (auxOf 0 p.1 (2 * n)) p.2
  return ({ x with sentStep := true, snres := x.snres || nr.isSome, outstanding := x.outstanding + ps.length }, ps)

/-- Add received BF16 values to the partial sums (R366): one exact sum and one rounding each. -/
def addBf16 (got own : List Byte) : List Byte × BitVec 6 :=
  (List.range (own.length / 2)).foldl (fun acc k =>
    let code := fun (l : List Byte) => leNat ((l.drop (2 * k)).take 2)
    let (s, fl) := addNum (ofBf16 (code got)) (ofBf16 (code own)) .rne
    let r := roundCore s .bf16 .rne false 0 none
    (acc.1 ++ bytesOf 2 r.code, acc.2 ||| fl ||| r.flags)) ([], 0)

/-- Take in the fragment of a step: summed into its chunk, or copied over it. -/
def takeFrag (c : CoreId) (x : Cmd) : Run Cmd := do
  let (lo, n) := x.chunk (x.recvChunk x.step)
  let at' := windowOff (x.word 1) + 2 * lo
  let (got, _) ← lRead c none (x.stageOff x.step) (2 * n)
  let (own, _) ← lRead c none at' (2 * n)
  let (out, fl) := if x.step + 2 ≤ x.collP then addBf16 got own else (got, 0)
  match ← lWrite c none at' out with
  | some g => trap .storeNonresident g
  | none => return { x with step := x.step + 1, sentStep := false, flags := x.flags ||| fl }

/-- The fragment of a step has come whole. -/
def Cmd.fragHere (x : Cmd) (k : Nat) : Bool :=
  match alookup x.frags k with | some n => n == 2 * (x.chunk (x.recvChunk k)).2 | none => false

/-- A COLL in progress has something to do now. -/
def Cmd.collReady (x : Cmd) : Bool :=
  x.code == 5 && x.started && decide (x.step < x.lastStep) && (!x.sentStep || x.fragHere x.step)

/-- A COLL ends once its steps are done and its fragments answered, or at its first failure. -/
def Mach.settleColl (m : Mach) (n : Nat) : Mach :=
  match m.cmd? n with
  | none => m
  | some x => if x.status ≠ 0 || (x.step = x.lastStep && x.outstanding = 0) then m.endCmd n else m

/-- One step of work of a COLL on the core of its instance. -/
def Mach.collStep (m : Mach) (c : CoreId) (x : Cmd) : Mach :=
  let n := m.cmdNum c x
  let act : Run (Cmd × List Packet) := do
    if !x.sentStep then sendFrag c x else return (← takeFrag c x, [])
  match act.go m with
  | (.ok (y, ps), m') => ((m'.modCmd n fun _ => y).sendAll ps).settleColl n
  | (.error (.wait _), m') => m.keepMoves m'
  | (.error _, m') => (m.keepMoves m').failCmd n fabFault

/-- A core's COLL that can go on: no landing record of its instance waits (R310). -/
def Mach.collNext (m : Mach) (c : CoreId) : Option Cmd :=
  let i := m.inst c
  if (m.ctx i.id.ctx.val).landing.any (·.uid == i.id.uid) then none else i.fifo.cmds.find? Cmd.collReady

/-- COLL (R366): the next step of one in progress, or the start of the next. -/
def execColl (c : CoreId) (s : State) : Out :=
  s.to (s.mach.onResident c fun m =>
    match m.collNext c with
    | some x => m.collStep c x
    | none => m.startCmd c 5 (collGo c))

/-- The COLL that a fragment belongs to: the earliest whose step has not come whole. -/
def Inst.collFor (i : Inst) (step : Nat) : Option Cmd :=
  i.fifo.cmds.find? fun x => x.code == 5 && x.started && !x.fragHere step

/-- A fragment at its member (R366): it waits for the member's COLL, and is delivered into STAGE. A length or step
that does not match ends the member's COLL with MISMATCH. -/
def Mach.takeFragPacket (m : Mach) (p : Packet) (offered : Bool) : Took × Mach :=
  let step := p.addr
  let off := auxOff p.aux
  let len := auxLen p.aux
  match m.targetCtx p.tgt p.ftag with
  | .error st => (.fail st, m)
  | .ok ctx =>
    match m.targetInst p.tgt p.gang with
    | none => (.fail fabNoTarget, m)
    | some t =>
      let m := if offered || off ≠ 0 then m else m.arrival p.gang (ctxDie ctx)
      match (m.instOf t.uid).bind fun i => i.collFor step with
      | none => (.hold, m)
      | some x =>
        let n := t.uid * 2 ^ 32 + x.id
        if x.lastStep ≤ step || len ≠ 2 * (x.chunk (x.recvChunk step)).2 then (.ok, m.failCmd n fabMismatch)
        else
          match m.offer t (delivOf p) p.tgt 1 (x.stageOff step + off) p.data off len with
          | (.ok, m) => (.ok, m.modCmd n fun x =>
              { x with frags := aset x.frags step ((alookup x.frags step).getD 0 + p.data.length) })
          | r => r

/-- FRAG (R366). -/
def execFrag (p : Packet) (s : State) : Out :=
  s.to (s.mach.receive p (fun offered m => m.takeFragPacket p offered) fun t m => m.answer p .ack t.status [])

/-! ## SRED (R368) -/

/-- A link that is Up or Degraded and leads to a switch. -/
def Mach.toSwitch (m : Mach) (sw : Nat) (l : Fin 16) : Bool := (m.gw.get l).up && (m.gw.get l).partner.toNat == sw

/-- The die and the link that carry a contribution: the lowest such link of the issuing die, or else of the lowest die
that has one. -/
def Mach.switchLink (m : Mach) (d : DieId) (sw : Nat) : Option (DieId × Fin 16) :=
  (d :: List.finRange 4).findSome? fun e => ((gwOf e).find? (m.toSwitch sw)).map fun l => (e, l)

def Mach.slot? (m : Mach) (sw slot : Nat) : Option RedSlot := m.redSlots.find? fun r => r.sw == sw && r.slot == slot

/-- The bytes of an element of DT. -/
def dtSize (dt : Nat) : Nat := if dt = 0 then 2 else if dt = 1 then 4 else 8

/-- AUX of a contribution: the switch, its slot and the port at which it arrives; and the parts of it. -/
def sredAux (sw slot port : Nat) : Nat := sw + 2 ^ 8 * (slot + 2 ^ 12 * port)
def auxSwitch (aux : Nat) : Nat := aux % 2 ^ 8
def auxSlot (aux : Nat) : Nat := fld aux 8 12
def auxPort (aux : Nat) : Nat := fld aux 20 6

/-- SRED up to the sending of its contribution, in packets of at most 4,096 bytes whose ADDR is their offset; over another
die's link it goes in the forward class (R357). -/
def sredGo (c : CoreId) (x : Cmd) : Run Begun := do
  let ctl := x.word 3
  let sw := ctl % 256
  let slot := fld ctl 8 12
  if 2 ^ 46 ≤ ctl || 2 ^ 32 ≤ x.word 4 then return .error fabRej
  let m ← get
  if m.noTag c then return .error fabDenied
  match m.switchLink (dieOf c) sw with
  | none => return .error fabLinkfail
  | some (d, l) =>
    let (n, dt) := match m.slot? sw slot with | some r => (r.n, r.dt) | none => (0, 0)
    let (data, nr) ← fabRead c (x.word 1) (n * dtSize dt)
    let m ← get
    let aux := sredAux sw slot (m.gw.get l).pport.toNat
    let cls : Fin 4 := if d = dieOf c then 3 else 1
    let ps := (if data.isEmpty then [(0, [])] else pieces 0 data).map fun q =>
      { m.packetOf c x.id .sredc cls m.pkg.toNat q.1 aux q.2
          (.sred (fld ctl 20 10) (fld ctl 30 16) (x.word 4) n dt 0 0 0 false) with dstDie := d }
    return .ok ({ x with snres := nr }, ps)

/-- SRED (R368). -/
def execSred (c : CoreId) (s : State) : Out :=
  s.to (s.mach.onResident c fun m => m.startCmd c 6 (sredGo c))

/-! ## Reduction slots (R368, R369) -/

def Mach.setSlot (m : Mach) (r : RedSlot) : Mach :=
  { m with redSlots := m.redSlots.map fun x => if x.sw = r.sw && x.slot = r.slot then r else x }

/-- The values of a contribution. -/
def valuesOf (dt : Nat) (l : List Byte) : List Nat :=
  (List.range (l.length / dtSize dt)).map fun k => leNat ((l.drop (dtSize dt * k)).take (dtSize dt))

/-- One reduced element: its code, flags, and whether a NaN came in. -/
def reduceOne (op dt : Nat) (vs : List Nat) : Nat × BitVec 6 × Bool :=
  if op = 3 then (vs.sum % 2 ^ 64, 0, false)
  else
    let f : Fmt := if dt = 0 then .bf16 else .fp32
    let xs := vs.map fun v => (decodeFloat f v).1
    if xs.any XNum.isNan then (f.qnan, 0, true)
    else
      match xs with
      | [] => (0, 0, false)
      | x :: rest =>
        if op = 0 then
          let (acc, fl) := rest.foldl (fun (a : XNum × BitVec 6) y =>
            let r := addFp32 a.1 y
            (ofFp32 r.code, a.2 ||| r.flags)) (x, 0)
          let r := roundCore acc f .rne false 0 none
          (r.code, fl ||| r.flags, false)
        else
          let g := if op = 2 then absNum else id
          let v := rest.foldl (fun a y => maxNum a (g y)) (g x)
          ((roundCore v f .rne false 0 none).code, 0, false)

/-- The answer to a contribution, in packets of at most 4,096 bytes whose AUX is their offset. -/
def Mach.sredAnswer (m : Mach) (p : Packet) (st flags contrib : Nat) (nan : Bool) (data : List Byte) : Mach :=
  let info := match p.info with
    | .sred rank seq ctag n dt _ _ _ _ => PInfo.sred rank seq ctag n dt st flags contrib nan
    | i => i
  m.sendAll ((if data.isEmpty then [(0, [])] else pieces 0 data).map fun q =>
    { m.answerOf p .sredr st q.2 with gang := p.gang, aux := q.1, info })

/-- A round ends: the held contributions are reduced in ascending RANK and delivered with a status. -/
def Mach.reduceSlot (m : Mach) (r : RedSlot) (st : Nat) : Mach :=
  let held := sortBy (fun (a b : Contribution) => decide (a.rank ≤ b.rank)) r.held
  let els := (List.range r.n).map fun e => reduceOne r.op r.dt (held.map fun h => h.values.getD e 0)
  let data := els.flatMap fun e => bytesOf (dtSize r.dt) e.1
  let flags := (els.map fun e => e.2.1).foldl (· ||| ·) 0
  let nan := els.any fun e => e.2.2
  let m := m.setSlot { r with held := [], seq := r.seq + 1, rounds := r.rounds + 1 }
  held.foldl (fun m h => m.sredAnswer h.src st flags.toNat held.length nan data) m

/-- A whole contribution reaches its slot (Table 15.9). -/
def Mach.contribute (m : Mach) (p : Packet) : Mach :=
  let refuse := fun (st : Nat) => m.sredAnswer p st 0 0 false []
  match p.info with
  | .sred rank seq ctag n dt _ _ _ _ =>
    match m.slot? (auxSwitch p.aux) (auxSlot p.aux) with
    | none => refuse fabDenied
    | some r =>
      if r.gang ≠ p.gang || r.ctag ≠ ctag || r.nc ≤ rank then refuse fabDenied
      else if r.rounds ≠ 0 && seq == (r.seq - 1).toNat then refuse fabLate
      else if seq ≠ r.seq.toNat || r.held.any (·.rank == rank) || n ≠ r.n then refuse fabMismatch
      else
        let since := if r.held.isEmpty then m.cycle else r.since
        let r' := { r with held := r.held ++ [{ rank, values := valuesOf dt p.data, src := p }], since }
        let us := if r.tmo = 0 then 100 else r.tmo
        let m := (m.setSlot r')
        let m := if r.held.isEmpty then m.timer (1500 * us) (.sredSlotTimeout (BitVec.ofNat 8 r.sw) (BitVec.ofNat 12 r.slot)) else m
        if r'.held.length = r.nc then m.reduceSlot r' fabOk else m
  | _ => m

/-- Two packets carry parts of one contribution. -/
def sameContribution (p q : Packet) : Bool := p.srcPkg == q.srcPkg && p.srcDie == q.srcDie && p.cmd == q.cmd

/-- The bytes of a contribution. -/
def contribLen (p : Packet) : Nat := match p.info with | .sred _ _ _ n dt _ _ _ _ => n * dtSize dt | _ => 0

/-- A packet of a contribution: its parts wait for one another. -/
def Mach.takeSredc (m : Mach) (p : Packet) : Mach :=
  let parts := m.redParts.filter (sameContribution p) ++ [p]
  if (parts.map (·.data.length)).sum < contribLen p then { m with redParts := m.redParts ++ [p] }
  else
    let data := (sortBy (fun (a b : Packet) => decide (a.addr ≤ b.addr)) parts).flatMap (·.data)
    ({ m with redParts := m.redParts.filter fun q => !sameContribution p q } : Mach).contribute { p with data }

/-- SREDC (R368). -/
def execSredc (p : Packet) (s : State) : Out := s.to (s.mach.takeSredc p)

/-- SRED_SLOT_TIMEOUT (R368): the timer runs from the round's first contribution. -/
def execSredSlotTimeout (sw : Byte) (slot : BitVec 12) (s : State) : Out :=
  let m := s.mach
  match m.slot? sw.toNat slot.toNat with
  | none => s.to m
  | some r =>
    let us := if r.tmo = 0 then 100 else r.tmo
    if r.held ≠ [] && decide (r.since + 1500 * us ≤ m.cycle) then s.to (m.reduceSlot r fabTimeout) else s.to m

/-- A part of a result reaches its contributor: the elements at DST, which land under R309 when needed. -/
def Mach.takeResult (m : Mach) (p : Packet) : Took × Mach :=
  match m.cmd? p.cmd with
  | none => (.ok, m)
  | some x => if p.data.isEmpty then (.ok, m) else m.localPut (p.cmd / 2 ^ 32) (x.word 2 + p.aux) p.data

/-- SREDR (R369): the command ends with the last part of its result. What came of it is counted in `outstanding`. -/
def execSredr (p : Packet) (s : State) : Out :=
  s.to (s.mach.receive p (fun _ m => m.takeResult p) fun t m =>
    match p.info with
    | .sred _ _ _ _ _ st flags contrib nan =>
      let m := (m.acked p).modCmd p.cmd fun x =>
        { x.noteFail (if st = 0 then t.status else st) p.aux with
          outstanding := x.outstanding + p.data.length, flags := BitVec.ofNat 6 flags, contrib, nan }
      match m.cmd? p.cmd with
      | some x => if p.data.isEmpty || decide (contribLen p ≤ x.outstanding) then m.endCmd p.cmd else m
      | none => m
    | _ => m)

/-! ## RESERVE and FREE (R367) -/

/-- A switch command ends with a status. -/
def Mach.swEnd (m : Mach) (st : Nat) : Mach := { m with swRegs := { m.swRegs with busy := false, status := BitVec.ofNat 7 st } }

/-- The switch is reached over some link. -/
def Mach.switchThere (m : Mach) (sw : Nat) : Bool := (List.finRange 16).any (m.toSwitch sw)

/-- A slot is Free again; the contributions it holds are discarded. -/
def Mach.dropSlot (m : Mach) (sw slot : Nat) : Mach :=
  { m with redSlots := m.redSlots.filter fun x => !(x.sw == sw && x.slot == slot) }

/-- What a reservation carries. -/
def RedSlot.info (r : RedSlot) : PInfo := .reserve r.sw r.slot r.gang r.ctag r.nc r.op r.dt r.n r.tmo

/-- A slot that is Free is configured. -/
def Mach.addSlot (m : Mach) (r : RedSlot) : Mach :=
  if (m.slot? r.sw r.slot).isSome then m else { m with redSlots := m.redSlots ++ [r] }

/-- A reservation travels to the switch in the management group; the switch acknowledges it at once
(notes/assumptions/128.md). -/
def Mach.toTheSwitch (m : Mach) (info : PInfo) : Mach := { m with wire := m.wire ++ [m.mgmtPacket m.pkg.toNat 0 0 0 info] }

/-- RESERVE (R367): the reservation leaves by the IOD's gate, and waits where the gate's link to the IOD carries nothing. -/
def execReserve (s : State) : Out :=
  let m := s.mach
  let r := m.swRegs
  let w1 := r.w1.toNat
  let w2 := r.w2.toNat
  let nc := w2 % 2 ^ 11
  let op := fld w2 11 3
  let dt := fld w2 14 2
  let ok := w1 % 2 ^ 24 != 0 && decide (w1 < 2 ^ 56) && decide (w2 < 2 ^ 46) && decide (1 ≤ nc) && decide (nc ≤ 1024)
    && decide (op ≤ 3) && decide (dt ≤ 2) && (op == 3) == (dt == 2)
  if !ok then s.to (m.swEnd 7)
  else if !m.switchThere r.sw.toNat then s.to (m.swEnd 12)
  else if m.iodWay.isNone then s.to (m.timer 1 .reserve)
  else if (m.slot? r.sw.toNat r.slot.toNat).isSome then s.to (m.swEnd 11)
  else
    let slot : RedSlot :=
      { sw := r.sw.toNat, slot := r.slot.toNat, gang := w1 % 2 ^ 24, ctag := fld w1 24 32, nc, op, dt
        n := fld w2 16 10 + 1, tmo := fld w2 26 20 }
    s.to (((m.addSlot slot).toTheSwitch slot.info).swEnd 0)

/-- FREE (R367): held contributions are discarded without result. -/
def execFree (s : State) : Out :=
  let m := s.mach
  let r := m.swRegs
  if !m.switchThere r.sw.toNat then s.to (m.swEnd 12)
  else if m.iodWay.isNone then s.to (m.timer 1 .free)
  else
    s.to (((m.dropSlot r.sw.toNat r.slot.toNat).toTheSwitch (.free r.sw.toNat r.slot.toNat)).swEnd 0)

end Sys2Proof.Machine
end

