-- ==== Sys2Proof/Machine/Links.lean ====
section
/-! DEFINITION. Links and their states, rerouting, acknowledgements, packets that find no link, and management
packets (R317, R351–R353, R357). -/

namespace Sys2Proof.Machine
open Sys2Proof

/-! ## Acknowledgements (R353) -/

/-- A participant's command ends early with a status of its own, and its arbiter is told (R384). -/
def Mach.partFail (m : Mach) (n st : Nat) : Mach :=
  match m.instOf (n / 2 ^ 32), (m.cmd? n).bind (·.part) with
  | some i, some q =>
    let m := m.failCmd n st
    m.send (m.abortPacket (ctxDie i.id.ctx.val) (m.ctx i.id.ctx.val).ftag.toNat n q)
  | _, _ => m.failCmd n st

/-- A packet of a command in progress has been answered with a status: the command goes on or ends. -/
def Mach.cmdAnswered (m : Mach) (n st off : Nat) : Mach :=
  match m.cmd? n with
  | none => m
  | some x =>
    if x.code ≤ 4 then (m.answered n st off).settleCmd n
    else if x.code = 5 then (m.answered n st off).settleColl n
    else if st ≠ 0 then m.partFail n st
    else m

/-- What carried a request on has been answered, and so the request is. -/
def Mach.relayed (m : Mach) (q : Packet) (st : Nat) : Mach :=
  match q.typ, q.info, alookup m.relays q.cmd with
  | .mgmt, .barrier _ _ _ false, some p => ({ m with relays := aerase m.relays q.cmd } : Mach).answer p .ack st []
  | _, _, _ => m

/-- A heartbeat has been acknowledged (R383). -/
def Mach.heardBeat (m : Mach) (q : Packet) : Mach :=
  if q.typ = .heart then { m with exchs := m.exchs.map fun e => if 2 * e.key = q.addr && !e.standby then { e with beat := some q.seq } else e }
  else m

/-- What an acknowledgement of a kept packet brings besides. -/
def Mach.noteAck (m : Mach) (a : Packet) : Mach :=
  match m.keptFor a with
  | some q => (m.relayed q (answerStatus a)).heardBeat q
  | none => m

/-- The packets whose acknowledgement tells their command something. -/
def tellsCommand (t : Option PType) : Bool :=
  match t with
  | some .write => true | some .sig => true | some .frag => true | some .xdat => true | some .xmark => true
  | _ => false

/-- ACK (R353, R361). -/
def execAck (p : Packet) (s : State) : Out :=
  s.to (s.mach.receive p (fun _ m => (.ok, m)) fun _ m =>
    let m := (m.noteAck p).acked p
    if tellsCommand (answeredType p.addr) then m.cmdAnswered p.cmd (answerStatus p) (auxOff p.aux) else m)

/-! ## Waiting and rerouted packets (R353) -/

/-- A waiting packet can go on its way now: over Grenwiut once a link of its die is Up or Degraded. -/
def Mach.canLeave (m : Mach) (e : Nat × Packet) : Bool :=
  if destPkg e.2 = m.pkg.toNat then m.localWay e.2
  else if e.1 = 17 then m.iodWay.isSome
  else (gwOf e.2.srcDie).any fun l => (m.gw.get l).up

/-- The packets that waited for a link and find one go on their way, in the order in which they came. -/
def Mach.resumePackets (m : Mach) : Mach :=
  let goes := fun (e : Nat × Packet) => decide (16 ≤ e.1) && m.canLeave e
  let go := m.unacked.filter goes
  let m : Mach := { m with
    unacked := m.unacked.filter fun e => !goes e
    timers := m.timers.filter fun t => match t.2 with | .packetLinkfail p => !(go.any fun e => e.2 == p) | _ => true }
  go.foldl (fun m e => if e.1 = 17 then m.sendIod e.2 else m.transmit e.2) m

/-- The packets of a link that has left Up, Degraded and Retrying without an acknowledgement are sent again on
another link of their die that is Up or Degraded, or wait for one. -/
def Mach.reroute (m : Mach) (l : Fin 16) : Mach :=
  let mine := (m.unacked.filter (·.1 == l.val)).map (·.2)
  let m : Mach := { m with unacked := m.unacked.filter (·.1 != l.val) }
  mine.foldl (fun m p =>
    match (gwOf p.srcDie).find? fun k => (m.gw.get k).up with
    | some k => m.putOut k p
    | none => m.waitLink 16 p) m

/-- PACKET_LINKFAIL (R353): a packet that has found no usable link for 10 ms is dropped, and its command ends
with LINKFAIL. -/
def execPacketLinkfail (p : Packet) (s : State) : Out :=
  let m := s.mach
  if !m.unacked.any fun e => decide (16 ≤ e.1) && e.2 == p then s.to m
  else
    let m : Mach := { m with unacked := m.unacked.filter fun e => !(decide (16 ≤ e.1) && e.2 == p) }
    let m := m.relayed p fabLinkfail
    let mine := if p.cls = 2 then ofCommand p && destPkg p == m.pkg.toNat else
      p.srcPkg == m.pkg.toNat && (ofCommand p || p.typ == .demand || p.typ == .hist || p.typ == .pdone)
    if mine then
      s.to (m.cmdAnswered p.cmd fabLinkfail (auxOff p.aux))
    else s.to m

/-! ## Links (Table 15.2) -/

def Mach.link (m : Mach) : LinkId → Link
  | .gw l => m.gw.get l
  | .ucie u => m.ucie.get u

def Mach.setLink (m : Mach) (l : LinkId) (x : Link) : Mach :=
  match l with
  | .gw k => { m with gw := vset m.gw k x }
  | .ucie k => { m with ucie := vset m.ucie k x }

/-- The host's writes whose die the IOD reaches are performed, in the order in which they came (R22, R370). -/
def Mach.drainHost (m : Mach) : Mach :=
  let goes := fun (w : Nat × List Byte) => m.iodUsable (dieOfPa w.1)
  (m.hostWrites.filter goes).foldl (fun m w => m.store w.1 w.2)
    { m with hostWrites := m.hostWrites.filter fun w => !goes w }

/-- A link has changed: what it carried is rerouted when it no longer carries packets, and what waited for it
leaves when it does. -/
def Mach.linkChanged (m : Mach) (l : LinkId) : Mach :=
  if (m.link l).usable then m.resumePackets.drainHost
  else match l with | .gw k => m.reroute k | .ucie _ => m

/-- Saturating counts. -/
def bumpSat {w : Nat} (x : BitVec w) : BitVec w := if x = BitVec.allOnes w then x else x + 1

/-- Training starts. -/
def Link.train (x : Link) : Link := { x with st := .training, trains := bumpSat x.trains, replays := 0 }

/-- LINK_DOWN (R354). -/
def execLinkDown (l : LinkId) (s : State) : Out :=
  let m := s.mach
  s.to (((m.setLink l { m.link l with st := .down, replays := 0 })).linkChanged l)

/-- RETRAIN (R354): of a link that is Down or Failed. -/
def execRetrain (l : LinkId) (s : State) : Out :=
  let m := s.mach
  let x := m.link l
  if x.st = .down || x.st = .failed then s.to (m.setLink l x.train) else s.to m

/-- LINK_TRAINING_END (R352): the far end's numbers are kept for a Grenwiut link. -/
def execLinkTrainingEnd (l : LinkId) (r : Training) (partner : Byte) (pport : BitVec 6) (s : State) : Out :=
  let m := s.mach
  let x := m.link l
  if x.st ≠ .training then s.to m
  else
    let far := match l with | .gw _ => { x with partner, pport } | .ucie _ => x
    match r with
    | .allLanes => s.to ((m.setLink l { far with st := .up }).linkChanged l)
    | .halfLanes => s.to ((m.setLink l { far with st := .degraded }).linkChanged l)
    | .failed =>
      let fails := (x.fails.filter fun t => decide (m.cycle < t + 1500000000)) ++ [m.cycle]
      if 3 ≤ fails.length then s.to ((m.setLink l { x with st := .failed, fails }).linkChanged l)
      else s.to (m.setLink l { x.train with fails })

/-- LINK_REPLAY (R352): a flit has failed its CRC; in Retrying, a replay has failed. -/
def execLinkReplay (l : LinkId) (s : State) : Out :=
  let m := s.mach
  let x := m.link l
  match x.st with
  | .up | .degraded =>
    s.to (m.setLink l { x with st := .retrying, before := x.st, replays := 0, retries := bumpSat x.retries })
  | .retrying =>
    if 7 ≤ x.replays then s.to ((m.setLink l x.train).linkChanged l)
    else s.to (m.setLink l { x with replays := x.replays + 1, retries := bumpSat x.retries })
  | _ => s.to m

/-- REPLAY_ACCEPTED (R352). -/
def execReplayAccepted (l : LinkId) (s : State) : Out :=
  let m := s.mach
  let x := m.link l
  if x.st = .retrying then s.to ((m.setLink l { x with st := x.before, replays := 0 }).linkChanged l) else s.to m

/-! ## Management packets (R317, R320, R357) -/

/-- An arrival or counted bytes of another module reach the IOD of a barrier's home: they join its domain round,
or open one. Bytes that find the object rejected, or the IOD full, are refused (R316, R318). -/
def Mach.homeBarrier (m : Mach) (p : Packet) (obj expect bytes : Nat) (arrived : Bool) : Nat × Mach :=
  let who := if arrived then [(p.srcPkg, p.cmd)] else []
  let opener := p.srcPkg * 1024 + p.aux % 1024
  match m.rounds.find? fun r => r.ended.isNone && r.obj == obj && r.scope == 4 with
  | some r =>
    let r := { r with expect := r.expect + expect, bytes := r.bytes + bytes, modules := r.modules ++ who }
    (fabOk, if arrived || r.posted then (m.setRound r).fireCheck r.num else m.setRound r)
  | none =>
    let o := m.barObj obj
    if o.st = 5 then
      (fabOk, who.foldl (fun m e => m.sendIod (m.mgmtPacket e.1 obj e.2 (2 + 4 * o.round) (.status 0))) m)
    else if !o.ok || o.scope ≠ 4 || (!arrived && !m.guestRoom opener) then (fabRefused, m)
    else
      let (r, m) := m.openNew 0 obj 0 (.domain (2 ^ 63) 0) o expect bytes
      let m := m.setRound { r with guest := true, modules := who, opener }
      (fabOk, if arrived then m.fireCheck r.num else m)

/-- What a management packet does, and the status that answers it: an arrival or bytes at a barrier's home, a release at
a module that arrived, a poison at the home, or a reservation made or freed by another module of the domain. -/
def Mach.takeMgmt (m : Mach) (p : Packet) : Nat × Mach :=
  match p.info with
  | .barrier obj expect bytes arrived => m.homeBarrier p obj expect bytes arrived
  | .status 0 =>
    match m.rounds.find? fun r => r.num == p.cmd && r.ended.isNone && r.upward with
    | some r => (fabOk, m.endRound r (p.aux % 4, p.aux / 4))
    | none => (fabOk, m)
  | .status 1 =>
    match m.rounds.find? fun r => r.ended.isNone && r.obj == p.addr && r.scope == 4 with
    | some r => (fabOk, m.poisonRound r (p.aux / 4 % 2 ^ 10))
    | none => (fabOk, m)
  | .reserve sw slot gang ctag nc op dt n tmo => (fabOk, m.addSlot { sw, slot, gang, ctag, nc, op, dt, n, tmo })
  | .free sw slot => (fabOk, m.dropSlot sw slot)
  | _ => (fabOk, m)

/-- How a management packet is answered. -/
def mgmtTook (st : Nat) : Took := if st = fabOk then .ok else .fail st

/-- MGMT (R357): it is taken in group 8 and acknowledged. -/
def execMgmt (p : Packet) (s : State) : Out :=
  s.to (s.mach.receive p (fun _ m => let r := m.takeMgmt p; (mgmtTook r.1, r.2)) fun t m => m.ackFar p t.status)

end Sys2Proof.Machine
end

