-- ==== Sys2Proof/Machine/Exchange.lean ====
section
/-! DEFINITION. Participants of a scheduled exchange: DPOST and XREP up to their posting, and the work of their
engine while the instance is resident: the self part, the sends of a phase, and the end (R372–R380, R386–R394). -/

namespace Sys2Proof.Machine
open Sys2Proof

/-! ## The command's part -/

/-- The statuses that the exchange adds (R382). -/
def fabUnsent : Nat := 11
def fabPartial : Nat := 12
def fabAborted : Nat := 13

def Cmd.q (x : Cmd) : Part :=
  x.part.getD { posting := { p := 0, arb := 0, stb := 0, ctmo := 0, qc := 0, xrep := false, tgts := [], cfg := [], rank := 0, exid := 0, row := [], rcap := 0 }, key := 0 }

def Mach.modPart (m : Mach) (n : Nat) (f : Part → Part) : Mach :=
  m.modCmd n fun x => { x with part := x.part.map f }

/-- The key of an exchange (R373). -/
def exKey (arb ftag exid : Nat) : Nat := exid + 2 ^ 16 * ftag + 2 ^ 48 * arb

/-- AUX of an exchange packet (R381). -/
def exAux (phase exid : Nat) : Nat := phase + exid * 2 ^ 48

/-- A packet from a participant to its arbiter, in the management group. -/
def Mach.toArbiter (m : Mach) (d : DieId) (ftag gang n : Nat) (q : Part) (typ : PType) (phase : Nat) (info : PInfo) : Packet :=
  { typ, cls := 0, group := 8, gang, srcPkg := m.pkg.toNat, srcDie := d, srcCore := 0, ftag
    tgt := if q.fromStandby then q.posting.stb else q.posting.arb, dstDie := d, addr := 2 * q.key, seq := 0, cmd := n
    aux := exAux phase q.posting.exid, data := [], info }

/-- The same, for the instance of a command's number. -/
def Mach.tellArbiter (m : Mach) (n : Nat) (typ : PType) (phase : Nat) (info : PInfo) : Mach :=
  match m.instOf (n / 2 ^ 32), m.cmd? n with
  | some i, some x =>
    match x.part with
    | some q => m.send (m.toArbiter (ctxDie i.id.ctx.val) (m.ctx i.id.ctx.val).ftag.toNat i.id.gang n q typ phase info)
    | none => m
  | _, _ => m

/-! ## The domain record (Table 16.1) -/

/-- What a domain record gives. -/
structure Dom where
  p : Nat
  arb : Nat
  stb : Nat
  ctmo : Nat
  tgts : List Nat
  nres : Bool
  deriving DecidableEq, Repr

/-- The word that names an instance as a participant (R360). -/
def Mach.ownTgt (m : Mach) (c : CoreId) : Nat :=
  let id := (m.inst c).id
  m.pkg.toNat + id.ctx.val * 2 ^ 16 + id.num * 2 ^ 26

/-- Read and check the domain record: none where it rejects the command (R374). -/
def readDom (c : CoreId) (addr rank : Nat) : Run (Option Dom) := do
  let (h, nr) ← fabRead c addr 32
  let dh := leNat (h.take 8)
  let p := dh % 64 + 1
  if p < 2 || fld dh 6 10 ≠ 0 || fld dh 48 16 ≠ 0 || !((h.drop 12).all (· == 0)) then return none
  let (l, nr') ← fabRead c (addr + 32) (8 * p)
  let tgts := (List.range p).map fun k => leNat ((l.drop (8 * k)).take 8)
  if tgts.any (fun w => decide (2 ^ 42 ≤ w)) || p ≤ rank || tgts.getD rank 0 ≠ (← get).ownTgt c then return none
  return some { p, arb := fld dh 16 16, stb := fld dh 32 16, ctmo := leNat ((h.drop 8).take 4), tgts, nres := nr || nr' }

/-- The command posts: its part, its silence timer (R385) and its first packet. -/
def beginPart (c : CoreId) (x : Cmd) (q : Posting) (typ : PType) : Run (Cmd × List Packet) := do
  let m ← get
  let id := (m.inst c).id
  let ftag := (m.ctx id.ctx.val).ftag.toNat
  let part : Part := { posting := q, key := exKey q.arb ftag q.exid, recv := List.replicate q.p 0, heard := m.cycle }
  let n := m.cmdNum c x
  set (m.timer 15000000 (.arbiterSilenceTimeout n))
  return ({ x with part := some part }, [m.toArbiter (dieOf c) ftag id.gang n part typ 0 (.post q)])

/-! ## DPOST (R374) -/

/-- DPOST up to the sending of its DEMAND. -/
def dpostGo (c : CoreId) (x : Cmd) : Run Begun := do
  let ctl := x.word 8
  let qc := fld ctl 22 4
  let rank := fld ctl 16 6
  if 2 ^ 26 ≤ ctl || 2 ^ 40 ≤ x.word 5 || 12 < qc || x.word 1 % 8 ≠ 0 || x.word 6 % 8 ≠ 0 || x.word 7 % 64 ≠ 0 then
    return .error fabRej
  match ← readDom c (x.word 1) rank with
  | none => return .error fabRej
  | some d =>
    let (l, nr) ← fabRead c (x.word 2) (8 * d.p)
    let row := (List.range d.p).map fun k => leNat ((l.drop (8 * k)).take 8)
    if row.any fun v => decide (2 ^ 40 ≤ v) then return .error fabRej
    if (← get).noTag c then return .error fabDenied
    let q : Posting :=
      { p := d.p, arb := d.arb, stb := d.stb, ctmo := d.ctmo, qc, xrep := false, tgts := d.tgts, cfg := [], rank
        exid := ctl % 2 ^ 16, row, rcap := x.word 5 }
    return .ok (← beginPart c { x with snres := d.nres || nr } q .demand)

/-! ## XREP (R386–R391) -/

def Cmd.rs (x : Cmd) : Nat := (x.word 8 % 32 + 1) * 8
def Cmd.nin (x : Cmd) : Nat := x.word 7 % 2 ^ 32
def Cmd.rout (x : Cmd) : Nat := x.word 7 / 2 ^ 32

/-- The fields of CTL and the key record that give keys (Table 16.9). -/
structure KeyRec where
  d : Nat
  b : Nat
  hilbert : Bool
  bytes : List Byte
  deriving DecidableEq, Repr

def KeyRec.at4 (k : KeyRec) (o : Nat) : Nat := leNat ((k.bytes.drop o).take 4)
def KeyRec.at2 (k : KeyRec) (o : Nat) : Nat := leNat ((k.bytes.drop o).take 2)
def KeyRec.lo (k : KeyRec) (i : Nat) : XNum := ofFp32 (k.at4 (4 * i))
def KeyRec.hi (k : KeyRec) (i : Nat) : XNum := ofFp32 (k.at4 (16 + 4 * i))
def KeyRec.coff (k : KeyRec) (i : Nat) : Nat := k.at2 (32 + 2 * i)
def KeyRec.woff (k : KeyRec) : Nat := k.at2 40 % 2 ^ 15
def KeyRec.wen (k : KeyRec) : Bool := (k.at2 40).testBit 15
def KeyRec.mul (k : KeyRec) (i : Nat) : XNum × BitVec 6 := multiplier k.b (k.lo i) (k.hi i)

/-- A finite value. -/
def XNum.isFinite : XNum → Bool | .fin _ _ _ _ => true | _ => false

/-- The key record is accepted (Table 16.9). -/
def KeyRec.ok (k : KeyRec) (rs : Nat) : Bool :=
  (k.bytes.drop 42).all (· == 0)
    && ((List.range 4).all fun i => decide (i < k.d) || (k.at4 (4 * i) == 0 && k.at4 (16 + 4 * i) == 0 && k.coff i == 0))
    && ((List.range k.d).all fun i =>
      (k.lo i).isFinite && (k.hi i).isFinite && ltNum (k.lo i) (k.hi i)
        && (k.mul i).1.isFinite && !(k.mul i).1.isZero && k.coff i % 4 == 0 && decide (k.coff i + 4 ≤ rs)
        && (!k.wen || decide (k.coff i + 4 ≤ k.woff) || decide (k.woff + 4 ≤ k.coff i)))
    && (!k.wen || (k.woff % 4 == 0 && decide (k.woff + 4 ≤ rs)))

/-- The key record of a command from what it posted. -/
def keyRecOf (x : Cmd) (cfg : List Nat) : KeyRec :=
  { d := fld (x.word 8) 5 2 + 1, b := fld (x.word 8) 7 6, hilbert := (x.word 8).testBit 13
    bytes := (cfg.drop 1).flatMap fun w => bytesOf 8 w }

/-- The key of a record (R387–R389), its flags, and whether a coordinate was a NaN. -/
def KeyRec.keyOf (k : KeyRec) (rec : List Byte) : Nat × BitVec 6 × Bool :=
  let cells := (List.range k.d).map fun i =>
    quantise k.b (k.lo i) (k.mul i).1 (ofFp32 (leNat ((rec.drop (k.coff i)).take 4)))
  let x := cells.map (·.1)
  (if k.hilbert then hilbertKey x k.b else mortonKey x k.b, (cells.map (·.2.1)).foldl (· ||| ·) 0, cells.any (·.2.2))

/-- The bucket of a key (R390). -/
def KeyRec.bucket (k : KeyRec) (key : Nat) : Nat := key / 2 ^ (k.d * k.b - 12)

/-- The weight of a record. -/
def KeyRec.weight (k : KeyRec) (rec : List Byte) : Nat := if k.wen then leNat ((rec.drop k.woff).take 4) else 1

/-- Ranges that hold bytes do not overlap. -/
def rangesApart (l : List (Nat × Nat)) : Bool :=
  let l := l.filter fun r => r.2 != 0
  l.zipIdx.all fun (a, i) => l.zipIdx.all fun (b, j) => i == j || decide (a.1 + a.2 ≤ b.1) || decide (b.1 + b.2 ≤ a.1)

/-- The table of Table 16.8, but for the records it names. -/
def xrepOk (x : Cmd) : Bool :=
  let ctl := x.word 8
  let rovf := x.word 9
  let d := fld ctl 5 2 + 1
  let b := fld ctl 7 6
  ctl % 32 != 0 && decide (1 ≤ b) && decide (b ≤ 32) && decide (d * b ≤ 64) && decide (ctl < 2 ^ 41) && decide (fld ctl 37 4 ≤ 12)
    && decide (rovf < 2 ^ 32) && (rovf != 0 || x.word 3 == 0) && x.word 6 % 64 == 0
    && [x.word 1, x.word 2, x.word 3, x.word 4, x.word 5].all (· % 8 == 0)
    && rangesApart [(x.word 1, x.nin * x.rs), (x.word 2, x.rout * x.rs), (x.word 3, rovf * x.rs)]

/-- Read the input records one by one, folding over them. -/
def overRecords {α : Type} (c : CoreId) (x : Cmd) (f : α → List Byte → α) : List Nat → α → Run (α × Bool)
  | [], a => pure (a, false)
  | i :: t, a => do
    let (rec, nr) ← fabRead c ((x.word 1 + i * x.rs) % 2 ^ 64) x.rs
    let (a, nr') ← overRecords c x f t (f a rec)
    return (a, nr || nr')

/-- What the pass over the input gives: buckets, histogram, flags, NaN records. -/
structure Scan where
  buckets : List Nat := []
  hist : List Nat := List.replicate 4096 0
  flags : BitVec 6 := 0
  nan : Nat := 0

def Scan.add (k : KeyRec) (s : Scan) (rec : List Byte) : Scan :=
  let (key, fl, nan) := k.keyOf rec
  let b := k.bucket key
  { buckets := s.buckets ++ [b], hist := s.hist.set b ((s.hist.getD b 0 + k.weight rec) % 2 ^ 64)
    flags := s.flags ||| fl, nan := s.nan + (if nan then 1 else 0) }

/-- XREP up to the sending of its HIST. -/
def xrepGo (c : CoreId) (x : Cmd) : Run Begun := do
  let ctl := x.word 8
  if !xrepOk x then return .error fabRej
  let rank := fld ctl 15 6
  match ← readDom c (x.word 4) rank with
  | none => return .error fabRej
  | some d =>
    let (kb, nr) ← fabRead c (x.word 5) 64
    let cfg := (ctl - rank * 2 ^ 15) :: (List.range 8).map fun k => leNat ((kb.drop (8 * k)).take 8)
    let k := keyRecOf x cfg
    if !k.ok x.rs then return .error fabRej
    if (← get).noTag c then return .error fabDenied
    let (sc, nr') ← overRecords c x (Scan.add k) (List.range x.nin) ({} : Scan)
    let mulFlags := ((List.range k.d).map fun i => (k.mul i).2).foldl (· ||| ·) 0
    let q : Posting :=
      { p := d.p, arb := d.arb, stb := d.stb, ctmo := d.ctmo, qc := fld ctl 37 4, xrep := true, tgts := d.tgts, cfg, rank
        exid := fld ctl 21 16, row := sc.hist, rcap := x.rs * (x.rout + x.word 9) }
    let (y, ps) ← beginPart c { x with snres := d.nres || nr || nr', flags := mulFlags ||| sc.flags } q .hist
    return .ok ({ y with part := y.part.map fun p => { p with buckets := sc.buckets, nan := sc.nan } }, ps)

/-! ## Segments and places -/

/-- The input records bound for a rank, in ascending index. -/
def Part.boundFor (q : Part) (j : Nat) : List Nat :=
  (q.buckets.zipIdx.filter fun e => ownerOf q.first e.1 == j).map (·.2)

/-- Write local bytes of the instance from its own engine: what is denied is FAULT. -/
def putMem (uid addr : Nat) (l : List Byte) : Run Unit := do
  if l.isEmpty then return
  let (t, m) := (← get).localPut uid (addr % 2 ^ 64) l
  set m
  match t with
  | .ok => pure ()
  | .hold => waitFor (.retry 10 0)
  | .carried => pure ()
  | .fail _ => trap .protection addr

/-- The places of bytes of the receive area (R375, R392): address, offset in the data, length. -/
def Cmd.spans (x : Cmd) (off n : Nat) : List (Nat × Nat × Nat) :=
  if !x.q.posting.xrep then [((x.word 4 + off) % 2 ^ 64, 0, n)]
  else
    let lim := x.rout * x.rs
    let inOut := min n (lim - off)
    (if 0 < inOut then [((x.word 2 + off) % 2 ^ 64, 0, inOut)] else [])
      ++ (if inOut < n then [((x.word 3 + (off + inOut - lim)) % 2 ^ 64, inOut, n - inOut)] else [])

/-- Write bytes of the receive area from the instance's own engine. -/
def putArea (uid : Nat) (x : Cmd) (off : Nat) (l : List Byte) : Run Unit := do
  for s in x.spans off l.length do putMem uid s.1 ((l.drop s.2.1).take s.2.2)

/-- The segment and length of a rank, read once (R378); XREP's segments hold what was granted. A reserved bit of ALEN that
is not zero ends the command with REJ (R5, R374): it is the stop ILLEGAL here. -/
def alenOf (c : CoreId) (x : Cmd) (j : Nat) : Run (Cmd × Nat × Nat) := do
  let q := x.q
  if q.posting.xrep then return (x, 0, q.row.getD j 0)
  match q.alen.find? (·.1 == j) with
  | some e => return (x, e.2)
  | none =>
    let (l, nr) ← fabRead c ((x.word 3 + 16 * j) % 2 ^ 64) 16
    let e := (leNat (l.take 8), leNat (l.drop 8))
    require (e.2 < 2 ^ 40) .illegal e.2
    return ({ x with part := some { q with alen := q.alen ++ [(j, e)] }, snres := x.snres || nr }, e)

/-- Bytes o to o + k of the segment for a rank. -/
def segment (c : CoreId) (x : Cmd) (j addr o k : Nat) : Run (List Byte × Bool) := do
  if k = 0 then return ([], false)
  if !x.q.posting.xrep then fabRead c ((addr + o) % 2 ^ 64) k
  else
    let recs := ((x.q.boundFor j).drop (o / x.rs)).take ((o + k + x.rs - 1) / x.rs - o / x.rs)
    let (l, nr) ← overRecords c x (fun a rec => a ++ rec) recs ([] : List Byte)
    return ((l.drop (o % x.rs)).take k, nr)

/-! ## The engine's steps -/

/-- The row and column of G have come: RTAB, the lengths read early, and the self part (R375, R378). -/
def selfStep (c : CoreId) (x : Cmd) : Run (Cmd × List Packet) := do
  let q := x.q
  let r := q.posting.rank
  let p := q.posting.p
  let uid := (← getInst c).id.uid
  if !q.posting.xrep then
    putMem uid (x.word 6 + 8 * p) ((q.row ++ q.col).flatMap fun v => bytesOf 8 v)
  let mut y := x
  if !q.posting.xrep then
    for j in List.range p do
      if j = r || q.row.getD j 0 = 0 then y := (← alenOf c y j).1
  let (z, addr, len) ← alenOf c y r
  let k := min len (q.row.getD r 0)
  let (data, nr) ← segment c z r addr 0 k
  putArea uid z (q.offs.getD r 0) data
  let z := { z with snres := z.snres || nr }
  return ({ z with part := some { z.q with ready := true, recv := z.q.recv.set r k } }, [])

/-- The phase a participant is in: its lowest granted phase not completed. -/
def Part.phase (q : Part) : Option Nat :=
  match q.grants with
  | [] => none
  | g :: t => some (t.foldl (fun a x => min a x.phase) g.phase)

/-- The grant of a role in a phase. -/
def Part.grantIn (q : Part) (ph : Nat) (send : Bool) : Option Grant := q.grants.find? fun g => g.phase == ph && g.send == send

/-- The bytes of a phase received from a source. -/
def Part.gotOf (q : Part) (ph src : Nat) : Nat :=
  match q.got.find? fun e => e.1 == ph && e.2.1 == src with | some e => e.2.2 | none => 0

/-- The send of the current phase has not been made. -/
def Part.toSend (q : Part) : Option Grant :=
  match q.phase with
  | none => none
  | some ph => if q.sent = some ph then none else q.grantIn ph true

/-- A phase is done: its send acknowledged, and its receive whole. -/
def Part.phaseDone (q : Part) (ph : Nat) : Bool :=
  ((q.grantIn ph true).isNone || (q.sent == some ph && q.acked == some ph))
    && (match q.grantIn ph false with
        | none => true
        | some g => match q.marks.find? fun e => e.1 == ph && e.2.1 == g.partner with
          | none => false
          | some e => q.gotOf ph g.partner == e.2.2)

/-- A participant completes the phases that are done, in order, and reports each in a PDONE (R378). -/
def Mach.advanceFrom : Nat → Nat → Mach → Mach
  | 0, _, m => m
  | fuel + 1, n, m =>
    match (m.cmd? n).bind (·.part) with
    | none => m
    | some q =>
      match q.phase with
      | none => m
      | some ph =>
        if !q.ready || !q.phaseDone ph then m
        else
          let m := m.modPart n fun q =>
            { q with grants := q.grants.filter (·.phase != ph), next := ph + 1, heard := m.cycle }
          Mach.advanceFrom fuel n (m.tellArbiter n .pdone ph .none)

def Mach.advancePart (m : Mach) (n : Nat) : Mach := Mach.advanceFrom 64 n m

/-- Send a phase's bytes and its end marker (R378). -/
def sendStep (c : CoreId) (x : Cmd) (g : Grant) : Run (Cmd × List Packet) := do
  let (y, addr, len) ← alenOf c x g.partner
  let q := y.q
  let a := min len (q.row.getD g.partner 0)
  let k := min g.bytes (a - g.offset)
  let (data, nr) ← segment c y g.partner addr g.offset k
  let m ← get
  let tgt := q.posting.tgts.getD g.partner 0
  let base := q.offs.getD g.partner 0 + g.offset
  let pkt := fun (typ : PType) (a : Nat) (l : List Byte) (info : PInfo) =>
    m.packetOf c x.id typ 3 tgt a (exAux g.phase q.posting.exid) l info
  let ps := (pieces base data).map (fun p => pkt .xdat (base + p.1) p.2 .none) ++ [pkt .xmark 0 [] (.status k)]
  return ({ y with part := some { q with sent := some g.phase }, snres := y.snres || nr }, ps)

/-- The kept records of a sender, in ascending index (R393). -/
def Part.keptOf (q : Part) (rs : Nat) : List Nat :=
  sortBy (fun a b => decide (a ≤ b))
    ((List.range q.posting.p).flatMap fun j => (q.boundFor j).drop (q.row.getD j 0 / rs))

/-- Move the kept records to the front of IN. -/
def compactKept (c : CoreId) (x : Cmd) : List (Nat × Nat) → Run Unit
  | [] => pure ()
  | (i, k) :: t => do
    let (rec, _) ← fabRead c ((x.word 1 + i * x.rs) % 2 ^ 64) x.rs
    putMem (← getInst c).id.uid (x.word 1 + k * x.rs) rec
    compactKept c x t

/-- Read a record of the receive area. -/
def areaRecord (c : CoreId) (x : Cmd) (k : Nat) : Run (List Byte) := do
  let mut out : List Byte := []
  for s in x.spans (k * x.rs) x.rs do out := out ++ (← fabRead c s.1 s.2.2).1
  return out

/-- Sort the received positions by key, stably (R394). -/
def sortArea (c : CoreId) (x : Cmd) (n : Nat) : Run Unit := do
  let k := keyRecOf x x.q.posting.cfg
  let mut recs : List (Nat × List Byte) := []
  for i in List.range n do
    let rec ← areaRecord c x i
    recs := recs ++ [((k.keyOf rec).1, rec)]
  putArea (← getInst c).id.uid x 0 ((sortBy (fun a b => decide (a.1 ≤ b.1)) recs).flatMap (·.2))

/-- The completion record (Table 16.5) of counts and flags. -/
def exchangeRecord (x : Cmd) (fin : Nat × Bool × Bool × Bool) : List Byte × Nat :=
  let q := x.q
  let r := q.posting.rank
  let (phases, failover, nostby, keptany) := fin
  let flag := fun (b : Bool) (k : Nat) => if b then 2 ^ k else 0
  let recv := q.recv.sum
  let js := List.range q.posting.p
  if q.posting.xrep then
    let n := recv / x.rs
    let last := if r + 1 < q.posting.p then q.first.getD (r + 1) 4096 else 4096
    let words := [q.row.sum / x.rs, n, (q.keptOf x.rs).length, n - x.rout, q.nan, phases
      , flag failover 0 + flag nostby 1 + flag keptany 2 + q.first.getD r 0 * 2 ^ 16 + last * 2 ^ 32, q.w]
    (words.flatMap (bytesOf 8), if keptany then fabPartial else 0)
  else
    let len := fun (j : Nat) => match q.alen.find? (·.1 == j) with | some e => e.2.2 | none => 0
    let sent := (js.map fun j => min (len j) (q.row.getD j 0)).sum
    let unsent := (js.map fun j => len j - q.posting.row.getD j 0).sum
    let cut := (js.map fun j => q.posting.row.getD j 0 - q.row.getD j 0).sum
    let short := (js.map fun j => q.row.getD j 0 - len j).sum
    let words := [sent, recv, unsent, cut, short, phases, flag failover 0 + flag nostby 1 + flag keptany 2, 0]
    (words.flatMap (bytesOf 8), if unsent ≠ 0 || cut ≠ 0 then fabUnsent else 0)

/-- FINAL has come and every phase is done: kept records and the sort, RTAB, the completion record, and the status
(R380, R393, R394). -/
def finishStep (c : CoreId) (x : Cmd) (fin : Nat × Bool × Bool × Bool) : Run Nat := do
  let q := x.q
  let uid := (← getInst c).id.uid
  if q.posting.xrep then
    compactKept c x (q.keptOf x.rs).zipIdx
    if (x.word 8).testBit 14 then sortArea c x (q.recv.sum / x.rs)
  else putMem uid (x.word 6) (q.recv.flatMap fun v => bytesOf 8 v)
  let (l, st) := exchangeRecord x fin
  putMem uid (if q.posting.xrep then x.word 6 else x.word 7) l
  return st

/-! ## Whose turn the engine has -/

/-- A participant's engine has something to do. -/
def Cmd.partReady (x : Cmd) : Bool :=
  match x.part with
  | none => false
  | some q => q.gotG && (!q.ready || q.toSend.isSome || (q.grants.isEmpty && q.final.isSome))

/-- A core's exchange that can go on: no landing record of its instance waits (R310, R379). -/
def Mach.partNext (m : Mach) (c : CoreId) (code : Nat) : Option Cmd :=
  let i := m.inst c
  if (m.ctx i.id.ctx.val).landing.any (·.uid == i.id.uid) then none
  else i.fifo.cmds.find? fun x => x.code == code && x.partReady

/-- One step of a participant's engine. Its last PDONE, with the phase count that FINAL carries, says that its result is
pushed (R384, notes/assumptions/71.md). -/
def Mach.partStep (m : Mach) (c : CoreId) (x : Cmd) : Mach :=
  let n := m.cmdNum c x
  let stopped := fun (m' : Mach) (st : Stop) =>
    match st with
    | .wait _ => m.keepMoves m'
    | .trap .illegal _ => (m.keepMoves m').partFail n fabRej
    | _ => (m.keepMoves m').partFail n fabFault
  let go := fun (f : Run (Cmd × List Packet)) =>
    match f.go m with
    | (.ok (y, ps), m') => ((m'.modCmd n fun _ => y).sendAll ps).advancePart n
    | (.error st, m') => stopped m' st
  if !x.q.ready then go (selfStep c x)
  else
    match x.q.toSend, x.q.final with
    | some g, _ => go (sendStep c x g)
    | none, some fin =>
      match (finishStep c x fin).go m with
      | (.ok st, m') => (m'.tellArbiter n .pdone fin.1 .none).failCmd n st
      | (.error st, m') => stopped m' st
    | none, none => m

/-- DPOST and XREP: the next step of one in progress, or the start of the next. -/
def Mach.exchangeStep (m : Mach) (c : CoreId) (code : Nat) (go : CoreId → Cmd → Run Begun) : Mach :=
  match m.partNext c code with
  | some x => m.partStep c x
  | none => m.startCmd c code (go c)

/-- DPOST (R374). -/
def execDpost (c : CoreId) (s : State) : Out :=
  s.to (s.mach.onResident c fun m => m.exchangeStep c 7 dpostGo)

/-- XREP (R386). -/
def execXrep (c : CoreId) (s : State) : Out :=
  s.to (s.mach.onResident c fun m => m.exchangeStep c 8 xrepGo)

end Sys2Proof.Machine
end

