-- ==== Sys2Proof/Machine/ExchSteps.lean ====
section
/-! DEFINITION. The exchange packets at participants and at arbiters: collection, quotas, grants and phases, the
mirror, heartbeats, takeover and the timeouts (R373, R375–R385, R390). An arbiter packet names its exchange in ADDR:
2 × key from a participant or another arbiter, 2 × key + 1 from an arbiter to a participant, with SRC_CORE 1 where
the standby sent it. -/

namespace Sys2Proof.Machine
open Sys2Proof

/-! ## Exchanges at an arbiter -/

/-- The packets of the ranks that have posted. -/
def Exch.posters (e : Exch) : List Packet := if e.hists.isEmpty then e.posts else e.hists

/-- A posting of nothing. -/
def noPosting : Posting :=
  { p := 0, arb := 0, stb := 0, ctmo := 0, qc := 0, xrep := false, tgts := [], cfg := [], rank := 0, exid := 0, row := []
    rcap := 0 }

/-- What a packet posts. -/
def postOf (p : Packet) : Posting := match p.info with | .post q => q | _ => noPosting

/-- The first posting. -/
def Exch.head (e : Exch) : Posting := match e.posters with | p :: _ => postOf p | [] => noPosting

/-- The exchange of a key that this module arbitrates: as the standby that took it over, or as the primary. -/
def Mach.acting (m : Mach) (key : Nat) : Option Exch :=
  match m.exchs.find? fun e => e.key == key && e.acting && e.standby with
  | some e => some e
  | none => m.exchs.find? fun e => e.key == key && e.acting

def Mach.setExch (m : Mach) (e : Exch) : Mach :=
  { m with exchs := m.exchs.map fun x => if x.key = e.key && x.standby == e.standby then e else x }
def Mach.dropExch (m : Mach) (e : Exch) : Mach :=
  { m with exchs := m.exchs.filter fun x => !(x.key == e.key && x.standby == e.standby) }

/-- The exchange without the posts of some ranks. -/
def Exch.without (e : Exch) (rs : List Nat) : Exch :=
  let keep := fun (l : List Packet) => l.filter fun p => !rs.contains (postOf p).rank
  { e with posts := keep e.posts, hists := keep e.hists }

/-- The rank that posted from a packet's die. -/
def Exch.rankOf (e : Exch) (p : Packet) : Option Nat :=
  (e.posters.find? fun q => q.srcPkg == p.srcPkg && q.srcDie == p.srcDie).map fun q => (postOf q).rank

/-- The packet of a rank. -/
def Exch.poster (e : Exch) (r : Nat) : Option Packet := e.posters.find? fun q => (postOf q).rank == r

/-- A packet from an arbiter to the sender of a post. -/
def Mach.toPart (m : Mach) (standby : Bool) (key : Nat) (to' : Packet) (typ : PType) (info : PInfo) : Packet :=
  { typ, cls := 2, group := 8, gang := to'.gang, srcPkg := m.pkg.toNat, srcDie := to'.srcDie
    srcCore := if standby then 1 else 0, ftag := to'.ftag, tgt := to'.srcPkg, dstDie := to'.srcDie
    addr := 2 * key + 1, seq := 0, cmd := to'.cmd, aux := (postOf to').exid * 2 ^ 48, data := [], info }

def Mach.tellPart (m : Mach) (e : Exch) (to' : Packet) (typ : PType) (info : PInfo) : Mach :=
  m.sendIod (m.toPart e.standby e.key to' typ info)
def Mach.tellAll (m : Mach) (e : Exch) (typ : PType) (info : PInfo) : Mach :=
  e.posters.foldl (fun m p => m.tellPart e p typ info) m

/-- A packet from the primary to the standby: to CD0 of its module (R373). -/
def Mach.tellStandby (m : Mach) (e : Exch) (typ : PType) (info : PInfo) : Mach :=
  if e.standby || e.nostby then m
  else
    let q := e.head
    m.sendIod
      { typ, cls := 0, group := 8, gang := 0, srcPkg := m.pkg.toNat, srcDie := 0, srcCore := 0
        ftag := (e.posters.map (·.ftag)).headD 0, tgt := q.stb, dstDie := 0, addr := 2 * e.key, seq := 0, cmd := 0
        aux := q.exid * 2 ^ 48, data := [], info }

/-- An exchange closes: its posters whose result is not pushed end with a status, and the standby forgets it. -/
def Mach.closeExch (m : Mach) (e : Exch) (st : Nat) : Mach :=
  (((m.tellAll (e.without e.pushed) .abort (.status st)).tellStandby e .mirror (.status st))).dropExch e

/-! ## The calendar at work (R376, R377) -/

/-- The phases in which a rank holds a grant. -/
def Exch.phasesOf (e : Exch) (r : Nat) : List Nat :=
  ((e.calendar.filter (·.1 == r)).map (·.2.phase)).eraseDups

def Exch.doneOf (e : Exch) (r : Nat) : Nat := e.done.getD r 0
def Exch.issuedOf (e : Exch) (r : Nat) : Nat := e.issued.getD r 0

/-- A rank's lowest granted phase not reported. -/
def Exch.nextOf (e : Exch) (r : Nat) : Nat := (e.phasesOf r).getD (e.doneOf r) e.phases

/-- The phases of a rank that may be issued now: at most 64 not completed. -/
def Exch.aheadOf (e : Exch) (r : Nat) : List Nat := (e.phasesOf r).take (e.doneOf r + 64)

/-- The planned phases that the grants to be issued now need, in windows of 16. -/
def Exch.need (e : Exch) : Nat :=
  let last := ((List.range e.head.p).flatMap fun r => (e.aheadOf r).map (· + 1)).foldl max 0
  min e.phases ((last + 15) / 16 * 16)

/-- Plan: each window is mirrored before a grant of it is issued (R383). -/
def Mach.planWindows (m : Mach) (e : Exch) : Mach :=
  let from' := e.planned / 16
  (List.range ((e.need + 15) / 16 - from')).foldl
    (fun m k => m.tellStandby e .mirror (.window (min e.phases (16 * (from' + k + 1))))) m

/-- Issue to a rank the grants it may hold and has not been given. -/
def Mach.issueTo (m : Mach) (e : Exch) (r : Nat) : Mach :=
  let now := (e.aheadOf r).drop (e.issuedOf r)
  let gs := (e.calendar.filter fun g => g.1 == r && now.contains g.2.phase).map (·.2)
  match e.poster r with
  | some p => if gs.isEmpty then m else m.tellPart e p .grant (.grants gs)
  | none => m

/-- Every participant is past its last grant. -/
def Exch.allDone (e : Exch) : Bool := (List.range e.head.p).all fun r => decide ((e.phasesOf r).length ≤ e.doneOf r)

/-- A rank has kept a record: something of a row was not granted (R393). -/
def Exch.keptAny (e : Exch) : Bool :=
  e.head.xrep && e.posts.any fun p =>
    (postOf p).row.zipIdx.any fun v => decide (entryAt e.quotas (postOf p).rank v.2 < v.1)

/-- Every participant's result is pushed. -/
def Exch.allPushed (e : Exch) : Bool := (List.range e.head.p).all fun r => e.pushed.contains r

/-- Issue what may be issued; once every participant is past its last grant, FINAL to all whose result is not pushed, and
the exchange is forgotten once every result is (Table 16.6). -/
def Mach.issueExch (m : Mach) (e : Exch) : Mach :=
  if e.allPushed then (m.tellStandby e .mirror (.status 0)).dropExch e
  else if e.allDone then
    let m := m.tellAll (e.without e.pushed) .final (.final e.phases e.failover e.nostby e.keptAny)
    m.setExch { e with st := .completing }
  else
    let m := m.planWindows e
    let rs := List.range e.head.p
    let m := rs.foldl (fun m r => m.issueTo e r) m
    m.setExch { e with planned := max e.planned e.need, issued := rs.map fun r => max (e.issuedOf r) (e.aheadOf r).length }

/-- The receive offset of a pair (R375). -/
def roff (g : List (List Nat)) (s d : Nat) : Nat := ((List.range s).map fun k => entryAt g k d).sum

/-- The row and column of G for a rank. -/
def Mach.tellQuotas (m : Mach) (e : Exch) (p : Packet) : Mach :=
  let g := e.quotas
  let r := (postOf p).rank
  let js := List.range e.head.p
  m.tellPart e p .grant
    (.quotas (js.map fun j => entryAt g r j) (js.map fun i => entryAt g i r) (js.map fun j => roff g r j))

/-- Quotas and phases fixed. -/
def Exch.withQuotas (e : Exch) (g : List (List Nat)) : Exch :=
  let (cal, n) := Sys2Proof.Machine.calendar (2 ^ (e.head.qc + 12)) g
  { e with quotas := g, calendar := cal, phases := n, st := .issuing, issued := List.replicate e.head.p 0
           done := List.replicate e.head.p 0 }

/-! ## Collecting (R373, R375, R390) -/

/-- The fields that every post shares (R373). -/
def sameFields (a b : Posting) : Bool :=
  a.p == b.p && a.arb == b.arb && a.stb == b.stb && a.ctmo == b.ctmo && a.qc == b.qc && a.xrep == b.xrep
    && crc64 (a.tgts.flatMap (bytesOf 8)) == crc64 (b.tgts.flatMap (bytesOf 8)) && a.cfg == b.cfg

/-- The posts in ascending rank. -/
def byRank (l : List Packet) : List Packet := sortBy (fun a b => decide ((postOf a).rank ≤ (postOf b).rank)) l

/-- Every rank has posted what the exchange waits for: SPLIT to all, or the quotas, their mirror and G's rows and
columns, and the first grants. -/
def Mach.collected (m : Mach) (e : Exch) : Mach :=
  let q := e.head
  if e.posts.length = q.p then
    let rows := (byRank e.posts).map postOf
    let e := e.withQuotas (quotaMatrix (rows.map (·.row)) (rows.map (·.rcap)))
    let m := (m.setExch e).tellStandby e .mirror (.quotaMatrix e.quotas)
    let m := e.posters.foldl (fun m p => m.tellQuotas e p) m
    m.issueExch e
  else if e.hists.length = q.p && q.xrep then
    let (first, w) := splitBuckets q.p ((byRank e.hists).map fun p => (postOf p).row)
    (m.setExch e).tellAll { e with hists := e.hists.filter fun h => !e.posts.any fun p => (postOf p).rank == (postOf h).rank }
      .split (.split first w)
  else m.setExch e

/-- A post breaches R373 against what has been posted. -/
def Exch.breach (e : Exch) (p : Packet) (q : Posting) : Bool :=
  !sameFields q e.head || q.p ≤ q.rank
    || (if p.typ = .demand && q.xrep then
          e.rankOf p ≠ some q.rank || e.posts.any (fun x => (postOf x).rank == q.rank) || e.hists.length ≠ e.head.p
        else (e.rankOf p).isSome || (e.poster q.rank).isSome)

/-- A mirror of a post for the standby. -/
def mirrorOf (p : Packet) (q : Posting) : PInfo :=
  .mirrorPost q (p.typ == .hist) p.srcPkg p.srcDie p.cmd p.ftag p.gang

/-- Store a post. -/
def Exch.store (e : Exch) (p : Packet) : Exch :=
  if p.typ = .hist then { e with hists := e.hists ++ [p] } else { e with posts := e.posts ++ [p] }

def collectCycles (q : Posting) : Nat := (if q.ctmo = 0 then 10000 else q.ctmo) * 1500

/-- A DEMAND or HIST at its arbiter (Table 16.6). -/
def Mach.takePost (m : Mach) (p : Packet) (q : Posting) : Mach :=
  let key := exKey q.arb p.ftag q.exid
  match m.acting key with
  | some e =>
    if e.breach p q || e.st ≠ .collecting then (m.sendIod (m.toPart e.standby key p .abort (.status fabMismatch))).closeExch e fabMismatch
    else
      let e := e.store p
      ((m.setExch e).tellStandby e .mirror (mirrorOf p q)).collected e
  | none =>
    if q.arb ≠ m.pkg.toNat || (q.xrep && p.typ == .demand) then m
    else if 64 ≤ (m.exchs.filter fun e => !e.standby).length then m.sendIod (m.toPart false key p .abort (.status fabRefused))
    else if q.p ≤ q.rank then m.sendIod (m.toPart false key p .abort (.status fabMismatch))
    else
      let e : Exch := ({ key, standby := false, acting := true, since := m.cycle, heard := m.cycle } : Exch).store p
      let m : Mach := { m with exchs := m.exchs ++ [e] }
      ((m.timer (collectCycles q) (.collectTimeout key)).tellStandby e .mirror (mirrorOf p q)).collected e

/-- Take a request in at an arbiter. -/
def Mach.atArbiter (m : Mach) (p : Packet) (f : Mach → Mach) : Mach :=
  m.receive p (fun _ m => (.ok, f m)) fun _ m => m.ackFar p

def Mach.posted (m : Mach) (p : Packet) : Mach :=
  m.atArbiter p fun m => match p.info with | .post q => m.takePost p q | _ => m

/-- DEMAND (R375, R384). -/
def execDemand (p : Packet) (s : State) : Out := s.to (s.mach.posted p)

/-- HIST (R390, R384). -/
def execHist (p : Packet) (s : State) : Out := s.to (s.mach.posted p)

/-- PDONE (R384): the phase is recorded, and further grants are planned, mirrored and issued. The last, with the phase
count, says that the participant's result is pushed (notes/assumptions/71.md). -/
def execPdone (p : Packet) (s : State) : Out :=
  s.to (s.mach.atArbiter p fun m =>
    match m.acting (p.addr / 2) with
    | none => m
    | some e =>
      match e.rankOf p with
      | none => m
      | some r =>
        let ph := p.aux % 2 ^ 48
        let n := ((e.phasesOf r).filter fun k => decide (k ≤ ph)).length
        let e := { e with done := e.done.set r (max (e.doneOf r) n) }
        let e := if e.quotas ≠ [] && ph = e.phases then { e with pushed := r :: e.pushed } else e
        if e.st = .issuing then m.issueExch e
        else if e.st = .completing && e.allPushed then m.issueExch e
        else m.setExch e)

/-- COLLECT_TIMEOUT (R375). -/
def execCollectTimeout (key : Nat) (s : State) : Out :=
  let m := s.mach
  match m.acting key with
  | none => s.to m
  | some e =>
    if e.st = .collecting && decide (e.since + collectCycles e.head ≤ m.cycle) then s.to (m.closeExch e fabTimeout)
    else s.to m

/-! ## The mirror, heartbeats and takeover (R383, R385) -/

/-- The post that a mirror describes. -/
def Mach.mirrored (p : Packet) (q : Posting) (hist : Bool) (pkg : Nat) (die : DieId) (cmd ftag gang : Nat) : Packet :=
  { p with typ := if hist then .hist else .demand, srcPkg := pkg, srcDie := die, cmd, ftag, gang, info := .post q }

/-- Two mirrored exchanges are held by one standby: that on CD0 where this module is also their primary's, and otherwise
that on the IOD (R373). -/
def Mach.sameArbiter (m : Mach) (a b : Nat) : Bool := (a / 2 ^ 48 == m.pkg.toNat) == (b / 2 ^ 48 == m.pkg.toNat)

/-- What the standby stores. -/
def Mach.takeMirror (m : Mach) (p : Packet) : Mach :=
  let key := p.addr / 2
  let mine := m.exchs.find? fun e => e.key == key && e.standby
  match p.info, mine with
  | .mirrorPost q hist pkg die cmd ftag gang, some e => m.setExch (e.store (Mach.mirrored p q hist pkg die cmd ftag gang))
  | .mirrorPost q hist pkg die cmd ftag gang, none =>
    if 64 ≤ (m.exchs.filter fun e => e.standby && m.sameArbiter e.key key).length then m
    else
      let e : Exch := ({ key, standby := true, acting := false, since := m.cycle, heard := m.cycle } : Exch).store
        (Mach.mirrored p q hist pkg die cmd ftag gang)
      ({ m with exchs := m.exchs ++ [e] } : Mach).timer (collectCycles q) (.collectTimeout key)
  | .quotaMatrix g, some e => m.setExch (e.withQuotas g)
  | .window n, some e => m.setExch { e with planned := max e.planned n }
  | .status _, some e => if e.acting then m else m.dropExch e
  | _, _ => m

/-- MIRROR (R383). -/
def execMirror (p : Packet) (s : State) : Out := s.to (s.mach.atArbiter p fun m => m.takeMirror p)

/-- HEART (R383): each participant's next phase. -/
def execHeart (p : Packet) (s : State) : Out :=
  s.to (s.mach.atArbiter p fun m =>
    match m.exchs.find? fun e => e.key == p.addr / 2 && e.standby && !e.acting with
    | none => m
    | some e =>
      let done := match p.info with
        | .nexts l => if e.quotas.isEmpty then e.done else
            l.zipIdx.map fun n => ((e.phasesOf n.2).filter fun k => decide (k < n.1)).length
        | _ => e.done
      m.setExch { e with heard := m.cycle, done })

/-- The heartbeats of an exchange in a row that have not been acknowledged: those after the last that was. -/
def Mach.heartsOut (m : Mach) (e : Exch) : Nat :=
  (m.unacked.filter fun u => u.2.typ == .heart && u.2.addr == 2 * e.key &&
    match e.beat with | some k => decide ((u.2.seq + 2 ^ 32 - k) % 2 ^ 32 < 2 ^ 31) | none => true).length

/-- HEARTBEAT_TIMER (R383): after three heartbeats in a row without an acknowledgement the primary carries on
alone. -/
def execHeartbeatTimer (s : State) : Out :=
  let m := s.mach
  s.to ((m.exchs.filter fun e => e.acting && !e.standby && !e.nostby).foldl (fun m e =>
    let missed := m.heartsOut e
    if 3 ≤ missed then m.setExch { e with missed, nostby := true }
    else
      (m.setExch { e with missed }).tellStandby e .heart (.nexts ((List.range e.head.p).map fun r => e.nextOf r))) m)

/-- A standby that has not heard its primary for 30 µs. -/
def Exch.silent (e : Exch) (cycle : Nat) : Bool := e.standby && !e.acting && decide (e.heard + 45000 ≤ cycle)

/-- The participants that a TAKEOVER goes to: all of the TGT list, with the command number of those mirrored. -/
def Exch.everyone (e : Exch) : List Packet :=
  match e.posters with
  | [] => []
  | p :: _ => e.head.tgts.zipIdx.map fun t =>
      match e.poster t.2 with
      | some q => q
      | none => { p with srcPkg := tgtPkg t.1, srcDie := ctxDie (tgtCtx t.1), cmd := 0 }

/-- STANDBY_TAKEOVER (R385). -/
def execStandbyTakeover (s : State) : Out :=
  let m := s.mach
  s.to ((m.exchs.filter fun e => e.silent m.cycle).foldl (fun m e =>
    let e := { e with acting := true, st := .failingOver, failover := true, answered := [] }
    let m := (m.setExch e).timer 15000000 (.stateTimeout e.key)
    e.everyone.foldl (fun m p => m.tellPart e p .takeover .none) m) m)

/-- The standby resumes an exchange in the state its mirror shows. -/
def Mach.resumeExch (m : Mach) (e : Exch) : Mach :=
  if e.quotas.isEmpty then
    let e := { e with st := .collecting }
    if e.since + collectCycles e.head ≤ m.cycle then m.closeExch e fabTimeout else m.collected e
  else
    let e := { e with st := .issuing, issued := e.done }
    (e.posters.foldl (fun m p => m.tellQuotas e p) m).issueExch e

/-- A post that a STATE resends replaces the mirrored one. -/
def Exch.resent (e : Exch) (p : Packet) (q : Posting) (hist : Bool) : Exch :=
  let p := { p with typ := if hist then .hist else .demand, info := .post q }
  let rest := fun (l : List Packet) => l.filter fun x => (postOf x).rank != q.rank
  if e.quotas ≠ [] then e
  else if hist then { e with hists := rest e.hists ++ [p] } else { e with posts := rest e.posts ++ [p] }

/-- The phase by which a STATE says that the participant's result is pushed (notes/assumptions/71.md). -/
def pushedPhase : Nat := 2 ^ 48 - 1

/-- EXCH_STATE (R385). -/
def execExchState (p : Packet) (s : State) : Out :=
  s.to (s.mach.atArbiter p fun m =>
    match m.exchs.find? fun e => e.key == p.addr / 2 && e.standby && e.st == .failingOver, p.info with
    | some e, .next n hist resend =>
      let e := match resend with | some q => if sameFields q e.head then e.resent p q hist else e | none => e
      match e.rankOf p with
      | none => m.setExch e
      | some r =>
        let k := ((e.phasesOf r).filter fun j => decide (j < n)).length
        let e := { e with
          answered := r :: e.answered, done := if e.quotas.isEmpty then e.done else e.done.set r k
          pushed := if n = pushedPhase then r :: e.pushed else e.pushed }
        if e.posters.all fun q => e.answered.contains (postOf q).rank then m.resumeExch e else m.setExch e
    | _, _ => m)

/-- STATE_TIMEOUT (R385). -/
def execStateTimeout (key : Nat) (s : State) : Out :=
  let m := s.mach
  match m.exchs.find? fun e => e.key == key && e.standby && e.st == .failingOver with
  | some e => s.to (m.closeExch e fabTimeout)
  | none => s.to m

/-! ## Participants -/

/-- A participant's command that an arbiter's packet is for: the packet's own number, or the participant of its
module and die in that exchange. -/
def Mach.partFor (m : Mach) (p : Packet) : Option (Nat × Part) :=
  let hit := fun (n : Nat) => (((m.cmd? n).bind (·.part)).filter fun q => q.key == p.addr / 2).map fun q => (n, q)
  match hit p.cmd with
  | some r => some r
  | none =>
    let all := (m.cores.toList.filter (·.resident)).map (·.inst) ++ m.images.map (·.inst)
    let mine := all.filter fun i => ctxDie i.id.ctx.val == p.dstDie
    (mine.flatMap fun i => i.fifo.cmds.map fun x => i.id.uid * 2 ^ 32 + x.id).findSome? hit

/-- Take in a packet of an arbiter: of the standby alone, once it has taken over. -/
def Mach.atPart (m : Mach) (p : Packet) (f : Nat → Part → Mach → Mach) : Mach :=
  m.receive p (fun _ m =>
    match m.partFor p with
    | none => (.ok, m)
    | some (n, q) =>
      if q.fromStandby && p.srcCore = 0 then (.ok, m)
      else (.ok, f n q (m.modPart n fun q => { q with heard := m.cycle }))) fun _ m => m

/-- SPLIT (R390, R391): the row follows from the owners, and is posted. -/
def execSplit (p : Packet) (s : State) : Out :=
  s.to (s.mach.atPart p fun n q m =>
    match p.info, m.cmd? n with
    | .split first w, some x =>
      if !q.first.isEmpty then m
      else
        let q' := { q with first, w }
        let row := (List.range q.posting.p).map fun j => x.rs * (q'.boundFor j).length
        let m := m.modPart n fun q => { q with first, w, posting := { q.posting with row } }
        m.tellArbiter n .demand 0 (.post { q.posting with row })
    | _, _ => m)

/-- GRANT (R375, R377, R385): the row and column of G, or grants; a phase completed or held is discarded. -/
def execGrant (p : Packet) (s : State) : Out :=
  s.to (s.mach.atPart p fun n q m =>
    match p.info with
    | .quotas row col offs => if q.gotG then m else m.modPart n fun q => { q with row, col, offs, gotG := true }
    | .grants l =>
      let new := l.filter fun g => decide (q.next ≤ g.phase) && (q.grantIn g.phase g.send).isNone
      (m.modPart n fun q => { q with grants := q.grants ++ new }).advancePart n
    | _ => m)

/-- FINAL (R380). -/
def execFinal (p : Packet) (s : State) : Out :=
  s.to (s.mach.atPart p fun n _ m =>
    match p.info with
    | .final a b c d => m.modPart n fun q => { q with final := some (a, b, c, d) }
    | _ => m)

/-- The STATE of a participant whose result is pushed. -/
def Mach.statePushed (m : Mach) (p : Packet) : Packet :=
  { p with
    typ := .exchState, cls := 0, srcPkg := m.pkg.toNat, srcDie := p.dstDie, srcCore := 0, tgt := p.srcPkg
    addr := p.addr - 1, seq := 0, info := .next pushedPhase false none }

/-- TAKEOVER (R385): answered with STATE, and a participant that holds no grant sends its post again. -/
def execTakeover (p : Packet) (s : State) : Out :=
  s.to (s.mach.receive p (fun _ m =>
    match m.partFor p with
    | none => (.ok, m.send (m.statePushed p))
    | some (n, q) =>
      if q.posting.stb ≠ p.srcPkg then (.ok, m)
      else
        let m := m.modPart n fun q => { q with fromStandby := true, heard := m.cycle }
        let resend := if q.grants.isEmpty then some q.posting else none
        (.ok, m.tellArbiter n .exchState 0 (.next (q.phase.getD q.next) (q.posting.xrep && q.first.isEmpty) resend)))
    fun _ m => m)

/-- ABORT (R384): from a participant at its arbiter every poster ends with ABORTED; at a participant its command
ends with the status carried. -/
def execAbort (p : Packet) (s : State) : Out :=
  let m := s.mach
  if destPkg p ≠ m.pkg.toNat && p.srcPkg = m.pkg.toNat then s.to (m.send p)
  else if p.addr % 2 = 0 then
    s.to (m.receive p (fun _ m =>
      match m.acting (p.addr / 2) with
      | none => (.ok, m)
      | some e => (.ok, if (e.rankOf p).isSome then m.closeExch e fabAborted else m)) fun _ m => m)
  else
    s.to (m.atPart p fun n _ m =>
      match p.info with
      | .status st => m.failCmd n st
      | _ => m)

/-- How long a participant bears an arbiter's silence (R385): 10 ms, and while rows are collected not less than the
CTMO that the arbiter waits for them (R375; notes/assumptions/70.md). -/
def Part.silence (q : Part) : Nat :=
  if q.gotG then 15000000 else max 15000000 (collectCycles q.posting)

/-- ARBITER_SILENCE_TIMEOUT (R385): a participant that waits for a grant or FINAL and has heard no arbiter for
10 ms. -/
def execArbiterSilenceTimeout (n : Nat) (s : State) : Out :=
  let m := s.mach
  match (m.cmd? n).bind (·.part) with
  | none => s.to m
  | some q =>
    let waits := q.grants.isEmpty && q.final.isNone
    if waits && decide (q.heard + q.silence ≤ m.cycle) then s.to (m.failCmd n fabTimeout)
    else s.to (m.timer (if waits then min 15000000 (q.heard + q.silence - m.cycle) else 15000000) (.arbiterSilenceTimeout n))

/-! ## Data between participants (R378, R379) -/

/-- The participant that a data packet is for, and the rank of its source. -/
def Mach.dataFor (m : Mach) (p : Packet) : Option (Nat × Cmd × Part × Nat) :=
  match m.targetInst p.tgt p.gang with
  | none => none
  | some t =>
    match m.instOf t.uid with
    | none => none
    | some i => i.fifo.cmds.findSome? fun x =>
        match x.part with
        | none => none
        | some q =>
          if q.posting.exid ≠ p.aux / 2 ^ 48 then none
          else (q.posting.tgts.findIdx? fun w => tgtPkg w == p.srcPkg && ctxDie (tgtCtx w) == p.srcDie).map fun r =>
            (t.uid * 2 ^ 32 + x.id, x, q, r)

/-- Count bytes of a phase from a source. -/
def Part.addGot (q : Part) (ph src n : Nat) : Part :=
  let rest := q.got.filter fun e => !(e.1 == ph && e.2.1 == src)
  { q with got := rest ++ [(ph, src, q.gotOf ph src + n)], recv := q.recv.set src (q.recv.getD src 0 + n) }

/-- XDAT at its receiver (R378, R379, R392). -/
def Mach.takeXdat (m : Mach) (p : Packet) (offered : Bool) : Took × Mach :=
  match m.targetCtx p.tgt p.ftag with
  | .error st => (.fail st, m)
  | .ok ctx =>
    match m.dataFor p with
    | none => (.ok, m)
    | some (n, x, q, r) =>
      let ph := p.aux % 2 ^ 48
      if ph < q.next then (.ok, m)
      else
        let first := !offered && !q.got.any fun e => e.1 == ph && e.2.1 == r
        let m := if first then m.arrival p.gang (ctxDie ctx) else m
        let res := (x.spans p.addr p.data.length).foldl (fun (acc : Took × Mach) s =>
          match acc.1 with
          | .ok => acc.2.localPut (n / 2 ^ 32) s.1 ((p.data.drop s.2.1).take s.2.2)
          | _ => acc) (Took.ok, m)
        match res with
        | (.ok, m) => (.ok, (m.modPart n fun q => q.addGot ph r p.data.length).advancePart n)
        | (.hold, m) => (.hold, m)
        | (_, m) => (.ok, m.partFail n fabFault)

/-- XDAT (R378, R379). -/
def execXdat (p : Packet) (s : State) : Out :=
  s.to (s.mach.receive p (fun offered m => m.takeXdat p offered) fun t m =>
    if p.srcPkg = m.pkg.toNat && t == .ok then m else m.answer p .ack t.status [])

/-- XMARK at its receiver: it waits for the phase's bytes (R378). -/
def Mach.takeXmark (m : Mach) (p : Packet) : Took × Mach :=
  match m.targetCtx p.tgt p.ftag with
  | .error st => (.fail st, m)
  | .ok _ =>
    match m.dataFor p with
    | none => (.ok, m)
    | some (n, _, q, r) =>
      let ph := p.aux % 2 ^ 48
      let k := match p.info with | .status k => k | _ => 0
      if ph < q.next then (.ok, m)
      else if q.gotOf ph r < k then (.hold, m)
      else (.ok, (m.modPart n fun q => { q with marks := q.marks ++ [(ph, r, k)] }).advancePart n)

/-- XMARK (R378, R379): answered with XACK once every byte of the phase has been written or landed. -/
def execXmark (p : Packet) (s : State) : Out :=
  s.to (s.mach.receive p (fun _ m => m.takeXmark p) fun t m =>
    match t with
    | .ok => m.answer p .xack 0 []
    | t => m.answer p .ack t.status [])

/-- XACK (R379). -/
def execXack (p : Packet) (s : State) : Out :=
  s.to (s.mach.receive p (fun _ m =>
    let ph := p.aux % 2 ^ 48
    (.ok, ((m.acked p).modPart p.cmd fun q => if q.sent = some ph then { q with acked := some ph } else q).advancePart p.cmd))
    fun _ m => m)

end Sys2Proof.Machine
end

