-- ==== Sys2Proof/Machine/Power.lean ====
section
/-! DEFINITION. Power states of the module, boot, the power and thermal throttles, the halt and its end, reset, the
host's own memory accesses and the test access port (R26–R30, R370, R406, R423). -/

namespace Sys2Proof.Machine
open Sys2Proof

/-- The compute dies are released from reset. -/
def PowerState.running : PowerState → Bool
  | .active => true | .halted => true | _ => false

/-! ## Halt (R27) -/

/-- Every die dispatcher pre-empts its running instances. -/
def Mach.preemptAll (m : Mach) : Mach :=
  m.post (((List.finRange 48).filter fun c => (m.core c).resident).map .preemptionRequest)

/-- The events of the power rows of Table 1.11: of those that come in one cycle the first row applies and the others are
discarded (R28). -/
def powerRow : Instr → Bool
  | .powerOff => true | .cxlFundamentalReset => true | .modEnAssert _ => true | .bootVerification _ => true
  | .moduleResume _ _ _ _ => true | .powerOverrunStop _ _ => true
  | .thermalSensorRead _ t => decide (110 ≤ t) | .layerSensorRead _ _ t => decide (105 < t)
  | _ => false

/-- A power row has applied: the later rows' events of the cycle are discarded. -/
def Mach.rowApplied (m : Mach) : Mach := { m with agenda := m.agenda.filter fun i => !powerRow i }

/-- A halt condition: a thermal stop, or else a power overrun. -/
def State.halt (s : State) (thermal : Bool) : State :=
  let p := if thermal then { s.pwr with haltTh := true } else { s.pwr with haltPw := true }
  match s.pwr.st with
  | .active => { pwr := { p with st := .halted }, mach := s.mach.preemptAll }
  | .halted => { s with pwr := p }
  | _ => s

/-- POWER_OVERRUN_STOP (R27). -/
def execPowerOverrunStop (watts micros : Nat) (s : State) : Out :=
  .next (if decide (120 * s.pwr.limit.toNat < 100 * watts) && decide (50 < micros) then s.halt false else s)

/-- The resume condition of R27 over the readings of the last stretch. -/
def resumeOk (limit : Nat) (dies layers : List Nat) (watts millis : Nat) : Bool :=
  dies.length == 4 && layers.length == 192 && dies.all (fun t => decide (t ≤ 95)) && layers.all (fun t => decide (t ≤ 95))
    && decide (watts ≤ limit) && decide (10 ≤ millis)

/-- MODULE_RESUME (R27). -/
def execModuleResume (dies layers : List Nat) (watts millis : Nat) (s : State) : Out :=
  .next (if s.pwr.st = .halted && resumeOk s.pwr.limit.toNat dies layers watts millis then
    { pwr := { s.pwr with st := .active }, mach := s.mach.rowApplied } else s)

/-! ## Throttles (R26) -/

/-- MODTHR after a window. -/
def nextModthr (thr : Fraction) (limit watts : Nat) : Fraction :=
  if limit < watts then (if thr = 0 then 1 else 2)
  else if 10 * watts < 9 * limit then (if thr = 2 then 1 else 0)
  else thr

/-- POWER_WINDOW_END (R26). -/
def execPowerWindowEnd (watts : Nat) (s : State) : Out :=
  .next (if s.pwr.st = .off then s
    else { s with pwr := { s.pwr with pin := BitVec.ofNat 12 watts, modthr := nextModthr s.pwr.modthr s.pwr.limit.toNat watts } })

/-- A die's thermal throttle. -/
def thermalThrottle (celsius : Nat) : Fraction := if celsius < 100 then 0 else if celsius < 105 then 1 else 2

/-- THERMAL_SENSOR_READ (R26, R27). -/
def execThermalSensorRead (d : DieId) (celsius : Nat) (s : State) : Out :=
  if !s.pwr.st.running then .next s
  else
    let s : State := { s with pwr := { s.pwr with
      dieTemp := vset s.pwr.dieTemp d celsius, dieThr := vset s.pwr.dieThr d (thermalThrottle celsius) } }
    .next (if 110 ≤ celsius then s.halt true else s)

/-! ## Reset, power and boot (R28–R30, R423) -/

/-- The steps that the outside brings to the module: they do not follow from anything the module did. -/
def fromOutside : Instr → Bool
  | .modEnAssert _ => true | .powerOff => true | .cxlFundamentalReset => true | .bootVerification _ => true
  | .powerWindowEnd _ => true | .thermalSensorRead _ _ => true | .powerOverrunStop _ _ => true
  | .moduleResume _ _ _ _ => true | .cxlMemAccess _ _ _ => true | .registerWrite _ _ _ _ => true
  | .layerSensorRead _ _ _ => true | .refresh _ _ => true | .dramRequest _ _ _ _ _ _ _ => true
  | .hotRowWindowEnd _ => true | .patrolScrub _ _ _ => true | .lupinSample _ _ => true | .lupinPlan _ => true
  | .jtagBypass => true | .jtagIdcode => true | .jtagSamplePreload => true | .jtagExtest => true | .jtagPrivate _ => true
  | .linkTrainingEnd _ _ _ _ => true
  | _ => false

/-- What is left of the machine when the dies lose their state: memory from `keep` on, what has left the module
already, and what the outside still brings. -/
def Mach.lost (m : Mach) (keep : Nat) : Mach :=
  { agenda := m.rowApplied.agenda.filter fromOutside, mem := m.mem.filter fun c => decide (keep ≤ c.1)
    poison := m.poison.filter fun l => decide (keep ≤ 64 * l), tick := m.tick, wire := m.wire, irqs := m.irqs }

/-- POWER_OFF (R28–R30): nothing of the module survives; the host's memory and other modules are not of it. -/
def execPowerOff (s : State) : Out :=
  .next (if s.pwr.st = .off then s else { pwr := { st := .off }, mach := s.mach.lost (2 ^ 64) })

/-- MOD_EN_ASSERT (R28): Booting clears the enable of the private instructions (R406). -/
def execModEnAssert (inputOk : Bool) (s : State) : Out :=
  .next (if s.pwr.st = .off && inputOk then
    { pwr := { st := .booting }, mach := { s.mach.rowApplied with jtagPriv := false } } else s)

/-- CXL_FUNDAMENTAL_RESET (R28). -/
def execCxlFundamentalReset (s : State) : Out :=
  .next (if s.pwr.st = .off then s else { pwr := {}, mach := s.mach.lost 0 })

/-- The idle timers of every pseudo-channel start: 4,096 controller cycles are 4,916 of the core (R399). -/
def Mach.startIdle (m : Mach) : Mach :=
  { m with timers := m.timers ++ (List.finRange 12).flatMap fun h =>
      (List.finRange 384).map fun pc => (m.cycle + 4916, .selfRefreshEntry h pc) }

/-- BOOT_VERIFICATION (R423, R28): on acceptance the compute dies are released, FABCFG.PKG and CORE_MAP are set
from the board, the links train and the measurements stand. -/
def execBootVerification (b : BootInput) (s : State) : Out :=
  if s.pwr.st ≠ .booting then .next s
  else if b.keyDigestOk && b.signatureOk && decide (b.minVersion ≤ b.version) then
    .next
      { pwr := { s.pwr with st := .active, insvc := b.insvc, meas := b.meas }
        mach := { s.mach.rowApplied.startIdle with
          pkg := b.pkg, coefs := Vector.ofFn fun k => b.coefs.getD k.val 0
          gw := s.mach.gw.map Link.train, ucie := s.mach.ucie.map Link.train } }
  else .next { pwr := { s.pwr with st := .locked }, mach := s.mach.rowApplied }

/-! ## Host agents over CXL.mem (R34, R90, R370) -/

/-- CXL_MEM_ACCESS (R22, R370): a write stores the bytes; a read has no effect on the module. The access passes through
the link of the die that holds the address, and waits for it. -/
def execCxlMemAccess (addr : Nat) (write : Bool) (data : List Byte) (s : State) : Out :=
  if 768 * 2 ^ 30 < addr + data.length then .fault .noSuchAddress
  else if !s.pwr.st.running || !write then .next s
  else s.to (({ s.mach with hostWrites := s.mach.hostWrites ++ [(addr, data)] } : Mach).drainHost)

/-- What a host read over CXL.mem gives: the bytes, and whether it returns poison (R404). -/
def State.cxlRead (s : State) (addr n : Nat) : List Byte × Bool :=
  (s.mach.bytes addr n, (lineSegs addr n).any fun l => s.mach.poison.contains (l.1 / 64))

/-! ## The test access port (R406) -/

/-- The port takes an instruction: it has power in every state but Off (R29). -/
def State.toTap (s : State) (t : Tap) : Out := s.to (if s.pwr.st = .off then s.mach else { s.mach with tap := t })

/-- JTAG_BYPASS. -/
def execJtagBypass (s : State) : Out := s.toTap .bypass
/-- JTAG_IDCODE. -/
def execJtagIdcode (s : State) : Out := s.toTap .idcode
/-- JTAG_SAMPLE_PRELOAD. -/
def execJtagSamplePreload (s : State) : Out := s.toTap .samplePreload
/-- JTAG_EXTEST. -/
def execJtagExtest (s : State) : Out := s.toTap .extest

/-- JTAG_PRIVATE: answered only once firmware at level M, which runs once the module has booted, has enabled them. -/
def execJtagPrivate (r : JtagPrivate) (s : State) : Out :=
  match r with
  | .enableByFirmware => s.to (if s.pwr.st.running then { s.mach with jtagPriv := true } else s.mach)
  | .instruction code => if s.mach.jtagPriv then s.toTap (.priv code) else .next s

end Sys2Proof.Machine
end

