-- ==== Sys2Proof/Machine/Stacks.lean ====
section
/-! DEFINITION. Memory stacks: layer temperatures and refresh, self-refresh, the hot-row throttle and error
correction (R396–R404). -/

namespace Sys2Proof.Machine
open Sys2Proof

def Mach.stack (m : Mach) (h : Fin 12) : Stack := m.hbm.get h
def Mach.setStack (m : Mach) (h : Fin 12) (x : Stack) : Mach := { m with hbm := vset m.hbm h x }

/-- The layer of a pseudo-channel (R396). -/
def layerOf (pc : Nat) : Fin 16 := Fin.ofNat 16 (pc / 24)

def Stack.chan (x : Stack) (pc : Nat) : Chan := (alookup x.chans pc).getD {}
def Stack.setChan (x : Stack) (pc : Nat) (c : Chan) : Stack := { x with chans := aset x.chans pc c }

/-! ## Refresh (R398) -/

/-- The STK code of a temperature. -/
def stkCode (t : Nat) : Fin 4 := if t ≤ 85 then 0 else if t ≤ 95 then 1 else if t ≤ 105 then 2 else 3

/-- LAYER_SENSOR_READ (R398, R27). -/
def execLayerSensorRead (h : Fin 12) (layer : Fin 16) (t : Nat) (s : State) : Out :=
  if s.pwr.st = .off then .next s
  else
    let x := s.mach.stack h
    let m := s.mach.setStack h { x with temps := vset x.temps layer t, codes := vset x.codes layer (stkCode t) }
    let s : State := { s with mach := m }
    .next (if 105 < t then s.halt true else s)

/-- The idle timer of a pseudo-channel starts again: entry falls due 4,096 controller cycles later, which are 6 ÷ 5
core cycles each. -/
def Mach.restartIdle (m : Mach) (h : Fin 12) (pc : Fin 384) : Mach :=
  let x := m.stack h
  (m.setStack h (x.setChan pc.val { x.chan pc.val with timer := m.cycle })).timer 4916 (.selfRefreshEntry h pc)

/-- REFRESH (R398): the refresh scheduled is issued and the next is scheduled by the layer's code now; a device in
self-refresh refreshes itself. -/
def execRefresh (h : Fin 12) (pc : Fin 384) (s : State) : Out :=
  let x := s.mach.stack h
  if s.pwr.st = .off then .next s
  else
    let m := s.mach.setStack h { x with refreshes := aset x.refreshes pc.val (x.codes.get (layerOf pc.val)).val }
    s.to (if (x.chan pc.val).st = .active then m.restartIdle h pc else m)

/-! ## Hot rows (R400–R402) -/

/-- Which bank of the stack a request goes to. -/
def DramReq.pc (r : DramReq) : Nat := r.line % 384
def DramReq.bankOf (r : DramReq) : Nat := r.pc + 384 * r.bank

/-- The entry with the lowest count, the earliest first. -/
def lowestCount : List HotRow → Option HotRow
  | [] => none
  | r :: t => match lowestCount t with
    | some q => if q.count < r.count then some q else some r
    | none => some r

/-- An activation counted in its bank's table of 32 rows: the table, and the count reached. -/
def countRow (rows : List HotRow) (bank row : Nat) : List HotRow × Nat :=
  match rows.find? fun r => r.bank == bank && r.row == row with
  | some r => (rows.map fun q => if q.bank = bank && q.row == row then { q with count := q.count + 1 } else q, r.count + 1)
  | none =>
    let mine := rows.filter fun r => r.bank == bank
    if mine.length < 32 then (rows ++ [{ bank, row, count := 1 }], 1)
    else
      match lowestCount mine with
      | none => (rows, 1)
      | some low => (rows.map fun q => if q = low then { bank, row, count := 1 } else q, 1)

/-- Charge 64-byte units of HBM to the context of a request. -/
def Mach.chargeHbm (m : Mach) (who : Requester) (n : Nat) : Mach :=
  match who with
  | .ctx c => m.modCtx c.val fun x => { x with act := { x.act with hbm := x.act.hbm + n } }
  | .host => m

/-- The refresh-management commands of a hot row: to the rows at distances 1 and 2 on either side. -/
def rfmCount (row : Nat) : Nat := 2 + min 2 row

/-- An activation of a row: a throttled one is charged to its issuer and starts its spacing anew, and the one that makes
the row hot raises the event: the first pair of refresh-management commands blocks the bank, and the row is throttled to
the end of the window that follows. -/
def Mach.activate (m : Mach) (h : Fin 12) (r : DramReq) : Mach :=
  let x := m.stack h
  let (rows, n) := countRow x.rows r.bankOf r.row
  let mine := fun (t : Throttled) => t.bank == r.bankOf && t.row == r.row
  let m := if x.throttled.any mine then m.chargeHbm r.who 1 else m
  if n = 2048 then
    (m.setStack h { x with
      rows, hotev := bumpSat x.hotev
      throttled := x.throttled.filter (fun t => !mine t)
        ++ [{ bank := r.bankOf, row := r.row, windows := 2, last := m.cycle }]
      blocks := x.blocks.filter (fun b => b.bank != r.bankOf)
        ++ [{ bank := r.bankOf, upto := m.cycle + Config.rfmCycles, second := false }] }).chargeHbm
        r.who (64 * rfmCount r.row)
  else m.setStack h { x with
    rows, throttled := x.throttled.map fun t => if mine t then { t with last := m.cycle } else t }

/-- A request waits (R401): while its bank is blocked, while its row is throttled and was activated less than 16 × tRC
ago, and behind an earlier one of its row. -/
def Stack.mustWait (x : Stack) (cycle : Nat) (r : DramReq) : Bool :=
  x.blocks.any (fun b => b.bank == r.bankOf && decide (cycle < b.upto))
    || x.throttled.any (fun t => t.bank == r.bankOf && t.row == r.row && decide (cycle < t.last + 16 * Config.rowCycles))
    || x.held.any fun q => q.bankOf == r.bankOf && q.row == r.row

/-- HOT_ROW_WINDOW_END (R400): counts clear, and a row stays throttled to the end of the window that follows its
event's. -/
def execHotRowWindowEnd (h : Fin 12) (s : State) : Out :=
  let x := s.mach.stack h
  if s.pwr.st = .off then .next s
  else s.to (s.mach.setStack h { x with
    rows := x.rows.map fun r => { r with count := 0 }
    throttled := (x.throttled.map fun t => { t with windows := t.windows - 1 }).filter fun t => decide (0 < t.windows) })

/-! ## Error correction (R404) -/

/-- The line of module memory that a stack's line is (R397). -/
def hbmLine (h : Fin 12) (line : Nat) : Nat := h.val * 2 ^ 30 + line % 2 ^ 30

/-- What a read's check finds: a corrected line is rewritten and counted; an uncorrectable one is poisoned, and the
first is kept in STKERR. -/
def Mach.eccRead (m : Mach) (h : Fin 12) (line : Nat) (ecc : EccResult) : Mach :=
  let x := m.stack h
  match ecc with
  | .clean => m
  | .corrected => m.setStack h { x with cecnt := bumpSat x.cecnt }
  | .uncorrectable =>
    let l := hbmLine h line
    let m := m.setStack h (if x.ue then x else { x with ue := true, ueaddr := BitVec.ofNat 34 l })
    if m.poison.contains l then m else { m with poison := m.poison ++ [l] }

/-- PATROL_SCRUB (R404). -/
def execPatrolScrub (h : Fin 12) (line : Nat) (ecc : EccResult) (s : State) : Out :=
  s.to (if s.pwr.st.running then s.mach.eccRead h line ecc else s.mach)

/-! ## Requests and self-refresh (R399) -/

/-- A request is served. -/
def Mach.serveNow (m : Mach) (h : Fin 12) (r : DramReq) : Mach :=
  let m := m.activate h r
  if r.write then m else m.eccRead h r.line r.ecc

/-- A request is served, or held where it must wait. -/
def Mach.serve (m : Mach) (h : Fin 12) (r : DramReq) : Mach :=
  if (m.stack h).mustWait m.cycle r then m.setStack h { m.stack h with held := (m.stack h).held ++ [r] } else m.serveNow h r

/-- What a stack's banks do as a cycle passes (R401): a bank whose block ends is released, the requests held that need
wait no longer are served in order, and then the second pair of refresh-management commands blocks a bank that the first
has released. -/
def Mach.bankTick (m : Mach) (h : Fin 12) : Mach :=
  let x := m.stack h
  if x.blocks.isEmpty && x.held.isEmpty then m
  else
    let past := fun (b : BankBlock) => decide (b.upto ≤ m.cycle)
    let first := x.blocks.filter fun b => past b && !b.second
    let m := m.setStack h { x with blocks := x.blocks.filter fun b => !past b, held := [] }
    let m := x.held.foldl (fun m r => m.serve h r) m
    let y := m.stack h
    m.setStack h { y with blocks := y.blocks ++ (first.filter fun b => !y.blocks.any fun c => c.bank == b.bank).map fun b =>
      { b with upto := m.cycle + Config.rfmCycles, second := true } }

/-- The banks of every stack. -/
def Mach.bankTicks (m : Mach) : Mach := (List.finRange 12).foldl Mach.bankTick m

/-- DRAM_REQUEST (R399–R404). -/
def execDramRequest (h : Fin 12) (line bank row : Nat) (write : Bool) (who : Requester) (ecc : EccResult) (s : State) : Out :=
  let m := s.mach
  let r : DramReq := { line, bank, row, write, who, ecc }
  let pc : Fin 384 := Fin.ofNat 384 r.pc
  let x := m.stack h
  let c := x.chan pc.val
  if !s.pwr.st.running then s.to m
  else
    match c.st with
    | .active => s.to ((m.serve h r).restartIdle h pc)
    | .selfRefresh =>
      s.to ((m.setStack h (x.setChan pc.val { c with st := .exiting, held := [r] })).timer Config.exitCycles (.selfRefreshExit h pc))
    | .exiting => s.to (m.setStack h (x.setChan pc.val { c with held := c.held ++ [r] }))

/-- SELF_REFRESH_ENTRY (R399): once the timer has reached 4,096 controller cycles, and no request of the pseudo-channel
is held behind a hot row (notes/assumptions/130.md). -/
def execSelfRefreshEntry (h : Fin 12) (pc : Fin 384) (s : State) : Out :=
  let m := s.mach
  let x := m.stack h
  let c := x.chan pc.val
  if x.held.any fun r => r.pc == pc.val then s.to (m.restartIdle h pc)
  else if c.st = .active && decide (6 * 4096 ≤ 5 * (m.cycle - c.timer)) then
    s.to (m.setStack h (x.setChan pc.val { c with st := .selfRefresh, rate := x.codes.get (layerOf pc.val) }))
  else s.to m

/-- SELF_REFRESH_EXIT (R399): the device's rate is reprogrammed, and the held requests are served in order. -/
def execSelfRefreshExit (h : Fin 12) (pc : Fin 384) (s : State) : Out :=
  let m := s.mach
  let x := m.stack h
  let c := x.chan pc.val
  if c.st ≠ .exiting then s.to m
  else
    let m := m.setStack h (x.setChan pc.val { c with st := .active, held := [], rate := x.codes.get (layerOf pc.val) })
    s.to ((c.held.foldl (fun m r => m.serve h r) m).restartIdle h pc)

end Sys2Proof.Machine
end

