-- ==== Sys2Proof/Machine/Health.lean ====
section
/-! DEFINITION. Health of the cores: parity replays, the Lupin ageing monitor and retirement (R23, R419–R422). They act
while the compute dies run (R28, R29). -/

namespace Sys2Proof.Machine
open Sys2Proof

def Mach.setHealth (m : Mach) (c : CoreId) (x : Health) : Mach := { m with health := vset m.health c x }

/-- A core is taken out of service: its INSVC bit is cleared and its instance pre-empted. -/
def State.retireCore (s : State) (c : CoreId) : State :=
  { pwr := { s.pwr with insvc := s.pwr.insvc &&& ~~~(1#48 <<< c.val) }
    mach := if (s.mach.core c).resident then s.mach.post [.preemptionRequest c] else s.mach }

/-- HLTH_RETIRE (R422). -/
def execHlthRetire (c : CoreId) (s : State) : Out := .next (if s.pwr.st.running then s.retireCore c else s)

/-- PARITY_REPLAY (R419, R420): a replay that succeeds is counted; one that fails retires the core, and where the
failing path is the save path the image is lost and the launch fails with KILLED. -/
def execParityReplay (c : CoreId) (ok savePath : Bool) (s : State) : Out :=
  let m := s.mach
  let x := m.health.get c
  if !s.pwr.st.running then .next s
  else if ok then s.to (m.setHealth c { x with trans := bumpSat x.trans })
  else
    let s := State.retireCore { s with mach := m.setHealth c { x with lasting := true } } c
    if savePath && (m.core c).resident then s.to (s.mach.failLaunch (m.inst c).id.launch 7) else .next s

/-- LUPIN_SAMPLE (R422). -/
def execLupinSample (c : CoreId) (slack : Nat) (s : State) : Out :=
  let m := s.mach
  let x := m.health.get c
  if !s.pwr.st.running then .next s
  else s.to (m.setHealth c { x with least := some (match x.least with | some l => min l slack | none => slack) })

/-- The plan of a core over a period's least slack: its registers, and whether the core can no longer meet the
clock. -/
def Health.plan (x : Health) : Health × Bool :=
  match x.least with
  | none => (x, false)
  | some l =>
    let x := { x with slack := BitVec.ofNat 8 (min 255 l), least := none }
    if l < 12 then (if x.voff = 30 then ({ x with aged := true }, true) else ({ x with voff := x.voff + 1, above := 0 }, false))
    else if 30 < l then
      (if 15 ≤ x.above then { x with voff := x.voff - 1, above := 0 } else { x with above := x.above + 1 }, false)
    else ({ x with above := 0 }, false)

/-- LUPIN_PLAN (R422). -/
def execLupinPlan (c : CoreId) (s : State) : Out :=
  let (x, old) := (s.mach.health.get c).plan
  if !s.pwr.st.running then .next s
  else
  let s : State := { s with mach := s.mach.setHealth c x }
  .next (if old then s.retireCore c else s)

end Sys2Proof.Machine
end

