-- ==== Sys2Proof/Machine/VWords.lean ====
section
/-! DEFINITION. The meanings of the V words (R166–R184). -/

namespace Sys2Proof.Machine
open Sys2Proof

/-! ## Views, ports, loads and stores -/

/-- VVIEW (R151, R166): the entry is consumed even where the descriptor is rejected. -/
def execVview (y : Sync) (d : Fin 16) (s : State) : Out :=
  let word := Instr.vview y d
  s.vKeep y word fun c => do
    let e := (← popSq c 1).headD 0
    require (viewShapeOk e) .illegal (rejectedVal word 0)
    match viewBreach (viewD e) (← getInst c).id.tsFoot with
    | some o => trap .protection o
    | none => setInst c fun i => { i with v := { i.v with views := vset i.v.views d e } }

/-- VPSET (R158, R163, R166). TVAL of MISALIGNED for a negative STRIDE is the stride sign-extended to 64 bits (DESIGN
CHOICE, notes/assumptions/122.md). -/
def execVpset (y : Sync) (d : Fin 8) (s : State) : Out :=
  let word := Instr.vpset y d
  s.vKeep y word fun c => do
    let l ← popSq c 6
    let desc : Vector W64 6 := Vector.ofFn fun (k : Fin 6) => l.getD k.val 0
    let p := portD desc
    match portReserved desc with
    | some k => trap .illegal (rejectedVal word k)
    | none => pure ()
    require p.formatOk .format 0
    match p.misaligned with
    | some v => trap .misaligned (addr64 v)
    | none => pure ()
    let i ← getInst c
    let old := i.v.ports.get d
    match old.held with
    | some slot => setInst c fun i => i.releaseSlot (Fin.ofNat 16 (portD old.desc).base) slot
    | none => pure ()
    setPort c d fun _ => { isSet := true, desc }

/-- VLD (R167); res names the residency mask, 0 none. -/
def execVld (o : VMod) (d : Fin 16) (a res : Fin 8) (s : State) : Out :=
  let word := Instr.vld o d a res
  s.vRun o.sync word fun c => do
    let dv ← needView c word d
    needPort c word a false
    let (rows, _) ← popRows c (some (a, o.ra)) none dv.vr
    let m ← get
    let i := m.inst c
    let p := portD (i.v.ports.get a).desc
    let src := SrcVal.rows p.fmt p.rlen ((m.ctx i.id.ctx.val).book p.cslot) rows
    let elems := (i.selected o.mask dv.vr dv.vc).map fun (r, k) =>
      { r, c := k, x := (src.get r k).1, fl := (src.get r k).2 : Elem }
    vPut c dv o.zero i.arRounder elems
    if res ≠ 0 then
      let nr := maskOf fun r k =>
        decide (r < dv.vr) && decide (k < dv.vc) && decide (k < p.rlen)
          && (match (rows[r]?).bind (·[k]?) with | some e => e.flag | none => false)
      setInst c fun i => i.setMask res nr

/-- VST (R168). -/
def execVst (y : Sync) (mask : Fin 8) (d : Fin 8) (a : Fin 16) (s : State) : Out :=
  s.vKeep y (.vst y mask d a) fun c => vstWord c (.vst y mask d a) mask d a

/-- VMOV (R169). -/
def execVmov (o : VMod) (d : Fin 16) (a : Src) (s : State) : Out :=
  s.vRun o.sync (.vmov o d a) fun c => vElem c (.vmov o d a) o d a none (fn1 fun x => (x, 0))

/-- VCVT (R169): the word names the saturation. -/
def execVcvt (o : VMod) (sat : Bool) (d : Fin 16) (a : Src) (s : State) : Out :=
  s.vRun o.sync (.vcvt o sat d a) fun c =>
    vElem c (.vcvt o sat d a) o d a none (fn1 fun x => (x, 0)) fun i => vRounder i.s.mode sat

/-- VRND (R173). -/
def execVrnd (o : VMod) (d : Fin 16) (a : Src) (s : State) : Out :=
  s.vRun o.sync (.vrnd o d a) fun c =>
    vElem c (.vrnd o d a) o d a none (fn1 fun x => (x, 0)) fun i f x g =>
      roundIntegral x f i.s.mode i.s.arsat g

/-! ## Element arithmetic (R170–R172) -/

/-- VADD. -/
def execVadd (o : VMod) (d : Fin 16) (a b : Src) (s : State) : Out :=
  s.vRun o.sync (.vadd o d a b) fun c => vElem c (.vadd o d a b) o d a (some b) fun md x y _ => addNum x y md

/-- VSUB. -/
def execVsub (o : VMod) (d : Fin 16) (a b : Src) (s : State) : Out :=
  s.vRun o.sync (.vsub o d a b) fun c => vElem c (.vsub o d a b) o d a (some b) fun md x y _ => addNum x (negNum y) md

/-- VMUL. -/
def execVmul (o : VMod) (d : Fin 16) (a b : Src) (s : State) : Out :=
  s.vRun o.sync (.vmul o d a b) fun c => vElem c (.vmul o d a b) o d a (some b) fun _ x y _ => mulNum x y

/-- VFMA: the addend is d before the word. -/
def execVfma (o : VMod) (d : Fin 16) (a b : Src) (s : State) : Out :=
  s.vRun o.sync (.vfma o d a b) fun c => vElem c (.vfma o d a b) o d a (some b) fun md x y z => fmaNum x y z md

/-- VMIN. -/
def execVmin (o : VMod) (d : Fin 16) (a b : Src) (s : State) : Out :=
  s.vRun o.sync (.vmin o d a b) fun c => vElem c (.vmin o d a b) o d a (some b) fun _ x y _ => (minNum x y, 0)

/-- VMAX. -/
def execVmax (o : VMod) (d : Fin 16) (a b : Src) (s : State) : Out :=
  s.vRun o.sync (.vmax o d a b) fun c => vElem c (.vmax o d a b) o d a (some b) fun _ x y _ => (maxNum x y, 0)

/-- VABS. -/
def execVabs (o : VMod) (d : Fin 16) (a : Src) (s : State) : Out :=
  s.vRun o.sync (.vabs o d a) fun c => vElem c (.vabs o d a) o d a none (fn1 fun x => (absNum x, 0))

/-- VNEG. -/
def execVneg (o : VMod) (d : Fin 16) (a : Src) (s : State) : Out :=
  s.vRun o.sync (.vneg o d a) fun c => vElem c (.vneg o d a) o d a none (fn1 fun x => (negNum x, 0))

/-- VRCP. -/
def execVrcp (o : VMod) (d : Fin 16) (a : Src) (s : State) : Out :=
  s.vRun o.sync (.vrcp o d a) fun c => vElem c (.vrcp o d a) o d a none (fn1 rcpNum)

/-- VRSQ. -/
def execVrsq (o : VMod) (d : Fin 16) (a : Src) (s : State) : Out :=
  s.vRun o.sync (.vrsq o d a) fun c => vElem c (.vrsq o d a) o d a none (fn1 rsqrtNum)

/-- VSQRT. -/
def execVsqrt (o : VMod) (d : Fin 16) (a : Src) (s : State) : Out :=
  s.vRun o.sync (.vsqrt o d a) fun c => vElem c (.vsqrt o d a) o d a none (fn1 sqrtNum)

/-- VEXP2. -/
def execVexp2 (o : VMod) (d : Fin 16) (a : Src) (s : State) : Out :=
  s.vRun o.sync (.vexp2 o d a) fun c => vElem c (.vexp2 o d a) o d a none (fn1 exp2Num)

/-- VLOG2. -/
def execVlog2 (o : VMod) (d : Fin 16) (a : Src) (s : State) : Out :=
  s.vRun o.sync (.vlog2 o d a) fun c => vElem c (.vlog2 o d a) o d a none (fn1 log2Num)

/-- VTANH. -/
def execVtanh (o : VMod) (d : Fin 16) (a : Src) (s : State) : Out :=
  s.vRun o.sync (.vtanh o d a) fun c => vElem c (.vtanh o d a) o d a none (fn1 tanhNum)

/-! ## Comparison, selection and masks (R174–R178) -/

/-- The predicates of VCMP (R78, R174). -/
def cmpPred (p : VPred) (x y : XNum) : Bool :=
  match p with
  | .eq => eqNum x y
  | .lt => ltNum x y
  | .le => leNum x y
  | .ne => !eqNum x y

/-- VCMP (R174). -/
def execVcmp (y : Sync) (mask : Fin 8) (ra rb : Bool) (p : VPred) (k : Fin 8) (a b : Src) (s : State) : Out :=
  let word := Instr.vcmp y mask ra rb p k a b
  s.vRun y word fun c => do
    let av ← checkSrc c word a
    let bv ← checkSrc c word b
    let shape ← match av, bv with
      | some v, _ => pure v
      | none, some v => pure v
      | none, none => trap .illegal (rejectedVal word 0)
    let (xa, xb) ← readSrcs c a (some b) ra rb shape.vr
    let i ← getInst c
    let on := fun r k => decide (r < shape.vr) && decide (k < shape.vc) && i.v.maskBit mask r k
    let fl := (i.selected mask shape.vr shape.vc).foldl (fun f (r, k) => f ||| (xa.get r k).2 ||| (xb.get r k).2) 0
    raiseFlags c .V fl
    chargeVec c (i.selected mask shape.vr shape.vc).length
    setInst c fun i => i.setMask k (maskOf fun r k => on r k && cmpPred p (xa.get r k).1 (xb.get r k).1)

/-- VSEL (R175): every position of the iteration shape is written. -/
def execVsel (y : Sync) (mask : Fin 8) (ra rb : Bool) (d : Fin 16) (a b : Src) (s : State) : Out :=
  let word := Instr.vsel y mask ra rb d a b
  s.vRun y word fun c => do
    let dv ← needView c word d
    let _ ← checkSrc c word a
    let _ ← checkSrc c word b
    let (xa, xb) ← readSrcs c a (some b) ra rb dv.vr
    let i ← getInst c
    let elems := (positions dv.vr dv.vc).map fun (r, k) =>
      let (x, fl) := if i.v.maskBit mask r k then xa.get r k else xb.get r k
      { r, c := k, x, fl : Elem }
    vPut c dv false i.arRounder elems

/-- The operations of VMLOG (R176). -/
def maskOp (op : MaskOp) (x y : Bool) : Bool :=
  match op with
  | .and => x && y | .or => x || y | .xor => x != y | .andn => x && !y

/-- VMLOG (R176). -/
def execVmlog (y : Sync) (op : MaskOp) (k i j : Fin 8) (s : State) : Out :=
  s.vRun y (.vmlog y op k i j) fun c =>
    setInst c fun x => x.setMask k (maskOf fun r q => maskOp op (x.v.maskBit i r q) (x.v.maskBit j r q))

/-- VMSET (R177). -/
def execVmset (y : Sync) (pat : MaskPat) (k : Fin 8) (a : Fin 16) (s : State) : Out :=
  s.vRun y (.vmset y pat k a) fun c => do
    let v ← needView c (.vmset y pat k a) a
    setInst c fun i => i.setMask k (maskOf fun r q =>
      match pat with
      | .clr => false
      | .shape => decide (r < v.vr) && decide (q < v.vc)
      | .lower => decide (r < v.vr) && decide (q < v.vc) && decide (q ≤ r)
      | .upper => decide (r < v.vr) && decide (q < v.vc) && decide (r ≤ q))

/-- VMCNT (R178). -/
def execVmcnt (y : Sync) (i : Fin 8) (shape : Option (Fin 16)) (s : State) : Out :=
  let word := Instr.vmcnt y i shape
  s.vRun y word fun c => do
    let (ir, ic) ← match shape with
      | some b => do
        let v ← needView c word b
        pure (v.vr, v.vc)
      | none => pure (64, 64)
    pushF2 c ((← getInst c).selected i ir ic).length

/-! ## Reductions, scans, transposes and shuffles (R179–R183) -/

/-- VRED (R79, R179). -/
def execVred (o : VMod) (axis : Axis) (d : Fin 16) (a : Src) (s : State) : Out :=
  s.vRun o.sync (.vred o axis d a) fun c =>
    vLines c (.vred o axis d a) o axis d a fun i x dv ir ic k acc => redLine i o.mask x dv axis ir ic k acc

/-- VSCAN (R80, R180). -/
def execVscan (o : VMod) (axis : Axis) (d : Fin 16) (a : Src) (s : State) : Out :=
  s.vRun o.sync (.vscan o axis d a) fun c =>
    vLines c (.vscan o axis d a) o axis d a fun i x dv ir ic k acc => scanLine i o.mask x dv axis ir ic k acc

/-- VTRN (R181): a port pops one row for each column of d. -/
def execVtrn (o : VMod) (d : Fin 16) (a : Src) (s : State) : Out :=
  let word := Instr.vtrn o d a
  s.vRun o.sync word fun c => do
    let dv ← needView c word d
    let _ ← checkSrc c word a
    let (x, _) ← readSrcs c a none o.ra false dv.vc
    let i ← getInst c
    let elems := (i.selected o.mask dv.vr dv.vc).map fun (r, k) =>
      { r, c := k, x := (x.get k r).1, fl := (x.get k r).2 : Elem }
    vPut c dv o.zero i.arRounder elems

/-- The index that a value of b names: an integer 0–63 (R182). -/
def shuffleIndex (x : XNum) : Option Nat :=
  match x with
  | .fin neg m e _ =>
    if m = 0 then some 0
    else if neg then none
    else if 0 ≤ e then (if e < 6 && m * 2 ^ e.toNat < 64 then some (m * 2 ^ e.toNat) else none)
    else if m % 2 ^ (-e).toNat = 0 && m / 2 ^ (-e).toNat < 64 then some (m / 2 ^ (-e).toNat) else none
  | _ => none

/-- VSHF (R182). -/
def execVshf (o : VMod) (axis : Axis) (d : Fin 16) (a : Src) (b : Fin 16) (s : State) : Out :=
  let word := Instr.vshf o axis d a b
  s.vRun o.sync word fun c => do
    let dv ← needView c word d
    let _ ← checkSrc c word a
    let bv ← needView c word b
    require (!(axis == .cols && a.isPort)) .illegal (rejectedVal word 0)
    let (x, _) ← readSrcs c a none o.ra false dv.vr
    let i ← getInst c
    let idx := SrcVal.tile bv i.v
    let elems := (i.selected o.mask dv.vr dv.vc).map fun (r, k) =>
      match shuffleIndex (idx.get r k).1 with
      | some n =>
        let (v, fl) := match axis with | .rows => x.get r n | .cols => x.get n k
        { r, c := k, x := v, fl : Elem }
      | none => { r, c := k, x := .zero, fl := flagInvalid }
    vPut c dv o.zero i.arRounder elems

/-- The FP32 code of a view element widened exactly; a NaN is canonical. -/
def widenCode (x : XNum) : Nat := (roundCore x .fp32 .rne false 0 none).code

/-- VXS (R183): the entry is consumed even where it is rejected. -/
def execVxs (y : Sync) (a : Fin 16) (s : State) : Out :=
  let word := Instr.vxs y a
  s.vKeep y word fun c => do
    let v ← needView c word a
    let before ← get
    let e := ((← popSq c 1).headD 0).toNat
    require (decide (e < 2 ^ 12)) .illegal (rejectedVal word 0)
    let i ← getInst c
    let x := (SrcVal.tile v i.v).get (fld e 6 6) (fld e 0 6)
    tryCatch (pushF2 c (widenCode x.1)) fun st => do
      set before
      throw st

/-- VNOP (R184). -/
def execVnop (y : Sync) (s : State) : Out := s.vRun y (.vnop y) fun _ => pure ()

/-- VEND (R184). -/
def execVend (y : Sync) (s : State) : Out :=
  ({ s with mach := s.mach.vStart s.mach.cur (.vend y) } : State).endRun .V y (.vend y) fun _ => pure ()

end Sys2Proof.Machine
end

