-- ==== Sys2Proof/Machine/Debug.lean ====
section
/-! DEFINITION. The debug command block: stops and steps, state elements, watchpoints, trace and wait rings, and
attestation (R407–R418, R424). -/

namespace Sys2Proof.Machine
open Sys2Proof

/-! ## Commands -/

/-- The statuses that the debug block adds (Table 18.2). -/
def dbgAccBusy : Nat := 9
def dbgNotStopped : Nat := 10

/-- A debug command of a function ends with a status. -/
def Mach.dbgEnd (m : Mach) (f : FnId) (st : Nat) : Mach :=
  m.setFn f { m.fn f with dbgBusy := false, dbgStatus := BitVec.ofNat 7 st }

/-- Another function has a debug or context command in progress on the context. -/
def Mach.dbgTaken (m : Mach) (f : FnId) (ctx : CtxId) : Bool :=
  m.ctxTaken f ctx || (List.finRange 9).any fun g => g != f && (m.fn g).dbgBusy && (m.fn g).dbgCtx == ctx

/-- The instance that a function's debug block names, resident or saved. -/
def Mach.dbgInst (m : Mach) (f : FnId) : Option Inst :=
  let r := m.fn f
  let hit := fun (i : Inst) => i.id.ctx == r.dbgCtx && i.id.num == r.dbgInst.toNat && i.id.run == r.dbgRun.toNat
  match ((m.cores.toList.filter (·.resident)).map (·.inst)).find? hit with
  | some i => some i
  | none => (m.images.map (·.inst)).find? hit

/-- A command on an instance: conflicts and ownership first, then the instance, which an unstarted or completed one
is not (R407). `go` answers the module with the command under way or ended, or a status. -/
def State.dbgCmd (s : State) (f : FnId) (go : Mach → Inst → Except Nat Mach) : Out :=
  let m := s.mach
  let r := m.fn f
  let fail := fun (st : Nat) => s.to (m.dbgEnd f st)
  if m.dbgTaken f r.dbgCtx then fail ctxBusyCode
  else if !m.ctxOwned f r.dbgCtx then fail ctxNotOwned
  else
    match m.dbgInst f with
    | none => fail ctxBadState
    | some i => match go m i with | .ok m => s.to m | .error st => fail st

/-- A command on a whole context. -/
def State.dbgCtxCmd (s : State) (f : FnId) (go : Mach → Ctx → Except Nat Ctx) : Out :=
  let m := s.mach
  let r := m.fn f
  let x := m.ctx r.dbgCtx.val
  let fail := fun (st : Nat) => s.to (m.dbgEnd f st)
  if m.dbgTaken f r.dbgCtx then fail ctxBusyCode
  else if !m.ctxOwned f r.dbgCtx then fail ctxNotOwned
  else if x.st = .free || x.st = .dead then fail ctxBadState
  else match go m x with | .ok x => s.to ((m.setCtx r.dbgCtx.val x).dbgEnd f 0) | .error st => fail st

/-- The command stays in progress. -/
def Mach.dbgPending (m : Mach) (f : FnId) : Mach := m.setFn f { m.fn f with dbgBusy := true }

/-- The functions whose command in progress names an instance. -/
def Mach.dbgWaiters (m : Mach) (i : Inst) : List FnId :=
  (List.finRange 9).filter fun f => (m.fn f).dbgBusy && match m.dbgInst f with | some j => j.id.uid == i.id.uid | none => false

def Mach.dbgFinish (m : Mach) (i : Inst) (st : Nat) : Mach := (m.dbgWaiters i).foldl (fun m f => m.dbgEnd f st) m

/-- Change the debug state of an instance. -/
def Mach.modDbg (m : Mach) (uid : Nat) (f : Dbg → Dbg) : Mach := m.modUid uid fun i => { i with dbg := f i.dbg }

/-! ## Stops and steps (R409–R412) -/

/-- A stop lands on a core: what waits is abandoned, and the instance fetches nothing. -/
def Mach.landStop (m : Mach) (c : CoreId) : Mach :=
  let m := (m.abandonWaits c 3).endIdles c
  m.modDbg (m.inst c).id.uid fun d => { d with stopReq := false, stopped := true, stepping := none, ran := false }

/-- STOP (R409, R410, R412): at once for one that is saved or stopped, or in a step. -/
def execStop (f : FnId) (s : State) : Out :=
  s.dbgCmd f fun m i =>
    if (m.fn f).dbgArg ≠ 0 then .error ctxBadArg
    else
      match m.coreOf i.id.uid with
      | none => .ok ((m.modDbg i.id.uid fun d => { d with stopped := true, stepping := none, ran := false }).dbgEnd f 0)
      | some c =>
        if i.dbg.stopped then .ok ((m.landStop c).dbgEnd f 0)
        else
          let m := m.modUid i.id.uid fun i => { i with dbg := { i.dbg with stopReq := true }, s := { i.s with looped := false } }
          .ok (m.dbgPending f)

/-- STOP_LANDED (R409). -/
def execStopLanded (c : CoreId) (s : State) : Out :=
  s.to (s.mach.onResident c fun m =>
    if (m.inst c).dbg.stopReq then (m.landStop c).dbgFinish (m.inst c) 0 else m)

/-- GO (R409). -/
def execGo (f : FnId) (s : State) : Out :=
  s.dbgCmd f fun m i =>
    if (m.fn f).dbgArg ≠ 0 then .error ctxBadArg
    else if !i.dbg.stopped then .error dbgNotStopped
    else .ok ((m.modDbg i.id.uid fun d => { d with stopped := false, stepping := none, ran := false, settling := false }).dbgEnd f 0)

/-- The stream of a number. -/
def engOf (n : Nat) : Eng := match n % 4 with | 0 => .S | 1 => .V | 2 => .M | _ => .X

/-- STEP (R410). -/
def execStep (f : FnId) (s : State) : Out :=
  s.dbgCmd f fun m i =>
    let arg := (m.fn f).dbgArg.toNat
    if 4 ≤ arg then .error ctxBadArg
    else if !i.dbg.stopped then .error dbgNotStopped
    else
      let m := m.modUid i.id.uid fun i =>
        { i with dbg := { i.dbg with stepping := some (engOf arg), ran := false }, s := { i.s with looped := false } }
      .ok (m.dbgPending f)

/-- STEP_END (R410). -/
def execStepEnd (c : CoreId) (s : State) : Out :=
  s.to (s.mach.onResident c fun m =>
    let i := m.inst c
    if i.dbg.stepping.isNone then m
    else (m.modDbg i.id.uid fun d => { d with stepping := none, ran := false, stopped := true }).dbgFinish i 0)

/-- No commit is active or pending. -/
def Inst.noCommit (i : Inst) : Bool := i.m.active.isNone && i.m.pending.isNone

/-- SETTLE (R411). -/
def execSettle (f : FnId) (s : State) : Out :=
  s.dbgCmd f fun m i =>
    if (m.fn f).dbgArg ≠ 0 then .error ctxBadArg
    else if !i.dbg.stopped then .error dbgNotStopped
    else if i.noCommit then .ok (m.dbgEnd f 0)
    else .ok ((m.modDbg i.id.uid fun d => { d with settling := true }).dbgPending f)

/-- S has reached a stop point: no loop is active, the handler runs, or a loop-end event has come since the stop was
asked for; a word of S that waits is abandoned. -/
def Inst.atStop (i : Inst) : Bool := i.s.order.isEmpty || i.s.handler || i.s.looped || i.s.st.wait.isSome || i.s.st.ended

/-- The stepped stream's step is over: its word is done, for S up to its next stop point, or it trapped. -/
def Inst.stepOver (i : Inst) : Bool :=
  match i.dbg.stepping with
  | none => false
  | some .S => i.s.st.ended || i.faulted.isSome || (i.dbg.ran && (i.s.order.isEmpty || i.s.handler || i.s.looped))
  | some e => i.dbg.ran || (i.stream e).ended || i.faulted.isSome

/-- What debug commands in progress wait for, looked at between steps (R409–R412): stops that land, steps that end,
nests that have settled, and instances that have been saved or are no more. -/
def Mach.debugTick (m : Mach) : Mach :=
  (List.finRange 9).foldl (fun m f =>
    if !(m.fn f).dbgBusy then m
    else
      match m.dbgInst f with
      | none => m.dbgEnd f ctxBadState
      | some i =>
        let uid := i.id.uid
        let at' := m.coreOf uid
        if i.dbg.settling && (i.noCommit || i.m.fault.isSome || i.faulted.isSome) then
          (m.modDbg uid fun d => { d with settling := false }).dbgEnd f (if i.noCommit && i.faulted.isNone then 0 else ctxBadState)
        else if i.dbg.stopReq then
          match at' with
          | none => (m.modDbg uid fun d => { d with stopReq := false, stopped := true }).dbgEnd f 0
          | some c => if i.atStop && !m.agenda.contains (.stopLanded c) then m.post [.stopLanded c] else m
        else if i.stepOver then
          match at' with
          | none => (m.modDbg uid fun d => { d with stepping := none, ran := false, stopped := true }).dbgEnd f 0
          | some c => if m.agenda.contains (.stepEnd c) then m else m.post [.stepEnd c]
        else if i.dbg.stepping.isNone && !i.dbg.settling then m.dbgEnd f 0
        else m) m

/-! ## State elements (R408) -/

/-- The row of a mask. -/
def maskRow (b : BitVec 4096) (r : Nat) : Nat := b.toNat / 2 ^ (64 * r) % 2 ^ 64

/-- A mask with a row replaced. -/
def setMaskRow (b : BitVec 4096) (r v : Nat) : BitVec 4096 :=
  BitVec.ofNat 4096 (b.toNat - maskRow b r * 2 ^ (64 * r) + v % 2 ^ 64 * 2 ^ (64 * r))

/-- Which element of an instance a debug argument names, within its range. -/
def elementOk (i : Inst) (el ix : Nat) : Bool :=
  match el with
  | 0 => decide (ix < 32)
  | 1 => true
  | 2 => decide (ix < 16)
  | 3 => decide (ix < 64) && decide (ix % 8 < 6)
  | 4 => decide (64 ≤ ix) && decide (ix < 512)
  | 5 => ix % 8 == 0 && decide (ix < i.id.tsFoot)
  | 6 => decide (ix < 3 * 65536)
  | 7 => ix % 8 == 0 && decide (ix + 8 ≤ i.id.part)
  | 8 => decide (ix < 4)
  | _ => false

/-- The value of an element: an instance that is saved reads its CSRs as on the core that it left. -/
def Mach.readElement (m : Mach) (i : Inst) (el ix : Nat) : Option Nat :=
  match el with
  | 0 => some (i.s.regs.get (Fin.ofNat 32 ix)).toNat
  | 1 =>
    match m.coreOf i.id.uid, m.image i.id.uid with
    | some c, _ => (m.csrRead c ix).map (·.toNat)
    | none, some g => ((m.setInst g.core i).csrRead g.core ix).map (·.toNat)
    | none, none => none
  | 2 => some (i.v.views.get (Fin.ofNat 16 ix)).toNat
  | 3 => some ((i.v.ports.get (Fin.ofNat 8 (ix / 8))).desc.get (Fin.ofNat 6 (ix % 8))).toNat
  | 4 => some (maskRow (i.v.masks.get (Fin.ofNat 7 (ix / 64 - 1))) (ix % 64))
  | 5 => some (leNat (cellsRead i.v.tile ix 8))
  | 6 => some (cellGet i.m.acc ix).toNat
  | 7 => some (leNat (cellsRead i.pad.bytes ix 8))
  | _ => some (i.stream (engOf ix)).pc.toNat

/-- An instance with an element written; none where the value breaks the element's rules. -/
def Inst.writeElement (i : Inst) (el ix v : Nat) : Option Inst :=
  let w := BitVec.ofNat 64 v
  match el with
  | 0 => some (if ix = 0 then i else { i with s := { i.s with regs := vset i.s.regs (Fin.ofNat 32 ix) w } })
  | 1 =>
    if !csrWritable ix || !csrAccepts ix v then none
    else some (if ix = 0x001 then i.flagsPut .write v v else i.csrPut ix v)
  | 2 =>
    if viewShapeOk w && (viewBreach (viewD w) i.id.tsFoot).isNone then
      some { i with v := { i.v with views := vset i.v.views (Fin.ofNat 16 ix) w } }
    else none
  | 3 =>
    let k : Fin 8 := Fin.ofNat 8 (ix / 8)
    let p := i.v.ports.get k
    let desc := vset p.desc (Fin.ofNat 6 (ix % 8)) w
    let d := portD desc
    if p.isSet && ((portReserved desc).isSome || !d.formatOk || d.misaligned.isSome) then none
    else some { i with v := { i.v with ports := vset i.v.ports k { p with desc, latch := none } } }
  | 4 =>
    let k : Fin 7 := Fin.ofNat 7 (ix / 64 - 1)
    some { i with v := { i.v with masks := vset i.v.masks k (setMaskRow (i.v.masks.get k) (ix % 64) v) } }
  | 5 => some { i with v := { i.v with tile := cellsWrite i.v.tile ix (bytesOf 8 v) } }
  | 6 => if 2 ^ 32 ≤ v then none else some { i with m := { i.m with acc := cellSet i.m.acc ix (BitVec.ofNat 32 v) } }
  | 7 =>
    let dirty := if (i.pad.regionAt ix).isSome then cellsWrite i.pad.dirty ix (List.replicate 8 1) else i.pad.dirty
    some { i with pad := { i.pad with bytes := cellsWrite i.pad.bytes ix (bytesOf 8 v), dirty } }
  | _ =>
    if v % 4 ≠ 0 then none
    else some (i.modStream (engOf ix) fun st =>
      if st.pc = w then st else { st with pc := w, popped := false, pushing := none })

/-- The checks that RDSTATE and WRSTATE share: the element's number and index, or a status. -/
def Mach.element (m : Mach) (f : FnId) (i : Inst) : Except Nat (Nat × Nat) :=
  let arg := (m.fn f).dbgArg.toNat
  let el := arg % 256
  let ix := arg / 256
  if (m.coreOf i.id.uid).isSome && !i.dbg.stopped then .error dbgNotStopped
  else if !elementOk i el ix then .error ctxBadArg
  else if el = 6 && !i.noCommit then .error dbgAccBusy
  else .ok (el, ix)

/-- RDSTATE (R408). -/
def execRdstate (f : FnId) (s : State) : Out :=
  s.dbgCmd f fun m i =>
    match m.element f i with
    | .error st => .error st
    | .ok (el, ix) =>
      match m.readElement i el ix with
      | none => .error ctxBadArg
      | some v => .ok ((m.setFn f { m.fn f with dbgData := BitVec.ofNat 64 v }).dbgEnd f 0)

/-- WRSTATE (R408). -/
def execWrstate (f : FnId) (s : State) : Out :=
  s.dbgCmd f fun m i =>
    match m.element f i with
    | .error st => .error st
    | .ok (el, ix) =>
      match i.writeElement el ix (m.fn f).dbgData.toNat with
      | none => .error ctxBadArg
      | some j => .ok ((m.modUid i.id.uid fun _ => j).dbgEnd f 0)

/-! ## Watchpoints, rings and attachment (R414–R418) -/

/-- WATCH (R414). -/
def execWatch (f : FnId) (s : State) : Out :=
  s.dbgCmd f fun m i =>
    let base := (m.fn f).dbgArg.toNat
    let d := (m.fn f).dbgData.toNat
    let k := d % 64
    if 2 ^ 10 ≤ d || k < 3 || 40 < k || !isCanon base || base % 2 ^ k ≠ 0 then .error ctxBadArg
    else
      let w : Watch := { base, k, reads := d.testBit 6, writes := d.testBit 7, on := d.testBit 9 }
      .ok ((m.modDbg i.id.uid fun g => { g with watches := vset g.watches (if d.testBit 8 then 1 else 0) w }).dbgEnd f 0)

/-- The ring that a block's argument and data name; none where they break the table. -/
def Mach.ringOf (m : Mach) (f : FnId) : Option Ring :=
  let base := (m.fn f).dbgArg.toNat
  let d := (m.fn f).dbgData.toNat
  let size := d % 2 ^ 16
  let on := d.testBit 16
  if fld d 17 3 ≠ 0 then none
  else if on && (size = 0 || base % 4096 ≠ 0 || !isHbm base (4096 * size) || !m.inWindow f true base (4096 * size)) then none
  else some { base, size, on, threshold := fld d 20 28, byPf := f == 0 }

/-- TRCCFG (R416). -/
def execTrccfg (f : FnId) (s : State) : Out :=
  s.dbgCtxCmd f fun m x =>
    if 2 ^ 17 ≤ (m.fn f).dbgData.toNat then .error ctxBadArg
    else match m.ringOf f with | some r => .ok { x with trc := r } | none => .error ctxBadArg

/-- WLCFG (R417). -/
def execWlcfg (f : FnId) (s : State) : Out :=
  s.dbgCtxCmd f fun m x =>
    if 2 ^ 48 ≤ (m.fn f).dbgData.toNat then .error ctxBadArg
    else match m.ringOf f with | some r => .ok { x with wl := r } | none => .error ctxBadArg

/-- SATBY of the holder that a LOCK word names (R99): another core, another module, or another tenant unless the
physical function configured the ring. -/
def Mach.holderSatBy (m : Mach) (x : Ctx) (lock : Nat) : Nat :=
  let core := fld lock 1 6
  let pkg := fld lock 8 16
  let other := m.ctxs.any fun e => e.2.asid.toNat == fld lock 32 16 && e.2.st != .free && e.2.st != .dead && e.2.owner != x.owner
  if lock % 2 = 0 then 0
  else if other && !x.wl.byPf then 7
  else if pkg ≠ m.pkg.toNat then 6 + pkg * 2 ^ 16
  else 2 + core * 2 ^ 8 + pkg * 2 ^ 16

/-- SATBY of a wait in progress (R418). -/
def Mach.awaited (m : Mach) (c : CoreId) (w : Waiting) : Nat :=
  let n := m.ctxOf c
  match w.kind with
  | .sync obj =>
    match (if isCanon obj then m.walk n obj else none) with
    | some p => m.holderSatBy (m.ctx n) (m.word (m.pageKey p obj))
    | none => 0
  | k => satByEngine c k

/-- The wait records of a core's waits in progress. -/
def Mach.snapCore (m : Mach) (c : CoreId) : Mach :=
  [Eng.S, .V, .M, .X].foldl (fun m e =>
    match ((m.inst c).stream e).wait with
    | some w => if w.kind.logged then m.ringAppend (m.ctx (m.ctxOf c)).wl (Sys2Proof.Machine.waitRecord m c e w 4 (m.awaited c w)) else m
    | none => m) m

/-- WSNAP (R418). -/
def execWsnap (f : FnId) (s : State) : Out :=
  s.dbgCmd f fun m _ =>
    if (m.fn f).dbgArg ≠ 0 then .error ctxBadArg
    else .ok (((m.residentOf (m.fn f).dbgCtx.val).foldl Mach.snapCore m).dbgEnd f 0)

/-- ATTACH (R415). -/
def execAttach (f : FnId) (s : State) : Out :=
  s.dbgCtxCmd f fun m x =>
    let arg := (m.fn f).dbgArg.toNat
    if 2 ≤ arg then .error ctxBadArg else .ok { x with attached := arg == 1 }

/-! ## Attestation (R424) -/

/-- MOD_ID (Table 1.6). -/
def modId : Nat := 0x4812 + 4 * 2 ^ 32 + 12 * 2 ^ 40 + 12 * 2 ^ 48

/-- An attestation command ends with a status. -/
def Mach.attEnd (m : Mach) (f : FnId) (st : Nat) : Mach := m.setFn f { m.fn f with attStatus := BitVec.ofNat 7 st }

/-- The buffer of an attestation command: 1 KiB in the window, 64-byte aligned. -/
def Mach.attBuffer (m : Mach) (f : FnId) : Option Nat :=
  let a := (m.fn f).attArg.toNat
  if a % 64 = 0 && m.inWindow f (m.fn f).winSpace a 1024 then some (m.fnKey f a) else none

/-- The report but for its signature. -/
def reportBytes (p : Power) (f : FnId) (nonce : List Byte) : List Byte :=
  bytesOf 4 0x54415442 ++ bytesOf 4 f.val ++ bytesOf 56 0 ++ nonce ++ (p.meas.take 3).flatMap (fun d => bytesOf 64 d.toNat)
    ++ bytesOf 8 modId ++ bytesOf 8 p.insvc.toNat ++ bytesOf 176 0

/-- ATTEST (R424). -/
def execAttest (f : FnId) (s : State) : Out :=
  let m := s.mach
  match m.attBuffer f with
  | none => s.to (m.attEnd f ctxBadArg)
  | some k =>
    let sign := (List.range 512).map fun n => Config.freeSignatureByte (m.tick + n)
    let m := m.store k (reportBytes s.pwr f (m.bytes k 64) ++ sign)
    s.to (({ m with tick := m.tick + 512 } : Mach).attEnd f 0)

/-- GETCERT (R424). -/
def execGetcert (f : FnId) (s : State) : Out :=
  let m := s.mach
  match m.attBuffer f with
  | none => s.to (m.attEnd f ctxBadArg)
  | some k =>
    let n := (Config.freeCertificateLength m.tick).val
    let m := m.store k ((List.range n).map fun j => Config.freeCertificateByte (m.tick + j))
    s.to (({ m with tick := m.tick + 1024 } : Mach).attEnd f 0)

end Sys2Proof.Machine
end

