-- ==== Sys2Proof/Machine/Registers.lean ====
section
/-! DEFINITION. The registers of BAR0: what a host or firmware write does to each field, and what a host read gives
(R5, R9, R23, R250, R264, R268, R269, R307, R338, R354, R355, R359, R367, R405, R407, R421, R424). -/

namespace Sys2Proof.Machine
open Sys2Proof

/-- The rank of a privilege level. -/
def levelRank : Sys2Proof.Level → Nat | .u => 0 | .g => 1 | .h => 2 | .m => 3

/-- An access has at least a level (R9). -/
def hasLevel (l need : Sys2Proof.Level) : Bool := decide (levelRank need ≤ levelRank l)

/-- The registers that answer: none without power, and none while Locked (R28, R29). -/
def PowerState.answers : PowerState → Bool
  | .off => false | .locked => false | _ => true

/-! ## Command registers -/

/-- CTX_CMD (R250, R251): a write while BUSY, or of a command above the writer's level, has no effect. -/
def ctxCmdWrite (f : FnId) (lvl : Sys2Proof.Level) (v : Nat) (s : State) : Out :=
  let m := s.mach
  let op := v % 256
  let ctx : CtxId := Fin.ofNat 1024 (fld v 8 10)
  if (m.fn f).ctxBusy || ((op = 3 || op = 9) && !hasLevel lvl .h) then .next s
  else
    let m := m.setFn f { m.fn f with ctxCtx := ctx }
    let s : State := { s with mach := m }
    if 2 ^ 18 ≤ v then
      let m := if op = 3 then m.setFn f { m.fn f with key0 := 0, key1 := 0 } else m
      s.to (m.ctxEnd f ctxBadArg)
    else
      match op with
      | 1 => execBuild f ctx s
      | 2 => execCtxBind f ctx s
      | 3 => execKeyload f ctx s
      | 4 => execSuspend f ctx s
      | 5 => execCtxResume f ctx s
      | 6 => execSpill f ctx s
      | 7 => execIresume f ctx s
      | 8 => execIkill f ctx s
      | 9 => execMigrate f ctx s
      | 10 => execTeardown f ctx s
      | 11 => execRelease f ctx s
      | _ => s.to (m.ctxEnd f ctxBadArg)

/-- PG_CMD (R338). -/
def pgCmdWrite (f : FnId) (lvl : Sys2Proof.Level) (v : Nat) (s : State) : Out :=
  let m := s.mach
  let op := v % 256
  let ctx : CtxId := Fin.ofNat 1024 (fld v 8 10)
  if (m.fn f).pgBusy || (op = 3 && !hasLevel lvl .h) then .next s
  else if 2 ^ 18 ≤ v then s.to (m.pgEnd f ctxBadArg)
  else
    match op with
    | 1 => execInval f ctx s
    | 2 => execPcomplete f ctx s
    | 3 => execPgRetire f s
    | _ => s.to (m.pgEnd f ctxBadArg)

/-- A write of the debug command register is a STOP of the instance that the command in progress steps (R410). -/
def stopsStep (m : Mach) (f : FnId) (v : Nat) : Bool :=
  let r := m.fn f
  v % 256 == 1 && v / 2 ^ 8 == r.dbgCtx.val + 2 ^ 10 * r.dbgInst.toNat + 2 ^ 26 * r.dbgRun.toNat && r.dbgArg == 0
    && match m.dbgInst f with | some i => i.dbg.stepping.isSome | none => false

/-- The debug command register (R251, R407): a write while BUSY has no effect, but a STOP may be written during a STEP
(R410). -/
def dbgCmdWrite (f : FnId) (v : Nat) (s : State) : Out :=
  let m := s.mach
  let op := v % 256
  if (m.fn f).dbgBusy && !stopsStep m f v then .next s
  else
    let m := m.setFn f { m.fn f with
      dbgCtx := Fin.ofNat 1024 (fld v 8 10), dbgInst := BitVec.ofNat 16 (fld v 18 16), dbgRun := BitVec.ofNat 2 (fld v 34 2) }
    let s : State := { s with mach := m }
    if 2 ^ 36 ≤ v then s.to (m.dbgEnd f ctxBadArg)
    else
      match op with
      | 1 => execStop f s
      | 2 => execGo f s
      | 3 => execStep f s
      | 4 => execSettle f s
      | 5 => execRdstate f s
      | 6 => execWrstate f s
      | 7 => execWatch f s
      | 8 => execTrccfg f s
      | 9 => execWlcfg f s
      | 10 => execWsnap f s
      | 11 => execAttach f s
      | _ => s.to (m.dbgEnd f ctxBadArg)

/-- The attestation command (R424). -/
def attWrite (f : FnId) (v : Nat) (s : State) : Out :=
  match v with
  | 1 => execAttest f s
  | 2 => execGetcert f s
  | _ => s.to (s.mach.attEnd f ctxBadArg)

/-- The switch command (R367). -/
def swWrite (v : Nat) (s : State) : Out :=
  let m := s.mach
  if m.swRegs.busy then .next s
  else
    let m : Mach := { m with swRegs := { m.swRegs with sw := BitVec.ofNat 8 (fld v 8 8), slot := BitVec.ofNat 12 (fld v 16 12) } }
    let s : State := { s with mach := m }
    match v % 256 with
    | 1 => execReserve s
    | 2 => execFree s
    | _ => s.to (m.swEnd 7)

/-! ## Queue registers (R269) -/

/-- A value clamped into a range. -/
def clampNat (lo hi v : Nat) : Nat := max lo (min hi v)

/-- A queue register: BASE, LOG2N, HOME, CBASE and LOG2M only in Unconfigured and Quiesced. -/
def queueWrite (f : FnId) (q : QId) (o v : Nat) (s : State) : Out :=
  let m := s.mach
  let x := m.queue f q.val
  let free := x.st = .unconfigured || x.st = .quiesced
  match o with
  | 0x00 => s.to (if free then m.setQueue f q.val { x with base := v / 64 * 64 } else m)
  | 0x08 =>
    s.to (if free then m.setQueue f q.val { x with log2n := clampNat 4 16 (v % 32), home := Fin.ofNat 4 (fld v 8 2) } else m)
  | 0x10 => s.to (if free then m.setQueue f q.val { x with cbase := v / 64 * 64 } else m)
  | 0x18 =>
    let x := if free then { x with log2m := clampNat 4 16 (v % 32) } else x
    s.to ((m.setQueue f q.val { x with chead := BitVec.ofNat 32 (v / 2 ^ 32) }).post [.completionEntryPost f q])
  | 0x20 => execWidxWrite f q (BitVec.ofNat 64 v) s
  | 0x38 =>
    match v % 4 with
    | 1 => execArm f q s
    | 2 => execQuiesce f q s
    | 3 => execQueueReset f q s
    | _ => .next s
  | _ => .next s

/-! ## The context window (R264) -/

/-- The context that the window of a function shows, if it reaches it. -/
def Mach.windowCtx (m : Mach) (f : FnId) : Option Nat :=
  let n := (m.fn f).ctxCtx.val
  let x := m.ctx n
  if x.st = .free || (f ≠ 0 && x.owner ≠ f) then none else some n

/-- A privileged CSR is written: E_BUDGET at H and the coefficients at M. -/
def windowWrite (f : FnId) (lvl : Sys2Proof.Level) (csr v : Nat) (s : State) : Out :=
  let m := s.mach
  match m.windowCtx f with
  | none => .next s
  | some n =>
    if csr = 0x200 && hasLevel lvl .h then s.to (m.modCtx n fun x => { x with eBudget := BitVec.ofNat 32 v })
    else if 0x300 ≤ csr && csr ≤ 0x304 && hasLevel lvl .m then
      s.to { m with coefs := vset m.coefs (Fin.ofNat 5 (csr - 0x300)) (BitVec.ofNat 32 v) }
    else .next s

/-! ## Registers of the physical function -/

/-- A link's OP field (Table 15.3). -/
def linkWrite (l : LinkId) (v : Nat) (s : State) : Out :=
  match fld v 56 2 with
  | 1 => execLinkDown l s
  | 2 => execRetrain l s
  | _ => .next s

/-- The registers at level H of the physical function. -/
def hyperWrite (off v : Nat) (s : State) : Out :=
  let m := s.mach
  if off = 0x0018 then
    .next { s with pwr := { s.pwr with limit := BitVec.ofNat 12 (clampNat 600 2400 (v % 2 ^ 12)) } }
  else if 0x0200 ≤ off && off < 0x0290 then
    let f : FnId := Fin.ofNat 9 ((off - 0x0200) / 16)
    let r := m.fn f
    s.to (m.setFn f (if off % 16 = 0 then { r with winBase := BitVec.ofNat 48 (v / 2 ^ 16) }
      else { r with winSize := BitVec.ofNat 32 v, winSpace := v.testBit 32 }))
  else if 0x0300 ≤ off && off < 0x0348 then
    let f : FnId := Fin.ofNat 9 ((off - 0x0300) / 8)
    let r := m.fn f
    s.to (m.setFn f { r with qfault := r.qfault &&& ~~~(BitVec.ofNat 8 v) })
  else if 0x0400 ≤ off && off < 0x0420 then
    let d : DieId := Fin.ofNat 4 ((off - 0x0400) / 8)
    s.to (m.setDie d { m.die d with waitSwap := BitVec.ofNat 32 (max 4096 (v % 2 ^ 32)) })
  else if off = 0x0600 then
    s.to (if m.gw.all fun l => l.st == .down || l.st == .failed then { m with pkg := BitVec.ofNat 16 v } else m)
  else if off = 0x0640 then swWrite v s
  else if off = 0x0648 then s.to { m with swRegs := { m.swRegs with w1 := BitVec.ofNat 64 v } }
  else if off = 0x0650 then s.to { m with swRegs := { m.swRegs with w2 := BitVec.ofNat 64 v } }
  else if 0x0680 ≤ off && off < 0x0700 then linkWrite (.gw (Fin.ofNat 16 ((off - 0x0680) / 8))) v s
  else if 0x0700 ≤ off && off < 0x0750 then linkWrite (.ucie (Fin.ofNat 10 ((off - 0x0700) / 8))) v s
  else if 0x0900 ≤ off && off < 0x0A80 then
    if fld v 62 2 = 1 then execHlthRetire (Fin.ofNat 48 ((off - 0x0900) / 8)) s else .next s
  else if 0x4000 ≤ off && off < 0x6000 then
    s.to (m.modCtx ((off - 0x4000) / 8) fun x => { x with ftag := BitVec.ofNat 32 v })
  else .next s

/-- The registers at level G of the physical function alone: the W1C bits of PWR_STATE and STKERR. -/
def physWrite (off v : Nat) (s : State) : Out :=
  if off = 0x0010 then
    .next { s with pwr := { s.pwr with haltTh := s.pwr.haltTh && !v.testBit 8, haltPw := s.pwr.haltPw && !v.testBit 9 } }
  else if 0x0880 ≤ off && off < 0x08E0 then
    let h : Fin 12 := Fin.ofNat 12 ((off - 0x0880) / 8)
    let x := s.mach.stack h
    s.to (s.mach.setStack h { x with ue := x.ue && !v.testBit 63 })
  else .next s

/-- REGISTER_WRITE (R5, R9): a 64-bit write at an offset of a function's BAR0. Read-only fields and reserved
fields take no effect, and so do offsets that hold no register. -/
def execRegisterWrite (f : FnId) (lvl : Sys2Proof.Level) (off : Nat) (v : W64) (s : State) : Out :=
  let m := s.mach
  let r := m.fn f
  let n := v.toNat
  if !s.pwr.st.answers || off % 8 ≠ 0 || !hasLevel lvl .g then .next s
  else if off = 0x0100 then ctxCmdWrite f lvl n s
  else if off = 0x0108 then s.to (m.setFn f { r with ctxArg := v })
  else if off = 0x0118 then s.to (if hasLevel lvl .h then m.setFn f { r with key0 := v } else m)
  else if off = 0x0120 then s.to (if hasLevel lvl .h then m.setFn f { r with key1 := v } else m)
  else if off = 0x0140 then pgCmdWrite f lvl n s
  else if off = 0x0148 then s.to (m.setFn f { r with pgArg0 := v })
  else if off = 0x0150 then s.to (m.setFn f { r with pgArg1 := v })
  else if off = 0x0180 then dbgCmdWrite f n s
  else if off = 0x0188 then s.to (m.setFn f { r with dbgArg := v })
  else if off = 0x0190 then s.to (m.setFn f { r with dbgData := v })
  else if off = 0x0B00 then attWrite f n s
  else if off = 0x0B08 then s.to (m.setFn f { r with attArg := v })
  else if 0x1000 ≤ off && off < 0x2800 then windowWrite f lvl ((off - 0x1000) / 8 + 0x100) n s
  else if 0x3000 ≤ off && off < 0x3200 then queueWrite f (Fin.ofNat 8 ((off - 0x3000) / 64)) (off % 64) n s
  else if f ≠ 0 then .next s
  else if off = 0x0010 || (0x0880 ≤ off && off < 0x08E0) then physWrite off n s
  else if hasLevel lvl .h then hyperWrite off n s
  else .next s

/-! ## Reads -/

/-- A BUSY bit with its STATUS. -/
def busyWord (busy : Bool) (st : BitVec 7) : Nat := (if busy then 1 else 0) + 2 * st.toNat

/-- The codes of the state fields. -/
def PowerState.code : PowerState → Nat | .off => 0 | .booting => 1 | .locked => 2 | .active => 3 | .halted => 4
def LinkState.code : LinkState → Nat | .down => 0 | .training => 1 | .up => 2 | .degraded => 3 | .retrying => 4 | .failed => 5
def QState.code : QState → Nat
  | .unconfigured => 0 | .armed => 1 | .running => 2 | .stalled => 3 | .faulted => 4 | .quiesced => 5 | .quiescing => 6
def CtxState.code : CtxState → Nat
  | .free => 0 | .built => 1 | .bound => 2 | .ready => 3 | .running => 4 | .swapped => 5 | .spilled => 6 | .waiting => 7
  | .migrating => 8 | .tearingDown => 9 | .dead => 10

/-- PWR_STATE (Table 1.8). -/
def Power.stateWord (p : Power) : Nat :=
  p.st.code + p.modthr.val * 2 ^ 3 + (p.dieThr.foldl (fun a t => max a t.val) 0) * 2 ^ 5 + (if p.haltTh then 2 ^ 8 else 0)
    + (if p.haltPw then 2 ^ 9 else 0) + p.pin.toNat * 2 ^ 16

/-- A link register (Table 15.3). -/
def Link.word (x : Link) : Nat :=
  x.st.code + x.partner.toNat * 2 ^ 4 + x.pport.toNat * 2 ^ 12 + x.retries.toNat * 2 ^ 32 + x.trains.toNat * 2 ^ 48

/-- STKh (Table 17.2). -/
def Stack.word (x : Stack) : Nat :=
  let tmax := x.temps.foldl max 0
  let layer := ((List.finRange 16).find? fun l => x.temps.get l == tmax).getD 0
  ((List.finRange 16).map fun l => (x.codes.get l).val * 4 ^ l.val).sum + tmax % 256 * 2 ^ 32 + layer.val * 2 ^ 40
    + x.hotev.toNat * 2 ^ 56

/-- STKERRh (Table 17.3). -/
def Stack.errWord (x : Stack) : Nat := x.cecnt.toNat + x.ueaddr.toNat * 2 ^ 17 + (if x.ue then 2 ^ 63 else 0)

/-- HLTH of a core (Table 18.8). -/
def Health.word (x : Health) : Nat :=
  x.trans.toNat + x.cecnt.toNat * 2 ^ 16 + (if x.lasting then 2 ^ 32 else 0) + (if x.aged then 2 ^ 33 else 0)
    + x.voff * 2 ^ 34 + x.slack.toNat * 2 ^ 39

/-- A queue register (Table 10.2). -/
def Queue.word (x : Queue) (o : Nat) : Nat :=
  match o with
  | 0x00 => x.base
  | 0x08 => x.log2n + x.home.val * 2 ^ 8
  | 0x10 => x.cbase
  | 0x18 => x.log2m + x.chead.toNat * 2 ^ 32
  | 0x20 => x.widx % 2 ^ 32
  | 0x28 => x.ridx % 2 ^ 32 + x.ctail.toNat * 2 ^ 32
  | 0x30 => x.st.code + x.fcode * 2 ^ 8
  | _ => 0

/-- A privileged CSR read through the window (Tables 9.8 and 9.9). -/
def Mach.windowRead (m : Mach) (f : FnId) (lvl : Sys2Proof.Level) (csr : Nat) : Nat :=
  match m.windowCtx f with
  | none => 0
  | some n =>
    let x := m.ctx n
    match csr with
    | 0x100 => x.st.code + (m.residentOf n).length * 2 ^ 8
        + ((m.imagesOf n).filter fun g => g.inst.faulted.isSome).length * 2 ^ 16 + (if x.key.isSome then 2 ^ 32 else 0)
    | 0x101 => x.asid.toNat
    | 0x102 => m.savedKib n + m.spiltKib n * 2 ^ 20
    | 0x108 => x.eUsed.toNat + x.thr.val * 2 ^ 32
    | 0x109 => x.eTotal.toNat
    | 0x200 => if hasLevel lvl .h then x.eBudget.toNat else 0
    | _ => if 0x300 ≤ csr && csr ≤ 0x304 && hasLevel lvl .h then (m.coefs.get (Fin.ofNat 5 (csr - 0x300))).toNat else 0

/-- What a host read at an offset of a function's BAR0 gives (R5, R9): zero below the level, in write-only and
reserved fields, and where there is no register. A read has no effect on the module. -/
def State.hostRead (s : State) (f : FnId) (lvl : Sys2Proof.Level) (off : Nat) : W64 :=
  let m := s.mach
  let r := m.fn f
  BitVec.ofNat 64 <|
    if !s.pwr.st.answers || off % 8 ≠ 0 || !hasLevel lvl .g then 0
    else if off = 0x0000 then modId
    else if off = 0x0008 then s.pwr.insvc.toNat
    else if off = 0x0108 then r.ctxArg.toNat
    else if off = 0x0110 then busyWord r.ctxBusy r.ctxStatus
    else if off = 0x0148 then r.pgArg0.toNat
    else if off = 0x0150 then r.pgArg1.toNat
    else if off = 0x0158 then busyWord r.pgBusy r.pgStatus
    else if off = 0x0188 then r.dbgArg.toNat
    else if off = 0x0190 then r.dbgData.toNat
    else if off = 0x0198 then busyWord r.dbgBusy r.dbgStatus
    else if off = 0x0B08 then r.attArg.toNat
    else if off = 0x0B10 then busyWord false r.attStatus
    else if 0x1000 ≤ off && off < 0x2800 then m.windowRead f lvl ((off - 0x1000) / 8 + 0x100)
    else if 0x3000 ≤ off && off < 0x3200 then (m.queue f ((off - 0x3000) / 64)).word (off % 64)
    else if f ≠ 0 then 0
    else if off = 0x0010 then s.pwr.stateWord
    else if 0x0680 ≤ off && off < 0x0700 then (m.gw.get (Fin.ofNat 16 ((off - 0x0680) / 8))).word
    else if 0x0700 ≤ off && off < 0x0750 then (m.ucie.get (Fin.ofNat 10 ((off - 0x0700) / 8))).word
    else if 0x0800 ≤ off && off < 0x0860 then (m.stack (Fin.ofNat 12 ((off - 0x0800) / 8))).word
    else if 0x0880 ≤ off && off < 0x08E0 then (m.stack (Fin.ofNat 12 ((off - 0x0880) / 8))).errWord
    else if 0x0900 ≤ off && off < 0x0A80 then (m.health.get (Fin.ofNat 48 ((off - 0x0900) / 8))).word
    else if !hasLevel lvl .h then 0
    else if off = 0x0018 then s.pwr.limit.toNat
    else if 0x0200 ≤ off && off < 0x0290 then
      let g := m.fn (Fin.ofNat 9 ((off - 0x0200) / 16))
      if off % 16 = 0 then g.winBase.toNat * 2 ^ 16 else g.winSize.toNat + (if g.winSpace then 2 ^ 32 else 0)
    else if 0x0300 ≤ off && off < 0x0348 then (m.fn (Fin.ofNat 9 ((off - 0x0300) / 8))).qfault.toNat
    else if 0x0400 ≤ off && off < 0x0420 then (m.die (Fin.ofNat 4 ((off - 0x0400) / 8))).waitSwap.toNat
    else if off = 0x0600 then m.pkg.toNat
    else if off = 0x0648 then m.swRegs.w1.toNat
    else if off = 0x0650 then m.swRegs.w2.toNat
    else if off = 0x0658 then busyWord m.swRegs.busy m.swRegs.status
    else if 0x4000 ≤ off && off < 0x6000 then (m.ctx ((off - 0x4000) / 8)).ftag.toNat
    else 0

end Sys2Proof.Machine
end

