-- ==== Sys2Proof/Machine/SInt.lean ====
section
/-! DEFINITION. The integer and immediate words of S (R126–R128). None traps or touches FLAGS. -/

namespace Sys2Proof.Machine
open Sys2Proof

/-- 1 or 0. -/
def ofBool (b : Bool) : W64 := if b then 1 else 0

/-- Bits [127:64] of the signed product. -/
def mulHigh (a b : W64) : W64 := BitVec.ofInt 64 (a.toInt * b.toInt / 2 ^ 64)
/-- Bits [127:64] of the unsigned product. -/
def mulHighU (a b : W64) : W64 := BitVec.ofNat 64 (a.toNat * b.toNat / 2 ^ 64)
/-- The signed quotient truncated toward zero; −1 by zero; −2^63 ÷ −1 wraps to −2^63. -/
def divS (a b : W64) : W64 := if b = 0 then -1 else BitVec.ofInt 64 (a.toInt.tdiv b.toInt)
/-- The unsigned quotient; 2^64 − 1 by zero. -/
def divU (a b : W64) : W64 := if b = 0 then -1 else BitVec.ofNat 64 (a.toNat / b.toNat)
/-- The signed remainder with the sign of a; a by zero. -/
def remS (a b : W64) : W64 := if b = 0 then a else BitVec.ofInt 64 (a.toInt.tmod b.toInt)
/-- The unsigned remainder; a by zero. -/
def remU (a b : W64) : W64 := if b = 0 then a else BitVec.ofNat 64 (a.toNat % b.toNat)

/-- The number of leading zero bits, 0–64. -/
def countLeadingZeros (a : W64) : W64 := if a = 0 then 64 else BitVec.ofNat 64 (63 - ilog2 a.toNat)
/-- The number of one bits, 0–64. -/
def popCount (a : W64) : W64 := BitVec.ofNat 64 ((List.range 64).filter fun k => a.getLsbD k).length

/-- The position and the bits that exist of the field that BFX and BFI take from s[b]. -/
def fieldOf (b : W64) : Nat × Nat :=
  let pos := fld b.toNat 0 6
  (pos, min (fld b.toNat 8 7) (64 - pos))

/-- BFX (R126). -/
def bitExtract (a b : W64) : W64 :=
  let (pos, we) := fieldOf b
  let v := (a.toNat / 2 ^ pos) % 2 ^ we
  if we = 0 then 0
  else if b.getLsbD 15 && v.testBit (we - 1) then BitVec.ofInt 64 ((v : Int) - 2 ^ we)
  else BitVec.ofNat 64 v

/-- BFI (R126): the other bits of the old value stay. -/
def bitInsert (old a b : W64) : W64 :=
  let (pos, we) := fieldOf b
  let mask := BitVec.ofNat 64 ((2 ^ we - 1) * 2 ^ pos)
  (old &&& ~~~mask) ||| ((a <<< pos) &&& mask)

/-- ADD (R126). -/
def execAdd (d a b : Reg) (s : State) : Out :=
  let q := s.seq
  s.sReg d (q.get a + q.get b)

/-- SUB (R126). -/
def execSub (d a b : Reg) (s : State) : Out :=
  let q := s.seq
  s.sReg d (q.get a - q.get b)

/-- MUL (R126). -/
def execMul (d a b : Reg) (s : State) : Out :=
  let q := s.seq
  s.sReg d (q.get a * q.get b)

/-- MULH (R126). -/
def execMulh (d a b : Reg) (s : State) : Out :=
  let q := s.seq
  s.sReg d (mulHigh (q.get a) (q.get b))

/-- MULHU (R126). -/
def execMulhu (d a b : Reg) (s : State) : Out :=
  let q := s.seq
  s.sReg d (mulHighU (q.get a) (q.get b))

/-- DIV (R126). -/
def execDiv (d a b : Reg) (s : State) : Out :=
  let q := s.seq
  s.sReg d (divS (q.get a) (q.get b))

/-- DIVU (R126). -/
def execDivu (d a b : Reg) (s : State) : Out :=
  let q := s.seq
  s.sReg d (divU (q.get a) (q.get b))

/-- REM (R126). -/
def execRem (d a b : Reg) (s : State) : Out :=
  let q := s.seq
  s.sReg d (remS (q.get a) (q.get b))

/-- REMU (R126). -/
def execRemu (d a b : Reg) (s : State) : Out :=
  let q := s.seq
  s.sReg d (remU (q.get a) (q.get b))

/-- AND (R126). -/
def execAnd (d a b : Reg) (s : State) : Out :=
  let q := s.seq
  s.sReg d (q.get a &&& q.get b)

/-- OR (R126). -/
def execOr (d a b : Reg) (s : State) : Out :=
  let q := s.seq
  s.sReg d (q.get a ||| q.get b)

/-- XOR (R126). -/
def execXor (d a b : Reg) (s : State) : Out :=
  let q := s.seq
  s.sReg d (q.get a ^^^ q.get b)

/-- SHL (R126). -/
def execShl (d a b : Reg) (s : State) : Out :=
  let q := s.seq
  s.sReg d (q.get a <<< ((q.get b).toNat % 64))

/-- SHR (R126). -/
def execShr (d a b : Reg) (s : State) : Out :=
  let q := s.seq
  s.sReg d (q.get a >>> ((q.get b).toNat % 64))

/-- SRA (R126). -/
def execSra (d a b : Reg) (s : State) : Out :=
  let q := s.seq
  s.sReg d ((q.get a).sshiftRight ((q.get b).toNat % 64))

/-- SLT (R126). -/
def execSlt (d a b : Reg) (s : State) : Out :=
  let q := s.seq
  s.sReg d (ofBool ((q.get a).slt (q.get b)))

/-- SLTU (R126). -/
def execSltu (d a b : Reg) (s : State) : Out :=
  let q := s.seq
  s.sReg d (ofBool ((q.get a).ult (q.get b)))

/-- MIN (R126). -/
def execMin (d a b : Reg) (s : State) : Out :=
  let q := s.seq
  s.sReg d (if (q.get b).slt (q.get a) then q.get b else q.get a)

/-- MAX (R126). -/
def execMax (d a b : Reg) (s : State) : Out :=
  let q := s.seq
  s.sReg d (if (q.get a).slt (q.get b) then q.get b else q.get a)

/-- MINU (R126). -/
def execMinu (d a b : Reg) (s : State) : Out :=
  let q := s.seq
  s.sReg d (if (q.get b).ult (q.get a) then q.get b else q.get a)

/-- MAXU (R126). -/
def execMaxu (d a b : Reg) (s : State) : Out :=
  let q := s.seq
  s.sReg d (if (q.get a).ult (q.get b) then q.get b else q.get a)

/-- CLZ (R126). -/
def execClz (d a : Reg) (s : State) : Out := s.sReg d (countLeadingZeros (s.seq.get a))

/-- POPC (R126). -/
def execPopc (d a : Reg) (s : State) : Out := s.sReg d (popCount (s.seq.get a))

/-- BFX (R126). -/
def execBfx (d a b : Reg) (s : State) : Out := s.sReg d (bitExtract (s.seq.get a) (s.seq.get b))

/-- BFI (R126): it reads s[d]. -/
def execBfi (d a b : Reg) (s : State) : Out :=
  s.sReg d (bitInsert (s.seq.get d) (s.seq.get a) (s.seq.get b))

/-- ADDI (R127). -/
def execAddi (d a : Reg) (imm : BitVec 15) (s : State) : Out := s.sReg d (s.seq.get a + sextTo64 imm)

/-- ANDI (R127). -/
def execAndi (d a : Reg) (imm : BitVec 15) (s : State) : Out := s.sReg d (s.seq.get a &&& sextTo64 imm)

/-- ORI (R127). -/
def execOri (d a : Reg) (imm : BitVec 15) (s : State) : Out := s.sReg d (s.seq.get a ||| sextTo64 imm)

/-- XORI (R127). -/
def execXori (d a : Reg) (imm : BitVec 15) (s : State) : Out := s.sReg d (s.seq.get a ^^^ sextTo64 imm)

/-- SHLI (R127). -/
def execShli (d a : Reg) (sh : BitVec 6) (s : State) : Out := s.sReg d (s.seq.get a <<< sh.toNat)

/-- SHRI (R127). -/
def execShri (d a : Reg) (sh : BitVec 6) (s : State) : Out := s.sReg d (s.seq.get a >>> sh.toNat)

/-- SRAI (R127). -/
def execSrai (d a : Reg) (sh : BitVec 6) (s : State) : Out := s.sReg d ((s.seq.get a).sshiftRight sh.toNat)

/-- SLTI (R127). -/
def execSlti (d a : Reg) (imm : BitVec 15) (s : State) : Out := s.sReg d (ofBool ((s.seq.get a).slt (sextTo64 imm)))

/-- SLTUI (R127). -/
def execSltui (d a : Reg) (imm : BitVec 15) (s : State) : Out := s.sReg d (ofBool ((s.seq.get a).ult (sextTo64 imm)))

/-- LUI (R128). -/
def execLui (d : Reg) (imm : BitVec 20) (s : State) : Out := s.sReg d (sextTo64 imm * 4096)

/-- APC (R128): PC is the address of the word. -/
def execApc (d : Reg) (imm : BitVec 20) (s : State) : Out := s.sReg d (s.seq.st.pc + sextTo64 imm * 4096)

end Sys2Proof.Machine
end

