-- ==== Sys2Proof/Machine/SFloat.lean ====
section
/-! DEFINITION. The FP32 words of S (R129). -/

namespace Sys2Proof.Machine
open Sys2Proof

/-- The FP32 value that bits [31:0] of a register hold. -/
def Seq.fp (s : Seq) (r : Reg) : XNum := ofFp32 ((s.get r).toNat % 2 ^ 32)

/-- A word whose result is one rounding of an exact value (R129). -/
def fpWord (d : Reg) (c : CoreId) (f : Seq → XNum × BitVec 6) : Run Flow := do
  let v ← sRound c (f (← getInst c).s)
  setInst c fun i => { i with s := i.s.put d v }
  return .fall

/-- FADD (R129, R76). -/
def execFadd (d a b : Reg) (s : State) : Out :=
  s.sRun (.fadd d a b) fun c => fpWord d c fun q => addNum (q.fp a) (q.fp b) q.mode

/-- FSUB (R129, R76). -/
def execFsub (d a b : Reg) (s : State) : Out :=
  s.sRun (.fsub d a b) fun c => fpWord d c fun q => addNum (q.fp a) (negNum (q.fp b)) q.mode

/-- FMUL (R129, R76). -/
def execFmul (d a b : Reg) (s : State) : Out :=
  s.sRun (.fmul d a b) fun c => fpWord d c fun q => mulNum (q.fp a) (q.fp b)

/-- FFMA (R129, R76). -/
def execFfma (d a b : Reg) (s : State) : Out :=
  s.sRun (.ffma d a b) fun c => fpWord d c fun q => fmaNum (q.fp a) (q.fp b) (q.fp d) q.mode

/-- The FP32 code of a value that FMIN or FMAX returns unchanged; a NaN is the canonical one. -/
def fpCode (x : XNum) : W64 := BitVec.ofNat 64 (roundCore x .fp32 .rne false 0 none).code

/-- FMIN (R78): no rounding, no draw. -/
def execFmin (d a b : Reg) (s : State) : Out := s.sReg d (fpCode (minNum (s.seq.fp a) (s.seq.fp b)))

/-- FMAX (R78). -/
def execFmax (d a b : Reg) (s : State) : Out := s.sReg d (fpCode (maxNum (s.seq.fp a) (s.seq.fp b)))

/-- FCEQ (R78). -/
def execFceq (d a b : Reg) (s : State) : Out := s.sReg d (ofBool (eqNum (s.seq.fp a) (s.seq.fp b)))

/-- FCLT (R78). -/
def execFclt (d a b : Reg) (s : State) : Out := s.sReg d (ofBool (ltNum (s.seq.fp a) (s.seq.fp b)))

/-- FCLE (R78). -/
def execFcle (d a b : Reg) (s : State) : Out := s.sReg d (ofBool (leNum (s.seq.fp a) (s.seq.fp b)))

/-- FCVTI (R78): all 64 bits of the result; one draw under SR. -/
def execFcvti (d a : Reg) (s : State) : Out :=
  s.sRun (.fcvti d a) fun c => do
    let i ← getInst c
    let g := if i.s.mode = .sr then xorshift (i.gens.get 0) else i.gens.get 0
    let (v, fl) := cvtInt (i.s.fp a) i.s.mode (g.toNat / 65536)
    raiseFlags c .S fl
    setInst c fun i => { i.setGen 0 g with s := i.s.put d v }
    return .fall

/-- FCVTF (R78): all 64 bits of s[a] as a signed integer. -/
def execFcvtf (d a : Reg) (s : State) : Out :=
  s.sRun (.fcvtf d a) fun c => fpWord d c fun q => (numOfInt (q.get a), 0)

/-- FEXP2 (R77). -/
def execFexp2 (d a : Reg) (s : State) : Out :=
  s.sRun (.fexp2 d a) fun c => fpWord d c fun q => exp2Num (q.fp a)

/-- FLOG2 (R77). -/
def execFlog2 (d a : Reg) (s : State) : Out :=
  s.sRun (.flog2 d a) fun c => fpWord d c fun q => log2Num (q.fp a)

/-- FRCP (R77). -/
def execFrcp (d a : Reg) (s : State) : Out :=
  s.sRun (.frcp d a) fun c => fpWord d c fun q => rcpNum (q.fp a)

end Sys2Proof.Machine
end

