-- ==== Sys2Proof/Machine/SSys.lean ====
section
/-! DEFINITION. The CSR, trap and debug words of S: CSRR, CSRW, CSRSET, CSRCLR (R142), SVC (R147),
TRET (R146), BRK (R413) and TRACE (R416). -/

namespace Sys2Proof.Machine
open Sys2Proof

/-- CSRR (R142). -/
def execCsrr (d : Reg) (csr : BitVec 12) (s : State) : Out :=
  s.sRun (.csrr d csr) fun c => do
    let v ← csrNumber c (.csrr d csr) csr.toNat
    setInst c fun i => { i with s := i.s.put d v }
    return .fall

/-- CSRW (R142). -/
def execCsrw (csr : BitVec 12) (a : Reg) (s : State) : Out :=
  s.sRun (.csrw csr a) fun c => csrChange c (.csrw csr a) .write 0 a csr

/-- CSRSET (R142): s[a] is read before s[d] is written. -/
def execCsrset (d a : Reg) (csr : BitVec 12) (s : State) : Out :=
  s.sRun (.csrset d a csr) fun c => csrChange c (.csrset d a csr) .set d a csr

/-- CSRCLR (R142). -/
def execCsrclr (d a : Reg) (csr : BitVec 12) (s : State) : Out :=
  s.sRun (.csrclr d a csr) fun c => csrChange c (.csrclr d a csr) .clear d a csr

/-- SVC (R147): it completes, and then traps with TPC at the next word. -/
def execSvc (code : BitVec 20) (s : State) : Out :=
  let m := s.mach
  let c := m.cur
  let q := (m.inst c).s
  s.to <|
    if q.atBodyEnd then m.sStop c (.svc code) (.trap .illegal (BitVec.ofNat 64 (structVal (.svc code))))
    else (m.sFlow c .fall).takeTrap c .S .svc (q.st.pc + 4) (code.setWidth 64)

/-- TRET (R146): with the handler flag 0 it traps ILLEGAL. -/
def execTret (s : State) : Out :=
  let m := s.mach
  let c := m.cur
  let q := (m.inst c).s
  s.to <|
    if q.atBodyEnd then m.sStop c .tret (.trap .illegal (BitVec.ofNat 64 (structVal .tret)))
    else if !q.handler then m.sStop c .tret (.trap .illegal (illegalVal .S (wordOf .tret)))
    else m.trapReturn c (match q.tstrm.toNat with | 0 => .S | 1 => .V | 2 => .M | _ => .X) q.tpc

/-- BRK (R413). -/
def execBrk (code : BitVec 20) (s : State) : Out :=
  s.sRun (.brk code) fun c => do
    let q := (← getInst c).s
    require (!q.atBodyEnd) .illegal (structVal (.brk code))
    trap .breakpoint code.toNat

/-- The trace record (Table 18.5). -/
def traceRecord (m : Mach) (c : CoreId) (d : Reg) (tag : BitVec 20) : List Byte :=
  let i := m.inst c
  let q := i.s
  let inner := q.order.head?
  let lp : Loop := match inner with | some n => q.loops.get n | none => {}
  let hdr := tag.toNat + (match inner with | some n => n.val * 2 ^ 20 + 2 ^ 22 | none => 0)
    + (if q.handler then 2 ^ 23 else 0) + q.preds.toNat * 2 ^ 24 + i.id.num * 2 ^ 32 + c.val * 2 ^ 48
  bytesOf 8 hdr ++ bytesOf 8 q.st.pc.toNat ++ bytesOf 8 (q.get d).toNat
    ++ bytesOf 8 (lp.lcnt.toNat + q.rrb.toNat * 2 ^ 40) ++ bytesOf 8 lp.start.toNat
    ++ bytesOf 8 m.cycle ++ bytesOf 16 0

/-- TRACE (R416): the record is taken before any loop-end event the word carries. -/
def execTrace (d : Reg) (tag : BitVec 20) (s : State) : Out :=
  let m := s.mach
  let c := m.cur
  s.to ((m.ringAppend (m.ctx (m.ctxOf c)).trc (traceRecord m c d tag)).sFlow c .fall)

end Sys2Proof.Machine
end

