-- ==== Sys2Proof/Machine/Dispatch.lean ====
section
/-! DEFINITION. One arm for each instruction: the meaning that exec gives it. -/

namespace Sys2Proof.Machine
open Sys2Proof

def exec (i : Instr) (s : State) : Host.Outcome State Fault Refusal :=
  match i with
  | .add d a b => Sys2Proof.Machine.execAdd d a b s
  | .sub d a b => Sys2Proof.Machine.execSub d a b s
  | .mul d a b => Sys2Proof.Machine.execMul d a b s
  | .mulh d a b => Sys2Proof.Machine.execMulh d a b s
  | .mulhu d a b => Sys2Proof.Machine.execMulhu d a b s
  | .div d a b => Sys2Proof.Machine.execDiv d a b s
  | .divu d a b => Sys2Proof.Machine.execDivu d a b s
  | .rem d a b => Sys2Proof.Machine.execRem d a b s
  | .remu d a b => Sys2Proof.Machine.execRemu d a b s
  | .and d a b => Sys2Proof.Machine.execAnd d a b s
  | .or d a b => Sys2Proof.Machine.execOr d a b s
  | .xor d a b => Sys2Proof.Machine.execXor d a b s
  | .shl d a b => Sys2Proof.Machine.execShl d a b s
  | .shr d a b => Sys2Proof.Machine.execShr d a b s
  | .sra d a b => Sys2Proof.Machine.execSra d a b s
  | .slt d a b => Sys2Proof.Machine.execSlt d a b s
  | .sltu d a b => Sys2Proof.Machine.execSltu d a b s
  | .min d a b => Sys2Proof.Machine.execMin d a b s
  | .max d a b => Sys2Proof.Machine.execMax d a b s
  | .minu d a b => Sys2Proof.Machine.execMinu d a b s
  | .maxu d a b => Sys2Proof.Machine.execMaxu d a b s
  | .clz d a => Sys2Proof.Machine.execClz d a s
  | .popc d a => Sys2Proof.Machine.execPopc d a s
  | .bfx d a b => Sys2Proof.Machine.execBfx d a b s
  | .bfi d a b => Sys2Proof.Machine.execBfi d a b s
  | .fadd d a b => Sys2Proof.Machine.execFadd d a b s
  | .fsub d a b => Sys2Proof.Machine.execFsub d a b s
  | .fmul d a b => Sys2Proof.Machine.execFmul d a b s
  | .ffma d a b => Sys2Proof.Machine.execFfma d a b s
  | .fmin d a b => Sys2Proof.Machine.execFmin d a b s
  | .fmax d a b => Sys2Proof.Machine.execFmax d a b s
  | .fceq d a b => Sys2Proof.Machine.execFceq d a b s
  | .fclt d a b => Sys2Proof.Machine.execFclt d a b s
  | .fcle d a b => Sys2Proof.Machine.execFcle d a b s
  | .fcvti d a => Sys2Proof.Machine.execFcvti d a s
  | .fcvtf d a => Sys2Proof.Machine.execFcvtf d a s
  | .fexp2 d a => Sys2Proof.Machine.execFexp2 d a s
  | .flog2 d a => Sys2Proof.Machine.execFlog2 d a s
  | .frcp d a => Sys2Proof.Machine.execFrcp d a s
  | .addi d a imm => Sys2Proof.Machine.execAddi d a imm s
  | .andi d a imm => Sys2Proof.Machine.execAndi d a imm s
  | .ori d a imm => Sys2Proof.Machine.execOri d a imm s
  | .xori d a imm => Sys2Proof.Machine.execXori d a imm s
  | .shli d a sh => Sys2Proof.Machine.execShli d a sh s
  | .shri d a sh => Sys2Proof.Machine.execShri d a sh s
  | .srai d a sh => Sys2Proof.Machine.execSrai d a sh s
  | .slti d a imm => Sys2Proof.Machine.execSlti d a imm s
  | .sltui d a imm => Sys2Proof.Machine.execSltui d a imm s
  | .lui d imm => Sys2Proof.Machine.execLui d imm s
  | .apc d imm => Sys2Proof.Machine.execApc d imm s
  | .beq a b off => Sys2Proof.Machine.execBeq a b off s
  | .bne a b off => Sys2Proof.Machine.execBne a b off s
  | .blt a b off => Sys2Proof.Machine.execBlt a b off s
  | .bge a b off => Sys2Proof.Machine.execBge a b off s
  | .bltu a b off => Sys2Proof.Machine.execBltu a b off s
  | .bgeu a b off => Sys2Proof.Machine.execBgeu a b off s
  | .bpred g off => Sys2Proof.Machine.execBpred g off s
  | .jal d off => Sys2Proof.Machine.execJal d off s
  | .jalr d a imm => Sys2Proof.Machine.execJalr d a imm s
  | .loop n rot stg c len => Sys2Proof.Machine.execLoop n rot stg c len s
  | .loopi n rot stg count len => Sys2Proof.Machine.execLoopi n rot stg count len s
  | .leave n => Sys2Proof.Machine.execLeave n s
  | .ld d base size off => Sys2Proof.Machine.execLd d base size off s
  | .ldu d base size off => Sys2Proof.Machine.execLdu d base size off s
  | .st src base size off => Sys2Proof.Machine.execSt src base size off s
  | .amo d addr src op order scope => Sys2Proof.Machine.execAmo d addr src op order scope s
  | .cas d addr src order scope => Sys2Proof.Machine.execCas d addr src order scope s
  | .acqL a scope => Sys2Proof.Machine.execAcqL a scope s
  | .acqC a b scope => Sys2Proof.Machine.execAcqC a b scope s
  | .relL a scope => Sys2Proof.Machine.execRelL a scope s
  | .relC a scope => Sys2Proof.Machine.execRelC a scope s
  | .fence scope => Sys2Proof.Machine.execFence scope s
  | .bind d a b k => Sys2Proof.Machine.execBind d a b k s
  | .sig peer => Sys2Proof.Machine.execSig peer s
  | .waitk peer => Sys2Proof.Machine.execWaitk peer s
  | .sqput a => Sys2Proof.Machine.execSqput a s
  | .eidle mask => Sys2Proof.Machine.execEidle mask s
  | .exit => Sys2Proof.Machine.execExit s
  | .fpsh f a => Sys2Proof.Machine.execFpsh f a s
  | .fpop d f => Sys2Proof.Machine.execFpop d f s
  | .fcnt d f => Sys2Proof.Machine.execFcnt d f s
  | .waitw d a b cond scope => Sys2Proof.Machine.execWaitw d a b cond scope s
  | .yield => Sys2Proof.Machine.execYield s
  | .barr a scope => Sys2Proof.Machine.execBarr a scope s
  | .barw d a scope => Sys2Proof.Machine.execBarw d a scope s
  | .bbpost a b scope => Sys2Proof.Machine.execBbpost a b scope s
  | .barq d a scope => Sys2Proof.Machine.execBarq d a scope s
  | .pgreq d a write => Sys2Proof.Machine.execPgreq d a write s
  | .pgres d a => Sys2Proof.Machine.execPgres d a s
  | .probe d a off => Sys2Proof.Machine.execProbe d a off s
  | .svc code => Sys2Proof.Machine.execSvc code s
  | .tret => Sys2Proof.Machine.execTret s
  | .csrr d csr => Sys2Proof.Machine.execCsrr d csr s
  | .csrw csr a => Sys2Proof.Machine.execCsrw csr a s
  | .csrset d a csr => Sys2Proof.Machine.execCsrset d a csr s
  | .csrclr d a csr => Sys2Proof.Machine.execCsrclr d a csr s
  | .brk code => Sys2Proof.Machine.execBrk code s
  | .trace d tag => Sys2Proof.Machine.execTrace d tag s
  | .vview y d => Sys2Proof.Machine.execVview y d s
  | .vpset y d => Sys2Proof.Machine.execVpset y d s
  | .vld o d a res => Sys2Proof.Machine.execVld o d a res s
  | .vst y mask d a => Sys2Proof.Machine.execVst y mask d a s
  | .vmov o d a => Sys2Proof.Machine.execVmov o d a s
  | .vadd o d a b => Sys2Proof.Machine.execVadd o d a b s
  | .vsub o d a b => Sys2Proof.Machine.execVsub o d a b s
  | .vmul o d a b => Sys2Proof.Machine.execVmul o d a b s
  | .vfma o d a b => Sys2Proof.Machine.execVfma o d a b s
  | .vmin o d a b => Sys2Proof.Machine.execVmin o d a b s
  | .vmax o d a b => Sys2Proof.Machine.execVmax o d a b s
  | .vabs o d a => Sys2Proof.Machine.execVabs o d a s
  | .vneg o d a => Sys2Proof.Machine.execVneg o d a s
  | .vrcp o d a => Sys2Proof.Machine.execVrcp o d a s
  | .vrsq o d a => Sys2Proof.Machine.execVrsq o d a s
  | .vsqrt o d a => Sys2Proof.Machine.execVsqrt o d a s
  | .vexp2 o d a => Sys2Proof.Machine.execVexp2 o d a s
  | .vlog2 o d a => Sys2Proof.Machine.execVlog2 o d a s
  | .vtanh o d a => Sys2Proof.Machine.execVtanh o d a s
  | .vcmp y mask ra rb p k a b => Sys2Proof.Machine.execVcmp y mask ra rb p k a b s
  | .vsel y mask ra rb d a b => Sys2Proof.Machine.execVsel y mask ra rb d a b s
  | .vmlog y op k mi j => Sys2Proof.Machine.execVmlog y op k mi j s
  | .vmset y pat k a => Sys2Proof.Machine.execVmset y pat k a s
  | .vmcnt y mi shape => Sys2Proof.Machine.execVmcnt y mi shape s
  | .vcvt o sat d a => Sys2Proof.Machine.execVcvt o sat d a s
  | .vrnd o d a => Sys2Proof.Machine.execVrnd o d a s
  | .vred o axis d a => Sys2Proof.Machine.execVred o axis d a s
  | .vscan o axis d a => Sys2Proof.Machine.execVscan o axis d a s
  | .vtrn o d a => Sys2Proof.Machine.execVtrn o d a s
  | .vshf o axis d a b => Sys2Proof.Machine.execVshf o axis d a b s
  | .vxs y a => Sys2Proof.Machine.execVxs y a s
  | .vnop y => Sys2Proof.Machine.execVnop y s
  | .vend y => Sys2Proof.Machine.execVend y s
  | .mnest y lv rec => Sys2Proof.Machine.execMnest y lv rec s
  | .mbase y op rec => Sys2Proof.Machine.execMbase y op rec s
  | .mmask y rec => Sys2Proof.Machine.execMmask y rec s
  | .mfmt y fa fb => Sys2Proof.Machine.execMfmt y fa fb s
  | .mbmapOn y op rec => Sys2Proof.Machine.execMbmapOn y op rec s
  | .mbmapOff y op => Sys2Proof.Machine.execMbmapOff y op s
  | .mcode y op slot => Sys2Proof.Machine.execMcode y op slot s
  | .mldb y groups rec => Sys2Proof.Machine.execMldb y groups rec s
  | .macc y set => Sys2Proof.Machine.execMacc y set s
  | .maccClear y set => Sys2Proof.Machine.execMaccClear y set s
  | .mgo y n => Sys2Proof.Machine.execMgo y n s
  | .mdrn y set rec => Sys2Proof.Machine.execMdrn y set rec s
  | .mnop y => Sys2Proof.Machine.execMnop y s
  | .mend y => Sys2Proof.Machine.execMend y s
  | .xstg y stage => Sys2Proof.Machine.execXstg y stage s
  | .xcpy y ch rec => Sys2Proof.Machine.execXcpy y ch rec s
  | .xgth y ch rec => Sys2Proof.Machine.execXgth y ch rec s
  | .xsct y ch rec => Sys2Proof.Machine.execXsct y ch rec s
  | .xfill y ch rec => Sys2Proof.Machine.execXfill y ch rec s
  | .xwid y ch => Sys2Proof.Machine.execXwid y ch s
  | .xwidRec y ch rec => Sys2Proof.Machine.execXwidRec y ch rec s
  | .xcbConfig y cb rec => Sys2Proof.Machine.execXcbConfig y cb rec s
  | .xcbReset y cb => Sys2Proof.Machine.execXcbReset y cb s
  | .xnop y => Sys2Proof.Machine.execXnop y s
  | .xend y => Sys2Proof.Machine.execXend y s
  | .trapEntry c e cause pc val => Sys2Proof.Machine.execTrapEntry c e cause pc val s
  | .faultRecord ctx uid core t => Sys2Proof.Machine.execFaultRecord ctx uid core t s
  | .preemptionRequest c => Sys2Proof.Machine.execPreemptionRequest c s
  | .coreReleased c => Sys2Proof.Machine.execCoreReleased c s
  | .spinRecheck c => Sys2Proof.Machine.execSpinRecheck c s
  | .tokenPopWake c e => Sys2Proof.Machine.execTokenPopWake c e s
  | .tokenPushWake c e => Sys2Proof.Machine.execTokenPushWake c e s
  | .scalarQueueWake c e => Sys2Proof.Machine.execScalarQueueWake c e s
  | .fifoWake c e => Sys2Proof.Machine.execFifoWake c e s
  | .eidleWake c => Sys2Proof.Machine.execEidleWake c s
  | .blockFillDone c block => Sys2Proof.Machine.execBlockFillDone c block s
  | .kstepEnd c sa => Sys2Proof.Machine.execKstepEnd c sa s
  | .throttleIdleEnd c sa => Sys2Proof.Machine.execThrottleIdleEnd c sa s
  | .commitEnd c => Sys2Proof.Machine.execCommitEnd c s
  | .rekeyDone ctx => Sys2Proof.Machine.execRekeyDone ctx s
  | .transferGranule c ch id => Sys2Proof.Machine.execTransferGranule c ch id s
  | .transferDone c ch id => Sys2Proof.Machine.execTransferDone c ch id s
  | .f1Result c => Sys2Proof.Machine.execF1Result c s
  | .teardownDone ctx => Sys2Proof.Machine.execTeardownDone ctx s
  | .queueLaunch f q => Sys2Proof.Machine.execQueueLaunch f q s
  | .queueWait f q => Sys2Proof.Machine.execQueueWait f q s
  | .queueSignal f q => Sys2Proof.Machine.execQueueSignal f q s
  | .queueCond f q => Sys2Proof.Machine.execQueueCond f q s
  | .queueLoop f q => Sys2Proof.Machine.execQueueLoop f q s
  | .queueSwitch f q => Sys2Proof.Machine.execQueueSwitch f q s
  | .waitRecheck f q => Sys2Proof.Machine.execWaitRecheck f q s
  | .waitTimeout f q => Sys2Proof.Machine.execWaitTimeout f q s
  | .completionEntryPost f q => Sys2Proof.Machine.execCompletionEntryPost f q s
  | .dependenceCheck l => Sys2Proof.Machine.execDependenceCheck l s
  | .placementEval d => Sys2Proof.Machine.execPlacementEval d s
  | .steal d => Sys2Proof.Machine.execSteal d s
  | .teamSwap d => Sys2Proof.Machine.execTeamSwap d s
  | .instanceComplete c => Sys2Proof.Machine.execInstanceComplete c s
  | .launchRetire l => Sys2Proof.Machine.execLaunchRetire l s
  | .boostDecay => Sys2Proof.Machine.execBoostDecay s
  | .fairnessBucket => Sys2Proof.Machine.execFairnessBucket s
  | .landingReplay c => Sys2Proof.Machine.execLandingReplay c s
  | .barrierArrivalForward round die => Sys2Proof.Machine.execBarrierArrivalForward round die s
  | .barrierRelease c round => Sys2Proof.Machine.execBarrierRelease c round s
  | .invalComplete f => Sys2Proof.Machine.execInvalComplete f s
  | .asidScrubDone asid => Sys2Proof.Machine.execAsidScrubDone asid s
  | .countMoveDone ctx va => Sys2Proof.Machine.execCountMoveDone ctx va s
  | .pullDone ctx va => Sys2Proof.Machine.execPullDone ctx va s
  | .pullTimeout ctx va => Sys2Proof.Machine.execPullTimeout ctx va s
  | .packetLinkfail p => Sys2Proof.Machine.execPacketLinkfail p s
  | .put c => Sys2Proof.Machine.execPut c s
  | .get c => Sys2Proof.Machine.execGet c s
  | .putsig c => Sys2Proof.Machine.execPutsig c s
  | .ramo c => Sys2Proof.Machine.execRamo c s
  | .coll c => Sys2Proof.Machine.execColl c s
  | .sred c => Sys2Proof.Machine.execSred c s
  | .dpost c => Sys2Proof.Machine.execDpost c s
  | .xrep c => Sys2Proof.Machine.execXrep c s
  | .pktWrite p => Sys2Proof.Machine.execPktWrite p s
  | .readreq p => Sys2Proof.Machine.execReadreq p s
  | .readresp p => Sys2Proof.Machine.execReadresp p s
  | .pktSig p => Sys2Proof.Machine.execPktSig p s
  | .pktAmo p => Sys2Proof.Machine.execPktAmo p s
  | .amoresp p => Sys2Proof.Machine.execAmoresp p s
  | .ack p => Sys2Proof.Machine.execAck p s
  | .frag p => Sys2Proof.Machine.execFrag p s
  | .sredc p => Sys2Proof.Machine.execSredc p s
  | .sredr p => Sys2Proof.Machine.execSredr p s
  | .mgmt p => Sys2Proof.Machine.execMgmt p s
  | .sredSlotTimeout sw slot => Sys2Proof.Machine.execSredSlotTimeout sw slot s
  | .demand p => Sys2Proof.Machine.execDemand p s
  | .hist p => Sys2Proof.Machine.execHist p s
  | .split p => Sys2Proof.Machine.execSplit p s
  | .grant p => Sys2Proof.Machine.execGrant p s
  | .xdat p => Sys2Proof.Machine.execXdat p s
  | .xmark p => Sys2Proof.Machine.execXmark p s
  | .xack p => Sys2Proof.Machine.execXack p s
  | .pdone p => Sys2Proof.Machine.execPdone p s
  | .final p => Sys2Proof.Machine.execFinal p s
  | .heart p => Sys2Proof.Machine.execHeart p s
  | .heartbeatTimer => Sys2Proof.Machine.execHeartbeatTimer s
  | .mirror p => Sys2Proof.Machine.execMirror p s
  | .standbyTakeover => Sys2Proof.Machine.execStandbyTakeover s
  | .takeover p => Sys2Proof.Machine.execTakeover p s
  | .exchState p => Sys2Proof.Machine.execExchState p s
  | .abort p => Sys2Proof.Machine.execAbort p s
  | .collectTimeout key => Sys2Proof.Machine.execCollectTimeout key s
  | .stateTimeout key => Sys2Proof.Machine.execStateTimeout key s
  | .arbiterSilenceTimeout cmd => Sys2Proof.Machine.execArbiterSilenceTimeout cmd s
  | .selfRefreshEntry h pc => Sys2Proof.Machine.execSelfRefreshEntry h pc s
  | .selfRefreshExit h pc => Sys2Proof.Machine.execSelfRefreshExit h pc s
  | .stopLanded c => Sys2Proof.Machine.execStopLanded c s
  | .stepEnd c => Sys2Proof.Machine.execStepEnd c s
  | .energyWindowEnd => Sys2Proof.Machine.execEnergyWindowEnd s
  | .build f ctx => Sys2Proof.Machine.execBuild f ctx s
  | .ctxBind f ctx => Sys2Proof.Machine.execCtxBind f ctx s
  | .keyload f ctx => Sys2Proof.Machine.execKeyload f ctx s
  | .suspend f ctx => Sys2Proof.Machine.execSuspend f ctx s
  | .ctxResume f ctx => Sys2Proof.Machine.execCtxResume f ctx s
  | .spill f ctx => Sys2Proof.Machine.execSpill f ctx s
  | .iresume f ctx => Sys2Proof.Machine.execIresume f ctx s
  | .ikill f ctx => Sys2Proof.Machine.execIkill f ctx s
  | .migrate f ctx => Sys2Proof.Machine.execMigrate f ctx s
  | .teardown f ctx => Sys2Proof.Machine.execTeardown f ctx s
  | .release f ctx => Sys2Proof.Machine.execRelease f ctx s
  | .migrateAck ctx => Sys2Proof.Machine.execMigrateAck ctx s
  | .arm f q => Sys2Proof.Machine.execArm f q s
  | .quiesce f q => Sys2Proof.Machine.execQuiesce f q s
  | .queueReset f q => Sys2Proof.Machine.execQueueReset f q s
  | .widxWrite f q v => Sys2Proof.Machine.execWidxWrite f q v s
  | .inval f ctx => Sys2Proof.Machine.execInval f ctx s
  | .pcomplete f ctx => Sys2Proof.Machine.execPcomplete f ctx s
  | .pgRetire f => Sys2Proof.Machine.execPgRetire f s
  | .linkDown l => Sys2Proof.Machine.execLinkDown l s
  | .retrain l => Sys2Proof.Machine.execRetrain l s
  | .linkTrainingEnd l r partner pport => Sys2Proof.Machine.execLinkTrainingEnd l r partner pport s
  | .linkReplay l => Sys2Proof.Machine.execLinkReplay l s
  | .replayAccepted l => Sys2Proof.Machine.execReplayAccepted l s
  | .reserve => Sys2Proof.Machine.execReserve s
  | .free => Sys2Proof.Machine.execFree s
  | .layerSensorRead h layer t => Sys2Proof.Machine.execLayerSensorRead h layer t s
  | .refresh h pc => Sys2Proof.Machine.execRefresh h pc s
  | .dramRequest h line bank row write who ecc => Sys2Proof.Machine.execDramRequest h line bank row write who ecc s
  | .hotRowWindowEnd h => Sys2Proof.Machine.execHotRowWindowEnd h s
  | .patrolScrub h line ecc => Sys2Proof.Machine.execPatrolScrub h line ecc s
  | .stop f => Sys2Proof.Machine.execStop f s
  | .go f => Sys2Proof.Machine.execGo f s
  | .step f => Sys2Proof.Machine.execStep f s
  | .settle f => Sys2Proof.Machine.execSettle f s
  | .rdstate f => Sys2Proof.Machine.execRdstate f s
  | .wrstate f => Sys2Proof.Machine.execWrstate f s
  | .watch f => Sys2Proof.Machine.execWatch f s
  | .trccfg f => Sys2Proof.Machine.execTrccfg f s
  | .wlcfg f => Sys2Proof.Machine.execWlcfg f s
  | .wsnap f => Sys2Proof.Machine.execWsnap f s
  | .attach f => Sys2Proof.Machine.execAttach f s
  | .attest f => Sys2Proof.Machine.execAttest f s
  | .getcert f => Sys2Proof.Machine.execGetcert f s
  | .hlthRetire c => Sys2Proof.Machine.execHlthRetire c s
  | .parityReplay c ok savePath => Sys2Proof.Machine.execParityReplay c ok savePath s
  | .lupinSample c slack => Sys2Proof.Machine.execLupinSample c slack s
  | .lupinPlan c => Sys2Proof.Machine.execLupinPlan c s
  | .jtagBypass => Sys2Proof.Machine.execJtagBypass s
  | .jtagIdcode => Sys2Proof.Machine.execJtagIdcode s
  | .jtagSamplePreload => Sys2Proof.Machine.execJtagSamplePreload s
  | .jtagExtest => Sys2Proof.Machine.execJtagExtest s
  | .jtagPrivate r => Sys2Proof.Machine.execJtagPrivate r s
  | .modEnAssert inputOk => Sys2Proof.Machine.execModEnAssert inputOk s
  | .powerOff => Sys2Proof.Machine.execPowerOff s
  | .cxlFundamentalReset => Sys2Proof.Machine.execCxlFundamentalReset s
  | .bootVerification b => Sys2Proof.Machine.execBootVerification b s
  | .powerWindowEnd watts => Sys2Proof.Machine.execPowerWindowEnd watts s
  | .thermalSensorRead d celsius => Sys2Proof.Machine.execThermalSensorRead d celsius s
  | .powerOverrunStop watts micros => Sys2Proof.Machine.execPowerOverrunStop watts micros s
  | .moduleResume dies layers watts millis => Sys2Proof.Machine.execModuleResume dies layers watts millis s
  | .cxlMemAccess addr write data => Sys2Proof.Machine.execCxlMemAccess addr write data s
  | .registerWrite f lvl off v => Sys2Proof.Machine.execRegisterWrite f lvl off v s

end Sys2Proof.Machine
end

