-- ==== Sys2Proof/Machine/Turn.lean ====
section
/-! DEFINITION. Whose turn it is: the streams and engines of the cores in a fixed rotation, what each does at its
turn, and what falls due between turns. One turn is one cycle of CYCLE. The order of the turns is the model's own
(notes/assumptions/1.md). -/

namespace Sys2Proof.Machine
open Sys2Proof

/-! ## The rotation -/

/-- The streams and engines of a core, in the order of their turns. -/
def agents : List Agent := [.stream .S, .stream .V, .stream .M, .stream .X, .nest, .xfer, .gather, .fabric]

/-- Where an agent stands in that order. -/
def Agent.place : Agent → Nat
  | .stream .S => 0 | .stream .V => 1 | .stream .M => 2 | .stream .X => 3
  | .nest => 4 | .xfer => 5 | .gather => 6 | .fabric => 7

/-- The instance of a core may work: it is resident, its start is done, and no pre-emption or fault has taken it. -/
def Core.works (k : Core) : Bool := k.resident && !k.starting && !k.preempt && k.inst.faulted.isNone

/-- A debugger holds a stream or what runs for it (R409, R410). -/
def Inst.held (i : Inst) (e : Eng) : Bool := i.dbg.stopped && i.dbg.stepping != some e

/-- While the handler runs, the other streams, the nest and the transfers are held (R143). -/
def Inst.blocked (i : Inst) (e : Eng) : Bool := i.held e || (i.s.handler && e != .S)

/-- A wait that ends only by a re-check of its own or a release (R302, R325). -/
def WaitKind.passive : WaitKind → Bool
  | .sync _ => true | .word _ => true | .barrier _ => true | _ => false

/-- A stream has a word to run or a wait to look at. -/
def Inst.streamReady (i : Inst) (e : Eng) : Bool :=
  let st := i.stream e
  let holds := match st.wait with | some w => w.kind.passive | none => false
  !i.blocked e && !(st.ended && st.pushing.isNone) && (!holds || (e == .S && i.s.checking))

/-- The nest has work: a K-step, the end of a commit, or a push. -/
def Inst.nestReady (i : Inst) : Bool :=
  (!i.blocked .M || i.dbg.settling) && (!i.m.pushes.isEmpty || (i.m.active.isSome &&
    match i.m.fault with | none => true | some .abandoned => true | some .unrecorded => true | _ => false))

/-- The transfer unit has work. -/
def Inst.xferReady (i : Inst) : Bool := !i.blocked .X && !(i.x.pushes.isEmpty && i.x.xfers.isEmpty)

/-- The agent of a core has something to do at its turn. -/
def Mach.agentReady (m : Mach) (c : CoreId) (a : Agent) : Bool :=
  let k := m.core c
  k.works &&
    match a with
    | .stream e => k.inst.streamReady e
    | .nest => k.inst.nestReady
    | .xfer => k.inst.xferReady
    | .gather => m.f1Ready c
    | .fabric => (m.collNext c).isSome || (m.partNext c 7).isSome || (m.partNext c 8).isSome || k.inst.fifo.nextFabric.isSome

/-- The turns of the cores, from a core on. -/
def turnsFrom (c : Nat) (a : Nat) : List (CoreId × Agent) :=
  let rest := (agents.drop (a + 1)).map fun x => (Fin.ofNat 48 c, x)
  rest ++ ((List.range 48).map fun k => agents.map fun x => ((Fin.ofNat 48 (c + 1 + k) : CoreId), x)).flatten

/-- The next turn: the next agent that has something to do, if any has. -/
def Mach.nextTurn (m : Mach) : Mach :=
  match (turnsFrom m.cur.val m.agent.place).find? fun t => m.agentReady t.1 t.2 with
  | some (c, a) => { m with cur := c, agent := a }
  | none => m

/-! ## What an agent does at its turn -/

/-- A stream runs the word at its program counter (R31–R36), or the word that waits is looked at again. A fetch
that stalls on an arriving page is made again at the stream's next turn. -/
def State.streamTurn (s : State) (c : CoreId) (e : Eng) : Out :=
  let m := s.mach
  let st := (m.inst c).stream e
  match st.wait with
  | none =>
    match (fetchWord c e).go m with
    | (.error (.trap k v), m) => exec (.trapEntry c e k st.pc v) { s with mach := m }
    | (.error (.park k v), m) => s.to (m.takeTrap c e k st.pc v .word true)
    | (.error (.wait _), m) => s.to m
    | (.ok w, m) =>
      match decode e w with
      | .error _ => exec (.trapEntry c e .illegal st.pc (illegalVal e w)) { s with mach := m }
      | .ok i => exec i { s with mach := m }
  | some w =>
    match w.kind with
    | .token _ => exec (.tokenPopWake c e) s
    | .push _ => exec (.tokenPushWake c e) s
    | .sqEmpty => exec (.scalarQueueWake c e) s
    | .sqFull => exec (.scalarQueueWake c e) s
    | .fifoFull _ => exec (.fifoWake c e) s
    | .fifoEmpty _ => exec (.fifoWake c e) s
    | .eidle => exec (.eidleWake c) s
    | .fill b => exec (.blockFillDone c b) s
    | .retry _ _ => exec w.word s
    | .sync _ => exec (.spinRecheck c) s
    | .word _ => exec (.spinRecheck c) s
    | .barrier _ => exec (.spinRecheck c) s

/-- The nest: pushes that wait, then a K-step of a sub-array or the end of the commit. -/
def State.nestTurn (s : State) (c : CoreId) : Out :=
  let m := s.mach.modInst c Inst.flushMat
  let x := (m.inst c).m
  match x.active with
  | none => s.to m
  | some k =>
    let ends := match x.fault with | none => x.allEnded k | some .abandoned => true | some .unrecorded => true | _ => false
    if ends then exec (.commitEnd c) { s with mach := m }
    else
      match x.nextSa k with
      | some sa => exec (.kstepEnd c sa) { s with mach := m }
      | none => s.to m

/-- The transfer unit: pushes that wait, then a transfer that ends or moves a granule. -/
def State.xferTurn (s : State) (c : CoreId) : Out :=
  let m := s.mach.modInst c Inst.flushX
  let i := m.inst c
  let ends := fun (t : Transfer) => t.state == .abandoned || (t.state == .running && decide (t.total i ≤ t.pos))
  match i.x.xfers.find? ends with
  | some t => exec (.transferDone c t.ch t.id) { s with mach := m }
  | none =>
    let l := i.x.xfers.filter fun t => m.xferMoves c t
    match l[m.saTurn.val % l.length]? with
    | some t => exec (.transferGranule c t.ch t.id) { s with mach := { m with saTurn := m.saTurn + 1 } }
    | none => s.to m

/-- The fabric engine: a collective or an exchange in progress goes on, or the next command starts. -/
def State.fabricTurn (s : State) (c : CoreId) : Out :=
  let m := s.mach
  if (m.collNext c).isSome then exec (.coll c) s
  else if (m.partNext c 7).isSome then exec (.dpost c) s
  else if (m.partNext c 8).isSome then exec (.xrep c) s
  else
    match (m.inst c).fifo.nextFabric with
    | none => .next s
    | some rec =>
      match (rec.headD 0).toNat % 256 with
      | 1 => exec (.put c) s
      | 2 => exec (.get c) s
      | 3 => exec (.putsig c) s
      | 4 => exec (.ramo c) s
      | 5 => exec (.coll c) s
      | 6 => exec (.sred c) s
      | 7 => exec (.dpost c) s
      | 8 => exec (.xrep c) s
      | _ => .next s

/-- The turn of the agent that stands next. -/
def State.turn (s : State) : Out :=
  let c := s.mach.cur
  if !s.mach.agentReady c s.mach.agent then .next s
  else
    match s.mach.agent with
    | .stream e => s.streamTurn c e
    | .nest => s.nestTurn c
    | .xfer => s.xferTurn c
    | .gather => exec (.f1Result c) s
    | .fabric => s.fabricTurn c

/-! ## The order of a cycle's steps (R7) -/

/-- The place of a step among those of one cycle: of two that reach one object the one of the earlier row is taken first,
but where the object's chapter gives an order of its own. The power rows (R28) stand before all, then decay and the
fairness boundary (R300, R301), a fault's record and a kill (R253, R280), what the host writes (R345), the exit from
self-refresh and a refresh (R399), all else in the order in which it came, arrivals at the IOD after counted bytes (R320),
the later rows of the context table (R253), steals after placements (R285), displacement after placement (R308), hardware
moves (R345), and entries, windows and timers that give way to what meets them (R371, R384, R399, R400). -/
def rankOf : Instr → Nat
  | .powerOff => 0 | .cxlFundamentalReset => 1 | .modEnAssert _ => 2 | .bootVerification _ => 3
  | .moduleResume _ _ _ _ => 4 | .powerOverrunStop _ _ => 5 | .thermalSensorRead _ _ => 5 | .layerSensorRead _ _ _ => 5
  | .boostDecay => 10 | .fairnessBucket => 11
  | .trapEntry _ _ _ _ _ => 12 | .coreReleased _ => 12 | .faultRecord _ _ _ _ => 12
  | .ikill _ _ => 13 | .teardown _ _ => 13
  | .cxlMemAccess _ _ _ => 20 | .registerWrite _ _ _ _ => 20
  | .build _ _ => 21 | .ctxBind _ _ => 22 | .keyload _ _ => 23 | .arm _ _ => 24 | .widxWrite _ _ _ => 25
  | .selfRefreshExit _ _ => 40 | .refresh _ _ => 40
  | .linkTrainingEnd _ _ _ _ => 41 | .linkReplay _ => 42 | .replayAccepted _ => 43 | .linkDown _ => 44
  | .barrierArrivalForward _ _ => 51
  | .quiesce _ _ => 52 | .queueReset _ _ => 53
  | .iresume _ _ => 54 | .suspend _ _ => 55 | .spill _ _ => 56 | .ctxResume _ _ => 57 | .migrate _ _ => 58
  | .migrateAck _ => 59 | .teardownDone _ => 60 | .release _ _ => 61
  | .steal _ => 62 | .teamSwap _ => 63 | .preemptionRequest _ => 64
  | .countMoveDone _ _ => 65 | .pullDone _ _ => 65 | .pullTimeout _ _ => 66
  | .selfRefreshEntry _ _ => 67 | .hotRowWindowEnd _ => 68
  | .sredSlotTimeout _ _ => 69 | .collectTimeout _ => 69 | .stateTimeout _ => 69 | .arbiterSilenceTimeout _ => 69
  | .packetLinkfail _ => 69 | .waitTimeout _ _ => 69 | .standbyTakeover => 69 | .abort _ => 70
  | _ => 50

/-- A step goes before another of the cycle: one of lower rank, or a contribution that arrives at a lower port of its
switch (R368). -/
def goesBefore (x b : Instr) : Bool :=
  decide (rankOf x < rankOf b) || match x, b with
    | .sredc p, .sredc q => decide (auxPort p.aux < auxPort q.aux)
    | _, _ => false

/-- The step of the agenda that is taken next: of those that no other goes before, the oldest. -/
def firstStep (i : Instr) (l : List Instr) : Instr := l.foldl (fun b x => if goesBefore x b then x else b) i

/-- The next step of the agenda, and the machine without it. -/
def Mach.nextStep (m : Mach) : Option (Instr × Mach) :=
  match m.agenda with
  | [] => none
  | i :: rest => some (firstStep i rest, { m with agenda := m.agenda.erase (firstStep i rest) })

/-! ## What falls due between turns -/

/-- Steps joined to the agenda, but for those that stand there. -/
def Mach.postNew (m : Mach) (l : List Instr) : Mach := l.foldl (fun m i => if m.agenda.contains i then m else m.post [i]) m

/-- The timers that are due. -/
def Mach.dueTimers (m : Mach) : Mach :=
  let due := m.timers.filter fun t => decide (t.1 ≤ m.cycle)
  if due.isEmpty then m
  else ({ m with timers := m.timers.filter fun t => !decide (t.1 ≤ m.cycle) } : Mach).post (due.map (·.2))

/-- Every so many cycles. -/
def every (cycle n : Nat) : Bool := cycle % n == 0

/-- The steps that a cycle's number brings. -/
def Mach.periodic (m : Mach) (active : Bool) : List Instr :=
  (if every m.cycle 4096 then [.boostDecay] else [])
    ++ (if every m.cycle 65536 then [.fairnessBucket] else [])
    ++ (if every m.cycle 1500000 then [.energyWindowEnd] else [])
    ++ (if every m.cycle 15000 && !m.exchs.isEmpty then [.heartbeatTimer] else [])
    ++ (if every m.cycle 256 && active then (List.finRange 4).map .placementEval else [])

/-- What queues can do now: take a record, or hand over a completion entry. -/
def Mach.queueSteps (m : Mach) : List Instr :=
  m.queues.flatMap fun e =>
    let f : FnId := Fin.ofNat 9 (e.1 / 8)
    let q : QId := Fin.ofNat 8 e.1
    (m.queueStep f q).toList ++ (if m.canPost f q then [.completionEntryPost f q] else [])

/-- What launches wait for, looked at every 256 cycles. -/
def Mach.launchSteps (m : Mach) : List Instr :=
  if !every m.cycle 256 then []
  else m.launches.flatMap fun l =>
    if l.st = .waiting then [.dependenceCheck l.num]
    else if (l.st = .draining && l.counted) || l.st = .verifying then [.launchRetire l.num]
    else []

/-- What cores wait for: the end of a start or of an instance. -/
def Mach.coreSteps (m : Mach) : List Instr :=
  let cs := if every m.cycle 64 then List.finRange 48 else [m.cur]
  cs.flatMap fun c =>
    let k := m.core c
    if !k.resident || k.preempt then []
    else
      (if every m.cycle 64 && (k.starting || (m.ctx (m.ctxOf c)).landing.any (·.uid == k.inst.id.uid)) then [.landingReplay c]
        else []) ++ (if !k.starting && k.inst.finished then [.instanceComplete c] else [])

/-- Deliveries held are offered again, and a standby that has heard nothing takes over. -/
def Mach.fabricSteps (m : Mach) : List Instr :=
  (if every m.cycle 64 then m.heldDel.map fun e => packetStep e.1 else [])
    ++ (if m.exchs.any fun e => e.silent m.cycle then [.standbyTakeover] else [])

/-- A member of a team that has completed EXIT, or stands in a spinning wait. -/
def Inst.spinsOrDone (i : Inst) : Bool :=
  i.s.st.ended || match i.s.st.wait with | some w => w.kind.spins | none => false

/-- Since when every member of a resident team waits (R307). -/
def Mach.teamWaiting (m : Mach) (l : Launch) (t : Team) : Option Nat :=
  let mine := ((m.cores.toList.filter (·.resident)).map (·.inst)).filter fun i =>
    i.id.launch == l.num && i.id.run == t.run && i.id.team == t.num
  if t.st = .resident && !mine.isEmpty && mine.all Inst.spinsOrDone && mine.any fun i => !i.s.st.ended then
    some (t.waiting.getD m.cycle)
  else none

def Mach.markWaiting (m : Mach) : Mach :=
  if m.launches.isEmpty then m
  else { m with launches := m.launches.map fun l => { l with teams := l.teams.map fun t => { t with waiting := m.teamWaiting l t } } }

/-- A cycle passes: the next turn is found, and what falls due joins the agenda. -/
def State.tick (s : State) : State :=
  let m : Mach := { s.mach.noteGathers s.mach.cur with cycle := s.mach.cycle + 1 }
  let m := (m.markWaiting).countFairness.bankTicks
  let m := m.dueTimers.postNew (m.periodic (s.pwr.st == .active) ++ m.queueSteps ++ m.launchSteps ++ m.coreSteps ++ m.fabricSteps)
  let m := m.debugTick
  { s with mach := m.nextTurn }

/-! ## Placing a word to be fetched -/

/-- Where the tables and the code page of a placed word lie. -/
def placedTables : Nat := 0x10000000
def placedFrame : Nat := 0x20000000
def placedPc : Nat := 0x1000

/-- A table entry. -/
def Mach.putEntry (m : Mach) (hbm : Bool) (pa w0 w1 : Nat) : Mach := (m.storeWord (spaceKey hbm pa) w0).storeWord (spaceKey hbm pa + 8) w1

/-- The tables of context 0: a chain of entry 0 of each level down to a present, executable 2 MiB page. -/
def Mach.putTables (m : Mach) : Mach :=
  let hbm := (m.fn 0).winSpace
  let t := fun (k : Nat) => placedTables + 0x1000 * k
  let m := (List.range 4).foldl (fun m k => m.putEntry hbm (t k) 1 (t (k + 1))) m
  m.putEntry hbm (t 4) 0x83F placedFrame

/-- The instance of core 0 about to fetch the word of a stream at the placed address. -/
def Inst.aimed (i : Inst) (e : Eng) : Inst :=
  let pc := BitVec.ofNat 64 placedPc
  let k : Fin 4 := Fin.ofNat 4 (engCode e)
  let i := { i with
    id := { i.id with ctx := 0, secBase := vset i.id.secBase k pc, secLen := vset i.id.secLen k 1 }
    s := { i.s with handler := false }
    dbg := { i.dbg with stopReq := false, stopped := false, stepping := none, settling := false }
    faulted := none }
  i.modStream e fun st => { st with pc, popped := false, wait := none, pushing := none, ended := false }

/-- The machine with a word of a stream placed where core 0 fetches it next. -/
def State.placeWord (s : State) (e : Eng) (bytes : List Byte) : State :=
  let m := s.mach
  let m := m.setCore 0 { m.core 0 with resident := true, starting := false, preempt := false, inst := (m.inst 0).aimed e }
  let m := m.modCtx 0 fun x => { x with st := .running, owner := 0, ptroot := placedTables }
  let m := m.putTables.store (placedFrame + placedPc) bytes
  { pwr := { s.pwr with st := .active }
    mach := { m with agenda := [], cur := 0, agent := .stream e, moves := m.moves.filter fun v => v.ctx != 0 } }

end Sys2Proof.Machine
end

