-- ==== Sys2Proof/Machine/Step.lean ====
section
/-! DEFINITION. One step of the machine: the next step of the agenda, or else the turn of a stream or engine and
the cycle that it takes; and the placing of a word to be fetched. -/

namespace Sys2Proof.Machine
open Sys2Proof

/-- One step: what follows from what was done, or was brought from outside, comes first; then the agent whose turn it
is works, and a cycle passes. A module whose compute dies are not released does nothing of itself (R28). -/
def step (s : State) : Host.Outcome State Fault Refusal :=
  match s.mach.nextStep with
  | some (i, m) => exec i { s with mach := m }
  | none =>
    if !s.pwr.st.running then .next s
    else
      match s.turn with
      | .next t => .next t.tick
      | .fault r => .fault r
      | .refused r => .refused r

/-- The machine with an instruction's word stored where its next step fetches it: in the section of the stream that
decodeTableWord reads the word in, for an instance on core 0 whose turn it is (notes/assumptions/5.md). -/
def State.withFetchWord (s : State) (_nbits w : Nat) : State := s.placeWord (tableStream w) (bytesOf 4 w)

end Sys2Proof.Machine
end

