-- ==== Sys2Proof/Safety.lean ====
section
/-! DEFINITION. What counts as a safe run, in the terms that claims use. -/

namespace Sys2Proof.Safety
open Sys2Proof Sys2Proof.Machine

/-- The memory keeps its canonical form: keys strictly rising and no listed byte equal to 0, which is what an
unlisted key reads as (notes/assumptions/4.md). -/
def MemoryLegal (m : Mach) : Prop := Memory.wf m.mem = true

/-- The power limit stays in the range that R23 clamps it to. -/
def PowerLegal (p : Power) : Prop := 600 ≤ p.limit.toNat ∧ p.limit.toNat ≤ 2400

/-- The outcome is a next state: nothing stopped. -/
def Goes (o : Out) : Prop := ∃ t, o = .next t

end Sys2Proof.Safety
end

