-- ==== Sys2Proof/Certificates/Slice0/Obligations.lean ====
section
/-! DEFINITION. The statements for the provers, and before them the words they are stated in. -/

namespace Sys2Proof.Claims
open Sys2Proof Sys2Proof.Machine

/-- The instance of the core whose turn it is. -/
def inst (s : State) : Inst := s.mach.inst s.mach.cur

/-- S stands at a word that has not waited, so that no wait ends with it. -/
def Fresh (s : State) : Prop := s.seq.st.wait = none

/-- The two states differ at most in the instance of the core whose turn it is: memory, the other cores, contexts,
queues, launches and the module registers are as they were. -/
def OnlyInst (s t : State) : Prop := t = { s with mach := s.mach.setInst s.mach.cur (t.mach.inst s.mach.cur) }

/-- j is i after a completed word of S, with the sequencer q: the other engines, FIFOs, tokens, FLAGS, generators,
arrival records and the scratchpad are as they were. A completed word forgets the fills it waited for, stalls on no page
any more and uses up the pass that a WATCH trap left it (R312, R347, R414). -/
def Worked (i : Inst) (q : Seq) (j : Inst) : Prop :=
  j = { i with
    s := { q with checking := false }
    pad := i.pad.forget .S
    dbg := { i.dbg with watchSkip := j.dbg.watchSkip, ran := j.dbg.ran } }

/-- The word completes and goes on to the next one, on a machine that its effect has made m: nothing else changes but
what every completed word of S leaves behind. -/
def Passes (s : State) (i : Instr) (m : Mach) : Prop :=
  ∃ t, exec i s = .next t ∧ t = { s with mach := m.setInst s.mach.cur (inst t) }
    ∧ Worked (m.inst s.mach.cur) (m.inst s.mach.cur).s.advance (inst t)

/-- As Passes, and the word writes v to s[d]: the physical register that d names holds v, a result for s0 is discarded
(R117, R118), and every other register keeps its value. -/
def GivesOn (s : State) (i : Instr) (m : Mach) (d : Reg) (v : W64) : Prop :=
  ∃ t, exec i s = .next t ∧ t = { s with mach := m.setInst s.mach.cur (inst t) }
    ∧ Worked (m.inst s.mach.cur) { (m.inst s.mach.cur).s.advance with regs := t.seq.regs } (inst t)
    ∧ ∀ r : Fin 32, t.seq.regs.get r =
        if d ≠ 0 ∧ r = physReg (m.inst s.mach.cur).s.rrb d then v else (m.inst s.mach.cur).s.regs.get r

/-- The word completes, writes v to s[d], goes on to the next word and changes nothing else: no other register, no
flag, CSR, special register or byte of memory. -/
def Gives (s : State) (i : Instr) (d : Reg) (v : W64) : Prop := GivesOn s i s.mach d v

/-- The word takes a trap of cause k with TVAL v, its own address in TPC and no effect of its own. -/
def Traps (s : State) (i : Instr) (k : Cause) (v : W64) : Prop :=
  exec i s = .next { s with mach := s.mach.takeTrap s.mach.cur .S k s.seq.st.pc v }

/-- 1 where a condition holds and 0 where it does not. -/
def oneIf (b : Bool) : W64 := if b then 1 else 0

/-- The instance with flags raised in S's copy and with S's generator in a state (R72, R82). -/
def withFloat (i : Inst) (fl : BitVec 6) (g : W32) : Inst :=
  { i with flags := vset i.flags 0 (i.flags.get 0 ||| fl), gens := vset i.gens 0 g }

/-- The machine with the instance of the core whose turn it is. -/
def withInst (s : State) (i : Inst) : Mach := s.mach.setInst s.mach.cur i

/-- The word writes v and raises flags, or, where TRAPEN enables one of them, takes ARITH with every flag it would
raise and writes nothing (R84, R129). -/
def GivesOrTraps (s : State) (i : Instr) (d : Reg) (v : W64) (fl : BitVec 6) (g : W32) : Prop :=
  if fl &&& s.seq.trapen = 0 then GivesOn s i (withInst s (withFloat (inst s) fl g)) d v
  else Traps s i .arith (fl.setWidth 64)

/-- The word gives the FP32 rounding of an exact value in the mode of RMODE, never saturating, with the draw of
generator 0 under SR (R74, R129); bits [63:32] are zero. -/
def GivesRounded (s : State) (i : Instr) (d : Reg) (v : XNum × BitVec 6) : Prop :=
  let r := roundFmt v.1 .fp32 s.seq.mode false ((inst s).gens.get 0)
  GivesOrTraps s i d (BitVec.ofNat 64 r.1.code) (r.1.flags ||| v.2) r.2

/-- The word completes and S goes to an address as a taken branch does (R132). -/
def Jumps (s : State) (i : Instr) (t : W64) : Prop :=
  ∃ u, exec i s = .next u ∧ u = { s with mach := withInst s (inst u) } ∧ Worked (inst s) (s.seq.jump t) (inst u)

/-- The word is the last word of an active body. -/
def AtBodyEnd (q : Seq) : Prop := ∃ n ∈ q.order, (q.loops.get n).stop = q.st.pc

/-- S is left with the sequencer q, and nothing else changes. -/
def Becomes (s : State) (i : Instr) (q : Seq) : Prop :=
  ∃ u, exec i s = .next u ∧ u = { s with mach := withInst s (inst u) } ∧ Worked (inst s) q (inst u)

end Sys2Proof.Claims

open Sys2Proof Sys2Proof.Machine Sys2Proof.Claims

/-- R126: the arithmetic, logic, shift and comparison words of the integer group. -/
def Sys2Proof.Claims.IntegerGroup : Prop :=
  ∀ (s : State) (d a b : Reg), Fresh s →
    let x := s.seq.get a
    let y := s.seq.get b
    Gives s (.add d a b) d (x + y) ∧ Gives s (.sub d a b) d (x - y) ∧ Gives s (.mul d a b) d (x * y)
    ∧ Gives s (.mulh d a b) d (((x.signExtend 128 * y.signExtend 128) >>> 64).setWidth 64)
    ∧ Gives s (.mulhu d a b) d (((x.setWidth 128 * y.setWidth 128) >>> 64).setWidth 64)
    ∧ Gives s (.div d a b) d (if y = 0 then -1 else x.sdiv y)
    ∧ Gives s (.divu d a b) d (if y = 0 then BitVec.allOnes 64 else x / y)
    ∧ Gives s (.rem d a b) d (if y = 0 then x else x - y * x.sdiv y)
    ∧ Gives s (.remu d a b) d (if y = 0 then x else x % y)
    ∧ Gives s (.and d a b) d (x &&& y) ∧ Gives s (.or d a b) d (x ||| y) ∧ Gives s (.xor d a b) d (x ^^^ y)
    ∧ Gives s (.shl d a b) d (x <<< (y % 64)) ∧ Gives s (.shr d a b) d (x >>> (y % 64))
    ∧ Gives s (.sra d a b) d (x.sshiftRight' (y % 64))
    ∧ Gives s (.slt d a b) d (oneIf (decide (x.toInt < y.toInt))) ∧ Gives s (.sltu d a b) d (oneIf (decide (x < y)))
    ∧ Gives s (.min d a b) d (BitVec.ofInt 64 (min x.toInt y.toInt))
    ∧ Gives s (.max d a b) d (BitVec.ofInt 64 (max x.toInt y.toInt))
    ∧ Gives s (.minu d a b) d (BitVec.ofNat 64 (min x.toNat y.toNat))
    ∧ Gives s (.maxu d a b) d (BitVec.ofNat 64 (max x.toNat y.toNat))

/-- R126: the words that look at bits. BFX and BFI take position s[b][5:0], width s[b][14:8] and sign flag s[b][15];
we is the number of bits that exist. -/
def Sys2Proof.Claims.BitWords : Prop :=
  ∀ (s : State) (d a b : Reg), Fresh s →
    let x := s.seq.get a
    let y := s.seq.get b
    let pos := (y.extractLsb' 0 6).toNat
    let we := min (y.extractLsb' 8 7).toNat (64 - pos)
    let field := x.extractLsb' pos we
    (∃ n ≤ 64, Gives s (.clz d a) d (BitVec.ofNat 64 n) ∧ (∀ k < 64, 64 - n ≤ k → x.getLsbD k = false)
      ∧ (n < 64 → x.getLsbD (63 - n) = true))
    ∧ Gives s (.popc d a) d (BitVec.ofNat 64 (∑ k : Fin 64, (x.getLsbD k.val).toNat))
    ∧ Gives s (.bfx d a b) d (if we = 0 then 0 else if y.getLsbD 15 then field.signExtend 64 else field.setWidth 64)
    ∧ ∃ v, Gives s (.bfi d a b) d v
      ∧ ∀ k < 64, v.getLsbD k = if pos ≤ k ∧ k < pos + we then x.getLsbD (k - pos) else (s.seq.get d).getLsbD k

/-- R127 and R128: the immediate words, LUI and APC. -/
def Sys2Proof.Claims.ImmediateWords : Prop :=
  ∀ (s : State) (d a : Reg) (imm : BitVec 15) (sh : BitVec 6) (up : BitVec 20), Fresh s →
    let x := s.seq.get a
    let i := imm.signExtend 64
    Gives s (.addi d a imm) d (x + i) ∧ Gives s (.andi d a imm) d (x &&& i) ∧ Gives s (.ori d a imm) d (x ||| i)
    ∧ Gives s (.xori d a imm) d (x ^^^ i) ∧ Gives s (.shli d a sh) d (x <<< sh) ∧ Gives s (.shri d a sh) d (x >>> sh)
    ∧ Gives s (.srai d a sh) d (x.sshiftRight' sh)
    ∧ Gives s (.slti d a imm) d (oneIf (decide (x.toInt < i.toInt))) ∧ Gives s (.sltui d a imm) d (oneIf (decide (x < i)))
    ∧ Gives s (.lui d up) d (up.signExtend 64 * 4096) ∧ Gives s (.apc d up) d (s.seq.st.pc + up.signExtend 64 * 4096)

/-- R117 and R118: s0 reads as zero, s1–s15 are physical registers 1–15, and s(16 + k) is 16 + ((k − RRB) mod 16). -/
def Obligations.RegisterMapping : Prop :=
  ∀ (q : Seq) (r : Reg), q.get 0 = 0 ∧ (r ≠ 0 → q.get r = q.regs.get (physReg q.rrb r))
    ∧ (r.val < 16 → physReg q.rrb r = r)
    ∧ ∀ k : Nat, k < 16 → r.val = 16 + k → ((physReg q.rrb r).val : Int) = 16 + ((k : Int) - q.rrb.toNat) % 16

/-- R129: the FP32 words that round. -/
def Sys2Proof.Claims.FloatWords : Prop :=
  ∀ (s : State) (d a b : Reg), Fresh s →
    let x := s.seq.fp a
    let y := s.seq.fp b
    let z := s.seq.fp d
    let m := s.seq.mode
    let g := (inst s).gens.get 0
    GivesRounded s (.fadd d a b) d (addNum x y m) ∧ GivesRounded s (.fsub d a b) d (addNum x (negNum y) m)
    ∧ GivesRounded s (.fmul d a b) d (mulNum x y) ∧ GivesRounded s (.ffma d a b) d (fmaNum x y z m)
    ∧ GivesRounded s (.fcvtf d a) d (numOfInt (s.seq.get a), 0)
    ∧ GivesRounded s (.fexp2 d a) d (exp2Num x) ∧ GivesRounded s (.flog2 d a) d (log2Num x)
    ∧ GivesRounded s (.frcp d a) d (rcpNum x)
    ∧ (let g' := if m = .sr then xorshift g else g
       let c := cvtInt x m (g'.toNat / 65536)
       GivesOrTraps s (.fcvti d a) d c.1 c.2 g')

/-- R78: FMIN and FMAX return one of their operands unchanged, with −0 below +0, or the canonical NaN; the comparisons
give 1 or 0 and are false on a NaN. None raises a flag or takes a draw. -/
def Sys2Proof.Claims.FloatSelection : Prop :=
  ∀ (s : State) (d a b : Reg), Fresh s →
    let cx := (s.seq.get a).toNat % 2 ^ 32
    let cy := (s.seq.get b).toNat % 2 ^ 32
    let x := s.seq.fp a
    let y := s.seq.fp b
    let nan := x = .nan ∨ y = .nan
    (nan → Gives s (.fmin d a b) d 0x7FC00000 ∧ Gives s (.fmax d a b) d 0x7FC00000 ∧ Gives s (.fceq d a b) d 0
      ∧ Gives s (.fclt d a b) d 0 ∧ Gives s (.fcle d a b) d 0)
    ∧ (¬nan → cmpNum x y = .lt → Gives s (.fmin d a b) d (BitVec.ofNat 64 cx) ∧ Gives s (.fmax d a b) d (BitVec.ofNat 64 cy)
      ∧ Gives s (.fceq d a b) d 0 ∧ Gives s (.fclt d a b) d 1 ∧ Gives s (.fcle d a b) d 1)
    ∧ (¬nan → cmpNum x y = .gt → Gives s (.fmin d a b) d (BitVec.ofNat 64 cy) ∧ Gives s (.fmax d a b) d (BitVec.ofNat 64 cx)
      ∧ Gives s (.fceq d a b) d 0 ∧ Gives s (.fclt d a b) d 0 ∧ Gives s (.fcle d a b) d 0)
    ∧ (¬nan → cmpNum x y = .eq → Gives s (.fceq d a b) d 1 ∧ Gives s (.fclt d a b) d 0 ∧ Gives s (.fcle d a b) d 1
      ∧ Gives s (.fmin d a b) d (BitVec.ofNat 64 (if cx = 2 ^ 31 then cx else cy))
      ∧ Gives s (.fmax d a b) d (BitVec.ofNat 64 (if cx = 2 ^ 31 then cy else cx)))

/-- R74: a finite value of a format is rounded to itself in every mode and raises nothing. -/
def Obligations.RoundingKeepsValues : Prop :=
  ∀ (f : Fmt) (c : Nat) (mode : RMode) (sat : Bool) (rnd : Nat), c < 2 ^ f.width → rnd < 65536 →
    (∃ neg m e, (decodeFloat f c).1 = .exact neg m e) → roundCore (decodeFloat f c).1 f mode sat rnd none = ⟨c, 0⟩

/-- R134: the loop-end event, which the word at the end of the innermost active body carries. -/
def Sys2Proof.Claims.LoopEnd : Prop :=
  ∀ (q : Seq) (n : Fin 4) (rest : List (Fin 4)), q.handler = false → q.order = n :: rest → (q.loops.get n).stop = q.st.pc →
    let l := q.loops.get n
    let t := q.advance
    (∀ k < 8, t.preds.getLsbD k =
      if l.stg then (if k = 0 then decide ((l.stages.toNat : Int) ≤ (l.lcnt.toNat : Int) - 1) else q.preds.getLsbD (k - 1))
      else q.preds.getLsbD k)
    ∧ t.rrb = (if l.rot then q.rrb + 1 else q.rrb) ∧ t.regs = q.regs
    ∧ (∀ k, k ≠ n → t.loops.get k = q.loops.get k)
    ∧ (l.lcnt.toNat ≤ 1 → t.loops.get n = { l with active := false, lcnt := 0 } ∧ t.order = rest ∧ t.st.pc = l.stop + 4)
    ∧ (1 < l.lcnt.toNat → t.loops.get n = { l with lcnt := l.lcnt - 1 } ∧ t.order = q.order ∧ t.st.pc = l.start)

/-- R134, R144: a word that is not the last word of the innermost active body, or that the handler runs, carries no
loop-end event and goes on to the next word. -/
def Sys2Proof.Claims.NoLoopEnd : Prop :=
  ∀ q : Seq, (q.handler = true ∨ ∀ n, q.order.head? = some n → (q.loops.get n).stop ≠ q.st.pc) →
    q.advance = { q with st := { q.st with pc := q.st.pc + 4 }, looped := false }

/-- R132: a jump leaves every active level whose body does not contain the target; in the handler it leaves none
(R144). -/
def Sys2Proof.Claims.JumpLeavesLoops : Prop :=
  ∀ (q : Seq) (t : W64),
    let u := q.jump t
    u.st.pc = t ∧ u.regs = q.regs ∧ u.rrb = q.rrb ∧ u.preds = q.preds
    ∧ (q.handler = true → u.loops = q.loops ∧ u.order = q.order)
    ∧ (q.handler = false → ∀ n : Fin 4,
        let l := q.loops.get n
        let inside := l.start ≤ t ∧ t ≤ l.stop
        (n ∈ u.order ↔ n ∈ q.order ∧ inside)
        ∧ u.loops.get n = if n ∈ q.order ∧ ¬inside then { l with active := false, lcnt := 0 } else l)

/-- R130, R131: the branches and jumps, where they are not the last word of an active body. -/
def Sys2Proof.Claims.BranchesAndJumps : Prop :=
  ∀ (s : State) (a b d : Reg) (g : Fin 8) (off : BitVec 15) (far : BitVec 20), Fresh s → ¬AtBodyEnd s.seq →
    let x := s.seq.get a
    let y := s.seq.get b
    let pc := s.seq.st.pc
    let near := pc + off.signExtend 64 * 4
    let branch := fun (i : Instr) (taken : Prop) => (taken → Jumps s i near) ∧ (¬taken → Becomes s i s.seq.advance)
    branch (.beq a b off) (x = y) ∧ branch (.bne a b off) (x ≠ y)
    ∧ branch (.blt a b off) (x.toInt < y.toInt) ∧ branch (.bge a b off) (y.toInt ≤ x.toInt)
    ∧ branch (.bltu a b off) (x.toNat < y.toNat) ∧ branch (.bgeu a b off) (y.toNat ≤ x.toNat)
    ∧ branch (.bpred g off) (s.seq.preds.getLsbD g.val = true)
    ∧ Becomes s (.jal d far) ((s.seq.put d (pc + 4)).jump (pc + far.signExtend 64 * 4))
    ∧ (let t := x + off.signExtend 64
       (t.extractLsb' 0 2 = 0 → Becomes s (.jalr d a off) ((s.seq.put d (pc + 4)).jump t))
       ∧ (t.extractLsb' 0 2 ≠ 0 → Traps s (.jalr d a off) .misaligned t))

/-- R133: LOOP and LOOPI start a level that is not active, inside the innermost active body only where it nests. With
N = 0 nothing changes but the PC. -/
def Sys2Proof.Claims.LoopWords : Prop :=
  ∀ (s : State) (n : Fin 4) (rot stg : Bool) (r : Reg) (len : BitVec 16) (imm : BitVec 12) (len' : BitVec 9),
    let q := s.seq
    let starts := fun (i : Instr) (count bytes : Nat) =>
      let stop := q.st.pc + BitVec.ofNat 64 bytes
      (∀ k rest, q.order = k :: rest → (q.loops.get k).contains q.st.pc → stop < (q.loops.get k).stop) →
        (count = 0 → Becomes s i { q with st := { q.st with pc := stop + 4 }, looped := false })
        ∧ (0 < count → ∃ t : Seq, Becomes s i t ∧ t.st = { q.st with pc := q.st.pc + 4 } ∧ t.order = n :: q.order
          ∧ (∀ k, k ≠ n → t.loops.get k = q.loops.get k) ∧ t.regs = q.regs
          ∧ (t.loops.get n).active = true ∧ (t.loops.get n).start = q.st.pc + 4 ∧ (t.loops.get n).stop = stop
          ∧ (t.loops.get n).rot = rot ∧ (t.loops.get n).stg = stg
          ∧ (t.loops.get n).lcnt = BitVec.ofNat 40 (if stg then count + q.lstages.toNat - 1 else count)
          ∧ (stg = true → (t.loops.get n).stages = q.lstages)
          ∧ t.preds = (if stg then 1 else q.preds) ∧ t.rrb = if rot then 0 else q.rrb)
    Fresh s → ¬AtBodyEnd q → q.handler = false → (q.loops.get n).active = false →
      ((q.get r).toNat < 2 ^ 32 → starts (.loop n rot stg r len) (q.get r).toNat (4 * len.toNat))
      ∧ starts (.loopi n rot stg imm len') imm.toNat (4 * len'.toNat)

/-- R136: LEAVE n takes level n and every level that became active after it out of the loop state. -/
def Sys2Proof.Claims.LeaveLevels : Prop :=
  ∀ (s : State) (n : Fin 4) (inner outer : List (Fin 4)),
    let q := s.seq
    Fresh s → ¬AtBodyEnd q → q.handler = false → (q.loops.get n).active = true → q.order = inner ++ n :: outer →
    q.order.Nodup →
      ∃ t : Seq, Becomes s (.leave n) t ∧ t.order = outer ∧ t.st = { q.st with pc := (q.loops.get n).stop + 4 }
        ∧ t.regs = q.regs ∧ t.rrb = q.rrb ∧ t.preds = q.preds
        ∧ ∀ k, t.loops.get k = if k = n ∨ k ∈ inner then { q.loops.get k with active := false, lcnt := 0 } else q.loops.get k

/-- R135: the loop structure is checked before a word has any effect, and a breach traps ILLEGAL with bit 34 of TVAL
set above the word. -/
def Sys2Proof.Claims.LoopStructure : Prop :=
  ∀ (s : State) (n : Fin 4) (rot stg : Bool) (a b d r : Reg) (g : Fin 8) (off : BitVec 15) (far : BitVec 20)
      (len : BitVec 16) (imm : BitVec 12) (len' : BitVec 9),
    let q := s.seq
    let breach := fun (i : Instr) => ∀ e w, encode i = some (e, w) → Traps s i .illegal (BitVec.ofNat 64 (w + 2 ^ 34))
    let loop := Instr.loop n rot stg r len
    let loopi := Instr.loopi n rot stg imm len'
    (AtBodyEnd q →
      breach (.beq a b off) ∧ breach (.bne a b off) ∧ breach (.blt a b off) ∧ breach (.bge a b off)
      ∧ breach (.bltu a b off) ∧ breach (.bgeu a b off) ∧ breach (.bpred g off) ∧ breach (.jal d far)
      ∧ breach (.jalr d a off) ∧ breach loop ∧ breach loopi ∧ breach (.leave n) ∧ breach .exit ∧ breach (.svc far)
      ∧ breach .tret ∧ breach (.brk far))
    ∧ ((q.loops.get n).active = true → breach loop ∧ breach loopi)
    ∧ ((q.loops.get n).active = false → breach (.leave n))
    ∧ (q.handler = true → breach loop ∧ breach loopi ∧ breach (.leave n))
    ∧ (2 ^ 32 ≤ (q.get r).toNat → breach loop)
    ∧ ∀ k rest, q.order = k :: rest → (q.loops.get k).contains q.st.pc →
        ((q.loops.get k).stop ≤ q.st.pc + BitVec.ofNat 64 (4 * len.toNat) → breach loop)
        ∧ ((q.loops.get k).stop ≤ q.st.pc + BitVec.ofNat 64 (4 * len'.toNat) → breach loopi)


/-- Table 2.11, R126, R128, R129, R137, R138 and others: words that the spec writes out decode to the instructions
they stand for, and the V word 0x22C408B1 is another word in S and none in M. -/
def Obligations.DecodeSpecWords : Prop :=
  decode .S 0x50322010 = .ok (.ld 3 4 2 0x010) ∧ decode .S 0x32507FFD = .ok (.bne 5 0 0x7FFD)
  ∧ decode .S 0x4640C807 = .ok (.loopi 0 true false 100 7) ∧ decode .S 0x5863A102 = .ok (.amo 6 7 8 .min .rlx .sg)
  ∧ decode .S 0x94400300 = .ok (.csrr 4 0x060) ∧ decode .S 0x02952C01 = .ok (.sub 9 10 11)
  ∧ decode .S 0x22512345 = .ok (.lui 5 0x12345) ∧ decode .S 0x04429803 = .ok (.ffma 4 5 6)
  ∧ decode .S 0x92000000 = .ok .tret ∧ decode .S 0x7A000000 = .ok .yield
  ∧ decode .V 0x22C408B1 = .ok (.vadd { sync := ⟨2, 3⟩, mask := 3, ra := false, rb := false, zero := true } 2 (.view 0) (.port 1))
  ∧ decode .M 0x4A300000 = .ok (.mgo ⟨1, 0⟩ 2) ∧ decode .X 0x11200005 = .ok (.xcpy ⟨0, 2⟩ 2 5)
  ∧ (∃ d imm, decode .S 0x22C408B1 = .ok (.lui d imm)) ∧ (∃ r, decode .M 0x22C408B1 = .error r)

/-- R35, R42–R50: the word of an instruction that the encodings admit decodes, in its stream, to that instruction. -/
def Obligations.DecodeEncode : Prop :=
  ∀ (i : Instr) (e : Eng) (w : Nat), i.wf = true → encode i = some (e, w) → w < 2 ^ 32 ∧ decode e w = .ok i

/-- R35, R42–R50: what a word decodes to is an instruction that the encodings admit, and its word is that word: no
bit of a word is dropped, and no two words mean one instruction. -/
def Obligations.EncodeDecode : Prop :=
  ∀ (e : Eng) (w : Nat) (i : Instr), w < 2 ^ 32 → decode e w = .ok i → i.wf = true ∧ encode i = some (e, w)

/-- R7, R31–R36: a step takes the agenda's oldest step of those that no other goes before; with an empty agenda the
stream whose turn it is fetches the word at its program counter, in its own section and through its context's tables,
decodes it and runs it, and a cycle passes. A word that is not an instruction traps ILLEGAL, a fetch outside the section,
or from a page that is not mapped, not executable or not resident, PROTECTION; a page that is arriving is waited for.
That work stands on an agenda is the model's choice (assumption log, entry 1), and so are that a fetch walks the tables
(entry 7) and that a fetched word counts as a request (entry 113). -/
def Obligations.StepRunsDecoded : Prop :=
  ∀ (s : State) (e : Eng) (p : Page) (i : Instr) (t : State),
    let c := s.mach.cur
    let st := (inst s).stream e
    let k : Fin 4 := Fin.ofNat 4 (engCode e)
    let base := ((inst s).id.secBase.get k).toNat
    let pc := st.pc.toNat
    let inside := base ≤ pc ∧ pc < base + 4 * (inst s).id.secLen.get k
    let w := leNat (s.mach.bytes (s.mach.pageKey p pc) 4)
    let found := s.mach.walk (inst s).id.ctx.val pc
    let arrives := p.mode = 3 ∨ s.mach.moving p = true
    let counted := s.mach.countRequest (dieOf c) p
    let fetched := if p.mode = 2 then counted.2 else s.mach
    let then' := fun (m : Mach) (i : Instr) => exec i { s with mach := m } = .next t → step s = .next t.tick
    let denied := then' s.mach (.trapEntry c e .protection st.pc st.pc)
    (∀ before after, s.mach.agenda = before ++ i :: after → (∀ x ∈ before, goesBefore i x = true) →
        (∀ x ∈ after, goesBefore x i = false) → step s = exec i { s with mach := { s.mach with agenda := before ++ after } })
    ∧ (s.mach.agenda = [] → s.pwr.st.running = true → s.mach.agent = .stream e → s.mach.agentReady c (.stream e) = true →
        st.wait = none →
          (inside → found = some p → p.x = true → ¬arrives → p.p = true → s.mach.pageWay (dieOf c) p pc = true →
              (p.mode = 2 → counted.1 = false) → s.mach.pageKey p pc / 64 ∉ s.mach.poison →
            (decode e w = .ok i → then' fetched i)
            ∧ ∀ r, decode e w = .error r →
                then' fetched (.trapEntry c e .illegal st.pc (BitVec.ofNat 64 (w % 2 ^ 32 + engCode e * 2 ^ 32))))
          ∧ (¬inside → denied) ∧ (inside → found = none → denied) ∧ (inside → found = some p → p.x = false → denied)
          ∧ (inside → found = some p → p.x = true → ¬arrives → p.p = false → denied)
          ∧ (inside → found = some p → p.x = true → p.mode < 3 → s.mach.moving p = true →
              (∀ v ∈ s.mach.moves, v.dead = []) → ∃ m, step s = .next ({ s with mach := m } : State).tick
                ∧ m = { s.mach with moves := m.moves }))

/-- R122: the cycle that follows a turn adds one to CYCLE and changes no module register, no memory, of a context only
the units that requests held at a stack are charged, and of an instance only the debugger's requests; what has fallen due
joins the agenda.
That a cycle passes after each turn is the model's choice (entries 1 and 106). -/
def Obligations.CyclePasses : Prop :=
  ∀ s : State,
    let t := s.tick
    t.pwr = s.pwr ∧ t.mach.cycle = s.mach.cycle + 1 ∧ t.mach.mem = s.mach.mem
    ∧ (∀ n, t.mach.ctx n = { s.mach.ctx n with act := (t.mach.ctx n).act })
    ∧ ((∀ h, (s.mach.hbm.get h).held = []) → t.mach.ctxs = s.mach.ctxs)
    ∧ t.mach.queues = s.mach.queues ∧ (∃ l, t.mach.agenda = s.mach.agenda ++ l)
    ∧ (∀ x ∈ s.mach.timers, x.1 ≤ s.mach.cycle + 1 → x.2 ∈ t.mach.agenda)
    ∧ ∀ c, (t.mach.core c).resident = (s.mach.core c).resident
        ∧ t.mach.inst c = { s.mach.inst c with dbg := (t.mach.inst c).dbg }

/-- What the spec says of the module after reset: R23, R26, R28, R72, R119, R124, R249, R269, R302, R303, R309, R352,
R370, R389, R399, R406.
Only values that the spec gives are stated; the fields that entry 3 chooses are not among them. -/
def Obligations.ResetState : Prop :=
  let s := State.reset
  let m := s.mach
  s.pwr.st = .booting ∧ s.pwr.modthr = 0 ∧ s.pwr.limit = 2400 ∧ s.pwr.haltTh = false ∧ s.pwr.haltPw = false
  ∧ (∀ d, s.pwr.dieThr.get d = 0) ∧ m.mem = [] ∧ m.jtagPriv = false ∧ m.cycle = 0
  ∧ (∀ c, (m.core c).resident = false) ∧ (∀ n, (m.ctx n).st = .free) ∧ (∀ f q, (m.queue f q).st = .unconfigured)
  ∧ (∀ l, (m.gw.get l).st = .down) ∧ (∀ l, (m.ucie.get l).st = .down) ∧ (∀ d, (m.die d).waitSwap = 65536)
  ∧ (∀ c,
      let i := m.inst c
      (∀ k, i.gens.get k = seedState 0 k.val) ∧ i.s.lstages = 1 ∧ i.s.spinLimit = 32 ∧ i.s.spinCount = 0
      ∧ i.s.ten = 0 ∧ i.s.prefetch = 65536 ∧ (∀ r, i.s.get r = 0) ∧ i.s.handler = false ∧ i.s.order = []
      ∧ (∀ k, i.toks.get k = 0))
  ∧ m.launches = [] ∧ m.exchs = [] ∧ m.redSlots = [] ∧ m.poison = []

/-- The power limit is legal after reset (R23). -/
def Obligations.PowerLegalAtReset : Prop := Safety.PowerLegal State.reset.pwr

/-- R23: whatever a step does, PLIMIT stays in the range that a write to it is clamped to, 600 W to 2,400 W. -/
def Obligations.PowerStaysLegal : Prop :=
  ∀ s t : State, Safety.PowerLegal s.pwr → step s = .next t → Safety.PowerLegal t.pwr

/-- R26–R28, R423 and the rules of the cores out of service: only these steps change the module block; in particular
no word of a program does, whatever it is. -/
def Obligations.WhoChangesPower : Prop :=
  ∀ (i : Instr) (s t : State), exec i s = .next t → t.pwr ≠ s.pwr →
    (∃ ok, i = .modEnAssert ok) ∨ i = .powerOff ∨ i = .cxlFundamentalReset ∨ (∃ b, i = .bootVerification b)
    ∨ (∃ w, i = .powerWindowEnd w) ∨ (∃ d c, i = .thermalSensorRead d c) ∨ (∃ h l c, i = .layerSensorRead h l c)
    ∨ (∃ w u, i = .powerOverrunStop w u) ∨ (∃ d l w u, i = .moduleResume d l w u)
    ∨ (∃ f lvl off v, i = .registerWrite f lvl off v) ∨ (∃ c ok save, i = .parityReplay c ok save)
    ∨ (∃ c, i = .lupinPlan c) ∨ (∃ c, i = .hlthRetire c)

/-- Every instruction completes on every state, but for a host access beyond the 768 GiB of HBM (R370, R397), which
faults. -/
def Obligations.EveryInstructionGoes : Prop :=
  ∀ (i : Instr) (s : State),
    ((∀ a w d, i = .cxlMemAccess a w d → a + d.length ≤ 768 * 2 ^ 30) → ∃ t, exec i s = .next t)
    ∧ ∀ a w d, i = .cxlMemAccess a w d → 768 * 2 ^ 30 < a + d.length → exec i s = .fault .noSuchAddress


namespace Sys2Proof.Claims

/-- The word that encodes an instruction, as a 64-bit number: the TVAL of the CSR words (R142). -/
def wordVal (i : Instr) (v : W64) : Prop := ∃ e w, encode i = some (e, w) ∧ v = BitVec.ofNat 64 w

/-- The word traps with its own encoding in TVAL and changes nothing (R142). -/
def TrapsWord (s : State) (i : Instr) (k : Cause) : Prop := ∃ v, wordVal i v ∧ Traps s i k v

/-- The numbers of Table 2.6. -/
def csrNumbers : List (BitVec 12) :=
  [0x001, 0x002, 0x003, 0x010, 0x011, 0x012, 0x013, 0x020, 0x021, 0x022, 0x023, 0x024, 0x025, 0x030, 0x031, 0x038, 0x039
    , 0x03A, 0x03B, 0x040, 0x041, 0x042, 0x043, 0x044, 0x045, 0x046, 0x047, 0x048, 0x049, 0x04A, 0x04B, 0x04C, 0x04D
    , 0x04E, 0x04F, 0x060, 0x070, 0x071, 0x072, 0x073, 0x074, 0x080, 0x081]

/-- The writable CSRs of Table 2.6 and the values that each accepts (R68, R71, R82, R118–R125, R303, R336). -/
def csrTakes (n : BitVec 12) (v : W64) : Prop :=
  (n = 0x001 ∧ v &&& 0xFFFFFFFFFFFFC0C0 = 0) ∨ (n = 0x002 ∧ v &&& 0xFFFFFFF8 = 0 ∧ v % 8 ≤ 4) ∨ (n = 0x003 ∧ v < 4)
  ∨ (n = 0x010 ∧ 0 < v ∧ v < 65536) ∨ (n = 0x030 ∧ 1 ≤ v ∧ v ≤ 8) ∨ (n = 0x031 ∧ v < 16)
  ∨ (n ∈ [0x038, 0x039, 0x03A, 0x03B] ∧ v < 2 ^ 40) ∨ (n ∈ [0x070, 0x072] ∧ v % 4 = 0)
  ∨ (n = 0x071 ∧ v &&& 0xFFFFFFFF9001FC00 = 0) ∨ n = 0x073 ∨ (n = 0x074 ∧ v < 65536)
  ∨ (n = 0x080 ∧ v % 4096 = 0 ∧ (v.extractLsb' 0 57).signExtend 64 = v) ∨ (n = 0x081 ∧ v < 2 ^ 21)

/-- The sequencer without what the writable CSRs other than FLAGS hold. -/
def noCsr (q : Seq) : Seq :=
  { q with
    rmode := 0, seed := 0, stsat := false, arsat := false, spinLimit := 0, lstages := 0, rrb := 0
    loops := q.loops.map fun l => { l with lcnt := 0 }
    tvec := 0, tcode := 0, tstrm := 0, ten := 0, tpc := 0, tval := 0
    rcol := 0, rrow := 0, rstrm := 0, rvalid := false, snr := false, scaleOff := 0, prefetch := 0 }

/-- What a CSR reads as on the core whose turn it is, once its instance is j. -/
def csrOf (s : State) (j : Inst) (n : BitVec 12) : Option W64 := (withInst s j).csrRead s.mach.cur n.toNat

/-- j is the instance with v in a CSR other than FLAGS: that CSR reads v, every other one reads as before but for the
penalty that SPIN_LIMIT changes (R303), a write to RMODE seeds the generators (R72), and nothing else is changed. -/
def csrWritten (s : State) (n : BitVec 12) (v : W64) (j : Inst) : Prop :=
  csrOf s j n = some v ∧ (∀ k, k ≠ n → ¬(n = 0x010 ∧ (k = 0x011 ∨ k = 0x012)) → csrOf s j k = csrOf s (inst s) k)
  ∧ noCsr j.s = noCsr s.seq ∧ j = { inst s with s := j.s, gens := j.gens }
  ∧ ∀ k, j.gens.get k = if n = 0x002 then seedState (v.extractLsb' 32 32) k.val else (inst s).gens.get k

/-- A trap taken by the machine of u, whose instance then is j, goes to the handler (R143, step 4): TCAUSE, TPC, TVAL,
the return point and the handler flag are set, S stands at TVEC, and the waits of all streams are abandoned. -/
def Delivered (i : Inst) (e : Eng) (k : Cause) (pc v : W64) (j : Inst) : Prop :=
  let at' := pc &&& ~~~3#64
  j = { i with
    s := { i.s with
      st := { i.s.st with pc := i.s.tvec, wait := none }
      looped := false, handler := true, checking := false, sret := if e = .S then at' else i.s.st.pc
      tcode := BitVec.ofNat 8 (causeCode k), tstrm := BitVec.ofNat 2 (engCode e), tpc := at', tval := v }
    v := { i.v with st := { i.v.st with wait := none } }
    m := { i.m with st := { i.m.st with wait := none }, record := none, sas := i.m.sas.map fun a => { a with idle := false } }
    x := { i.x with st := { i.x.st with wait := none }, wid := none }
    pad := { i.pad with outcomes := [] }
    source := .word
    dbg := { i.dbg with ran := j.dbg.ran, watchSkip := j.dbg.watchSkip } }

/-- The word of S completes, and u is the state it leaves. -/
def Passed (s u : State) : Prop :=
  u = { s with mach := withInst s (inst u) } ∧ Worked (inst s) s.seq.advance (inst u)

end Sys2Proof.Claims

/-- R142, R45 and Table 2.6: CSRR gives the value of the register the number names; a number of 0x100–0x3FF traps
PRIVILEGE and another that Table 2.6 does not list traps ILLEGAL. -/
def Sys2Proof.Claims.CsrReads : Prop :=
  ∀ (s : State) (d : Reg) (n : BitVec 12), Fresh s →
    let q := s.seq
    let i := inst s
    let c := s.mach.cur
    let reads := fun (n : BitVec 12) (v : Nat) => Gives s (.csrr d n) d (BitVec.ofNat 64 v)
    reads 0x002 (q.rmode.toNat + q.seed.toNat * 2 ^ 32) ∧ reads 0x003 (q.stsat.toNat + 2 * q.arsat.toNat)
    ∧ reads 0x010 q.spinLimit.toNat
    ∧ reads 0x011 (q.spinCount.toNat + 2 ^ 32 * min 8 (2 * (q.spinCount.toNat / q.spinLimit.toNat)))
    ∧ (let boost := (s.mach.ctx i.id.ctx.val).boost.val
       let pen := s.mach.teamPenalty i.id.launch i.id.run i.id.team
       reads 0x012 (i.id.prio + boost * 2 ^ 4 + pen * 2 ^ 8 + min 23 (i.id.prio + boost - pen) * 2 ^ 12))
    ∧ reads 0x013 i.id.gang ∧ reads 0x020 (i.id.num + i.id.run * 2 ^ 16 + i.id.tidx * 2 ^ 18)
    ∧ reads 0x021 (i.id.instn + i.id.tsize * 2 ^ 17) ∧ reads 0x022 c.val ∧ reads 0x023 (c.val / 12)
    ∧ reads 0x024 s.mach.pkg.toNat ∧ reads 0x025 (c.val / 4) ∧ reads 0x030 q.lstages.toNat ∧ reads 0x031 q.rrb.toNat
    ∧ (∀ k : Fin 4, reads (0x038 + BitVec.ofNat 12 k.val) (q.loops.get k).lcnt.toNat)
    ∧ (∀ k : Fin 8, reads (0x040 + BitVec.ofNat 12 k.val) (i.x.tdone.get k).toNat
        ∧ reads (0x048 + BitVec.ofNat 12 k.val) (i.x.tissue.get k).toNat)
    ∧ reads 0x060 s.mach.cycle ∧ reads 0x070 q.tvec.toNat
    ∧ reads 0x071 (q.tcode.toNat + q.tstrm.toNat * 2 ^ 8 + q.ten.toNat * 2 ^ 17) ∧ reads 0x072 q.tpc.toNat
    ∧ reads 0x073 q.tval.toNat
    ∧ reads 0x074 (q.rcol.toNat + q.rrow.toNat * 2 ^ 6 + q.rstrm.toNat * 2 ^ 12 + q.rvalid.toNat * 2 ^ 14 + q.snr.toNat * 2 ^ 15)
    ∧ reads 0x080 q.scaleOff.toNat ∧ reads 0x081 q.prefetch.toNat
    ∧ (0x100 ≤ n ∧ n ≤ 0x3FF → TrapsWord s (.csrr d n) .privilege)
    ∧ (¬(0x100 ≤ n ∧ n ≤ 0x3FF) → n ∉ csrNumbers → TrapsWord s (.csrr d n) .illegal)

/-- R118, R142: CSRW, CSRSET and CSRCLR on a CSR other than FLAGS, which takes the new value, write it for the next word;
CSRSET and CSRCLR give the old value, in the register that d names before the write.
That the old value goes to the register that d names before the write is the model's reading (entry 104). -/
def Sys2Proof.Claims.CsrWrites : Prop :=
  ∀ (s : State) (d a : Reg) (n : BitVec 12) (old : W64), Fresh s → n ≠ 0x001 → csrOf s (inst s) n = some old →
    let x := s.seq.get a
    let gives := fun (i : Instr) (v : W64) => ∃ j regs, csrWritten s n v j
      ∧ Passes s i (withInst s { j with s := { j.s with regs } })
      ∧ ∀ r : Fin 32, regs.get r = if d ≠ 0 ∧ r = physReg s.seq.rrb d then old else s.seq.regs.get r
    (csrTakes n x → ∃ j, csrWritten s n x j ∧ Passes s (.csrw n a) (withInst s j))
    ∧ (csrTakes n (old ||| x) → gives (.csrset d a n) (old ||| x))
    ∧ (csrTakes n (old &&& ~~~x) → gives (.csrclr d a n) (old &&& ~~~x))

/-- R142, R45, R5: a CSR word on a number out of Table 2.6, on a read-only CSR, or with a new value that the CSR
rejects traps with its own word in TVAL and changes nothing. -/
def Sys2Proof.Claims.CsrRejects : Prop :=
  ∀ (s : State) (d a : Reg) (n : BitVec 12) (old : W64), Fresh s →
    let x := s.seq.get a
    let all := fun (k : Cause) => TrapsWord s (.csrw n a) k ∧ TrapsWord s (.csrset d a n) k ∧ TrapsWord s (.csrclr d a n) k
    (0x100 ≤ n ∧ n ≤ 0x3FF → all .privilege)
    ∧ (¬(0x100 ≤ n ∧ n ≤ 0x3FF) → (∀ v, ¬csrTakes n v) → all .illegal)
    ∧ (csrOf s (inst s) n = some old →
        (¬csrTakes n x → ¬(0x100 ≤ n ∧ n ≤ 0x3FF) → TrapsWord s (.csrw n a) .illegal)
        ∧ (¬csrTakes n (old ||| x) → ¬(0x100 ≤ n ∧ n ≤ 0x3FF) → TrapsWord s (.csrset d a n) .illegal)
        ∧ (¬csrTakes n (old &&& ~~~x) → ¬(0x100 ≤ n ∧ n ≤ 0x3FF) → TrapsWord s (.csrclr d a n) .illegal))

/-- R82: FLAGS reads as the OR of the four copies with TRAPEN above them; CSRW writes S's copy and clears the others,
CSRSET sets bits in S's copy, CSRCLR clears bits in all four, and TRAPEN is written as any field. -/
def Sys2Proof.Claims.FlagsWords : Prop :=
  ∀ (s : State) (d a : Reg), Fresh s →
    let i := inst s
    let x := s.seq.get a
    let seen := i.flags.get 0 ||| i.flags.get 1 ||| i.flags.get 2 ||| i.flags.get 3
    let old : W64 := BitVec.ofNat 64 (seen.toNat + s.seq.trapen.toNat * 2 ^ 8)
    let put := fun (new : W64) (fl : Fin 4 → BitVec 6) =>
      withInst s { i with s := { i.s with trapen := new.extractLsb' 8 6 }, flags := Vector.ofFn fl }
    let lo := x.extractLsb' 0 6
    Gives s (.csrr d 0x001) d old
    ∧ (csrTakes 0x001 x → Passes s (.csrw 0x001 a) (put x fun k => if k = 0 then lo else 0))
    ∧ (csrTakes 0x001 (old ||| x) →
        GivesOn s (.csrset d a 0x001) (put (old ||| x) fun k => if k = 0 then i.flags.get 0 ||| lo else i.flags.get k) d old)
    ∧ (csrTakes 0x001 (old &&& ~~~x) →
        GivesOn s (.csrclr d a 0x001) (put (old &&& ~~~x) fun k => i.flags.get k &&& ~~~lo) d old)

/-- R143, steps 1, 2 and 4: a trap whose cause is enabled, taken while the handler flag is 0 and S has not ended, goes
to the handler; nothing of the module but the instance changes unless a wait of its streams is logged. -/
def Sys2Proof.Claims.TrapDelivered : Prop :=
  ∀ (s : State) (c : CoreId) (e : Eng) (k : Cause) (pc v : W64),
    let i := s.mach.inst c
    (s.mach.core c).resident = true → i.s.handler = false → i.s.st.ended = false → i.s.ten.getLsbD (causeCode k - 1) = true →
      ∃ t, exec (.trapEntry c e k pc v) s = .next t ∧ Delivered i e k pc v (t.mach.inst c)
        ∧ (∀ d, d ≠ c → t.mach.core d = s.mach.core d) ∧ t.mach.agenda = s.mach.agenda
        ∧ ((∀ e, (i.stream e).wait = none) → t = { s with mach := s.mach.setInst c (t.mach.inst c) })

/-- R143, step 3, R144, R288: a trap that EN does not enable, or that is taken in the handler or once S has ended,
parks the instance: it will be saved, its fault record posted and its team's other resident members pre-empted. TCAUSE,
TPC, TVAL and the PC keep their values. A BREAKPOINT or WATCH of a context that a debugger is attached to stops it
instead (R415).
That the work that follows is posted on an agenda is the model's choice (entry 1). -/
def Sys2Proof.Claims.TrapParked : Prop :=
  ∀ (s : State) (c : CoreId) (e : Eng) (k : Cause) (pc v : W64),
    let i := s.mach.inst c
    let info : TrapInfo :=
      { cause := k, eng := e, hflag := i.s.handler, pc, val := v, restart := i.s.restart, cycle := s.mach.cycle }
    let x := s.mach.ctx i.id.ctx.val
    let debugged := (k = .breakpoint ∨ k = .watch) ∧ x.attached = true
    (s.mach.core c).resident = true → (i.s.handler = true ∨ i.s.st.ended = true ∨ i.s.ten.getLsbD (causeCode k - 1) = false) →
      ∃ t, exec (.trapEntry c e k pc v) s = .next t
        ∧ (let j := t.mach.inst c
           j.s = { i.s with st := { i.s.st with wait := none }, checking := false } ∧ j.id = i.id ∧ j.v.tile = i.v.tile ∧ j.m.acc = i.m.acc
           ∧ j.flags = i.flags ∧ j.gens = i.gens ∧ j.toks = i.toks ∧ j.pad.bytes = i.pad.bytes
           ∧ (¬debugged → j.faulted = some info
              ∧ ∃ mates : List CoreId, t.mach.agenda =
                  s.mach.agenda ++ [.coreReleased c, .faultRecord i.id.ctx i.id.uid c info] ++ mates.map .preemptionRequest
                ∧ ∀ b, b ∈ mates ↔ b ≠ c ∧ (s.mach.core b).resident = true
                    ∧ (s.mach.inst b).id.launch = i.id.launch ∧ (s.mach.inst b).id.run = i.id.run
                    ∧ (s.mach.inst b).id.team = i.id.team)
           ∧ (debugged → j.faulted = i.faulted ∧ j.dbg.stopped = true
              ∧ (t.mach.queue x.owner x.fqueue).held = (s.mach.queue x.owner x.fqueue).held
                  ++ [⟨faultBytes 4 i.id.ctx i.id.num i.id.run i.id.tidx c info 0, some i.id.ctx⟩]))

/-- R143, R146, R147, R413: SVC completes and then traps with TPC at the next word, BRK traps BREAKPOINT with its code
in TVAL, and TRET ends the handler: S goes on at TPC when it trapped and at the return point otherwise, and then the
stream that trapped stands at TPC. Outside the handler TRET traps ILLEGAL. -/
def Sys2Proof.Claims.TrapWords : Prop :=
  ∀ (s : State) (code : BitVec 20), Fresh s → ¬AtBodyEnd s.seq →
    let q := s.seq
    let c := s.mach.cur
    let e : Eng := if q.tstrm = 0 then .S else if q.tstrm = 1 then .V else if q.tstrm = 2 then .M else .X
    (∃ u, Passed s u ∧ exec (.svc code) s =
        .next { u with mach := u.mach.takeTrap c .S .svc (q.st.pc + 4) (code.setWidth 64) })
    ∧ Traps s (.brk code) .breakpoint (code.setWidth 64)
    ∧ (q.handler = false → TrapsWord s .tret .illegal)
    ∧ (q.handler = true → ∃ t, exec .tret s = .next t ∧ t = { s with mach := withInst s (inst t) }
        ∧ (inst t).s = ({ q with handler := false } : Seq).jump (if e = .S then q.tpc else q.sret)
        ∧ (inst t).flags = (inst s).flags ∧ (inst t).toks = (inst s).toks ∧ (inst t).pad = (inst s).pad
        ∧ (∀ f, f ≠ .S → f ≠ e → (inst t).stream f = (inst s).stream f)
        ∧ ((inst s).source = .word → e ≠ .S → ((inst t).stream e).pc = q.tpc
            ∧ ((inst t).stream e).popped = (((inst s).stream e).popped && ((inst s).stream e).pc == q.tpc))
        ∧ (∀ a, (inst s).source = .nest → (inst s).m.active = some a →
            (q.tpc = a.mgo → (inst t).m.fault = none)
            ∧ (q.tpc ≠ a.mgo → (inst t).m.fault =
                some (if (inst s).m.fault = some .status then .unrecorded else .abandoned)))
        ∧ ∀ ch id x, (inst s).source = .transfer ch id → x ∈ (inst s).x.xfers → x.ch = ch → x.id = id → x.state = .faulted →
            { x with state := if x.pc = q.tpc then .running else .abandoned } ∈ (inst t).x.xfers)


namespace Sys2Proof.Claims

/-- The word takes a trap, TPC at the word, on a machine m. -/
def TrapsOn (s : State) (i : Instr) (m : Mach) (k : Cause) (v : W64) : Prop :=
  exec i s = .next { s with mach := m.takeTrap s.mach.cur .S k s.seq.st.pc v }

/-- The machine m with S of the core whose turn it is waiting at the word. -/
def waiting (s : State) (i : Instr) (m : Mach) (k : WaitKind) : Mach :=
  m.modInst s.mach.cur fun j => { j with s := { j.s with st := { j.s.st with wait := some ⟨k, m.cycle, i⟩ } } }

/-- The word waits, with no other effect on the machine m. -/
def Stalls (s : State) (i : Instr) (m : Mach) (k : WaitKind) : Prop := exec i s = .next { s with mach := waiting s i m k }

/-- The word begins a spinning wait: it is tested again 64 cycles later, and only then (R302). -/
def Spins (s : State) (i : Instr) (m : Mach) (k : WaitKind) : Prop :=
  exec i s = .next { s with mach := { waiting s i m k with
    timers := (m.timers.filter fun t => t.2 ≠ .spinRecheck s.mach.cur) ++ [(m.cycle + 64, .spinRecheck s.mach.cur)] } }

/-- An access of a stream of the core whose turn it is, at a translated address, finds the page p; m is the machine with
what the lookup has cached, counted and prefetched (R331–R337). -/
def Reaches (s : State) (m0 : Mach) (who : PStream) (va tv : Nat) (need : Right) (p : Page) (m : Mach) : Prop :=
  (translate s.mach.cur who va tv need).go m0 = (.ok p, m)

/-- The number that nb bytes from a on hold, sign- or zero-extended (R2, R137). -/
def loaded (l : List (Nat × Byte)) (a nb : Nat) (signed : Bool) : W64 :=
  let v := ∑ k : Fin nb, (cellGet l (a + k.val)).toNat * 256 ^ k.val
  if signed ∧ 2 ^ (8 * nb - 1) ≤ v then BitVec.ofInt 64 ((v : Int) - 2 ^ (8 * nb)) else BitVec.ofNat 64 v

/-- The low nb bytes of x stand from a on, and every other byte is as before (R2, R137). -/
def Stored (old new : List (Nat × Byte)) (a : Nat) (x : W64) (nb : Nat) : Prop :=
  ∀ k, cellGet new k = if a ≤ k ∧ k < a + nb then x.extractLsb' (8 * (k - a)) 8 else cellGet old k

/-- The address of byte l of the scratchpad as S names it (R88). -/
def localAddr (l : Nat) : W64 := 0x4000000000000000 + BitVec.ofNat 64 l

/-- A canonical global address (R88). -/
def Canonical (a : W64) : Prop := a.toNat < 2 ^ 56 ∨ 255 * 2 ^ 56 ≤ a.toNat

/-- The byte at a local address lies in no region, in a block that is filled, or in a slot that is not being filled and
whose fill could read the line (R347, R348). -/
def Resident (p : Pad) (l : Nat) : Prop :=
  ∀ r, p.regionAt l = some r →
    if r.cached then ∀ t ∈ p.tags, t.slot = r.blockAt l →
      t.state = .valid ∨ (t.state = .nrvalid ∧ (l - r.blockAt l) / 64 ∉ t.lines)
    else r.blockAt l ∈ p.filled

/-- What an AMO writes (R138). -/
def amoResult (op : AOp) (old v : W64) : W64 :=
  match op with
  | .add => old + v | .and => old &&& v | .or => old ||| v | .xor => old ^^^ v | .swap => v
  | .min => if v.toInt < old.toInt then v else old
  | .max => if old.toInt < v.toInt then v else old
  | .minu => if v < old then v else old
  | .maxu => if old < v then v else old

/-- j is i after a write of nb bytes of x at local address l: the bytes are set, those of a copy are marked written,
and a dual-run instance may have signed them (R89, R293). -/
def PadWritten (i j : Inst) (l : Nat) (x : W64) (nb : Nat) : Prop :=
  j = { i with pad := { i.pad with bytes := j.pad.bytes, dirty := j.pad.dirty }, sig := j.sig }
  ∧ Stored i.pad.bytes j.pad.bytes l x nb ∧ (i.id.dual = false → j.sig = i.sig)
  ∧ ∀ k, cellGet j.pad.dirty k =
      if (i.pad.regionAt l).isSome ∧ l ≤ k ∧ k < l + nb then 1 else cellGet i.pad.dirty k

/-- n is the machine m after a write of nb bytes of x at memory key k for the access at address g: a dual-run launch
performs it for run 1 and inside its output window only, and signs it wherever it is made (R292, R293). -/
def HomeWritten (s : State) (m n : Mach) (g k : Nat) (x : W64) (nb : Nat) : Prop :=
  let c := s.mach.cur
  let id := (inst s).id
  let performed := id.dual = false ∨ id.run = 0 ∨ (id.outBase ≤ g ∧ g < id.outBase + id.outSize)
  n = { m with mem := n.mem, poison := n.poison, cores := (m.setInst c { m.inst c with sig := (n.inst c).sig }).cores }
  ∧ (performed → Stored s.mach.mem n.mem k x nb) ∧ (¬performed → n.mem = s.mach.mem)
  ∧ (id.dual = false → (n.inst c).sig = (inst s).sig)

end Sys2Proof.Claims

/-- R328–R330: a leaf that the walk of a context's tables finds maps the page that holds the address, is valid and well
formed, and is what its 16-byte entry in memory says. -/
def Sys2Proof.Claims.WalkFindsLeaf : Prop :=
  ∀ (m : Mach) (n va : Nat) (p : Page), m.walk n va = some p →
    let w := m.word p.entry
    let bits := fun (lo len : Nat) => w / 2 ^ lo % 2 ^ len
    p.asid = (m.ctx n).asid.toNat ∧ p.base ≤ va ∧ va < p.base + p.size ∧ p.base % p.size = 0 ∧ p.frame % p.size = 0
    ∧ bits 0 2 = 3 ∧ p.p = decide (bits 2 1 = 1) ∧ p.w = decide (bits 3 1 = 1) ∧ p.x = decide (bits 4 1 = 1)
    ∧ p.rd = decide (bits 5 1 = 1) ∧ p.tier = bits 8 2 ∧ p.tier ≤ 2 ∧ p.fmt = bits 12 4 ∧ p.geo = bits 16 2
    ∧ p.cb = bits 18 3 ∧ p.mode = bits 21 2 ∧ p.peer = bits 23 12 ∧ p.frame = m.word (p.entry + 8)
    ∧ p.size = (if p.tier = 0 then 2 ^ 21 else if p.tier = 1 then 2 ^ 16 else 2 ^ 12)
    ∧ (p.mode ≠ 0 → p.tier = 0)

/-- R331–R337: a translation that succeeds gives a page that holds the address and neither is a PULL page nor moves, whose
home a link reaches if the access may use it (R22), and changes only the page registers of the instance and the buffers
and counters of its die. -/
def Sys2Proof.Claims.TranslationChangesLittle : Prop :=
  ∀ (s : State) (who : PStream) (va tv : Nat) (need : Right) (p : Page) (m : Mach),
    let c := s.mach.cur
    Reaches s s.mach who va tv need p m →
      p.base ≤ va ∧ va < p.base + p.size ∧ p.mode ≠ 3 ∧ s.mach.moving p = false
      ∧ (p.p = true → p.allows need = true → s.mach.pageWay (dieOf c) p va = true)
      ∧ m = { s.mach with
          dies := (s.mach.setDie (dieOf c) (m.die (dieOf c))).dies
          cores := (s.mach.setInst c { inst s with regs := (m.inst c).regs }).cores }

/-- R137, R138: LD, LDU, ST, AMO and CAS of the scratchpad, at an aligned address inside the partition whose byte is
resident.
That an access takes effect when its word runs is the model's choice (entry 6). -/
def Sys2Proof.Claims.LocalMemory : Prop :=
  ∀ (s : State) (d a b : Reg) (size : Fin 4) (usize : Fin 3) (off : BitVec 12) (op : AOp) (o : MemOrder) (sc : Scope)
      (l : Nat),
    let q := s.seq
    let i := inst s
    let at' := fun (addr : W64) (nb : Nat) => addr = localAddr l ∧ l < 2 ^ 22 ∧ l % nb = 0 ∧ l + nb ≤ i.id.part
    let addr := q.get a + off.signExtend 64
    let old := loaded i.pad.bytes l 8 false
    Fresh s → Resident i.pad l →
      (at' addr (2 ^ size.val) →
        Gives s (.ld d a size off) d (loaded i.pad.bytes l (2 ^ size.val) true)
        ∧ ∃ j, PadWritten i j l (q.get b) (2 ^ size.val) ∧ Passes s (.st b a size off) (withInst s j))
      ∧ (at' addr (2 ^ usize.val) → Gives s (.ldu d a usize off) d (loaded i.pad.bytes l (2 ^ usize.val) false))
      ∧ (at' (q.get a) 8 →
        (∃ j, PadWritten i j l (amoResult op old (q.get b)) 8 ∧ GivesOn s (.amo d a b op o sc) (withInst s j) d old)
        ∧ (old = q.get d → ∃ j, PadWritten i j l (q.get b) 8 ∧ GivesOn s (.cas d a b o sc) (withInst s j) d old)
        ∧ (old ≠ q.get d → Gives s (.cas d a b o sc) d old))

/-- R347, R348: an access of S to a DIRECT block that is not filled waits for its fill; where the fill met a page that is
not resident, or could not read the line, a load gives zero and sets SNR and a store traps STORE_NONRESIDENT with the
global address; a fill that was denied traps PROTECTION.
That an access takes effect when its word runs is the model's choice (entry 6). -/
def Sys2Proof.Claims.RegionMemory : Prop :=
  ∀ (s : State) (d a b : Reg) (size : Fin 4) (off : BitVec 12) (l : Nat) (r : Region),
    let q := s.seq
    let i := inst s
    let blk := r.blockAt l
    Fresh s → q.get a + off.signExtend 64 = localAddr l → l < 2 ^ 22 → l % 2 ^ size.val = 0 → l + 2 ^ size.val ≤ i.id.part →
    i.pad.regionAt l = some r →
      (r.cached = false → blk ∉ i.pad.filled → (∀ o ∈ i.pad.outcomes, o.1 ≠ blk) →
        Stalls s (.ld d a size off) s.mach (.fill blk) ∧ Stalls s (.st b a size off) s.mach (.fill blk))
      ∧ ((r.cached = false ∧ blk ∉ i.pad.filled ∧ ∃ g, alookup i.pad.outcomes blk = some (.nonresident g)) →
        GivesOn s (.ld d a size off) (withInst s { i with s := { i.s with snr := true } }) d 0
        ∧ Traps s (.st b a size off) .storeNonresident (BitVec.ofNat 64 (r.gbase + (l - r.lbase))))
      ∧ (∀ g, r.cached = false → blk ∉ i.pad.filled → alookup i.pad.outcomes blk = some (.denied g) →
        Traps s (.ld d a size off) .protection (BitVec.ofNat 64 g) ∧ Traps s (.st b a size off) .protection (BitVec.ofNat 64 g))
      ∧ ∀ t, i.pad.tags.find? (fun t => t.slot == blk) = some t → r.cached = true → t.state = .nrvalid → (l - blk) / 64 ∈ t.lines →
        GivesOn s (.ld d a size off) (withInst s { i with s := { i.s with snr := true } }) d 0
        ∧ Traps s (.st b a size off) .storeNonresident (BitVec.ofNat 64 (r.gbase + t.block * r.bytes + (l - blk)))

/-- R137, R138, R292: LD, LDU, ST, AMO and CAS at a global address whose page is present, where no watchpoint matches
and the line is not poisoned; the access is made at the relocated address of a dual-run launch.
That an access takes effect when its word runs is the model's choice (entry 6), and the units it is charged are entry
33's. -/
def Obligations.GlobalMemory : Prop :=
  ∀ (s : State) (d a b : Reg) (size : Fin 4) (usize : Fin 3) (off : BitVec 12) (op : AOp) (o : MemOrder) (sc : Scope)
      (p : Page) (m : Mach),
    let q := s.seq
    let i := inst s
    let c := s.mach.cur
    let finds := fun (g : W64) (nb : Nat) (need : Right) (rd wr : Bool) =>
      Canonical g ∧ g.toNat % nb = 0 ∧ Reaches s s.mach .s (relocate i.id g.toNat) g.toNat need p m ∧ p.p = true
      ∧ p.allows need = true ∧ i.dbg.hits q.st.pc g.toNat nb rd wr = false
    let home := fun (g : W64) => m.pageKey p (relocate i.id g.toNat)
    let charged := fun (g : W64) => m.charge c p (relocate i.id g.toNat)
    let clean := fun (g : W64) => home g / 64 ∉ s.mach.poison
    let g := q.get a + off.signExtend 64
    let x := q.get a
    let old := loaded s.mach.mem (home x) 8 false
    Fresh s →
      (finds g (2 ^ size.val) .read true false → clean g →
        GivesOn s (.ld d a size off) (charged g) d (loaded s.mach.mem (home g) (2 ^ size.val) true)
        ∧ (charged g).mem = s.mach.mem)
      ∧ (finds g (2 ^ usize.val) .read true false → clean g →
        GivesOn s (.ldu d a usize off) (charged g) d (loaded s.mach.mem (home g) (2 ^ usize.val) false))
      ∧ (finds g (2 ^ size.val) .write false true →
        ∃ n, HomeWritten s (charged g) n g.toNat (home g) (q.get b) (2 ^ size.val) ∧ Passes s (.st b a size off) n)
      ∧ (finds x 8 .write true true → clean x →
        (∃ n, HomeWritten s (charged x) n x.toNat (home x) (amoResult op old (q.get b)) 8
          ∧ GivesOn s (.amo d a b op o sc) n d old)
        ∧ (old = q.get d → ∃ n, HomeWritten s (charged x) n x.toNat (home x) (q.get b) 8
          ∧ GivesOn s (.cas d a b o sc) n d old)
        ∧ (old ≠ q.get d → GivesOn s (.cas d a b o sc) (charged x) d old))

/-- R88, R137, R138, R331, R414: what an access of S traps on, in order: an address of no space, a misaligned one, a
local one beyond the partition; a global one that no leaf maps or that the leaf denies, one that a watchpoint matches,
and, for a store or atomic, one that is not resident; a load that is not resident gives zero and sets SNR. -/
def Obligations.MemoryTraps : Prop :=
  ∀ (s : State) (d a b : Reg) (size : Fin 4) (off : BitVec 12) (op : AOp) (o : MemOrder) (sc : Scope) (p : Page) (m : Mach),
    let q := s.seq
    let i := inst s
    let nb := 2 ^ size.val
    let g := q.get a + off.signExtend 64
    let x := q.get a
    let ld := Instr.ld d a size off
    let st := Instr.st b a size off
    let amo := Instr.amo d a b op o sc
    let cas := Instr.cas d a b o sc
    let isLocal := fun (v : W64) => ∃ l, v = localAddr l ∧ l < 2 ^ 22
    let no := fun (v : W64) => ¬Canonical v ∧ ¬isLocal v
    let reach := fun (v : W64) need => Canonical v ∧ Reaches s s.mach .s (relocate i.id v.toNat) v.toNat need p m
    Fresh s →
      (no g → Traps s ld .protection g ∧ Traps s st .protection g)
      ∧ (no x → Traps s amo .protection x ∧ Traps s cas .protection x)
      ∧ (¬no g → g.toNat % nb ≠ 0 → Traps s ld .misaligned g ∧ Traps s st .misaligned g)
      ∧ (¬no x → x.toNat % 8 ≠ 0 → Traps s amo .misaligned x ∧ Traps s cas .misaligned x)
      ∧ (∀ l, g = localAddr l → l < 2 ^ 22 → l % nb = 0 → i.id.part < l + nb →
          Traps s ld .protection g ∧ Traps s st .protection g)
      ∧ (∀ l, x = localAddr l → l < 2 ^ 22 → l % 8 = 0 → i.id.part < l + 8 →
          Traps s amo .protection x ∧ Traps s cas .protection x)
      ∧ (Canonical g → g.toNat % nb = 0 → s.mach.lookup s.mach.cur .s (relocate i.id g.toNat) = (none, m) →
          TrapsOn s ld m .protection g ∧ TrapsOn s st m .protection g)
      ∧ (reach g .read → g.toNat % nb = 0 →
          (p.rd = false → TrapsOn s ld m .protection g)
          ∧ (p.rd = true → i.dbg.hits q.st.pc g.toNat nb true false = true → TrapsOn s ld m .watch g)
          ∧ (p.rd = true → i.dbg.hits q.st.pc g.toNat nb true false = false → p.p = false →
              GivesOn s ld (m.modSeq s.mach.cur fun q => { q with snr := true }) d 0))
      ∧ (reach g .write → g.toNat % nb = 0 →
          (p.w = false → TrapsOn s st m .protection g)
          ∧ (p.w = true → i.dbg.hits q.st.pc g.toNat nb false true = true → TrapsOn s st m .watch g)
          ∧ (p.w = true → i.dbg.hits q.st.pc g.toNat nb false true = false → p.p = false →
              TrapsOn s st m .storeNonresident g))
      ∧ (reach x .write → x.toNat % 8 = 0 → i.dbg.hits q.st.pc x.toNat 8 true true = false →
          (p.p = false → TrapsOn s amo m .storeNonresident x ∧ TrapsOn s cas m .storeNonresident x)
          ∧ (p.p = true → p.w = false → TrapsOn s amo m .protection x ∧ TrapsOn s cas m .protection x))

/-- R22, R334, R335: an access to a PULL page starts the pull and waits for it; an access that brings a COUNT page to its
threshold starts the move and waits. An access to a page whose home no link reaches waits for one (entry 126). -/
def Sys2Proof.Claims.PageMovesStart : Prop :=
  ∀ (s : State) (d a : Reg) (size : Fin 4) (off : BitVec 12) (p : Page) (m : Mach),
    let i := inst s
    let c := s.mach.cur
    let g := s.seq.get a + off.signExtend 64
    let r := relocate i.id g.toNat
    let ld := Instr.ld d a size off
    let noted := m.modInst c (·.notePage .s p r)
    let waits := { s.seq with st := { s.seq.st with wait := some ⟨.retry 10 p.base, s.mach.cycle, ld⟩ } }
    let way := s.mach.pageWay (dieOf c) p r
    let starts := fun (pull : Bool) (e : Instr) => ∃ t, exec ld s = .next t
      ∧ t.mach.moves = s.mach.moves ++
          [{ ctx := i.id.ctx, page := { p with word0 := s.mach.word p.entry }, pull, stalled := [.core c .s] }]
      ∧ t.mach.timers = s.mach.timers ++ [(s.mach.cycle + 1, e)]
      ∧ t.seq = waits
      ∧ t.mach.mem = s.mach.mem
    Fresh s → Canonical g → g.toNat % 2 ^ size.val = 0 → s.mach.lookup c .s r = (some p, m) → p.rd = true →
    noted.moving p = false →
      (p.mode = 3 → starts true (.pullDone i.id.ctx p.base))
      ∧ (p.mode < 3 → p.p = true → way = false → ∃ t, exec ld s = .next t ∧ t.mach.moves = s.mach.moves ∧ t.seq = waits
          ∧ t.mach.mem = s.mach.mem)
      ∧ ∀ n, p.mode = 2 → p.p = true → way = true → (p.asid, p.base, n) ∈ (m.die (dieOf c)).counters →
          (∀ n', (p.asid, p.base, n') ∈ (m.die (dieOf c)).counters → n' = n) → 2 ^ p.cthr ≤ n + 1 →
          starts false (.countMoveDone i.id.ctx p.base)


namespace Sys2Proof.Claims

/-- A word of S finds the object at an address: the checks of R103, R312 and R323 pass, and its memory key is k; m is
the machine with what the translation has cached and what the access is charged. -/
def ObjectAt (s : State) (m0 : Mach) (a : W64) (align : Nat) (need : Right) (k : Nat) (m : Mach) : Prop :=
  (objectKey s.mach.cur a align need).go m0 = (.ok k, m)

/-- The 8-byte word at a memory key (R2). -/
def wordAt (m : Mach) (k : Nat) : W64 := loaded m.mem k 8 false

/-- The copies of the instance's scratchpad that overlap a region bound to an object (R100). -/
def boundTo (s : State) (obj : Nat) : List (Region × Nat × Nat) :=
  (inst s).pad.copiesIn ((s.mach.ctx (inst s).id.ctx.val).boundTo obj)

/-- None of the copies holds a written byte. -/
def Clean (p : Pad) (copies : List (Region × Nat × Nat)) : Prop :=
  ∀ r b g, (r, b, g) ∈ copies → ∀ e ∈ p.dirty, ¬(b ≤ e.1 ∧ e.1 < b + r.bytes)

/-- The scratchpad without the copies. -/
def without (p : Pad) (copies : List (Region × Nat × Nat)) : Pad := copies.foldl (fun p c => p.discard c.1 c.2.1) p

/-- The value that a lock holds while the instance of the core whose turn it is holds it (R99, R100). -/
def tagOf (s : State) : W64 :=
  BitVec.ofNat 64 (1 + s.mach.cur.val * 2 + s.mach.pkg.toNat * 2 ^ 8 + (s.mach.ctx (inst s).id.ctx.val).asid.toNat * 2 ^ 32)

/-- The machine with SPIN_COUNT 0 (R302). -/
def unspun (s : State) (m : Mach) : Mach := m.modSeq s.mach.cur fun q => { q with spinCount := 0 }

/-- The code of a scope (R94). -/
def scopeNumber : Scope → Nat | .core => 0 | .sg => 1 | .die => 2 | .pkg => 3 | .dom => 4

/-- The engine that a peer code of S names (Table 2.1). -/
def peerEngine (p : Fin 3) : Eng := match p with | 0 => .V | 1 => .M | 2 => .X

/-- n is the machine m after 8 bytes of x are written at an object's word: address g, memory key k. -/
def WordWritten (s : State) (m n : Mach) (g k : Nat) (x : W64) : Prop := HomeWritten s m n g k x 8

/-- The machine with the instance's copies of some blocks discarded. -/
def discarded (s : State) (m : Mach) (copies : List (Region × Nat × Nat)) : Mach :=
  m.modInst s.mach.cur fun j => { j with pad := without j.pad copies }

/-- Every written byte of the copies is written back, on the machine m0, which it leaves as m. -/
def WritesBack (s : State) (m0 : Mach) (copies : List (Region × Nat × Nat)) (m : Mach) : Prop :=
  (writeBackAll s.mach.cur copies).go m0 = (.ok (), m)

end Sys2Proof.Claims

/-- R103–R105: ACQ.L takes a free lock, ACQ.C finds its count reached, and either discards the core's copies of the
blocks bound to the object, here with no written byte; a held lock or a count not reached is waited for, spinning.
What ACQ charges is the model's choice (entry 31). -/
def Sys2Proof.Claims.Acquire : Prop :=
  ∀ (s : State) (a b : Reg) (sc : Scope) (k1 k2 : Nat) (m1 m2 : Mach),
    let x := s.seq.get a
    let copies := boundTo s x.toNat
    let finds := fun (need : Right) => ObjectAt s s.mach x 64 need k1 m1 ∧ ObjectAt s m1 x 64 need k2 m2
    Fresh s → Clean (inst s).pad copies →
      (finds .write → k2 / 64 ∉ s.mach.poison →
        (wordAt s.mach k2 = 0 → ∃ n, WordWritten s m2 n x.toNat k2 (tagOf s)
          ∧ Passes s (.acqL a sc) (unspun s (discarded s n copies)))
        ∧ (wordAt s.mach k2 ≠ 0 → Spins s (.acqL a sc) m2 (.sync x.toNat)))
      ∧ (finds .read → (k2 + 8) / 64 ∉ s.mach.poison →
        (s.seq.get b ≤ wordAt s.mach (k2 + 8) → Passes s (.acqC a b sc) (unspun s (discarded s m2 copies)))
        ∧ (wordAt s.mach (k2 + 8) < s.seq.get b → Spins s (.acqC a b sc) m2 (.sync x.toNat)))

/-- R106: REL.L by the holder frees the lock, and by any other agent traps PROTECTION and changes nothing; REL.C adds 1
to the count. Here no copy bound to the object holds a written byte. -/
def Sys2Proof.Claims.Release : Prop :=
  ∀ (s : State) (a : Reg) (sc : Scope) (k : Nat) (m : Mach),
    let x := s.seq.get a
    Fresh s → Clean (inst s).pad (boundTo s x.toNat) → ObjectAt s s.mach x 64 .write k m →
      (k / 64 ∉ s.mach.poison →
        (wordAt s.mach k = tagOf s → ∃ n, WordWritten s m n x.toNat k 0 ∧ Passes s (.relL a sc) n)
        ∧ (wordAt s.mach k ≠ tagOf s → TrapsOn s (.relL a sc) m .protection x))
      ∧ ((k + 8) / 64 ∉ s.mach.poison →
        ∃ n, WordWritten s m n (x.toNat + 8) (k + 8) (wordAt s.mach (k + 8) + 1) ∧ Passes s (.relC a sc) n)

/-- R107: FENCE at core scope touches no copy; at a wider scope it writes back and discards every copy. -/
def Sys2Proof.Claims.Fence : Prop :=
  ∀ (s : State) (sc : Scope) (m : Mach),
    let copies := (inst s).pad.copies
    Fresh s →
      Passes s (.fence .core) s.mach
      ∧ (sc ≠ .core → WritesBack s s.mach copies m → Passes s (.fence sc) (discarded s m copies))
      ∧ (Clean (inst s).pad copies → WritesBack s s.mach copies s.mach)

/-- R89, R104: the write-back of a copy that holds one written byte stores it at the global address it maps, unsigned,
and the byte is no longer marked. The copy is 8-aligned and the home is not poisoned. -/
def Sys2Proof.Claims.WriteBackStores : Prop :=
  ∀ (s : State) (r : Region) (b g l : Nat) (p : Page) (m : Mach),
    let i := inst s
    let va := g + (l - b)
    let key := m.pageKey p (relocate i.id va)
    b ≤ l → l < b + r.bytes → b % 8 = 0 → key % 8 = l % 8 → i.pad.dirty = [(l, 1)] → i.id.dual = false →
    Reaches s s.mach .map va va .write p m → p.p = true → p.w = true → key / 64 ∉ s.mach.poison →
      ∃ n, WritesBack s s.mach [(r, b, g)] n ∧ (n.inst s.mach.cur).pad = { i.pad with dirty := [] }
        ∧ (∀ k, cellGet n.mem k = if k = key then cellGet i.pad.bytes l else cellGet s.mach.mem k)
        ∧ (n.inst s.mach.cur).sig = i.sig

/-- R101: BIND adds a binding that the table lacks, removes one that it holds, and gives the number of regions then bound
to the object; it traps in the order written and changes nothing then. -/
def Sys2Proof.Claims.Bind : Prop :=
  ∀ (s : State) (d a b : Reg) (k : BitVec 6),
    let obj := s.seq.get a
    let rm := (s.seq.get b).getLsbD 0
    let base := s.seq.get b &&& ~~~1#64
    let size := 2 ^ k.toNat
    let last := base + BitVec.ofNat 64 size - 1
    let i := Instr.bind d a b k
    let x := s.mach.ctx (inst s).id.ctx.val
    let e := (obj.toNat, base.toNat, k.toNat)
    let gives := fun (l : List (Nat × Nat × Nat)) =>
      GivesOn s i (s.mach.setCtx (inst s).id.ctx.val { x with bindings := l }) d (BitVec.ofNat 64 (l.countP fun e => e.1 = obj.toNat))
    Fresh s →
      (¬Canonical obj → Traps s i .protection obj)
      ∧ (Canonical obj → obj.toNat % 64 ≠ 0 → Traps s i .misaligned obj)
      ∧ (Canonical obj → obj.toNat % 64 = 0 → base.toNat % size ≠ 0 → Traps s i .misaligned (s.seq.get b))
      ∧ (Canonical obj → obj.toNat % 64 = 0 → base.toNat % size = 0 →
          (¬(Canonical base ∧ Canonical last ∧ base.getLsbD 56 = last.getLsbD 56) → Traps s i .protection (s.seq.get b))
          ∧ (Canonical base → Canonical last → base.getLsbD 56 = last.getLsbD 56 →
              (rm = true → gives (x.bindings.erase e))
              ∧ (rm = false → e ∈ x.bindings → Gives s i d (BitVec.ofNat 64 (x.bindings.countP fun e => e.1 = obj.toNat)))
              ∧ (rm = false → e ∉ x.bindings →
                  (x.bindings.length < 1024 → x.bindings.countP (fun e => e.1 = obj.toNat) < 8 → gives (x.bindings ++ [e]))
                  ∧ (1024 ≤ x.bindings.length ∨ 8 ≤ x.bindings.countP (fun e => e.1 = obj.toNat) → Traps s i .region obj))))

/-- R139–R141: SIG adds a token for the peer, or stalls on a full queue; WAITK takes one, waits for one, or traps
TOKEN_ORPHAN when the peer has ended; SQPUT appends to the scalar queue, or stalls when it is full; EIDLE ends once the
engines it names are idle. A token or an entry for an ended engine is discarded. -/
def Sys2Proof.Claims.Coupling : Prop :=
  ∀ (s : State) (p : Fin 3) (a : Reg) (mask : BitVec 3),
    let i := inst s
    let e := peerEngine p
    let count := fun (j : Inst) (x y : Eng) => j.tokens x y
    let idle := fun (e : Eng) => (i.stream e).ended = true ∨ ∃ w, (i.stream e).wait = some w ∧ w.kind = .token .S ∧ i.tokens .S e = 0
    Fresh s →
      ((i.stream e).ended = true → Passes s (.sig p) s.mach)
      ∧ ((i.stream e).ended = false → i.tokens .S e < 15 → ∃ j, Passes s (.sig p) (withInst s j)
          ∧ j = { i with toks := j.toks } ∧ ∀ x y, count j x y = if x = .S ∧ y = e then count i x y + 1 else count i x y)
      ∧ ((i.stream e).ended = false → i.tokens .S e = 15 → Stalls s (.sig p) s.mach (.push e))
      ∧ (0 < i.tokens e .S → ∃ j, Passes s (.waitk p) (unspun s (withInst s j))
          ∧ j = { i with toks := j.toks } ∧ ∀ x y, count j x y = if x = e ∧ y = .S then count i x y - 1 else count i x y)
      ∧ (i.tokens e .S = 0 → (i.stream e).ended = false → Spins s (.waitk p) s.mach (.token e))
      ∧ (i.tokens e .S = 0 → (i.stream e).ended = true → Traps s (.waitk p) .tokenOrphan (BitVec.ofNat 64 (p.val + 1)))
      ∧ (i.v.st.ended = true → Passes s (.sqput a) s.mach)
      ∧ (i.v.st.ended = false → s.seq.sq.length < 32 →
          Passes s (.sqput a) (s.mach.modSeq s.mach.cur fun q => { q with sq := q.sq ++ [q.get a] }))
      ∧ (i.v.st.ended = false → 32 ≤ s.seq.sq.length → Stalls s (.sqput a) s.mach .sqFull)
      ∧ (let waits := (mask.getLsbD 0 = true → idle .V)
            ∧ (mask.getLsbD 1 = true → idle .M ∧ i.m.active = none ∧ i.m.pending = none)
            ∧ (mask.getLsbD 2 = true → idle .X ∧ i.x.xfers = [])
         (waits → Passes s (.eidle mask) s.mach) ∧ (¬waits → Stalls s (.eidle mask) s.mach .eidle))

/-- R245–R248: FPSH puts a word on the command side of F0 or F1, checks the header of a new record, and stalls when there
is no room; FPOP takes the oldest result word, waits for one, or traps where none can come; FCNT gives the counts. -/
def Sys2Proof.Claims.FifoWords : Prop :=
  ∀ (s : State) (f : Fin 2) (k : Fin 3) (a d : Reg) (w : W64) (rest : List W64),
    let i := inst s
    let x := i.fifo
    let v := s.seq.get a
    let opened := if f = 0 then x.open0 else x.open1
    let queued := if f = 0 then x.queue0 else x.queue1
    let used := fun (f : Nat) => if f = 0 then x.open0.length + x.queue0.flatten.length else x.open1.length + x.queue1.flatten.length
    let room := fun (f : Nat) => (if f = 0 then 64 else 32) - used f
    let lengths : List (Nat × Nat) := if f = 0 then [(1, 4), (2, 4), (3, 6), (4, 6), (5, 4), (6, 4), (7, 8), (8, 9)] else [(1, 4), (2, 4)]
    let good := (v.toNat % 256, v.toNat / 256 % 256) ∈ lengths ∧ v >>> 48 = 0 ∧ ¬(f = 0 ∧ i.id.dual = true)
    let put := fun (o : List W64) (q : List (List W64)) =>
      withInst s { i with fifo := if f = 0 then { x with open0 := o, queue0 := q } else { x with open1 := o, queue1 := q } }
    let res := if k = 0 then x.res0 else if k = 1 then x.res1 else x.f2
    let waiting := if k = 0 then x.queue0.length + x.cmds.length else if k = 1 then x.queue1.length else 0
    Fresh s →
      (opened = [] → ¬good → Traps s (.fpsh f a) .fifoProtocol v)
      ∧ (opened ≠ [] ∨ good →
          let o := opened ++ [v]
          let whole := o.length = 1 + ((o.headD 0).toNat / 256) % 256
          (0 < room f.val → Passes s (.fpsh f a) (if whole then put [] (queued ++ [o]) else put o queued))
          ∧ (room f.val = 0 → Stalls s (.fpsh f a) s.mach (.fifoFull f.val)))
      ∧ (res = w :: rest → GivesOn s (.fpop d k) (withInst s { i with fifo :=
            if k = 0 then { x with res0 := rest } else if k = 1 then { x with res1 := rest } else { x with f2 := rest } }) d w)
      ∧ (res = [] →
          let never := if k = 2 then i.v.st.ended = true else waiting = 0
          (never → Traps s (.fpop d k) .fifoProtocol (BitVec.ofNat 64 k.val))
          ∧ (¬never → Stalls s (.fpop d k) s.mach (.fifoEmpty k.val)))
      ∧ Gives s (.fcnt d k) d (BitVec.ofNat 64 (res.length + if k = 2 then 0 else room k.val * 2 ^ 16 + waiting * 2 ^ 32
            + if (if k = 0 then x.open0 else x.open1) = [] then 0 else 2 ^ 48))

/-- R300, R302, R312, R313: WAITW gives the word once its condition holds and otherwise waits, spinning; YIELD clears the
context's boost, but for what arrivals of its cycle have raised it by, and marks the team for the next evaluation. -/
def Sys2Proof.Claims.WaitwYield : Prop :=
  ∀ (s : State) (d a b : Reg) (cond : WCond) (sc : Scope) (k : Nat) (m : Mach) (l : Launch)
      (before after : List Launch),
    let i := inst s
    let y := s.seq.get b
    let x := wordAt s.mach k
    let holds := match cond with
      | .eq => x = y | .ne => x ≠ y | .geu => y ≤ x | .ltu => x < y | .ge => y.toInt ≤ x.toInt | .lt => x.toInt < y.toInt
    let ctx := s.mach.ctx i.id.ctx.val
    let cleared := s.mach.setCtx i.id.ctx.val { ctx with
      boost := if ctx.raised.1 = s.mach.cycle then Fin.ofNat 9 (min 8 (4 * ctx.raised.2)) else 0 }
    Fresh s →
      (ObjectAt s s.mach (s.seq.get a) 8 .read k m → k / 64 ∉ s.mach.poison →
        (holds → GivesOn s (.waitw d a b cond sc) (unspun s m) d x)
        ∧ (¬holds → Spins s (.waitw d a b cond sc) m (.word (s.seq.get a).toNat)))
      ∧ (s.mach.launches = before ++ l :: after → l.num = i.id.launch → (∀ o ∈ before ++ after, o.num ≠ i.id.launch) →
          let l' := { l with teams := l.teams.map fun t => if t.num = i.id.team ∧ t.run = i.id.run then { t with yields := true } else t }
          Passes s .yield { cleared with launches := before ++ l' :: after })
      ∧ ((∀ o ∈ s.mach.launches, o.num ≠ i.id.launch) → Passes s .yield cleared)

/-- R88, R103, R312, R323: the words that name an object or a waited word trap PROTECTION where the address is not a
canonical global one, and MISALIGNED where it is not aligned, before any other effect. -/
def Sys2Proof.Claims.ObjectTraps : Prop :=
  ∀ (s : State) (d a b : Reg) (sc : Scope) (cond : WCond) (i : Instr) (n : Nat),
    let x := s.seq.get a
    Fresh s →
    (n = 64 ∧ i ∈ [.acqL a sc, .acqC a b sc, .relL a sc, .relC a sc, .barr a sc, .barw d a sc, .bbpost a b sc, .barq d a sc])
      ∨ (n = 8 ∧ i = .waitw d a b cond sc) →
      (¬Canonical x → Traps s i .protection x) ∧ (Canonical x → x.toNat % n ≠ 0 → Traps s i .misaligned x)


namespace Sys2Proof.Claims

/-- The machine with the arrival records of the instance of the core whose turn it is. -/
def withArrivals (s : State) (m : Mach) (l : List Arrival) : Mach := m.modInst s.mach.cur fun j => { j with arrivals := l }

/-- No round stands on the object with memory key k. -/
def NoRound (s : State) (k : Nat) : Prop := ∀ r ∈ s.mach.rounds, r.obj ≠ k

/-- r is the one round on its object, open, and the instance of the core whose turn it is takes part in it. -/
def OneRound (s : State) (k : Nat) (x : W64) (sc : Scope) (before : List Round) (r : Round) (after : List Round) : Prop :=
  s.mach.rounds = before ++ r :: after ∧ (∀ o ∈ before ++ after, o.obj ≠ k ∧ o.num ≠ r.num)
  ∧ r.obj = k ∧ r.va = x.toNat ∧ r.scope = scopeNumber sc ∧ r.guest = false ∧ r.ended = none
  ∧ r.pset = psetOf (inst s).id (dieOf s.mach.cur).val (scopeNumber sc)

/-- j is the instance i with the record of an object consumed: gone, and SPIN_COUNT 0 (R302, R325, R326). -/
def consumed (i : Inst) (obj : Nat) : Inst :=
  { i with arrivals := i.arrivals.filter (·.obj != obj), s := { i.s with spinCount := 0 } }

end Sys2Proof.Claims

/-- R316–R324: BARR and BBPOST arrive at a barrier: they open a round on an idle object or join the open one, BBPOST
adding its bytes to what is expected, and the instance holds an arrival record. What follows when an arrival completes a
round is the unit's own check. On a poisoned object the record has ended already; a second arrival waits; a wrong scope,
a malformed object, no room for the round, a 17th record or too large a count traps REGION. No copy holds a written byte here. -/
def Sys2Proof.Claims.BarrierArrive : Prop :=
  ∀ (s : State) (a b : Reg) (sc : Scope) (k : Nat) (m0 m : Mach) (i : Instr) (n : Nat) (before after : List Round) (r : Round),
    let x := s.seq.get a
    let j := inst s
    let c := s.mach.cur
    let die := dieOf c
    let num := scopeNumber sc
    let o := s.mach.barObj k
    let base := if sc = .core then m else discarded s m j.pad.copies
    let others := j.arrivals.filter (·.obj != x.toNat)
    let record := fun (round : Nat) (e : Option (Nat × Nat)) => withArrivals s base (others ++ [{ obj := x.toNat, round, ended := e }])
    Fresh s → Clean j.pad j.pad.copies → ¬(sc = .dom ∧ j.id.dual = true) →
    ((i = .barr a sc ∧ n = 0 ∧ ObjectAt s s.mach x 64 .write k m)
      ∨ (i = .bbpost a b sc ∧ n = (s.seq.get b).toNat ∧ n < 2 ^ 48 ∧ ObjectAt s s.mach x 64 .write k m0 ∧ ObjectAt s m0 x 64 .write k m)) →
      ((∀ e ∈ j.arrivals, e.obj = x.toNat → e.ended ≠ none) → others.length < 16 →
        (NoRound s k → (∀ r ∈ s.mach.rounds, r.num < s.mach.nextRound) → o.scope = num →
          (o.st ≠ 5 → o.ok = true → s.mach.roundRoom j.id.ctx.val num = true →
            let opened : Round :=
              { num := s.mach.nextRound, ctx := j.id.ctx, obj := k, va := x.toNat, scope := num
                pset := psetOf j.id die.val num, round := o.round, nmod := o.nmod, expect := n, bytes := 0, arrived := [j.id.num] }
            Passes s i (({ record s.mach.nextRound none with
              rounds := s.mach.rounds ++ [opened], nextRound := s.mach.nextRound + 1 } : Mach).arrivalCheck s.mach.nextRound die))
          ∧ (o.st = 5 → Passes s i (record 0 (some (2, o.round)))))
        ∧ (OneRound s k x sc before r after →
            let joined := { r with expect := r.expect + n, arrived := r.arrived ++ [j.id.num] }
            Passes s i (({ record r.num none with rounds := before ++ joined :: after } : Mach).arrivalCheck r.num die)))
      ∧ (NoRound s k → o.scope ≠ num → TrapsOn s i m .region x)
      ∧ (NoRound s k → o.scope = num → (∃ e ∈ j.arrivals, e.obj = x.toNat ∧ e.ended = none) → Stalls s i m (.retry 4 x.toNat))
      ∧ (NoRound s k → o.scope = num → (∀ e ∈ j.arrivals, e.obj = x.toNat → e.ended ≠ none) →
          ((o.st ≠ 5 ∧ (o.ok = false ∨ s.mach.roundRoom j.id.ctx.val num = false)) ∨ 16 ≤ others.length) → TrapsOn s i m .region x)

/-- R324: BBPOST with a count of 2^48 or more traps REGION with the count, after the checks of the object. -/
def Sys2Proof.Claims.BarrierCountTooLarge : Prop :=
  ∀ (s : State) (a b : Reg) (sc : Scope) (k : Nat) (m : Mach),
    Fresh s → ObjectAt s s.mach (s.seq.get a) 64 .write k m → NoRound s k → (s.mach.barObj k).scope = scopeNumber sc →
    2 ^ 48 ≤ (s.seq.get b).toNat → TrapsOn s (.bbpost a b sc) m .region (s.seq.get b)

/-- R325, R326: BARW gives the status of an ended record, which it consumes with the discards of a firing, gives 3 where
the instance holds none, and otherwise waits, spinning. BARQ gives the state, the scope, the record bits and ROUND, and
consumes a record that it has seen ended. No copy holds a written byte here. -/
def Sys2Proof.Claims.BarrierWait : Prop :=
  ∀ (s : State) (d a : Reg) (sc : Scope) (k : Nat) (m : Mach) (rec : Arrival) (status round : Nat)
      (before after : List Round) (r : Round),
    let x := s.seq.get a
    let j := inst s
    let num := scopeNumber sc
    let o := s.mach.barObj k
    let mine := j.arrivals.find? fun e => e.obj == x.toNat
    let after' := fun (st : Nat) =>
      ((if st ≠ 2 ∧ sc ≠ .core then discarded s m j.pad.copies else m).modInst s.mach.cur (consumed · x.toNat))
    Fresh s → Clean j.pad j.pad.copies → ObjectAt s s.mach x 64 .write k m →
      ((NoRound s k ∧ o.scope = num) ∨ OneRound s k x sc before r after →
        (mine = none → GivesOn s (.barw d a sc) m d 3)
        ∧ (mine = some rec → rec.ended = none → Spins s (.barw d a sc) m (.barrier x.toNat))
        ∧ (mine = some rec → rec.ended = some (status, round) → rec.behind = 0 →
            GivesOn s (.barw d a sc) (after' status) d (BitVec.ofNat 64 (status + round * 2 ^ 32)))
        ∧ (mine = some rec → rec.ended ≠ none → 0 < rec.behind → Spins s (.barw d a sc) m (.barrier x.toNat)))
      ∧ (let value := fun (st n recBits : Nat) => BitVec.ofNat 64 (st + num * 8 + recBits + n * 2 ^ 32)
         let seen := fun (st n : Nat) =>
           (mine = none → GivesOn s (.barq d a sc) m d (value st n 0))
           ∧ (mine = some rec → rec.ended = none → GivesOn s (.barq d a sc) m d (value st n 64))
           ∧ (mine = some rec → rec.ended = some (status, round) → rec.behind = 0 →
               GivesOn s (.barq d a sc) (after' status) d (value st n 192))
         (NoRound s k → o.scope = num → seen o.st o.round)
         ∧ (OneRound s k x sc before r after → seen (if r.posted = true then 2 else 1) r.round))

/-- R287, R139, R288: EXIT ends S, leaves every loop, discards the tokens for S, the result side of F2 and the open
records; a last word of a launch's last instance lets the launch drain. In the handler it traps ILLEGAL. -/
def Sys2Proof.Claims.Exit : Prop :=
  ∀ (s : State) (l : Launch) (before after : List Launch),
    let i := inst s
    let q := s.seq
    Fresh s → ¬AtBodyEnd q →
      (q.handler = true → TrapsWord s .exit .illegal)
      ∧ (q.handler = false → (∀ r ∈ s.mach.rounds, psetLaunch r.pset ≠ (i.id.launch, i.id.run)) →
          ∃ t, exec .exit s = .next t
            ∧ (let j := inst t
               j.s = { q with st := { q.st with ended := true }, order := [], loops := j.s.loops, checking := false }
               ∧ (∀ k, j.s.loops.get k = if k ∈ q.order then { q.loops.get k with active := false, lcnt := 0 } else q.loops.get k)
               ∧ (∀ x y, j.tokens x y = if y = .S ∧ x ≠ .S then 0 else i.tokens x y)
               ∧ j.fifo = { i.fifo with f2 := [], open0 := [], open1 := [] }
               ∧ j.v = i.v ∧ j.m = i.m ∧ j.x = i.x ∧ j.flags = i.flags ∧ j.gens = i.gens ∧ j.pad = i.pad.forget .S)
            ∧ t.mach.mem = s.mach.mem ∧ (∀ c, c ≠ s.mach.cur → t.mach.core c = s.mach.core c)
            ∧ (s.mach.launches = before ++ l :: after → l.num = i.id.launch → l.st = .running →
                (∀ o ∈ before ++ after, o.num ≠ i.id.launch) →
                ∃ st, t.mach.launches = before ++ { l with st } :: after ∧ (st = .running ∨ st = .draining)
                  ∧ (st = .draining ↔ ∀ run n, run < l.runs → n < l.lr.instn → t.mach.instExited (uidOf l.num run n) = true)))

/-- R416: TRACE appends a record to the context's trace ring and has no effect where the ring is off; a full ring counts
a dropped record. -/
def Sys2Proof.Claims.Trace : Prop :=
  ∀ (s : State) (d : Reg) (tag : BitVec 20),
    let q := s.seq
    let i := inst s
    let ring := (s.mach.ctx i.id.ctx.val).trc
    let at' := fun (k : Nat) => (wordAt s.mach k).toNat
    let w := at' ring.base
    let slots := ring.size * 64 - 1
    let slot := ring.base + 64 + 64 * (w % slots)
    let lp : Loop := match q.order.head? with | some n => q.loops.get n | none => {}
    let header := tag.toNat + (match q.order.head? with | some n => n.val * 2 ^ 20 + 2 ^ 22 | none => 0)
      + q.handler.toNat * 2 ^ 23 + q.preds.toNat * 2 ^ 24 + i.id.num * 2 ^ 32 + s.mach.cur.val * 2 ^ 48
    Fresh s →
      (ring.on = false → Passes s (.trace d tag) s.mach)
      ∧ (ring.on = true → ∃ m, Passes s (.trace d tag) m ∧ m = { s.mach with mem := m.mem, poison := m.poison }
          ∧ (slots ≤ w - at' (ring.base + 16) →
              Stored s.mach.mem m.mem (ring.base + 8) (wordAt s.mach (ring.base + 8) + 1) 8)
          ∧ (w - at' (ring.base + 16) < slots →
              wordAt m ring.base = wordAt s.mach ring.base + 1
              ∧ wordAt m slot = BitVec.ofNat 64 header ∧ wordAt m (slot + 8) = q.st.pc ∧ wordAt m (slot + 16) = q.get d
              ∧ wordAt m (slot + 24) = BitVec.ofNat 64 (lp.lcnt.toNat + q.rrb.toNat * 2 ^ 40) ∧ wordAt m (slot + 32) = lp.start
              ∧ wordAt m (slot + 40) = BitVec.ofNat 64 s.mach.cycle ∧ wordAt m (slot + 48) = 0 ∧ wordAt m (slot + 56) = 0
              ∧ ∀ k, ¬(ring.base ≤ k ∧ k < ring.base + 8) → ¬(slot ≤ k ∧ k < slot + 64) →
                  cellGet m.mem k = cellGet s.mach.mem k))

/-- R341–R344: PGREQ asks for a page: the answer says it is malformed or denied (4), arriving (5), present (2), requested
before (3 and the tag), requested now (0 and the tag, with a record for the host), or that no tag is free (1). PGRES
reports the page and changes nothing. -/
def Sys2Proof.Claims.PageWords : Prop :=
  ∀ (s : State) (d a : Reg) (write : Bool) (p : Page) (e : PgReq) (t : Nat),
    let x := s.seq.get a
    let i := inst s
    let ctx := i.id.ctx
    let req := Instr.pgreq d a write
    let dd := ctxDie ctx.val
    let die := s.mach.die dd
    let found := s.mach.walk ctx.val x.toNat
    let allowed := if write then p.w = true else p.rd = true
    let held := fun (b : Bool) => (die.pgreqs.any fun e => e.ctx == ctx && e.page == p.base) = b
    let report := fun (state : Nat) => GivesOn s (.pgres d a) s.mach d (BitVec.ofNat 64 (state + p.w.toNat * 8 + p.x.toNat * 16
      + p.rd.toNat * 32 + p.mode * 64 + p.sizeCode * 256 + p.fmt * 1024))
    Fresh s →
      (¬Canonical x → Traps s req .protection x ∧ Traps s (.pgres d a) .protection x)
      ∧ (Canonical x → found = none → Gives s req d 4 ∧ Gives s (.pgres d a) d 3)
      ∧ (Canonical x → found = some p →
          (¬allowed → Gives s req d 4)
          ∧ (allowed → p.mode = 3 → GivesOn s req (s.mach.startMove ctx p true) d 5)
          ∧ (allowed → p.mode ≠ 3 → p.p = true → Gives s req d 2)
          ∧ (allowed → p.mode ≠ 3 → p.p = false →
              (die.pgreqs.find? (fun e => e.ctx == ctx && e.page == p.base) = some e → (write = true → e.write = true) →
                Gives s req d (BitVec.ofNat 64 (3 + e.tag * 2 ^ 16)))
              ∧ (held false → freeTag die.pgreqs ctx.val = none → Gives s req d 1)
              ∧ (held false → freeTag die.pgreqs ctx.val = some t →
                  ∃ m, GivesOn s req m d (BitVec.ofNat 64 (t * 2 ^ 16))
                    ∧ (m.die dd).pgreqs = die.pgreqs ++ [{ tag := t, ctx, page := p.base, write }]
                    ∧ (let o := s.mach.ctx ctx.val
                       (m.queue o.owner o.fqueue).held = (s.mach.queue o.owner o.fqueue).held
                         ++ [⟨pageRecord ctx.val (i.id.num + i.id.run * 2 ^ 16 + i.id.tidx * 2 ^ 18 + s.mach.cur.val * 2 ^ 32) p.base t
                           s.mach.cycle write, some ctx⟩])
                    ∧ m.mem = s.mach.mem))
          ∧ report (if p.mode = 3 ∨ s.mach.moving p = true then 4 else if p.p = true then 0
              else if (die.pgreqs.any fun e => e.ctx == ctx && e.page == p.base) = true then 1 else 2))

/-- R341: the tag of a new request is one that no held request has: one of the eight reserved for the context's slot
while one is free, else a shared one, of which a context holds at most 512. -/
def Sys2Proof.Claims.RequestTags : Prop :=
  ∀ (l : List PgReq) (ctx t : Nat), freeTag l ctx = some t →
    (∀ e ∈ l, e.tag ≠ t)
    ∧ ((8 * (ctx % 256) ≤ t ∧ t < 8 * (ctx % 256) + 8)
      ∨ (2048 ≤ t ∧ t < 4096 ∧ (∀ k < 8, ∃ e ∈ l, e.tag = 8 * (ctx % 256) + k)
          ∧ (l.filter fun e => e.ctx.val = ctx ∧ 2048 ≤ e.tag).length < 512))

/-- R348, R349: PROBE of a block that a way of its set holds gives the slot's local address and touches the way; where
every way of the set is empty it gives the first way's, issues the fill on ch7 and branches. An address in no CACHED
region traps REGION. -/
def Sys2Proof.Claims.Probe : Prop :=
  ∀ (s : State) (d a : Reg) (off : BitVec 15) (r : Region) (w : Nat) (t : Tag),
    let q := s.seq
    let i := inst s
    let g := q.get a
    let word := Instr.probe d a off
    let size := r.bytes
    let n := (g.toNat - r.gbase) / size
    let set := r.lbase + n % (r.size / size / 4) * 4 * size
    let region := i.pad.regions.find? fun r => r.cached && decide (r.gbase ≤ g.toNat) && decide (g.toNat < r.gbase + r.gsize)
    let tagAt := fun (w : Nat) => i.pad.tags.find? fun t => t.slot == set + w * size
    let value := fun (w : Nat) => 0x4000000000000000 + BitVec.ofNat 64 (set + w * size + g.toNat % size)
    let bits := fun (j : Inst) => (alookup j.pad.plru set).getD 0
    let touched := fun (j : Inst) (w : Nat) => ∀ b < 3, (bits j).getLsbD b =
      if b = 0 then decide (w ≤ 1) else if b = 1 ∧ w ≤ 1 then decide (w = 0) else if b = 2 ∧ 2 ≤ w then decide (w = 2)
      else (bits i).getLsbD b
    Fresh s → ¬AtBodyEnd q → Canonical g →
      (region = none → Traps s word .region g)
      ∧ (region = some r → w < 4 → tagAt w = some t → t.block = n → t.state ≠ .nrvalid →
          (∀ v < w, ∀ u, tagAt v = some u → u.block = n → u.state = .nrvalid) →
          ∃ j, GivesOn s word (withInst s j) d (value w) ∧ j = { i with pad := { i.pad with plru := j.pad.plru } } ∧ touched j w)
      ∧ (region = some r → (∀ w < 4, tagAt w = none) → (i.x.xfers.filter (·.ch == 7)).length < 4 →
          let id := (i.x.tissue.get 7).toNat + 1
          id < 2 ^ 48 → ∃ u, exec word s = .next u ∧ u = { s with mach := withInst s (inst u) }
            ∧ (inst u).s = { (q.put d (value 0)).jump (q.st.pc + off.signExtend 64 * 4) with checking := false }
            ∧ (inst u).x.xfers = i.x.xfers ++ [{ ch := 7, id, kind := .block, body := [], recAddr := n, pc := q.st.pc, tag := some set }]
            ∧ (inst u).x.tissue = vset i.x.tissue 7 (BitVec.ofNat 48 id)
            ∧ (inst u).pad.tags = i.pad.tags ++ [{ slot := set, block := n, state := .filling, fill := id }] ∧ touched (inst u) 0
            ∧ (inst u).pad.bytes = i.pad.bytes ∧ (inst u).flags = i.flags ∧ (inst u).toks = i.toks)


namespace Sys2Proof.Claims

/-- The stream of V, M or X of the core whose turn it is stands at a word that it has not begun, whose pop finds its
token and whose push stands behind no other and will find room, or an ended peer; no recorded point or record of a word of
it is left (R40, R188, R205, R220, R238). -/
def Starts (s : State) (e : Eng) (y : Sync) : Prop :=
  let i := inst s
  let st := i.stream e
  st.popped = false ∧ st.wait = none ∧ st.pushing = none
  ∧ (∀ p, peerOf e y.pop = some p → 0 < i.tokens p e)
  ∧ (∀ p, peerOf e y.push = some p → i.behind e p = false ∧ ((i.stream p).ended = true ∨ i.tokens e p < 15))
  ∧ (e = .V → i.s.rvalid = true → i.s.rstrm ≠ 1)
  ∧ (e = .M → (i.s.rvalid = true → i.s.rstrm ≠ 2) ∧ i.m.drain = none ∧ i.m.drainFault = false ∧ i.m.record = none)
  ∧ (e = .X → ∀ g ∈ i.x.stagings, g.issuing = false)

/-- The machine once the word's sync pop is made (R40). -/
def begun (s : State) (e : Eng) (y : Sync) : Mach :=
  s.mach.modInst s.mach.cur fun i =>
    (match peerOf e y.pop with
      | some p => i.setTokens p e (i.tokens p e - 1)
      | none => i).modStream e fun st => { st with popped := true }

/-- j is i after the word of the stream has made its push and gone on (R40): only the tokens, the stream's own state,
the fills that the stream's word waited for and a step's mark differ. -/
def Finished (e : Eng) (push : Fin 4) (i j : Inst) : Prop :=
  j = { (i.modStream e fun st => { st with pc := st.pc + 4, popped := false, pushing := none, wait := none }) with
    toks := j.toks
    pad := i.pad.forget e
    dbg := { i.dbg with ran := j.dbg.ran } }
  ∧ ∀ a b, j.tokens a b = i.tokens a b + if peerOf e push = some b ∧ a = e ∧ (i.stream b).ended = false then 1 else 0

/-- The word of a stream of V, M or X completes, on a machine that its pop and its effect have made m. -/
def EPasses (s : State) (e : Eng) (push : Fin 4) (i : Instr) (m : Mach) : Prop :=
  ∃ t, exec i s = .next t ∧ t = { s with mach := m.setInst s.mach.cur (inst t) } ∧ Finished e push (m.inst s.mach.cur) (inst t)

/-- As EPasses, and the stream has ended on the word. -/
def EEnds (s : State) (e : Eng) (push : Fin 4) (i : Instr) (m : Mach) : Prop :=
  ∃ t j, exec i s = .next t ∧ Finished e push (m.inst s.mach.cur) j
    ∧ let k := j.modStream e fun st => { st with pc := ((inst s).stream e).pc, ended := true }
      t = { s with mach := m.setInst s.mach.cur k }

/-- The word traps on a machine m. -/
def ETraps (s : State) (e : Eng) (i : Instr) (m : Mach) (k : Cause) (v : W64) : Prop :=
  exec i s = .next { s with mach := m.takeTrap s.mach.cur e k ((inst s).stream e).pc v }

/-- The word waits on a machine m. -/
def EWaits (s : State) (e : Eng) (i : Instr) (m : Mach) (k : WaitKind) : Prop :=
  exec i s = .next { s with mach := m.modInst s.mach.cur fun j => j.modStream e fun st => { st with wait := some ⟨k, m.cycle, i⟩ } }

/-- TVAL of a rejected operand of a V word (R185): the word, stream 1, bit 35, and the entry that offends. -/
def rejectVal (i : Instr) (k : Nat) (v : W64) : Prop :=
  ∃ e w, encode i = some (e, w) ∧ v = BitVec.ofNat 64 (w + 2 ^ 32 + 2 ^ 35 + k * 2 ^ 36)

/-- A source field names a view that is set, a read port on a configured buffer, or the scalar queue (R151, R163). -/
def SourceOk (i : Inst) : Src → Prop
  | .view n => i.v.views.get n ≠ 0
  | .port n => let p := i.v.ports.get n
    p.isSet = true ∧ (portD p.desc).write = false
      ∧ ((portD p.desc).cbm = true → (i.x.cbs.get (Fin.ofNat 16 (portD p.desc).base)).ready = true)
  | .sq => True

/-- The sources of a word are read, for a number of rows (R153, R159–R163, R186). -/
def Reads (s : State) (y : Sync) (a : Src) (b : Option Src) (ra rb : Bool) (rows : Nat) (xa xb : SrcVal) (m : Mach) : Prop :=
  (readSrcs s.mach.cur a b ra rb rows).go (begun s .V y) = (.ok (xa, xb), m)

/-- The elements of some positions of a view, each with a value and the flags it brings. -/
def elements (pos : List (Nat × Nat)) (val : Nat → Nat → XNum × BitVec 6) : List Elem :=
  pos.map fun p => { r := p.1, c := p.2, x := (val p.1 p.2).1, fl := (val p.1 p.2).2 }

/-- The positions of a shape that a mask selects, in row-major order (R156, R164). -/
def chosen (i : Inst) (mask : Fin 8) (rows cols : Nat) : List (Nat × Nat) :=
  ((List.range rows).flatMap fun r => (List.range cols).map fun c => (r, c)).filter fun p => i.v.maskBit mask p.1 p.2

/-- The word completes: the tile is written with codes, the generator of V stands at g, flags are raised in V's copy and
element operations charged (R73, R82, R155, R263). -/
def TileDone (s : State) (y : Sync) (i : Instr) (m : Mach) (d : ViewD) (zero : Bool)
    (r : List (Nat × Nat × Nat) × W32 × BitVec 6) (n : Nat) : Prop :=
  EPasses s .V y.push i ((m.modInst s.mach.cur fun j => { j with
      flags := vset j.flags 1 (j.flags.get 1 ||| r.2.2), gens := vset j.gens 1 r.2.1
      v := { j.v with tile := putTile j.v.tile d zero r.1 } }).modCtx (inst s).id.ctx.val fun x =>
    { x with act := { x.act with vec := x.act.vec + n } })

/-- The word completes as TileDone says; or TRAPEN enables a flag, and it takes ARITH and writes nothing (R84). -/
def TileGives (s : State) (y : Sync) (i : Instr) (m : Mach) (d : ViewD) (zero : Bool)
    (r : List (Nat × Nat × Nat) × W32 × BitVec 6) (n : Nat) : Prop :=
  if r.2.2 &&& s.seq.trapen = 0 then TileDone s y i m d zero r n
  else ETraps s .V i ((begun s .V y).keepMoves m) .arith (r.2.2.setWidth 64)

/-- As TileGives, for the elements of some positions, rounded in order (R73, R156). -/
def ElementsGive (s : State) (y : Sync) (i : Instr) (m : Mach) (d : ViewD) (zero : Bool) (rd : Rounder)
    (pos : List (Nat × Nat)) (val : Nat → Nat → XNum × BitVec 6) : Prop :=
  TileGives s y i m d zero (roundElems d.fmt rd ((m.inst s.mach.cur).gens.get 1) (elements pos val)) pos.length

end Sys2Proof.Claims

/-- R39, R40, R139, R184, R217, R242: VNOP, MNOP and XNOP do nothing but their sync pop and push. A pop waits for its
token and traps TOKEN_ORPHAN when the peer has ended; a push that finds its queue full stalls the stream, its word done. -/
def Sys2Proof.Claims.SyncNibble : Prop :=
  ∀ (s : State) (e : Eng) (y : Sync) (i : Instr) (p : Eng),
    (e = .V ∧ i = .vnop y) ∨ (e = .M ∧ i = .mnop y) ∨ (e = .X ∧ i = .xnop y) →
      (Starts s e y → EPasses s e y.push i (begun s e y))
      ∧ (Starts s e { y with pop := 0 } → peerOf e y.pop = some p → (inst s).tokens p e = 0 →
          ((inst s).stream p).ended = false → EWaits s e i s.mach (.token p))
      ∧ (Starts s e { y with pop := 0 } → peerOf e y.pop = some p → (inst s).tokens p e = 0 →
          ((inst s).stream p).ended = true → ETraps s e i s.mach .tokenOrphan (BitVec.ofNat 64 y.pop.val))
      ∧ (Starts s e { y with push := 0 } → peerOf e y.push = some p → ((begun s e y).inst s.mach.cur).tokens e p = 15 →
          ((inst s).stream p).ended = false →
          EWaits s e i ((begun s e y).modInst s.mach.cur fun j => j.modStream e fun st => { st with pushing := some p }) (.push p))

/-- R184, R217, R242: VEND, MEND and XEND end their stream; MEND waits for the commits, XEND for the transfers. -/
def Sys2Proof.Claims.EndWords : Prop :=
  ∀ (s : State) (y : Sync),
    let i := inst s
    (Starts s .V y → EEnds s .V y.push (.vend y) (begun s .V y))
    ∧ (Starts s .M y →
        (i.m.active = none ∧ i.m.pending = none ∧ i.m.pushes = [] → EEnds s .M y.push (.mend y) (begun s .M y))
        ∧ (¬(i.m.active = none ∧ i.m.pending = none ∧ i.m.pushes = []) → EWaits s .M (.mend y) (begun s .M y) (.retry 9 0)))
    ∧ (Starts s .X y →
        (i.x.xfers = [] ∧ i.x.pushes = [] → EEnds s .X y.push (.xend y) (begun s .X y))
        ∧ (¬(i.x.xfers = [] ∧ i.x.pushes = []) → EWaits s .X (.xend y) (begun s .X y) (.retry 8 0)))

/-- R150, R151, R166: VVIEW sets a view from the next scalar-queue entry, whose fields are those of Table 6.1; a
malformed descriptor traps ILLEGAL and one beyond the tile store PROTECTION, the entry consumed. Without an entry V
waits. -/
def Sys2Proof.Claims.ViewWords : Prop :=
  ∀ (s : State) (y : Sync) (d : Fin 16) (e : W64) (rest : List W64) (v : W64) (o : Nat),
    let i := inst s
    let word := Instr.vview y d
    let f := viewD e
    let size := f.fmt.size
    let taken := (begun s .V y).modSeq s.mach.cur fun q => { q with sq := rest }
    let good := e < 2 ^ 49 ∧ 1 ≤ f.pitch ∧ f.ac * size ≤ f.pitch ∧ f.vr ≤ f.ar ∧ f.vc ≤ f.ac
    f.off = (e.extractLsb' 0 14).toNat * 16 ∧ f.pitch = (e.extractLsb' 14 10).toNat * 16
    ∧ f.ar = (e.extractLsb' 24 6).toNat + 1 ∧ f.ac = (e.extractLsb' 30 6).toNat + 1 ∧ f.vr = (e.extractLsb' 36 6).toNat + 1
    ∧ f.vc = (e.extractLsb' 42 6).toNat + 1 ∧ f.fmt = (if e.getLsbD 48 then .bf16 else .fp32)
    ∧ (Starts s .V y → i.s.sq = e :: rest →
        (good → (∀ r < f.ar, f.off + r * f.pitch + f.ac * size ≤ i.id.tsFoot) →
          EPasses s .V y.push word (taken.modInst s.mach.cur fun j => { j with v := { j.v with views := vset j.v.views d e } }))
        ∧ (¬good → rejectVal word 0 v → ETraps s .V word taken .illegal v)
        ∧ (good → viewBreach f i.id.tsFoot = some o → ETraps s .V word taken .protection (BitVec.ofNat 64 o)))
    ∧ (Starts s .V y → i.s.sq = [] → i.s.st.ended = false → EWaits s .V word (begun s .V y) .sqEmpty)

/-- R157, R158, R166: VPSET sets a port from six scalar-queue entries, frees a slot that the port held and empties its
latch; a descriptor with a reserved bit traps ILLEGAL, one of no format FORMAT, a misaligned one MISALIGNED. -/
def Sys2Proof.Claims.PortWords : Prop :=
  ∀ (s : State) (y : Sync) (d : Fin 8) (e : Vector W64 6) (rest : List W64) (v : W64) (k : Nat) (n : Int),
    let i := inst s
    let word := Instr.vpset y d
    let taken := (begun s .V y).modSeq s.mach.cur fun q => { q with sq := rest }
    let old := i.v.ports.get d
    Starts s .V y → i.s.sq = e.toList ++ rest →
      (portReserved e = none → (portD e).formatOk = true → (portD e).misaligned = none →
        EPasses s .V y.push word (taken.modInst s.mach.cur fun j =>
          let j := match old.held with
            | some slot => j.setCb (Fin.ofNat 16 (portD old.desc).base) fun b => { b with slots := b.slots.set slot .free }
            | none => j
          { j with v := { j.v with ports := vset j.v.ports d { isSet := true, desc := e, j := 0, held := none, latch := none } } }))
      ∧ (portReserved e = some k → rejectVal word k v → ETraps s .V word taken .illegal v)
      ∧ (portReserved e = none → (portD e).formatOk = false → ETraps s .V word taken .format 0)
      ∧ (portReserved e = none → (portD e).formatOk = true → (portD e).misaligned = some n →
          ETraps s .V word taken .misaligned (BitVec.ofInt 64 n))

/-- R153: what a source gives. A view gives the value of its tile's element, and +0 outside its valid shape; the scalar
queue gives the FP32 value of an entry's low half at every position. -/
def Sys2Proof.Claims.ViewSources : Prop :=
  ∀ (s : State) (y : Sync) (a b : Fin 16) (ra rb : Bool) (rows r c : Nat) (e : W64) (rest : List W64),
    let m := begun s .V y
    let i := inst s
    let value := fun (n : Fin 16) =>
      let v := viewD (i.v.views.get n)
      if r < v.vr ∧ c < v.vc then
        decodeFloat v.fmt (loaded i.v.tile (v.off + r * v.pitch + c * v.fmt.size) v.fmt.size false).toNat
      else (.zero, 0)
    (∃ xa xb, Reads s y (.view a) (some (.view b)) ra rb rows xa xb m ∧ xa.get r c = value a ∧ xb.get r c = value b)
    ∧ (i.s.sq = e :: rest → ∃ xa xb, Reads s y (.view a) (some .sq) ra rb rows xa xb
        (m.modSeq s.mach.cur fun q => { q with sq := rest })
        ∧ xa.get r c = value a ∧ xb.get r c = (ofFp32 (e.toNat % 2 ^ 32), 0))

/-- R155: a write of a view writes the elements it names, zero clears the rest of the allocated shape, and no other byte
of the tile store changes.
What counts as a vector operation is the model's reading (entry 18). -/
def Sys2Proof.Claims.TileWrites : Prop :=
  ∀ (t : Cells 8) (d : ViewD) (zero : Bool) (l : List (Nat × Nat × Nat)) (k : Nat),
    let at' := fun (r c : Nat) => d.off + r * d.pitch + c * d.fmt.size
    let covers := fun (r c : Nat) => at' r c ≤ k ∧ k < at' r c + d.fmt.size
    let new := cellGet (putTile t d zero l) k
    d.ac * d.fmt.size ≤ d.pitch → (l.map fun e => (e.1, e.2.1)).Nodup → (∀ e ∈ l, e.1 < d.ar ∧ e.2.1 < d.ac) →
      (∀ r c code, (r, c, code) ∈ l → covers r c → new = BitVec.ofNat 8 (code / 256 ^ (k - at' r c)))
      ∧ ((∀ e ∈ l, ¬covers e.1 e.2.1) →
          (zero = true → (∃ r < d.ar, ∃ c < d.ac, covers r c) → new = 0)
          ∧ (¬(zero = true ∧ ∃ r < d.ar, ∃ c < d.ac, covers r c) → new = cellGet t k))

/-- R156, R169–R173: the element words write, at each position that the mask selects, the rounding of a function of the
sources and, for VFMA, of the old element. -/
def Sys2Proof.Claims.ElementWords : Prop :=
  ∀ (s : State) (o : VMod) (d : Fin 16) (a b : Src) (xa xb : SrcVal) (m : Mach) (sat : Bool),
    let i := inst s
    let dv := viewD (i.v.views.get d)
    let mode := s.seq.mode
    let ar : Rounder := fun f x g => roundFmt x f mode s.seq.arsat g
    let gives := fun (word : Instr) (rd : Rounder) (val : Nat → Nat → XNum × BitVec 6) =>
      ElementsGive s o.sync word m dv o.zero rd (chosen i o.mask dv.vr dv.vc) val
    let one := fun (word : Instr) (f : XNum → XNum × BitVec 6) =>
      gives word ar fun r c => ((f (xa.get r c).1).1, (xa.get r c).2 ||| (f (xa.get r c).1).2)
    let two := fun (word : Instr) (f : XNum → XNum → XNum × BitVec 6) =>
      gives word ar fun r c =>
        let v := f (xa.get r c).1 (xb.get r c).1
        (v.1, (xa.get r c).2 ||| (xb.get r c).2 ||| v.2)
    let old := fun (r c : Nat) => (decodeFloat dv.fmt (loaded i.v.tile (dv.at r c) dv.fmt.size false).toNat).1
    Starts s .V o.sync → i.v.views.get d ≠ 0 → SourceOk i a →
      (Reads s o.sync a none o.ra o.rb dv.vr xa xb m →
        one (.vmov o d a) (fun x => (x, 0)) ∧ one (.vabs o d a) (fun x => (absNum x, 0)) ∧ one (.vneg o d a) (fun x => (negNum x, 0))
        ∧ one (.vrcp o d a) rcpNum ∧ one (.vrsq o d a) rsqrtNum ∧ one (.vsqrt o d a) sqrtNum ∧ one (.vexp2 o d a) exp2Num
        ∧ one (.vlog2 o d a) log2Num ∧ one (.vtanh o d a) tanhNum
        ∧ gives (.vcvt o sat d a) (fun f x g => roundFmt x f mode sat g) (fun r c => xa.get r c)
        ∧ gives (.vrnd o d a) (fun f x g => roundIntegral x f mode s.seq.arsat g) (fun r c => xa.get r c))
      ∧ (SourceOk i b → Reads s o.sync a (some b) o.ra o.rb dv.vr xa xb m →
        two (.vadd o d a b) (fun x y => addNum x y mode) ∧ two (.vsub o d a b) (fun x y => addNum x (negNum y) mode)
        ∧ two (.vmul o d a b) mulNum ∧ two (.vmin o d a b) (fun x y => (minNum x y, 0)) ∧ two (.vmax o d a b) (fun x y => (maxNum x y, 0))
        ∧ gives (.vfma o d a b) ar (fun r c =>
            let v := fmaNum (xa.get r c).1 (xb.get r c).1 (old r c) mode
            (v.1, (xa.get r c).2 ||| (xb.get r c).2 ||| v.2)))

/-- R167, R175, R181, R182: VLD writes the rows of a port and the residency mask, VSEL takes each element from one source
or the other, VTRN from the mirrored position, and VSHF from the place that an index tile names. -/
def Sys2Proof.Claims.MovingWords : Prop :=
  ∀ (s : State) (o : VMod) (y : Sync) (mask : Fin 8) (ra rb : Bool) (axis : Axis) (d b' : Fin 16) (p res : Fin 8) (a b : Src)
      (xa xb : SrcVal) (m : Mach) (rows : List (List LatchElem)),
    let i := inst s
    let dv := viewD (i.v.views.get d)
    let ar : Rounder := fun f x g => roundFmt x f s.seq.mode s.seq.arsat g
    let picked := chosen i o.mask dv.vr dv.vc
    Starts s .V o.sync → i.v.views.get d ≠ 0 →
      (SourceOk i (.port p) → res = 0 → (popRows s.mach.cur (some (p, o.ra)) none dv.vr).go (begun s .V o.sync) = (.ok (rows, []), m) →
        let pd := portD (i.v.ports.get p).desc
        ElementsGive s o.sync (.vld o d p res) m dv o.zero ar picked
          (SrcVal.rows pd.fmt pd.rlen ((s.mach.ctx i.id.ctx.val).codebooks.get (Fin.ofNat 8 pd.cslot)) rows).get)
      ∧ (y = o.sync → SourceOk i a → SourceOk i b → Reads s y a (some b) ra rb dv.vr xa xb m →
        ElementsGive s y (.vsel y mask ra rb d a b) m dv false ar
          ((List.range dv.vr).flatMap fun r => (List.range dv.vc).map fun c => (r, c))
          (fun r c => if i.v.maskBit mask r c then xa.get r c else xb.get r c))
      ∧ (SourceOk i a → Reads s o.sync a none o.ra false dv.vc xa xb m →
        ElementsGive s o.sync (.vtrn o d a) m dv o.zero ar picked (fun r c => xa.get c r))
      ∧ (SourceOk i a → i.v.views.get b' ≠ 0 → ¬(axis = .cols ∧ ∃ n, a = .port n) → Reads s o.sync a none o.ra false dv.vr xa xb m →
        let index := fun (r c : Nat) => shuffleIndex ((SrcVal.tile (viewD (i.v.views.get b')) (m.inst s.mach.cur).v).get r c).1
        ElementsGive s o.sync (.vshf o axis d a b') m dv o.zero ar picked (fun r c =>
          match index r c, axis with
          | some n, .rows => xa.get r n
          | some n, .cols => xa.get n c
          | none, _ => (.zero, flagInvalid)))

/-- R79, R80, R179, R180: VRED gives the tree sum of each line and VSCAN its running sums, line by line and rounded in
order. With a view as its source and no flag enabled to trap (TRAPEN 0) each of the two answers a next state whatever the
tile holds.
What counts as a vector operation is the model's reading (entry 18). -/
def Sys2Proof.Claims.LineWords : Prop :=
  ∀ (s : State) (o : VMod) (axis : Axis) (d : Fin 16) (a : Src) (xa xb : SrcVal) (m : Mach) (shape : ViewD),
    let i := inst s
    let j := m.inst s.mach.cur
    let dv := viewD (i.v.views.get d)
    let n := match axis with | .rows => shape.vr | .cols => shape.vc
    let m0 := begun s .V o.sync
    let red := fun (j : Inst) (x : SrcVal) =>
      (List.range n).foldl (fun acc k => redLine j o.mask x dv axis shape.vr shape.vc k acc) ([], j.gens.get 1, 0)
    let scan := fun (j : Inst) (x : SrcVal) =>
      (List.range n).foldl (fun acc k => scanLine j o.mask x dv axis shape.vr shape.vc k acc) ([], j.gens.get 1, 0)
    Starts s .V o.sync → i.v.views.get d ≠ 0 → SourceOk i a →
    shape = (match a with | .view k => viewD (i.v.views.get k) | _ => dv) →
      (Reads s o.sync a none o.ra false shape.vr xa xb m →
        TileGives s o.sync (.vred o axis d a) m dv o.zero (red j xa) (red j xa).1.length
        ∧ TileGives s o.sync (.vscan o axis d a) m dv o.zero (scan j xa) (scan j xa).1.length)
      ∧ ∀ k, a = .view k → s.seq.trapen = 0 →
        let j := m0.inst s.mach.cur
        let x := SrcVal.tile shape j.v
        TileDone s o.sync (.vred o axis d a) m0 dv o.zero (red j x) (red j x).1.length
        ∧ TileDone s o.sync (.vscan o axis d a) m0 dv o.zero (scan j x) (scan j x).1.length

/-- R164, R174, R176–R178, R183: the words over masks. VCMP, VMLOG and VMSET write every bit of a mask but m0; VMCNT pushes a
count and VXS a widened element to F2, which is waited for while it is full and discards the word once S has ended. Each
of the five answers a next state with its effect: VMLOG always, VMSET and VMCNT with their views set, VXS with an entry of
its form, and VCMP with a view among its sources that is read (two views always are, with TRAPEN 0); VCMP of two sources
that name no view is rejected. -/
def Sys2Proof.Claims.MaskWords : Prop :=
  ∀ (s : State) (y : Sync) (mask k p q : Fin 8) (ra rb : Bool) (pred : VPred) (op : MaskOp) (pat : MaskPat) (a b : Src) (v : Fin 16)
      (shape : Option (Fin 16)) (xa xb : SrcVal) (m : Mach) (dv : ViewD) (e v' : W64) (rest : List W64),
    let i := inst s
    let c := s.mach.cur
    let m0 := begun s .V y
    let writes := fun (word : Instr) (m : Mach) (bit : Nat → Nat → Bool) =>
      ∃ j : Inst, EPasses s .V y.push word (m.setInst c j) ∧ j = { m.inst c with v := { (m.inst c).v with masks := j.v.masks } }
        ∧ ∀ x r' c', r' < 64 → c' < 64 → j.v.maskBit x r' c' = if x = k then bit r' c' else i.v.maskBit x r' c'
    let set := i.v.views.get v ≠ 0
    let vd := viewD (i.v.views.get v)
    let pushes := fun (word : Instr) (m : Mach) (x : Nat) =>
      (i.s.st.ended = false → i.fifo.f2.length < 64 →
        EPasses s .V y.push word (m.modInst c fun j => { j with fifo := { j.fifo with f2 := j.fifo.f2 ++ [BitVec.ofNat 64 x] } }))
      ∧ (i.s.st.ended = true → EPasses s .V y.push word m)
      ∧ (i.s.st.ended = false → 64 ≤ i.fifo.f2.length → EWaits s .V word m0 (.fifoFull 2))
    Starts s .V y → k ≠ 0 →
      (writes (.vmlog y op k p q) m0 fun r c =>
        let x := i.v.maskBit p r c
        let z := i.v.maskBit q r c
        match op with | .and => x && z | .or => x || z | .xor => x ^^ z | .andn => x && !z)
      ∧ (set → writes (.vmset y pat k v) m0 fun r c =>
          decide (r < vd.vr ∧ c < vd.vc) && match pat with | .clr => false | .shape => true | .lower => decide (c ≤ r) | .upper => decide (r ≤ c))
      ∧ (SourceOk i a → SourceOk i b →
          let word := Instr.vcmp y mask ra rb pred k a b
          let result := fun (m : Mach) (xa xb : SrcVal) =>
            let on := chosen i mask dv.vr dv.vc
            let fl := on.foldl (fun f p => f ||| (xa.get p.1 p.2).2 ||| (xb.get p.1 p.2).2) 0
            (fl &&& s.seq.trapen = 0 →
              writes word ((m.modInst c fun j => { j with flags := vset j.flags 1 (j.flags.get 1 ||| fl) }).modCtx i.id.ctx.val
                fun x => { x with act := { x.act with vec := x.act.vec + on.length } }) fun r c =>
                  let x := (xa.get r c).1
                  let z := (xb.get r c).1
                  decide (r < dv.vr ∧ c < dv.vc) && i.v.maskBit mask r c
                    && match pred with
                      | .eq => eqNum x z | .lt => ltNum x z | .le => leNum x z | .ne => !eqNum x z)
            ∧ (fl &&& s.seq.trapen ≠ 0 → ETraps s .V word (m0.keepMoves m) .arith (fl.setWidth 64))
          (((∃ n, a = .view n ∧ dv = viewD (i.v.views.get n)) ∨ ((∀ n, a ≠ .view n) ∧ ∃ n, b = .view n ∧ dv = viewD (i.v.views.get n))) →
            Reads s y a (some b) ra rb dv.vr xa xb m → result m xa xb)
          ∧ (∀ n n', a = .view n → b = .view n' → dv = viewD (i.v.views.get n) →
            let j := (m0.inst c).v
            result m0 (.tile dv j) (.tile (viewD (i.v.views.get n')) j))
          ∧ ((∀ n, a ≠ .view n ∧ b ≠ .view n) → rejectVal word 0 v' → ETraps s .V word m0 .illegal v'))
      ∧ ((∀ n, shape = some n → i.v.views.get n ≠ 0) →
          let size := match shape with | some n => ((viewD (i.v.views.get n)).vr, (viewD (i.v.views.get n)).vc) | none => (64, 64)
          pushes (.vmcnt y p shape) m0 (chosen i p size.1 size.2).length)
      ∧ (set → i.s.sq = e :: rest →
          let taken := m0.modSeq c fun q => { q with sq := rest }
          (e < 2 ^ 12 →
            let x := (SrcVal.tile vd i.v).get (e.extractLsb' 6 6).toNat (e.extractLsb' 0 6).toNat
            pushes (.vxs y v) taken (roundCore x.1 .fp32 .rne false 0 none).code)
          ∧ (2 ^ 12 ≤ e → rejectVal (.vxs y v) 0 v' → ETraps s .V (.vxs y v) taken .illegal v'))

/-- R167: VLD with a residency mask also sets it, one bit for each element of the port's rows that was not resident. -/
def Sys2Proof.Claims.ResidencyMask : Prop :=
  ∀ (s : State) (o : VMod) (d : Fin 16) (p res : Fin 8) (m : Mach) (rows : List (List LatchElem)),
    let i := inst s
    let dv := viewD (i.v.views.get d)
    let pd := portD (i.v.ports.get p).desc
    let val := (SrcVal.rows pd.fmt pd.rlen ((s.mach.ctx i.id.ctx.val).codebooks.get (Fin.ofNat 8 pd.cslot)) rows).get
    let r := roundElems dv.fmt (fun f x g => roundFmt x f s.seq.mode s.seq.arsat g) (i.gens.get 1)
      (elements (chosen i o.mask dv.vr dv.vc) val)
    Starts s .V o.sync → i.v.views.get d ≠ 0 → SourceOk i (.port p) → res ≠ 0 →
    (popRows s.mach.cur (some (p, o.ra)) none dv.vr).go (begun s .V o.sync) = (.ok (rows, []), m) → r.2.2 &&& s.seq.trapen = 0 →
      ∃ t, exec (.vld o d p res) s = .next t ∧ (inst t).v.tile = putTile i.v.tile dv o.zero r.1
        ∧ (inst t).gens = vset i.gens 1 r.2.1 ∧ (inst t).flags = vset i.flags 1 (i.flags.get 1 ||| r.2.2)
        ∧ ∀ x r' c', r' < 64 → c' < 64 → (inst t).v.maskBit x r' c' =
            if x = res then decide (r' < dv.vr ∧ c' < dv.vc ∧ c' < pd.rlen)
              && (match (rows[r']?).bind (·[c']?) with | some e => e.flag | none => false)
            else i.v.maskBit x r' c'

/-- R161: reading a row of an unscaled port in the scratchpad, resident and inside the partition, gives each element's
code, and the port's walk goes on by one row. -/
def Sys2Proof.Claims.PortRow : Prop :=
  ∀ (s : State) (y : Sync) (n : Fin 8) (row : Int),
    let i := inst s
    let p := i.v.ports.get n
    let d := portD p.desc
    let size := halfBytes d.fmt / 2
    d.cbm = false → d.geo = 0 → d.formatOk = true → 2 ≤ halfBytes d.fmt → i.pad.regions = [] →
    row = d.base + d.off p.j → 0 ≤ row → row.toNat + d.rlen * size ≤ i.id.part →
      ∃ l m, (popRows s.mach.cur (some (n, false)) none 1).go (begun s .V y) = (.ok ([l], []), m)
        ∧ l.length = d.rlen
        ∧ (∀ c < d.rlen, ∃ e, l[c]? = some e ∧ e.flag = false ∧ e.scale = none
            ∧ e.code = (loaded i.pad.bytes (row.toNat + c * size) size false).toNat)
        ∧ m = (begun s .V y).modInst s.mach.cur fun j => { j with v := { j.v with
            ports := vset j.v.ports n { p with j := (p.j + 1) % d.rows, latch := some l } } }

/-- R168, R187: VST stores the elements that the mask selects, rounded to the port's format in order, through a write port
of the scratchpad; the port goes on by the view's rows. Here the port is unscaled, no region is mapped, every address is
inside the partition, and TRAPEN enables no flag raised.
That a VST which faults has moved nothing of its generator and FLAGS is the model's choice (entry 14). -/
def Obligations.VectorStore : Prop :=
  ∀ (s : State) (y : Sync) (mask : Fin 8) (d : Fin 8) (a : Fin 16) (f : Fmt),
    let i := inst s
    let v := viewD (i.v.views.get a)
    let p := i.v.ports.get d
    let pd := portD p.desc
    let pos := (chosen i mask v.vr v.vc).filter fun e => e.2 < pd.rlen
    let addr := fun (e : Nat × Nat) => (pd.base : Int) + pd.off ((p.j + e.1) % pd.rows) + (e.2 * f.size : Nat)
    let r := roundElems f (fun f x g => roundFmt x f s.seq.mode s.seq.stsat g) (i.gens.get 1)
      (elements pos fun r c => (((SrcVal.tile v i.v).get r c).1, 0))
    Starts s .V y → i.v.views.get a ≠ 0 → p.isSet = true → pd.write = true → pd.cbm = false → pd.geo = 0 →
    fmtOfCode pd.fmt = some f → i.pad.regions = [] → (∀ e ∈ pos, 0 ≤ addr e ∧ addr e + f.size ≤ i.id.part) →
    r.2.2 &&& s.seq.trapen = 0 →
      EPasses s .V y.push (.vst y mask d a) (((begun s .V y).modInst s.mach.cur fun j => { j with
          pad := { j.pad with bytes := (pos.zip r.1).foldl (fun b e => cellsWrite b (addr e.1).toNat (bytesOf f.size e.2.2.2)) j.pad.bytes }
          flags := vset j.flags 1 (j.flags.get 1 ||| r.2.2), gens := vset j.gens 1 r.2.1
          v := { j.v with ports := vset j.v.ports d { p with j := (p.j + v.vr) % pd.rows } } }).modCtx i.id.ctx.val fun x =>
        { x with act := { x.act with vec := x.act.vec + pos.length } })


namespace Sys2Proof.Claims

/-- The bytes of a parameter record of the instance of the core whose turn it is (R51). -/
def recordOf (s : State) (rec : BitVec 17) : List Byte := cellsRead (inst s).pad.bytes (rec.toNat * 32) 32

/-- The record lies in the partition and its bytes are resident. -/
def RecordReads (s : State) (rec : BitVec 17) : Prop :=
  rec.toNat * 32 + 32 ≤ (inst s).id.part ∧ Resident (inst s).pad (rec.toNat * 32)

/-- The byte at a local address reads as zero for a word of the stream: its block's fill, which the word has waited for,
met a page that is not resident, or its slot's fill could not read the line (R347, R348). -/
def Absent (p : Pad) (e : Eng) (l : Nat) : Prop :=
  ∃ r, p.regionAt l = some r ∧
    if r.cached then ∃ t, p.tags.find? (fun t => t.slot == r.blockAt l) = some t ∧ t.state = .nrvalid ∧ (l - r.blockAt l) / 64 ∈ t.lines
    else r.blockAt l ∉ p.filled ∧ ∃ g, alookup p.outcomes (r.blockAt l + engCode e) = some (.nonresident g)

/-- The unsigned field of n bytes at an offset of a record (R2). -/
def ufield (l : List Byte) (o n : Nat) : Nat := ∑ k : Fin n, (l.getD (o + k.val) 0).toNat * 256 ^ k.val

/-- The signed field of 4 bytes at an offset of a record. -/
def sfield (l : List Byte) (o : Nat) : Int := (BitVec.ofNat 32 (ufield l o 4)).toInt

/-- TVAL of a rejected record of M or X (R205, R235): the word, the stream, bit 35 and the field's offset in words. -/
def rejectRecord (i : Instr) (off : Nat) (v : W64) : Prop :=
  ∃ e w, encode i = some (e, w) ∧ v = BitVec.ofNat 64 (w + engCode e * 2 ^ 32 + 2 ^ 35 + off / 4 * 2 ^ 36)

/-- M's word sets the shadow configuration and changes nothing else. -/
def Configures (s : State) (y : Sync) (i : Instr) (g : NestCfg) : Prop :=
  EPasses s .M y.push i ((begun s .M y).modInst s.mach.cur fun j => { j with m := { j.m with shadow := g } })

/-- X's word changes the transfer unit and nothing else. -/
def Transfers (s : State) (push : Fin 4) (y : Sync) (i : Instr) (x : Xunit) : Prop :=
  EPasses s .X push i ((begun s .X y).modInst s.mach.cur fun j => { j with x := { x with st := j.x.st } })

end Sys2Proof.Claims

/-- R205–R210: MNEST, MBASE, MMASK and MBMAP ON write the shadow from a record of 32 bytes whose fields are in range; a
field out of range traps ILLEGAL with its place in TVAL. -/
def Sys2Proof.Claims.NestRecords : Prop :=
  ∀ (s : State) (y : Sync) (lv : Fin 6) (op : ABSel) (rec : BitVec 17) (v : W64),
    let i := inst s
    let g := i.m.shadow
    let l := recordOf s rec
    let u := ufield l
    let n := sfield l
    let zero := fun (a b : Nat) => ∀ k, a ≤ k → k < b → l.getD k 0 = 0
    let ctrl := BitVec.ofNat 32 (u 12 4)
    let space := (ctrl.extractLsb' 0 2).toNat
    let geo := (ctrl.extractLsb' 2 2).toNat
    let status := BitVec.ofNat 64 (u 16 8)
    Starts s .M y → i.m.pending = none → RecordReads s rec →
      (u 2 2 = 0 ∧ n 8 % 32 = 0 ∧ n 12 % 64 = 0 ∧ (lv ≠ 0 ∨ n 12 = 0) ∧ zero 16 32 →
        Configures s y (.mnest y lv rec) { g with lv := vset g.lv lv { count := u 0 2 + 1, astep := n 4, bstep := n 8, cstep := n 12 } })
      ∧ (u 2 2 ≠ 0 → rejectRecord (.mnest y lv rec) 0 v → ETraps s .M (.mnest y lv rec) (begun s .M y) .illegal v)
      ∧ ((space = 0 → u 0 8 < 2 ^ 22) ∧ (space = 1 → u 0 8 < 16) ∧ (space = 2 → Canonical (BitVec.ofNat 64 (u 0 8)))
          ∧ ctrl < 16 ∧ space ≠ 3 ∧ geo ≠ 3 ∧ (geo ≠ 0 → space = 0) ∧ (geo = 0 → u 16 8 = 0) ∧ (geo ≠ 0 → u 16 8 < 2 ^ 22) ∧ zero 24 32 →
        Configures s y (.mbase y .a rec) { g with a := { addr := u 0 8, pitch := u 8 4, space, geo, saddr := u 16 8 } })
      ∧ (u 0 4 < 2 ^ 21 ∧ u 0 4 % 32 = 0 ∧ u 4 4 < 3 ∧ u 8 4 < 2 ^ 21 ∧ u 8 4 % 64 = 0 ∧ (u 4 4 = 0 → u 8 4 = 0) ∧ zero 12 32 →
        Configures s y (.mbase y .b rec) { g with b := { off := u 0 4, geo := u 4 4, soff := u 8 4 } })
      ∧ (u 0 4 ∈ [0, 64, 128, 192] ∧ zero 4 32 → Configures s y (.mbase y .c rec) { g with crow0 := u 0 4 })
      ∧ (1 ≤ u 0 4 ∧ u 0 4 ≤ 768 ∧ 1 ≤ u 4 4 ∧ u 4 4 ≤ 256 ∧ 1 ≤ u 8 4 ∧ u 8 4 ≤ 4194304 ∧ zero 12 16 ∧ status % 32 = 0
          ∧ status.extractLsb' 22 41 = 0 ∧ zero 24 32 →
        Configures s y (.mmask y rec) { g with mask :=
          ⟨u 0 4, u 4 4, u 8 4, (status.extractLsb' 0 22).toNat, status.getLsbD 63⟩ })
      ∧ (u 0 4 < 2 ^ 22 ∧ u 0 4 % 8 = 0 ∧ (∀ k < 7, n (4 + 4 * k) % 8 = 0) →
          let b : Bitmap := { base := u 0 4, k := n 4, m := n 8, l := [n 12, n 16, n 20, n 24, n 28] }
          Configures s y (.mbmapOn y op rec) (match op with | .a => { g with mapA := some b } | .b => { g with mapB := some b }))

/-- R64, R204, R213: MFMT, MBMAP OFF, MCODE and MACC write the shadow, MACC CLEAR also clears the set; an undeclared set
traps PROTECTION; a word of the configuration waits while a commit is pending. -/
def Sys2Proof.Claims.NestSettings : Prop :=
  ∀ (s : State) (y : Sync) (fa fb : MFormat) (op : ABSel) (slot : Fin 8) (set : Fin 3),
    let i := inst s
    let g := i.m.shadow
    let code := fun (f : MFormat) => match f with | .bf16 => 2 | .fp16 => 3 | .e4m3 => 4 | .e5m2 => 5 | .code4 => 6
    let book := (s.mach.ctx i.id.ctx.val).codebooks.get slot
    Starts s .M y →
      (i.m.pending = none →
        Configures s y (.mfmt y fa fb) { g with fa := code fa, fb := code fb }
        ∧ Configures s y (.mbmapOff y op) (match op with | .a => { g with mapA := none } | .b => { g with mapB := none })
        ∧ Configures s y (.mcode y op slot) (match op with | .a => { g with cbA := book } | .b => { g with cbB := book })
        ∧ (i.id.accsets.getLsbD set.val = true → Configures s y (.macc y set) { g with set }
          ∧ (i.m.active = none → ∃ a, (∀ k, cellGet a k = if set.val * 65536 ≤ k ∧ k < set.val * 65536 + 65536 then 0 else cellGet i.m.acc k)
            ∧ EPasses s .M y.push (.maccClear y set) ((begun s .M y).modInst s.mach.cur fun j =>
                { j with m := { j.m with shadow := { g with set }, acc := a } })))
        ∧ (i.id.accsets.getLsbD set.val = false →
          ETraps s .M (.macc y set) (begun s .M y) .protection (BitVec.ofNat 64 set.val)
          ∧ ETraps s .M (.maccClear y set) (begun s .M y) .protection (BitVec.ofNat 64 set.val)))
      ∧ (i.m.pending ≠ none → ∀ w ∈ [Instr.mfmt y fa fb, .mbmapOff y op, .mcode y op slot, .macc y set, .maccClear y set],
          EWaits s .M w (begun s .M y) (.retry 0 0))

/-- R203, R205, R214, R260: MLDB writes rows of the scratchpad into the B slices of the groups it names, and each line
counts its writes and takes the generation of the context's key. It answers a next state with this effect where its record
is in range, the rows lie in the partition and are resident, no commit reads what it writes, and no line comes to its last
count. A row whose fill met a page that is not resident is written as zeros, and the nest keeps its address. It waits for a
commit that reads what it writes, and for the walk of a line at its last count. -/
def Sys2Proof.Claims.BLoad : Prop :=
  ∀ (s : State) (y : Sync) (groups : BitVec 4) (rec : BitVec 17) (v : W64),
    let i := inst s
    let c := s.mach.cur
    let m0 := begun s .M y
    let word := Instr.mldb y groups rec
    let l := recordOf s rec
    let src := ufield l 0 8
    let rows := ufield l 8 4 + 1
    let rb := ufield l 12 4
    let off := ufield l 24 4
    let addr := fun (g r : Nat) => (src : Int) + g * sfield l 20 + r * sfield l 16
    let named := fun (g : Nat) => g < 4 ∧ groups.getLsbD g = true
    let cell := fun (g r k : Nat) => g * 2 ^ 21 + off + r * rb + k
    let x := s.mach.ctx i.id.ctx.val
    let line := fun (g k : Nat) => c.val * 2 ^ 17 + g * 2 ^ 15 + k
    let touches := fun (r k : Nat) => 64 * k < off + (r + 1) * rb ∧ off + r * rb < 64 * k + 64
    let kept := m0.modInst c fun j => { j with m := { j.m with record := some l } }
    let reads := fun (k : Commit) => (∃ g, named g ∧ k.active g = true) ∧ k.readsB off (rows * rb) = true
    let resident := fun (g r : Nat) => ∀ k, (addr g r).toNat ≤ k → k < (addr g r).toNat + rb → Resident i.pad k
    let absent := fun (g r : Nat) => ∀ k, (addr g r).toNat ≤ k → k < (addr g r).toNat + rb → Absent i.pad .M k
    Starts s .M y → RecordReads s rec →
      (¬(src < 2 ^ 22) → rejectRecord word 0 v → ETraps s .M word kept .illegal v)
      ∧ (src < 2 ^ 22 → rows ≤ 2 ^ 16 → rb ∈ [32, 64, 128] → off < 2 ^ 21 → off % 32 = 0 → ufield l 28 4 = 0 →
        (i.id.bsFoot < off + rows * rb → ETraps s .M word kept .protection (BitVec.ofNat 64 off))
        ∧ (off + rows * rb ≤ min i.id.bsFoot (2 ^ 21) →
          ((∃ k, (i.m.active = some k ∨ i.m.pending = some k) ∧ reads k) → EWaits s .M word kept (.retry 9 0))
          ∧ ((∀ k, i.m.active = some k ∨ i.m.pending = some k → ¬reads k) →
            (∀ g r, named g → r < rows → 0 ≤ addr g r ∧ addr g r + rb ≤ i.id.part) →
            (∀ g r, named g → r < rows → resident g r ∨ absent g r) →
            alookup s.mach.ctxs i.id.ctx.val = some x →
            (∀ g k, named g → off / 64 ≤ k → 64 * k < off + rows * rb → (x.line (line g k)).count.toNat + rows < 0xFFFF) →
              ∃ b nr x', EPasses s .M y.push word ((m0.modInst c fun j =>
                    { j with m := { j.m with bstore := b, nraddr := nr } }).setCtx i.id.ctx.val x')
                ∧ (∀ g r k, named g → r < rows → k < rb →
                    (resident g r → cellGet b (cell g r k) = cellGet i.pad.bytes ((addr g r).toNat + k))
                    ∧ (absent g r → cellGet b (cell g r k) = 0))
                ∧ (∀ k, (∀ g r j, named g → r < rows → j < rb → k ≠ cell g r j) → cellGet b k = cellGet i.m.bstore k)
                ∧ (i.m.nraddr ≠ none → nr = i.m.nraddr) ∧ ((∀ g r, named g → r < rows → resident g r) → nr = i.m.nraddr)
                ∧ ((∃ g r, named g ∧ r < rows ∧ absent g r) → nr ≠ none)
                ∧ x' = { x with lines := x'.lines }
                ∧ (∀ g k, named g → k < 2 ^ 15 →
                    (x'.line (line g k)).count.toNat = (x.line (line g k)).count.toNat
                      + (List.range rows).countP (fun r => decide (touches r k))
                    ∧ ((∃ r < rows, touches r k) → (x'.line (line g k)).gen = x.gen))
                ∧ ∀ n, (∀ g r k, named g → r < rows → touches r k → n ≠ line g k) → x'.line n = x.line n)))

/-- R85, R197, R215: MGO accepts a commit of the shadow, with SCALE_OFFSET as it stands: it starts where none is active,
each active group's sub-arrays taking its first jobs in order, and is pending otherwise. A second pending commit is
waited for. The step mgo answers a next state with its effect. -/
def Sys2Proof.Claims.CommitWords : Prop :=
  ∀ (s : State) (y : Sync) (n : Fin 6),
    let i := inst s
    let k : Commit := { cfg := i.m.shadow, n := n.val + 1, mgo := i.m.st.pc, push := peerOf .M y.push, scaleOff := i.s.scaleOff }
    let word := Instr.mgo y n
    Starts s .M { y with push := 0 } →
      (i.m.pending = none → k.cfg.mask.rows ≠ 0 → k.firstBadB i.id.bsFoot = none →
        firstBadRow i.id.accsets k.cfg.mblocks k.outer.reverse (256 * k.cfg.set.val + k.cfg.crow0 : Nat) = none →
        (i.m.active = none → ∃ m : Mat, EPasses s .M 0 word ((begun s .M y).modInst s.mach.cur fun j => { j with m := { m with st := j.m.st } })
          ∧ m = { i.m with active := some k, pending := none, counters := m.counters, sas := m.sas, done := [], slots := []
                           fault := none, dropped := false, ksteps := 0, kskip := 0 }
          ∧ ∀ g : Fin 4, m.counters.get g = (if 64 * g.val < k.cfg.mask.cols then min 4 k.jobs else 0)
            ∧ ∀ x : Fin 4, m.sas.get (Fin.ofNat 16 (4 * g.val + x.val)) =
                { job := if 64 * g.val < k.cfg.mask.cols ∧ x.val < k.jobs then some x.val else none, k := 0, idle := false })
        ∧ (i.m.active ≠ none → EPasses s .M 0 word ((begun s .M y).modInst s.mach.cur fun j => { j with m := { j.m with pending := some k } })))
      ∧ (i.m.pending ≠ none → EWaits s .M word (begun s .M y) (.retry 0 0))

/-- R205, R216: MDRN to the scratchpad stores the accumulators of the rows and columns that its record selects, each
rounded to the record's format, or added to the element it replaces and then rounded: it answers a next state with this
effect where its record is in range, no commit has a job row in the set, and every element lies in the partition and is
resident. To a global address it answers a next state where each element's store, made in order, does. It waits for a
commit with a job row in the set; an undeclared set traps PROTECTION. -/
def Sys2Proof.Claims.Drain : Prop :=
  ∀ (s : State) (y : Sync) (set : Fin 3) (rec : BitVec 17) (f : Fmt) (d : DrainRec) (m : Mach),
    let i := inst s
    let c := s.mach.cur
    let word := Instr.mdrn y set rec
    let m0 := begun s .M y
    let l := recordOf s rec
    let ctrl := BitVec.ofNat 32 (ufield l 12 4)
    let mode := rmodeOf (ctrl.extractLsb' 4 3).toNat
    let rsel := ufield l 16 4
    let csel := ufield l 20 4
    let row0 := rsel % 256
    let col0 := csel % 256
    let nr := rsel / 256
    let nc := csel / 256
    let positions := (List.range nr).flatMap fun r => (List.range nc).map fun c => (r, c)
    let addr := fun (r c : Nat) => ufield l 0 8 + r * ufield l 8 4 + c * f.size
    let acc := fun (r c : Nat) => cellGet i.m.acc (set.val * 65536 + (row0 + r) * 256 + (col0 + c))
    let one := fun (a : Cells 8 × W32 × BitVec 6) (p : Nat × Nat) =>
      let x := ofFp32 (acc p.1 p.2).toNat
      let old := decodeFloat f (loaded a.1 (addr p.1 p.2) f.size false).toNat
      let sum := addNum x old.1 mode
      let v := if ctrl.getLsbD 8 then (sum.1, old.2 ||| sum.2) else (x, 0)
      let r := roundFmt v.1 f mode (ctrl.getLsbD 7) a.2.1
      (cellsWrite a.1 (addr p.1 p.2) (bytesOf f.size r.1.code), r.2, a.2.2 ||| r.1.flags ||| v.2)
    let res := positions.foldl one (i.pad.bytes, i.gens.get 2, i.flags.get 2)
    let busy := ∃ k, (i.m.active = some k ∨ i.m.pending = some k) ∧ k.rowIn set.val = true
    let kept := m0.modInst c fun j => { j with m := { j.m with record := some l } }
    let legal := ctrl < 2 ^ 9 ∧ (ctrl.extractLsb' 4 3).toNat ≤ 4 ∧ fmtOfCode (ctrl.extractLsb' 1 3).toNat = some f
      ∧ ufield l 8 4 % f.size = 0 ∧ rsel < 2 ^ 17 ∧ 1 ≤ nr ∧ row0 + nr ≤ 256 ∧ csel < 2 ^ 17 ∧ 1 ≤ nc ∧ col0 + nc ≤ 256
      ∧ (∀ k, 24 ≤ k → k < 32 → l.getD k 0 = 0)
      ∧ (ctrl.getLsbD 0 = false → ufield l 0 8 < 2 ^ 22) ∧ (ctrl.getLsbD 0 = true → Canonical (BitVec.ofNat 64 (ufield l 0 8)))
    Starts s .M y →
      (i.id.accsets.getLsbD set.val = false → ETraps s .M word m0 .protection (BitVec.ofNat 64 set.val))
      ∧ (i.id.accsets.getLsbD set.val = true → RecordReads s rec → legal →
        (busy → EWaits s .M word kept (.retry 9 0))
        ∧ (¬busy → ctrl.getLsbD 0 = false →
            (∀ r c, r < nr → c < nc → addr r c + f.size ≤ i.id.part ∧ Resident i.pad (addr r c) ∧ Resident i.pad (addr r c + f.size - 1)) →
            ∃ dirty sig, EPasses s .M y.push word (m0.modInst c fun j =>
                { j with pad := { j.pad with bytes := res.1, dirty }, gens := vset j.gens 2 res.2.1, flags := vset j.flags 2 res.2.2, sig })
              ∧ (i.pad.regions = [] → dirty = i.pad.dirty) ∧ (i.id.dual = false → sig = i.sig)
              ∧ ∀ k, (∀ r c, r < nr → c < nc → ¬(addr r c ≤ k ∧ k < addr r c + f.size)) → cellGet dirty k = cellGet i.pad.dirty k)
        ∧ (¬busy → ctrl.getLsbD 0 = true → (drainRecord word l).go kept = (.ok d, kept) →
            (positions.forM fun p => drainGlobal c d (addr p.1 p.2 % 2 ^ 64) (acc p.1 p.2)).go kept = (.ok (), m) →
            EPasses s .M y.push word (m.modInst c fun j => { j with m := { j.m with record := none } })))

/-- R196–R198: one K-step of a sub-array adds, to each accumulator of its rows and columns, the sum of the products of
the A and B elements of the K-step, and touches no other accumulator. Here A lies unscaled in the scratchpad, B is
unscaled, no bitmap is on, no region is mapped, every address is inside, and nothing throttles. The step kstepEnd
answers a next state with its effect. -/
def Obligations.KStep : Prop :=
  ∀ (s : State) (c : CoreId) (sa : Fin 16) (k : Commit) (j n : Nat),
    let i := s.mach.inst c
    let g := k.cfg
    let grp := sa.val / 4
    let b := j % g.mblocks
    let ix := (k.tuple j).2
    let kks := (List.range 64).filter fun kk => 64 * n + kk < g.mask.depth
    let start := fun (r kk : Nat) => 2 * ((g.a.addr : Int) + dotSteps ix (k.outer.map (·.astep)) + (64 * b + r : Nat) * (g.a.pitch : Int)
      + n * k.inner.astep) + (kk * halfBytes g.fa : Nat)
    let size := max 1 (halfBytes g.fa / 2)
    let aval := fun (r kk : Nat) =>
      (decodeCode g.fa (halfCode g.fa (cellsRead i.pad.bytes (start r kk / 2).toNat size) (start r kk % 2 == 1)) g.cbA).1
    let bval := fun (kk col : Nat) =>
      (readB i.m g grp ((g.b.off : Int) + dotSteps ix (k.outer.map (·.bstep)) + n * k.inner.bstep + kk * (g.rb : Int)) col).1
    let place := fun (r col : Nat) => ((k.crow j).toNat + r) * 256 + 64 * grp + col
    let inside := fun (r col : Nat) => r < 64 ∧ col < 64 ∧ 64 * b + r < g.mask.rows ∧ 64 * grp + col < g.mask.cols
    (s.mach.core c).resident = true → i.m.active = some k → i.m.mayStep k sa = some (j, n) → g.a.space = 0 → g.a.geo = 0 → g.b.geo = 0 →
    g.mapA = none → g.mapB = none → i.pad.regions = [] → 2 ≤ g.fa → g.fa ≤ 6 →
    s.pwr.modthr = 0 → s.pwr.dieThr.get (dieOf c) = 0 → (s.mach.ctx i.id.ctx.val).thr = 0 →
    (∀ r kk, 64 * b + r < g.mask.rows → r < 64 → kk ∈ kks → 0 ≤ start r kk ∧ start r kk / 2 + size ≤ i.id.part) →
      ∃ t, exec (.kstepEnd c sa) s = .next t
        ∧ (∀ r col, inside r col → cellGet (t.mach.inst c).m.acc (place r col) =
            (kstep (cellGet i.m.acc (place r col)) (kks.map fun kk => (aval r kk, bval kk col))).1)
        ∧ (∀ q, (∀ r col, inside r col → q ≠ place r col) → cellGet (t.mach.inst c).m.acc q = cellGet i.m.acc q)
        ∧ (t.mach.inst c).m.ksteps = i.m.ksteps + 1 ∧ t.mach.mem = s.mach.mem ∧ (t.mach.inst c).pad.bytes = i.pad.bytes
        ∧ (n + 1 < k.inner.count →
            let a := (t.mach.inst c).m.sas.get sa
            a.job = some j ∧ a.k = n + 1 ∧ a.idle = false)

/-- R201, R211, R218, R261: the end of a throttle idle, the end of a commit, with its status record where it has one, and
the end of a re-key walk, which begins the next where a line has come to its last count meanwhile. A throttle timer
of an idle time that has ended before does nothing. Each of throttleIdleEnd, commitEnd and rekeyDone answers a next
state with its effect. -/
def Sys2Proof.Claims.NestSteps : Prop :=
  ∀ (s : State) (c : CoreId) (sa : Fin 16) (k next : Commit) (ctx : CtxId) (key : BitVec 128),
    let i := s.mach.inst c
    let x := s.mach.ctx ctx.val
    let a := k.cfg.mask.statusAddr
    let idle := exec (.throttleIdleEnd c sa) s
    (if (i.m.sas.get sa).wake ≤ s.mach.cycle then
        idle = .next { s with mach := s.mach.modInst c fun j => { j with m := { j.m with
          sas := vset j.m.sas sa { j.m.sas.get sa with idle := false } } } }
      else idle = .next s)
    ∧ ((s.mach.core c).resident = true → i.m.active = some k → i.m.fault = none → i.m.allEnded k = true →
        i.m.slots = [] → i.m.pushes = [] → k.push = none →
        (k.cfg.mask.sen = true → a + 32 ≤ i.id.part ∧ i.pad.regions = []) →
        ∃ t, exec (.commitEnd c) s = .next t ∧ t = { s with mach := s.mach.setInst c (t.mach.inst c) }
          ∧ (let j := t.mach.inst c
             let at' := fun (o : Nat) => (loaded j.pad.bytes (a + o) 8 false).toNat
             j = { i with m := j.m, pad := { i.pad with bytes := j.pad.bytes } }
             ∧ j.m.acc = i.m.acc ∧ j.m.bstore = i.m.bstore ∧ j.m.shadow = i.m.shadow
             ∧ j.m.st = i.m.st ∧ j.m.pending = none
             ∧ (k.cfg.mask.sen = false → j.pad.bytes = i.pad.bytes ∧ j.m.nraddr = i.m.nraddr)
             ∧ (k.cfg.mask.sen = true → j.m.nraddr = none
                 ∧ at' 0 = i.m.ksteps % 2 ^ 64 ∧ at' 8 = i.m.kskip % 2 ^ 64 ∧ at' 16 = (i.m.nraddr.getD 0) % 2 ^ 64
                 ∧ at' 24 = i.m.nraddr.isSome.toNat + 2 * i.m.dropped.toNat
                 ∧ ∀ q, ¬(a ≤ q ∧ q < a + 32) → cellGet j.pad.bytes q = cellGet i.pad.bytes q)
             ∧ (i.m.pending = none → j.m.active = none)
             ∧ (i.m.pending = some next → j.m.active = some next ∧ j.m.ksteps = 0 ∧ j.m.kskip = 0)))
    ∧ (let done := { x with key := some key, newKey := none, gen := !x.gen, lines := x.lines.map fun e => (e.1, ⟨0, !x.gen⟩) }
       (x.newKey = none → exec (.rekeyDone ctx) s = .next s)
       ∧ (x.newKey = some key → x.rekeyNext = false →
           exec (.rekeyDone ctx) s = .next { s with mach := s.mach.setCtx ctx.val done })
       ∧ (x.newKey = some key → x.rekeyNext = true → ∃ t, exec (.rekeyDone ctx) s = .next t
           ∧ t.mach.ctx ctx.val = { done with
               rekeyNext := false, newKey := some (aes128 key (BitVec.ofNat 128 (0x52454B4559 * 2 ^ 88 + (!x.gen).toNat))) }
           ∧ t.mach.timers = s.mach.timers ++ [(s.mach.cycle + 1, .rekeyDone ctx)]))

/-- R224, R226, R228–R236, R241: XCPY, XFILL, XGTH and XSCT issue a transfer of their record on a channel that holds fewer
than four: it takes the channel's next id and, into a circular buffer, the slot at the producer's head. Their push is the
transfer's, made when it ends. A full channel is waited for. -/
def Sys2Proof.Claims.IssueWords : Prop :=
  ∀ (s : State) (y : Sync) (ch : Fin 8) (rec : BitVec 17) (d : CopyD) (gd : GatherD) (sf df : Nat) (word : Instr) (kind : XKind)
      (buf : Option (Fin 16)),
    let i := inst s
    let m := begun s .X y
    let l := recordOf s rec
    let addr := rec.toNat * 32
    let id := (i.x.tissue.get ch).toNat + 1
    let rej := recordVal word .X
    let checked :=
      (word = .xcpy y ch rec ∧ kind = .copy ∧ (checkCopy s.mach.cur rej false true l addr).go m = (.ok (d, sf, df), m)
          ∧ buf = if d.dsp = 3 then some (Fin.ofNat 16 d.dst) else none)
      ∨ (word = .xfill y ch rec ∧ kind = .fill ∧ (checkCopy s.mach.cur rej true true l addr).go m = (.ok (d, sf, df), m)
          ∧ buf = if d.dsp = 3 then some (Fin.ofNat 16 d.dst) else none)
      ∨ (word = .xgth y ch rec ∧ kind = .gather ∧ sf = 0 ∧ df = 0 ∧ (checkGather s.mach.cur rej false l addr).go m = (.ok gd, m)
          ∧ buf = if gd.lsp = 3 then some (Fin.ofNat 16 gd.loc) else none)
      ∨ (word = .xsct y ch rec ∧ kind = .scatter ∧ sf = 0 ∧ df = 0 ∧ (checkGather s.mach.cur rej true l addr).go m = (.ok gd, m)
          ∧ buf = if gd.lsp = 3 then some (Fin.ofNat 16 gd.loc) else none)
    let t := fun (slot : Option Nat) => ({ ch, id, kind, body := l, recAddr := addr, pc := i.x.st.pc, slot
                                           push := peerOf .X y.push, sfmt := sf, dfmt := df
                                           scaleOff := i.s.scaleOff } : Transfer)
    let issued := fun (slot : Option Nat) (cbs : Vector CBuf 16) =>
      Transfers s 0 y word { i.x with cbs, tissue := vset i.x.tissue ch (BitVec.ofNat 48 id), xfers := i.x.xfers ++ [t slot] }
    Starts s .X { y with push := 0 } → RecordReads s rec → checked → id < 2 ^ 48 →
      ((i.x.xfers.filter (·.ch == ch)).length < 4 →
        (buf = none → issued none i.x.cbs)
        ∧ ∀ k, buf = some k →
          let b := i.x.cbs.get k
          (b.slotAt b.ph = .free →
            issued (some b.ph) (vset i.x.cbs k { b with slots := b.slots.set b.ph .filling, ph := (b.ph + 1) % b.n }))
          ∧ (b.slotAt b.ph ≠ .free → EWaits s .X word m (.retry 5 k.val)))
      ∧ (4 ≤ (i.x.xfers.filter (·.ch == ch)).length → EWaits s .X word m (.retry 8 ch.val))

/-- R237–R241: XWID passes once TDONE has reached the id, XCB sets up or empties a buffer with no slot in use, and XSTG
records its stage, having nothing to issue at the end of its schedule. -/
def Sys2Proof.Claims.TransferWords : Prop :=
  ∀ (s : State) (y : Sync) (ch : Fin 8) (cb : Fin 16) (rec : BitVec 17) (stage : Byte) (v : W64),
    let i := inst s
    let x := i.x
    let m := begun s .X y
    let l := recordOf s rec
    let u := ufield l
    let id := u 0 8
    let done := (x.tdone.get ch).toNat
    let issued := (x.tissue.get ch).toNat
    let zero := fun (a : Nat) => ∀ k, a ≤ k → k < 32 → l.getD k 0 = 0
    let inUse := ∃ t ∈ (x.cbs.get cb).slots, t = .filling ∨ t = .held
    Starts s .X y →
      (x.wid = none → issued ≤ done → Transfers s y.push y (.xwid y ch) x)
      ∧ (x.wid = none → done < issued →
          EWaits s .X (.xwid y ch) (m.modInst s.mach.cur fun j => { j with x := { j.x with wid := some issued } }) (.retry 8 ch.val))
      ∧ (RecordReads s rec →
          (id ≤ issued → zero 8 → id ≤ done → Transfers s y.push y (.xwidRec y ch rec) x)
          ∧ (id ≤ issued → zero 8 → done < id → EWaits s .X (.xwidRec y ch rec) m (.retry 8 ch.val))
          ∧ (issued < id → rejectRecord (.xwidRec y ch rec) 0 v → ETraps s .X (.xwidRec y ch rec) m .illegal v)
          ∧ (u 0 4 < 2 ^ 22 ∧ u 0 4 % 64 = 0 ∧ 64 ≤ u 4 4 ∧ u 4 4 ≤ 2 ^ 20 ∧ u 4 4 % 64 = 0 ∧ 1 ≤ u 8 4 ∧ u 8 4 ≤ 256 ∧ zero 12 →
              u 0 4 + u 8 4 * u 4 4 ≤ i.id.part →
              let b : CBuf := { ready := true, base := u 0 4, slot := u 4 4, n := u 8 4, ph := 0, rh := 0, slots := List.replicate (u 8 4) .free }
              (¬inUse → Transfers s y.push y (.xcbConfig y cb rec) { x with cbs := vset x.cbs cb b })
              ∧ (inUse → EWaits s .X (.xcbConfig y cb rec) m (.retry 5 cb.val))))
      ∧ (let b : CBuf := { x.cbs.get cb with ph := 0, rh := 0, slots := (x.cbs.get cb).slots.map fun _ => .free }
         ¬inUse → Transfers s y.push y (.xcbReset y cb) { x with cbs := vset x.cbs cb b })
      ∧ (inUse → EWaits s .X (.xcbReset y cb) m (.retry 5 cb.val))
      ∧ (y.push = 0 → x.stagings = [] → x.pushes = [] → i.id.schedLen ≤ x.pos →
          Transfers s 0 y (.xstg y stage) { x with nextStg := x.nextStg + 1, stage :=
            match x.stage with | some k => some (max k stage.toNat) | none => some stage.toNat })

namespace Sys2Proof.Claims

/-- What a granule of a transfer does, by the transfer's kind (R232, R236, R349). -/
def granuleRun (c : CoreId) (t : Transfer) : Run (Transfer × Option Stop) :=
  match t.kind with
  | .gather | .scatter => gatherGranule c t
  | .block => blockGranule c t
  | .copy | .fill => copyGranule c t

end Sys2Proof.Claims

/-- R91, R227, R232, R236, R349: TRANSFER_GRANULE. A granule of a copy or fill among the scratchpad, the tile store and the
circular buffers moves the bytes of its walk up to the 4 KiB it stands in, an aligned 8-byte unit of the destination whole:
each destination byte holds what the last byte of the walk that names it brings, and no other byte changes. A granule of
any kind whose accesses are made leaves the transfer where they leave it: so TRANSFER_GRANULE answers a next state with its
effect for a copy, a fill, a gather, a scatter and a block fill, converting ones and global ones included. Here no region is
mapped where a copy or fill stays on the core, and it does not convert.
How work is posted is the model's choice (entry 1), and NRADDR its reading (entry 10). -/
def Sys2Proof.Claims.Granules : Prop :=
  ∀ (s : State) (c : CoreId) (t u : Transfer) (before after : List Transfer) (m : Mach),
    let i := s.mach.inst c
    let d := copyD (t.kind == .fill) t.body
    let exec' := exec (.transferGranule c t.ch t.id) s
    let total := d.rows * d.srb
    let stop := min total (d.granuleEnd i t.slot d.srb ((t.pos / 4096 + 1) * 4096))
    let buffer := i.x.cbs.get (Fin.ofNat 16 d.dst)
    let base : Int := if d.dsp = 3 then (buffer.base + t.slot.getD 0 * buffer.slot : Nat) else d.dst
    let row := fun (q : Nat) => ((q / d.srb : Nat) : Int)
    let col := fun (q : Nat) => ((q % d.srb : Nat) : Int)
    let srcAt := fun (q : Nat) => (d.src : Int) + row q * (if d.spitch = 0 then (d.srb : Int) else d.spitch) + col q
    let dstAt := fun (q : Nat) => base + row q * (if d.dpitch = 0 then (d.srb : Int) else d.dpitch) + col q
    let brings := fun (q : Nat) =>
      if d.fill = true then BitVec.ofNat 8 (d.src / 2 ^ (q % d.srb % 8 * 8))
      else cellGet (if d.ssp = 1 then i.pad.bytes else i.v.tile) (srcAt q).toNat
    let moved := fun (q : Nat) => t.pos ≤ q ∧ q < stop
    (s.mach.core c).resident = true → i.x.xfers = before ++ t :: after → (∀ u ∈ before ++ after, ¬(u.ch = t.ch ∧ u.id = t.id)) →
      (t.state = .running → (t.kind = .copy ∨ t.kind = .fill) → (d.fill = false → converts t.sfmt t.dfmt = false) →
        (d.fill = false → d.ssp = 1 ∨ d.ssp = 2) → (d.dsp = 1 ∨ d.dsp = 2 ∨ d.dsp = 3) → i.pad.regions = [] →
        (t.nres = false → t.nraddr = 0) → t.pos < total → (∀ q, moved q → 0 ≤ dstAt q ∧ (d.fill = false → 0 ≤ srcAt q)) →
          ∃ v, exec' = .next v ∧ v = { s with mach := s.mach.setInst c (v.mach.inst c) }
            ∧ (let j := v.mach.inst c
               let new := fun (k : Nat) => if d.dsp = 2 then cellGet j.v.tile k else cellGet j.pad.bytes k
               let old := fun (k : Nat) => if d.dsp = 2 then cellGet i.v.tile k else cellGet i.pad.bytes k
               j = { i with
                 pad := { i.pad with bytes := j.pad.bytes }, v := { i.v with tile := j.v.tile }
                 x := { i.x with xfers := before ++ { t with pos := stop, gen0 := none } :: after } }
               ∧ (if d.dsp = 2 then j.pad.bytes = i.pad.bytes else j.v.tile = i.v.tile)
               ∧ (∀ q, moved q → (∀ q', moved q' → dstAt q' = dstAt q → q' ≤ q) → new (dstAt q).toNat = brings q)
               ∧ ∀ k : Nat, (∀ q, moved q → dstAt q ≠ k) → new k = old k))
      ∧ (s.mach.xferMoves c t = true → (granuleRun c t).go s.mach = (.ok (u, none), m) →
          exec' = .next { s with mach := m.modInst c fun j => { j with x := { j.x with
            xfers := j.x.xfers.map fun v => if v.ch = t.ch ∧ v.id = t.id then u else v } } })

/-- R225, R227, R233, R241, R349: TRANSFER_DONE. A transfer that has moved its last byte writes its completion record
where it has one, fills its slot, marks the tag that awaits it, leaves the channel, whose TDONE follows, and makes
its push, which waits in the unit where its queue is full. Here no earlier push waits, no XSTG stands, and no region
is mapped where there is a record. The step transferDone answers a next state with its effect.
How work is posted is the model's choice (entry 1). -/
def Sys2Proof.Claims.TransferEnds : Prop :=
  ∀ (s : State) (c : CoreId) (t : Transfer) (before after : List Transfer),
    let i := s.mach.inst c
    let gather := t.kind = .gather ∨ t.kind = .scatter
    let b := t.buffer
    (s.mach.core c).resident = true → i.x.xfers = before ++ t :: after → (∀ u ∈ before ++ after, ¬(u.ch = t.ch ∧ u.id = t.id)) →
    t.state = .running → t.total i ≤ t.pos → (t.crec = true → i.pad.regions = []) → i.x.pushes = [] → i.x.stagings = [] →
      ∃ u, exec (.transferDone c t.ch t.id) s = .next u ∧ u = { s with mach := s.mach.setInst c (u.mach.inst c) }
        ∧ (let j := u.mach.inst c
           let at' := fun (o : Nat) => (loaded j.pad.bytes (t.recAddr + 32 + o) 8 false).toNat
           j = { i with
             toks := j.toks, pad := { i.pad with bytes := j.pad.bytes, tags := j.pad.tags }
             x := { i.x with
               xfers := before ++ after, tdone := vset i.x.tdone t.ch (j.x.tdone.get t.ch), cbs := j.x.cbs, pushes := j.x.pushes } }
           ∧ (∀ u ∈ before ++ after, u.ch = t.ch → 1 ≤ u.id → (j.x.tdone.get t.ch).toNat < u.id)
           ∧ ((∀ u ∈ before ++ after, u.ch ≠ t.ch) → j.x.tdone.get t.ch = i.x.tissue.get t.ch)
           ∧ (∀ k, j.x.cbs.get k = match t.slot with
               | some n => if k = b then { i.x.cbs.get b with slots := (i.x.cbs.get b).slots.set n .filled } else i.x.cbs.get k
               | none => i.x.cbs.get k)
           ∧ (t.tag = none → j.pad.tags = i.pad.tags)
           ∧ (∀ g ∈ i.pad.tags, g.awaits t = false → g ∈ j.pad.tags)
           ∧ (∀ g ∈ i.pad.tags, g.awaits t = true → t.nres = false → { g with state := .valid } ∈ j.pad.tags)
           ∧ (match t.push with
              | none => j.toks = i.toks ∧ j.x.pushes = []
              | some e =>
                ((i.stream e).ended = true → j.toks = i.toks ∧ j.x.pushes = [])
                ∧ ((i.stream e).ended = false → i.tokens .X e < 15 → j.x.pushes = []
                    ∧ ∀ x y, j.tokens x y = if x = .X ∧ y = e then i.tokens x y + 1 else i.tokens x y)
                ∧ ((i.stream e).ended = false → i.tokens .X e = 15 → j.toks = i.toks ∧ j.x.pushes = [e]))
           ∧ (t.crec = false → j.pad.bytes = i.pad.bytes)
           ∧ (t.crec = true →
               at' 0 = t.id % 2 ^ 64 ∧ at' 8 = 1 + 2 * t.nres.toNat + 8 * t.oor.toNat + 16 * t.flags.toNat
               ∧ at' 16 = t.nraddr % 2 ^ 64 ∧ (gather → at' 24 = t.count % 2 ^ 64) ∧ (¬gather → at' 24 = t.nrLines.length % 2 ^ 64)
               ∧ ∀ k, ¬(t.recAddr + 32 ≤ k ∧ k < t.recAddr + 64) → cellGet j.pad.bytes k = cellGet i.pad.bytes k))

/-- R236, R247, R403: F1_RESULT. The gather engine runs the oldest complete F1 command of a core once it has it in
progress, and pushes its result word, tag and OOR count and the bits for what it met; a command whose fields are out
of range is rejected and does nothing else. The step f1Result answers a next state with its effect. -/
def Sys2Proof.Claims.GatherCommand : Prop :=
  ∀ (s : State) (c : CoreId) (h a b d e : W64) (rest : List (List W64)),
    let i := s.mach.inst c
    let tag := (h >>> 16).toNat % 2 ^ 32
    let g := gatherD (bodyBytes [a, b, d, e])
    let ends := fun (m : Mach) (w : W64) => exec (.f1Result c) s = .next { s with mach := m.modInst c fun j => { j with fifo :=
      { j.fifo with queue1 := j.fifo.queue1.drop 1, ended1 := j.fifo.ended1 + 1, res1 := j.fifo.res1 ++ [w] } } }
    (s.mach.core c).resident = true → i.fifo.queue1 = [h, a, b, d, e] :: rest → i.fifo.res1.length < 32 →
    s.mach.gatherRuns c none i.fifo.ended1 = true →
      (g.ntab = 0 ∨ 65536 < g.n ∨ g.idxa % 4 ≠ 0 ∨ g.crec = true ∨ g.lsp = 3 → ends s.mach (BitVec.ofNat 64 (tag + 2 ^ 50)))
      ∧ ∀ w m, (runF1 c (h.toNat % 256 == 2) tag (bodyBytes [a, b, d, e])).go s.mach = (.ok w, m) → ends m w


namespace Sys2Proof.Claims

/-- The wait log of the context of a core's instance is off (R417). -/
def Unlogged (s : State) (c : CoreId) : Prop := (s.mach.ctx (s.mach.inst c).id.ctx.val).wl.on = false

/-- The step ends the wait of S on a core, and the word that waited completes: the instance, with what the word did, is
i with the sequencer q, which goes on to the next word. -/
def WordEnds (s : State) (ev : Instr) (c : CoreId) (i : Inst) (q : Seq) : Prop :=
  ∃ t, exec ev s = .next t ∧ t = { s with mach := s.mach.setInst c (t.mach.inst c) }
    ∧ Worked i { q with st := { q.st with wait := none } }.advance (t.mach.inst c)

/-- The step ends the wait of a stream of V, M or X on a machine m, and its word, fetched before, runs at the stream's
next turn. -/
def RunsAgain (s : State) (ev : Instr) (m : Mach) (c : CoreId) (e : Eng) (word : Instr) : Prop :=
  exec ev s = .next { s with mach := m.modInst c fun i => i.modStream e fun st => { st with wait := some ⟨.retry 0 0, m.cycle, word⟩ } }

/-- The four streams of a core wait no more, no fill and no id is waited for, and no sub-array idles. -/
def roused (i : Inst) : Inst :=
  { i with
    s := { i.s with st := { i.s.st with wait := none }, checking := false }
    v := { i.v with st := { i.v.st with wait := none } }
    m := { i.m with st := { i.m.st with wait := none }, record := none, sas := i.m.sas.map fun a => { a with idle := false } }
    x := { i.x with st := { i.x.st with wait := none }, wid := none }
    pad := { i.pad with outcomes := [] } }

/-- The launch has failed with a status, and no instance of it is left (R282). -/
def HasFailed (m : Mach) (n st : Nat) : Prop :=
  (∃ l, m.launch n = some l ∧ l.st = .failed ∧ l.status = st)
  ∧ (∀ c, (m.core c).resident = true → (m.inst c).id.launch ≠ n) ∧ ∀ g ∈ m.images, g.inst.id.launch ≠ n

/-- The step retires a launch with a status: its completion word, where it names one in its function's window, counts
up by one, and nothing else is written (R282). -/
def Retires (s : State) (l : Launch) (st : Nat) : Prop :=
  ∃ t, exec (.launchRetire l.num) s = .next t ∧ t.mach.launch l.num = some { l with st := .retired, status := st }
    ∧ t.mach.cores = s.mach.cores
    ∧ (let m := s.mach
       let key := m.fnKey l.fn l.lr.compl
       (l.lr.compl = 0 → t.mach.mem = m.mem)
       ∧ (l.lr.compl ≠ 0 → l.lr.compl % 8 = 0 → m.inWindow l.fn (m.fn l.fn).winSpace l.lr.compl 8 = true →
          wordAt t.mach key = BitVec.ofNat 64 (((wordAt m key).toNat % 2 ^ 63 + 1) % 2 ^ 63 + (wordAt m key).toNat / 2 ^ 63 * 2 ^ 63)
          ∧ ∀ a, ¬(key ≤ a ∧ a < key + 8) → cellGet t.mach.mem a = cellGet m.mem a))

/-- A dependence of a launch: its word says that a launch has failed, that it is met, or neither (R281). -/
def DepFailed (m : Mach) (l : Launch) (a : Nat) : Prop := a ≠ 0 ∧ (m.word (m.fnKey l.fn a)).testBit 63 = true
def DepMet (m : Mach) (l : Launch) (a v : Nat) : Prop := a = 0 ∨ (m.word (m.fnKey l.fn a) < 2 ^ 63 ∧ v ≤ m.word (m.fnKey l.fn a))

end Sys2Proof.Claims

/-- R40, R49, R139–R141, R248, R302, R347: how waits end. At the cycles start + 64k of a spinning wait its word is tested
again: it completes and zeroes SPIN_COUNT, or adds one to it and goes on waiting; a test that an arriving page holds
up counts nothing and goes on. A token, room for one, an entry or room in the scalar queue or a FIFO, idle engines
and a block's fill end the waits for them at once. A push of VEND, MEND or XEND that had waited ends its stream, and
one behind its engine's earlier pushes to the queue waits on. Each step named here answers a next state. Each of
spinRecheck, tokenPopWake, tokenPushWake, scalarQueueWake, fifoWake, eidleWake and blockFillDone answers a next state
with its effect.
How work is posted is the model's choice (entry 1). -/
def Obligations.Wakes : Prop :=
  ∀ (s : State) (c : CoreId) (e src d : Eng) (p : Fin 3) (a : Reg) (since n f b : Nat) (w : W64) (rest : List W64) (mask : BitVec 3)
      (word : Instr) (g : Fin 3) (o : FillOutcome) (m' : Mach) (wk held : WaitKind) (again : Run Flow),
    let m := s.mach
    let i := m.inst c
    let k := peerEngine p
    let waits := fun (e : Eng) (kind : WaitKind) (word : Instr) => (i.stream e).wait = some ⟨kind, since, word⟩
    (m.core c).resident = true → Unlogged s c →
      (waits .S (.token k) (.waitk p) →
        (0 < i.tokens k .S → WordEnds s (.tokenPopWake c .S) c (i.setTokens k .S (i.tokens k .S - 1)) { i.s with spinCount := 0 })
        ∧ (m.cycle = since + 64 * (n + 1) →
          (0 < i.tokens k .S → WordEnds s (.spinRecheck c) c (i.setTokens k .S (i.tokens k .S - 1)) { i.s with spinCount := 0 })
          ∧ (i.tokens k .S = 0 → (i.stream k).ended = false →
            let count := if i.s.spinCount = BitVec.allOnes 32 then i.s.spinCount else i.s.spinCount + 1
            exec (.spinRecheck c) s = .next { s with mach := {
              m.setInst c { i with s := { i.s with spinCount := count, checking := false } } with
              timers := (m.timers.filter fun t => t.2 ≠ .spinRecheck c) ++ [(m.cycle + 64, .spinRecheck c)] } })))
      ∧ (waits .S wk word → wk.spins = true → retest c word = some again → m.cycle = since + 64 * (n + 1) →
          (again.go m = (.ok .fall, m') → exec (.spinRecheck c) s = .next { s with mach := m'.sFlow c .fall })
          ∧ (again.go m = (.error (.wait held), m') → held ≠ wk →
              exec (.spinRecheck c) s = .next { s with mach := m'.modSeq c fun q => { q with checking := true } }))
      ∧ (e ≠ .S → waits e (.token src) word →
        (0 < i.tokens src e →
          RunsAgain s (.tokenPopWake c e)
            (m.setInst c ((i.setTokens src e (i.tokens src e - 1)).modStream e fun st => { st with popped := true })) c e word)
        ∧ (i.tokens src e = 0 → (i.stream src).ended = true → exec (.tokenPopWake c e) s =
            .next { s with mach := m.takeTrap c e .tokenOrphan (i.stream e).pc (BitVec.ofNat 64 (peerCode e src)) }))
      ∧ (waits .S (.push k) (.sig p) → (i.stream k).ended = false → i.tokens .S k < 15 →
          WordEnds s (.tokenPushWake c .S) c (i.setTokens .S k (i.tokens .S k + 1)) i.s)
      ∧ (e ≠ .S → waits e (.push d) word → (i.stream e).pushing = some d →
          let ends := match word with | .vend _ => true | .mend _ => true | .xend _ => true | _ => false
          (i.behind e d = false → (i.stream d).ended = false → i.tokens e d < 15 →
            ∃ t, exec (.tokenPushWake c e) s = .next t ∧ t = { s with mach := m.setInst c (t.mach.inst c) }
              ∧ t.mach.inst c = { ((i.setTokens e d (i.tokens e d + 1)).modStream e fun st =>
                  { st with
                    pc := if ends then st.pc else st.pc + 4, ended := ends || st.ended, popped := false, pushing := none
                    wait := none }) with
                  pad := i.pad.forget e, dbg := { i.dbg with ran := (t.mach.inst c).dbg.ran } })
          ∧ (i.behind e d = true → exec (.tokenPushWake c e) s = .next s))
      ∧ (waits .S .sqFull (.sqput a) →
          (i.v.st.ended = false → i.s.sq.length < 32 →
            WordEnds s (.scalarQueueWake c .S) c i { i.s with sq := i.s.sq ++ [i.s.get a] })
          ∧ (i.v.st.ended = true → WordEnds s (.scalarQueueWake c .S) c i i.s))
      ∧ (waits .V .sqEmpty word → i.s.sq ≠ [] ∨ i.s.st.ended = true → RunsAgain s (.scalarQueueWake c .V) m c .V word)
      ∧ (waits .S (.fifoEmpty g.val) (.fpop a g) →
          (if g = 0 then i.fifo.res0 else if g = 1 then i.fifo.res1 else i.fifo.f2) = w :: rest →
          WordEnds s (.fifoWake c .S) c
            { i with fifo := if g = 0 then { i.fifo with res0 := rest } else if g = 1 then { i.fifo with res1 := rest }
                else { i.fifo with f2 := rest } } (i.s.put a w))
      ∧ (waits .V (.fifoFull 2) word → i.fifo.f2.length < 64 ∨ i.s.st.ended = true → RunsAgain s (.fifoWake c .V) m c .V word)
      ∧ (waits .S .eidle (.eidle mask) →
          (∀ q : Fin 3, mask.getLsbD q.val = true →
            (i.stream (peerEngine q)).ended = true
              ∨ ∃ y, (i.stream (peerEngine q)).wait = some y ∧ y.kind = .token .S ∧ i.tokens .S (peerEngine q) = 0) →
          (mask.getLsbD 1 = true → i.m.active = none ∧ i.m.pending = none) → (mask.getLsbD 2 = true → i.x.xfers = []) →
            WordEnds s (.eidleWake c) c i i.s)
      ∧ (m.fillWaiters c b = [(e, ⟨.fill b, f, word⟩)] →
          (b ∈ i.pad.filled → RunsAgain s (.blockFillDone c b) m c e word)
          ∧ (b ∉ i.pad.filled →
              ((fillBlock c b).go m = (.ok none, m') → (m'.ctx (m'.ctxOf c)).wl.on = false →
                RunsAgain s (.blockFillDone c b) m' c e word)
              ∧ ((fillBlock c b).go m = (.ok (some o), m') → (m'.ctx (m'.ctxOf c)).wl.on = false →
                RunsAgain s (.blockFillDone c b)
                  (m'.modInst c fun i => { i with pad := { i.pad with outcomes := aset i.pad.outcomes (b + engCode e) o } }) c e word)))

/-- R148, R189, R253, R255, R256, R260, R265: a pre-emption request ends every wait and idle cycle of its core, whose
release follows; the release saves the instance in its reservation, whose lines each count a write, frees the core
and completes a SUSPEND that waited for it; a request to a core that has one or holds nothing does nothing; and a
fault record takes the next SEQ of its context and is handed to the context's fault queue. Each of preemptionRequest,
coreReleased and faultRecord answers a next state with its effect.
That the steps of a pre-emption are posted on an agenda, in this order, is the model's choice (entry 1). -/
def Obligations.Preemption : Prop :=
  ∀ (s : State) (c : CoreId) (ctx : CtxId) (uid : Nat) (core : CoreId) (ti : TrapInfo) (g : Image),
    let m := s.mach
    let k := m.core c
    let i := m.inst c
    let n := i.id.ctx.val
    let x := m.ctx ctx.val
    let q := m.queue x.owner x.fqueue
    (k.resident = true → Unlogged s c → k.preempt = false →
      exec (.preemptionRequest c) s = .next { s with mach := { m.setCore c { k with preempt := true, inst := roused i } with
        agenda := m.agenda ++ [.coreReleased c] } })
    ∧ (k.resident = false ∨ k.preempt = true → exec (.preemptionRequest c) s = .next s)
    ∧ (k.resident = true → ∃ t, exec (.coreReleased c) s = .next t ∧ t.pwr = s.pwr
        ∧ (t.mach.core c).resident = false ∧ (∀ d, d ≠ c → t.mach.core d = m.core d)
        ∧ (let place := if k.starting = true then none else some (k.place, i.id.part)
           t.mach.images = m.images ++ [(
             { inst := { i with regs := [] }, core := c, place, spilled := false, seq := 0, saveAt := k.saveAt
               cbase := k.saveAt * 1024 } : Image)])
        ∧ (∀ j, j < i.id.imageKib →
            let old := ((m.ctx n).line (saveLine (k.saveAt + j))).count
            (t.mach.ctx n).line (saveLine (k.saveAt + j)) = { count := if old = 0xFFFF then old else old + 1, gen := (m.ctx n).gen })
        ∧ t.mach.mem = m.mem ∧ t.mach.agenda = m.agenda ++ [.placementEval (dieOf c)]
        ∧ ((∃ f, (m.fn f).suspendOf = some i.id.ctx) → (∀ d, d ≠ c → (m.core d).resident = true → m.ctxOf d ≠ n) →
            (t.mach.ctx n).st = .swapped
            ∧ ∀ f, (m.fn f).suspendOf = some i.id.ctx → (t.mach.fn f).ctxBusy = false ∧ (t.mach.fn f).ctxStatus = 0))
    ∧ (m.image uid = some g →
        let seq := (x.seq + 1).toNat
        ∃ t, exec (.faultRecord ctx uid core ti) s = .next t ∧ t.mach.ctx ctx.val = { x with seq := x.seq + 1 }
          ∧ t.mach.image uid = some { g with seq }
          ∧ (let bytes := faultBytes 1 ctx g.inst.id.num g.inst.id.run g.inst.id.tidx core ti seq
             (t.mach.queue x.owner x.fqueue).held = q.held ++ [{ bytes, ctx := some ctx }])
          ∧ t.mach.agenda = m.agenda ++ [.completionEntryPost x.owner (Fin.ofNat 8 x.fqueue)]
          ∧ t.mach.cores = m.cores ∧ t.mach.mem = m.mem)

/-- R59, R259, R281, R282, R286, R291, R294, R310: the start of an instance whose team is restored with nothing to evict
or replay: its parameters and views are loaded and the streams of the whole team run, and with a member still to be
restored it waits for that; an instance whose streams, transfers and commands have ended leaves its core and is
counted; a launch whose runs are all counted retires with status OK and its completion word counts up, or with dual
runs retires, runs a third time or fails as the signatures say; and a Waiting launch whose dependences are met
becomes Ready, fails when one has failed, or goes on waiting. That the steps are posted on an agenda is the model's
choice (entry 1). Each of instanceComplete, launchRetire, dependenceCheck and landingReplay answers a next state with
its effect. -/
def Obligations.LaunchEnds : Prop :=
  ∀ (s : State) (c : CoreId) (l : Launch) (tm : Team) (area views : List Byte) (m' : Mach),
    let m := s.mach
    let k := m.core c
    let i := m.inst c
    let n := i.id.ctx.val
    let x := m.ctx n
    let hdr := l.hdrOn (dieOf c)
    let mates := m.teamMates c
    let there := fun (d : CoreId) => (m.core d).restored = true ∨ (m.core d).starting = false
    let run := fun (m : Mach) => (c :: mates).foldl (fun m d => m.setCore d { m.core d with starting := false, restored := false }) m
    let sig := fun (r : Nat) => l.sigs.getD r 0
    let counted := l.st = .draining ∧ (∀ r, r < l.runs → l.counts.getD r 0 = l.lr.instn)
    (k.resident = true → k.starting = true →
      k.restored = true ∨ (k.moved = false ∧ m.overlaps c k.place i.id.part = [] ∧ i.partAt = none) →
      (∀ r ∈ x.landing, r.uid ≠ i.id.uid ∧ ∀ d ∈ mates, r.uid ≠ (m.inst d).id.uid) →
      (∀ d ∈ mates, (m.inst d).id.ctx = i.id.ctx) →
        (i.fresh = false ∨ k.restored = true →
          ((∀ d ∈ mates, there d) → exec (.landingReplay c) s = .next { s with mach := run m })
          ∧ ((∃ d ∈ mates, ¬there d) →
              exec (.landingReplay c) s = .next { s with mach := m.setCore c { k with restored := true } }))
        ∧ (i.fresh = true → k.restored = false → (∀ d ∈ mates, there d) → m.launch i.id.launch = some l →
            m.ctxRead n l.lr.param hdr.paramLen = some area → m.ctxRead n l.lr.views (16 * hdr.viewsLen) = some views →
              exec (.landingReplay c) s = .next { s with mach := run (m.modInst c fun i => { i with
                fresh := false, pad := { i.pad with bytes := cellsWrite i.pad.bytes 0 area }
                v := { i.v with views := initialViews i.id.tsFoot views } }) }))
    ∧ (k.resident = true → (∀ e, (i.stream e).ended = true) → i.x.xfers = [] → i.fifo.queue0 = [] → i.fifo.cmds = [] →
        i.fifo.queue1 = [] → i.pad.copies = [] → m.launch i.id.launch = some l → l.team? i.id.run i.id.team = some tm →
        i.id.run < l.counts.length → i.id.run < l.sigs.length →
          ∃ t l', exec (.instanceComplete c) s = .next t ∧ (t.mach.core c).resident = false
            ∧ (∀ d, d ≠ c → t.mach.core d = m.core d) ∧ t.mach.mem = m.mem
            ∧ (t.mach.ctx n).landing = x.landing.filter (·.uid ≠ i.id.uid)
            ∧ t.mach.launch i.id.launch = some l' ∧ l'.st = l.st
            ∧ (∀ r, l'.counts.getD r 0 = l.counts.getD r 0 + if r = i.id.run then 1 else 0)
            ∧ (∀ r, l'.sigs.getD r 0 = l.sigs.getD r 0 + if r = i.id.run then i.sig else 0)
            ∧ (Instr.launchRetire l.num ∈ t.mach.agenda ↔
                Instr.launchRetire l.num ∈ m.agenda ∨ (l.st = .draining ∧ ∀ r, r < l.runs → l'.counts.getD r 0 = l.lr.instn)))
    ∧ (m.launch l.num = some l → counted → l.lr.dual = false → Retires s l 0)
    ∧ (m.launch l.num = some l → counted ∨ l.st = .verifying → l.lr.dual = true →
        (l.runs ≤ 2 → sig 0 = sig 1 → Retires s l 0)
        ∧ (l.runs ≤ 2 → sig 0 ≠ sig 1 →
            let third := (homeTeams l.lr l.dies 2).map fun t => { t with since := m.cycle }
            (l.thirdFits s.pwr.insvc = true → ∃ t, exec (.launchRetire l.num) s = .next t
              ∧ t.mach.launch l.num = some { l with st := .dispatched, runs := 3, teams := l.teams ++ third }
              ∧ t.mach.mem = m.mem ∧ t.mach.cores = m.cores ∧ t.mach.agenda = m.agenda ++ l.onDies.map .placementEval)
            ∧ (l.thirdFits s.pwr.insvc = false → ∃ t, exec (.launchRetire l.num) s = .next t ∧ HasFailed t.mach l.num 8))
        ∧ (2 < l.runs → sig 2 = sig 0 → Retires s l 9)
        ∧ (2 < l.runs → sig 2 ≠ sig 0 → sig 2 = sig 1 → m.copyWindow { l with st := .verifying } = (m', true) →
            m'.launch l.num = some l →
            ∃ t, exec (.launchRetire l.num) s = .next t ∧ t.mach.launch l.num = some { l with st := .retired, status := 9 }
              ∧ (l.lr.compl = 0 → t.mach.mem = m'.mem))
        ∧ (2 < l.runs → sig 2 ≠ sig 0 → sig 2 ≠ sig 1 → ∃ t, exec (.launchRetire l.num) s = .next t ∧ HasFailed t.mach l.num 8))
    ∧ (m.launch l.num = some l → l.st = .waiting →
        (DepMet m l l.lr.dep0a l.lr.dep0v → DepMet m l l.lr.dep1a l.lr.dep1v →
          ∃ t, exec (.dependenceCheck l.num) s = .next t ∧ t.mach.mem = m.mem ∧ t.mach.cores = m.cores
            ∧ t.mach.launch l.num = some { l with st := .ready, teams := l.teams.map fun t => { t with since := m.cycle } }
            ∧ t.mach.agenda = m.agenda ++ l.onDies.map .placementEval)
        ∧ (DepFailed m l l.lr.dep0a ∨ DepFailed m l l.lr.dep1a →
            ∃ t, exec (.dependenceCheck l.num) s = .next t ∧ HasFailed t.mach l.num 6)
        ∧ (¬DepFailed m l l.lr.dep0a → ¬DepFailed m l l.lr.dep1a →
            ¬(DepMet m l l.lr.dep0a l.lr.dep0v ∧ DepMet m l l.lr.dep1a l.lr.dep1v) → exec (.dependenceCheck l.num) s = .next s))

/-- R22, R26–R30, R370, R399, R406, R423: what the outside does to the module: power, reset and verified boot, the power
and thermal throttles, the halt and its end, a host's access over CXL.mem, and the instructions of the test access
port. An event that no row of its table matches has no effect. A power row that applies discards the other power
events of its cycle; a host's write waits for the link of the die that holds its address. Each of modEnAssert,
powerOff, cxlFundamentalReset, bootVerification, powerWindowEnd, thermalSensorRead, powerOverrunStop, moduleResume,
cxlMemAccess, jtagBypass, jtagIdcode, jtagSamplePreload, jtagExtest and jtagPrivate answers a next state with its
effect.
That HBM keeps its bytes over a fundamental reset is the model's reading (entry 87), that PIN keeps the low 12 bits
of the power its choice (entry 88), and that a private instruction of the test access port is only recorded another
(entry 37). -/
def Obligations.PowerAndPorts : Prop :=
  ∀ (s : State) (b : BootInput) (d : DieId) (watts micros celsius millis addr code : Nat) (dies layers : List Nat) (data : List Byte)
      (ok : Bool) (h : Fin 12) (pc : Fin 384),
    let p := s.pwr
    let m := s.mach
    let runs := p.st = .active ∨ p.st = .halted
    let stops := ((List.finRange 48).filter fun c => (m.core c).resident).map Instr.preemptionRequest
    let halted := fun (p : Power) => ({ pwr := { p with st := .halted }, mach := { m with agenda := m.agenda ++ stops } } : State)
    let applied := { m with agenda := m.agenda.filter fun i => !powerRow i }
    let q : Power := { p with
      dieTemp := vset p.dieTemp d celsius
      dieThr := vset p.dieThr d (if celsius < 100 then 0 else if celsius < 105 then 1 else 2) }
    let resumes := dies.length = 4 ∧ layers.length = 192 ∧ (∀ t ∈ dies ++ layers, t ≤ 95) ∧ watts ≤ p.limit.toNat ∧ 10 ≤ millis
    (p.st = .off → exec (.modEnAssert true) s = .next { pwr := { st := .booting }, mach := { applied with jtagPriv := false } })
    ∧ (p.st ≠ .off ∨ ok = false → exec (.modEnAssert ok) s = .next s)
    ∧ (p.st ≠ .off → ∃ t, exec .powerOff s = .next t ∧ t.pwr = { st := .off }
        ∧ (∀ a, cellGet t.mach.mem a = if a < 2 ^ 64 then 0 else cellGet m.mem a)
        ∧ (∀ c, t.mach.core c = {}) ∧ (∀ n, (t.mach.ctx n).st = .free ∧ (t.mach.ctx n).key = none) ∧ t.mach.images = []
        ∧ ∀ i ∈ t.mach.agenda, i ∈ m.agenda ∧ powerRow i = false)
    ∧ (p.st = .off → exec .powerOff s = .next s)
    ∧ (p.st ≠ .off → ∃ t, exec .cxlFundamentalReset s = .next t ∧ t.pwr = State.reset.pwr ∧ t.mach.mem = m.mem
        ∧ (∀ c, (t.mach.core c) = {}) ∧ (∀ n, (t.mach.ctx n).st = .free ∧ (t.mach.ctx n).key = none)
        ∧ ∀ i ∈ t.mach.agenda, i ∈ m.agenda ∧ powerRow i = false)
    ∧ (p.st = .off → exec .cxlFundamentalReset s = .next s)
    ∧ (p.st = .booting →
        (b.keyDigestOk = true ∧ b.signatureOk = true ∧ b.minVersion ≤ b.version → ∃ t, exec (.bootVerification b) s = .next t
          ∧ t.pwr = { p with st := .active, insvc := b.insvc, meas := b.meas } ∧ t.mach.pkg = b.pkg
          ∧ (∀ l, (t.mach.gw.get l).st = .training) ∧ (∀ l, (t.mach.ucie.get l).st = .training) ∧ t.mach.mem = m.mem
          ∧ (m.cycle + 4916, .selfRefreshEntry h pc) ∈ t.mach.timers)
        ∧ (¬(b.keyDigestOk = true ∧ b.signatureOk = true ∧ b.minVersion ≤ b.version) →
            exec (.bootVerification b) s = .next { pwr := { p with st := .locked }, mach := applied }))
    ∧ (p.st ≠ .booting → exec (.bootVerification b) s = .next s)
    ∧ (p.st ≠ .off → exec (.powerWindowEnd watts) s = .next { s with pwr := { p with
        pin := BitVec.ofNat 12 watts
        modthr := if p.limit.toNat < watts then (if p.modthr = 0 then 1 else 2)
          else if 10 * watts < 9 * p.limit.toNat then (if p.modthr = 2 then 1 else 0) else p.modthr } })
    ∧ (p.st = .off → exec (.powerWindowEnd watts) s = .next s)
    ∧ (runs → celsius < 110 → exec (.thermalSensorRead d celsius) s = .next { s with pwr := q })
    ∧ (p.st = .active → 110 ≤ celsius → exec (.thermalSensorRead d celsius) s = .next (halted { q with haltTh := true }))
    ∧ (p.st = .halted → 110 ≤ celsius → exec (.thermalSensorRead d celsius) s = .next { s with pwr := { q with haltTh := true } })
    ∧ (¬runs → exec (.thermalSensorRead d celsius) s = .next s)
    ∧ (120 * p.limit.toNat < 100 * watts ∧ 50 < micros →
        (p.st = .active → exec (.powerOverrunStop watts micros) s = .next (halted { p with haltPw := true }))
        ∧ (p.st = .halted → exec (.powerOverrunStop watts micros) s = .next { s with pwr := { p with haltPw := true } }))
    ∧ (¬runs ∨ ¬(120 * p.limit.toNat < 100 * watts ∧ 50 < micros) → exec (.powerOverrunStop watts micros) s = .next s)
    ∧ (p.st = .halted → resumes →
        exec (.moduleResume dies layers watts millis) s = .next { pwr := { p with st := .active }, mach := applied })
    ∧ (p.st ≠ .halted ∨ ¬resumes → exec (.moduleResume dies layers watts millis) s = .next s)
    ∧ (addr + data.length ≤ 768 * 2 ^ 30 →
        exec (.cxlMemAccess addr false data) s = .next s
        ∧ (¬runs → exec (.cxlMemAccess addr true data) s = .next s)
        ∧ (runs → (∀ w ∈ m.hostWrites, m.iodUsable (dieOfPa w.1) = false) →
            (m.iodUsable (dieOfPa addr) = true → ∃ t, exec (.cxlMemAccess addr true data) s = .next t ∧ t.pwr = p
              ∧ t = { s with mach := { m with mem := t.mach.mem, poison := t.mach.poison } }
              ∧ (∀ a, cellGet t.mach.mem a = if addr ≤ a ∧ a < addr + data.length then data.getD (a - addr) 0 else cellGet m.mem a)
              ∧ ∀ l, l ∈ t.mach.poison ↔ l ∈ m.poison ∧ ¬(addr ≤ 64 * l ∧ 64 * l + 64 ≤ addr + data.length))
            ∧ (m.iodUsable (dieOfPa addr) = false → exec (.cxlMemAccess addr true data) s =
                .next { s with mach := { m with hostWrites := m.hostWrites ++ [(addr, data)] } })))
    ∧ (p.st ≠ .off →
        exec .jtagBypass s = .next { s with mach := { m with tap := .bypass } }
        ∧ exec .jtagIdcode s = .next { s with mach := { m with tap := .idcode } }
        ∧ exec .jtagSamplePreload s = .next { s with mach := { m with tap := .samplePreload } }
        ∧ exec .jtagExtest s = .next { s with mach := { m with tap := .extest } }
        ∧ (m.jtagPriv = true → exec (.jtagPrivate (.instruction code)) s = .next { s with mach := { m with tap := .priv code } }))
    ∧ (p.st = .off → ∀ i ∈ [Instr.jtagBypass, .jtagIdcode, .jtagSamplePreload, .jtagExtest], exec i s = .next s)
    ∧ (runs → exec (.jtagPrivate .enableByFirmware) s = .next { s with mach := { m with jtagPriv := true } })
    ∧ (¬runs → exec (.jtagPrivate .enableByFirmware) s = .next s)
    ∧ (m.jtagPriv = false → exec (.jtagPrivate (.instruction code)) s = .next s)


namespace Sys2Proof.Claims

/-- A context command of a function may run on a context: no SUSPEND of it is in progress, and the function owns the
context, finds it Free, or is the physical function (R251). -/
def Commands (s : State) (f : FnId) (ctx : CtxId) : Prop :=
  (∀ g, (s.mach.fn g).suspendOf ≠ some ctx)
  ∧ (f = 0 ∨ (s.mach.ctx ctx.val).st = .free ∨ (s.mach.ctx ctx.val).owner = f)

/-- The machine once the function's command has ended with a status. -/
def ended (m : Mach) (f : FnId) (st : BitVec 7) : Mach := m.setFn f { m.fn f with ctxBusy := false, ctxStatus := st }

/-- The command completes with status OK, having made the machine m. -/
def Completes (s : State) (i : Instr) (f : FnId) (m : Mach) : Prop := exec i s = .next { s with mach := ended m f 0 }

/-- The command fails with a status and changes nothing. -/
def Fails (s : State) (i : Instr) (f : FnId) (st : BitVec 7) : Prop := exec i s = .next { s with mach := ended s.mach f st }

end Sys2Proof.Claims

/-- R251–R253, R258, R260, R304, R404: BUILD, BIND, KEYLOAD, SUSPEND, RESUME and SPILL move a context through its states,
or fail with the status of what is wrong and change nothing else; KEYLOAD zeroes the key registers either way. A
SPILL moves every image with its plain header into the spill area, or none. Each of build, ctxBind, keyload, suspend,
ctxResume and spill answers a next state with its effect.
When SUSPEND ends is the model's reading (entry 42), the order of the checks its choice (entry 43), and the places in
the spill area are too (entry 123). -/
def Sys2Proof.Claims.ContextCommands : Prop :=
  ∀ (s : State) (f : FnId) (ctx : CtxId) (g : Image) (at' : Nat) (m' : Mach) (old : Nat),
    let m := s.mach
    let n := ctx.val
    let x := m.ctx n
    let r := m.fn f
    let arg := r.ctxArg.toNat
    let hbm := r.winSpace
    let key := m.fnKey f arg
    let l := m.bytes key 64
    let readable := (hbm = true → isHbm arg 64 = true) ∧ key / 64 ∉ m.poison
    let unkeyed := m.setFn f { r with key0 := 0, key1 := 0 }
    Commands s f ctx →
      (x.st = .free →
        (arg % 64 = 0 → m.inWindow f hbm arg 64 = true →
          (readable → descriptorOk m f (ctxDie n) l = true → Completes s (.build f ctx) f (m.setCtx n
            { st := .built, owner := f, ptroot := recNat l 0 8, spbase := recNat l 8 8, spsize := recNat l 16 4
              lbsize := recNat l 20 4, lbbase := recNat l 24 8, fqueue := recNat l 32 2, ftag := x.ftag, eBudget := x.eBudget }))
          ∧ (¬readable ∨ descriptorOk m f (ctxDie n) l = false → Fails s (.build f ctx) f 5))
        ∧ (arg % 64 ≠ 0 ∨ m.inWindow f hbm arg 64 = false → Fails s (.build f ctx) f 7))
      ∧ (x.st = .built →
          (arg < 2 ^ 16 →
            (m.asidState arg = .unused → Completes s (.ctxBind f ctx) f
              { m.setCtx n { x with st := .bound, asid := BitVec.ofNat 16 arg } with asids := aset m.asids arg .bound })
            ∧ (m.asidState arg = .bound → Fails s (.ctxBind f ctx) f 7)
            ∧ (m.asidState arg = .stale ∨ m.asidState arg = .retiring old → Fails s (.ctxBind f ctx) f 3))
          ∧ (2 ^ 16 ≤ arg → Fails s (.ctxBind f ctx) f 7))
      ∧ (x.st = .built ∨ x.st = .bound → m.residentOf n = [] → m.imagesOf n = [] →
          (arg = 0 → Completes s (.keyload f ctx) f
            (unkeyed.setCtx n { x with key := some (r.key1 ++ r.key0), newKey := none, lines := [], rekeyNext := false }))
          ∧ (arg ≠ 0 → exec (.keyload f ctx) s = .next { s with mach := ended unkeyed f 7 }))
      ∧ (¬(x.st = .built ∨ x.st = .bound) → exec (.keyload f ctx) s = .next { s with mach := ended unkeyed f 2 })
      ∧ (x.st = .ready ∨ x.st = .running ∨ x.st = .waiting →
          (arg = 0 → m.residentOf n = [] → Completes s (.suspend f ctx) f (m.setCtx n { x with st := .swapped }))
          ∧ (arg = 0 → m.residentOf n ≠ [] → exec (.suspend f ctx) s = .next { s with mach := {
              m.setFn f { r with ctxBusy := true, suspendOf := some ctx } with
              agenda := m.agenda ++ (m.residentOf n).map .preemptionRequest } })
          ∧ (arg ≠ 0 → Fails s (.suspend f ctx) f 7))
      ∧ (x.st = .swapped ∨ x.st = .spilled →
          (arg = 0 → ∃ st, Completes s (.ctxResume f ctx) f
                { m.setCtx n { x with st } with
                  launches := m.launches.map fun l => { l with teams := l.teams.map fun t =>
                    if (l.ctxOn t.die).val = n ∧ (t.st = .unstarted ∨ t.st = .saved) then { t with since := m.cycle } else t }
                  agenda := m.agenda ++ [.placementEval (ctxDie n)] }
              ∧ (m.residentOf n = [] → m.ctxLaunches n = [] → st = .bound)
              ∧ (m.residentOf n = [] → m.ctxLaunches n ≠ [] → st = .ready ∨ st = .waiting))
          ∧ (arg ≠ 0 → Fails s (.ctxResume f ctx) f 7))
      ∧ (x.st = .swapped →
          (arg = 0 → m.spillAll (m.imagesOf n) = some m' →
            Completes s (.spill f ctx) f (m'.modCtx n fun y => { y with st := .spilled }))
          ∧ (arg = 0 → m.spillAll (m.imagesOf n) = none → Fails s (.spill f ctx) f 4)
          ∧ (arg = 0 → m.imagesOf n = [g] → m.image g.inst.id.uid = some g → g.spilled = false →
              m.spillRoom n g.inst.id.imageKib = some at' →
              let dest := x.spbase + at' * 1024
              ∃ t, exec (.spill f ctx) s = .next t ∧ (t.mach.ctx n).st = .spilled ∧ (t.mach.fn f).ctxStatus = 0
                ∧ t.mach.image g.inst.id.uid = some { g with spilled := true, spillAt := at' }
                ∧ t.mach.bytes dest 64 = g.header
                ∧ ∀ a, ¬(dest ≤ a ∧ a < dest + g.inst.id.imageKib * 1024) → cellGet t.mach.mem a = cellGet m.mem a)
          ∧ (arg ≠ 0 → Fails s (.spill f ctx) f 7))

/-- R253, R254, R262, R266, R282, R339: IRESUME, IKILL, MIGRATE, TEARDOWN and RELEASE, the acknowledgement of a migration
and the end of a teardown, which zeroizes the key and makes an ASID that no other context holds Stale. MIGRATE sends
what the context has, its images among it, to the module that ARG names. Each of iresume, ikill, migrate, teardown,
release, migrateAck and teardownDone answers a next state with its effect.
When TEARDOWN and MIGRATE end (entry 42), what becomes of the launches of a context that has migrated (entry 45), the
packet that MIGRATE sends (entry 44) and the handler flag after IRESUME (entry 41) are the model's readings and
choices. -/
def Sys2Proof.Claims.ContextEnds : Prop :=
  ∀ (s : State) (f : FnId) (ctx : CtxId) (g : Image) (ti : TrapInfo) (l : Launch),
    let m := s.mach
    let n := ctx.val
    let x := m.ctx n
    let arg := (m.fn f).ctxArg.toNat
    let a := x.asid.toNat
    let held := ∃ k y, (k, y) ∈ m.ctxs ∧ k ≠ n ∧ y.asid = x.asid ∧ y.st ≠ .free ∧ y.st ≠ .built ∧ y.st ≠ .dead
    let mayFault := x.st = .ready ∨ x.st = .running ∨ x.st = .waiting ∨ x.st = .swapped ∨ x.st = .spilled
    let gone := fun (t : State) => (t.mach.ctx n).st = .tearingDown ∧ (t.mach.ctx n).landing = [] ∧ (t.mach.ctx n).bindings = []
      ∧ (t.mach.ctx n).lbTail = 0 ∧ (t.mach.ctx n).ftag = 0 ∧ Instr.teardownDone ctx ∈ t.mach.agenda
    (Commands s f ctx →
      (mayFault → arg < 2 ^ 49 → m.faultedImage n (arg % 2 ^ 48) = some (g, ti) → m.image g.inst.id.uid = some g →
        (arg.testBit 48 = true → ti.cause = .svc → Fails s (.iresume f ctx) f 7)
        ∧ (arg.testBit 48 = false ∨ ti.cause ≠ .svc →
          ∃ t j, exec (.iresume f ctx) s = .next t ∧ t.mach.image g.inst.id.uid = some { g with inst := j, seq := 0 }
            ∧ j.faulted = none ∧ (ti.eng = .S → j.s.st.pc = if arg.testBit 48 = true then ti.pc + 4 else ti.pc)
            ∧ j.s.regs = g.inst.s.regs ∧ j.pad = g.inst.pad
            ∧ t.mach.agenda = m.agenda ++ [.placementEval (ctxDie n)] ∧ t.mach.mem = m.mem
            ∧ (t.mach.fn f).ctxBusy = false ∧ (t.mach.fn f).ctxStatus = 0))
      ∧ (mayFault → arg < 2 ^ 48 → m.faultedImage n arg = some (g, ti) → m.launch g.inst.id.launch = some l → l.st.live = true →
          ∃ t, exec (.ikill f ctx) s = .next t ∧ HasFailed t.mach g.inst.id.launch 7 ∧ (t.mach.fn f).ctxStatus = 0)
      ∧ (x.st = .swapped ∨ x.st = .spilled → ∃ ps,
          (∀ p ∈ ps, p.typ = .mgmt ∧ p.cls = 0 ∧ p.group = 8 ∧ p.tgt = arg % 2 ^ 16 ∧ p.cmd = n ∧ p.data.length ≤ 4096)
          ∧ ps ≠ [] ∧ ps.flatMap (·.data) = m.migrated n
          ∧ Completes s (.migrate f ctx) f
              (Mach.sendAll { m.setCtx n { x with st := .migrating } with tick := m.tick + (m.migrated n).length } ps))
      ∧ (x.st = .built ∨ x.st = .bound ∨ mayFault → arg = 0 →
          ∃ t, exec (.teardown f ctx) s = .next t ∧ gone t ∧ (t.mach.fn f).ctxStatus = 0
            ∧ (m.ctxLaunches n = [] → t.mach.mem = m.mem ∧ t.mach.cores = m.cores)
            ∧ (m.ctxLaunches n = [l] → m.launch l.num = some l → HasFailed t.mach l.num 7))
      ∧ (x.st = .dead → arg = 0 → Completes s (.release f ctx) f (m.setCtx n { ftag := x.ftag })))
    ∧ (x.st = .migrating → ∃ t, exec (.migrateAck ctx) s = .next t ∧ gone t
        ∧ ∀ k l, m.launch k = some l → ∃ l', t.mach.launch k = some l' ∧ l'.st = l.st ∧ l'.status = l.status)
    ∧ (x.st = .tearingDown →
        let y := { x with st := .dead, key := none, newKey := none, lines := [], rekeyNext := false }
        (m.asidState a = .bound → ¬held →
          exec (.teardownDone ctx) s = .next { s with mach := { m.setCtx n y with asids := aset m.asids a .stale } })
        ∧ (m.asidState a ≠ .bound ∨ held → exec (.teardownDone ctx) s = .next { s with mach := m.setCtx n y }))

/-- R263, R300, R301: the end of an energy window, the decay of boosts and the fairness buckets. Each of energyWindowEnd,
boostDecay and fairnessBucket answers a next state with its effect.
That operations below 1,024 carry over to the next window is the model's reading (entry 46). -/
def Obligations.PeriodicSteps : Prop :=
  ∀ (s : State) (n : Nat) (d : DieId) (k : Nat),
    let m := s.mach
    let x := m.ctx n
    let c := fun (j : Fin 5) => (m.coefs.get j).toNat
    let pj := x.act.kg8 * c 0 + x.act.kg16 * c 1 + x.act.vec / 1024 * c 2 + x.act.hbm * c 3 + x.act.link * c 4
    let used := pj / 1000000
    let budget := x.eBudget.toNat
    (∃ t, exec .energyWindowEnd s = .next t ∧ t = { s with mach := { m with ctxs := t.mach.ctxs } }
      ∧ t.mach.ctx n = { x with
          act := { vec := x.act.vec % 1024 }
          eUsed := BitVec.ofNat 32 used
          eTotal := x.eTotal + BitVec.ofNat 64 used
          thr := if budget ≠ 0 ∧ budget < used then (if x.thr = 0 then 1 else 2)
            else if 16 * used ≤ 7 * budget then (if x.thr = 2 then 1 else 0) else x.thr })
    ∧ (∃ t, exec .boostDecay s = .next t ∧ t = { s with mach := { m with ctxs := t.mach.ctxs } }
        ∧ ∃ b, t.mach.ctx n = { x with boost := b } ∧ b.val = x.boost.val - 1)
    ∧ (∃ t, exec .fairnessBucket s = .next t ∧ t = { s with mach := { m with dies := t.mach.dies } }
        ∧ (t.mach.die d = { m.die d with fair := (t.mach.die d).fair }) ∧ (t.mach.die d).fair.length = (m.die d).fair.length
        ∧ ∀ r, (m.die d).fair[k]? = some r → (t.mach.die d).fair[k]? = some
            (if k < 512 then
              let buckets := (r.current :: r.buckets).take 64
              { r with
                current := 0
                buckets
                blocked := if 2 ^ 20 < buckets.sum then true else if buckets.sum < 2 ^ 20 then false else r.blocked }
            else r))


namespace Sys2Proof.Claims

/-- The machine with a queue. -/
def withQueue (m : Mach) (f : FnId) (q : QId) (x : Queue) : Mach := m.setQueue f q.val x

/-- A queue has gone Faulted with a reason, and both ends are told (R271): QFAULT, the queue's vector and the physical
function's. -/
def Faulted (s : State) (i : Instr) (f : FnId) (q : QId) (code : Nat) : Prop :=
  ∃ t, exec i s = .next t
    ∧ t.mach.queue f q.val = { s.mach.queue f q.val with st := .faulted, fcode := code, waitFrom := none }
    ∧ (t.mach.fn f).qfault = (s.mach.fn f).qfault ||| BitVec.ofNat 8 (2 ^ q.val)
    ∧ t.mach.irqs = s.mach.irqs ++ [(f.val, q.val + 1), (0, 0)] ∧ t.mach.mem = s.mach.mem

/-- A queue has gone Faulted with a reason, and memory is as it was. -/
def GoesFaulted (s : State) (i : Instr) (f : FnId) (q : QId) (code : Nat) : Prop :=
  ∃ t, exec i s = .next t ∧ (t.mach.queue f q.val).st = .faulted ∧ (t.mach.queue f q.val).fcode = code
    ∧ (t.mach.fn f).qfault = (s.mach.fn f).qfault ||| BitVec.ofNat 8 (2 ^ q.val)
    ∧ t.mach.irqs = s.mach.irqs ++ [(f.val, q.val + 1), (0, 0)] ∧ t.mach.mem = s.mach.mem

/-- A running queue has the bytes of its next record: a copy of one taken before, or one in its ring inside the window. -/
def NextBytes (s : State) (f : FnId) (q : QId) (l : List Byte) : Prop :=
  let x := s.mach.queue f q.val
  let a := x.base + 64 * (x.nextRec % 2 ^ x.log2n)
  x.st = .running ∧ s.mach.entryWaits f x = false ∧ x.waitFrom = none
  ∧ ((x.nextRec < x.ridx ∧ alookup x.copies x.nextRec = some l)
    ∨ (x.ridx ≤ x.nextRec ∧ x.nextRec < x.widx ∧ s.mach.inWindow f (s.mach.fn f).winSpace a 64 = true
        ∧ l = s.mach.bytes (s.mach.fnKey f a) 64))

/-- A running queue's next record is one of a type that the checks of R273 accept, and it waits for no launch. -/
def NextRecord (s : State) (f : FnId) (q : QId) (typ : Nat) (l : List Byte) : Prop :=
  NextBytes s f q l ∧ recNat l 0 1 = typ ∧ s.mach.recordFault f l = none
  ∧ ((recNat l 1 1).testBit 0 = true ∨ typ = 3 → s.mach.launchOpen f q = false)

/-- RIDX once the next record of a queue is taken. -/
def takenTo (x : Queue) : Nat := if x.nextRec < x.ridx then x.ridx else x.nextRec + 1

/-- The word that a record names. -/
def recordWord (s : State) (f : FnId) (l : List Byte) : W64 := wordAt s.mach (s.mach.fnKey f (recNat l 8 8))

/-- The condition of a WAIT or COND record holds of a word (Table 10.4). -/
def RecordHolds (l : List Byte) (v : W64) : Prop :=
  let y := BitVec.ofNat 64 (recNat l 0x10 8)
  match recNat l 0x18 4 with
  | 0 => v = y | 1 => v ≠ y | 2 => y ≤ v | 3 => v < y | 4 => y.toInt ≤ v.toInt | _ => v.toInt < y.toInt

/-- The queue has gone on from its record to a next one, and its entry is handed on where CPL is set (R270, R275, R276). -/
def GoneOn (s t : State) (f : FnId) (q : QId) (l : List Byte) (next : Nat) : Prop :=
  let x := s.mach.queue f q.val
  let y := t.mach.queue f q.val
  let ridx := max (takenTo x) (min next x.widx)
  let cpl := (recNat l 1 1).testBit 1 = true
  y = { x with
    ridx, nextRec := next, copies := y.copies, held := y.held
    st := if cpl ∧ s.mach.canWrite f x = false then .stalled else if next = ridx ∧ ridx = x.widx then .armed else .running }
  ∧ (x.nextRec, l) ∈ y.copies
  ∧ y.held = x.held ++ (if cpl then [⟨entryBytes f q.val x.nextRec (recNat l 4 4) 0 s.mach.cycle, none⟩] else [])

end Sys2Proof.Claims

/-- R268, R271, R272, R275, R276: a queue is armed, quiesced and reset; a write of WIDX is validated, the window first;
and a record for the host is written to the completion area where it can be, counted in CTAIL and announced. An event
that no row of Table 10.3 matches has no effect. Each of arm, quiesce, queueReset, widxWrite and completionEntryPost
answers a next state with its effect.
What ARM of a Quiesced queue does to its records is the model's reading (entries 48, 49 and 129). -/
def Sys2Proof.Claims.QueueRegisters : Prop :=
  ∀ (s : State) (f : FnId) (q : QId) (v : W64) (e : Entry) (rest : List Entry),
    let m := s.mach
    let x := m.queue f q.val
    let sets := fun (i : Instr) (y : Queue) => exec i s = .next { s with mach := withQueue m f q y }
    let d := (v.toNat + 2 ^ 32 - x.ridx % 2 ^ 32) % 2 ^ 32
    let live := x.st = .armed ∨ x.st = .running ∨ x.st = .stalled
    let advanced := fun (x : Queue) => { x with ridx := max x.ridx (min x.nextRec x.widx) }
    let settled := fun (y : Queue) => if x.waitFrom ≠ none ∨ m.entryWaits f x = true then QState.stalled
      else if y.nextRec = y.ridx ∧ y.ridx = y.widx then .armed else .running
    let becomes := fun (i : Instr) (y : Queue) =>
      ∃ t, exec i s = .next t ∧ t = { s with mach := { m with queues := t.mach.queues } } ∧ t.mach.queue f q.val = y
    (x.st = .unconfigured →
      (m.ringOk f x = true → sets (.arm f q) { x with
        st := .armed, ridx := 0, widx := 0, nextRec := 0, ctail := 0, chead := 0, copies := [], waitFrom := none, armed := true })
      ∧ (m.ringOk f x = false → Faulted s (.arm f q) f q 1))
    ∧ (x.st = .quiesced →
        (m.ringOk f x = true →
          let y := advanced { x with nextRec := max x.ridx x.nextRec }
          becomes (.arm f q) { y with st := settled y })
        ∧ (m.ringOk f x = false → exec (.arm f q) s = .next s))
    ∧ (x.st ≠ .unconfigured → x.st ≠ .quiesced → exec (.arm f q) s = .next s)
    ∧ (live → becomes (.quiesce f q) { x with
        waitFrom := none
        st := if m.launchOpen f q = false ∧ x.entryHeld = false then .quiesced else .quiescing })
    ∧ (¬live → exec (.quiesce f q) s = .next s)
    ∧ (x.st = .quiesced ∨ x.st = .faulted → sets (.queueReset f q) { held := x.held })
    ∧ (x.st ≠ .quiesced → x.st ≠ .faulted → exec (.queueReset f q) s = .next s)
    ∧ (x.st = .unconfigured ∨ x.st = .faulted → exec (.widxWrite f q v) s = .next s)
    ∧ (live ∨ x.st = .quiescing ∨ x.st = .quiesced → m.ringOk f x = false → Faulted s (.widxWrite f q v) f q 1)
    ∧ (m.ringOk f x = true →
        let fits := d ≤ 2 ^ x.log2n ∧ x.widx - x.ridx ≤ d
        let y := advanced { x with widx := x.ridx + d }
        (live ∨ x.st = .quiescing → 2 ^ 32 ≤ v.toNat → Faulted s (.widxWrite f q v) f q 2)
        ∧ (live ∨ x.st = .quiescing → v.toNat < 2 ^ 32 → ¬fits → Faulted s (.widxWrite f q v) f q 3)
        ∧ (x.st = .quiesced → 2 ^ 32 ≤ v.toNat ∨ ¬fits → exec (.widxWrite f q v) s = .next s)
        ∧ (v.toNat < 2 ^ 32 → fits →
            (live → becomes (.widxWrite f q v) { y with st := settled y })
            ∧ (x.st = .quiesced → becomes (.widxWrite f q v) y)
            ∧ (x.st = .quiescing → becomes (.widxWrite f q v)
                { y with st := if m.launchOpen f q = false ∧ x.entryHeld = false then .quiesced else .quiescing })))
    ∧ (x.held = e :: rest →
        (m.canWrite f x = true → ∃ t, exec (.completionEntryPost f q) s = .next t
          ∧ t.mach.mem = (m.store (m.fnKey f (x.cbase + 64 * (x.ctail.toNat % 2 ^ x.log2m))) e.bytes).mem
          ∧ (t.mach.queue f q.val).held = rest ∧ (t.mach.queue f q.val).ctail = x.ctail + 1
          ∧ t.mach.irqs = m.irqs ++ [(f.val, q.val + 1)] ∧ t.mach.launches = m.launches)
        ∧ (m.canWrite f x = false → ∃ t, exec (.completionEntryPost f q) s = .next t
            ∧ t = { s with mach := { m with queues := t.mach.queues } } ∧ t.mach.queue f q.val = { x with st := (t.mach.queue f q.val).st }
            ∧ (live → e.ctx = none → (t.mach.queue f q.val).st = .stalled)))

/-- R268, R273–R276: WAIT, SIGNAL, COND, LOOP and SWITCH, of a record in the ring or of one taken before. A condition
that does not hold stalls the queue, is tested every 256 cycles and, with a TMO, ends after TMO µs with the one entry
TIMEOUT; a record that the checks reject, a word that has left the window, and a LOOP to a record no copy is held of
fault the queue. Which copies a backward LOOP finds is the model's reading (entries 50 and 51). Each of queueWait,
waitRecheck, waitTimeout, queueSignal, queueCond, queueLoop and queueSwitch answers a next state with its effect. -/
def Sys2Proof.Claims.QueueRecords : Prop :=
  ∀ (s : State) (f : FnId) (q : QId) (l : List Byte) (code : Nat),
    let m := s.mach
    let x := m.queue f q.val
    let n := x.nextRec
    let w := recordWord s f l
    let v := BitVec.ofNat 64 (recNat l 0x10 8)
    let key := m.fnKey f (recNat l 8 8)
    let tmo := recNat l 0x1C 4
    let back := recNat l 0x18 4
    let ends := fun (i : Instr) (next : Nat) => ∃ t, exec i s = .next t ∧ GoneOn s t f q l next ∧ t.mach.mem = m.mem
    let writes := fun (i : Instr) (next : Nat) (y : W64) =>
      ∃ t, exec i s = .next t ∧ GoneOn s t f q l next ∧ Stored m.mem t.mach.mem key y 8
    let other := fun (t : Nat × Instr) => t.2 ≠ .waitRecheck f q ∧ t.2 ≠ .waitTimeout f q
    let there := m.inWindow f (m.fn f).winSpace (recNat l 8 8) 8 = true
    (NextRecord s f q 2 l →
      (RecordHolds l w → ends (.queueWait f q) (n + 1))
      ∧ (¬RecordHolds l w → ∃ t, exec (.queueWait f q) s = .next t ∧ (t.mach.queue f q.val).st = .stalled
          ∧ (t.mach.queue f q.val).waitFrom = some m.cycle ∧ (t.mach.queue f q.val).nextRec = n
          ∧ (t.mach.queue f q.val).ridx = takenTo x
          ∧ t.mach.mem = m.mem ∧ t.mach.timers = m.timers.filter other ++ (m.cycle + 256, .waitRecheck f q) ::
              (if tmo = 0 then [] else [(m.cycle + 1500 * tmo, .waitTimeout f q)])))
    ∧ (∀ since, alookup x.copies n = some l → x.waitFrom = some since →
      (there → RecordHolds l w → ∃ t, exec (.waitRecheck f q) s = .next t ∧ (t.mach.queue f q.val).nextRec = n + 1
        ∧ (t.mach.queue f q.val).waitFrom = none ∧ t.mach.timers = m.timers.filter other ∧ t.mach.mem = m.mem)
      ∧ (there → ¬RecordHolds l w →
          exec (.waitRecheck f q) s = .next { s with mach := { m with timers := m.timers ++ [(m.cycle + 256, .waitRecheck f q)] } })
      ∧ (¬there → GoesFaulted s (.waitRecheck f q) f q 5)
      ∧ (tmo ≠ 0 → since + 1500 * tmo ≤ m.cycle → ∃ t, exec (.waitTimeout f q) s = .next t
          ∧ (t.mach.queue f q.val).nextRec = n + 1 ∧ (t.mach.queue f q.val).waitFrom = none
          ∧ (t.mach.queue f q.val).held = x.held ++ [⟨entryBytes f q.val n (recNat l 4 4) 1 m.cycle, none⟩]
          ∧ t.mach.timers = m.timers.filter other ∧ t.mach.mem = m.mem))
    ∧ (NextRecord s f q 3 l → writes (.queueSignal f q) (n + 1)
        (match recNat l 0x18 4 with | 0 => v | 1 => w + v | _ => if w < v then v else w))
    ∧ (NextRecord s f q 4 l →
        (RecordHolds l w → ends (.queueCond f q) (n + 1)) ∧ (¬RecordHolds l w → ends (.queueCond f q) (n + 1 + recNat l 0x1C 4)))
    ∧ (NextRecord s f q 5 l →
        (w = 0 → ends (.queueLoop f q) (n + 1))
        ∧ (w ≠ 0 → back ≤ n → n - back ∈ x.copies.map (·.1) → writes (.queueLoop f q) (n - back) (w - 1))
        ∧ (w ≠ 0 → n < back ∨ (n - back ∉ x.copies.map (·.1) ∧ n - back < takenTo x) → GoesFaulted s (.queueLoop f q) f q 4))
    ∧ (NextRecord s f q 6 l → ends (.queueSwitch f q) (n + recNat l (0x18 + 2 * min w.toNat (recNat l 0x10 4 - 1)) 2))
    ∧ (NextBytes s f q l → m.recordFault f l = some code →
        (recNat l 0 1 = 2 → GoesFaulted s (.queueWait f q) f q code)
        ∧ (recNat l 0 1 = 3 → GoesFaulted s (.queueSignal f q) f q code)
        ∧ (recNat l 0 1 = 4 → GoesFaulted s (.queueCond f q) f q code)
        ∧ (recNat l 0 1 = 5 → GoesFaulted s (.queueLoop f q) f q code)
        ∧ (recNat l 0 1 = 6 → GoesFaulted s (.queueSwitch f q) f q code)
        ∧ (recNat l 0 1 ∉ [2, 3, 4, 5, 6] → GoesFaulted s (.queueLaunch f q) f q code))

/-- R275, R278, R281, R283: a LAUNCH record that every die of its PLACE accepts becomes a launch; with no dependences it
is Ready, its teams stand at their home dies, and every die evaluates. Otherwise it fails with the status of the
lowest-numbered die that turns it away. The step queueLaunch answers a next state with its effect.
That evaluations are posted on an agenda is the model's choice (entry 1). -/
def Obligations.LaunchRecord : Prop :=
  ∀ (s : State) (f : FnId) (q : QId) (l : List Byte) (hdr : Nat → ImageHdr) (maps : Nat → List Region) (bad : Nat) (st : Nat),
    let m := s.mach
    let x := m.queue f q.val
    let num := m.nextLaunch
    let place := recNat l 0x10 8
    let dies := (List.range 4).filter fun d => place.testBit d
    let bytes := m.bytes (m.fnKey f (recNat l 8 8)) 256
    let lr := launchRec bytes
    let ctxOf := fun (d : Nat) => (Fin.ofNat 1024 (d * 256 + fld place (8 + 8 * d) 8) : CtxId)
    let check := fun (d : Nat) => m.checkDie s.pwr.insvc f (ctxOf d) bytes
    NextRecord s f q 1 l → (∀ k ∈ m.launches, k.num ≠ num) →
      ((∀ d ∈ dies, check d = .ok (hdr d, maps d)) → lr.dep0a = 0 → lr.dep1a = 0 →
        ∃ t k, exec (.queueLaunch f q) s = .next t ∧ t.mach.launch num = some k ∧ t.mach.nextLaunch = num + 1
          ∧ (t.mach.queue f q.val).nextRec = x.nextRec + 1 ∧ t.mach.cores = m.cores ∧ t.mach.mem = m.mem
          ∧ k.st = .ready ∧ k.lr = lr ∧ k.dies = dies ∧ k.fn = f ∧ k.q = q ∧ k.index = x.nextRec
          ∧ k.runs = (if lr.dual then 2 else 1) ∧ k.teams.length = k.runs * ((lr.instn + lr.tsize - 1) / lr.tsize)
          ∧ (∀ d ∈ dies, k.hdrOn (Fin.ofNat 4 d) = hdr d)
          ∧ (∀ tm ∈ k.teams, tm.st = .unstarted ∧ tm.since = m.cycle
              ∧ tm.die = Fin.ofNat 4 (dies.getD (tm.num * dies.length / ((lr.instn + lr.tsize - 1) / lr.tsize)) 0))
          ∧ ∀ d ∈ dies, Instr.placementEval (Fin.ofNat 4 d) ∈ t.mach.agenda)
      ∧ (bad ∈ dies → check bad = .error st → (∀ d ∈ dies, d < bad → ∃ r, check d = .ok r) →
        ∃ t, exec (.queueLaunch f q) s = .next t ∧ HasFailed t.mach num st ∧ (t.mach.queue f q.val).nextRec = x.nextRec + 1)


namespace Sys2Proof.Claims

/-- A page command of a function may run on a context (R251, R338). -/
def PageCommands (s : State) (f : FnId) (ctx : CtxId) : Prop :=
  (∀ g, g ≠ f → ¬((s.mach.fn g).pgBusy = true ∧ (s.mach.fn g).pgCtx = ctx)) ∧ (f = 0 ∨ (s.mach.ctx ctx.val).owner = f)
  ∧ (s.mach.ctx ctx.val).st ≠ .free ∧ (s.mach.ctx ctx.val).st ≠ .built ∧ (s.mach.ctx ctx.val).st ≠ .dead

/-- A translation belongs to an ASID and covers a byte of a range; a length of 0 covers everything (R338). -/
def Covered (p : Page) (asid base len : Nat) : Prop := p.asid = asid ∧ (len = 0 ∨ (p.base < base + len ∧ base < p.base + p.size))

/-- No stream register and no buffer holds a translation of an ASID that covers a byte of a range, and those that do not
stay. -/
def Dropped (m n : Mach) (asid base len : Nat) : Prop :=
  (∀ d p, p ∈ (n.die d).tlb ↔ p ∈ (m.die d).tlb ∧ ¬Covered p asid base len)
  ∧ ∀ c r, r ∈ (n.inst c).regs → ∀ p, r.cur = some p ∨ r.next = some p → ¬Covered p asid base len

/-- The page command of a function has ended with a status. -/
def pageEnded (m : Mach) (f : FnId) (st : BitVec 7) : Mach := m.setFn f { m.fn f with pgBusy := false, pgStatus := st }

end Sys2Proof.Claims

/-- R22, R32, R59, R253, R257, R284, R285, R290, R304, R307: an evaluation places a team that fits: each member stands on
its core as its launch record says, or as it was saved, with its room in the save region and its start pending. A
steal moves the highest unstarted team to the idle die where the dies reach each other, and a swap pre-empts a team
that has waited WAIT_SWAP for the team that takes its cores; where there is nothing to do they do nothing. Each of
placementEval, steal and teamSwap answers a next state with its effect.
That work is posted on an agenda (entry 1) and that a dispatcher which may steal does so (entry 58) are the model's
choices. -/
def Sys2Proof.Claims.Dispatch : Prop :=
  ∀ (s : State) (d e : DieId) (l k : Launch) (tm tk : Team) (ns : List Nat) (cs : List CoreId) (room : List (Nat × Nat))
      (rest : List (Launch × DieId)) (x y : TeamOn),
    let m := s.mach
    let insvc := s.pwr.insvc
    let uid := fun (n : Nat) => uidOf l.num tm.run n
    let entry := fun (k : Nat) => BitVec.ofNat 64 (l.lr.sptr.getD k 0)
    (s.pwr.st = .active → m.placeable d = [⟨l, tm⟩] → m.launch l.num = some l → l.team? tm.run tm.num = some tm → tm.die = d →
      l.toRun tm = ns → ns ≠ [] → ns.Nodup → ns.length = cs.length → cs.Pairwise (fun a b => a.val < b.val) →
      m.fit insvc ⟨l, tm⟩ = some cs → m.launchPages ⟨l, tm⟩ = true → m.reserveSave ⟨l, tm⟩ ns (m.saveRuns d) = some room →
        ∃ t, exec (.placementEval d) s = .next t
          ∧ (∀ n c, (n, c) ∈ ns.zip cs →
              let k := t.mach.core c
              let i := k.inst
              k.resident = true ∧ k.starting = true ∧ k.restored = false ∧ k.preempt = false
              ∧ k.saveAt = (alookup room n).getD 0
              ∧ (m.image (uid n) = none →
                  k.moved = false ∧ i.fresh = true ∧ i.id.uid = uid n ∧ i.id.num = n ∧ i.id.ctx = l.ctxOn d
                  ∧ i.id.launch = l.num ∧ i.id.team = tm.num ∧ i.id.run = tm.run ∧ i.id.prio = l.lr.prio
                  ∧ i.s.st.pc = entry 0 ∧ i.v.st.pc = entry 1 ∧ i.m.st.pc = entry 2 ∧ i.x.st.pc = entry 3
                  ∧ i.pad.regions = l.maps.getD d.val [] ∧ i.s.scaleOff = l.lr.scaleOff ∧ i.s.handler = false ∧ i.s.rrb = 0)
              ∧ ∀ g, m.image (uid n) = some g → i = g.inst ∧ (k.moved = false ↔ g.core = c ∧ g.place.isSome = true))
          ∧ (∀ q, q ∉ cs → t.mach.core q = m.core q) ∧ t.mach.mem = m.mem
          ∧ (∀ c ∈ cs, Instr.landingReplay c ∈ t.mach.agenda) ∧ (∀ n ∈ ns, t.mach.image (uid n) = none)
          ∧ ∃ k tm', t.mach.launch l.num = some k ∧ k.team? tm.run tm.num = some tm' ∧ tm'.st = .resident ∧ tm'.since = m.cycle)
    ∧ (s.pwr.st ≠ .active → exec (.placementEval d) s = .next s)
    ∧ (m.idleDie insvc d = true → m.victims d = (l, e) :: rest → tm ∈ l.unstartedOn e →
        (∀ u ∈ l.unstartedOn e, u = tm ∨ u.num < tm.num) →
          (m.pairUsable d e = true → ∃ t, exec (.steal d) s = .next t
            ∧ t.mach.launch l.num = some (l.setTeam { tm with die := d, since := m.cycle, cores := [] })
            ∧ t.mach.cores = m.cores ∧ Instr.placementEval d ∈ t.mach.agenda)
          ∧ (m.pairUsable d e = false → exec (.steal d) s = .next s))
    ∧ (m.idleDie insvc d = false ∨ m.victims d = [] → exec (.steal d) s = .next s)
    ∧ (m.nextSwap insvc d = some (y, x) →
        (∃ since, y.t.waiting = some since ∧ (m.die d).waitSwap.toNat ≤ m.cycle - since) ∧ y.t.st = .resident
        ∧ ∃ t more, exec (.teamSwap d) s = .next t
            ∧ t.mach.agenda = m.agenda ++ (m.teamCores y).map .preemptionRequest ++ more
            ∧ (more = [] ∨ more = [.teamSwap d]) ∧ t.mach.cores = m.cores ∧ t.mach.mem = m.mem
            ∧ (m.launch x.l.num = some k → k.team? x.t.run x.t.num = some tk →
                let cs := ((m.teamCores y ++ m.freeCores insvc x.t.die (groupOfTeam y.t)).take x.need).map (fun c => c.val)
                t.mach.launch x.l.num = some (k.setTeam { tk with cores := cs })))
    ∧ (m.nextSwap insvc d = none → exec (.teamSwap d) s = .next s)

/-- R22, R317, R320, R325: the IOD records a die's arrival, which the die's link brings once it is up, and, when it is
the last and the expected bytes are in, writes STATE, ROUND and the counts and releases every core that holds an
arrival; a module that does not hold the object sends its one arrival to the one that does. The release marks the
records of the core and of saved instances ended, and a BARW that waits there goes on. Each of barrierArrivalForward
and barrierRelease answers a next state with its effect.
That releases are posted on an agenda is the model's choice (entry 1). -/
def Sys2Proof.Claims.BarrierSteps : Prop :=
  ∀ (s : State) (r : Round) (d : DieId) (c : CoreId) (res : Nat × Nat) (obj since : Nat) (word : Instr) (again : Run Flow)
      (fl : Flow) (n : Mach),
    let m := s.mach
    let i := m.inst c
    let r' := { r with forwarded := r.forwarded ++ [d.val] }
    let setTo := fun (r' : Round) => { m with rounds := m.rounds.map fun q => if q.num = r.num then r' else q }
    let becomes := fun (r' : Round) => exec (.barrierArrivalForward r.num d) s = .next { s with mach := setTo r' }
    let far := r.scope = 4 ∧ 2 ^ 66 ≤ r.obj
    let link := m.iodUsable (dieOf c)
    let released := (m.releaseRound c r res).releaseImages r res
    (m.rounds.find? (fun q => q.num == r.num && q.ended.isNone) = some r → d.val ∉ r.forwarded →
      m.allArrived r (m.participantsOn r.pset d) = true → m.iodUsable d = true →
      (¬far → m.roundComplete r' = false → becomes r')
      ∧ (¬far → m.roundComplete r' = true → r.bytes < r.expect → becomes { r' with posted := true })
      ∧ (¬far → m.roundComplete r' = true → r.expect ≤ r.bytes →
        ∃ t, exec (.barrierArrivalForward r.num d) s = .next t
          ∧ wordAt t.mach r.obj = BitVec.ofNat 64 ((if r.expect < r.bytes then 4 else 3) + r.scope * 8 + (r.round + 1) % 2 ^ 32 * 2 ^ 32)
          ∧ wordAt t.mach (r.obj + 16) = BitVec.ofNat 64 r.expect ∧ wordAt t.mach (r.obj + 24) = BitVec.ofNat 64 r.bytes
          ∧ wordAt t.mach (r.obj + 32) = BitVec.ofNat 64 (r.bytes - r.expect)
          ∧ (∀ a, ¬(r.obj ≤ a ∧ a < r.obj + 8) → ¬(r.obj + 16 ≤ a ∧ a < r.obj + 40) → cellGet t.mach.mem a = cellGet m.mem a)
          ∧ ∀ c, Instr.barrierRelease c r.num ∈ t.mach.agenda ↔ Instr.barrierRelease c r.num ∈ m.agenda
              ∨ ((m.core c).resident = true ∧ ∃ a ∈ (m.inst c).arrivals, a.round = r.num))
      ∧ (far → m.packageComplete r' = false ∨ r.upward = true → becomes r')
      ∧ (far → m.packageComplete r' = true → r.upward = false →
          let arrival := m.mgmtPacket (r.obj / 2 ^ 66 - 1) (r.obj % 2 ^ 66) r.num r.ctx.val (.barrier (r.obj % 2 ^ 66) r.expect 0 true)
          exec (.barrierArrivalForward r.num d) s = .next { s with mach := (setTo { r' with upward := true }).sendIod arrival }))
    ∧ (m.rounds.find? (fun q => q.num == r.num && q.ended.isNone) = some r →
        (d.val ∈ r.forwarded ∨ m.allArrived r (m.participantsOn r.pset d) = false →
          exec (.barrierArrivalForward r.num d) s = .next s)
        ∧ (d.val ∉ r.forwarded → m.allArrived r (m.participantsOn r.pset d) = true → m.iodUsable d = false →
            exec (.barrierArrivalForward r.num d) s =
              .next { s with mach := { m with timers := m.timers ++ [(m.cycle + 1, .barrierArrivalForward r.num d)] } }))
    ∧ (m.rounds.find? (fun q => q.num == r.num) = some r → r.ended = some res →
        (3 ≤ r.scope → link = false → exec (.barrierRelease c r.num) s =
          .next { s with mach := { m with timers := m.timers ++ [(m.cycle + 1, .barrierRelease c r.num)] } })
        ∧ (r.scope < 3 ∨ link = true →
            (i.s.st.wait = none → ∃ t, exec (.barrierRelease c r.num) s = .next t ∧ t.mach.mem = m.mem
              ∧ ((m.core c).resident = false → t.mach.cores = m.cores)
              ∧ ((m.core c).resident = true → t.mach.inst c = { i with arrivals := (t.mach.inst c).arrivals }
                ∧ ∀ k : Nat, (t.mach.inst c).arrivals[k]? = (i.arrivals[k]? : Option Arrival).map fun a =>
                    if a.round = r.num ∧ a.ended = none then
                      { a with ended := some res, behind := ((m.ctx i.id.ctx.val).landing.filter (·.uid == i.id.uid)).length } else a)
              ∧ (∀ g ∈ t.mach.images, ∀ a ∈ g.inst.arrivals, a.round = r.num → a.ended ≠ none)
              ∧ (r.pending = [c.val] → ∀ q ∈ t.mach.rounds, q.num ≠ r.num))
            ∧ ((m.core c).resident = true → i.s.st.wait = some ⟨.barrier obj, since, word⟩ → retest c word = some again →
                again.go released = (.ok fl, n) → exec (.barrierRelease c r.num) s = .next { s with mach := n.sFlow c fl })))

/-- R334, R335, R338, R339, R341: INVAL, PCOMPLETE and RETIRE, the ends of an invalidation and of an ASID's scrubbing,
and the ends of a COUNT move and a pull, whose bytes come from or go to the module that the entry names, once a link
reaches it; the entry is rewritten where the host has not rewritten it meanwhile. A pull's timeout fails the accesses
that stall on the page at that moment, and nothing else changes. Each of inval, pcomplete, pgRetire, invalComplete,
asidScrubDone, countMoveDone, pullDone and pullTimeout answers a next state with its effect.
What the accesses of a timed-out pull do is the model's reading (entry 24), and that the compare of the entry comes
first another (entry 59). -/
def Obligations.PageCommandSteps : Prop :=
  ∀ (s : State) (f : FnId) (ctx : CtxId) (asid : BitVec 16) (word : Option Nat) (v : Move) (va : Nat),
    let m := s.mach
    let r := m.fn f
    let a0 := r.pgArg0.toNat
    let a1 := r.pgArg1.toNat
    let d := ctxDie ctx.val
    let requests := (m.die d).pgreqs
    let there := ∃ e ∈ requests, e.ctx = ctx ∧ e.tag = a0
    let key := if a1 = 0 then none else some (m.fnKey f a1)
    let fails := fun (i : Instr) (st : BitVec 7) => exec i s = .next { s with mach := pageEnded m f st }
    let p := v.page
    let src := m.frameKey p.peer (if v.pull then p.xframe else p.frame)
    let dst := if v.pull then p.frame else p.xframe
    let ev := if v.pull then Instr.pullDone v.ctx p.base else .countMoveDone v.ctx p.base
    let reached := p.peer = m.pkg.toNat ∨ (m.gwLink (ctxDie v.ctx.val)).isSome = true
    (PageCommands s f ctx →
      (a0 % 4096 = 0 → a1 % 4096 = 0 →
        ∃ t, exec (.inval f ctx) s = .next t ∧ Dropped m t.mach (m.ctx ctx.val).asid.toNat a0 a1
          ∧ (t.mach.fn f).pgBusy = true ∧ (t.mach.fn f).pgCtx = ctx ∧ t.mach.agenda = m.agenda ++ [.invalComplete f] ∧ t.mach.mem = m.mem)
      ∧ (a0 % 4096 ≠ 0 ∨ a1 % 4096 ≠ 0 → fails (.inval f ctx) 7)
      ∧ (a1 = 0 → there →
          ∃ t, exec (.pcomplete f ctx) s = .next t ∧ (t.mach.fn f).pgBusy = false ∧ (t.mach.fn f).pgStatus = 0
            ∧ (∀ e, e ∈ (t.mach.die d).pgreqs ↔ e ∈ requests ∧ ¬(e.ctx = ctx ∧ e.tag = a0)) ∧ t.mach.mem = m.mem)
      ∧ (a1 ≠ 0 ∨ ¬there → fails (.pcomplete f ctx) 7))
    ∧ (exec (.invalComplete f) s = .next (if r.pgBusy = true then { s with mach := pageEnded m f 0 } else s))
    ∧ (a0 < 2 ^ 16 → (a1 = 0 ∨ m.wordInWindow f a1 = true) →
        (m.asidState a0 = .unused → ∃ t, exec (.pgRetire f) s = .next t ∧ (t.mach.fn f).pgStatus = 0
          ∧ (key = none → t.mach.mem = m.mem) ∧ ∀ k, key = some k → (wordAt t.mach k).toNat = 2 ^ 63 + a0)
        ∧ (m.asidState a0 = .stale → ∃ t, exec (.pgRetire f) s = .next t ∧ (t.mach.fn f).pgStatus = 0
          ∧ t.mach.asidState a0 = .retiring key
          ∧ t.mach.agenda = m.agenda ++ [.asidScrubDone (BitVec.ofNat 16 a0)] ∧ t.mach.mem = m.mem)
        ∧ (m.asidState a0 = .bound ∨ m.asidState a0 = .retiring word → fails (.pgRetire f) 2))
    ∧ (2 ^ 16 ≤ a0 ∨ (a1 ≠ 0 ∧ m.wordInWindow f a1 = false) → fails (.pgRetire f) 7)
    ∧ (m.asidState asid.toNat = .retiring word → ∃ t, exec (.asidScrubDone asid) s = .next t ∧ Dropped m t.mach asid.toNat 0 0
        ∧ t.mach.asidState asid.toNat = .unused ∧ (word = none → t.mach.mem = m.mem)
        ∧ ∀ k, word = some k → (wordAt t.mach k).toNat = 2 ^ 63 + asid.toNat)
    ∧ (Memory.wf m.mem = true → m.moves = [v] →
        (reached → (p.entry + 16 ≤ dst ∨ dst + 2 ^ 21 ≤ p.entry) →
          ∃ t, exec ev s = .next t ∧ t.mach.moves = []
            ∧ (∀ k, k < 2 ^ 21 → cellGet t.mach.mem (dst + k) = cellGet m.mem (src + k))
            ∧ (m.word p.entry = p.word0 → Dropped m t.mach p.asid p.base p.size
              ∧ (wordAt t.mach p.entry).toNat = localWord0 p.word0
              ∧ (v.pull = false → (wordAt t.mach (p.entry + 8)).toNat = dst % 2 ^ 64))
            ∧ (m.word p.entry ≠ p.word0 → wordAt t.mach p.entry = wordAt m p.entry))
        ∧ (¬reached → ∃ t, exec ev s = .next t ∧ t = { s with mach := { m with timers := t.mach.timers } }
            ∧ (m.cycle + 1024, ev) ∈ t.mach.timers ∧ ∃ n, (n, Instr.pullTimeout v.ctx p.base) ∈ t.mach.timers))
    ∧ exec (.pullTimeout ctx va) s = .next { s with mach := { m with moves := m.moves.map fun v =>
        if v.ctx = ctx ∧ v.page.base = va then { v with stalled := [], dead := v.dead ++ v.stalled } else v } }

/-- R22, R352–R354: links go down, train, replay and recover; an event that no row of Table 15.2 matches has no effect. A
link that no longer carries packets has those that were not acknowledged sent again on another of its die, or made to
wait 10 ms for one; a link that carries them again lets the host's waiting writes go on. Which link a packet takes is
the model's choice (entry 64). Each of linkDown, retrain, linkTrainingEnd, linkReplay and replayAccepted answers a
next state with its effect. -/
def Obligations.Links : Prop :=
  ∀ (s : State) (l : LinkId) (partner : Byte) (pport : BitVec 6) (k j : Fin 16) (pk : Packet),
    let m := s.mach
    let x := m.link l
    let sets := fun (i : Instr) (y : Link) => exec i s = .next { s with mach := m.setLink l y }
    let turns := fun (i : Instr) (y : Link) => exec i s = .next { s with mach := (m.setLink l y).linkChanged l }
    let far := match l with | .gw _ => { x with partner, pport } | .ucie _ => x
    let recent := x.fails.filter fun t => m.cycle < t + 1500000000
    let trains := if x.trains = 255 then x.trains else x.trains + 1
    let retries := if x.retries = 65535 then x.retries else x.retries + 1
    let again := { x with st := .training, trains, replays := 0 }
    turns (.linkDown l) { x with st := .down, replays := 0 }
    ∧ (x.st = .down ∨ x.st = .failed → sets (.retrain l) again)
    ∧ (x.st ≠ .down → x.st ≠ .failed → exec (.retrain l) s = .next s)
    ∧ (x.st = .training →
        turns (.linkTrainingEnd l .allLanes partner pport) { far with st := .up }
        ∧ turns (.linkTrainingEnd l .halfLanes partner pport) { far with st := .degraded }
        ∧ (recent.length < 2 → sets (.linkTrainingEnd l .failed partner pport) { again with fails := recent ++ [m.cycle] })
        ∧ (2 ≤ recent.length → turns (.linkTrainingEnd l .failed partner pport) { x with st := .failed, fails := recent ++ [m.cycle] }))
    ∧ (x.st ≠ .training → ∀ r, exec (.linkTrainingEnd l r partner pport) s = .next s)
    ∧ (x.st = .up ∨ x.st = .degraded → sets (.linkReplay l) { x with st := .retrying, before := x.st, replays := 0, retries })
    ∧ (x.st = .retrying →
        (x.replays < 7 → sets (.linkReplay l) { x with replays := x.replays + 1, retries })
        ∧ (7 ≤ x.replays → turns (.linkReplay l) again)
        ∧ turns (.replayAccepted l) { x with st := x.before, replays := 0 })
    ∧ (x.st = .down ∨ x.st = .training ∨ x.st = .failed → exec (.linkReplay l) s = .next s)
    ∧ (x.st ≠ .retrying → exec (.replayAccepted l) s = .next s)
    ∧ (m.unacked = [] → m.hostWrites = [] → m.linkChanged l = m)
    ∧ (x.usable = true → (m.linkChanged l).hostWrites = m.hostWrites.filter fun w => !m.iodUsable (dieOfPa w.1))
    ∧ (l = .gw k → x.usable = false → m.unacked = [(k.val, pk)] →
        ((gwOf pk.srcDie).find? (fun q => (m.gw.get q).up) = some j → pk.typ ≠ .ack →
          (m.linkChanged l).wire = m.wire ++ [pk] ∧ (m.linkChanged l).unacked = [(j.val, pk)])
        ∧ ((gwOf pk.srcDie).find? (fun q => (m.gw.get q).up) = none → m.linkChanged l =
            { m with unacked := [(16, pk)], timers := m.timers ++ [(m.cycle + 15000000, .packetLinkfail pk)] }))


namespace Sys2Proof.Claims

/-- The next complete F0 command of a core that holds an instance has a code, and may start (R245, R361); x is the command
it becomes. -/
def NextCommand (s : State) (c : CoreId) (code : Nat) (x : Cmd) : Prop :=
  let i := s.mach.inst c
  (s.mach.core c).resident = true ∧ i.fifo.cmds.length < 16 ∧ i.fifo.res0.length + i.fifo.cmds.length < 64
  ∧ ∃ h body rest, i.fifo.queue0 = (h :: body) :: rest ∧ h.toNat % 256 = code
      ∧ x = { id := i.fifo.nextCmd, code, tag := BitVec.ofNat 32 (h.toNat / 2 ^ 16), body }

/-- The command has started, on the machine m that its reads of local memory have made: it is in progress as y, and its
packets leave in order (R361). -/
def HasStarted (s : State) (ev : Instr) (c : CoreId) (m : Mach) (y : Cmd) (packets : List Packet) : Prop :=
  exec ev s = .next { s with mach := (m.modInst c fun i => { i with fifo := { i.fifo with
    queue0 := i.fifo.queue0.drop 1, cmds := i.fifo.cmds ++ [{ y with started := true }]
    nextCmd := i.fifo.nextCmd + 1 } }).sendAll packets }

/-- The command ends at once with a status, with no other effect (R361): its result word is pushed. -/
def Rejected (s : State) (ev : Instr) (c : CoreId) (x : Cmd) (st : Nat) : Prop :=
  let i := s.mach.inst c
  s.mach.coreOf i.id.uid = some c → (∀ y ∈ i.fifo.cmds, y.id ≠ x.id) → x.id < 2 ^ 32 →
    exec ev s = .next { s with mach := s.mach.setInst c { i with fifo := { i.fifo with
      queue0 := i.fifo.queue0.drop 1, res0 := i.fifo.res0 ++ [BitVec.ofNat 64 (x.tag.toNat + st * 2 ^ 32)], nextCmd := i.fifo.nextCmd + 1 } } }

/-- Bytes of local memory as a fabric command reads them; m is the machine with what the translations have cached,
counted and prefetched, and nr says that a page was not resident and read as zero (R360). -/
def LocalBytes (s : State) (c : CoreId) (addr n : Nat) (l : List Byte) (nr : Bool) (m : Mach) : Prop :=
  (fabRead c addr n).go s.mach = (.ok (l, nr), m) ∧ l.length = n

/-- The context of a core's instance has a nonzero TAG (R359). -/
def Tagged (s : State) (c : CoreId) : Prop := (s.mach.ctx (s.mach.inst c).id.ctx.val).ftag ≠ 0

/-- A packet reaches its target die for the first time, and nothing of its channel is held there (R311, R353). -/
def Arrives (s : State) (p : Packet) : Prop :=
  p.tgt % 2 ^ 16 = s.mach.pkg.toNat ∧ (p.srcPkg ≠ s.mach.pkg.toNat → takenKey p ∉ s.mach.consumed)
  ∧ ∀ e ∈ s.mach.heldDel, e.1 ≠ p ∧ sameChannel e.1 p = false

/-- A packet has gone on its way: to a die of this module, out on a link, or, with no usable link, waiting for one. -/
def Leaves (m : Mach) (q : Packet) : Prop := packetStep q ∈ m.agenda ∨ q ∈ m.wire ∨ (16, q) ∈ m.unacked

/-- The packet has been taken, and its answer of a type goes to the die it came from (R353). -/
def Answered (s t : State) (p : Packet) (typ : PType) (st : Nat) (data : List Byte) : Prop :=
  (p.srcPkg ≠ s.mach.pkg.toNat → takenKey p ∈ t.mach.consumed)
  ∧ ∃ q, Leaves t.mach q ∧ q.typ = typ ∧ q.cls = 2 ∧ q.tgt = p.srcPkg ∧ q.dstDie = p.srcDie ∧ q.addr = answerAddr p ∧ q.cmd = p.cmd
      ∧ q.aux = p.aux ∧ q.info = .status st ∧ q.data = data

/-- What a packet's delivery, made as r says, leads to: it is answered with its status, or held back and offered again
(R311). -/
def Takes (s : State) (ev : Instr) (p : Packet) (typ : PType) (r : Took × Mach) (data : List Byte) : Prop :=
  (∀ st, r.1 = .ok ∧ st = 0 ∨ r.1 = .fail st → ∃ t, exec ev s = .next t ∧ Answered s t p typ st data
    ∧ t.mach.mem = r.2.mem ∧ t.mach.cores = r.2.cores)
  ∧ (r.1 = .hold → exec ev s = .next { s with mach := { r.2 with heldDel := r.2.heldDel ++ [(p, true)] } })

/-- The context that a packet names accepts it by its tag (R359, R360). -/
def Accepted (s : State) (p : Packet) (ctx : Nat) : Prop :=
  ctx = p.tgt / 2 ^ 16 % 2 ^ 10 ∧ (s.mach.ctx ctx).st ≠ .free ∧ (s.mach.ctx ctx).st ≠ .dead
  ∧ (s.mach.ctx ctx).ftag.toNat = p.ftag ∧ p.ftag ≠ 0

/-- n bytes at an address of a context lie in one line of a page that grants a right and is there, and stand in memory
from the key k on. -/
def InLine (m : Mach) (ctx va n : Nat) (need : Right) (k : Nat) : Prop :=
  0 < n ∧ va % 64 + n ≤ 64 ∧ ∃ g m', m.ctxPage ctx va need = (.ok (g, k), m')

/-- The contexts are as they were but for the energy that a packet has cost them (R263). -/
def SameButEnergy (m n : Mach) : Prop := ∀ j, { n.ctx j with act := (m.ctx j).act } = m.ctx j

/-- A command in progress of an instance, resident or saved. -/
def InProgress (s : State) (n : Nat) (i : Inst) (x : Cmd) : Prop :=
  s.mach.instOf (n / 2 ^ 32) = some i ∧ i.id.uid = n / 2 ^ 32 ∧ i.cmd? (n % 2 ^ 32) = some x

/-- The command of an instance has ended: its result word is the last of F0's result side (R362). -/
def CommandEnded (t : State) (n : Nat) (i : Inst) (x : Cmd) : Prop :=
  ∃ j, t.mach.instOf (n / 2 ^ 32) = some j ∧ j.fifo = { i.fifo with
    cmds := i.fifo.cmds.filter (·.id != n % 2 ^ 32)
    res0 := i.fifo.res0 ++ [BitVec.ofNat 64 (x.tag.toNat + x.status * 2 ^ 32 + x.flags.toNat * 2 ^ 40
      + (if x.nan then 2 ^ 46 else 0) + (if x.snres then 2 ^ 47 else 0) + x.contrib * 2 ^ 48)] }

end Sys2Proof.Claims

/-- R91, R309, R359–R366: PUT, PUTSIG, GET, RAMO and COLL start: their fields are checked, the payload is read, and their
packets leave in pieces of at most 4,096 bytes that divide no aligned 8-byte unit; a body out of range is REJ, and a
context with TAG 0 DENIED. A COLL in progress goes through its steps: it sends its fragment, then takes in its
neighbour's. Each of put, putsig, get, ramo and coll answers a next state with its effect.
The command numbers and the layout of AUX are the model's own (entry 61). -/
def Sys2Proof.Claims.FabricCommands : Prop :=
  ∀ (s : State) (c : CoreId) (x y : Cmd) (data : List Byte) (nr : Bool) (bad : Option Nat) (m : Mach),
    let w := fun k => (x.body.getD (k - 1) 0).toNat
    let ctl := w 4
    let len := ctl % 2 ^ 24 + 1
    let dkind := ctl / 2 ^ 24 % 4
    let skind := ctl / 2 ^ 26 % 4
    let tgt := w 3
    let payload := (cuts (if dkind = 2 then w 2 / 2 ^ 20 else w 2) len).map fun q =>
      m.packetOf c x.id .write 0 tgt (pieceAddr dkind (w 2) q.1) (auxOf dkind q.1 len) ((data.drop q.1).take q.2)
    let putOk := ctl < 2 ^ 28 ∧ dstOk dkind (w 2) = true ∧ tgt < 2 ^ 42 ∧ (dkind = 0 ∧ skind = 0 → tgt / 2 ^ 26 = 0)
    let sigGood := sigOk skind (w 5) (w 6) = true
    let signal := m.packetOf c x.id .sig 0 tgt (w 5) (auxOf skind 0 len) (bytesOf 8 (w 6))
    let getOk := ctl < 2 ^ 24 ∧ tgt < 2 ^ 26 ∧ isCanon (w 1) = true
    let requests := (cuts (w 2) len).map fun q => s.mach.packetOf c x.id .readreq 0 tgt (w 1 + q.1) (auxOf 0 q.1 (q.1 + q.2)) []
    let ramoOk := w 6 < 2 ^ 6 ∧ w 6 % 16 ≤ 9 ∧ (w 6 % 16 ≠ 9 → w 3 = 0) ∧ ((w 6).testBit 4 = false → w 4 = 0) ∧ w 5 < 2 ^ 26
      ∧ isCanon (w 1) = true ∧ w 1 % 8 = 0 ∧ w 4 % 8 = 0
    let ring := fun k => leNat ((data.drop (8 * k)).take 8)
    let own := s.mach.pkg.toNat + (s.mach.inst c).id.ctx.val * 2 ^ 16 + (s.mach.inst c).id.num * 2 ^ 26
    let collOk := ctl < 2 ^ 28 ∧ 2 ≤ x.collP ∧ x.collRank < x.collP
    let num := s.mach.cmdNum c x
    let chunk := x.chunk (x.sendChunk x.step)
    let fragment := (if data = [] then [(0, [])] else pieces (x.stageOff x.step) data).map fun q =>
      m.packetOf c x.id .frag 3 x.nextMember x.step (auxOf 0 q.1 (2 * chunk.2)) q.2
    (∀ a n, (∀ q ∈ cuts a n, q.2 ≤ 4096 ∧ (q.1 = 0 ∨ (a + q.1) % 8 = 0)) ∧ ((cuts a n).map (·.2)).sum = n)
    ∧ (NextCommand s c 1 x →
      (putOk → skind = 0 → Tagged s c → LocalBytes s c (w 1) len data nr m →
        HasStarted s (.put c) c m { x with outstanding := payload.length, snres := nr } payload)
      ∧ (¬putOk ∨ skind ≠ 0 → Rejected s (.put c) c x 1)
      ∧ (putOk → skind = 0 → ¬Tagged s c → Rejected s (.put c) c x 3))
    ∧ (NextCommand s c 3 x →
        (putOk → sigGood → Tagged s c → LocalBytes s c (w 1) len data nr m →
          HasStarted s (.putsig c) c m { x with outstanding := payload.length, pendingSig := some signal, snres := nr } payload)
        ∧ (¬putOk ∨ ¬sigGood → Rejected s (.putsig c) c x 1)
        ∧ (putOk → sigGood → ¬Tagged s c → Rejected s (.putsig c) c x 3))
    ∧ (NextCommand s c 2 x →
        (getOk → Tagged s c → HasStarted s (.get c) c s.mach { x with outstanding := requests.length } requests)
        ∧ (¬getOk → Rejected s (.get c) c x 1) ∧ (getOk → ¬Tagged s c → Rejected s (.get c) c x 3))
    ∧ (NextCommand s c 4 x →
        (ramoOk → Tagged s c → HasStarted s (.ramo c) c s.mach { x with outstanding := 1 }
          [s.mach.packetOf c x.id .amo 0 (w 5) (w 1) (w 6) (bytesOf 8 (w 2) ++ bytesOf 8 (w 3))])
        ∧ (¬ramoOk → Rejected s (.ramo c) c x 1) ∧ (ramoOk → ¬Tagged s c → Rejected s (.ramo c) c x 3))
    ∧ (NextCommand s c 5 x → s.mach.collNext c = none →
        (collOk → Tagged s c → isWindow (w 1) = true → isWindow (w 2) = true →
          w 1 % 2 ^ 22 + 2 * x.collN ≤ (s.mach.inst c).id.part →
          w 2 % 2 ^ 22 + (2 * x.collP - 2) * (2 * x.chunkLen) ≤ (s.mach.inst c).id.part →
          LocalBytes s c (w 3) (8 * x.collP) data nr m → (∀ k, k < x.collP → ring k < 2 ^ 42) → ring x.collRank = own →
            HasStarted s (.coll c) c m
              { x with body := x.body ++ (List.range x.collP).map fun k => BitVec.ofNat 64 (ring k), snres := nr } [])
        ∧ (¬collOk → Rejected s (.coll c) c x 1) ∧ (collOk → ¬Tagged s c → Rejected s (.coll c) c x 3))
    ∧ ((s.mach.core c).resident = true → s.mach.collNext c = some x →
        (x.sentStep = false → (lRead c none (windowOff (w 1) + 2 * chunk.1) (2 * chunk.2)).go s.mach = (.ok (data, bad), m) →
          let y := { x with sentStep := true, snres := x.snres || bad.isSome, outstanding := x.outstanding + fragment.length }
          exec (.coll c) s = .next { s with mach := ((m.modCmd num fun _ => y).sendAll fragment).settleColl num })
        ∧ (x.sentStep = true → (takeFrag c x).go s.mach = (.ok y, m) →
          exec (.coll c) s = .next { s with mach := (m.modCmd num fun _ => y).settleColl num }
          ∧ y.step = x.step + 1 ∧ y.sentStep = false))

/-- R309, R311, R319, R353, R359–R365: the packets of the one-sided commands at their target. A WRITE stores its bytes, a
READREQ is answered with the bytes, a SIG adds, an AMO performs its operation and is answered with the old value; a WRITE
or a SIG for an instance is offered to it, a SIG for a barrier is counted there, and what cannot be taken yet is held. Each
but the read raises the boost of its gang's contexts at its first byte, and a packet that its context does not accept is
answered so. Each of pktWrite, readreq, pktSig and pktAmo answers a next state with its effect.
The layout of AUX and how an answer names its packet are the model's own (entries 61 and 62). -/
def Sys2Proof.Claims.FabricRequests : Prop :=
  ∀ (s : State) (p : Packet) (ctx k st : Nat) (tg : Target) (l : List Byte) (nr : Bool) (took : Took) (m' : Mach),
    let m := s.mach
    let kind := p.aux % 4
    let off := p.aux / 4 % 2 ^ 24
    let len := p.aux / 2 ^ 26
    let n := min 4096 (len - off)
    let old := wordAt m k
    let opnd := BitVec.ofNat 64 (leNat (p.data.take 8))
    let cmp := BitVec.ofNat 64 (leNat (p.data.drop 8))
    let raised := m.arrival p.gang (ctxDie ctx)
    let here := if off = 0 then raised else m
    let there := m.targetInst p.tgt p.gang = some tg
    Arrives s p →
      (Accepted s p ctx →
        (kind = 0 → InLine here ctx p.addr p.data.length .write k → ∃ t, exec (.pktWrite p) s = .next t ∧ Answered s t p .ack 0 []
          ∧ (∀ a, cellGet t.mach.mem a = if k ≤ a ∧ a < k + p.data.length then p.data.getD (a - k) 0 else cellGet m.mem a)
          ∧ t.mach.cores = m.cores ∧ SameButEnergy here t.mach)
        ∧ (kind = 0 → Takes s (.pktWrite p) p .ack (here.ctxStore ctx p.addr p.data) [])
        ∧ (kind ≠ 0 → there → Takes s (.pktWrite p) p .ack (here.offer tg (delivOf p) p.tgt kind p.addr p.data off len) [])
        ∧ (InLine m ctx p.addr n .read k → k / 64 ∉ m.poison → ∃ t, exec (.readreq p) s = .next t
          ∧ Answered s t p .readresp 0 (cellsRead m.mem k n) ∧ t.mach.mem = m.mem ∧ t.mach.cores = m.cores ∧ SameButEnergy m t.mach)
        ∧ (m.ctxLoad ctx p.addr n = (.ok (l, nr), m') → ∃ t, exec (.readreq p) s = .next t
          ∧ Answered s t p .readresp (if nr then 256 else 0) l ∧ t.mach.mem = m.mem ∧ t.mach.cores = m.cores)
        ∧ (m.ctxLoad ctx p.addr n = (.error took, m') → Takes s (.readreq p) p .readresp (took, m') [])
        ∧ (kind = 0 → InLine raised ctx p.addr 8 .write k → k / 64 ∉ m.poison → ∃ t, exec (.pktSig p) s = .next t
          ∧ Answered s t p .ack 0 [] ∧ Stored m.mem t.mach.mem k (old + BitVec.ofNat 64 (leNat p.data)) 8
          ∧ t.mach.cores = m.cores ∧ SameButEnergy raised t.mach)
        ∧ (kind = 1 → there → Takes s (.pktSig p) p .ack (raised.offerSig tg (delivOf p) p.tgt p.addr (leNat p.data)) [])
        ∧ (2 ≤ kind → there → Takes s (.pktSig p) p .ack (raised.countFor p ctx p.addr tg len) []
          ∧ ((raised.countFor p ctx p.addr tg len).1 = .carried → ∃ t, exec (.pktSig p) s = .next t
              ∧ t.mach.mem = (raised.countFor p ctx p.addr tg len).2.mem
              ∧ t.mach.relays = (raised.countFor p ctx p.addr tg len).2.relays))
        ∧ (InLine raised ctx p.addr 8 .write k → k / 64 ∉ m.poison → ∃ t, exec (.pktAmo p) s = .next t
          ∧ Answered s t p .amoresp 0 (bytesOf 8 old.toNat) ∧ t.mach.cores = m.cores ∧ SameButEnergy raised t.mach
          ∧ (let op := match p.aux % 16 with
               | 0 => AOp.add | 1 => .and | 2 => .or | 3 => .xor | 4 => .min | 5 => .max | 6 => .minu | 7 => .maxu | _ => .swap
             Stored m.mem t.mach.mem k (if p.aux % 16 ≤ 8 then amoResult op old opnd else if old = cmp then opnd else old) 8))
        ∧ (kind ≠ 0 → m.targetInst p.tgt p.gang = none →
            Takes s (.pktWrite p) p .ack (.fail 2, m) [] ∧ Takes s (.pktSig p) p .ack (.fail 2, m) []))
      ∧ (m.targetCtx p.tgt p.ftag = .error st →
          Takes s (.pktWrite p) p .ack (.fail st, m) [] ∧ Takes s (.pktSig p) p .ack (.fail st, m) []
          ∧ Takes s (.readreq p) p .readresp (.fail st, m) [] ∧ Takes s (.pktAmo p) p .amoresp (.fail st, m) (bytesOf 8 0))

/-- R353, R361–R366: the answers to a command's packets. The last ends the command, with the first failure in address
order; a PUTSIG whose payload has been delivered sends its signal first; a GET's bytes are written at DST and a RAMO's old
value at RADDR. A fragment is delivered into STAGE and counted, waits for its member's COLL, or ends it with MISMATCH, and
a packet that found no link for 10 ms ends its command with LINKFAIL. Each of ack, readresp, amoresp, frag and
packetLinkfail answers a next state with its effect.
The layout of AUX and how an answer names its packet are the model's own (entries 61 and 62). -/
def Sys2Proof.Claims.FabricAnswers : Prop :=
  ∀ (s : State) (p sig : Packet) (i : Inst) (x : Cmd) (st k n code : Nat) (tg : Target) (m' : Mach) (took : Took),
    let m := s.mach
    let off := p.aux / 4 % 2 ^ 24
    let dst := x.word 2 + off
    let step := p.addr
    let len := p.aux / 2 ^ 26
    let told := tellsCommand (answeredType p.addr) = true
    let ends := fun (ev : Instr) (y : Cmd) => ∃ t, exec ev s = .next t ∧ CommandEnded t p.cmd i y ∧ t.mach.mem = m.mem
    let goesOn := fun (ev : Instr) (y : Cmd → Prop) => ∃ t j, exec ev s = .next t ∧ t.mach.instOf (p.cmd / 2 ^ 32) = some j
      ∧ j.fifo.res0 = i.fifo.res0 ∧ t.mach.mem = m.mem ∧ ∃ z, j.cmd? (p.cmd % 2 ^ 32) = some z ∧ y z
    let written := (took = .ok ∧ code = 0) ∨ took = .fail code
    let here := if off = 0 then m.arrival p.gang (ctxDie n) else m
    let mine := ((p.cls ≠ 2 ∧ p.srcPkg = m.pkg.toNat) ∨ (p.cls = 2 ∧ destPkg p = m.pkg.toNat)) ∧ ofCommand p = true
    let waits := ∃ j, 16 ≤ j ∧ (j, p) ∈ m.unacked
    (InProgress s p.cmd i x → x.status = 0 →
      (Arrives s p → p.info = .status st →
        (told → x.code ≤ 4 → x.outstanding = 1 → x.pendingSig = none ∨ st ≠ 0 → ends (.ack p) { x with status := st })
        ∧ (told → x.code ≤ 4 → 2 ≤ x.outstanding →
            goesOn (.ack p) fun y => y.outstanding = x.outstanding - 1 ∧ y.status = st)
        ∧ (told → x.code = 3 → x.outstanding = 1 → x.pendingSig = some sig → st = 0 →
            (goesOn (.ack p) fun y => y = { x with outstanding := 1, pendingSig := none })
            ∧ ∃ t, exec (.ack p) s = .next t ∧ ∃ q, Leaves t.mach { sig with seq := q })
        ∧ (told → x.code = 5 → st ≠ 0 ∨ (x.step = x.lastStep ∧ x.outstanding ≤ 1) → ends (.ack p) { x with status := st })
        ∧ (told → x.code = 5 → st = 0 → x.step ≠ x.lastStep ∨ 2 ≤ x.outstanding →
            goesOn (.ack p) fun y => y = { x with outstanding := x.outstanding - 1 })
        ∧ (told → 5 < x.code → st ≠ 0 → ends (.ack p) { x with status := st })
        ∧ (¬told ∨ (5 < x.code ∧ st = 0) → goesOn (.ack p) fun y => y = x)
        ∧ (x.code = 2 → x.outstanding = 1 → x.pendingSig = none → st = 0 → isCanon dst = true → dst < 2 ^ 64 →
            InLine m i.id.ctx.val dst p.data.length .write k → ∃ t, exec (.readresp p) s = .next t ∧ CommandEnded t p.cmd i x
              ∧ ∀ a, cellGet t.mach.mem a = if k ≤ a ∧ a < k + p.data.length then p.data.getD (a - k) 0 else cellGet m.mem a)
        ∧ (x.code = 2 → x.outstanding = 1 → x.pendingSig = none → st % 256 = 0 →
            m.localPut (p.cmd / 2 ^ 32) dst p.data = (took, m') → written → ∃ t, exec (.readresp p) s = .next t
              ∧ CommandEnded t p.cmd i { x with status := code, snres := x.snres || decide (256 ≤ st) } ∧ t.mach.mem = m'.mem)
        ∧ (x.code = 2 → x.outstanding = 1 → x.pendingSig = none → st % 256 ≠ 0 →
            ends (.readresp p) { x with status := st % 256, snres := x.snres || decide (256 ≤ st) })
        ∧ (x.code = 4 → x.outstanding = 1 → x.pendingSig = none → st ≠ 0 ∨ (x.word 6).testBit 4 = false →
            ends (.amoresp p) { x with status := st })
        ∧ (x.code = 4 → x.outstanding = 1 → x.pendingSig = none → st = 0 → (x.word 6).testBit 4 = true →
            m.localPut (p.cmd / 2 ^ 32) (x.word 4) p.data = (took, m') → written → ∃ t, exec (.amoresp p) s = .next t
              ∧ CommandEnded t p.cmd i { x with status := code } ∧ t.mach.mem = m'.mem))
      ∧ (waits → mine → x.code ≤ 4 → x.outstanding = 1 → ends (.packetLinkfail p) { x with status := 5 }))
    ∧ (¬waits → exec (.packetLinkfail p) s = .next s)
    ∧ (waits → ¬mine → p.typ ∉ [.mgmt, .demand, .hist, .pdone] → exec (.packetLinkfail p) s =
        .next { s with mach := { m with unacked := m.unacked.filter fun e => !(decide (16 ≤ e.1) && e.2 == p) } })
    ∧ (Arrives s p → Accepted s p n → m.targetInst p.tgt p.gang = some tg → here.instOf tg.uid = some i →
        (i.collFor step = none →
          exec (.frag p) s = .next { s with mach := { here with heldDel := here.heldDel ++ [(p, true)] } })
        ∧ (i.collFor step = some x → x.id < 2 ^ 32 → step < x.lastStep → len = 2 * (x.chunk (x.recvChunk step)).2 →
            here.offer tg (delivOf p) p.tgt 1 (x.stageOff step + off) p.data off len = (.ok, m') →
            m'.cmd? (tg.uid * 2 ^ 32 + x.id) = some x →
              ∃ t, exec (.frag p) s = .next t ∧ Answered s t p .ack 0 [] ∧ t.mach.mem = m'.mem
                ∧ t.mach.cmd? (tg.uid * 2 ^ 32 + x.id) = some { x with
                    frags := aset x.frags step ((alookup x.frags step).getD 0 + p.data.length) })
        ∧ (i.collFor step = some x → x.id < 2 ^ 32 → i.id.uid = tg.uid →
            x.lastStep ≤ step ∨ len ≠ 2 * (x.chunk (x.recvChunk step)).2 →
              ∃ t, exec (.frag p) s = .next t ∧ Answered s t p .ack 0 [] ∧ t.mach.mem = m.mem
                ∧ t.mach.cmd? (tg.uid * 2 ^ 32 + x.id) = none))


namespace Sys2Proof.Claims

/-- A packet of the IOD has gone on its way, or waits there for one (R21). -/
def LeavesIod (m : Mach) (q : Packet) : Prop := Leaves m q ∨ (17, q) ∈ m.unacked

/-- The IOD has taken a packet of another module, and its acknowledgement goes back with a status (R353). -/
def IodAnswered (s t : State) (p : Packet) (st : Nat) : Prop :=
  p.srcPkg ≠ s.mach.pkg.toNat → takenKey p ∈ t.mach.consumed ∧ ∃ q, LeavesIod t.mach q ∧ q.typ = .ack ∧ q.cls = 2
    ∧ q.tgt = p.srcPkg ∧ q.dstDie = p.srcDie ∧ q.addr = answerAddr p ∧ q.cmd = p.cmd ∧ q.info = .status st

/-- The part of an exchange that an arbiter's packet is for: of the command of an instance that the packet names, which
listens to its sender (R381, R385). -/
def Participant (s : State) (p : Packet) (i : Inst) (x : Cmd) (q : Part) : Prop :=
  InProgress s p.cmd i x ∧ x.part = some q ∧ q.key = p.addr / 2 ∧ (q.fromStandby = false ∨ p.srcCore ≠ 0) ∧ Arrives s p

/-- The participant's part is now q, and its command is otherwise as it was. -/
def PartIs (t : State) (n : Nat) (x : Cmd) (q : Part) : Prop := t.mach.cmd? n = some { x with part := some q }

/-- No phase of a part is done: it waits for its self part, or its lowest phase is not done (R378). -/
def Steady (q : Part) : Prop := q.ready = false ∨ ∀ ph, q.phase = some ph → q.phaseDone ph = false

/-- A packet of a type with some contents goes to a module. -/
def Tells (t : State) (typ : PType) (pkg : Nat) (info : PInfo) : Prop :=
  ∃ q, LeavesIod t.mach q ∧ q.typ = typ ∧ q.tgt = pkg ∧ q.info = info

/-- The arbiter that a part listens to. -/
def arbiterOf (q : Part) : Nat := if q.fromStandby then q.posting.stb else q.posting.arb

/-- A packet brings a part to q': the part is q', or, where that ends a phase, the phase is over and the arbiter hears of
it (R378). -/
def PartGets (s : State) (ev : Instr) (n : Nat) (x : Cmd) (q' : Part) (also : State → Prop) : Prop :=
  (Steady q' → ∃ t, exec ev s = .next t ∧ PartIs t n x q' ∧ also t)
  ∧ ∀ ph, q'.ready = true → q'.phase = some ph → q'.phaseDone ph = true →
      let past := { q' with grants := q'.grants.filter (·.phase != ph), next := ph + 1, heard := s.mach.cycle }
      Steady past → ∃ t, exec ev s = .next t ∧ PartIs t n x past ∧ Tells t .pdone (arbiterOf q') .none ∧ also t

/-- The exchange is over at its arbiter: it is forgotten, and every poster whose result is not pushed is told to end with a
status (R384). -/
def Closed (s t : State) (e : Exch) (st : Nat) : Prop :=
  (∀ x, x ∈ t.mach.exchs ↔ x ∈ s.mach.exchs ∧ ¬(x.key = e.key ∧ x.standby = e.standby))
  ∧ ∀ p ∈ (e.without e.pushed).posters, ∃ q, LeavesIod t.mach q ∧ q.typ = .abort ∧ q.tgt = p.srcPkg ∧ q.cmd = p.cmd
      ∧ q.info = .status st

/-- No exchange of a key is known here. -/
def NoExchange (s : State) (key : Nat) : Prop := ∀ e ∈ s.mach.exchs, e.key ≠ key

end Sys2Proof.Claims

/-- R317, R357, R367–R369: reductions in a switch. RESERVE configures a free slot and FREE empties one, each once the IOD's
link carries the command, or end with BADARG, INUSE or NOSWITCH. SRED sends its contribution, in packets, to the die whose
link leads to the switch; the slot holds contributions until all are in, or until its timeout, and then answers every
contributor; a contribution that it does not take is answered DENIED, LATE or MISMATCH; the answer ends the command. A
management packet releases a domain round here, or makes or frees a reservation of another module of the domain. Each of
reserve, free, sred, sredc, sredSlotTimeout, sredr and mgmt answers a next state with its effect.
That RESERVE and FREE complete at once is the model's choice (entries 100 and 128), and the packets' layout its own
(entry 61). -/
def Obligations.SwitchReductions : Prop :=
  ∀ (s : State) (c : CoreId) (x : Cmd) (i : Inst) (p : Packet) (d : DieId) (lk : Fin 16) (r : RedSlot) (data : List Byte) (nr : Bool)
      (m' : Mach) (rd : Round) (rank seq ctag flags contrib st n dt' code : Nat) (nan : Bool) (sw : Byte) (slot : BitVec 12)
      (took : Took),
    let m := s.mach
    let w := fun k => (x.body.getD (k - 1) 0).toNat
    let ctl := w 3
    let g := m.swRegs
    let w1 := g.w1.toNat
    let w2 := g.w2.toNat
    let nc := w2 % 2 ^ 11
    let op := w2 / 2 ^ 11 % 8
    let dt := w2 / 2 ^ 14 % 4
    let fits := w1 % 2 ^ 24 ≠ 0 ∧ w1 < 2 ^ 56 ∧ w2 < 2 ^ 46 ∧ 1 ≤ nc ∧ nc ≤ 1024 ∧ op ≤ 3 ∧ dt ≤ 2 ∧ (op = 3 ↔ dt = 2)
    let there := ∃ l, m.toSwitch g.sw.toNat l = true
    let way := m.iodWay.isSome = true
    let answers := fun (st : BitVec 7) (slots : List RedSlot) (out : List Packet) (i : Instr) => exec i s = .next { s with mach :=
      { m with redSlots := slots, wire := m.wire ++ out, swRegs := { g with busy := false, status := st } } }
    let later := fun (i : Instr) => exec i s = .next { s with mach := { m with timers := m.timers ++ [(m.cycle + 1, i)] } }
    let reserved : RedSlot :=
      { sw := g.sw.toNat, slot := g.slot.toNat, gang := w1 % 2 ^ 24, ctag := w1 / 2 ^ 24, nc, op, dt
        n := w2 / 2 ^ 16 % 2 ^ 10 + 1, tmo := w2 / 2 ^ 26 }
    let held := m.slot? g.sw.toNat g.slot.toNat
    let emptied := fun (sw slot : Nat) => m.redSlots.filter fun x => !(x.sw == sw && x.slot == slot)
    let of := match m.slot? (ctl % 256) (ctl / 2 ^ 8 % 2 ^ 12) with | some r => (r.n, r.dt) | none => (0, 0)
    let parts := (if data = [] then [(0, [])] else pieces 0 data).map fun q =>
      { m'.packetOf c x.id .sredc (if d = dieOf c then 3 else 1) m'.pkg.toNat q.1
          (ctl % 256 + 2 ^ 8 * (ctl / 2 ^ 8 % 2 ^ 12 + 2 ^ 12 * (m'.gw.get lk).pport.toNat)) q.2
          (.sred (ctl / 2 ^ 20 % 2 ^ 10) (ctl / 2 ^ 30 % 2 ^ 16) (w 4) of.1 of.2 0 0 0 false) with dstDie := d }
    let us := if r.tmo = 0 then 100 else r.tmo
    let done := { r with held := [], seq := r.seq + 1, rounds := r.rounds + 1 }
    let come := m.redParts.filter (sameContribution p) ++ [p]
    let whole := contribLen p ≤ (come.map (·.data.length)).sum
    let p' := { p with data := (sortBy (fun (a b : Packet) => decide (a.addr ≤ b.addr)) come).flatMap (·.data) }
    let new : Contribution := { rank, values := valuesOf dt' p'.data, src := p' }
    let there' := m.slot? (p.aux % 256) (p.aux / 256 % 2 ^ 12)
    let contributions := ∀ h ∈ r.held, ∃ a b e f k u v w z, h.src.info = .sred a b e f k u v w z
    let sent := fun (t : State) (h : Contribution) (st n : Nat) => ∃ q, Leaves t.mach q ∧ q.typ = .sredr ∧ q.tgt = h.src.srcPkg
      ∧ q.cmd = h.src.cmd ∧ ∃ a b e f k fl nan, q.info = .sred a b e f k st fl n nan
    let refuses := fun (st : Nat) => ∃ t q, exec (.sredc p) s = .next t ∧ Leaves t.mach q ∧ q.typ = .sredr ∧ q.tgt = p.srcPkg
      ∧ q.cmd = p.cmd ∧ q.info = .sred rank seq ctag n dt' st 0 0 false ∧ t.mach.redSlots = m.redSlots
    let mine := r.gang = p.gang ∧ r.ctag = ctag ∧ rank < r.nc
    let late := r.rounds ≠ 0 ∧ seq = (r.seq - 1).toNat
    let fitsNow := seq = r.seq.toNat ∧ n = r.n ∧ ∀ h ∈ r.held, h.rank ≠ rank
    let written := (took = .ok ∧ code = 0) ∨ took = .fail code
    let result := fun (st : Nat) => { x with status := st, flags := BitVec.ofNat 6 flags, contrib, nan }
    let takes := fun (also : State → Prop) => ∃ t, exec (.mgmt p) s = .next t ∧ IodAnswered s t p 0 ∧ also t
    (fits → there → way → held = none →
      answers 0 (m.redSlots ++ [reserved]) [m.mgmtPacket m.pkg.toNat 0 0 0 reserved.info] .reserve)
    ∧ (fits → there → way → held ≠ none → answers 11 m.redSlots [] .reserve)
    ∧ (fits → there → ¬way → later .reserve)
    ∧ (fits → ¬there → answers 12 m.redSlots [] .reserve)
    ∧ (¬fits → answers 7 m.redSlots [] .reserve)
    ∧ (there → way →
        answers 0 (emptied g.sw.toNat g.slot.toNat) [m.mgmtPacket m.pkg.toNat 0 0 0 (.free g.sw.toNat g.slot.toNat)] .free)
    ∧ (there → ¬way → later .free)
    ∧ (¬there → answers 12 m.redSlots [] .free)
    ∧ (NextCommand s c 6 x →
        (ctl < 2 ^ 46 → w 4 < 2 ^ 32 → Tagged s c → m.switchLink (dieOf c) (ctl % 256) = some (d, lk) →
          LocalBytes s c (w 1) (of.1 * dtSize of.2) data nr m' → HasStarted s (.sred c) c m' { x with snres := nr } parts)
        ∧ (2 ^ 46 ≤ ctl ∨ 2 ^ 32 ≤ w 4 → Rejected s (.sred c) c x 1)
        ∧ (ctl < 2 ^ 46 → w 4 < 2 ^ 32 → ¬Tagged s c → Rejected s (.sred c) c x 3)
        ∧ (ctl < 2 ^ 46 → w 4 < 2 ^ 32 → Tagged s c → m.switchLink (dieOf c) (ctl % 256) = none → Rejected s (.sred c) c x 5))
    ∧ (¬whole → exec (.sredc p) s = .next { s with mach := { m with redParts := m.redParts ++ [p] } })
    ∧ (whole → p.info = .sred rank seq ctag n dt' st flags contrib nan →
        (there' = some r → mine → ¬late → fitsNow → contributions →
          (r.held.length + 1 < r.nc → ∃ t, exec (.sredc p) s = .next t
            ∧ t.mach.slot? r.sw r.slot = some { r with held := r.held ++ [new], since := if r.held = [] then m.cycle else r.since }
            ∧ (r.held = [] → (m.cycle + 1500 * us, Instr.sredSlotTimeout (BitVec.ofNat 8 r.sw) (BitVec.ofNat 12 r.slot)) ∈ t.mach.timers))
          ∧ (r.held.length + 1 = r.nc → ∃ t since, exec (.sredc p) s = .next t ∧ t.mach.slot? r.sw r.slot = some { done with since }
            ∧ ∀ h ∈ new :: r.held, sent t h 0 r.nc))
        ∧ (there' = none ∨ (there' = some r ∧ ¬mine) → refuses 3)
        ∧ (there' = some r → mine → late → refuses 8)
        ∧ (there' = some r → mine → ¬late → ¬fitsNow → refuses 9))
    ∧ (r.sw < 2 ^ 8 → r.slot < 2 ^ 12 → m.slot? r.sw r.slot = some r → contributions → r.held ≠ [] → r.since + 1500 * us ≤ m.cycle →
        ∃ t, exec (.sredSlotTimeout (BitVec.ofNat 8 r.sw) (BitVec.ofNat 12 r.slot)) s = .next t
          ∧ t.mach.slot? r.sw r.slot = some done ∧ ∀ h ∈ r.held, sent t h 7 r.held.length)
    ∧ (m.slot? sw.toNat slot.toNat = none
        ∨ (m.slot? sw.toNat slot.toNat = some r ∧ (r.held = [] ∨ m.cycle < r.since + 1500 * us)) →
        exec (.sredSlotTimeout sw slot) s = .next s)
    ∧ (Arrives s p → InProgress s p.cmd i x → x.status = 0 → p.info = .sred rank seq ctag n dt' st flags contrib nan →
        (p.data = [] → ∃ t, exec (.sredr p) s = .next t ∧ t.mach.mem = m.mem ∧ CommandEnded t p.cmd i (result st))
        ∧ (p.data ≠ [] → m.localPut (p.cmd / 2 ^ 32) (x.word 2 + p.aux) p.data = (took, m') → written → m'.cmd? p.cmd = some x →
            let st' := if st = 0 then code else st
            (contribLen p ≤ x.outstanding + p.data.length →
              ∃ t, exec (.sredr p) s = .next t ∧ t.mach.mem = m'.mem ∧ CommandEnded t p.cmd i (result st'))
            ∧ (x.outstanding + p.data.length < contribLen p → ∃ t y, exec (.sredr p) s = .next t ∧ t.mach.mem = m'.mem
                ∧ t.mach.cmd? p.cmd = some y ∧ y.outstanding = x.outstanding + p.data.length ∧ y.status = st')))
    ∧ (Arrives s p →
        (p.info = .status 0 → m.rounds.find? (fun q => q.num == p.cmd && q.ended.isNone && q.upward) = some rd →
          takes fun t => ∀ c, (m.core c).resident = true → (∃ a ∈ (m.inst c).arrivals, a.round = rd.num) →
            Instr.barrierRelease c rd.num ∈ t.mach.agenda)
        ∧ (p.info = reserved.info → held = none → takes fun t => t.mach.redSlots = m.redSlots ++ [reserved])
        ∧ (p.info = .free sw.toNat slot.toNat → takes fun t => t.mach.redSlots = emptied sw.toNat slot.toNat)
        ∧ (m.takeMgmt p = (code, m') → ∃ t, exec (.mgmt p) s = .next t ∧ IodAnswered s t p code ∧ t.mach.mem = m'.mem
            ∧ t.mach.rounds = m'.rounds ∧ t.mach.redSlots = m'.redSlots))

/-- R372–R374, R378–R380, R386–R394: DPOST and XREP post: the domain record, the row or the key record and the records are
read and checked, the part begins, its silence timer with it, and the first packet goes to the arbiter; fields out of range
are REJ. In progress, the engine moves the self part, sends the bytes of a phase with their end marker and, once FINAL has
come and every phase is done, writes the results and ends the command. Each of dpost and xrep answers a next state with
its effect.
The packets' layout is the model's own (entry 61). -/
def Sys2Proof.Claims.ExchangeCommands : Prop :=
  ∀ (s : State) (c : CoreId) (x y : Cmd) (m1 m2 m3 : Mach) (dom : Dom) (row kb : List Byte) (nr nr' : Bool) (sc : Scan)
      (gr : Grant) (ps : List Packet) (fin : Nat × Bool × Bool × Bool) (st : Nat),
    let m := s.mach
    let id := (m.inst c).id
    let w := fun k => (x.body.getD (k - 1) 0).toNat
    let ctl := w 8
    let ftag := (m.ctx id.ctx.val).ftag.toNat
    let n := id.uid * 2 ^ 32 + x.id
    let rank := if x.code = 7 then ctl / 2 ^ 16 % 2 ^ 6 else ctl / 2 ^ 15 % 2 ^ 6
    let words := fun (l : List Byte) (k : Nat) => (List.range k).map fun j => leNat ((l.drop (8 * j)).take 8)
    let begins := fun (ev : Instr) (mr : Mach) (y : Cmd) (q : Posting) (extra : Part → Part) (typ : PType) =>
      let part : Part := { posting := q, key := exKey q.arb ftag q.exid, recv := List.replicate q.p 0, heard := mr.cycle }
      (mr.ctx (mr.inst c).id.ctx.val).ftag = (m.ctx id.ctx.val).ftag → (mr.inst c).id = id → Tagged s c →
      HasStarted s ev c { mr with timers := mr.timers ++ [(mr.cycle + 15000000, .arbiterSilenceTimeout n)] }
        { y with part := some (extra part) } [mr.toArbiter (dieOf c) ftag id.gang n part typ 0 (.post q)]
    let d := ctl / 2 ^ 5 % 4 + 1
    let cfg := (ctl - rank * 2 ^ 15) :: words kb 8
    let k : KeyRec := { d, b := ctl / 2 ^ 7 % 2 ^ 6, hilbert := ctl.testBit 13, bytes := kb }
    let mulFlags := ((List.range d).map fun i => (k.mul i).2).foldl (· ||| ·) 0
    let fields := ctl < 2 ^ 26 ∧ w 5 < 2 ^ 40 ∧ ctl / 2 ^ 22 % 2 ^ 4 ≤ 12 ∧ w 1 % 8 = 0 ∧ w 6 % 8 = 0 ∧ w 7 % 64 = 0
    let goes := fun (ev : Instr) =>
      (x.q.ready = false → (selfStep c x).go m = (.ok (y, ps), m1) →
        exec ev s = .next { s with mach := ((m1.modCmd n fun _ => y).sendAll ps).advancePart n })
      ∧ (x.q.ready = true → x.q.toSend = some gr → (sendStep c x gr).go m = (.ok (y, ps), m1) →
        exec ev s = .next { s with mach := ((m1.modCmd n fun _ => y).sendAll ps).advancePart n })
      ∧ (x.q.ready = true → x.q.toSend = none → x.q.final = some fin → (finishStep c x fin).go m = (.ok st, m1) →
        exec ev s = .next { s with mach := (m1.tellArbiter n .pdone fin.1 .none).failCmd n st })
    (NextCommand s c 7 x → m.partNext c 7 = none →
      (fields → (readDom c (w 1) rank).go m = (.ok (some dom), m1) → (fabRead c (w 2) (8 * dom.p)).go m1 = (.ok (row, nr), m2) →
        (∀ v ∈ words row dom.p, v < 2 ^ 40) →
          begins (.dpost c) m2 { x with snres := dom.nres || nr }
            { p := dom.p, arb := dom.arb, stb := dom.stb, ctmo := dom.ctmo, qc := ctl / 2 ^ 22 % 2 ^ 4, xrep := false
              tgts := dom.tgts, cfg := [], rank, exid := ctl % 2 ^ 16, row := words row dom.p, rcap := w 5 } (fun q => q) .demand)
      ∧ (¬fields → Rejected s (.dpost c) c x 1))
    ∧ (NextCommand s c 8 x → m.partNext c 8 = none →
      (xrepOk x = true → (readDom c (w 4) rank).go m = (.ok (some dom), m1) →
        (fabRead c (w 5) 64).go m1 = (.ok (kb, nr), m2) → kb.length = 64 → k.ok x.rs = true → m2.noTag c = false →
        (overRecords c x (Scan.add k) (List.range x.nin) ({} : Scan)).go m2 = (.ok (sc, nr'), m3) →
          begins (.xrep c) m3 { x with snres := dom.nres || nr || nr', flags := mulFlags ||| sc.flags }
            { p := dom.p, arb := dom.arb, stb := dom.stb, ctmo := dom.ctmo, qc := ctl / 2 ^ 37 % 2 ^ 4, xrep := true
              tgts := dom.tgts, cfg, rank, exid := ctl / 2 ^ 21 % 2 ^ 16, row := sc.hist, rcap := x.rs * (x.rout + w 9) }
            (fun q => { q with buckets := sc.buckets, nan := sc.nan }) .hist)
      ∧ (xrepOk x = false → Rejected s (.xrep c) c x 1))
    ∧ ((m.core c).resident = true → (m.partNext c 7 = some x → goes (.dpost c)) ∧ (m.partNext c 8 = some x → goes (.xrep c)))

/-- R373, R375–R377, R380, R383–R385, R390: an exchange at its arbiter and its standby: posts are collected until the last,
which fixes the owners or the quotas; phases done are recorded, the last with FINAL to all, and once every result is pushed
the exchange is forgotten; a breach, a full arbiter, a timeout, an abort and silence close it or hand it over. Each of
demand, hist, pdone, abort, heart, exchState, mirror, collectTimeout, stateTimeout, heartbeatTimer and standbyTakeover
answers a next state with its effect.
When an exchange is forgotten (entry 71), what heartbeats belong to (entry 72), whom a standby waits for (entry 82)
and where CTMO runs (entry 83) are the model's readings. -/
def Sys2Proof.Claims.ExchangeArbiter : Prop :=
  ∀ (s : State) (p : Packet) (q : Posting) (e : Exch) (r : Nat) (die : DieId) (cmd ftag gang pkg next : Nat) (hist : Bool)
      (l : List Nat) (g' : List (List Nat)),
    let m := s.mach
    let key := q.exid + 2 ^ 16 * p.ftag + 2 ^ 48 * q.arb
    let ctmo := fun (q : Posting) => (if q.ctmo = 0 then 10000 else q.ctmo) * 1500
    let full := 64 ≤ (m.exchs.filter fun e => !e.standby).length
    let first := fun (ev : Instr) => NoExchange s key → q.arb = m.pkg.toNat →
      (¬full → q.rank < q.p → 2 ≤ q.p → ∃ t, exec ev s = .next t
        ∧ t.mach.exchs = m.exchs ++ [({ key, standby := false, acting := true, since := m.cycle, heard := m.cycle } : Exch).store p]
        ∧ (m.cycle + ctmo q, Instr.collectTimeout key) ∈ t.mach.timers ∧ IodAnswered s t p 0)
      ∧ (full → ∃ t, exec ev s = .next t ∧ t.mach.exchs = m.exchs ∧ Tells t .abort p.srcPkg (.status 10))
      ∧ (¬full → q.p ≤ q.rank → ∃ t, exec ev s = .next t ∧ t.mach.exchs = m.exchs ∧ Tells t .abort p.srcPkg (.status 9))
    let rows := (byRank (e.posts ++ [p])).map postOf
    let g := quotaMatrix (rows.map (·.row)) (rows.map (·.rcap))
    let owners := splitBuckets e.head.p ((byRank (e.hists ++ [p])).map fun o => (postOf o).row)
    let stood := fun (t : State) (e' : Exch) => t.mach.exchs = [e']
    let ours := m.exchs = [e] ∧ e.acting = true ∧ e.key = key
    let ph := p.aux % 2 ^ 48
    (Arrives s p → p.info = .post q →
      (p.typ = .demand → q.xrep = false → first (.demand p))
      ∧ (p.typ = .hist → q.xrep = true → first (.hist p))
      ∧ (p.typ = .demand → ours → e.st = .collecting → e.hists = [] → e.posts ≠ [] → e.breach p q = false →
          (e.posts.length + 1 < e.head.p → ∃ t, exec (.demand p) s = .next t ∧ stood t { e with posts := e.posts ++ [p] })
          ∧ (e.posts.length + 1 = e.head.p → ∃ t, exec (.demand p) s = .next t ∧ ∀ o ∈ e.posts ++ [p],
              let rk := (postOf o).rank
              let js := List.range e.head.p
              ∃ k, LeavesIod t.mach k ∧ k.typ = .grant ∧ k.tgt = o.srcPkg ∧ k.cmd = o.cmd
                ∧ k.info = .quotas (js.map fun j => entryAt g rk j) (js.map fun i => entryAt g i rk) (js.map fun j => roff g rk j)))
      ∧ (p.typ = .hist → ours → e.st = .collecting → e.posts = [] → e.hists ≠ [] → e.breach p q = false → e.head.xrep = true →
          (e.hists.length + 1 < e.head.p → ∃ t, exec (.hist p) s = .next t ∧ stood t { e with hists := e.hists ++ [p] })
          ∧ (e.hists.length + 1 = e.head.p → 0 < e.head.p → ∃ t, exec (.hist p) s = .next t ∧ stood t { e with hists := e.hists ++ [p] }
              ∧ ∀ o ∈ e.hists ++ [p], Tells t .split o.srcPkg (.split owners.1 owners.2)))
      ∧ (ours → e.breach p q = true ∨ e.st ≠ .collecting → ∀ ev ∈ [Instr.demand p, .hist p],
          ∃ t, exec ev s = .next t ∧ Closed s t e 9 ∧ Tells t .abort p.srcPkg (.status 9)))
    ∧ (Arrives s p → m.exchs = [e] → e.key = p.addr / 2 →
        (e.acting = true → e.rankOf p = some r →
          let n := ((e.phasesOf r).filter fun k => k ≤ ph).length
          let e' := { e with done := e.done.set r (max (e.done.getD r 0) n) }
          let last := e.quotas ≠ [] ∧ ph = e.phases
          let e'' := if last then { e' with pushed := r :: e.pushed } else e'
          (e.st = .issuing → e''.allPushed = false → e''.allDone = false →
            ∃ t f, exec (.pdone p) s = .next t ∧ stood t f ∧ f.done = e'.done ∧ f.key = e.key ∧ IodAnswered s t p 0)
          ∧ (e.st = .issuing → e''.allPushed = false → e''.allDone = true → ∃ t, exec (.pdone p) s = .next t
              ∧ stood t { e'' with st := .completing }
              ∧ ∀ o ∈ (e''.without e''.pushed).posters, Tells t .final o.srcPkg (.final e.phases e.failover e.nostby e''.keptAny))
          ∧ (e.st = .issuing ∨ e.st = .completing → e''.allPushed = true → ∃ t, exec (.pdone p) s = .next t ∧ t.mach.exchs = [])
          ∧ (e.st ≠ .issuing → (e.st = .completing → e''.allPushed = false) → ∃ t, exec (.pdone p) s = .next t ∧ stood t e''))
        ∧ (e.acting = true → p.addr % 2 = 0 → e.rankOf p = some r → ∃ t, exec (.abort p) s = .next t ∧ Closed s t e 13)
        ∧ (e.standby = true → e.acting = false → p.info = .nexts l →
            let heardOf := l.zipIdx.map fun n => ((e.phasesOf n.2).filter fun k => decide (k < n.1)).length
            let done' := if e.quotas = [] then e.done else heardOf
            ∃ t, exec (.heart p) s = .next t ∧ stood t { e with heard := m.cycle, done := done' } ∧ IodAnswered s t p 0)
        ∧ (e.standby = true → e.st = .failingOver → e.rankOf p = some r → p.info = .next next hist none →
            let e' := { e with
              answered := r :: e.answered
              done := if e.quotas = [] then e.done else e.done.set r ((e.phasesOf r).filter fun j => decide (j < next)).length
              pushed := if next = pushedPhase then r :: e.pushed else e.pushed }
            ((∃ o ∈ e.posters, (postOf o).rank ∉ e'.answered) → ∃ t, exec (.exchState p) s = .next t ∧ stood t e')
            ∧ ((∀ o ∈ e.posters, (postOf o).rank ∈ e'.answered) → e.quotas = [] → e.since + ctmo e.head ≤ m.cycle →
                ∃ t, exec (.exchState p) s = .next t ∧ Closed s t e' 7)
            ∧ ((∀ o ∈ e.posters, (postOf o).rank ∈ e'.answered) → e.quotas ≠ [] → ∃ t, exec (.exchState p) s = .next t
                ∧ ∀ o ∈ e.posters, ∃ k, LeavesIod t.mach k ∧ k.typ = .grant ∧ k.tgt = o.srcPkg ∧ k.cmd = o.cmd))
        ∧ (e.standby = true →
            (p.info = .mirrorPost q false pkg die cmd ftag gang → ∃ t, exec (.mirror p) s = .next t
              ∧ stood t { e with posts := e.posts ++
                  [{ p with typ := .demand, srcPkg := pkg, srcDie := die, cmd, ftag, gang, info := .post q }] })
            ∧ (p.info = .quotaMatrix g' → ∃ t, exec (.mirror p) s = .next t ∧ stood t (e.withQuotas g'))
            ∧ (p.info = .window next → ∃ t, exec (.mirror p) s = .next t ∧ stood t { e with planned := max e.planned next })
            ∧ (p.info = .status next → e.acting = false → ∃ t, exec (.mirror p) s = .next t ∧ t.mach.exchs = [])))
    ∧ (Arrives s p → NoExchange s (p.addr / 2) → p.info = .mirrorPost q false pkg die cmd ftag gang →
        let held := (m.exchs.filter fun e => e.standby && m.sameArbiter e.key (p.addr / 2)).length
        (held < 64 → ∃ t, exec (.mirror p) s = .next t
          ∧ (let post := { p with typ := .demand, srcPkg := pkg, srcDie := die, cmd, ftag, gang, info := .post q }
             t.mach.exchs = m.exchs ++ [{ key := p.addr / 2, standby := true, acting := false, since := m.cycle, heard := m.cycle, posts := [post] }])
          ∧ (m.cycle + ctmo q, Instr.collectTimeout (p.addr / 2)) ∈ t.mach.timers ∧ IodAnswered s t p 0)
        ∧ (64 ≤ held → ∃ t, exec (.mirror p) s = .next t ∧ t.mach.exchs = m.exchs ∧ IodAnswered s t p 0))
    ∧ (p.srcPkg = m.pkg.toNat → p.tgt % 2 ^ 16 ≠ m.pkg.toNat → exec (.abort p) s = .next { s with mach := m.send p })
    ∧ (m.exchs = [e] → e.acting = true → e.st = .collecting →
        (e.since + ctmo e.head ≤ m.cycle → ∃ t, exec (.collectTimeout e.key) s = .next t ∧ Closed s t e 7)
        ∧ (m.cycle < e.since + ctmo e.head → exec (.collectTimeout e.key) s = .next s))
    ∧ (m.exchs = [e] → e.standby = true → e.st = .failingOver → ∃ t, exec (.stateTimeout e.key) s = .next t ∧ Closed s t e 7)
    ∧ (NoExchange s next → exec (.collectTimeout next) s = .next s ∧ exec (.stateTimeout next) s = .next s)
    ∧ (m.exchs = [e] → e.acting = true → e.standby = false → e.nostby = false →
        (m.heartsOut e < 3 → ∃ t, exec .heartbeatTimer s = .next t ∧ stood t { e with missed := m.heartsOut e }
          ∧ Tells t .heart e.head.stb (.nexts ((List.range e.head.p).map fun r => e.nextOf r)))
        ∧ (3 ≤ m.heartsOut e → ∃ t, exec .heartbeatTimer s = .next t ∧ stood t { e with missed := m.heartsOut e, nostby := true }))
    ∧ ((∀ e ∈ m.exchs, e.acting = false ∨ e.standby = true ∨ e.nostby = true) → exec .heartbeatTimer s = .next s)
    ∧ (m.exchs = [e] → e.standby = true → e.acting = false →
        (e.heard + 45000 ≤ m.cycle → ∃ t, exec .standbyTakeover s = .next t
          ∧ stood t { e with acting := true, st := .failingOver, failover := true, answered := [] }
          ∧ (m.cycle + 15000000, Instr.stateTimeout e.key) ∈ t.mach.timers
          ∧ (e.posters ≠ [] → ∀ k tg, (tg, k) ∈ e.head.tgts.zipIdx →
              Tells t .takeover (match e.poster k with | some o => o.srcPkg | none => tgtPkg tg) .none))
        ∧ (m.cycle < e.heard + 45000 → exec .standbyTakeover s = .next s))

/-- R375, R377–R380, R384, R385, R390–R392: an exchange at a participant: the row and column of G, grants, FINAL, SPLIT,
TAKEOVER and ABORT, the arbiter's silence, and the data of a phase, which is written as it comes; its end marker is
answered once every byte has, and a phase that is done is reported. Each of grant, final, split, takeover, abort,
arbiterSilenceTimeout, xdat, xmark and xack answers a next state with its effect.
ADDR of an XDAT packet is the model's choice (entry 69), and an XMARK that overtakes its data waits by its reading
(entry 85). -/
def Sys2Proof.Claims.ExchangeParticipant : Prop :=
  ∀ (s : State) (p : Packet) (i : Inst) (x : Cmd) (q : Part) (row col offs first : List Nat) (gs : List Grant)
      (wt st n r k ctx : Nat) (fin : Nat × Bool × Bool × Bool) (took : Took) (m' : Mach),
    let m := s.mach
    let same := fun (t : State) => t.mach.mem = m.mem
    let gets := fun (ev : Instr) (q' : Part) => ∃ t, exec ev s = .next t ∧ PartIs t p.cmd x q' ∧ t.mach.mem = m.mem
    let heard := { q with heard := m.cycle }
    let ph := p.aux % 2 ^ 48
    let forData := Arrives s p ∧ Accepted s p ctx ∧ m.dataFor p = some (n, x, q, r) ∧ InProgress s n i x ∧ x.part = some q
    let here := if q.got.any fun e => e.1 == ph && e.2.1 == r then m else m.arrival p.gang (ctxDie ctx)
    let put := (x.spans p.addr p.data.length).foldl (fun (acc : Took × Mach) z => match acc.1 with
      | .ok => acc.2.localPut (n / 2 ^ 32) z.1 ((p.data.drop z.2.1).take z.2.2) | _ => acc) (Took.ok, here)
    let acknowledged := fun (t : State) => p.srcPkg ≠ m.pkg.toNat → Answered s t p .ack 0 []
    let waits := q.grants = [] ∧ q.final = none
    (Participant s p i x q →
      (p.info = .quotas row col offs → gets (.grant p) (if q.gotG then heard else { heard with row, col, offs, gotG := true }))
      ∧ (p.info = .grants gs → PartGets s (.grant p) p.cmd x { heard with
          grants := q.grants ++ gs.filter fun g => decide (q.next ≤ g.phase) && !q.grants.any fun h => h.phase == g.phase && h.send == g.send } same)
      ∧ (p.info = .final fin.1 fin.2.1 fin.2.2.1 fin.2.2.2 → gets (.final p) { heard with final := some fin })
      ∧ (p.info = .split first wt →
          (q.first = [] →
            let row := (List.range q.posting.p).map fun j => x.rs * (({ q with first } : Part).boundFor j).length
            ∃ t, exec (.split p) s = .next t
              ∧ PartIs t p.cmd x { heard with first, w := wt, posting := { q.posting with row } }
              ∧ Tells t .demand (arbiterOf q) (.post { q.posting with row }))
          ∧ (q.first ≠ [] → gets (.split p) heard))
      ∧ (q.posting.stb = p.srcPkg → ∃ t, exec (.takeover p) s = .next t
          ∧ PartIs t p.cmd x { heard with fromStandby := true }
          ∧ Tells t .exchState q.posting.stb
              (.next (q.phase.getD q.next) (q.posting.xrep && q.first.isEmpty) (if q.grants.isEmpty then some q.posting else none)))
      ∧ (q.posting.stb ≠ p.srcPkg → gets (.takeover p) q)
      ∧ (p.addr % 2 = 1 → p.info = .status st → ∃ t, exec (.abort p) s = .next t
          ∧ CommandEnded t p.cmd i { x with status := st } ∧ t.mach.mem = m.mem))
    ∧ (Arrives s p → m.partFor p = none → ∃ t, exec (.takeover p) s = .next t
        ∧ Tells t .exchState p.srcPkg (.next pushedPhase false none))
    ∧ (InProgress s n i x → x.part = some q →
        (waits → q.heard + q.silence ≤ m.cycle →
          ∃ t, exec (.arbiterSilenceTimeout n) s = .next t ∧ CommandEnded t n i { x with status := 7 } ∧ t.mach.mem = m.mem)
        ∧ (¬waits ∨ m.cycle < q.heard + q.silence → ∃ k, exec (.arbiterSilenceTimeout n) s =
            .next { s with mach := { m with timers := m.timers ++ [(m.cycle + k, .arbiterSilenceTimeout n)] } }))
    ∧ (forData → ph < q.next → ∃ t, exec (.xdat p) s = .next t ∧ PartIs t n x q ∧ acknowledged t)
    ∧ (forData → q.next ≤ ph → q.posting.xrep = false →
        let a := (x.word 4 + p.addr) % 2 ^ 64
        isCanon a = true → InLine here i.id.ctx.val a p.data.length .write k →
          PartGets s (.xdat p) n x (q.addGot ph r p.data.length) fun t => acknowledged t
            ∧ ∀ b, cellGet t.mach.mem b = if k ≤ b ∧ b < k + p.data.length then p.data.getD (b - k) 0 else cellGet m.mem b)
    ∧ (forData → q.next ≤ ph → put = (took, m') → m'.cmd? n = some x →
        (took = .ok → m'.cycle = m.cycle →
          PartGets s (.xdat p) n x (q.addGot ph r p.data.length) fun t => acknowledged t ∧ t.mach.mem = m'.mem)
        ∧ (took = .hold → exec (.xdat p) s = .next { s with mach := { m' with heldDel := m'.heldDel ++ [(p, true)] } })
        ∧ (took = .fail st → m'.instOf (n / 2 ^ 32) = some i →
            ∃ t, exec (.xdat p) s = .next t ∧ CommandEnded t n i { x with status := 6 }))
    ∧ (forData → p.info = .status k →
        (ph < q.next → ∃ t, exec (.xmark p) s = .next t ∧ PartIs t n x q ∧ Answered s t p .xack 0 [])
        ∧ (q.next ≤ ph → q.gotOf ph r < k →
            exec (.xmark p) s = .next { s with mach := { m with heldDel := m.heldDel ++ [(p, true)] } })
        ∧ (q.next ≤ ph → k ≤ q.gotOf ph r →
            PartGets s (.xmark p) n x { q with marks := q.marks ++ [(ph, r, k)] } fun t => Answered s t p .xack 0 [] ∧ same t))
    ∧ (Arrives s p → InProgress s p.cmd i x → x.part = some q →
        PartGets s (.xack p) p.cmd x (if q.sent = some ph then { q with acked := some ph } else q) same)


namespace Sys2Proof.Claims

/-- The debug block of a function names a context that the function owns, and no other function has a command on it
(R251, R407). -/
def MayDebug (s : State) (f : FnId) : Prop :=
  let ctx := (s.mach.fn f).dbgCtx
  (∀ g, g ≠ f → (s.mach.fn g).suspendOf ≠ some ctx ∧ ¬((s.mach.fn g).dbgBusy = true ∧ (s.mach.fn g).dbgCtx = ctx))
  ∧ (f = 0 ∨ (s.mach.ctx ctx.val).owner = f)

/-- The debug block of a function may debug, and names the instance i: resident on the core that `on` gives, or saved. -/
def Debugs (s : State) (f : FnId) (on : Option CoreId) (i : Inst) : Prop :=
  MayDebug s f ∧ s.mach.dbgInst f = some i ∧ s.mach.coreOf i.id.uid = on
  ∧ match on with
    | some c => s.mach.inst c = i
    | none => ∀ g ∈ s.mach.images, g.inst.id.uid = i.id.uid → g.inst = i

/-- The module with the instance i, on its core or saved, replaced. -/
def replaced (m : Mach) (on : Option CoreId) (i k : Inst) : Mach :=
  match on with
  | some c => m.setInst c k
  | none => { m with images := m.images.map fun g => if g.inst.id.uid = i.id.uid then { g with inst := k } else g }

/-- The function's debug command has ended with a status. -/
def debugEnded (m : Mach) (f : FnId) (st : BitVec 7) : Mach := m.setFn f { m.fn f with dbgBusy := false, dbgStatus := st }

/-- The debug command goes on. -/
def debugPending (m : Mach) (f : FnId) : Mach := m.setFn f { m.fn f with dbgBusy := true }

/-- The instance with its debug state changed. -/
def withDbg (i : Inst) (d : Dbg) : Inst := { i with dbg := d }

end Sys2Proof.Claims

/-- R408–R412: STOP, GO, STEP and SETTLE, on an instance that is resident or saved, a stop that lands, the end of a step,
and the reads and writes of state elements: a running instance answers NOTSTOPPED, and the accumulators of an unfinished
commit ACCBUSY. Each of stop, go, step, settle, rdstate, wrstate, stopLanded and stepEnd answers a next state with its
effect.
That a running instance answers NOTSTOPPED (entry 92) and what corner elements do (entry 99) are the model's readings. -/
def Sys2Proof.Claims.DebugCommands : Prop :=
  ∀ (s : State) (f : FnId) (on : Option CoreId) (c : CoreId) (i j : Inst) (v : Nat),
    let m := s.mach
    let r := m.fn f
    let arg := r.dbgArg.toNat
    let el := arg % 256
    let ix := arg / 256
    let eng := match arg with | 0 => Eng.S | 1 => .V | 2 => .M | _ => .X
    let ends := fun (ev : Instr) (k : Inst) => exec ev s = .next { s with mach := debugEnded (replaced m on i k) f 0 }
    let pends := fun (ev : Instr) (k : Inst) => exec ev s = .next { s with mach := debugPending (replaced m on i k) f }
    let fails := fun (ev : Instr) (st : BitVec 7) => exec ev s = .next { s with mach := debugEnded m f st }
    let halted := { i.dbg with stopReq := false, stopped := true, stepping := none, ran := false }
    let still := on = none ∨ i.dbg.stopped = true
    (Debugs s f on i → arg = 0 →
      (on = none → ends (.stop f) (withDbg i { i.dbg with stopped := true, stepping := none, ran := false }))
      ∧ (on ≠ none → i.dbg.stopped = false →
          pends (.stop f) { i with dbg := { i.dbg with stopReq := true }, s := { i.s with looped := false } })
      ∧ (on = some c → i.dbg.stopped = true → ∃ t, exec (.stop f) s = .next t ∧ t.mach.inst c = withDbg (roused i) halted
          ∧ (Unlogged s c → t.mach.mem = m.mem) ∧ (t.mach.fn f).dbgBusy = false ∧ (t.mach.fn f).dbgStatus = 0)
      ∧ (i.dbg.stopped = true →
        ends (.go f) (withDbg i { i.dbg with stopped := false, stepping := none, ran := false, settling := false })
        ∧ (i.m.active = none → i.m.pending = none → fails (.settle f) 0)
        ∧ (i.m.active ≠ none ∨ i.m.pending ≠ none → pends (.settle f) (withDbg i { i.dbg with settling := true })))
      ∧ (i.dbg.stopped = false → fails (.go f) 10 ∧ fails (.settle f) 10))
    ∧ (Debugs s f on i → arg ≠ 0 → fails (.stop f) 7 ∧ fails (.go f) 7 ∧ fails (.settle f) 7)
    ∧ (Debugs s f on i →
      (i.dbg.stopped = true → arg < 4 → pends (.step f)
        { i with dbg := { i.dbg with stepping := some eng, ran := false }, s := { i.s with looped := false } })
      ∧ (4 ≤ arg → fails (.step f) 7)
      ∧ (i.dbg.stopped = false → arg < 4 → fails (.step f) 10)
      ∧ (¬still → fails (.rdstate f) 10 ∧ fails (.wrstate f) 10)
      ∧ (still → elementOk i el ix = false → fails (.rdstate f) 7 ∧ fails (.wrstate f) 7)
      ∧ (still → elementOk i el ix = true → el = 6 → i.m.active ≠ none ∨ i.m.pending ≠ none →
          fails (.rdstate f) 9 ∧ fails (.wrstate f) 9)
      ∧ (still → elementOk i el ix = true → (el = 6 → i.m.active = none ∧ i.m.pending = none) →
        (m.readElement i el ix = some v →
          exec (.rdstate f) s = .next { s with mach := m.setFn f { r with dbgData := BitVec.ofNat 64 v, dbgBusy := false, dbgStatus := 0 } })
        ∧ (m.readElement i el ix = none → fails (.rdstate f) 7)
        ∧ (el = 0 → m.readElement i el ix = some (i.s.regs.get (Fin.ofNat 32 ix)).toNat)
        ∧ (el = 1 → on = some c → m.readElement i el ix = (m.csrRead c ix).map (·.toNat))
        ∧ (el = 2 → m.readElement i el ix = some (i.v.views.get (Fin.ofNat 16 ix)).toNat)
        ∧ (el = 6 → m.readElement i el ix = some (cellGet i.m.acc ix).toNat)
        ∧ (el = 7 → m.readElement i el ix = some (loaded i.pad.bytes ix 8 false).toNat)
        ∧ (el = 8 → m.readElement i el ix = some (i.stream (match ix with | 0 => Eng.S | 1 => .V | 2 => .M | _ => .X)).pc.toNat)
        ∧ (i.writeElement el ix r.dbgData.toNat = some j → ends (.wrstate f) j)
        ∧ (i.writeElement el ix r.dbgData.toNat = none → fails (.wrstate f) 7)
        ∧ (el = 0 → 0 < ix → i.writeElement el ix v = some { i with s := { i.s with regs := vset i.s.regs (Fin.ofNat 32 ix) (BitVec.ofNat 64 v) } })
        ∧ (el = 0 → ix = 0 → i.writeElement el ix v = some i)
        ∧ (el = 2 → i.writeElement el ix 0 = none)
        ∧ (el = 8 → v % 4 ≠ 0 → i.writeElement el ix v = none)))
    ∧ (MayDebug s f → m.dbgInst f = none →
        ∀ ev ∈ [Instr.stop f, .go f, .step f, .settle f, .rdstate f, .wrstate f, .watch f, .wsnap f], fails ev 2)
    ∧ ((m.core c).resident = true → m.inst c = i → m.coreOf i.id.uid = some c →
        (i.dbg.stopReq = true → ∃ t, exec (.stopLanded c) s = .next t ∧ t.mach.inst c = withDbg (roused i) halted
          ∧ (Unlogged s c → t.mach.mem = m.mem)
          ∧ (r.dbgBusy = true → m.dbgInst f = some i → (t.mach.fn f).dbgBusy = false ∧ (t.mach.fn f).dbgStatus = 0))
        ∧ (i.dbg.stopReq = false → exec (.stopLanded c) s = .next s)
        ∧ (i.dbg.stepping ≠ none → ∃ t, exec (.stepEnd c) s = .next t ∧ t.mach.mem = m.mem
          ∧ t.mach.inst c = withDbg i { i.dbg with stepping := none, ran := false, stopped := true }
          ∧ (r.dbgBusy = true → m.dbgInst f = some i → (t.mach.fn f).dbgBusy = false ∧ (t.mach.fn f).dbgStatus = 0))
        ∧ (i.dbg.stepping = none → exec (.stepEnd c) s = .next s))
    ∧ ((m.core c).resident = false → exec (.stopLanded c) s = .next s ∧ exec (.stepEnd c) s = .next s)

/-- R414–R418, R424: WATCH, TRCCFG, WLCFG, WSNAP and ATTACH, and the attestation commands. The bytes of the signature and
of the certificate are free values: nothing is said of them. Each of watch, trccfg, wlcfg, wsnap, attach, attest and
getcert answers a next state with its effect.
That the ring's fields are checked when it is enabled is the model's reading (entry 97), and WSNAP's instance another
(entry 98). -/
def Sys2Proof.Claims.DebugSettings : Prop :=
  ∀ (s : State) (f : FnId) (on : Option CoreId) (c : CoreId) (i : Inst),
    let m := s.mach
    let r := m.fn f
    let n := r.dbgCtx.val
    let x := m.ctx n
    let arg := r.dbgArg.toNat
    let d := r.dbgData.toNat
    let size := d % 2 ^ 16
    let lit := d.testBit 16
    let ring : Ring := { base := arg, size, on := lit, threshold := d / 2 ^ 20 % 2 ^ 28, byPf := f == 0 }
    let ringOk := d / 2 ^ 17 % 8 = 0
      ∧ (lit = true → size ≠ 0 ∧ arg % 4096 = 0 ∧ isHbm arg (4096 * size) = true ∧ m.inWindow f true arg (4096 * size) = true)
    let sets := fun (ev : Instr) (y : Ctx) => exec ev s = .next { s with mach := debugEnded (m.setCtx n y) f 0 }
    let fails := fun (ev : Instr) (st : BitVec 7) => exec ev s = .next { s with mach := debugEnded m f st }
    let watchOk := d < 2 ^ 10 ∧ 3 ≤ d % 64 ∧ d % 64 ≤ 40 ∧ isCanon arg = true ∧ arg % 2 ^ (d % 64) = 0
    let buf := r.attArg.toNat
    let key := m.fnKey f buf
    let kept := fun (t : State) => ∀ a, ¬(key ≤ a ∧ a < key + 1024) → cellGet t.mach.mem a = cellGet m.mem a
    let at' := fun (t : State) (o k : Nat) => leNat (cellsRead t.mach.mem (key + o) k)
    (Debugs s f on i →
      (watchOk →
        let w : Watch := { base := arg, k := d % 64, reads := d.testBit 6, writes := d.testBit 7, on := d.testBit 9 }
        let j := withDbg i { i.dbg with watches := vset i.dbg.watches (if d.testBit 8 then 1 else 0) w }
        exec (.watch f) s = .next { s with mach := debugEnded (replaced m on i j) f 0 })
      ∧ (¬watchOk → fails (.watch f) 7)
      ∧ (arg ≠ 0 → fails (.wsnap f) 7)
      ∧ (arg = 0 → (∃ t, exec (.wsnap f) s = .next t ∧ (t.mach.fn f).dbgBusy = false ∧ (t.mach.fn f).dbgStatus = 0
            ∧ t.mach.cores = m.cores ∧ (x.wl.on = false → t.mach.mem = m.mem))
          ∧ (m.residentOf n = [c] → m.inst c = i → i.id.ctx.val = n →
              i.v.st.wait = none → i.m.st.wait = none → i.x.st.wait = none →
              (i.s.st.wait = none → fails (.wsnap f) 0)
              ∧ ∀ src since word, i.s.st.wait = some ⟨.token src, since, word⟩ →
                  let rec' := waitRecord m c .S ⟨.token src, since, word⟩ 4 (1 + engCode src * 16 + c.val * 256)
                  exec (.wsnap f) s = .next { s with mach := debugEnded (m.ringAppend x.wl rec') f 0 })))
    ∧ (MayDebug s f → x.st ≠ .free → x.st ≠ .dead →
        (d < 2 ^ 17 → ringOk → sets (.trccfg f) { x with trc := ring })
        ∧ (d < 2 ^ 17 → ¬ringOk → fails (.trccfg f) 7) ∧ (2 ^ 17 ≤ d → fails (.trccfg f) 7)
        ∧ (d < 2 ^ 48 → ringOk → sets (.wlcfg f) { x with wl := ring })
        ∧ (d < 2 ^ 48 → ¬ringOk → fails (.wlcfg f) 7) ∧ (2 ^ 48 ≤ d → fails (.wlcfg f) 7)
        ∧ (arg < 2 → sets (.attach f) { x with attached := arg == 1 })
        ∧ (2 ≤ arg → fails (.attach f) 7))
    ∧ (MayDebug s f → x.st = .free ∨ x.st = .dead → ∀ ev ∈ [Instr.trccfg f, .wlcfg f, .attach f], fails ev 2)
    ∧ (buf % 64 = 0 → m.inWindow f r.winSpace buf 1024 = true →
        (s.pwr.meas.length = 3 → ∃ t, exec (.attest f) s = .next t ∧ (t.mach.fn f).attStatus = 0 ∧ kept t
          ∧ at' t 0 4 = 0x54415442 ∧ at' t 4 4 = f.val ∧ cellsRead t.mach.mem (key + 64) 64 = cellsRead m.mem key 64
          ∧ (∀ k, k < 3 → at' t (128 + 64 * k) 64 = (s.pwr.meas.getD k 0).toNat) ∧ at' t 328 8 = s.pwr.insvc.toNat
          ∧ t.mach.cores = m.cores)
        ∧ ∃ t, exec (.getcert f) s = .next t ∧ (t.mach.fn f).attStatus = 0 ∧ kept t ∧ t.mach.cores = m.cores)
    ∧ (buf % 64 ≠ 0 ∨ m.inWindow f r.winSpace buf 1024 = false → ∀ ev ∈ [Instr.attest f, .getcert f],
        exec ev s = .next { s with mach := m.setFn f { r with attStatus := 7 } })

/-- R396, R398–R402, R404: the memory stacks: a layer's reading sets its refresh code, a refresh schedules the next, a
request is served, waits behind a hot row's spacing or a bank's block, or is held while the pseudo-channel leaves
self-refresh; an activation counts, the 2,048th makes its row hot; the first pair of refresh-management commands is
followed by the second; the window's end clears the counts; and a scrub counts a corrected line and poisons an
uncorrectable one. Each of layerSensorRead, refresh, dramRequest, selfRefreshEntry, selfRefreshExit, hotRowWindowEnd and
patrolScrub answers a next state with its effect.
What counts as an activation is the model's reading (entry 91), the time to leave self-refresh a constant without
a value (entry 108), and a bank's times are constants without values too (entry 130). -/
def Obligations.MemoryStacks : Prop :=
  ∀ (s : State) (h : Fin 12) (layer : Fin 16) (pc : Fin 384) (t line bank row : Nat) (who : Requester) (write : Bool) (e : HotRow)
      (ecc : EccResult),
    let m := s.mach
    let runs := s.pwr.st = .active ∨ s.pwr.st = .halted
    let x := m.hbm.get h
    let sets := fun (y : Stack) => { m with hbm := vset m.hbm h y }
    let code : Fin 4 := if t ≤ 85 then 0 else if t ≤ 95 then 1 else if t ≤ 105 then 2 else 3
    let read := { x with temps := vset x.temps layer t, codes := vset x.codes layer code }
    let c := x.chan pc.val
    let layerOfPc : Fin 16 := Fin.ofNat 16 (pc.val / 24)
    let putChan := fun (y : Stack) (c : Chan) => { y with chans := aset y.chans pc.val c }
    let chanIs := fun (ev : Instr) (c : Chan) => exec ev s = .next { s with mach := sets (putChan x c) }
    let idleAgain := fun (y : Stack) => { sets (putChan y { c with timer := m.cycle }) with
      timers := m.timers ++ [(m.cycle + 4916, .selfRefreshEntry h pc)] }
    let req : DramReq := { line, bank, row, write, who, ecc }
    let all := pc.val + 384 * bank
    let request := Instr.dramRequest h line bank row write who ecc
    let count := fun (w : W16) => if w = 65535 then w else w + 1
    let l := h.val * 2 ^ 30 + line % 2 ^ 30
    let waits := (∃ b ∈ x.blocks, b.bank = all ∧ m.cycle < b.upto)
      ∨ (∃ q ∈ x.throttled, q.bank = all ∧ q.row = row ∧ m.cycle < q.last + 16 * Config.rowCycles)
      ∨ ∃ q ∈ x.held, q.bankOf = all ∧ q.row = row
    let cool := ∀ q ∈ x.throttled, ¬(q.bank = all ∧ q.row = row)
    let counted := x.rows.map (fun r => if r = e then { e with count := e.count + 1 } else r)
    let checked := fun (y : Stack) (u : State) =>
      y.cecnt = (if write = false ∧ ecc = .corrected then count x.cecnt else x.cecnt)
      ∧ (write = true ∨ ecc ≠ .uncorrectable → u.mach.poison = m.poison ∧ y.ue = x.ue ∧ y.ueaddr = x.ueaddr)
      ∧ (write = false → ecc = .uncorrectable → l ∈ u.mach.poison ∧ y.ue = true
          ∧ y.ueaddr = if x.ue then x.ueaddr else BitVec.ofNat 34 l)
    (s.pwr.st ≠ .off → t ≤ 105 → exec (.layerSensorRead h layer t) s = .next { s with mach := sets read })
    ∧ (s.pwr.st = .active → 105 < t → ∃ u, exec (.layerSensorRead h layer t) s = .next u ∧ u.pwr.st = .halted ∧ u.pwr.haltTh = true
        ∧ u.mach.hbm.get h = read)
    ∧ (s.pwr.st = .halted → 105 < t → exec (.layerSensorRead h layer t) s = .next
        { pwr := { s.pwr with haltTh := true }, mach := sets read })
    ∧ (s.pwr.st = .booting ∨ s.pwr.st = .locked → exec (.layerSensorRead h layer t) s = .next { s with mach := sets read })
    ∧ (s.pwr.st = .off → exec (.layerSensorRead h layer t) s = .next s ∧ exec (.refresh h pc) s = .next s
        ∧ exec (.hotRowWindowEnd h) s = .next s)
    ∧ (s.pwr.st ≠ .off →
        let y := { x with refreshes := aset x.refreshes pc.val (x.codes.get layerOfPc).val }
        (c.st ≠ .active → exec (.refresh h pc) s = .next { s with mach := sets y })
        ∧ (c.st = .active → exec (.refresh h pc) s = .next { s with mach := idleAgain y }))
    ∧ (¬runs → exec request s = .next s)
    ∧ (runs → line % 384 = pc.val →
        (c.st = .active → waits → exec request s = .next { s with mach := idleAgain { x with held := x.held ++ [req] } })
        ∧ (c.st = .active → ¬waits → ∃ u, exec request s = .next u
            ∧ u.mach.mem = m.mem ∧ (m.cycle + 4916, Instr.selfRefreshEntry h pc) ∈ u.mach.timers
            ∧ (let y := u.mach.hbm.get h
               y.chan pc.val = { c with timer := m.cycle } ∧ y.held = x.held ∧ checked y u
               ∧ ((∀ r ∈ x.rows, r.bank ≠ all ∨ r.row ≠ row) → (x.rows.filter fun r => r.bank == all).length < 32 →
                    y.rows = x.rows ++ [{ bank := all, row, count := 1 }] ∧ y.blocks = x.blocks)
               ∧ (e ∈ x.rows → e.bank = all → e.row = row → (∀ r ∈ x.rows, r.bank = all ∧ r.row = row → r = e) →
                    y.rows = counted
                    ∧ (e.count + 1 ≠ 2048 → y.blocks = x.blocks ∧ y.hotev = x.hotev
                        ∧ (cool → y.throttled = x.throttled ∧ u.mach.ctxs = m.ctxs)
                        ∧ ∀ q ∈ x.throttled, q.bank = all → q.row = row → { q with last := m.cycle } ∈ y.throttled)
                    ∧ (e.count + 1 = 2048 → y.hotev = (if x.hotev = 255 then x.hotev else x.hotev + 1)
                        ∧ { bank := all, row, windows := 2, last := m.cycle } ∈ y.throttled
                        ∧ { bank := all, upto := m.cycle + Config.rfmCycles, second := false } ∈ y.blocks))))
        ∧ (c.st = .selfRefresh → exec request s = .next { s with mach :=
            { sets (putChan x { c with st := .exiting, held := [req] }) with
              timers := m.timers ++ [(m.cycle + Config.exitCycles, .selfRefreshExit h pc)] } })
        ∧ (c.st = .exiting → chanIs request { c with held := c.held ++ [req] }))
    ∧ (let pair := fun (b : Bool) (n : Nat) => ({ bank := all, upto := n, second := b } : BankBlock)
       x.held = [] → x.blocks = [pair false m.cycle] →
        ((m.bankTick h).hbm.get h).blocks = [pair true (m.cycle + Config.rfmCycles)])
    ∧ (x.held.any (fun r => r.line % 384 == pc.val) = true → exec (.selfRefreshEntry h pc) s = .next { s with mach := idleAgain x })
    ∧ (x.held.any (fun r => r.line % 384 == pc.val) = false →
        (c.st = .active → 6 * 4096 ≤ 5 * (m.cycle - c.timer) →
          chanIs (.selfRefreshEntry h pc) { c with st := .selfRefresh, rate := x.codes.get layerOfPc })
        ∧ (c.st ≠ .active ∨ 5 * (m.cycle - c.timer) < 6 * 4096 → exec (.selfRefreshEntry h pc) s = .next s))
    ∧ (c.st = .exiting → ∃ u, exec (.selfRefreshExit h pc) s = .next u
        ∧ (u.mach.hbm.get h).chan pc.val = { c with st := .active, held := [], rate := x.codes.get layerOfPc, timer := m.cycle }
        ∧ (line % 384 = pc.val → c.held = [req] → waits → (u.mach.hbm.get h).held = x.held ++ [req]))
    ∧ (c.st ≠ .exiting → exec (.selfRefreshExit h pc) s = .next s)
    ∧ (s.pwr.st ≠ .off → exec (.hotRowWindowEnd h) s = .next { s with mach := sets { x with
        rows := x.rows.map fun r => { r with count := 0 }
        throttled := (x.throttled.filter fun q => 1 < q.windows).map fun q => { q with windows := q.windows - 1 } } })
    ∧ (runs →
        exec (.patrolScrub h line .clean) s = .next s
        ∧ exec (.patrolScrub h line .corrected) s = .next { s with mach := sets { x with cecnt := count x.cecnt } }
        ∧ (l ∉ m.poison → exec (.patrolScrub h line .uncorrectable) s = .next { s with mach :=
            { sets (if x.ue then x else { x with ue := true, ueaddr := BitVec.ofNat 34 l }) with poison := m.poison ++ [l] } }))
    ∧ (¬runs → exec (.patrolScrub h line ecc) s = .next s)

/-- R5, R9, R23, R250, R269, R307, R359, R410, R419–R422: the health of the cores, and writes of registers: a field's
range, the level an access needs, and the command registers, which run their command, but not while one is in progress.
Each of hlthRetire, parityReplay, lupinSample, lupinPlan and registerWrite answers a next state with its effect.
In which states registers answer is the model's reading (entry 89). -/
def Obligations.HealthAndRegisters : Prop :=
  ∀ (s : State) (c : CoreId) (f : FnId) (n slack : Nat) (v : W64) (lvl : Sys2Proof.Level) (q : QId) (ok savePath : Bool),
    let m := s.mach
    let runs := s.pwr.st = .active ∨ s.pwr.st = .halted
    let x := m.health.get c
    let health := fun (y : Health) => { m with health := vset m.health c y }
    let retired := { s.pwr with insvc := s.pwr.insvc &&& ~~~(1#48 <<< c.val) }
    let leaves := fun (m : Mach) =>
      ({ pwr := retired, mach := if (m.core c).resident then { m with agenda := m.agenda ++ [.preemptionRequest c] } else m } : State)
    let l := match x.least with | some l => l | none => 0
    let y := { x with slack := BitVec.ofNat 8 (min 255 l), least := none }
    let k := m.queue f q.val
    let answers := s.pwr.st ≠ .off ∧ s.pwr.st ≠ .locked
    let write := fun (off : Nat) (lvl : Sys2Proof.Level) => exec (.registerWrite f lvl off v) s
    let fn := fun (r : FnRegs) => (.next { s with mach := m.setFn f r } : Host.Outcome State Fault Refusal)
    let r := m.fn f
    let ctx : CtxId := Fin.ofNat 1024 (v.toNat / 2 ^ 8)
    (runs →
      exec (.hlthRetire c) s = .next (leaves m)
      ∧ (savePath = false ∨ (m.core c).resident = false →
          exec (.parityReplay c false savePath) s = .next (leaves (health { x with lasting := true })))
      ∧ (∃ t, exec (.parityReplay c false savePath) s = .next t ∧ t.pwr = retired ∧ t.mach.health.get c = { x with lasting := true })
      ∧ exec (.parityReplay c true savePath) s = .next { s with mach := health { x with trans := if x.trans = 65535 then x.trans else x.trans + 1 } }
      ∧ exec (.lupinSample c slack) s = .next { s with mach := health { x with
          least := some (match x.least with | some l => min l slack | none => slack) } }
      ∧ (x.least ≠ none →
        (l < 12 → x.voff ≠ 30 → exec (.lupinPlan c) s = .next { s with mach := health { y with voff := x.voff + 1, above := 0 } })
        ∧ (l < 12 → x.voff = 30 → exec (.lupinPlan c) s = .next (leaves (health { y with aged := true })))
        ∧ (30 < l → x.above < 15 → exec (.lupinPlan c) s = .next { s with mach := health { y with above := x.above + 1 } })
        ∧ (30 < l → 15 ≤ x.above → exec (.lupinPlan c) s = .next { s with mach := health { y with voff := x.voff - 1, above := 0 } })
        ∧ (12 ≤ l → l ≤ 30 → exec (.lupinPlan c) s = .next { s with mach := health { y with above := 0 } }))
      ∧ (x.least = none → exec (.lupinPlan c) s = .next s))
    ∧ (¬runs → ∀ ev ∈ [Instr.hlthRetire c, .parityReplay c ok savePath, .lupinSample c slack, .lupinPlan c], exec ev s = .next s)
    ∧ (¬answers → write n lvl = .next s)
    ∧ (answers →
        write n .u = .next s
        ∧ (n % 8 ≠ 0 → write n lvl = .next s)
        ∧ write 0x108 .g = fn { r with ctxArg := v }
        ∧ write 0x118 .g = .next s ∧ write 0x118 .h = fn { r with key0 := v }
        ∧ write 0x120 .g = .next s ∧ write 0x120 .h = fn { r with key1 := v }
        ∧ write 0x148 .g = fn { r with pgArg0 := v } ∧ write 0x150 .g = fn { r with pgArg1 := v }
        ∧ write 0x188 .g = fn { r with dbgArg := v } ∧ write 0x190 .g = fn { r with dbgData := v }
        ∧ write 0xB08 .g = fn { r with attArg := v }
        ∧ (f = 0 → write 0x18 .g = .next s
            ∧ write 0x18 .h = .next { s with pwr := { s.pwr with limit := BitVec.ofNat 12 (max 600 (min 2400 (v.toNat % 2 ^ 12))) } }
            ∧ (n < 1024 → write (0x4000 + 8 * n) .h = .next { s with mach := m.modCtx n fun x => { x with ftag := BitVec.ofNat 32 v.toNat } })
            ∧ (n < 4 → let d : DieId := Fin.ofNat 4 n
                write (0x400 + 8 * n) .h = .next { s with mach := m.setDie d { m.die d with waitSwap := BitVec.ofNat 32 (max 4096 (v.toNat % 2 ^ 32)) } })
            ∧ (v.toNat / 2 ^ 62 = 1 → write (0x900 + 8 * c.val) .h = exec (.hlthRetire c) s)
            ∧ (v.toNat / 2 ^ 62 ≠ 1 → write (0x900 + 8 * c.val) .h = .next s)
            ∧ write 0x10 .g = .next { s with pwr := { s.pwr with
                haltTh := s.pwr.haltTh && !v.toNat.testBit 8, haltPw := s.pwr.haltPw && !v.toNat.testBit 9 } })
        ∧ (f ≠ 0 → write 0x18 lvl = .next s ∧ write 0x10 lvl = .next s ∧ (n < 1024 → write (0x4000 + 8 * n) lvl = .next s))
        ∧ (k.st = .unconfigured ∨ k.st = .quiesced →
            write (0x3000 + 64 * q.val) .g = .next { s with mach := m.setQueue f q.val { k with base := v.toNat / 64 * 64 } })
        ∧ (k.st ≠ .unconfigured → k.st ≠ .quiesced → write (0x3000 + 64 * q.val) .g = .next s)
        ∧ write (0x3020 + 64 * q.val) lvl = (if lvl = .u then .next s else exec (.widxWrite f q v) s)
        ∧ (lvl ≠ .u → v.toNat % 4 = 1 → write (0x3038 + 64 * q.val) lvl = exec (.arm f q) s)
        ∧ (lvl ≠ .u → v.toNat % 4 = 2 → write (0x3038 + 64 * q.val) lvl = exec (.quiesce f q) s)
        ∧ (lvl ≠ .u → v.toNat % 4 = 3 → write (0x3038 + 64 * q.val) lvl = exec (.queueReset f q) s)
        ∧ (r.ctxBusy = true → write 0x100 lvl = .next s)
        ∧ (r.ctxBusy = false → lvl ≠ .u → v.toNat < 2 ^ 18 →
            let named := { s with mach := m.setFn f { r with ctxCtx := ctx } }
            (v.toNat % 256 = 1 → write 0x100 lvl = exec (.build f ctx) named)
            ∧ (v.toNat % 256 = 2 → write 0x100 lvl = exec (.ctxBind f ctx) named)
            ∧ (v.toNat % 256 = 4 → write 0x100 lvl = exec (.suspend f ctx) named)
            ∧ (v.toNat % 256 = 10 → write 0x100 lvl = exec (.teardown f ctx) named))
        ∧ (r.ctxBusy = false → v.toNat % 256 = 3 → write 0x100 .g = .next s)
        ∧ (r.ctxBusy = false → v.toNat % 256 = 3 → 2 ^ 18 ≤ v.toNat → write 0x100 .h = fn { r with
            ctxCtx := ctx, key0 := 0, key1 := 0, ctxBusy := false, ctxStatus := 7 })
        ∧ (r.dbgBusy = true → (∀ i, m.dbgInst f = some i → i.dbg.stepping = none) → write 0x180 lvl = .next s)
        ∧ (r.dbgBusy = true → v.toNat % 256 ≠ 1 ∨ r.dbgArg ≠ 0 → write 0x180 lvl = .next s))


namespace Sys2Proof.Claims

/-- A word of S: the opcode in [31:25], fields in [24:20], [19:15] and [14:10], and fn in [9:0] (Table 2.3). -/
def fieldsOf (op d a b fn : Nat) : Option (Eng × Nat) := some (.S, op * 0x2000000 + d * 0x100000 + a * 0x8000 + b * 0x400 + fn)

end Sys2Proof.Claims

/-- R126–R128, Tables 2.3 and 5.10: the encodings of the integer words of S. -/
def Sys2Proof.Claims.IntegerEncodings : Prop :=
  ∀ (d a b : Reg) (imm : BitVec 15) (sh : BitVec 6) (up : BitVec 20),
    encode (.add d a b) = fieldsOf 1 d a b 0x00 ∧ encode (.sub d a b) = fieldsOf 1 d a b 0x01
    ∧ encode (.mul d a b) = fieldsOf 1 d a b 0x02 ∧ encode (.mulh d a b) = fieldsOf 1 d a b 0x03
    ∧ encode (.mulhu d a b) = fieldsOf 1 d a b 0x04 ∧ encode (.div d a b) = fieldsOf 1 d a b 0x05
    ∧ encode (.divu d a b) = fieldsOf 1 d a b 0x06 ∧ encode (.rem d a b) = fieldsOf 1 d a b 0x07
    ∧ encode (.remu d a b) = fieldsOf 1 d a b 0x08 ∧ encode (.and d a b) = fieldsOf 1 d a b 0x09
    ∧ encode (.or d a b) = fieldsOf 1 d a b 0x0A ∧ encode (.xor d a b) = fieldsOf 1 d a b 0x0B
    ∧ encode (.shl d a b) = fieldsOf 1 d a b 0x0C ∧ encode (.shr d a b) = fieldsOf 1 d a b 0x0D
    ∧ encode (.sra d a b) = fieldsOf 1 d a b 0x0E ∧ encode (.slt d a b) = fieldsOf 1 d a b 0x0F
    ∧ encode (.sltu d a b) = fieldsOf 1 d a b 0x10 ∧ encode (.min d a b) = fieldsOf 1 d a b 0x11
    ∧ encode (.max d a b) = fieldsOf 1 d a b 0x12 ∧ encode (.minu d a b) = fieldsOf 1 d a b 0x13
    ∧ encode (.maxu d a b) = fieldsOf 1 d a b 0x14 ∧ encode (.clz d a) = fieldsOf 1 d a 0 0x15
    ∧ encode (.popc d a) = fieldsOf 1 d a 0 0x16 ∧ encode (.bfx d a b) = fieldsOf 1 d a b 0x17
    ∧ encode (.bfi d a b) = fieldsOf 1 d a b 0x18 ∧ encode (.addi d a imm) = fieldsOf 0x08 d a 0 imm.toNat
    ∧ encode (.andi d a imm) = fieldsOf 0x09 d a 0 imm.toNat ∧ encode (.ori d a imm) = fieldsOf 0x0A d a 0 imm.toNat
    ∧ encode (.xori d a imm) = fieldsOf 0x0B d a 0 imm.toNat ∧ encode (.shli d a sh) = fieldsOf 0x0C d a 0 sh.toNat
    ∧ encode (.shri d a sh) = fieldsOf 0x0D d a 0 sh.toNat ∧ encode (.srai d a sh) = fieldsOf 0x0E d a 0 sh.toNat
    ∧ encode (.slti d a imm) = fieldsOf 0x0F d a 0 imm.toNat ∧ encode (.sltui d a imm) = fieldsOf 0x10 d a 0 imm.toNat
    ∧ encode (.lui d up) = fieldsOf 0x11 d 0 0 up.toNat ∧ encode (.apc d up) = fieldsOf 0x12 d 0 0 up.toNat

/-- R129, Table 5.12: the encodings of the FP32 words of S. -/
def Sys2Proof.Claims.FloatEncodings : Prop :=
  ∀ (d a b : Reg),
    encode (.fadd d a b) = fieldsOf 2 d a b 0 ∧ encode (.fsub d a b) = fieldsOf 2 d a b 1
    ∧ encode (.fmul d a b) = fieldsOf 2 d a b 2 ∧ encode (.ffma d a b) = fieldsOf 2 d a b 3
    ∧ encode (.fmin d a b) = fieldsOf 2 d a b 4 ∧ encode (.fmax d a b) = fieldsOf 2 d a b 5
    ∧ encode (.fceq d a b) = fieldsOf 2 d a b 6 ∧ encode (.fclt d a b) = fieldsOf 2 d a b 7
    ∧ encode (.fcle d a b) = fieldsOf 2 d a b 8 ∧ encode (.fcvti d a) = fieldsOf 2 d a 0 9
    ∧ encode (.fcvtf d a) = fieldsOf 2 d a 0 10 ∧ encode (.fexp2 d a) = fieldsOf 2 d a 0 11
    ∧ encode (.flog2 d a) = fieldsOf 2 d a 0 12 ∧ encode (.frcp d a) = fieldsOf 2 d a 0 13

/-- R130, R131: the encodings of the branches and jumps. -/
def Sys2Proof.Claims.BranchEncodings : Prop :=
  ∀ (a b d : Reg) (g : Fin 8) (off : BitVec 15) (far : BitVec 20),
    encode (.beq a b off) = fieldsOf 0x18 a b 0 off.toNat ∧ encode (.bne a b off) = fieldsOf 0x19 a b 0 off.toNat
    ∧ encode (.blt a b off) = fieldsOf 0x1A a b 0 off.toNat ∧ encode (.bge a b off) = fieldsOf 0x1B a b 0 off.toNat
    ∧ encode (.bltu a b off) = fieldsOf 0x1C a b 0 off.toNat ∧ encode (.bgeu a b off) = fieldsOf 0x1D a b 0 off.toNat
    ∧ encode (.bpred g off) = fieldsOf 0x1E g 0 0 off.toNat ∧ encode (.jal d far) = fieldsOf 0x20 d 0 0 far.toNat
    ∧ encode (.jalr d a off) = fieldsOf 0x21 d a 0 off.toNat

/-- R133, R136, Table 2.4: the encodings of LOOP, LOOPI and LEAVE. -/
def Sys2Proof.Claims.LoopEncodings : Prop :=
  ∀ (n : Fin 4) (rot stg : Bool) (r : Reg) (len : BitVec 16) (imm : BitVec 12) (len' : BitVec 9),

    encode (.loop n rot stg r len) = some (.S, 0x44000000 + n.val * 0x800000 + rot.toNat * 0x400000 + stg.toNat * 0x200000 + r.val * 0x10000 + len.toNat)
    ∧ encode (.loopi n rot stg imm len') = some (.S, 0x46000000 + n.val * 0x800000 + rot.toNat * 0x400000 + stg.toNat * 0x200000 + imm.toNat * 0x200 + len'.toNat)
    ∧ encode (.leave n) = some (.S, 0x48000000 + n.val * 0x800000)

/-- R126–R128: the integer words of S: their encodings, and what each writes. -/
def Obligations.IntegerWords : Prop :=
  Sys2Proof.Claims.IntegerEncodings ∧ Sys2Proof.Claims.IntegerGroup ∧ Sys2Proof.Claims.BitWords ∧ Sys2Proof.Claims.ImmediateWords

/-- R78, R129: the FP32 words of S: their encodings, and what each writes. -/
def Obligations.FloatWordsOfS : Prop :=
  Sys2Proof.Claims.FloatEncodings ∧ Sys2Proof.Claims.FloatWords ∧ Sys2Proof.Claims.FloatSelection

/-- R132, R134, R144: what the end of a word does to the loops, and what a jump does. -/
def Obligations.LoopEvents : Prop :=
  Sys2Proof.Claims.LoopEnd ∧ Sys2Proof.Claims.NoLoopEnd ∧ Sys2Proof.Claims.JumpLeavesLoops

/-- R130, R131: the branches and jumps: their encodings, and where S goes on. -/
def Obligations.BranchWords : Prop :=
  Sys2Proof.Claims.BranchEncodings ∧ Sys2Proof.Claims.BranchesAndJumps

/-- R133, R135, R136: LOOP, LOOPI and LEAVE, their encodings, and the checks of the loop structure. -/
def Obligations.LoopInstructions : Prop :=
  Sys2Proof.Claims.LoopEncodings ∧ Sys2Proof.Claims.LoopWords ∧ Sys2Proof.Claims.LeaveLevels ∧ Sys2Proof.Claims.LoopStructure

/-- R139–R142: CSRR, CSRW, CSRSET and CSRCLR: what they read, what they write and where they trap. -/
def Obligations.CsrWords : Prop :=
  Sys2Proof.Claims.CsrReads ∧ Sys2Proof.Claims.CsrWrites ∧ Sys2Proof.Claims.CsrRejects

/-- The words that read and write FLAGS, and the words of the trap group. -/
def Obligations.FlagsAndTrapWords : Prop :=
  Sys2Proof.Claims.FlagsWords ∧ Sys2Proof.Claims.TrapWords

/-- R143, R144: a trap delivered to the handler, and a trap that parks the instance. -/
def Obligations.TrapEntry : Prop :=
  Sys2Proof.Claims.TrapDelivered ∧ Sys2Proof.Claims.TrapParked

/-- Loads, stores and atomics on the die's own SRAM and on a mapped region. -/
def Obligations.LocalAndRegionMemory : Prop :=
  Sys2Proof.Claims.LocalMemory ∧ Sys2Proof.Claims.RegionMemory

/-- The walk of the tables, what a translation leaves unchanged, and the start of a page move. -/
def Obligations.Translation : Prop :=
  Sys2Proof.Claims.WalkFindsLeaf ∧ Sys2Proof.Claims.TranslationChangesLittle ∧ Sys2Proof.Claims.PageMovesStart

/-- R102: ACQ and REL. -/
def Obligations.AcquireRelease : Prop :=
  Sys2Proof.Claims.Acquire ∧ Sys2Proof.Claims.Release

/-- FENCE, the stores of a CACHED region's write-back, and BIND. -/
def Obligations.FenceStoreBind : Prop :=
  Sys2Proof.Claims.Fence ∧ Sys2Proof.Claims.WriteBackStores ∧ Sys2Proof.Claims.Bind

/-- The FIFO words of S and the coupled words. -/
def Obligations.FifosAndCoupling : Prop :=
  Sys2Proof.Claims.Coupling ∧ Sys2Proof.Claims.FifoWords

/-- WAITW and YIELD, and the traps of the words that name an object. -/
def Obligations.ObjectWaits : Prop :=
  Sys2Proof.Claims.WaitwYield ∧ Sys2Proof.Claims.ObjectTraps

/-- The barrier words of S. -/
def Obligations.Barriers : Prop :=
  Sys2Proof.Claims.BarrierArrive ∧ Sys2Proof.Claims.BarrierCountTooLarge ∧ Sys2Proof.Claims.BarrierWait

/-- EXIT and TRACE. -/
def Obligations.ExitAndTrace : Prop :=
  Sys2Proof.Claims.Exit ∧ Sys2Proof.Claims.Trace

/-- The page words of S, the request tags and PROBE. -/
def Obligations.PageAndTagWords : Prop :=
  Sys2Proof.Claims.PageWords ∧ Sys2Proof.Claims.RequestTags ∧ Sys2Proof.Claims.Probe

/-- The sync nibble of the V, M and X words, and their end words. -/
def Obligations.SyncAndEnd : Prop :=
  Sys2Proof.Claims.SyncNibble ∧ Sys2Proof.Claims.EndWords

/-- The views and ports of V. -/
def Obligations.ViewsAndPorts : Prop :=
  Sys2Proof.Claims.ViewWords ∧ Sys2Proof.Claims.PortWords ∧ Sys2Proof.Claims.ViewSources ∧ Sys2Proof.Claims.PortRow

/-- The words of V that compute over a tile. -/
def Obligations.TileWords : Prop :=
  Sys2Proof.Claims.TileWrites ∧ Sys2Proof.Claims.ElementWords

/-- The words of V that move elements, and the mask of the resident rows. -/
def Obligations.MovingAndResidency : Prop :=
  Sys2Proof.Claims.MovingWords ∧ Sys2Proof.Claims.ResidencyMask

/-- The words of V over lines and masks. -/
def Obligations.LineAndMaskWords : Prop :=
  Sys2Proof.Claims.LineWords ∧ Sys2Proof.Claims.MaskWords

/-- The settings and records of M. -/
def Obligations.NestWords : Prop :=
  Sys2Proof.Claims.NestRecords ∧ Sys2Proof.Claims.NestSettings

/-- The words of M that load operands and drain the accumulators. -/
def Obligations.LoadAndDrain : Prop :=
  Sys2Proof.Claims.BLoad ∧ Sys2Proof.Claims.Drain

/-- The commit words of M, and the steps of its nest. -/
def Obligations.CommitWords : Prop :=
  Sys2Proof.Claims.CommitWords ∧ Sys2Proof.Claims.NestSteps

/-- The words of X. -/
def Obligations.TransferWords : Prop :=
  Sys2Proof.Claims.IssueWords ∧ Sys2Proof.Claims.TransferWords

/-- The steps of a transfer, and of a gather. -/
def Obligations.TransferSteps : Prop :=
  Sys2Proof.Claims.Granules ∧ Sys2Proof.Claims.TransferEnds ∧ Sys2Proof.Claims.GatherCommand

/-- The commands on contexts and how they end. -/
def Obligations.ContextEvents : Prop :=
  Sys2Proof.Claims.ContextCommands ∧ Sys2Proof.Claims.ContextEnds

/-- The registers of a queue and the records it takes. -/
def Obligations.Queues : Prop :=
  Sys2Proof.Claims.QueueRegisters ∧ Sys2Proof.Claims.QueueRecords

/-- Dispatch of a launch, and the steps of the barriers. -/
def Obligations.DispatchAndBarriers : Prop :=
  Sys2Proof.Claims.Dispatch ∧ Sys2Proof.Claims.BarrierSteps

/-- The fabric's commands, requests and answers. -/
def Obligations.Fabric : Prop :=
  Sys2Proof.Claims.FabricCommands ∧ Sys2Proof.Claims.FabricRequests ∧ Sys2Proof.Claims.FabricAnswers

/-- The exchange: its commands, its arbiter and its participants. -/
def Obligations.Exchanges : Prop :=
  Sys2Proof.Claims.ExchangeCommands ∧ Sys2Proof.Claims.ExchangeArbiter ∧ Sys2Proof.Claims.ExchangeParticipant

/-- The debug unit's commands and settings. -/
def Obligations.Debugging : Prop :=
  Sys2Proof.Claims.DebugCommands ∧ Sys2Proof.Claims.DebugSettings
end

