-- ==== Sys2Proof/Laws/Cells.lean ====
section
/-! SUPPORT. Sparse stores: the canonical form that every operation keeps, and reads after writes. -/

namespace Sys2Proof.Machine
open Sys2Proof

/-- The canonical form in words: indices rise strictly, and no listed value is 0. -/
theorem cellsWf_iff {w : Nat} (l : List (Nat × BitVec w)) :
    cellsWf l = true ↔ l.Pairwise (fun x y => x.1 < y.1) ∧ ∀ e ∈ l, e.2 ≠ 0 := by
  induction l with
  | nil => simp [cellsWf]
  | cons x t ih =>
    obtain ⟨a, v⟩ := x
    cases t with
    | nil => simp [cellsWf]
    | cons y r =>
      obtain ⟨b, u⟩ := y
      simp only [cellsWf, Bool.and_eq_true, bne_iff_ne, decide_eq_true_eq, ih, List.pairwise_cons]
      constructor
      · rintro ⟨⟨hv, hab⟩, ⟨hb, hr⟩, hz⟩
        refine ⟨⟨fun e he => ?_, hb, hr⟩, fun e he => ?_⟩
        · rcases List.mem_cons.1 he with rfl | he
          · exact hab
          · exact lt_trans hab (hb e he)
        · rcases List.mem_cons.1 he with rfl | he
          · exact hv
          · exact hz e he
      · rintro ⟨⟨ha, hb, hr⟩, hz⟩
        exact ⟨⟨hz _ (List.mem_cons_self ..), ha _ (List.mem_cons_self ..)⟩, ⟨hb, hr⟩,
          fun e he => hz e (List.mem_cons_of_mem _ he)⟩

/-- A canonical list without its head is canonical. -/
theorem cellsWf_tail {w : Nat} {x : Nat × BitVec w} {t : List (Nat × BitVec w)} (h : cellsWf (x :: t) = true) :
    cellsWf t = true := by
  rw [cellsWf_iff] at h ⊢
  exact ⟨(List.pairwise_cons.1 h.1).2, fun e he => h.2 e (List.mem_cons_of_mem _ he)⟩

theorem cellsWf_cons_iff {w : Nat} (x : Nat × BitVec w) (t : List (Nat × BitVec w)) :
    cellsWf (x :: t) = true ↔ x.2 ≠ 0 ∧ (∀ e ∈ t, x.1 < e.1) ∧ cellsWf t = true := by
  simp only [cellsWf_iff, List.pairwise_cons, List.mem_cons, forall_eq_or_imp]
  tauto

/-- Listing a value lists nothing but it and what was listed. -/
theorem mem_cellInsert {w : Nat} (l : List (Nat × BitVec w)) (k : Nat) (v : BitVec w) (e : Nat × BitVec w) :
    e ∈ cellInsert l k v ↔ e = (k, v) ∨ e ∈ l := by
  induction l with
  | nil => simp [cellInsert]
  | cons x t ih =>
    obtain ⟨a, u⟩ := x
    unfold cellInsert
    split
    · simp
    · simp only [List.mem_cons, ih]; tauto

/-- Writing an index lists no index but it and those that were listed. -/
theorem mem_cellSet {w : Nat} (l : List (Nat × BitVec w)) (k : Nat) (v : BitVec w) (e : Nat × BitVec w)
    (h : e ∈ cellSet l k v) : e = (k, v) ∨ e ∈ l := by
  simp only [cellSet] at h
  split at h
  · exact Or.inr (List.mem_of_mem_filter h)
  · exact ((mem_cellInsert ..).1 h).imp id List.mem_of_mem_filter

/-- Dropping entries keeps the canonical form. -/
theorem filter_wf {w : Nat} (l : List (Nat × BitVec w)) (p : Nat × BitVec w → Bool) (h : cellsWf l = true) :
    cellsWf (l.filter p) = true := by
  rw [cellsWf_iff] at h ⊢
  exact ⟨h.1.filter p, fun e he => h.2 e (List.mem_of_mem_filter he)⟩

/-- Listing a value other than 0 at an index not listed keeps the canonical form. -/
theorem cellInsert_wf {w : Nat} (l : List (Nat × BitVec w)) (k : Nat) (v : BitVec w) (h : cellsWf l = true)
    (hk : ∀ e ∈ l, e.1 ≠ k) (hv : v ≠ 0) : cellsWf (cellInsert l k v) = true := by
  induction l with
  | nil => simpa [cellInsert, cellsWf] using hv
  | cons x t ih =>
    obtain ⟨a, u⟩ := x
    obtain ⟨hu, hlt, ht⟩ := (cellsWf_cons_iff _ _).1 h
    have hne := hk (a, u) (List.mem_cons_self ..)
    unfold cellInsert
    split
    · next hka =>
      refine (cellsWf_cons_iff _ _).2 ⟨hv, fun e he => ?_, h⟩
      rcases List.mem_cons.1 he with rfl | he
      · exact hka
      · exact lt_trans hka (hlt e he)
    · next hka =>
      refine (cellsWf_cons_iff _ _).2 ⟨hu, fun e he => ?_, ih ht fun e he => hk e (List.mem_cons_of_mem _ he)⟩
      rcases (mem_cellInsert ..).1 he with rfl | he
      · simp only at hne ⊢; omega
      · exact hlt e he

/-- Writing an index keeps the canonical form. -/
theorem cellSet_wf {w : Nat} (l : List (Nat × BitVec w)) (k : Nat) (v : BitVec w) (h : cellsWf l = true) :
    cellsWf (cellSet l k v) = true := by
  simp only [cellSet]
  split
  · exact filter_wf l _ h
  · exact cellInsert_wf _ k v (filter_wf l _ h) (fun e he => by simpa using List.of_mem_filter he) ‹_›

/-- Writing values keeps the canonical form. -/
theorem cellsWrite_wf {w : Nat} (vs : List (BitVec w)) (l : List (Nat × BitVec w)) (a : Nat) (h : cellsWf l = true) :
    cellsWf (cellsWrite l a vs) = true := by
  induction vs generalizing l a with
  | nil => exact h
  | cons v t ih => exact ih _ _ (cellSet_wf l a v h)

theorem cellsClear_wf {w : Nat} (l : List (Nat × BitVec w)) (a n : Nat) (h : cellsWf l = true) :
    cellsWf (cellsClear l a n) = true := filter_wf l _ h

/-- A read of a list with entries dropped: 0 at the indices dropped, as before at the others. -/
theorem cellGet_filter {w : Nat} (l : List (Nat × BitVec w)) (p : Nat → Bool) (k : Nat) :
    cellGet (l.filter fun e => p e.1) k = if p k then cellGet l k else 0 := by
  induction l with
  | nil => simp [cellGet]
  | cons x t ih =>
    obtain ⟨a, u⟩ := x
    by_cases hp : p a
    · rw [List.filter_cons_of_pos (by simpa using hp)]
      simp only [cellGet, ih]
      by_cases hk : a = k
      · subst hk; simp [hp]
      · simp [hk]
    · rw [List.filter_cons_of_neg (by simpa using hp), ih]
      by_cases hk : a = k
      · subst hk; simp [hp]
      · simp [cellGet, hk]

/-- A read of a list with a value listed at an index that was not. -/
theorem cellGet_cellInsert {w : Nat} (l : List (Nat × BitVec w)) (k j : Nat) (v : BitVec w) (hk : ∀ e ∈ l, e.1 ≠ k) :
    cellGet (cellInsert l k v) j = if j = k then v else cellGet l j := by
  induction l with
  | nil => simp only [cellInsert, cellGet]; exact if_congr eq_comm rfl rfl
  | cons x t ih =>
    obtain ⟨a, u⟩ := x
    have hne : a ≠ k := hk (a, u) (List.mem_cons_self ..)
    unfold cellInsert
    split
    · simp only [cellGet]; exact if_congr eq_comm rfl rfl
    · simp only [cellGet, ih fun e he => hk e (List.mem_cons_of_mem _ he)]
      by_cases hj : j = k
      · simp [hj, hne]
      · simp [hj]

/-- A read after a write: what was written at its index, and every other index as it was. -/
theorem cellGet_cellSet {w : Nat} (l : List (Nat × BitVec w)) (k j : Nat) (v : BitVec w) :
    cellGet (cellSet l k v) j = if j = k then v else cellGet l j := by
  have hf := cellGet_filter l (fun a => a != k) j
  simp only [cellSet]
  split
  · next hv => rw [hf, hv]; by_cases hj : j = k <;> simp [hj]
  · rw [cellGet_cellInsert _ k j v (fun e he => by simpa using List.of_mem_filter he), hf]
    by_cases hj : j = k <;> simp [hj]

/-- A read after a write to the same index gives what was written. -/
theorem cellGet_cellSet_self {w : Nat} (l : List (Nat × BitVec w)) (k : Nat) (v : BitVec w) :
    cellGet (cellSet l k v) k = v := by simp [cellGet_cellSet]

/-- A write leaves every other index as it was. -/
theorem cellGet_cellSet_of_ne {w : Nat} (l : List (Nat × BitVec w)) {k j : Nat} (v : BitVec w) (hj : j ≠ k) :
    cellGet (cellSet l k v) j = cellGet l j := by simp [cellGet_cellSet, hj]

/-- A read after indices were cleared. -/
theorem cellGet_cellsClear {w : Nat} (l : List (Nat × BitVec w)) (a n k : Nat) :
    cellGet (cellsClear l a n) k = if a ≤ k ∧ k < a + n then 0 else cellGet l k := by
  have := cellGet_filter l (fun b => decide (b < a) || decide (a + n ≤ b)) k
  rw [cellsClear, this]
  by_cases h : a ≤ k ∧ k < a + n
  · rw [if_pos h, if_neg (by simp; omega)]
  · rw [if_neg h, if_pos (by simp; omega)]

/-- A read after a write of values: inside them the value written, elsewhere what was read before. -/
theorem cellGet_cellsWrite {w : Nat} (vs : List (BitVec w)) (l : List (Nat × BitVec w)) (a k : Nat) :
    cellGet (cellsWrite l a vs) k = if a ≤ k ∧ k < a + vs.length then vs.getD (k - a) 0 else cellGet l k := by
  induction vs generalizing l a with
  | nil => simp [cellsWrite]
  | cons v t ih =>
    rw [cellsWrite, ih, cellGet_cellSet]
    by_cases hk : k = a
    · subst hk
      rw [if_neg (by omega), if_pos rfl, if_pos (by simp)]
      simp
    · rw [if_neg hk]
      by_cases hr : a + 1 ≤ k ∧ k < a + 1 + t.length
      · rw [if_pos hr, if_pos (by simp only [List.length_cons]; omega)]
        obtain ⟨n, hn⟩ : ∃ n, k - a = n + 1 := ⟨k - a - 1, by omega⟩
        simp [hn, show k - (a + 1) = n by omega]
      · rw [if_neg hr, if_neg (by simp only [List.length_cons]; omega)]

/-- A write leaves every index outside it as it was. -/
theorem cellGet_cellsWrite_outside {w : Nat} (vs : List (BitVec w)) (l : List (Nat × BitVec w)) (a k : Nat)
    (hk : k < a ∨ a + vs.length ≤ k) : cellGet (cellsWrite l a vs) k = cellGet l k := by
  rw [cellGet_cellsWrite vs l a k, if_neg (by omega)]

/-- What was written is read back. -/
theorem cellsRead_cellsWrite {w : Nat} (vs : List (BitVec w)) (l : List (Nat × BitVec w)) (a : Nat) :
    cellsRead (cellsWrite l a vs) a vs.length = vs := by
  induction vs generalizing l a with
  | nil => rfl
  | cons v t ih =>
    simp only [List.length_cons, cellsRead]
    congr 1
    · rw [cellGet_cellsWrite]; simp
    · exact ih _ _

theorem cellsRead_length {w : Nat} (l : List (Nat × BitVec w)) (a n : Nat) : (cellsRead l a n).length = n := by
  induction n generalizing a with
  | zero => rfl
  | succ n ih => simp [cellsRead, ih]

@[simp] theorem bytesOf_length (n v : Nat) : (bytesOf n v).length = n := by
  induction n generalizing v with
  | zero => rfl
  | succ n ih => simp [bytesOf, ih]

/-- The bytes of a value, read as a little-endian number, are the value where it fits. -/
theorem leNat_bytesOf (n v : Nat) : leNat (bytesOf n v) = v % 256 ^ n := by
  induction n generalizing v with
  | zero => simp [bytesOf, leNat, wordOfBytes, Nat.mod_one]
  | succ n ih =>
    have := ih (v / 256)
    simp only [leNat, wordOfBytes, bytesOf, List.foldr_cons] at this ⊢
    rw [this, Nat.pow_succ, Nat.mul_comm (256 ^ n) 256, Nat.mod_mul]
    simp

/-! ## Every operation over memory keeps its canonical form -/

theorem Mach.store_memory_wf (m : Mach) (k : Nat) (l : List Byte) (h : Memory.wf m.mem = true) :
    Memory.wf (m.store k l).mem = true := cellsWrite_wf l m.mem k h

theorem Mach.storeWord_memory_wf (m : Mach) (k v : Nat) (h : Memory.wf m.mem = true) :
    Memory.wf (m.storeWord k v).mem = true := Mach.store_memory_wf m k _ h

theorem State.reset_memory_wf : Memory.wf State.reset.mach.mem = true := rfl

end Sys2Proof.Machine
end

