-- ==== Sys2Proof/Laws/PerInstr.lean ====
section
/-! SUPPORT. Facts about instructions as data, one lemma per constructor: every instruction with an encoding is one
32-bit word (R31). -/



namespace Sys2Proof.Laws.OneWord
open Sys2Proof

/-- An instruction that has an encoding is one word of 32 bits (R31). -/
def Statement (i : Instr) : Prop := ∀ e w, encode i = some (e, w) → w < 2 ^ 32

theorem of_encode {i : Instr} {e : Eng} {w : Nat} (h : encode i = some (e, w)) (hw : w < 2 ^ 32) : Statement i := by
  intro e' w' h'
  rw [h] at h'
  cases h'
  exact hw
theorem of_none {i : Instr} (h : encode i = none) : Statement i := by
  intro e w h'
  rw [h] at h'
  cases h'

theorem scope_code_lt (x : Scope) : x.code < 5 := by cases x <;> decide
theorem aop_code_lt (x : AOp) : x.code < 9 := by cases x <;> decide
theorem order_code_lt (x : MemOrder) : x.code < 4 := by cases x <;> decide
theorem cond_code_lt (x : WCond) : x.code < 6 := by cases x <;> decide
theorem pred_code_lt (x : VPred) : x.code < 4 := by cases x <;> decide
theorem maskop_code_lt (x : MaskOp) : x.code < 4 := by cases x <;> decide
theorem maskpat_code_lt (x : MaskPat) : x.code < 4 := by cases x <;> decide
theorem axis_code_lt (x : Axis) : x.code < 2 := by cases x <;> decide
theorem mformat_code_lt (x : MFormat) : x.code < 7 := by cases x <;> decide
theorem absel_code_lt (x : ABSel) : x.code < 2 := by cases x <;> decide
theorem abcsel_code_lt (x : ABCSel) : x.code < 3 := by cases x <;> decide
theorem src_code_lt (x : Src) : x.code < 25 := by cases x <;> simp only [Src.code] <;> omega
theorem sync_code_lt (y : Sync) : y.code < 16 := by simp only [Sync.code]; omega

theorem encS_lt {op d a low : Nat} (ho : op < 128) (hd : d < 32) (ha : a < 32) (hl : low < 2 ^ 15) :
    encS op d a low < 2 ^ 32 := by simp only [encS]; omega
theorem encSU_lt {op d imm : Nat} (ho : op < 128) (hd : d < 32) (hl : imm < 2 ^ 20) :
    encSU op d imm < 2 ^ 32 := by simp only [encSU]; omega
theorem encSR_lt {op d a b fn : Nat} (ho : op < 128) (hd : d < 32) (ha : a < 32) (hb : b < 32) (hf : fn < 2 ^ 10) :
    encSR op d a b fn < 2 ^ 32 := encS_lt ho hd ha (by omega)
theorem encSA_lt {op d a b p o c : Nat} (ho : op < 128) (hd : d < 32) (ha : a < 32) (hb : b < 32) (hp : p < 16)
    (hr : o < 4) (hc : c < 8) : encSA op d a b p o c < 2 ^ 32 := encS_lt ho hd ha (by omega)
theorem encV_lt {op d a b m v : Nat} {y : Sync} {ra rb : Bool} (ho : op < 64) (hd : d < 32) (ha : a < 32) (hb : b < 32)
    (hm : m < 8) (hv : v < 4) : encV op y d a b m ra rb v < 2 ^ 32 := by
  have := sync_code_lt y
  simp only [encV]
  have := Bool.toNat_lt ra
  have := Bool.toNat_lt rb
  omega
theorem encVM_lt {op d a b hi : Nat} {o : VMod} (ho : op < 64) (hd : d < 32) (ha : a < 32) (hb : b < 32)
    (hh : hi < 2) : encVM op o d a b hi < 2 ^ 32 :=
  encV_lt ho hd ha hb o.mask.isLt (by have := Bool.toNat_lt o.zero; omega)
theorem encMX_lt {op p : Nat} {y : Sync} (ho : op < 32) (hp : p < 2 ^ 23) : encMX op y p < 2 ^ 32 := by
  have := sync_code_lt y
  simp only [encMX]; omega

theorem add (x0 : Reg) (x1 : Reg) (x2 : Reg) : Statement (.add x0 x1 x2) := by
  refine of_encode rfl ?_
  apply encSR_lt <;> omega

theorem sub (x0 : Reg) (x1 : Reg) (x2 : Reg) : Statement (.sub x0 x1 x2) := by
  refine of_encode rfl ?_
  apply encSR_lt <;> omega

theorem mul (x0 : Reg) (x1 : Reg) (x2 : Reg) : Statement (.mul x0 x1 x2) := by
  refine of_encode rfl ?_
  apply encSR_lt <;> omega

theorem mulh (x0 : Reg) (x1 : Reg) (x2 : Reg) : Statement (.mulh x0 x1 x2) := by
  refine of_encode rfl ?_
  apply encSR_lt <;> omega

theorem mulhu (x0 : Reg) (x1 : Reg) (x2 : Reg) : Statement (.mulhu x0 x1 x2) := by
  refine of_encode rfl ?_
  apply encSR_lt <;> omega

theorem div (x0 : Reg) (x1 : Reg) (x2 : Reg) : Statement (.div x0 x1 x2) := by
  refine of_encode rfl ?_
  apply encSR_lt <;> omega

theorem divu (x0 : Reg) (x1 : Reg) (x2 : Reg) : Statement (.divu x0 x1 x2) := by
  refine of_encode rfl ?_
  apply encSR_lt <;> omega

theorem rem (x0 : Reg) (x1 : Reg) (x2 : Reg) : Statement (.rem x0 x1 x2) := by
  refine of_encode rfl ?_
  apply encSR_lt <;> omega

theorem remu (x0 : Reg) (x1 : Reg) (x2 : Reg) : Statement (.remu x0 x1 x2) := by
  refine of_encode rfl ?_
  apply encSR_lt <;> omega

theorem and (x0 : Reg) (x1 : Reg) (x2 : Reg) : Statement (.and x0 x1 x2) := by
  refine of_encode rfl ?_
  apply encSR_lt <;> omega

theorem or (x0 : Reg) (x1 : Reg) (x2 : Reg) : Statement (.or x0 x1 x2) := by
  refine of_encode rfl ?_
  apply encSR_lt <;> omega

theorem xor (x0 : Reg) (x1 : Reg) (x2 : Reg) : Statement (.xor x0 x1 x2) := by
  refine of_encode rfl ?_
  apply encSR_lt <;> omega

theorem shl (x0 : Reg) (x1 : Reg) (x2 : Reg) : Statement (.shl x0 x1 x2) := by
  refine of_encode rfl ?_
  apply encSR_lt <;> omega

theorem shr (x0 : Reg) (x1 : Reg) (x2 : Reg) : Statement (.shr x0 x1 x2) := by
  refine of_encode rfl ?_
  apply encSR_lt <;> omega

theorem sra (x0 : Reg) (x1 : Reg) (x2 : Reg) : Statement (.sra x0 x1 x2) := by
  refine of_encode rfl ?_
  apply encSR_lt <;> omega

theorem slt (x0 : Reg) (x1 : Reg) (x2 : Reg) : Statement (.slt x0 x1 x2) := by
  refine of_encode rfl ?_
  apply encSR_lt <;> omega

theorem sltu (x0 : Reg) (x1 : Reg) (x2 : Reg) : Statement (.sltu x0 x1 x2) := by
  refine of_encode rfl ?_
  apply encSR_lt <;> omega

theorem min (x0 : Reg) (x1 : Reg) (x2 : Reg) : Statement (.min x0 x1 x2) := by
  refine of_encode rfl ?_
  apply encSR_lt <;> omega

theorem max (x0 : Reg) (x1 : Reg) (x2 : Reg) : Statement (.max x0 x1 x2) := by
  refine of_encode rfl ?_
  apply encSR_lt <;> omega

theorem minu (x0 : Reg) (x1 : Reg) (x2 : Reg) : Statement (.minu x0 x1 x2) := by
  refine of_encode rfl ?_
  apply encSR_lt <;> omega

theorem maxu (x0 : Reg) (x1 : Reg) (x2 : Reg) : Statement (.maxu x0 x1 x2) := by
  refine of_encode rfl ?_
  apply encSR_lt <;> omega

theorem clz (x0 : Reg) (x1 : Reg) : Statement (.clz x0 x1) := by
  refine of_encode rfl ?_
  apply encSR_lt <;> omega

theorem popc (x0 : Reg) (x1 : Reg) : Statement (.popc x0 x1) := by
  refine of_encode rfl ?_
  apply encSR_lt <;> omega

theorem bfx (x0 : Reg) (x1 : Reg) (x2 : Reg) : Statement (.bfx x0 x1 x2) := by
  refine of_encode rfl ?_
  apply encSR_lt <;> omega

theorem bfi (x0 : Reg) (x1 : Reg) (x2 : Reg) : Statement (.bfi x0 x1 x2) := by
  refine of_encode rfl ?_
  apply encSR_lt <;> omega

theorem fadd (x0 : Reg) (x1 : Reg) (x2 : Reg) : Statement (.fadd x0 x1 x2) := by
  refine of_encode rfl ?_
  apply encSR_lt <;> omega

theorem fsub (x0 : Reg) (x1 : Reg) (x2 : Reg) : Statement (.fsub x0 x1 x2) := by
  refine of_encode rfl ?_
  apply encSR_lt <;> omega

theorem fmul (x0 : Reg) (x1 : Reg) (x2 : Reg) : Statement (.fmul x0 x1 x2) := by
  refine of_encode rfl ?_
  apply encSR_lt <;> omega

theorem ffma (x0 : Reg) (x1 : Reg) (x2 : Reg) : Statement (.ffma x0 x1 x2) := by
  refine of_encode rfl ?_
  apply encSR_lt <;> omega

theorem fmin (x0 : Reg) (x1 : Reg) (x2 : Reg) : Statement (.fmin x0 x1 x2) := by
  refine of_encode rfl ?_
  apply encSR_lt <;> omega

theorem fmax (x0 : Reg) (x1 : Reg) (x2 : Reg) : Statement (.fmax x0 x1 x2) := by
  refine of_encode rfl ?_
  apply encSR_lt <;> omega

theorem fceq (x0 : Reg) (x1 : Reg) (x2 : Reg) : Statement (.fceq x0 x1 x2) := by
  refine of_encode rfl ?_
  apply encSR_lt <;> omega

theorem fclt (x0 : Reg) (x1 : Reg) (x2 : Reg) : Statement (.fclt x0 x1 x2) := by
  refine of_encode rfl ?_
  apply encSR_lt <;> omega

theorem fcle (x0 : Reg) (x1 : Reg) (x2 : Reg) : Statement (.fcle x0 x1 x2) := by
  refine of_encode rfl ?_
  apply encSR_lt <;> omega

theorem fcvti (x0 : Reg) (x1 : Reg) : Statement (.fcvti x0 x1) := by
  refine of_encode rfl ?_
  apply encSR_lt <;> omega

theorem fcvtf (x0 : Reg) (x1 : Reg) : Statement (.fcvtf x0 x1) := by
  refine of_encode rfl ?_
  apply encSR_lt <;> omega

theorem fexp2 (x0 : Reg) (x1 : Reg) : Statement (.fexp2 x0 x1) := by
  refine of_encode rfl ?_
  apply encSR_lt <;> omega

theorem flog2 (x0 : Reg) (x1 : Reg) : Statement (.flog2 x0 x1) := by
  refine of_encode rfl ?_
  apply encSR_lt <;> omega

theorem frcp (x0 : Reg) (x1 : Reg) : Statement (.frcp x0 x1) := by
  refine of_encode rfl ?_
  apply encSR_lt <;> omega

theorem addi (x0 : Reg) (x1 : Reg) (x2 : BitVec 15) : Statement (.addi x0 x1 x2) := by
  refine of_encode rfl ?_
  apply encS_lt <;> omega

theorem andi (x0 : Reg) (x1 : Reg) (x2 : BitVec 15) : Statement (.andi x0 x1 x2) := by
  refine of_encode rfl ?_
  apply encS_lt <;> omega

theorem ori (x0 : Reg) (x1 : Reg) (x2 : BitVec 15) : Statement (.ori x0 x1 x2) := by
  refine of_encode rfl ?_
  apply encS_lt <;> omega

theorem xori (x0 : Reg) (x1 : Reg) (x2 : BitVec 15) : Statement (.xori x0 x1 x2) := by
  refine of_encode rfl ?_
  apply encS_lt <;> omega

theorem shli (x0 : Reg) (x1 : Reg) (x2 : BitVec 6) : Statement (.shli x0 x1 x2) := by
  refine of_encode rfl ?_
  apply encS_lt <;> omega

theorem shri (x0 : Reg) (x1 : Reg) (x2 : BitVec 6) : Statement (.shri x0 x1 x2) := by
  refine of_encode rfl ?_
  apply encS_lt <;> omega

theorem srai (x0 : Reg) (x1 : Reg) (x2 : BitVec 6) : Statement (.srai x0 x1 x2) := by
  refine of_encode rfl ?_
  apply encS_lt <;> omega

theorem slti (x0 : Reg) (x1 : Reg) (x2 : BitVec 15) : Statement (.slti x0 x1 x2) := by
  refine of_encode rfl ?_
  apply encS_lt <;> omega

theorem sltui (x0 : Reg) (x1 : Reg) (x2 : BitVec 15) : Statement (.sltui x0 x1 x2) := by
  refine of_encode rfl ?_
  apply encS_lt <;> omega

theorem lui (x0 : Reg) (x1 : BitVec 20) : Statement (.lui x0 x1) := by
  refine of_encode rfl ?_
  apply encSU_lt <;> omega

theorem apc (x0 : Reg) (x1 : BitVec 20) : Statement (.apc x0 x1) := by
  refine of_encode rfl ?_
  apply encSU_lt <;> omega

theorem beq (x0 : Reg) (x1 : Reg) (x2 : BitVec 15) : Statement (.beq x0 x1 x2) := by
  refine of_encode rfl ?_
  apply encS_lt <;> omega

theorem bne (x0 : Reg) (x1 : Reg) (x2 : BitVec 15) : Statement (.bne x0 x1 x2) := by
  refine of_encode rfl ?_
  apply encS_lt <;> omega

theorem blt (x0 : Reg) (x1 : Reg) (x2 : BitVec 15) : Statement (.blt x0 x1 x2) := by
  refine of_encode rfl ?_
  apply encS_lt <;> omega

theorem bge (x0 : Reg) (x1 : Reg) (x2 : BitVec 15) : Statement (.bge x0 x1 x2) := by
  refine of_encode rfl ?_
  apply encS_lt <;> omega

theorem bltu (x0 : Reg) (x1 : Reg) (x2 : BitVec 15) : Statement (.bltu x0 x1 x2) := by
  refine of_encode rfl ?_
  apply encS_lt <;> omega

theorem bgeu (x0 : Reg) (x1 : Reg) (x2 : BitVec 15) : Statement (.bgeu x0 x1 x2) := by
  refine of_encode rfl ?_
  apply encS_lt <;> omega

theorem bpred (x0 : Fin 8) (x1 : BitVec 15) : Statement (.bpred x0 x1) := by
  refine of_encode rfl ?_
  apply encS_lt <;> omega

theorem jal (x0 : Reg) (x1 : BitVec 20) : Statement (.jal x0 x1) := by
  refine of_encode rfl ?_
  apply encSU_lt <;> omega

theorem jalr (x0 : Reg) (x1 : Reg) (x2 : BitVec 15) : Statement (.jalr x0 x1 x2) := by
  refine of_encode rfl ?_
  apply encS_lt <;> omega

theorem loop (x0 : Fin 4) (x1 : Bool) (x2 : Bool) (x3 : Reg) (x4 : BitVec 16) : Statement (.loop x0 x1 x2 x3 x4) := by
  refine of_encode rfl ?_
  have := Bool.toNat_lt x1
  have := Bool.toNat_lt x2
  omega

theorem loopi (x0 : Fin 4) (x1 : Bool) (x2 : Bool) (x3 : BitVec 12) (x4 : BitVec 9) : Statement (.loopi x0 x1 x2 x3 x4) := by
  refine of_encode rfl ?_
  have := Bool.toNat_lt x1
  have := Bool.toNat_lt x2
  omega

theorem leave (x0 : Fin 4) : Statement (.leave x0) := by
  refine of_encode rfl ?_
  omega

theorem ld (x0 : Reg) (x1 : Reg) (x2 : Fin 4) (x3 : BitVec 12) : Statement (.ld x0 x1 x2 x3) := by
  refine of_encode rfl ?_
  apply encS_lt <;> omega

theorem ldu (x0 : Reg) (x1 : Reg) (x2 : Fin 3) (x3 : BitVec 12) : Statement (.ldu x0 x1 x2 x3) := by
  refine of_encode rfl ?_
  apply encS_lt <;> omega

theorem st (x0 : Reg) (x1 : Reg) (x2 : Fin 4) (x3 : BitVec 12) : Statement (.st x0 x1 x2 x3) := by
  refine of_encode rfl ?_
  apply encS_lt <;> omega

theorem amo (x0 : Reg) (x1 : Reg) (x2 : Reg) (x3 : AOp) (x4 : MemOrder) (x5 : Scope) : Statement (.amo x0 x1 x2 x3 x4 x5) := by
  refine of_encode rfl ?_
  have := aop_code_lt x3
  have := order_code_lt x4
  have := scope_code_lt x5
  apply encSA_lt <;> omega

theorem cas (x0 : Reg) (x1 : Reg) (x2 : Reg) (x3 : MemOrder) (x4 : Scope) : Statement (.cas x0 x1 x2 x3 x4) := by
  refine of_encode rfl ?_
  have := order_code_lt x3
  have := scope_code_lt x4
  apply encSA_lt <;> omega

theorem acqL (x0 : Reg) (x1 : Scope) : Statement (.acqL x0 x1) := by
  refine of_encode rfl ?_
  have := scope_code_lt x1
  apply encSR_lt <;> omega

theorem acqC (x0 : Reg) (x1 : Reg) (x2 : Scope) : Statement (.acqC x0 x1 x2) := by
  refine of_encode rfl ?_
  have := scope_code_lt x2
  apply encSR_lt <;> omega

theorem relL (x0 : Reg) (x1 : Scope) : Statement (.relL x0 x1) := by
  refine of_encode rfl ?_
  have := scope_code_lt x1
  apply encSR_lt <;> omega

theorem relC (x0 : Reg) (x1 : Scope) : Statement (.relC x0 x1) := by
  refine of_encode rfl ?_
  have := scope_code_lt x1
  apply encSR_lt <;> omega

theorem fence (x0 : Scope) : Statement (.fence x0) := by
  refine of_encode rfl ?_
  have := scope_code_lt x0
  apply encSR_lt <;> omega

theorem bind (x0 : Reg) (x1 : Reg) (x2 : Reg) (x3 : BitVec 6) : Statement (.bind x0 x1 x2 x3) := by
  refine of_encode rfl ?_
  apply encSR_lt <;> omega

theorem sig (x0 : Fin 3) : Statement (.sig x0) := by
  refine of_encode rfl ?_
  apply encSR_lt <;> omega

theorem waitk (x0 : Fin 3) : Statement (.waitk x0) := by
  refine of_encode rfl ?_
  apply encSR_lt <;> omega

theorem sqput (x0 : Reg) : Statement (.sqput x0) := by
  refine of_encode rfl ?_
  apply encSR_lt <;> omega

theorem eidle (x0 : BitVec 3) : Statement (.eidle x0) := by
  refine of_encode rfl ?_
  apply encSR_lt <;> omega

theorem exit : Statement .exit := by
  refine of_encode rfl ?_
  apply encSR_lt <;> omega

theorem fpsh (x0 : Fin 2) (x1 : Reg) : Statement (.fpsh x0 x1) := by
  refine of_encode rfl ?_
  apply encSR_lt <;> omega

theorem fpop (x0 : Reg) (x1 : Fin 3) : Statement (.fpop x0 x1) := by
  refine of_encode rfl ?_
  apply encSR_lt <;> omega

theorem fcnt (x0 : Reg) (x1 : Fin 3) : Statement (.fcnt x0 x1) := by
  refine of_encode rfl ?_
  apply encSR_lt <;> omega

theorem waitw (x0 : Reg) (x1 : Reg) (x2 : Reg) (x3 : WCond) (x4 : Scope) : Statement (.waitw x0 x1 x2 x3 x4) := by
  refine of_encode rfl ?_
  have := cond_code_lt x3
  have := scope_code_lt x4
  apply encSR_lt <;> omega

theorem yield : Statement .yield := by
  refine of_encode rfl ?_
  apply encSR_lt <;> omega

theorem barr (x0 : Reg) (x1 : Scope) : Statement (.barr x0 x1) := by
  refine of_encode rfl ?_
  have := scope_code_lt x1
  apply encSR_lt <;> omega

theorem barw (x0 : Reg) (x1 : Reg) (x2 : Scope) : Statement (.barw x0 x1 x2) := by
  refine of_encode rfl ?_
  have := scope_code_lt x2
  apply encSR_lt <;> omega

theorem bbpost (x0 : Reg) (x1 : Reg) (x2 : Scope) : Statement (.bbpost x0 x1 x2) := by
  refine of_encode rfl ?_
  have := scope_code_lt x2
  apply encSR_lt <;> omega

theorem barq (x0 : Reg) (x1 : Reg) (x2 : Scope) : Statement (.barq x0 x1 x2) := by
  refine of_encode rfl ?_
  have := scope_code_lt x2
  apply encSR_lt <;> omega

theorem pgreq (x0 : Reg) (x1 : Reg) (x2 : Bool) : Statement (.pgreq x0 x1 x2) := by
  refine of_encode rfl ?_
  have := Bool.toNat_lt x2
  apply encSR_lt <;> omega

theorem pgres (x0 : Reg) (x1 : Reg) : Statement (.pgres x0 x1) := by
  refine of_encode rfl ?_
  apply encSR_lt <;> omega

theorem probe (x0 : Reg) (x1 : Reg) (x2 : BitVec 15) : Statement (.probe x0 x1 x2) := by
  refine of_encode rfl ?_
  apply encS_lt <;> omega

theorem svc (x0 : BitVec 20) : Statement (.svc x0) := by
  refine of_encode rfl ?_
  apply encSU_lt <;> omega

theorem tret : Statement .tret := by
  refine of_encode rfl ?_
  apply encSR_lt <;> omega

theorem csrr (x0 : Reg) (x1 : BitVec 12) : Statement (.csrr x0 x1) := by
  refine of_encode rfl ?_
  apply encS_lt <;> omega

theorem csrw (x0 : BitVec 12) (x1 : Reg) : Statement (.csrw x0 x1) := by
  refine of_encode rfl ?_
  apply encS_lt <;> omega

theorem csrset (x0 : Reg) (x1 : Reg) (x2 : BitVec 12) : Statement (.csrset x0 x1 x2) := by
  refine of_encode rfl ?_
  apply encS_lt <;> omega

theorem csrclr (x0 : Reg) (x1 : Reg) (x2 : BitVec 12) : Statement (.csrclr x0 x1 x2) := by
  refine of_encode rfl ?_
  apply encS_lt <;> omega

theorem brk (x0 : BitVec 20) : Statement (.brk x0) := by
  refine of_encode rfl ?_
  apply encSU_lt <;> omega

theorem trace (x0 : Reg) (x1 : BitVec 20) : Statement (.trace x0 x1) := by
  refine of_encode rfl ?_
  apply encSU_lt <;> omega

theorem vview (x0 : Sync) (x1 : Fin 16) : Statement (.vview x0 x1) := by
  refine of_encode rfl ?_
  apply encV_lt <;> omega

theorem vpset (x0 : Sync) (x1 : Fin 8) : Statement (.vpset x0 x1) := by
  refine of_encode rfl ?_
  apply encV_lt <;> omega

theorem vld (x0 : VMod) (x1 : Fin 16) (x2 : Fin 8) (x3 : Fin 8) : Statement (.vld x0 x1 x2 x3) := by
  refine of_encode rfl ?_
  apply encVM_lt <;> first | omega | (split <;> omega)

theorem vst (x0 : Sync) (x1 : Fin 8) (x2 : Fin 8) (x3 : Fin 16) : Statement (.vst x0 x1 x2 x3) := by
  refine of_encode rfl ?_
  apply encV_lt <;> omega

theorem vmov (x0 : VMod) (x1 : Fin 16) (x2 : Src) : Statement (.vmov x0 x1 x2) := by
  refine of_encode rfl ?_
  have := src_code_lt x2
  apply encVM_lt <;> omega

theorem vadd (x0 : VMod) (x1 : Fin 16) (x2 : Src) (x3 : Src) : Statement (.vadd x0 x1 x2 x3) := by
  refine of_encode rfl ?_
  have := src_code_lt x2
  have := src_code_lt x3
  apply encVM_lt <;> omega

theorem vsub (x0 : VMod) (x1 : Fin 16) (x2 : Src) (x3 : Src) : Statement (.vsub x0 x1 x2 x3) := by
  refine of_encode rfl ?_
  have := src_code_lt x2
  have := src_code_lt x3
  apply encVM_lt <;> omega

theorem vmul (x0 : VMod) (x1 : Fin 16) (x2 : Src) (x3 : Src) : Statement (.vmul x0 x1 x2 x3) := by
  refine of_encode rfl ?_
  have := src_code_lt x2
  have := src_code_lt x3
  apply encVM_lt <;> omega

theorem vfma (x0 : VMod) (x1 : Fin 16) (x2 : Src) (x3 : Src) : Statement (.vfma x0 x1 x2 x3) := by
  refine of_encode rfl ?_
  have := src_code_lt x2
  have := src_code_lt x3
  apply encVM_lt <;> omega

theorem vmin (x0 : VMod) (x1 : Fin 16) (x2 : Src) (x3 : Src) : Statement (.vmin x0 x1 x2 x3) := by
  refine of_encode rfl ?_
  have := src_code_lt x2
  have := src_code_lt x3
  apply encVM_lt <;> omega

theorem vmax (x0 : VMod) (x1 : Fin 16) (x2 : Src) (x3 : Src) : Statement (.vmax x0 x1 x2 x3) := by
  refine of_encode rfl ?_
  have := src_code_lt x2
  have := src_code_lt x3
  apply encVM_lt <;> omega

theorem vabs (x0 : VMod) (x1 : Fin 16) (x2 : Src) : Statement (.vabs x0 x1 x2) := by
  refine of_encode rfl ?_
  have := src_code_lt x2
  apply encVM_lt <;> omega

theorem vneg (x0 : VMod) (x1 : Fin 16) (x2 : Src) : Statement (.vneg x0 x1 x2) := by
  refine of_encode rfl ?_
  have := src_code_lt x2
  apply encVM_lt <;> omega

theorem vrcp (x0 : VMod) (x1 : Fin 16) (x2 : Src) : Statement (.vrcp x0 x1 x2) := by
  refine of_encode rfl ?_
  have := src_code_lt x2
  apply encVM_lt <;> omega

theorem vrsq (x0 : VMod) (x1 : Fin 16) (x2 : Src) : Statement (.vrsq x0 x1 x2) := by
  refine of_encode rfl ?_
  have := src_code_lt x2
  apply encVM_lt <;> omega

theorem vsqrt (x0 : VMod) (x1 : Fin 16) (x2 : Src) : Statement (.vsqrt x0 x1 x2) := by
  refine of_encode rfl ?_
  have := src_code_lt x2
  apply encVM_lt <;> omega

theorem vexp2 (x0 : VMod) (x1 : Fin 16) (x2 : Src) : Statement (.vexp2 x0 x1 x2) := by
  refine of_encode rfl ?_
  have := src_code_lt x2
  apply encVM_lt <;> omega

theorem vlog2 (x0 : VMod) (x1 : Fin 16) (x2 : Src) : Statement (.vlog2 x0 x1 x2) := by
  refine of_encode rfl ?_
  have := src_code_lt x2
  apply encVM_lt <;> omega

theorem vtanh (x0 : VMod) (x1 : Fin 16) (x2 : Src) : Statement (.vtanh x0 x1 x2) := by
  refine of_encode rfl ?_
  have := src_code_lt x2
  apply encVM_lt <;> omega

theorem vcmp (x0 : Sync) (x1 : Fin 8) (x2 : Bool) (x3 : Bool) (x4 : VPred) (x5 : Fin 8) (x6 : Src) (x7 : Src) : Statement (.vcmp x0 x1 x2 x3 x4 x5 x6 x7) := by
  refine of_encode rfl ?_
  have := Bool.toNat_lt x2
  have := Bool.toNat_lt x3
  have := pred_code_lt x4
  have := src_code_lt x6
  have := src_code_lt x7
  apply encV_lt <;> omega

theorem vsel (x0 : Sync) (x1 : Fin 8) (x2 : Bool) (x3 : Bool) (x4 : Fin 16) (x5 : Src) (x6 : Src) : Statement (.vsel x0 x1 x2 x3 x4 x5 x6) := by
  refine of_encode rfl ?_
  have := Bool.toNat_lt x2
  have := Bool.toNat_lt x3
  have := src_code_lt x5
  have := src_code_lt x6
  apply encV_lt <;> omega

theorem vmlog (x0 : Sync) (x1 : MaskOp) (x2 : Fin 8) (x3 : Fin 8) (x4 : Fin 8) : Statement (.vmlog x0 x1 x2 x3 x4) := by
  refine of_encode rfl ?_
  have := maskop_code_lt x1
  apply encV_lt <;> omega

theorem vmset (x0 : Sync) (x1 : MaskPat) (x2 : Fin 8) (x3 : Fin 16) : Statement (.vmset x0 x1 x2 x3) := by
  refine of_encode rfl ?_
  have := maskpat_code_lt x1
  apply encV_lt <;> omega

theorem vmcnt (x0 : Sync) (x1 : Fin 8) (x2 : Option (Fin 16)) : Statement (.vmcnt x0 x1 x2) := by
  refine of_encode rfl ?_
  cases x2 with
  | none => apply encV_lt <;> (try simp only) <;> omega
  | some v => apply encV_lt <;> (try simp only) <;> omega

theorem vcvt (x0 : VMod) (x1 : Bool) (x2 : Fin 16) (x3 : Src) : Statement (.vcvt x0 x1 x2 x3) := by
  refine of_encode rfl ?_
  have := Bool.toNat_lt x1
  have := src_code_lt x3
  apply encVM_lt <;> omega

theorem vrnd (x0 : VMod) (x1 : Fin 16) (x2 : Src) : Statement (.vrnd x0 x1 x2) := by
  refine of_encode rfl ?_
  have := src_code_lt x2
  apply encVM_lt <;> omega

theorem vred (x0 : VMod) (x1 : Axis) (x2 : Fin 16) (x3 : Src) : Statement (.vred x0 x1 x2 x3) := by
  refine of_encode rfl ?_
  have := axis_code_lt x1
  have := src_code_lt x3
  apply encVM_lt <;> omega

theorem vscan (x0 : VMod) (x1 : Axis) (x2 : Fin 16) (x3 : Src) : Statement (.vscan x0 x1 x2 x3) := by
  refine of_encode rfl ?_
  have := axis_code_lt x1
  have := src_code_lt x3
  apply encVM_lt <;> omega

theorem vtrn (x0 : VMod) (x1 : Fin 16) (x2 : Src) : Statement (.vtrn x0 x1 x2) := by
  refine of_encode rfl ?_
  have := src_code_lt x2
  apply encVM_lt <;> omega

theorem vshf (x0 : VMod) (x1 : Axis) (x2 : Fin 16) (x3 : Src) (x4 : Fin 16) : Statement (.vshf x0 x1 x2 x3 x4) := by
  refine of_encode rfl ?_
  have := axis_code_lt x1
  have := src_code_lt x3
  apply encVM_lt <;> omega

theorem vxs (x0 : Sync) (x1 : Fin 16) : Statement (.vxs x0 x1) := by
  refine of_encode rfl ?_
  apply encV_lt <;> omega

theorem vnop (x0 : Sync) : Statement (.vnop x0) := by
  refine of_encode rfl ?_
  apply encV_lt <;> omega

theorem vend (x0 : Sync) : Statement (.vend x0) := by
  refine of_encode rfl ?_
  apply encV_lt <;> omega

theorem mnest (x0 : Sync) (x1 : Fin 6) (x2 : BitVec 17) : Statement (.mnest x0 x1 x2) := by
  refine of_encode rfl ?_
  apply encMX_lt <;> omega

theorem mbase (x0 : Sync) (x1 : ABCSel) (x2 : BitVec 17) : Statement (.mbase x0 x1 x2) := by
  refine of_encode rfl ?_
  have := abcsel_code_lt x1
  apply encMX_lt <;> omega

theorem mmask (x0 : Sync) (x1 : BitVec 17) : Statement (.mmask x0 x1) := by
  refine of_encode rfl ?_
  apply encMX_lt <;> omega

theorem mfmt (x0 : Sync) (x1 : MFormat) (x2 : MFormat) : Statement (.mfmt x0 x1 x2) := by
  refine of_encode rfl ?_
  have := mformat_code_lt x1
  have := mformat_code_lt x2
  apply encMX_lt <;> omega

theorem mbmapOn (x0 : Sync) (x1 : ABSel) (x2 : BitVec 17) : Statement (.mbmapOn x0 x1 x2) := by
  refine of_encode rfl ?_
  have := absel_code_lt x1
  apply encMX_lt <;> omega

theorem mbmapOff (x0 : Sync) (x1 : ABSel) : Statement (.mbmapOff x0 x1) := by
  refine of_encode rfl ?_
  have := absel_code_lt x1
  apply encMX_lt <;> omega

theorem mcode (x0 : Sync) (x1 : ABSel) (x2 : Fin 8) : Statement (.mcode x0 x1 x2) := by
  refine of_encode rfl ?_
  have := absel_code_lt x1
  apply encMX_lt <;> omega

theorem mldb (x0 : Sync) (x1 : BitVec 4) (x2 : BitVec 17) : Statement (.mldb x0 x1 x2) := by
  refine of_encode rfl ?_
  apply encMX_lt <;> omega

theorem macc (x0 : Sync) (x1 : Fin 3) : Statement (.macc x0 x1) := by
  refine of_encode rfl ?_
  apply encMX_lt <;> omega

theorem maccClear (x0 : Sync) (x1 : Fin 3) : Statement (.maccClear x0 x1) := by
  refine of_encode rfl ?_
  apply encMX_lt <;> omega

theorem mgo (x0 : Sync) (x1 : Fin 6) : Statement (.mgo x0 x1) := by
  refine of_encode rfl ?_
  apply encMX_lt <;> omega

theorem mdrn (x0 : Sync) (x1 : Fin 3) (x2 : BitVec 17) : Statement (.mdrn x0 x1 x2) := by
  refine of_encode rfl ?_
  apply encMX_lt <;> omega

theorem mnop (x0 : Sync) : Statement (.mnop x0) := by
  refine of_encode rfl ?_
  apply encMX_lt <;> omega

theorem mend (x0 : Sync) : Statement (.mend x0) := by
  refine of_encode rfl ?_
  apply encMX_lt <;> omega

theorem xstg (x0 : Sync) (x1 : Byte) : Statement (.xstg x0 x1) := by
  refine of_encode rfl ?_
  apply encMX_lt <;> omega

theorem xcpy (x0 : Sync) (x1 : Fin 8) (x2 : BitVec 17) : Statement (.xcpy x0 x1 x2) := by
  refine of_encode rfl ?_
  apply encMX_lt <;> omega

theorem xgth (x0 : Sync) (x1 : Fin 8) (x2 : BitVec 17) : Statement (.xgth x0 x1 x2) := by
  refine of_encode rfl ?_
  apply encMX_lt <;> omega

theorem xsct (x0 : Sync) (x1 : Fin 8) (x2 : BitVec 17) : Statement (.xsct x0 x1 x2) := by
  refine of_encode rfl ?_
  apply encMX_lt <;> omega

theorem xfill (x0 : Sync) (x1 : Fin 8) (x2 : BitVec 17) : Statement (.xfill x0 x1 x2) := by
  refine of_encode rfl ?_
  apply encMX_lt <;> omega

theorem xwid (x0 : Sync) (x1 : Fin 8) : Statement (.xwid x0 x1) := by
  refine of_encode rfl ?_
  apply encMX_lt <;> omega

theorem xwidRec (x0 : Sync) (x1 : Fin 8) (x2 : BitVec 17) : Statement (.xwidRec x0 x1 x2) := by
  refine of_encode rfl ?_
  apply encMX_lt <;> omega

theorem xcbConfig (x0 : Sync) (x1 : Fin 16) (x2 : BitVec 17) : Statement (.xcbConfig x0 x1 x2) := by
  refine of_encode rfl ?_
  apply encMX_lt <;> omega

theorem xcbReset (x0 : Sync) (x1 : Fin 16) : Statement (.xcbReset x0 x1) := by
  refine of_encode rfl ?_
  apply encMX_lt <;> omega

theorem xnop (x0 : Sync) : Statement (.xnop x0) := by
  refine of_encode rfl ?_
  apply encMX_lt <;> omega

theorem xend (x0 : Sync) : Statement (.xend x0) := by
  refine of_encode rfl ?_
  apply encMX_lt <;> omega

theorem trapEntry (x0 : CoreId) (x1 : Eng) (x2 : Cause) (x3 : W64) (x4 : W64) : Statement (.trapEntry x0 x1 x2 x3 x4) := of_none rfl

theorem faultRecord (x0 : CtxId) (x1 : Nat) (x2 : CoreId) (x3 : TrapInfo) : Statement (.faultRecord x0 x1 x2 x3) := of_none rfl

theorem preemptionRequest (x0 : CoreId) : Statement (.preemptionRequest x0) := of_none rfl

theorem coreReleased (x0 : CoreId) : Statement (.coreReleased x0) := of_none rfl

theorem spinRecheck (x0 : CoreId) : Statement (.spinRecheck x0) := of_none rfl

theorem tokenPopWake (x0 : CoreId) (x1 : Eng) : Statement (.tokenPopWake x0 x1) := of_none rfl

theorem tokenPushWake (x0 : CoreId) (x1 : Eng) : Statement (.tokenPushWake x0 x1) := of_none rfl

theorem scalarQueueWake (x0 : CoreId) (x1 : Eng) : Statement (.scalarQueueWake x0 x1) := of_none rfl

theorem fifoWake (x0 : CoreId) (x1 : Eng) : Statement (.fifoWake x0 x1) := of_none rfl

theorem eidleWake (x0 : CoreId) : Statement (.eidleWake x0) := of_none rfl

theorem blockFillDone (x0 : CoreId) (x1 : Nat) : Statement (.blockFillDone x0 x1) := of_none rfl

theorem kstepEnd (x0 : CoreId) (x1 : Fin 16) : Statement (.kstepEnd x0 x1) := of_none rfl

theorem throttleIdleEnd (x0 : CoreId) (x1 : Fin 16) : Statement (.throttleIdleEnd x0 x1) := of_none rfl

theorem commitEnd (x0 : CoreId) : Statement (.commitEnd x0) := of_none rfl

theorem rekeyDone (x0 : CtxId) : Statement (.rekeyDone x0) := of_none rfl

theorem transferGranule (x0 : CoreId) (x1 : Fin 8) (x2 : Nat) : Statement (.transferGranule x0 x1 x2) := of_none rfl

theorem transferDone (x0 : CoreId) (x1 : Fin 8) (x2 : Nat) : Statement (.transferDone x0 x1 x2) := of_none rfl

theorem f1Result (x0 : CoreId) : Statement (.f1Result x0) := of_none rfl

theorem teardownDone (x0 : CtxId) : Statement (.teardownDone x0) := of_none rfl

theorem queueLaunch (x0 : FnId) (x1 : QId) : Statement (.queueLaunch x0 x1) := of_none rfl

theorem queueWait (x0 : FnId) (x1 : QId) : Statement (.queueWait x0 x1) := of_none rfl

theorem queueSignal (x0 : FnId) (x1 : QId) : Statement (.queueSignal x0 x1) := of_none rfl

theorem queueCond (x0 : FnId) (x1 : QId) : Statement (.queueCond x0 x1) := of_none rfl

theorem queueLoop (x0 : FnId) (x1 : QId) : Statement (.queueLoop x0 x1) := of_none rfl

theorem queueSwitch (x0 : FnId) (x1 : QId) : Statement (.queueSwitch x0 x1) := of_none rfl

theorem waitRecheck (x0 : FnId) (x1 : QId) : Statement (.waitRecheck x0 x1) := of_none rfl

theorem waitTimeout (x0 : FnId) (x1 : QId) : Statement (.waitTimeout x0 x1) := of_none rfl

theorem completionEntryPost (x0 : FnId) (x1 : QId) : Statement (.completionEntryPost x0 x1) := of_none rfl

theorem dependenceCheck (x0 : Nat) : Statement (.dependenceCheck x0) := of_none rfl

theorem placementEval (x0 : DieId) : Statement (.placementEval x0) := of_none rfl

theorem steal (x0 : DieId) : Statement (.steal x0) := of_none rfl

theorem teamSwap (x0 : DieId) : Statement (.teamSwap x0) := of_none rfl

theorem instanceComplete (x0 : CoreId) : Statement (.instanceComplete x0) := of_none rfl

theorem launchRetire (x0 : Nat) : Statement (.launchRetire x0) := of_none rfl

theorem boostDecay : Statement .boostDecay := of_none rfl

theorem fairnessBucket : Statement .fairnessBucket := of_none rfl

theorem landingReplay (x0 : CoreId) : Statement (.landingReplay x0) := of_none rfl

theorem barrierArrivalForward (x0 : Nat) (x1 : DieId) : Statement (.barrierArrivalForward x0 x1) := of_none rfl

theorem barrierRelease (x0 : CoreId) (x1 : Nat) : Statement (.barrierRelease x0 x1) := of_none rfl

theorem invalComplete (x0 : FnId) : Statement (.invalComplete x0) := of_none rfl

theorem asidScrubDone (x0 : BitVec 16) : Statement (.asidScrubDone x0) := of_none rfl

theorem countMoveDone (x0 : CtxId) (x1 : Nat) : Statement (.countMoveDone x0 x1) := of_none rfl

theorem pullDone (x0 : CtxId) (x1 : Nat) : Statement (.pullDone x0 x1) := of_none rfl

theorem pullTimeout (x0 : CtxId) (x1 : Nat) : Statement (.pullTimeout x0 x1) := of_none rfl

theorem packetLinkfail (x0 : Packet) : Statement (.packetLinkfail x0) := of_none rfl

theorem put (x0 : CoreId) : Statement (.put x0) := of_none rfl

theorem get (x0 : CoreId) : Statement (.get x0) := of_none rfl

theorem putsig (x0 : CoreId) : Statement (.putsig x0) := of_none rfl

theorem ramo (x0 : CoreId) : Statement (.ramo x0) := of_none rfl

theorem coll (x0 : CoreId) : Statement (.coll x0) := of_none rfl

theorem sred (x0 : CoreId) : Statement (.sred x0) := of_none rfl

theorem dpost (x0 : CoreId) : Statement (.dpost x0) := of_none rfl

theorem xrep (x0 : CoreId) : Statement (.xrep x0) := of_none rfl

theorem pktWrite (x0 : Packet) : Statement (.pktWrite x0) := of_none rfl

theorem readreq (x0 : Packet) : Statement (.readreq x0) := of_none rfl

theorem readresp (x0 : Packet) : Statement (.readresp x0) := of_none rfl

theorem pktSig (x0 : Packet) : Statement (.pktSig x0) := of_none rfl

theorem pktAmo (x0 : Packet) : Statement (.pktAmo x0) := of_none rfl

theorem amoresp (x0 : Packet) : Statement (.amoresp x0) := of_none rfl

theorem ack (x0 : Packet) : Statement (.ack x0) := of_none rfl

theorem frag (x0 : Packet) : Statement (.frag x0) := of_none rfl

theorem sredc (x0 : Packet) : Statement (.sredc x0) := of_none rfl

theorem sredr (x0 : Packet) : Statement (.sredr x0) := of_none rfl

theorem mgmt (x0 : Packet) : Statement (.mgmt x0) := of_none rfl

theorem sredSlotTimeout (x0 : Byte) (x1 : BitVec 12) : Statement (.sredSlotTimeout x0 x1) := of_none rfl

theorem demand (x0 : Packet) : Statement (.demand x0) := of_none rfl

theorem hist (x0 : Packet) : Statement (.hist x0) := of_none rfl

theorem split (x0 : Packet) : Statement (.split x0) := of_none rfl

theorem grant (x0 : Packet) : Statement (.grant x0) := of_none rfl

theorem xdat (x0 : Packet) : Statement (.xdat x0) := of_none rfl

theorem xmark (x0 : Packet) : Statement (.xmark x0) := of_none rfl

theorem xack (x0 : Packet) : Statement (.xack x0) := of_none rfl

theorem pdone (x0 : Packet) : Statement (.pdone x0) := of_none rfl

theorem final (x0 : Packet) : Statement (.final x0) := of_none rfl

theorem heart (x0 : Packet) : Statement (.heart x0) := of_none rfl

theorem heartbeatTimer : Statement .heartbeatTimer := of_none rfl

theorem mirror (x0 : Packet) : Statement (.mirror x0) := of_none rfl

theorem standbyTakeover : Statement .standbyTakeover := of_none rfl

theorem takeover (x0 : Packet) : Statement (.takeover x0) := of_none rfl

theorem exchState (x0 : Packet) : Statement (.exchState x0) := of_none rfl

theorem abort (x0 : Packet) : Statement (.abort x0) := of_none rfl

theorem collectTimeout (x0 : Nat) : Statement (.collectTimeout x0) := of_none rfl

theorem stateTimeout (x0 : Nat) : Statement (.stateTimeout x0) := of_none rfl

theorem arbiterSilenceTimeout (x0 : Nat) : Statement (.arbiterSilenceTimeout x0) := of_none rfl

theorem selfRefreshEntry (x0 : Fin 12) (x1 : Fin 384) : Statement (.selfRefreshEntry x0 x1) := of_none rfl

theorem selfRefreshExit (x0 : Fin 12) (x1 : Fin 384) : Statement (.selfRefreshExit x0 x1) := of_none rfl

theorem stopLanded (x0 : CoreId) : Statement (.stopLanded x0) := of_none rfl

theorem stepEnd (x0 : CoreId) : Statement (.stepEnd x0) := of_none rfl

theorem energyWindowEnd : Statement .energyWindowEnd := of_none rfl

theorem build (x0 : FnId) (x1 : CtxId) : Statement (.build x0 x1) := of_none rfl

theorem ctxBind (x0 : FnId) (x1 : CtxId) : Statement (.ctxBind x0 x1) := of_none rfl

theorem keyload (x0 : FnId) (x1 : CtxId) : Statement (.keyload x0 x1) := of_none rfl

theorem suspend (x0 : FnId) (x1 : CtxId) : Statement (.suspend x0 x1) := of_none rfl

theorem ctxResume (x0 : FnId) (x1 : CtxId) : Statement (.ctxResume x0 x1) := of_none rfl

theorem spill (x0 : FnId) (x1 : CtxId) : Statement (.spill x0 x1) := of_none rfl

theorem iresume (x0 : FnId) (x1 : CtxId) : Statement (.iresume x0 x1) := of_none rfl

theorem ikill (x0 : FnId) (x1 : CtxId) : Statement (.ikill x0 x1) := of_none rfl

theorem migrate (x0 : FnId) (x1 : CtxId) : Statement (.migrate x0 x1) := of_none rfl

theorem teardown (x0 : FnId) (x1 : CtxId) : Statement (.teardown x0 x1) := of_none rfl

theorem release (x0 : FnId) (x1 : CtxId) : Statement (.release x0 x1) := of_none rfl

theorem migrateAck (x0 : CtxId) : Statement (.migrateAck x0) := of_none rfl

theorem arm (x0 : FnId) (x1 : QId) : Statement (.arm x0 x1) := of_none rfl

theorem quiesce (x0 : FnId) (x1 : QId) : Statement (.quiesce x0 x1) := of_none rfl

theorem queueReset (x0 : FnId) (x1 : QId) : Statement (.queueReset x0 x1) := of_none rfl

theorem widxWrite (x0 : FnId) (x1 : QId) (x2 : W64) : Statement (.widxWrite x0 x1 x2) := of_none rfl

theorem inval (x0 : FnId) (x1 : CtxId) : Statement (.inval x0 x1) := of_none rfl

theorem pcomplete (x0 : FnId) (x1 : CtxId) : Statement (.pcomplete x0 x1) := of_none rfl

theorem pgRetire (x0 : FnId) : Statement (.pgRetire x0) := of_none rfl

theorem linkDown (x0 : LinkId) : Statement (.linkDown x0) := of_none rfl

theorem retrain (x0 : LinkId) : Statement (.retrain x0) := of_none rfl

theorem linkTrainingEnd (x0 : LinkId) (x1 : Training) (x2 : Byte) (x3 : BitVec 6) : Statement (.linkTrainingEnd x0 x1 x2 x3) := of_none rfl

theorem linkReplay (x0 : LinkId) : Statement (.linkReplay x0) := of_none rfl

theorem replayAccepted (x0 : LinkId) : Statement (.replayAccepted x0) := of_none rfl

theorem reserve : Statement .reserve := of_none rfl

theorem free : Statement .free := of_none rfl

theorem layerSensorRead (x0 : Fin 12) (x1 : Fin 16) (x2 : Nat) : Statement (.layerSensorRead x0 x1 x2) := of_none rfl

theorem refresh (x0 : Fin 12) (x1 : Fin 384) : Statement (.refresh x0 x1) := of_none rfl

theorem dramRequest (x0 : Fin 12) (x1 : Nat) (x2 : Nat) (x3 : Nat) (x4 : Bool) (x5 : Requester) (x6 : EccResult) : Statement (.dramRequest x0 x1 x2 x3 x4 x5 x6) := of_none rfl

theorem hotRowWindowEnd (x0 : Fin 12) : Statement (.hotRowWindowEnd x0) := of_none rfl

theorem patrolScrub (x0 : Fin 12) (x1 : Nat) (x2 : EccResult) : Statement (.patrolScrub x0 x1 x2) := of_none rfl

theorem stop (x0 : FnId) : Statement (.stop x0) := of_none rfl

theorem go (x0 : FnId) : Statement (.go x0) := of_none rfl

theorem step (x0 : FnId) : Statement (.step x0) := of_none rfl

theorem settle (x0 : FnId) : Statement (.settle x0) := of_none rfl

theorem rdstate (x0 : FnId) : Statement (.rdstate x0) := of_none rfl

theorem wrstate (x0 : FnId) : Statement (.wrstate x0) := of_none rfl

theorem watch (x0 : FnId) : Statement (.watch x0) := of_none rfl

theorem trccfg (x0 : FnId) : Statement (.trccfg x0) := of_none rfl

theorem wlcfg (x0 : FnId) : Statement (.wlcfg x0) := of_none rfl

theorem wsnap (x0 : FnId) : Statement (.wsnap x0) := of_none rfl

theorem attach (x0 : FnId) : Statement (.attach x0) := of_none rfl

theorem attest (x0 : FnId) : Statement (.attest x0) := of_none rfl

theorem getcert (x0 : FnId) : Statement (.getcert x0) := of_none rfl

theorem hlthRetire (x0 : CoreId) : Statement (.hlthRetire x0) := of_none rfl

theorem parityReplay (x0 : CoreId) (x1 : Bool) (x2 : Bool) : Statement (.parityReplay x0 x1 x2) := of_none rfl

theorem lupinSample (x0 : CoreId) (x1 : Nat) : Statement (.lupinSample x0 x1) := of_none rfl

theorem lupinPlan (x0 : CoreId) : Statement (.lupinPlan x0) := of_none rfl

theorem jtagBypass : Statement .jtagBypass := of_none rfl

theorem jtagIdcode : Statement .jtagIdcode := of_none rfl

theorem jtagSamplePreload : Statement .jtagSamplePreload := of_none rfl

theorem jtagExtest : Statement .jtagExtest := of_none rfl

theorem jtagPrivate (x0 : JtagPrivate) : Statement (.jtagPrivate x0) := of_none rfl

theorem modEnAssert (x0 : Bool) : Statement (.modEnAssert x0) := of_none rfl

theorem powerOff : Statement .powerOff := of_none rfl

theorem cxlFundamentalReset : Statement .cxlFundamentalReset := of_none rfl

theorem bootVerification (x0 : BootInput) : Statement (.bootVerification x0) := of_none rfl

theorem powerWindowEnd (x0 : Nat) : Statement (.powerWindowEnd x0) := of_none rfl

theorem thermalSensorRead (x0 : DieId) (x1 : Nat) : Statement (.thermalSensorRead x0 x1) := of_none rfl

theorem powerOverrunStop (x0 : Nat) (x1 : Nat) : Statement (.powerOverrunStop x0 x1) := of_none rfl

theorem moduleResume (x0 : List Nat) (x1 : List Nat) (x2 : Nat) (x3 : Nat) : Statement (.moduleResume x0 x1 x2 x3) := of_none rfl

theorem cxlMemAccess (x0 : Nat) (x1 : Bool) (x2 : List Byte) : Statement (.cxlMemAccess x0 x1 x2) := of_none rfl

theorem registerWrite (x0 : FnId) (x1 : Level) (x2 : Nat) (x3 : W64) : Statement (.registerWrite x0 x1 x2 x3) := of_none rfl

end Sys2Proof.Laws.OneWord
end

