-- ==== Sys2Proof/Laws/State.lean ====
section
/-! SUPPORT. What each update of the state leaves unchanged, field by field, and what it writes. -/

namespace Sys2Proof.Machine
open Sys2Proof

/-! ## Vectors -/

@[simp] theorem vset_get_self {α : Type} {n : Nat} (v : Vector α n) (i : Fin n) (x : α) : (vset v i x).get i = x := by
  simp [vset, Vector.get_eq_getElem]

theorem vset_get_of_ne {α : Type} {n : Nat} (v : Vector α n) {i j : Fin n} (x : α) (h : j ≠ i) :
    (vset v i x).get j = v.get j := by
  have h' : i.val ≠ j.val := fun e => h (Fin.ext e.symm)
  have := Vector.getElem_set_ne (xs := v) (x := x) (hi := i.isLt) (hj := j.isLt) h'
  simpa [vset, Vector.get_eq_getElem] using this

/-! ## What the updates of Mach write -/

@[simp] theorem Mach.setCore_core (m : Mach) (c : CoreId) (x : Core) : (m.setCore c x).core c = x := by
  simp [Mach.core, Mach.setCore]

theorem Mach.setCore_core_of_ne (m : Mach) {c d : CoreId} (x : Core) (h : d ≠ c) : (m.setCore c x).core d = m.core d := by
  simp [Mach.core, Mach.setCore, vset_get_of_ne _ _ h]

theorem Mach.setInst_eq (m : Mach) (c : CoreId) (x : Inst) : m.setInst c x = m.setCore c { m.core c with inst := x } := rfl
theorem Mach.modInst_eq (m : Mach) (c : CoreId) (f : Inst → Inst) : m.modInst c f = m.setInst c (f (m.inst c)) := rfl
theorem Mach.modSeq_eq (m : Mach) (c : CoreId) (f : Seq → Seq) :
    m.modSeq c f = m.modInst c fun i => { i with s := f i.s } := rfl

@[simp] theorem Mach.setInst_inst (m : Mach) (c : CoreId) (x : Inst) : (m.setInst c x).inst c = x := by
  simp [Mach.setInst_eq, Mach.inst]

@[simp] theorem Mach.modInst_inst (m : Mach) (c : CoreId) (f : Inst → Inst) : (m.modInst c f).inst c = f (m.inst c) := by
  simp [Mach.modInst_eq]

@[simp] theorem Mach.modSeq_inst (m : Mach) (c : CoreId) (f : Seq → Seq) :
    (m.modSeq c f).inst c = { m.inst c with s := f (m.inst c).s } := by simp [Mach.modSeq_eq]

theorem Mach.modInst_core_of_ne (m : Mach) {c d : CoreId} (f : Inst → Inst) (h : d ≠ c) :
    (m.modInst c f).core d = m.core d := by
  simp [Mach.modInst_eq, Mach.setInst_eq, Mach.setCore_core_of_ne _ _ h]

theorem Mach.modSeq_core_of_ne (m : Mach) {c d : CoreId} (f : Seq → Seq) (h : d ≠ c) :
    (m.modSeq c f).core d = m.core d := Mach.modInst_core_of_ne m _ h

theorem alookup_aset_self {α : Type} (l : List (Nat × α)) (k : Nat) (v : α) : alookup (aset l k v) k = some v := by
  induction l with
  | nil => simp [aset, alookup]
  | cons h t ih => by_cases e : h.1 = k <;> simp [aset, alookup, e, ih]

theorem alookup_aset_of_ne {α : Type} (l : List (Nat × α)) {k j : Nat} (v : α) (h : j ≠ k) :
    alookup (aset l k v) j = alookup l j := by
  induction l with
  | nil => simp [aset, alookup, Ne.symm h]
  | cons x t ih =>
    obtain ⟨a, y⟩ := x
    by_cases e : a = k
    · simp [aset, alookup, e, Ne.symm h]
    · simp [aset, alookup, e, ih]

@[simp] theorem Mach.setCtx_ctx (m : Mach) (n : Nat) (x : Ctx) : (m.setCtx n x).ctx n = x := by
  simp [Mach.ctx, Mach.setCtx, alookup_aset_self]

theorem Mach.setCtx_ctx_of_ne (m : Mach) {n k : Nat} (x : Ctx) (h : k ≠ n) : (m.setCtx n x).ctx k = m.ctx k := by
  simp [Mach.ctx, Mach.setCtx, alookup_aset_of_ne _ _ h]

@[simp] theorem Mach.modCtx_ctx (m : Mach) (n : Nat) (f : Ctx → Ctx) : (m.modCtx n f).ctx n = f (m.ctx n) := by
  simp [Mach.modCtx]

@[simp] theorem Mach.setFn_fn (m : Mach) (f : FnId) (x : FnRegs) : (m.setFn f x).fn f = x := by simp [Mach.fn, Mach.setFn]

theorem Mach.setFn_fn_of_ne (m : Mach) {f g : FnId} (x : FnRegs) (h : g ≠ f) : (m.setFn f x).fn g = m.fn g := by
  simp [Mach.fn, Mach.setFn, vset_get_of_ne _ _ h]

@[simp] theorem Mach.setQueue_queue (m : Mach) (f : FnId) (q : Nat) (x : Queue) : (m.setQueue f q x).queue f q = x := by
  simp [Mach.queue, Mach.setQueue, alookup_aset_self]

@[simp] theorem Mach.setDie_die (m : Mach) (d : DieId) (x : Die) : (m.setDie d x).die d = x := by
  simp [Mach.die, Mach.setDie]

@[simp] theorem Mach.post_agenda (m : Mach) (l : List Instr) : (m.post l).agenda = m.agenda ++ l := rfl
@[simp] theorem Mach.timer_timers (m : Mach) (n : Nat) (e : Instr) :
    (m.timer n e).timers = m.timers ++ [(m.cycle + n, e)] := rfl
@[simp] theorem Mach.store_mem (m : Mach) (k : Nat) (l : List Byte) : (m.store k l).mem = cellsWrite m.mem k l := rfl
@[simp] theorem Mach.storeWord_mem (m : Mach) (k v : Nat) : (m.storeWord k v).mem = cellsWrite m.mem k (bytesOf 8 v) := rfl

/-! ## What the updates of Mach leave -/

/-! ### Mach.setCore -/

@[simp] theorem Mach.setCore_agenda (m : Mach) (c : CoreId) (x : Core) : (m.setCore c x).agenda = m.agenda := rfl
@[simp] theorem Mach.setCore_timers (m : Mach) (c : CoreId) (x : Core) : (m.setCore c x).timers = m.timers := rfl
@[simp] theorem Mach.setCore_cur (m : Mach) (c : CoreId) (x : Core) : (m.setCore c x).cur = m.cur := rfl
@[simp] theorem Mach.setCore_agent (m : Mach) (c : CoreId) (x : Core) : (m.setCore c x).agent = m.agent := rfl
@[simp] theorem Mach.setCore_saTurn (m : Mach) (c : CoreId) (x : Core) : (m.setCore c x).saTurn = m.saTurn := rfl
@[simp] theorem Mach.setCore_tick (m : Mach) (c : CoreId) (x : Core) : (m.setCore c x).tick = m.tick := rfl
@[simp] theorem Mach.setCore_cycle (m : Mach) (c : CoreId) (x : Core) : (m.setCore c x).cycle = m.cycle := rfl
@[simp] theorem Mach.setCore_mem (m : Mach) (c : CoreId) (x : Core) : (m.setCore c x).mem = m.mem := rfl
@[simp] theorem Mach.setCore_poison (m : Mach) (c : CoreId) (x : Core) : (m.setCore c x).poison = m.poison := rfl
@[simp] theorem Mach.setCore_images (m : Mach) (c : CoreId) (x : Core) : (m.setCore c x).images = m.images := rfl
@[simp] theorem Mach.setCore_ctxs (m : Mach) (c : CoreId) (x : Core) : (m.setCore c x).ctxs = m.ctxs := rfl
@[simp] theorem Mach.setCore_fns (m : Mach) (c : CoreId) (x : Core) : (m.setCore c x).fns = m.fns := rfl
@[simp] theorem Mach.setCore_queues (m : Mach) (c : CoreId) (x : Core) : (m.setCore c x).queues = m.queues := rfl
@[simp] theorem Mach.setCore_launches (m : Mach) (c : CoreId) (x : Core) : (m.setCore c x).launches = m.launches := rfl
@[simp] theorem Mach.setCore_nextLaunch (m : Mach) (c : CoreId) (x : Core) : (m.setCore c x).nextLaunch = m.nextLaunch := rfl
@[simp] theorem Mach.setCore_rounds (m : Mach) (c : CoreId) (x : Core) : (m.setCore c x).rounds = m.rounds := rfl
@[simp] theorem Mach.setCore_nextRound (m : Mach) (c : CoreId) (x : Core) : (m.setCore c x).nextRound = m.nextRound := rfl
@[simp] theorem Mach.setCore_dies (m : Mach) (c : CoreId) (x : Core) : (m.setCore c x).dies = m.dies := rfl
@[simp] theorem Mach.setCore_moves (m : Mach) (c : CoreId) (x : Core) : (m.setCore c x).moves = m.moves := rfl
@[simp] theorem Mach.setCore_asids (m : Mach) (c : CoreId) (x : Core) : (m.setCore c x).asids = m.asids := rfl
@[simp] theorem Mach.setCore_coefs (m : Mach) (c : CoreId) (x : Core) : (m.setCore c x).coefs = m.coefs := rfl
@[simp] theorem Mach.setCore_pkg (m : Mach) (c : CoreId) (x : Core) : (m.setCore c x).pkg = m.pkg := rfl
@[simp] theorem Mach.setCore_gw (m : Mach) (c : CoreId) (x : Core) : (m.setCore c x).gw = m.gw := rfl
@[simp] theorem Mach.setCore_ucie (m : Mach) (c : CoreId) (x : Core) : (m.setCore c x).ucie = m.ucie := rfl
@[simp] theorem Mach.setCore_wire (m : Mach) (c : CoreId) (x : Core) : (m.setCore c x).wire = m.wire := rfl
@[simp] theorem Mach.setCore_unacked (m : Mach) (c : CoreId) (x : Core) : (m.setCore c x).unacked = m.unacked := rfl
@[simp] theorem Mach.setCore_seqs (m : Mach) (c : CoreId) (x : Core) : (m.setCore c x).seqs = m.seqs := rfl
@[simp] theorem Mach.setCore_consumed (m : Mach) (c : CoreId) (x : Core) : (m.setCore c x).consumed = m.consumed := rfl
@[simp] theorem Mach.setCore_heldDel (m : Mach) (c : CoreId) (x : Core) : (m.setCore c x).heldDel = m.heldDel := rfl
@[simp] theorem Mach.setCore_swRegs (m : Mach) (c : CoreId) (x : Core) : (m.setCore c x).swRegs = m.swRegs := rfl
@[simp] theorem Mach.setCore_redSlots (m : Mach) (c : CoreId) (x : Core) : (m.setCore c x).redSlots = m.redSlots := rfl
@[simp] theorem Mach.setCore_gathers (m : Mach) (c : CoreId) (x : Core) : (m.setCore c x).gathers = m.gathers := rfl
@[simp] theorem Mach.setCore_relays (m : Mach) (c : CoreId) (x : Core) : (m.setCore c x).relays = m.relays := rfl
@[simp] theorem Mach.setCore_redParts (m : Mach) (c : CoreId) (x : Core) : (m.setCore c x).redParts = m.redParts := rfl
@[simp] theorem Mach.setCore_hostWrites (m : Mach) (c : CoreId) (x : Core) : (m.setCore c x).hostWrites = m.hostWrites := rfl
@[simp] theorem Mach.setCore_exchs (m : Mach) (c : CoreId) (x : Core) : (m.setCore c x).exchs = m.exchs := rfl
@[simp] theorem Mach.setCore_hbm (m : Mach) (c : CoreId) (x : Core) : (m.setCore c x).hbm = m.hbm := rfl
@[simp] theorem Mach.setCore_health (m : Mach) (c : CoreId) (x : Core) : (m.setCore c x).health = m.health := rfl
@[simp] theorem Mach.setCore_jtagPriv (m : Mach) (c : CoreId) (x : Core) : (m.setCore c x).jtagPriv = m.jtagPriv := rfl
@[simp] theorem Mach.setCore_tap (m : Mach) (c : CoreId) (x : Core) : (m.setCore c x).tap = m.tap := rfl
@[simp] theorem Mach.setCore_irqs (m : Mach) (c : CoreId) (x : Core) : (m.setCore c x).irqs = m.irqs := rfl

/-! ### Mach.setInst -/

@[simp] theorem Mach.setInst_agenda (m : Mach) (c : CoreId) (x : Inst) : (m.setInst c x).agenda = m.agenda := rfl
@[simp] theorem Mach.setInst_timers (m : Mach) (c : CoreId) (x : Inst) : (m.setInst c x).timers = m.timers := rfl
@[simp] theorem Mach.setInst_cur (m : Mach) (c : CoreId) (x : Inst) : (m.setInst c x).cur = m.cur := rfl
@[simp] theorem Mach.setInst_agent (m : Mach) (c : CoreId) (x : Inst) : (m.setInst c x).agent = m.agent := rfl
@[simp] theorem Mach.setInst_saTurn (m : Mach) (c : CoreId) (x : Inst) : (m.setInst c x).saTurn = m.saTurn := rfl
@[simp] theorem Mach.setInst_tick (m : Mach) (c : CoreId) (x : Inst) : (m.setInst c x).tick = m.tick := rfl
@[simp] theorem Mach.setInst_cycle (m : Mach) (c : CoreId) (x : Inst) : (m.setInst c x).cycle = m.cycle := rfl
@[simp] theorem Mach.setInst_mem (m : Mach) (c : CoreId) (x : Inst) : (m.setInst c x).mem = m.mem := rfl
@[simp] theorem Mach.setInst_poison (m : Mach) (c : CoreId) (x : Inst) : (m.setInst c x).poison = m.poison := rfl
@[simp] theorem Mach.setInst_images (m : Mach) (c : CoreId) (x : Inst) : (m.setInst c x).images = m.images := rfl
@[simp] theorem Mach.setInst_ctxs (m : Mach) (c : CoreId) (x : Inst) : (m.setInst c x).ctxs = m.ctxs := rfl
@[simp] theorem Mach.setInst_fns (m : Mach) (c : CoreId) (x : Inst) : (m.setInst c x).fns = m.fns := rfl
@[simp] theorem Mach.setInst_queues (m : Mach) (c : CoreId) (x : Inst) : (m.setInst c x).queues = m.queues := rfl
@[simp] theorem Mach.setInst_launches (m : Mach) (c : CoreId) (x : Inst) : (m.setInst c x).launches = m.launches := rfl
@[simp] theorem Mach.setInst_nextLaunch (m : Mach) (c : CoreId) (x : Inst) : (m.setInst c x).nextLaunch = m.nextLaunch := rfl
@[simp] theorem Mach.setInst_rounds (m : Mach) (c : CoreId) (x : Inst) : (m.setInst c x).rounds = m.rounds := rfl
@[simp] theorem Mach.setInst_nextRound (m : Mach) (c : CoreId) (x : Inst) : (m.setInst c x).nextRound = m.nextRound := rfl
@[simp] theorem Mach.setInst_dies (m : Mach) (c : CoreId) (x : Inst) : (m.setInst c x).dies = m.dies := rfl
@[simp] theorem Mach.setInst_moves (m : Mach) (c : CoreId) (x : Inst) : (m.setInst c x).moves = m.moves := rfl
@[simp] theorem Mach.setInst_asids (m : Mach) (c : CoreId) (x : Inst) : (m.setInst c x).asids = m.asids := rfl
@[simp] theorem Mach.setInst_coefs (m : Mach) (c : CoreId) (x : Inst) : (m.setInst c x).coefs = m.coefs := rfl
@[simp] theorem Mach.setInst_pkg (m : Mach) (c : CoreId) (x : Inst) : (m.setInst c x).pkg = m.pkg := rfl
@[simp] theorem Mach.setInst_gw (m : Mach) (c : CoreId) (x : Inst) : (m.setInst c x).gw = m.gw := rfl
@[simp] theorem Mach.setInst_ucie (m : Mach) (c : CoreId) (x : Inst) : (m.setInst c x).ucie = m.ucie := rfl
@[simp] theorem Mach.setInst_wire (m : Mach) (c : CoreId) (x : Inst) : (m.setInst c x).wire = m.wire := rfl
@[simp] theorem Mach.setInst_unacked (m : Mach) (c : CoreId) (x : Inst) : (m.setInst c x).unacked = m.unacked := rfl
@[simp] theorem Mach.setInst_seqs (m : Mach) (c : CoreId) (x : Inst) : (m.setInst c x).seqs = m.seqs := rfl
@[simp] theorem Mach.setInst_consumed (m : Mach) (c : CoreId) (x : Inst) : (m.setInst c x).consumed = m.consumed := rfl
@[simp] theorem Mach.setInst_heldDel (m : Mach) (c : CoreId) (x : Inst) : (m.setInst c x).heldDel = m.heldDel := rfl
@[simp] theorem Mach.setInst_swRegs (m : Mach) (c : CoreId) (x : Inst) : (m.setInst c x).swRegs = m.swRegs := rfl
@[simp] theorem Mach.setInst_redSlots (m : Mach) (c : CoreId) (x : Inst) : (m.setInst c x).redSlots = m.redSlots := rfl
@[simp] theorem Mach.setInst_gathers (m : Mach) (c : CoreId) (x : Inst) : (m.setInst c x).gathers = m.gathers := rfl
@[simp] theorem Mach.setInst_relays (m : Mach) (c : CoreId) (x : Inst) : (m.setInst c x).relays = m.relays := rfl
@[simp] theorem Mach.setInst_redParts (m : Mach) (c : CoreId) (x : Inst) : (m.setInst c x).redParts = m.redParts := rfl
@[simp] theorem Mach.setInst_hostWrites (m : Mach) (c : CoreId) (x : Inst) : (m.setInst c x).hostWrites = m.hostWrites := rfl
@[simp] theorem Mach.setInst_exchs (m : Mach) (c : CoreId) (x : Inst) : (m.setInst c x).exchs = m.exchs := rfl
@[simp] theorem Mach.setInst_hbm (m : Mach) (c : CoreId) (x : Inst) : (m.setInst c x).hbm = m.hbm := rfl
@[simp] theorem Mach.setInst_health (m : Mach) (c : CoreId) (x : Inst) : (m.setInst c x).health = m.health := rfl
@[simp] theorem Mach.setInst_jtagPriv (m : Mach) (c : CoreId) (x : Inst) : (m.setInst c x).jtagPriv = m.jtagPriv := rfl
@[simp] theorem Mach.setInst_tap (m : Mach) (c : CoreId) (x : Inst) : (m.setInst c x).tap = m.tap := rfl
@[simp] theorem Mach.setInst_irqs (m : Mach) (c : CoreId) (x : Inst) : (m.setInst c x).irqs = m.irqs := rfl

/-! ### Mach.modInst -/

@[simp] theorem Mach.modInst_agenda (m : Mach) (c : CoreId) (f : Inst → Inst) : (m.modInst c f).agenda = m.agenda := rfl
@[simp] theorem Mach.modInst_timers (m : Mach) (c : CoreId) (f : Inst → Inst) : (m.modInst c f).timers = m.timers := rfl
@[simp] theorem Mach.modInst_cur (m : Mach) (c : CoreId) (f : Inst → Inst) : (m.modInst c f).cur = m.cur := rfl
@[simp] theorem Mach.modInst_agent (m : Mach) (c : CoreId) (f : Inst → Inst) : (m.modInst c f).agent = m.agent := rfl
@[simp] theorem Mach.modInst_saTurn (m : Mach) (c : CoreId) (f : Inst → Inst) : (m.modInst c f).saTurn = m.saTurn := rfl
@[simp] theorem Mach.modInst_tick (m : Mach) (c : CoreId) (f : Inst → Inst) : (m.modInst c f).tick = m.tick := rfl
@[simp] theorem Mach.modInst_cycle (m : Mach) (c : CoreId) (f : Inst → Inst) : (m.modInst c f).cycle = m.cycle := rfl
@[simp] theorem Mach.modInst_mem (m : Mach) (c : CoreId) (f : Inst → Inst) : (m.modInst c f).mem = m.mem := rfl
@[simp] theorem Mach.modInst_poison (m : Mach) (c : CoreId) (f : Inst → Inst) : (m.modInst c f).poison = m.poison := rfl
@[simp] theorem Mach.modInst_images (m : Mach) (c : CoreId) (f : Inst → Inst) : (m.modInst c f).images = m.images := rfl
@[simp] theorem Mach.modInst_ctxs (m : Mach) (c : CoreId) (f : Inst → Inst) : (m.modInst c f).ctxs = m.ctxs := rfl
@[simp] theorem Mach.modInst_fns (m : Mach) (c : CoreId) (f : Inst → Inst) : (m.modInst c f).fns = m.fns := rfl
@[simp] theorem Mach.modInst_queues (m : Mach) (c : CoreId) (f : Inst → Inst) : (m.modInst c f).queues = m.queues := rfl
@[simp] theorem Mach.modInst_launches (m : Mach) (c : CoreId) (f : Inst → Inst) : (m.modInst c f).launches = m.launches := rfl
@[simp] theorem Mach.modInst_nextLaunch (m : Mach) (c : CoreId) (f : Inst → Inst) : (m.modInst c f).nextLaunch = m.nextLaunch := rfl
@[simp] theorem Mach.modInst_rounds (m : Mach) (c : CoreId) (f : Inst → Inst) : (m.modInst c f).rounds = m.rounds := rfl
@[simp] theorem Mach.modInst_nextRound (m : Mach) (c : CoreId) (f : Inst → Inst) : (m.modInst c f).nextRound = m.nextRound := rfl
@[simp] theorem Mach.modInst_dies (m : Mach) (c : CoreId) (f : Inst → Inst) : (m.modInst c f).dies = m.dies := rfl
@[simp] theorem Mach.modInst_moves (m : Mach) (c : CoreId) (f : Inst → Inst) : (m.modInst c f).moves = m.moves := rfl
@[simp] theorem Mach.modInst_asids (m : Mach) (c : CoreId) (f : Inst → Inst) : (m.modInst c f).asids = m.asids := rfl
@[simp] theorem Mach.modInst_coefs (m : Mach) (c : CoreId) (f : Inst → Inst) : (m.modInst c f).coefs = m.coefs := rfl
@[simp] theorem Mach.modInst_pkg (m : Mach) (c : CoreId) (f : Inst → Inst) : (m.modInst c f).pkg = m.pkg := rfl
@[simp] theorem Mach.modInst_gw (m : Mach) (c : CoreId) (f : Inst → Inst) : (m.modInst c f).gw = m.gw := rfl
@[simp] theorem Mach.modInst_ucie (m : Mach) (c : CoreId) (f : Inst → Inst) : (m.modInst c f).ucie = m.ucie := rfl
@[simp] theorem Mach.modInst_wire (m : Mach) (c : CoreId) (f : Inst → Inst) : (m.modInst c f).wire = m.wire := rfl
@[simp] theorem Mach.modInst_unacked (m : Mach) (c : CoreId) (f : Inst → Inst) : (m.modInst c f).unacked = m.unacked := rfl
@[simp] theorem Mach.modInst_seqs (m : Mach) (c : CoreId) (f : Inst → Inst) : (m.modInst c f).seqs = m.seqs := rfl
@[simp] theorem Mach.modInst_consumed (m : Mach) (c : CoreId) (f : Inst → Inst) : (m.modInst c f).consumed = m.consumed := rfl
@[simp] theorem Mach.modInst_heldDel (m : Mach) (c : CoreId) (f : Inst → Inst) : (m.modInst c f).heldDel = m.heldDel := rfl
@[simp] theorem Mach.modInst_swRegs (m : Mach) (c : CoreId) (f : Inst → Inst) : (m.modInst c f).swRegs = m.swRegs := rfl
@[simp] theorem Mach.modInst_redSlots (m : Mach) (c : CoreId) (f : Inst → Inst) : (m.modInst c f).redSlots = m.redSlots := rfl
@[simp] theorem Mach.modInst_gathers (m : Mach) (c : CoreId) (f : Inst → Inst) : (m.modInst c f).gathers = m.gathers := rfl
@[simp] theorem Mach.modInst_relays (m : Mach) (c : CoreId) (f : Inst → Inst) : (m.modInst c f).relays = m.relays := rfl
@[simp] theorem Mach.modInst_redParts (m : Mach) (c : CoreId) (f : Inst → Inst) : (m.modInst c f).redParts = m.redParts := rfl
@[simp] theorem Mach.modInst_hostWrites (m : Mach) (c : CoreId) (f : Inst → Inst) : (m.modInst c f).hostWrites = m.hostWrites := rfl
@[simp] theorem Mach.modInst_exchs (m : Mach) (c : CoreId) (f : Inst → Inst) : (m.modInst c f).exchs = m.exchs := rfl
@[simp] theorem Mach.modInst_hbm (m : Mach) (c : CoreId) (f : Inst → Inst) : (m.modInst c f).hbm = m.hbm := rfl
@[simp] theorem Mach.modInst_health (m : Mach) (c : CoreId) (f : Inst → Inst) : (m.modInst c f).health = m.health := rfl
@[simp] theorem Mach.modInst_jtagPriv (m : Mach) (c : CoreId) (f : Inst → Inst) : (m.modInst c f).jtagPriv = m.jtagPriv := rfl
@[simp] theorem Mach.modInst_tap (m : Mach) (c : CoreId) (f : Inst → Inst) : (m.modInst c f).tap = m.tap := rfl
@[simp] theorem Mach.modInst_irqs (m : Mach) (c : CoreId) (f : Inst → Inst) : (m.modInst c f).irqs = m.irqs := rfl

/-! ### Mach.modSeq -/

@[simp] theorem Mach.modSeq_agenda (m : Mach) (c : CoreId) (f : Seq → Seq) : (m.modSeq c f).agenda = m.agenda := rfl
@[simp] theorem Mach.modSeq_timers (m : Mach) (c : CoreId) (f : Seq → Seq) : (m.modSeq c f).timers = m.timers := rfl
@[simp] theorem Mach.modSeq_cur (m : Mach) (c : CoreId) (f : Seq → Seq) : (m.modSeq c f).cur = m.cur := rfl
@[simp] theorem Mach.modSeq_agent (m : Mach) (c : CoreId) (f : Seq → Seq) : (m.modSeq c f).agent = m.agent := rfl
@[simp] theorem Mach.modSeq_saTurn (m : Mach) (c : CoreId) (f : Seq → Seq) : (m.modSeq c f).saTurn = m.saTurn := rfl
@[simp] theorem Mach.modSeq_tick (m : Mach) (c : CoreId) (f : Seq → Seq) : (m.modSeq c f).tick = m.tick := rfl
@[simp] theorem Mach.modSeq_cycle (m : Mach) (c : CoreId) (f : Seq → Seq) : (m.modSeq c f).cycle = m.cycle := rfl
@[simp] theorem Mach.modSeq_mem (m : Mach) (c : CoreId) (f : Seq → Seq) : (m.modSeq c f).mem = m.mem := rfl
@[simp] theorem Mach.modSeq_poison (m : Mach) (c : CoreId) (f : Seq → Seq) : (m.modSeq c f).poison = m.poison := rfl
@[simp] theorem Mach.modSeq_images (m : Mach) (c : CoreId) (f : Seq → Seq) : (m.modSeq c f).images = m.images := rfl
@[simp] theorem Mach.modSeq_ctxs (m : Mach) (c : CoreId) (f : Seq → Seq) : (m.modSeq c f).ctxs = m.ctxs := rfl
@[simp] theorem Mach.modSeq_fns (m : Mach) (c : CoreId) (f : Seq → Seq) : (m.modSeq c f).fns = m.fns := rfl
@[simp] theorem Mach.modSeq_queues (m : Mach) (c : CoreId) (f : Seq → Seq) : (m.modSeq c f).queues = m.queues := rfl
@[simp] theorem Mach.modSeq_launches (m : Mach) (c : CoreId) (f : Seq → Seq) : (m.modSeq c f).launches = m.launches := rfl
@[simp] theorem Mach.modSeq_nextLaunch (m : Mach) (c : CoreId) (f : Seq → Seq) : (m.modSeq c f).nextLaunch = m.nextLaunch := rfl
@[simp] theorem Mach.modSeq_rounds (m : Mach) (c : CoreId) (f : Seq → Seq) : (m.modSeq c f).rounds = m.rounds := rfl
@[simp] theorem Mach.modSeq_nextRound (m : Mach) (c : CoreId) (f : Seq → Seq) : (m.modSeq c f).nextRound = m.nextRound := rfl
@[simp] theorem Mach.modSeq_dies (m : Mach) (c : CoreId) (f : Seq → Seq) : (m.modSeq c f).dies = m.dies := rfl
@[simp] theorem Mach.modSeq_moves (m : Mach) (c : CoreId) (f : Seq → Seq) : (m.modSeq c f).moves = m.moves := rfl
@[simp] theorem Mach.modSeq_asids (m : Mach) (c : CoreId) (f : Seq → Seq) : (m.modSeq c f).asids = m.asids := rfl
@[simp] theorem Mach.modSeq_coefs (m : Mach) (c : CoreId) (f : Seq → Seq) : (m.modSeq c f).coefs = m.coefs := rfl
@[simp] theorem Mach.modSeq_pkg (m : Mach) (c : CoreId) (f : Seq → Seq) : (m.modSeq c f).pkg = m.pkg := rfl
@[simp] theorem Mach.modSeq_gw (m : Mach) (c : CoreId) (f : Seq → Seq) : (m.modSeq c f).gw = m.gw := rfl
@[simp] theorem Mach.modSeq_ucie (m : Mach) (c : CoreId) (f : Seq → Seq) : (m.modSeq c f).ucie = m.ucie := rfl
@[simp] theorem Mach.modSeq_wire (m : Mach) (c : CoreId) (f : Seq → Seq) : (m.modSeq c f).wire = m.wire := rfl
@[simp] theorem Mach.modSeq_unacked (m : Mach) (c : CoreId) (f : Seq → Seq) : (m.modSeq c f).unacked = m.unacked := rfl
@[simp] theorem Mach.modSeq_seqs (m : Mach) (c : CoreId) (f : Seq → Seq) : (m.modSeq c f).seqs = m.seqs := rfl
@[simp] theorem Mach.modSeq_consumed (m : Mach) (c : CoreId) (f : Seq → Seq) : (m.modSeq c f).consumed = m.consumed := rfl
@[simp] theorem Mach.modSeq_heldDel (m : Mach) (c : CoreId) (f : Seq → Seq) : (m.modSeq c f).heldDel = m.heldDel := rfl
@[simp] theorem Mach.modSeq_swRegs (m : Mach) (c : CoreId) (f : Seq → Seq) : (m.modSeq c f).swRegs = m.swRegs := rfl
@[simp] theorem Mach.modSeq_redSlots (m : Mach) (c : CoreId) (f : Seq → Seq) : (m.modSeq c f).redSlots = m.redSlots := rfl
@[simp] theorem Mach.modSeq_gathers (m : Mach) (c : CoreId) (f : Seq → Seq) : (m.modSeq c f).gathers = m.gathers := rfl
@[simp] theorem Mach.modSeq_relays (m : Mach) (c : CoreId) (f : Seq → Seq) : (m.modSeq c f).relays = m.relays := rfl
@[simp] theorem Mach.modSeq_redParts (m : Mach) (c : CoreId) (f : Seq → Seq) : (m.modSeq c f).redParts = m.redParts := rfl
@[simp] theorem Mach.modSeq_hostWrites (m : Mach) (c : CoreId) (f : Seq → Seq) : (m.modSeq c f).hostWrites = m.hostWrites := rfl
@[simp] theorem Mach.modSeq_exchs (m : Mach) (c : CoreId) (f : Seq → Seq) : (m.modSeq c f).exchs = m.exchs := rfl
@[simp] theorem Mach.modSeq_hbm (m : Mach) (c : CoreId) (f : Seq → Seq) : (m.modSeq c f).hbm = m.hbm := rfl
@[simp] theorem Mach.modSeq_health (m : Mach) (c : CoreId) (f : Seq → Seq) : (m.modSeq c f).health = m.health := rfl
@[simp] theorem Mach.modSeq_jtagPriv (m : Mach) (c : CoreId) (f : Seq → Seq) : (m.modSeq c f).jtagPriv = m.jtagPriv := rfl
@[simp] theorem Mach.modSeq_tap (m : Mach) (c : CoreId) (f : Seq → Seq) : (m.modSeq c f).tap = m.tap := rfl
@[simp] theorem Mach.modSeq_irqs (m : Mach) (c : CoreId) (f : Seq → Seq) : (m.modSeq c f).irqs = m.irqs := rfl

/-! ### Mach.setCtx -/

@[simp] theorem Mach.setCtx_agenda (m : Mach) (n : Nat) (x : Ctx) : (m.setCtx n x).agenda = m.agenda := rfl
@[simp] theorem Mach.setCtx_timers (m : Mach) (n : Nat) (x : Ctx) : (m.setCtx n x).timers = m.timers := rfl
@[simp] theorem Mach.setCtx_cur (m : Mach) (n : Nat) (x : Ctx) : (m.setCtx n x).cur = m.cur := rfl
@[simp] theorem Mach.setCtx_agent (m : Mach) (n : Nat) (x : Ctx) : (m.setCtx n x).agent = m.agent := rfl
@[simp] theorem Mach.setCtx_saTurn (m : Mach) (n : Nat) (x : Ctx) : (m.setCtx n x).saTurn = m.saTurn := rfl
@[simp] theorem Mach.setCtx_tick (m : Mach) (n : Nat) (x : Ctx) : (m.setCtx n x).tick = m.tick := rfl
@[simp] theorem Mach.setCtx_cycle (m : Mach) (n : Nat) (x : Ctx) : (m.setCtx n x).cycle = m.cycle := rfl
@[simp] theorem Mach.setCtx_mem (m : Mach) (n : Nat) (x : Ctx) : (m.setCtx n x).mem = m.mem := rfl
@[simp] theorem Mach.setCtx_poison (m : Mach) (n : Nat) (x : Ctx) : (m.setCtx n x).poison = m.poison := rfl
@[simp] theorem Mach.setCtx_cores (m : Mach) (n : Nat) (x : Ctx) : (m.setCtx n x).cores = m.cores := rfl
@[simp] theorem Mach.setCtx_images (m : Mach) (n : Nat) (x : Ctx) : (m.setCtx n x).images = m.images := rfl
@[simp] theorem Mach.setCtx_fns (m : Mach) (n : Nat) (x : Ctx) : (m.setCtx n x).fns = m.fns := rfl
@[simp] theorem Mach.setCtx_queues (m : Mach) (n : Nat) (x : Ctx) : (m.setCtx n x).queues = m.queues := rfl
@[simp] theorem Mach.setCtx_launches (m : Mach) (n : Nat) (x : Ctx) : (m.setCtx n x).launches = m.launches := rfl
@[simp] theorem Mach.setCtx_nextLaunch (m : Mach) (n : Nat) (x : Ctx) : (m.setCtx n x).nextLaunch = m.nextLaunch := rfl
@[simp] theorem Mach.setCtx_rounds (m : Mach) (n : Nat) (x : Ctx) : (m.setCtx n x).rounds = m.rounds := rfl
@[simp] theorem Mach.setCtx_nextRound (m : Mach) (n : Nat) (x : Ctx) : (m.setCtx n x).nextRound = m.nextRound := rfl
@[simp] theorem Mach.setCtx_dies (m : Mach) (n : Nat) (x : Ctx) : (m.setCtx n x).dies = m.dies := rfl
@[simp] theorem Mach.setCtx_moves (m : Mach) (n : Nat) (x : Ctx) : (m.setCtx n x).moves = m.moves := rfl
@[simp] theorem Mach.setCtx_asids (m : Mach) (n : Nat) (x : Ctx) : (m.setCtx n x).asids = m.asids := rfl
@[simp] theorem Mach.setCtx_coefs (m : Mach) (n : Nat) (x : Ctx) : (m.setCtx n x).coefs = m.coefs := rfl
@[simp] theorem Mach.setCtx_pkg (m : Mach) (n : Nat) (x : Ctx) : (m.setCtx n x).pkg = m.pkg := rfl
@[simp] theorem Mach.setCtx_gw (m : Mach) (n : Nat) (x : Ctx) : (m.setCtx n x).gw = m.gw := rfl
@[simp] theorem Mach.setCtx_ucie (m : Mach) (n : Nat) (x : Ctx) : (m.setCtx n x).ucie = m.ucie := rfl
@[simp] theorem Mach.setCtx_wire (m : Mach) (n : Nat) (x : Ctx) : (m.setCtx n x).wire = m.wire := rfl
@[simp] theorem Mach.setCtx_unacked (m : Mach) (n : Nat) (x : Ctx) : (m.setCtx n x).unacked = m.unacked := rfl
@[simp] theorem Mach.setCtx_seqs (m : Mach) (n : Nat) (x : Ctx) : (m.setCtx n x).seqs = m.seqs := rfl
@[simp] theorem Mach.setCtx_consumed (m : Mach) (n : Nat) (x : Ctx) : (m.setCtx n x).consumed = m.consumed := rfl
@[simp] theorem Mach.setCtx_heldDel (m : Mach) (n : Nat) (x : Ctx) : (m.setCtx n x).heldDel = m.heldDel := rfl
@[simp] theorem Mach.setCtx_swRegs (m : Mach) (n : Nat) (x : Ctx) : (m.setCtx n x).swRegs = m.swRegs := rfl
@[simp] theorem Mach.setCtx_redSlots (m : Mach) (n : Nat) (x : Ctx) : (m.setCtx n x).redSlots = m.redSlots := rfl
@[simp] theorem Mach.setCtx_gathers (m : Mach) (n : Nat) (x : Ctx) : (m.setCtx n x).gathers = m.gathers := rfl
@[simp] theorem Mach.setCtx_relays (m : Mach) (n : Nat) (x : Ctx) : (m.setCtx n x).relays = m.relays := rfl
@[simp] theorem Mach.setCtx_redParts (m : Mach) (n : Nat) (x : Ctx) : (m.setCtx n x).redParts = m.redParts := rfl
@[simp] theorem Mach.setCtx_hostWrites (m : Mach) (n : Nat) (x : Ctx) : (m.setCtx n x).hostWrites = m.hostWrites := rfl
@[simp] theorem Mach.setCtx_exchs (m : Mach) (n : Nat) (x : Ctx) : (m.setCtx n x).exchs = m.exchs := rfl
@[simp] theorem Mach.setCtx_hbm (m : Mach) (n : Nat) (x : Ctx) : (m.setCtx n x).hbm = m.hbm := rfl
@[simp] theorem Mach.setCtx_health (m : Mach) (n : Nat) (x : Ctx) : (m.setCtx n x).health = m.health := rfl
@[simp] theorem Mach.setCtx_jtagPriv (m : Mach) (n : Nat) (x : Ctx) : (m.setCtx n x).jtagPriv = m.jtagPriv := rfl
@[simp] theorem Mach.setCtx_tap (m : Mach) (n : Nat) (x : Ctx) : (m.setCtx n x).tap = m.tap := rfl
@[simp] theorem Mach.setCtx_irqs (m : Mach) (n : Nat) (x : Ctx) : (m.setCtx n x).irqs = m.irqs := rfl

/-! ### Mach.modCtx -/

@[simp] theorem Mach.modCtx_agenda (m : Mach) (n : Nat) (f : Ctx → Ctx) : (m.modCtx n f).agenda = m.agenda := rfl
@[simp] theorem Mach.modCtx_timers (m : Mach) (n : Nat) (f : Ctx → Ctx) : (m.modCtx n f).timers = m.timers := rfl
@[simp] theorem Mach.modCtx_cur (m : Mach) (n : Nat) (f : Ctx → Ctx) : (m.modCtx n f).cur = m.cur := rfl
@[simp] theorem Mach.modCtx_agent (m : Mach) (n : Nat) (f : Ctx → Ctx) : (m.modCtx n f).agent = m.agent := rfl
@[simp] theorem Mach.modCtx_saTurn (m : Mach) (n : Nat) (f : Ctx → Ctx) : (m.modCtx n f).saTurn = m.saTurn := rfl
@[simp] theorem Mach.modCtx_tick (m : Mach) (n : Nat) (f : Ctx → Ctx) : (m.modCtx n f).tick = m.tick := rfl
@[simp] theorem Mach.modCtx_cycle (m : Mach) (n : Nat) (f : Ctx → Ctx) : (m.modCtx n f).cycle = m.cycle := rfl
@[simp] theorem Mach.modCtx_mem (m : Mach) (n : Nat) (f : Ctx → Ctx) : (m.modCtx n f).mem = m.mem := rfl
@[simp] theorem Mach.modCtx_poison (m : Mach) (n : Nat) (f : Ctx → Ctx) : (m.modCtx n f).poison = m.poison := rfl
@[simp] theorem Mach.modCtx_cores (m : Mach) (n : Nat) (f : Ctx → Ctx) : (m.modCtx n f).cores = m.cores := rfl
@[simp] theorem Mach.modCtx_images (m : Mach) (n : Nat) (f : Ctx → Ctx) : (m.modCtx n f).images = m.images := rfl
@[simp] theorem Mach.modCtx_fns (m : Mach) (n : Nat) (f : Ctx → Ctx) : (m.modCtx n f).fns = m.fns := rfl
@[simp] theorem Mach.modCtx_queues (m : Mach) (n : Nat) (f : Ctx → Ctx) : (m.modCtx n f).queues = m.queues := rfl
@[simp] theorem Mach.modCtx_launches (m : Mach) (n : Nat) (f : Ctx → Ctx) : (m.modCtx n f).launches = m.launches := rfl
@[simp] theorem Mach.modCtx_nextLaunch (m : Mach) (n : Nat) (f : Ctx → Ctx) : (m.modCtx n f).nextLaunch = m.nextLaunch := rfl
@[simp] theorem Mach.modCtx_rounds (m : Mach) (n : Nat) (f : Ctx → Ctx) : (m.modCtx n f).rounds = m.rounds := rfl
@[simp] theorem Mach.modCtx_nextRound (m : Mach) (n : Nat) (f : Ctx → Ctx) : (m.modCtx n f).nextRound = m.nextRound := rfl
@[simp] theorem Mach.modCtx_dies (m : Mach) (n : Nat) (f : Ctx → Ctx) : (m.modCtx n f).dies = m.dies := rfl
@[simp] theorem Mach.modCtx_moves (m : Mach) (n : Nat) (f : Ctx → Ctx) : (m.modCtx n f).moves = m.moves := rfl
@[simp] theorem Mach.modCtx_asids (m : Mach) (n : Nat) (f : Ctx → Ctx) : (m.modCtx n f).asids = m.asids := rfl
@[simp] theorem Mach.modCtx_coefs (m : Mach) (n : Nat) (f : Ctx → Ctx) : (m.modCtx n f).coefs = m.coefs := rfl
@[simp] theorem Mach.modCtx_pkg (m : Mach) (n : Nat) (f : Ctx → Ctx) : (m.modCtx n f).pkg = m.pkg := rfl
@[simp] theorem Mach.modCtx_gw (m : Mach) (n : Nat) (f : Ctx → Ctx) : (m.modCtx n f).gw = m.gw := rfl
@[simp] theorem Mach.modCtx_ucie (m : Mach) (n : Nat) (f : Ctx → Ctx) : (m.modCtx n f).ucie = m.ucie := rfl
@[simp] theorem Mach.modCtx_wire (m : Mach) (n : Nat) (f : Ctx → Ctx) : (m.modCtx n f).wire = m.wire := rfl
@[simp] theorem Mach.modCtx_unacked (m : Mach) (n : Nat) (f : Ctx → Ctx) : (m.modCtx n f).unacked = m.unacked := rfl
@[simp] theorem Mach.modCtx_seqs (m : Mach) (n : Nat) (f : Ctx → Ctx) : (m.modCtx n f).seqs = m.seqs := rfl
@[simp] theorem Mach.modCtx_consumed (m : Mach) (n : Nat) (f : Ctx → Ctx) : (m.modCtx n f).consumed = m.consumed := rfl
@[simp] theorem Mach.modCtx_heldDel (m : Mach) (n : Nat) (f : Ctx → Ctx) : (m.modCtx n f).heldDel = m.heldDel := rfl
@[simp] theorem Mach.modCtx_swRegs (m : Mach) (n : Nat) (f : Ctx → Ctx) : (m.modCtx n f).swRegs = m.swRegs := rfl
@[simp] theorem Mach.modCtx_redSlots (m : Mach) (n : Nat) (f : Ctx → Ctx) : (m.modCtx n f).redSlots = m.redSlots := rfl
@[simp] theorem Mach.modCtx_gathers (m : Mach) (n : Nat) (f : Ctx → Ctx) : (m.modCtx n f).gathers = m.gathers := rfl
@[simp] theorem Mach.modCtx_relays (m : Mach) (n : Nat) (f : Ctx → Ctx) : (m.modCtx n f).relays = m.relays := rfl
@[simp] theorem Mach.modCtx_redParts (m : Mach) (n : Nat) (f : Ctx → Ctx) : (m.modCtx n f).redParts = m.redParts := rfl
@[simp] theorem Mach.modCtx_hostWrites (m : Mach) (n : Nat) (f : Ctx → Ctx) : (m.modCtx n f).hostWrites = m.hostWrites := rfl
@[simp] theorem Mach.modCtx_exchs (m : Mach) (n : Nat) (f : Ctx → Ctx) : (m.modCtx n f).exchs = m.exchs := rfl
@[simp] theorem Mach.modCtx_hbm (m : Mach) (n : Nat) (f : Ctx → Ctx) : (m.modCtx n f).hbm = m.hbm := rfl
@[simp] theorem Mach.modCtx_health (m : Mach) (n : Nat) (f : Ctx → Ctx) : (m.modCtx n f).health = m.health := rfl
@[simp] theorem Mach.modCtx_jtagPriv (m : Mach) (n : Nat) (f : Ctx → Ctx) : (m.modCtx n f).jtagPriv = m.jtagPriv := rfl
@[simp] theorem Mach.modCtx_tap (m : Mach) (n : Nat) (f : Ctx → Ctx) : (m.modCtx n f).tap = m.tap := rfl
@[simp] theorem Mach.modCtx_irqs (m : Mach) (n : Nat) (f : Ctx → Ctx) : (m.modCtx n f).irqs = m.irqs := rfl

/-! ### Mach.setFn -/

@[simp] theorem Mach.setFn_agenda (m : Mach) (f : FnId) (x : FnRegs) : (m.setFn f x).agenda = m.agenda := rfl
@[simp] theorem Mach.setFn_timers (m : Mach) (f : FnId) (x : FnRegs) : (m.setFn f x).timers = m.timers := rfl
@[simp] theorem Mach.setFn_cur (m : Mach) (f : FnId) (x : FnRegs) : (m.setFn f x).cur = m.cur := rfl
@[simp] theorem Mach.setFn_agent (m : Mach) (f : FnId) (x : FnRegs) : (m.setFn f x).agent = m.agent := rfl
@[simp] theorem Mach.setFn_saTurn (m : Mach) (f : FnId) (x : FnRegs) : (m.setFn f x).saTurn = m.saTurn := rfl
@[simp] theorem Mach.setFn_tick (m : Mach) (f : FnId) (x : FnRegs) : (m.setFn f x).tick = m.tick := rfl
@[simp] theorem Mach.setFn_cycle (m : Mach) (f : FnId) (x : FnRegs) : (m.setFn f x).cycle = m.cycle := rfl
@[simp] theorem Mach.setFn_mem (m : Mach) (f : FnId) (x : FnRegs) : (m.setFn f x).mem = m.mem := rfl
@[simp] theorem Mach.setFn_poison (m : Mach) (f : FnId) (x : FnRegs) : (m.setFn f x).poison = m.poison := rfl
@[simp] theorem Mach.setFn_cores (m : Mach) (f : FnId) (x : FnRegs) : (m.setFn f x).cores = m.cores := rfl
@[simp] theorem Mach.setFn_images (m : Mach) (f : FnId) (x : FnRegs) : (m.setFn f x).images = m.images := rfl
@[simp] theorem Mach.setFn_ctxs (m : Mach) (f : FnId) (x : FnRegs) : (m.setFn f x).ctxs = m.ctxs := rfl
@[simp] theorem Mach.setFn_queues (m : Mach) (f : FnId) (x : FnRegs) : (m.setFn f x).queues = m.queues := rfl
@[simp] theorem Mach.setFn_launches (m : Mach) (f : FnId) (x : FnRegs) : (m.setFn f x).launches = m.launches := rfl
@[simp] theorem Mach.setFn_nextLaunch (m : Mach) (f : FnId) (x : FnRegs) : (m.setFn f x).nextLaunch = m.nextLaunch := rfl
@[simp] theorem Mach.setFn_rounds (m : Mach) (f : FnId) (x : FnRegs) : (m.setFn f x).rounds = m.rounds := rfl
@[simp] theorem Mach.setFn_nextRound (m : Mach) (f : FnId) (x : FnRegs) : (m.setFn f x).nextRound = m.nextRound := rfl
@[simp] theorem Mach.setFn_dies (m : Mach) (f : FnId) (x : FnRegs) : (m.setFn f x).dies = m.dies := rfl
@[simp] theorem Mach.setFn_moves (m : Mach) (f : FnId) (x : FnRegs) : (m.setFn f x).moves = m.moves := rfl
@[simp] theorem Mach.setFn_asids (m : Mach) (f : FnId) (x : FnRegs) : (m.setFn f x).asids = m.asids := rfl
@[simp] theorem Mach.setFn_coefs (m : Mach) (f : FnId) (x : FnRegs) : (m.setFn f x).coefs = m.coefs := rfl
@[simp] theorem Mach.setFn_pkg (m : Mach) (f : FnId) (x : FnRegs) : (m.setFn f x).pkg = m.pkg := rfl
@[simp] theorem Mach.setFn_gw (m : Mach) (f : FnId) (x : FnRegs) : (m.setFn f x).gw = m.gw := rfl
@[simp] theorem Mach.setFn_ucie (m : Mach) (f : FnId) (x : FnRegs) : (m.setFn f x).ucie = m.ucie := rfl
@[simp] theorem Mach.setFn_wire (m : Mach) (f : FnId) (x : FnRegs) : (m.setFn f x).wire = m.wire := rfl
@[simp] theorem Mach.setFn_unacked (m : Mach) (f : FnId) (x : FnRegs) : (m.setFn f x).unacked = m.unacked := rfl
@[simp] theorem Mach.setFn_seqs (m : Mach) (f : FnId) (x : FnRegs) : (m.setFn f x).seqs = m.seqs := rfl
@[simp] theorem Mach.setFn_consumed (m : Mach) (f : FnId) (x : FnRegs) : (m.setFn f x).consumed = m.consumed := rfl
@[simp] theorem Mach.setFn_heldDel (m : Mach) (f : FnId) (x : FnRegs) : (m.setFn f x).heldDel = m.heldDel := rfl
@[simp] theorem Mach.setFn_swRegs (m : Mach) (f : FnId) (x : FnRegs) : (m.setFn f x).swRegs = m.swRegs := rfl
@[simp] theorem Mach.setFn_redSlots (m : Mach) (f : FnId) (x : FnRegs) : (m.setFn f x).redSlots = m.redSlots := rfl
@[simp] theorem Mach.setFn_gathers (m : Mach) (f : FnId) (x : FnRegs) : (m.setFn f x).gathers = m.gathers := rfl
@[simp] theorem Mach.setFn_relays (m : Mach) (f : FnId) (x : FnRegs) : (m.setFn f x).relays = m.relays := rfl
@[simp] theorem Mach.setFn_redParts (m : Mach) (f : FnId) (x : FnRegs) : (m.setFn f x).redParts = m.redParts := rfl
@[simp] theorem Mach.setFn_hostWrites (m : Mach) (f : FnId) (x : FnRegs) : (m.setFn f x).hostWrites = m.hostWrites := rfl
@[simp] theorem Mach.setFn_exchs (m : Mach) (f : FnId) (x : FnRegs) : (m.setFn f x).exchs = m.exchs := rfl
@[simp] theorem Mach.setFn_hbm (m : Mach) (f : FnId) (x : FnRegs) : (m.setFn f x).hbm = m.hbm := rfl
@[simp] theorem Mach.setFn_health (m : Mach) (f : FnId) (x : FnRegs) : (m.setFn f x).health = m.health := rfl
@[simp] theorem Mach.setFn_jtagPriv (m : Mach) (f : FnId) (x : FnRegs) : (m.setFn f x).jtagPriv = m.jtagPriv := rfl
@[simp] theorem Mach.setFn_tap (m : Mach) (f : FnId) (x : FnRegs) : (m.setFn f x).tap = m.tap := rfl
@[simp] theorem Mach.setFn_irqs (m : Mach) (f : FnId) (x : FnRegs) : (m.setFn f x).irqs = m.irqs := rfl

/-! ### Mach.setQueue -/

@[simp] theorem Mach.setQueue_agenda (m : Mach) (f : FnId) (q : Nat) (x : Queue) : (m.setQueue f q x).agenda = m.agenda := rfl
@[simp] theorem Mach.setQueue_timers (m : Mach) (f : FnId) (q : Nat) (x : Queue) : (m.setQueue f q x).timers = m.timers := rfl
@[simp] theorem Mach.setQueue_cur (m : Mach) (f : FnId) (q : Nat) (x : Queue) : (m.setQueue f q x).cur = m.cur := rfl
@[simp] theorem Mach.setQueue_agent (m : Mach) (f : FnId) (q : Nat) (x : Queue) : (m.setQueue f q x).agent = m.agent := rfl
@[simp] theorem Mach.setQueue_saTurn (m : Mach) (f : FnId) (q : Nat) (x : Queue) : (m.setQueue f q x).saTurn = m.saTurn := rfl
@[simp] theorem Mach.setQueue_tick (m : Mach) (f : FnId) (q : Nat) (x : Queue) : (m.setQueue f q x).tick = m.tick := rfl
@[simp] theorem Mach.setQueue_cycle (m : Mach) (f : FnId) (q : Nat) (x : Queue) : (m.setQueue f q x).cycle = m.cycle := rfl
@[simp] theorem Mach.setQueue_mem (m : Mach) (f : FnId) (q : Nat) (x : Queue) : (m.setQueue f q x).mem = m.mem := rfl
@[simp] theorem Mach.setQueue_poison (m : Mach) (f : FnId) (q : Nat) (x : Queue) : (m.setQueue f q x).poison = m.poison := rfl
@[simp] theorem Mach.setQueue_cores (m : Mach) (f : FnId) (q : Nat) (x : Queue) : (m.setQueue f q x).cores = m.cores := rfl
@[simp] theorem Mach.setQueue_images (m : Mach) (f : FnId) (q : Nat) (x : Queue) : (m.setQueue f q x).images = m.images := rfl
@[simp] theorem Mach.setQueue_ctxs (m : Mach) (f : FnId) (q : Nat) (x : Queue) : (m.setQueue f q x).ctxs = m.ctxs := rfl
@[simp] theorem Mach.setQueue_fns (m : Mach) (f : FnId) (q : Nat) (x : Queue) : (m.setQueue f q x).fns = m.fns := rfl
@[simp] theorem Mach.setQueue_launches (m : Mach) (f : FnId) (q : Nat) (x : Queue) : (m.setQueue f q x).launches = m.launches := rfl
@[simp] theorem Mach.setQueue_nextLaunch (m : Mach) (f : FnId) (q : Nat) (x : Queue) : (m.setQueue f q x).nextLaunch = m.nextLaunch := rfl
@[simp] theorem Mach.setQueue_rounds (m : Mach) (f : FnId) (q : Nat) (x : Queue) : (m.setQueue f q x).rounds = m.rounds := rfl
@[simp] theorem Mach.setQueue_nextRound (m : Mach) (f : FnId) (q : Nat) (x : Queue) : (m.setQueue f q x).nextRound = m.nextRound := rfl
@[simp] theorem Mach.setQueue_dies (m : Mach) (f : FnId) (q : Nat) (x : Queue) : (m.setQueue f q x).dies = m.dies := rfl
@[simp] theorem Mach.setQueue_moves (m : Mach) (f : FnId) (q : Nat) (x : Queue) : (m.setQueue f q x).moves = m.moves := rfl
@[simp] theorem Mach.setQueue_asids (m : Mach) (f : FnId) (q : Nat) (x : Queue) : (m.setQueue f q x).asids = m.asids := rfl
@[simp] theorem Mach.setQueue_coefs (m : Mach) (f : FnId) (q : Nat) (x : Queue) : (m.setQueue f q x).coefs = m.coefs := rfl
@[simp] theorem Mach.setQueue_pkg (m : Mach) (f : FnId) (q : Nat) (x : Queue) : (m.setQueue f q x).pkg = m.pkg := rfl
@[simp] theorem Mach.setQueue_gw (m : Mach) (f : FnId) (q : Nat) (x : Queue) : (m.setQueue f q x).gw = m.gw := rfl
@[simp] theorem Mach.setQueue_ucie (m : Mach) (f : FnId) (q : Nat) (x : Queue) : (m.setQueue f q x).ucie = m.ucie := rfl
@[simp] theorem Mach.setQueue_wire (m : Mach) (f : FnId) (q : Nat) (x : Queue) : (m.setQueue f q x).wire = m.wire := rfl
@[simp] theorem Mach.setQueue_unacked (m : Mach) (f : FnId) (q : Nat) (x : Queue) : (m.setQueue f q x).unacked = m.unacked := rfl
@[simp] theorem Mach.setQueue_seqs (m : Mach) (f : FnId) (q : Nat) (x : Queue) : (m.setQueue f q x).seqs = m.seqs := rfl
@[simp] theorem Mach.setQueue_consumed (m : Mach) (f : FnId) (q : Nat) (x : Queue) : (m.setQueue f q x).consumed = m.consumed := rfl
@[simp] theorem Mach.setQueue_heldDel (m : Mach) (f : FnId) (q : Nat) (x : Queue) : (m.setQueue f q x).heldDel = m.heldDel := rfl
@[simp] theorem Mach.setQueue_swRegs (m : Mach) (f : FnId) (q : Nat) (x : Queue) : (m.setQueue f q x).swRegs = m.swRegs := rfl
@[simp] theorem Mach.setQueue_redSlots (m : Mach) (f : FnId) (q : Nat) (x : Queue) : (m.setQueue f q x).redSlots = m.redSlots := rfl
@[simp] theorem Mach.setQueue_gathers (m : Mach) (f : FnId) (q : Nat) (x : Queue) : (m.setQueue f q x).gathers = m.gathers := rfl
@[simp] theorem Mach.setQueue_relays (m : Mach) (f : FnId) (q : Nat) (x : Queue) : (m.setQueue f q x).relays = m.relays := rfl
@[simp] theorem Mach.setQueue_redParts (m : Mach) (f : FnId) (q : Nat) (x : Queue) : (m.setQueue f q x).redParts = m.redParts := rfl
@[simp] theorem Mach.setQueue_hostWrites (m : Mach) (f : FnId) (q : Nat) (x : Queue) : (m.setQueue f q x).hostWrites = m.hostWrites := rfl
@[simp] theorem Mach.setQueue_exchs (m : Mach) (f : FnId) (q : Nat) (x : Queue) : (m.setQueue f q x).exchs = m.exchs := rfl
@[simp] theorem Mach.setQueue_hbm (m : Mach) (f : FnId) (q : Nat) (x : Queue) : (m.setQueue f q x).hbm = m.hbm := rfl
@[simp] theorem Mach.setQueue_health (m : Mach) (f : FnId) (q : Nat) (x : Queue) : (m.setQueue f q x).health = m.health := rfl
@[simp] theorem Mach.setQueue_jtagPriv (m : Mach) (f : FnId) (q : Nat) (x : Queue) : (m.setQueue f q x).jtagPriv = m.jtagPriv := rfl
@[simp] theorem Mach.setQueue_tap (m : Mach) (f : FnId) (q : Nat) (x : Queue) : (m.setQueue f q x).tap = m.tap := rfl
@[simp] theorem Mach.setQueue_irqs (m : Mach) (f : FnId) (q : Nat) (x : Queue) : (m.setQueue f q x).irqs = m.irqs := rfl

/-! ### Mach.setDie -/

@[simp] theorem Mach.setDie_agenda (m : Mach) (d : DieId) (x : Die) : (m.setDie d x).agenda = m.agenda := rfl
@[simp] theorem Mach.setDie_timers (m : Mach) (d : DieId) (x : Die) : (m.setDie d x).timers = m.timers := rfl
@[simp] theorem Mach.setDie_cur (m : Mach) (d : DieId) (x : Die) : (m.setDie d x).cur = m.cur := rfl
@[simp] theorem Mach.setDie_agent (m : Mach) (d : DieId) (x : Die) : (m.setDie d x).agent = m.agent := rfl
@[simp] theorem Mach.setDie_saTurn (m : Mach) (d : DieId) (x : Die) : (m.setDie d x).saTurn = m.saTurn := rfl
@[simp] theorem Mach.setDie_tick (m : Mach) (d : DieId) (x : Die) : (m.setDie d x).tick = m.tick := rfl
@[simp] theorem Mach.setDie_cycle (m : Mach) (d : DieId) (x : Die) : (m.setDie d x).cycle = m.cycle := rfl
@[simp] theorem Mach.setDie_mem (m : Mach) (d : DieId) (x : Die) : (m.setDie d x).mem = m.mem := rfl
@[simp] theorem Mach.setDie_poison (m : Mach) (d : DieId) (x : Die) : (m.setDie d x).poison = m.poison := rfl
@[simp] theorem Mach.setDie_cores (m : Mach) (d : DieId) (x : Die) : (m.setDie d x).cores = m.cores := rfl
@[simp] theorem Mach.setDie_images (m : Mach) (d : DieId) (x : Die) : (m.setDie d x).images = m.images := rfl
@[simp] theorem Mach.setDie_ctxs (m : Mach) (d : DieId) (x : Die) : (m.setDie d x).ctxs = m.ctxs := rfl
@[simp] theorem Mach.setDie_fns (m : Mach) (d : DieId) (x : Die) : (m.setDie d x).fns = m.fns := rfl
@[simp] theorem Mach.setDie_queues (m : Mach) (d : DieId) (x : Die) : (m.setDie d x).queues = m.queues := rfl
@[simp] theorem Mach.setDie_launches (m : Mach) (d : DieId) (x : Die) : (m.setDie d x).launches = m.launches := rfl
@[simp] theorem Mach.setDie_nextLaunch (m : Mach) (d : DieId) (x : Die) : (m.setDie d x).nextLaunch = m.nextLaunch := rfl
@[simp] theorem Mach.setDie_rounds (m : Mach) (d : DieId) (x : Die) : (m.setDie d x).rounds = m.rounds := rfl
@[simp] theorem Mach.setDie_nextRound (m : Mach) (d : DieId) (x : Die) : (m.setDie d x).nextRound = m.nextRound := rfl
@[simp] theorem Mach.setDie_moves (m : Mach) (d : DieId) (x : Die) : (m.setDie d x).moves = m.moves := rfl
@[simp] theorem Mach.setDie_asids (m : Mach) (d : DieId) (x : Die) : (m.setDie d x).asids = m.asids := rfl
@[simp] theorem Mach.setDie_coefs (m : Mach) (d : DieId) (x : Die) : (m.setDie d x).coefs = m.coefs := rfl
@[simp] theorem Mach.setDie_pkg (m : Mach) (d : DieId) (x : Die) : (m.setDie d x).pkg = m.pkg := rfl
@[simp] theorem Mach.setDie_gw (m : Mach) (d : DieId) (x : Die) : (m.setDie d x).gw = m.gw := rfl
@[simp] theorem Mach.setDie_ucie (m : Mach) (d : DieId) (x : Die) : (m.setDie d x).ucie = m.ucie := rfl
@[simp] theorem Mach.setDie_wire (m : Mach) (d : DieId) (x : Die) : (m.setDie d x).wire = m.wire := rfl
@[simp] theorem Mach.setDie_unacked (m : Mach) (d : DieId) (x : Die) : (m.setDie d x).unacked = m.unacked := rfl
@[simp] theorem Mach.setDie_seqs (m : Mach) (d : DieId) (x : Die) : (m.setDie d x).seqs = m.seqs := rfl
@[simp] theorem Mach.setDie_consumed (m : Mach) (d : DieId) (x : Die) : (m.setDie d x).consumed = m.consumed := rfl
@[simp] theorem Mach.setDie_heldDel (m : Mach) (d : DieId) (x : Die) : (m.setDie d x).heldDel = m.heldDel := rfl
@[simp] theorem Mach.setDie_swRegs (m : Mach) (d : DieId) (x : Die) : (m.setDie d x).swRegs = m.swRegs := rfl
@[simp] theorem Mach.setDie_redSlots (m : Mach) (d : DieId) (x : Die) : (m.setDie d x).redSlots = m.redSlots := rfl
@[simp] theorem Mach.setDie_gathers (m : Mach) (d : DieId) (x : Die) : (m.setDie d x).gathers = m.gathers := rfl
@[simp] theorem Mach.setDie_relays (m : Mach) (d : DieId) (x : Die) : (m.setDie d x).relays = m.relays := rfl
@[simp] theorem Mach.setDie_redParts (m : Mach) (d : DieId) (x : Die) : (m.setDie d x).redParts = m.redParts := rfl
@[simp] theorem Mach.setDie_hostWrites (m : Mach) (d : DieId) (x : Die) : (m.setDie d x).hostWrites = m.hostWrites := rfl
@[simp] theorem Mach.setDie_exchs (m : Mach) (d : DieId) (x : Die) : (m.setDie d x).exchs = m.exchs := rfl
@[simp] theorem Mach.setDie_hbm (m : Mach) (d : DieId) (x : Die) : (m.setDie d x).hbm = m.hbm := rfl
@[simp] theorem Mach.setDie_health (m : Mach) (d : DieId) (x : Die) : (m.setDie d x).health = m.health := rfl
@[simp] theorem Mach.setDie_jtagPriv (m : Mach) (d : DieId) (x : Die) : (m.setDie d x).jtagPriv = m.jtagPriv := rfl
@[simp] theorem Mach.setDie_tap (m : Mach) (d : DieId) (x : Die) : (m.setDie d x).tap = m.tap := rfl
@[simp] theorem Mach.setDie_irqs (m : Mach) (d : DieId) (x : Die) : (m.setDie d x).irqs = m.irqs := rfl

/-! ### Mach.setLaunch -/

@[simp] theorem Mach.setLaunch_agenda (m : Mach) (x : Launch) : (m.setLaunch x).agenda = m.agenda := rfl
@[simp] theorem Mach.setLaunch_timers (m : Mach) (x : Launch) : (m.setLaunch x).timers = m.timers := rfl
@[simp] theorem Mach.setLaunch_cur (m : Mach) (x : Launch) : (m.setLaunch x).cur = m.cur := rfl
@[simp] theorem Mach.setLaunch_agent (m : Mach) (x : Launch) : (m.setLaunch x).agent = m.agent := rfl
@[simp] theorem Mach.setLaunch_saTurn (m : Mach) (x : Launch) : (m.setLaunch x).saTurn = m.saTurn := rfl
@[simp] theorem Mach.setLaunch_tick (m : Mach) (x : Launch) : (m.setLaunch x).tick = m.tick := rfl
@[simp] theorem Mach.setLaunch_cycle (m : Mach) (x : Launch) : (m.setLaunch x).cycle = m.cycle := rfl
@[simp] theorem Mach.setLaunch_mem (m : Mach) (x : Launch) : (m.setLaunch x).mem = m.mem := rfl
@[simp] theorem Mach.setLaunch_poison (m : Mach) (x : Launch) : (m.setLaunch x).poison = m.poison := rfl
@[simp] theorem Mach.setLaunch_cores (m : Mach) (x : Launch) : (m.setLaunch x).cores = m.cores := rfl
@[simp] theorem Mach.setLaunch_images (m : Mach) (x : Launch) : (m.setLaunch x).images = m.images := rfl
@[simp] theorem Mach.setLaunch_ctxs (m : Mach) (x : Launch) : (m.setLaunch x).ctxs = m.ctxs := rfl
@[simp] theorem Mach.setLaunch_fns (m : Mach) (x : Launch) : (m.setLaunch x).fns = m.fns := rfl
@[simp] theorem Mach.setLaunch_queues (m : Mach) (x : Launch) : (m.setLaunch x).queues = m.queues := rfl
@[simp] theorem Mach.setLaunch_nextLaunch (m : Mach) (x : Launch) : (m.setLaunch x).nextLaunch = m.nextLaunch := rfl
@[simp] theorem Mach.setLaunch_rounds (m : Mach) (x : Launch) : (m.setLaunch x).rounds = m.rounds := rfl
@[simp] theorem Mach.setLaunch_nextRound (m : Mach) (x : Launch) : (m.setLaunch x).nextRound = m.nextRound := rfl
@[simp] theorem Mach.setLaunch_dies (m : Mach) (x : Launch) : (m.setLaunch x).dies = m.dies := rfl
@[simp] theorem Mach.setLaunch_moves (m : Mach) (x : Launch) : (m.setLaunch x).moves = m.moves := rfl
@[simp] theorem Mach.setLaunch_asids (m : Mach) (x : Launch) : (m.setLaunch x).asids = m.asids := rfl
@[simp] theorem Mach.setLaunch_coefs (m : Mach) (x : Launch) : (m.setLaunch x).coefs = m.coefs := rfl
@[simp] theorem Mach.setLaunch_pkg (m : Mach) (x : Launch) : (m.setLaunch x).pkg = m.pkg := rfl
@[simp] theorem Mach.setLaunch_gw (m : Mach) (x : Launch) : (m.setLaunch x).gw = m.gw := rfl
@[simp] theorem Mach.setLaunch_ucie (m : Mach) (x : Launch) : (m.setLaunch x).ucie = m.ucie := rfl
@[simp] theorem Mach.setLaunch_wire (m : Mach) (x : Launch) : (m.setLaunch x).wire = m.wire := rfl
@[simp] theorem Mach.setLaunch_unacked (m : Mach) (x : Launch) : (m.setLaunch x).unacked = m.unacked := rfl
@[simp] theorem Mach.setLaunch_seqs (m : Mach) (x : Launch) : (m.setLaunch x).seqs = m.seqs := rfl
@[simp] theorem Mach.setLaunch_consumed (m : Mach) (x : Launch) : (m.setLaunch x).consumed = m.consumed := rfl
@[simp] theorem Mach.setLaunch_heldDel (m : Mach) (x : Launch) : (m.setLaunch x).heldDel = m.heldDel := rfl
@[simp] theorem Mach.setLaunch_swRegs (m : Mach) (x : Launch) : (m.setLaunch x).swRegs = m.swRegs := rfl
@[simp] theorem Mach.setLaunch_redSlots (m : Mach) (x : Launch) : (m.setLaunch x).redSlots = m.redSlots := rfl
@[simp] theorem Mach.setLaunch_gathers (m : Mach) (x : Launch) : (m.setLaunch x).gathers = m.gathers := rfl
@[simp] theorem Mach.setLaunch_relays (m : Mach) (x : Launch) : (m.setLaunch x).relays = m.relays := rfl
@[simp] theorem Mach.setLaunch_redParts (m : Mach) (x : Launch) : (m.setLaunch x).redParts = m.redParts := rfl
@[simp] theorem Mach.setLaunch_hostWrites (m : Mach) (x : Launch) : (m.setLaunch x).hostWrites = m.hostWrites := rfl
@[simp] theorem Mach.setLaunch_exchs (m : Mach) (x : Launch) : (m.setLaunch x).exchs = m.exchs := rfl
@[simp] theorem Mach.setLaunch_hbm (m : Mach) (x : Launch) : (m.setLaunch x).hbm = m.hbm := rfl
@[simp] theorem Mach.setLaunch_health (m : Mach) (x : Launch) : (m.setLaunch x).health = m.health := rfl
@[simp] theorem Mach.setLaunch_jtagPriv (m : Mach) (x : Launch) : (m.setLaunch x).jtagPriv = m.jtagPriv := rfl
@[simp] theorem Mach.setLaunch_tap (m : Mach) (x : Launch) : (m.setLaunch x).tap = m.tap := rfl
@[simp] theorem Mach.setLaunch_irqs (m : Mach) (x : Launch) : (m.setLaunch x).irqs = m.irqs := rfl

/-! ### Mach.post -/

@[simp] theorem Mach.post_timers (m : Mach) (l : List Instr) : (m.post l).timers = m.timers := rfl
@[simp] theorem Mach.post_cur (m : Mach) (l : List Instr) : (m.post l).cur = m.cur := rfl
@[simp] theorem Mach.post_agent (m : Mach) (l : List Instr) : (m.post l).agent = m.agent := rfl
@[simp] theorem Mach.post_saTurn (m : Mach) (l : List Instr) : (m.post l).saTurn = m.saTurn := rfl
@[simp] theorem Mach.post_tick (m : Mach) (l : List Instr) : (m.post l).tick = m.tick := rfl
@[simp] theorem Mach.post_cycle (m : Mach) (l : List Instr) : (m.post l).cycle = m.cycle := rfl
@[simp] theorem Mach.post_mem (m : Mach) (l : List Instr) : (m.post l).mem = m.mem := rfl
@[simp] theorem Mach.post_poison (m : Mach) (l : List Instr) : (m.post l).poison = m.poison := rfl
@[simp] theorem Mach.post_cores (m : Mach) (l : List Instr) : (m.post l).cores = m.cores := rfl
@[simp] theorem Mach.post_images (m : Mach) (l : List Instr) : (m.post l).images = m.images := rfl
@[simp] theorem Mach.post_ctxs (m : Mach) (l : List Instr) : (m.post l).ctxs = m.ctxs := rfl
@[simp] theorem Mach.post_fns (m : Mach) (l : List Instr) : (m.post l).fns = m.fns := rfl
@[simp] theorem Mach.post_queues (m : Mach) (l : List Instr) : (m.post l).queues = m.queues := rfl
@[simp] theorem Mach.post_launches (m : Mach) (l : List Instr) : (m.post l).launches = m.launches := rfl
@[simp] theorem Mach.post_nextLaunch (m : Mach) (l : List Instr) : (m.post l).nextLaunch = m.nextLaunch := rfl
@[simp] theorem Mach.post_rounds (m : Mach) (l : List Instr) : (m.post l).rounds = m.rounds := rfl
@[simp] theorem Mach.post_nextRound (m : Mach) (l : List Instr) : (m.post l).nextRound = m.nextRound := rfl
@[simp] theorem Mach.post_dies (m : Mach) (l : List Instr) : (m.post l).dies = m.dies := rfl
@[simp] theorem Mach.post_moves (m : Mach) (l : List Instr) : (m.post l).moves = m.moves := rfl
@[simp] theorem Mach.post_asids (m : Mach) (l : List Instr) : (m.post l).asids = m.asids := rfl
@[simp] theorem Mach.post_coefs (m : Mach) (l : List Instr) : (m.post l).coefs = m.coefs := rfl
@[simp] theorem Mach.post_pkg (m : Mach) (l : List Instr) : (m.post l).pkg = m.pkg := rfl
@[simp] theorem Mach.post_gw (m : Mach) (l : List Instr) : (m.post l).gw = m.gw := rfl
@[simp] theorem Mach.post_ucie (m : Mach) (l : List Instr) : (m.post l).ucie = m.ucie := rfl
@[simp] theorem Mach.post_wire (m : Mach) (l : List Instr) : (m.post l).wire = m.wire := rfl
@[simp] theorem Mach.post_unacked (m : Mach) (l : List Instr) : (m.post l).unacked = m.unacked := rfl
@[simp] theorem Mach.post_seqs (m : Mach) (l : List Instr) : (m.post l).seqs = m.seqs := rfl
@[simp] theorem Mach.post_consumed (m : Mach) (l : List Instr) : (m.post l).consumed = m.consumed := rfl
@[simp] theorem Mach.post_heldDel (m : Mach) (l : List Instr) : (m.post l).heldDel = m.heldDel := rfl
@[simp] theorem Mach.post_swRegs (m : Mach) (l : List Instr) : (m.post l).swRegs = m.swRegs := rfl
@[simp] theorem Mach.post_redSlots (m : Mach) (l : List Instr) : (m.post l).redSlots = m.redSlots := rfl
@[simp] theorem Mach.post_gathers (m : Mach) (l : List Instr) : (m.post l).gathers = m.gathers := rfl
@[simp] theorem Mach.post_relays (m : Mach) (l : List Instr) : (m.post l).relays = m.relays := rfl
@[simp] theorem Mach.post_redParts (m : Mach) (l : List Instr) : (m.post l).redParts = m.redParts := rfl
@[simp] theorem Mach.post_hostWrites (m : Mach) (l : List Instr) : (m.post l).hostWrites = m.hostWrites := rfl
@[simp] theorem Mach.post_exchs (m : Mach) (l : List Instr) : (m.post l).exchs = m.exchs := rfl
@[simp] theorem Mach.post_hbm (m : Mach) (l : List Instr) : (m.post l).hbm = m.hbm := rfl
@[simp] theorem Mach.post_health (m : Mach) (l : List Instr) : (m.post l).health = m.health := rfl
@[simp] theorem Mach.post_jtagPriv (m : Mach) (l : List Instr) : (m.post l).jtagPriv = m.jtagPriv := rfl
@[simp] theorem Mach.post_tap (m : Mach) (l : List Instr) : (m.post l).tap = m.tap := rfl
@[simp] theorem Mach.post_irqs (m : Mach) (l : List Instr) : (m.post l).irqs = m.irqs := rfl

/-! ### Mach.timer -/

@[simp] theorem Mach.timer_agenda (m : Mach) (n : Nat) (e : Instr) : (m.timer n e).agenda = m.agenda := rfl
@[simp] theorem Mach.timer_cur (m : Mach) (n : Nat) (e : Instr) : (m.timer n e).cur = m.cur := rfl
@[simp] theorem Mach.timer_agent (m : Mach) (n : Nat) (e : Instr) : (m.timer n e).agent = m.agent := rfl
@[simp] theorem Mach.timer_saTurn (m : Mach) (n : Nat) (e : Instr) : (m.timer n e).saTurn = m.saTurn := rfl
@[simp] theorem Mach.timer_tick (m : Mach) (n : Nat) (e : Instr) : (m.timer n e).tick = m.tick := rfl
@[simp] theorem Mach.timer_cycle (m : Mach) (n : Nat) (e : Instr) : (m.timer n e).cycle = m.cycle := rfl
@[simp] theorem Mach.timer_mem (m : Mach) (n : Nat) (e : Instr) : (m.timer n e).mem = m.mem := rfl
@[simp] theorem Mach.timer_poison (m : Mach) (n : Nat) (e : Instr) : (m.timer n e).poison = m.poison := rfl
@[simp] theorem Mach.timer_cores (m : Mach) (n : Nat) (e : Instr) : (m.timer n e).cores = m.cores := rfl
@[simp] theorem Mach.timer_images (m : Mach) (n : Nat) (e : Instr) : (m.timer n e).images = m.images := rfl
@[simp] theorem Mach.timer_ctxs (m : Mach) (n : Nat) (e : Instr) : (m.timer n e).ctxs = m.ctxs := rfl
@[simp] theorem Mach.timer_fns (m : Mach) (n : Nat) (e : Instr) : (m.timer n e).fns = m.fns := rfl
@[simp] theorem Mach.timer_queues (m : Mach) (n : Nat) (e : Instr) : (m.timer n e).queues = m.queues := rfl
@[simp] theorem Mach.timer_launches (m : Mach) (n : Nat) (e : Instr) : (m.timer n e).launches = m.launches := rfl
@[simp] theorem Mach.timer_nextLaunch (m : Mach) (n : Nat) (e : Instr) : (m.timer n e).nextLaunch = m.nextLaunch := rfl
@[simp] theorem Mach.timer_rounds (m : Mach) (n : Nat) (e : Instr) : (m.timer n e).rounds = m.rounds := rfl
@[simp] theorem Mach.timer_nextRound (m : Mach) (n : Nat) (e : Instr) : (m.timer n e).nextRound = m.nextRound := rfl
@[simp] theorem Mach.timer_dies (m : Mach) (n : Nat) (e : Instr) : (m.timer n e).dies = m.dies := rfl
@[simp] theorem Mach.timer_moves (m : Mach) (n : Nat) (e : Instr) : (m.timer n e).moves = m.moves := rfl
@[simp] theorem Mach.timer_asids (m : Mach) (n : Nat) (e : Instr) : (m.timer n e).asids = m.asids := rfl
@[simp] theorem Mach.timer_coefs (m : Mach) (n : Nat) (e : Instr) : (m.timer n e).coefs = m.coefs := rfl
@[simp] theorem Mach.timer_pkg (m : Mach) (n : Nat) (e : Instr) : (m.timer n e).pkg = m.pkg := rfl
@[simp] theorem Mach.timer_gw (m : Mach) (n : Nat) (e : Instr) : (m.timer n e).gw = m.gw := rfl
@[simp] theorem Mach.timer_ucie (m : Mach) (n : Nat) (e : Instr) : (m.timer n e).ucie = m.ucie := rfl
@[simp] theorem Mach.timer_wire (m : Mach) (n : Nat) (e : Instr) : (m.timer n e).wire = m.wire := rfl
@[simp] theorem Mach.timer_unacked (m : Mach) (n : Nat) (e : Instr) : (m.timer n e).unacked = m.unacked := rfl
@[simp] theorem Mach.timer_seqs (m : Mach) (n : Nat) (e : Instr) : (m.timer n e).seqs = m.seqs := rfl
@[simp] theorem Mach.timer_consumed (m : Mach) (n : Nat) (e : Instr) : (m.timer n e).consumed = m.consumed := rfl
@[simp] theorem Mach.timer_heldDel (m : Mach) (n : Nat) (e : Instr) : (m.timer n e).heldDel = m.heldDel := rfl
@[simp] theorem Mach.timer_swRegs (m : Mach) (n : Nat) (e : Instr) : (m.timer n e).swRegs = m.swRegs := rfl
@[simp] theorem Mach.timer_redSlots (m : Mach) (n : Nat) (e : Instr) : (m.timer n e).redSlots = m.redSlots := rfl
@[simp] theorem Mach.timer_gathers (m : Mach) (n : Nat) (e : Instr) : (m.timer n e).gathers = m.gathers := rfl
@[simp] theorem Mach.timer_relays (m : Mach) (n : Nat) (e : Instr) : (m.timer n e).relays = m.relays := rfl
@[simp] theorem Mach.timer_redParts (m : Mach) (n : Nat) (e : Instr) : (m.timer n e).redParts = m.redParts := rfl
@[simp] theorem Mach.timer_hostWrites (m : Mach) (n : Nat) (e : Instr) : (m.timer n e).hostWrites = m.hostWrites := rfl
@[simp] theorem Mach.timer_exchs (m : Mach) (n : Nat) (e : Instr) : (m.timer n e).exchs = m.exchs := rfl
@[simp] theorem Mach.timer_hbm (m : Mach) (n : Nat) (e : Instr) : (m.timer n e).hbm = m.hbm := rfl
@[simp] theorem Mach.timer_health (m : Mach) (n : Nat) (e : Instr) : (m.timer n e).health = m.health := rfl
@[simp] theorem Mach.timer_jtagPriv (m : Mach) (n : Nat) (e : Instr) : (m.timer n e).jtagPriv = m.jtagPriv := rfl
@[simp] theorem Mach.timer_tap (m : Mach) (n : Nat) (e : Instr) : (m.timer n e).tap = m.tap := rfl
@[simp] theorem Mach.timer_irqs (m : Mach) (n : Nat) (e : Instr) : (m.timer n e).irqs = m.irqs := rfl

/-! ### Mach.store -/

@[simp] theorem Mach.store_agenda (m : Mach) (k : Nat) (l : List Byte) : (m.store k l).agenda = m.agenda := rfl
@[simp] theorem Mach.store_timers (m : Mach) (k : Nat) (l : List Byte) : (m.store k l).timers = m.timers := rfl
@[simp] theorem Mach.store_cur (m : Mach) (k : Nat) (l : List Byte) : (m.store k l).cur = m.cur := rfl
@[simp] theorem Mach.store_agent (m : Mach) (k : Nat) (l : List Byte) : (m.store k l).agent = m.agent := rfl
@[simp] theorem Mach.store_saTurn (m : Mach) (k : Nat) (l : List Byte) : (m.store k l).saTurn = m.saTurn := rfl
@[simp] theorem Mach.store_tick (m : Mach) (k : Nat) (l : List Byte) : (m.store k l).tick = m.tick := rfl
@[simp] theorem Mach.store_cycle (m : Mach) (k : Nat) (l : List Byte) : (m.store k l).cycle = m.cycle := rfl
@[simp] theorem Mach.store_cores (m : Mach) (k : Nat) (l : List Byte) : (m.store k l).cores = m.cores := rfl
@[simp] theorem Mach.store_images (m : Mach) (k : Nat) (l : List Byte) : (m.store k l).images = m.images := rfl
@[simp] theorem Mach.store_ctxs (m : Mach) (k : Nat) (l : List Byte) : (m.store k l).ctxs = m.ctxs := rfl
@[simp] theorem Mach.store_fns (m : Mach) (k : Nat) (l : List Byte) : (m.store k l).fns = m.fns := rfl
@[simp] theorem Mach.store_queues (m : Mach) (k : Nat) (l : List Byte) : (m.store k l).queues = m.queues := rfl
@[simp] theorem Mach.store_launches (m : Mach) (k : Nat) (l : List Byte) : (m.store k l).launches = m.launches := rfl
@[simp] theorem Mach.store_nextLaunch (m : Mach) (k : Nat) (l : List Byte) : (m.store k l).nextLaunch = m.nextLaunch := rfl
@[simp] theorem Mach.store_rounds (m : Mach) (k : Nat) (l : List Byte) : (m.store k l).rounds = m.rounds := rfl
@[simp] theorem Mach.store_nextRound (m : Mach) (k : Nat) (l : List Byte) : (m.store k l).nextRound = m.nextRound := rfl
@[simp] theorem Mach.store_dies (m : Mach) (k : Nat) (l : List Byte) : (m.store k l).dies = m.dies := rfl
@[simp] theorem Mach.store_moves (m : Mach) (k : Nat) (l : List Byte) : (m.store k l).moves = m.moves := rfl
@[simp] theorem Mach.store_asids (m : Mach) (k : Nat) (l : List Byte) : (m.store k l).asids = m.asids := rfl
@[simp] theorem Mach.store_coefs (m : Mach) (k : Nat) (l : List Byte) : (m.store k l).coefs = m.coefs := rfl
@[simp] theorem Mach.store_pkg (m : Mach) (k : Nat) (l : List Byte) : (m.store k l).pkg = m.pkg := rfl
@[simp] theorem Mach.store_gw (m : Mach) (k : Nat) (l : List Byte) : (m.store k l).gw = m.gw := rfl
@[simp] theorem Mach.store_ucie (m : Mach) (k : Nat) (l : List Byte) : (m.store k l).ucie = m.ucie := rfl
@[simp] theorem Mach.store_wire (m : Mach) (k : Nat) (l : List Byte) : (m.store k l).wire = m.wire := rfl
@[simp] theorem Mach.store_unacked (m : Mach) (k : Nat) (l : List Byte) : (m.store k l).unacked = m.unacked := rfl
@[simp] theorem Mach.store_seqs (m : Mach) (k : Nat) (l : List Byte) : (m.store k l).seqs = m.seqs := rfl
@[simp] theorem Mach.store_consumed (m : Mach) (k : Nat) (l : List Byte) : (m.store k l).consumed = m.consumed := rfl
@[simp] theorem Mach.store_heldDel (m : Mach) (k : Nat) (l : List Byte) : (m.store k l).heldDel = m.heldDel := rfl
@[simp] theorem Mach.store_swRegs (m : Mach) (k : Nat) (l : List Byte) : (m.store k l).swRegs = m.swRegs := rfl
@[simp] theorem Mach.store_redSlots (m : Mach) (k : Nat) (l : List Byte) : (m.store k l).redSlots = m.redSlots := rfl
@[simp] theorem Mach.store_gathers (m : Mach) (k : Nat) (l : List Byte) : (m.store k l).gathers = m.gathers := rfl
@[simp] theorem Mach.store_relays (m : Mach) (k : Nat) (l : List Byte) : (m.store k l).relays = m.relays := rfl
@[simp] theorem Mach.store_redParts (m : Mach) (k : Nat) (l : List Byte) : (m.store k l).redParts = m.redParts := rfl
@[simp] theorem Mach.store_hostWrites (m : Mach) (k : Nat) (l : List Byte) : (m.store k l).hostWrites = m.hostWrites := rfl
@[simp] theorem Mach.store_exchs (m : Mach) (k : Nat) (l : List Byte) : (m.store k l).exchs = m.exchs := rfl
@[simp] theorem Mach.store_hbm (m : Mach) (k : Nat) (l : List Byte) : (m.store k l).hbm = m.hbm := rfl
@[simp] theorem Mach.store_health (m : Mach) (k : Nat) (l : List Byte) : (m.store k l).health = m.health := rfl
@[simp] theorem Mach.store_jtagPriv (m : Mach) (k : Nat) (l : List Byte) : (m.store k l).jtagPriv = m.jtagPriv := rfl
@[simp] theorem Mach.store_tap (m : Mach) (k : Nat) (l : List Byte) : (m.store k l).tap = m.tap := rfl
@[simp] theorem Mach.store_irqs (m : Mach) (k : Nat) (l : List Byte) : (m.store k l).irqs = m.irqs := rfl

/-! ### Mach.storeWord -/

@[simp] theorem Mach.storeWord_agenda (m : Mach) (k v : Nat) : (m.storeWord k v).agenda = m.agenda := rfl
@[simp] theorem Mach.storeWord_timers (m : Mach) (k v : Nat) : (m.storeWord k v).timers = m.timers := rfl
@[simp] theorem Mach.storeWord_cur (m : Mach) (k v : Nat) : (m.storeWord k v).cur = m.cur := rfl
@[simp] theorem Mach.storeWord_agent (m : Mach) (k v : Nat) : (m.storeWord k v).agent = m.agent := rfl
@[simp] theorem Mach.storeWord_saTurn (m : Mach) (k v : Nat) : (m.storeWord k v).saTurn = m.saTurn := rfl
@[simp] theorem Mach.storeWord_tick (m : Mach) (k v : Nat) : (m.storeWord k v).tick = m.tick := rfl
@[simp] theorem Mach.storeWord_cycle (m : Mach) (k v : Nat) : (m.storeWord k v).cycle = m.cycle := rfl
@[simp] theorem Mach.storeWord_cores (m : Mach) (k v : Nat) : (m.storeWord k v).cores = m.cores := rfl
@[simp] theorem Mach.storeWord_images (m : Mach) (k v : Nat) : (m.storeWord k v).images = m.images := rfl
@[simp] theorem Mach.storeWord_ctxs (m : Mach) (k v : Nat) : (m.storeWord k v).ctxs = m.ctxs := rfl
@[simp] theorem Mach.storeWord_fns (m : Mach) (k v : Nat) : (m.storeWord k v).fns = m.fns := rfl
@[simp] theorem Mach.storeWord_queues (m : Mach) (k v : Nat) : (m.storeWord k v).queues = m.queues := rfl
@[simp] theorem Mach.storeWord_launches (m : Mach) (k v : Nat) : (m.storeWord k v).launches = m.launches := rfl
@[simp] theorem Mach.storeWord_nextLaunch (m : Mach) (k v : Nat) : (m.storeWord k v).nextLaunch = m.nextLaunch := rfl
@[simp] theorem Mach.storeWord_rounds (m : Mach) (k v : Nat) : (m.storeWord k v).rounds = m.rounds := rfl
@[simp] theorem Mach.storeWord_nextRound (m : Mach) (k v : Nat) : (m.storeWord k v).nextRound = m.nextRound := rfl
@[simp] theorem Mach.storeWord_dies (m : Mach) (k v : Nat) : (m.storeWord k v).dies = m.dies := rfl
@[simp] theorem Mach.storeWord_moves (m : Mach) (k v : Nat) : (m.storeWord k v).moves = m.moves := rfl
@[simp] theorem Mach.storeWord_asids (m : Mach) (k v : Nat) : (m.storeWord k v).asids = m.asids := rfl
@[simp] theorem Mach.storeWord_coefs (m : Mach) (k v : Nat) : (m.storeWord k v).coefs = m.coefs := rfl
@[simp] theorem Mach.storeWord_pkg (m : Mach) (k v : Nat) : (m.storeWord k v).pkg = m.pkg := rfl
@[simp] theorem Mach.storeWord_gw (m : Mach) (k v : Nat) : (m.storeWord k v).gw = m.gw := rfl
@[simp] theorem Mach.storeWord_ucie (m : Mach) (k v : Nat) : (m.storeWord k v).ucie = m.ucie := rfl
@[simp] theorem Mach.storeWord_wire (m : Mach) (k v : Nat) : (m.storeWord k v).wire = m.wire := rfl
@[simp] theorem Mach.storeWord_unacked (m : Mach) (k v : Nat) : (m.storeWord k v).unacked = m.unacked := rfl
@[simp] theorem Mach.storeWord_seqs (m : Mach) (k v : Nat) : (m.storeWord k v).seqs = m.seqs := rfl
@[simp] theorem Mach.storeWord_consumed (m : Mach) (k v : Nat) : (m.storeWord k v).consumed = m.consumed := rfl
@[simp] theorem Mach.storeWord_heldDel (m : Mach) (k v : Nat) : (m.storeWord k v).heldDel = m.heldDel := rfl
@[simp] theorem Mach.storeWord_swRegs (m : Mach) (k v : Nat) : (m.storeWord k v).swRegs = m.swRegs := rfl
@[simp] theorem Mach.storeWord_redSlots (m : Mach) (k v : Nat) : (m.storeWord k v).redSlots = m.redSlots := rfl
@[simp] theorem Mach.storeWord_gathers (m : Mach) (k v : Nat) : (m.storeWord k v).gathers = m.gathers := rfl
@[simp] theorem Mach.storeWord_relays (m : Mach) (k v : Nat) : (m.storeWord k v).relays = m.relays := rfl
@[simp] theorem Mach.storeWord_redParts (m : Mach) (k v : Nat) : (m.storeWord k v).redParts = m.redParts := rfl
@[simp] theorem Mach.storeWord_hostWrites (m : Mach) (k v : Nat) : (m.storeWord k v).hostWrites = m.hostWrites := rfl
@[simp] theorem Mach.storeWord_exchs (m : Mach) (k v : Nat) : (m.storeWord k v).exchs = m.exchs := rfl
@[simp] theorem Mach.storeWord_hbm (m : Mach) (k v : Nat) : (m.storeWord k v).hbm = m.hbm := rfl
@[simp] theorem Mach.storeWord_health (m : Mach) (k v : Nat) : (m.storeWord k v).health = m.health := rfl
@[simp] theorem Mach.storeWord_jtagPriv (m : Mach) (k v : Nat) : (m.storeWord k v).jtagPriv = m.jtagPriv := rfl
@[simp] theorem Mach.storeWord_tap (m : Mach) (k v : Nat) : (m.storeWord k v).tap = m.tap := rfl
@[simp] theorem Mach.storeWord_irqs (m : Mach) (k v : Nat) : (m.storeWord k v).irqs = m.irqs := rfl

/-! ## Updates of a sequencer -/

theorem Seq.put_zero (s : Seq) (v : W64) : s.put 0 v = s := by simp [Seq.put]
theorem Seq.put_eq (s : Seq) {r : Reg} (v : W64) (h : r ≠ 0) :
    s.put r v = { s with regs := vset s.regs (physReg s.rrb r) v } := by simp [Seq.put, h]

/-- Writing a register changes nothing but the registers. -/
theorem Seq.put_frame (s : Seq) (r : Reg) (v : W64) : { s.put r v with regs := s.regs } = s := by
  unfold Seq.put
  split <;> rfl

@[simp] theorem Seq.put_st (s : Seq) (r : Reg) (v : W64) : (s.put r v).st = s.st := by unfold Seq.put; split <;> rfl
@[simp] theorem Seq.put_rrb (s : Seq) (r : Reg) (v : W64) : (s.put r v).rrb = s.rrb := by unfold Seq.put; split <;> rfl
@[simp] theorem Seq.put_preds (s : Seq) (r : Reg) (v : W64) : (s.put r v).preds = s.preds := by unfold Seq.put; split <;> rfl
@[simp] theorem Seq.put_loops (s : Seq) (r : Reg) (v : W64) : (s.put r v).loops = s.loops := by unfold Seq.put; split <;> rfl
@[simp] theorem Seq.put_order (s : Seq) (r : Reg) (v : W64) : (s.put r v).order = s.order := by unfold Seq.put; split <;> rfl
@[simp] theorem Seq.put_looped (s : Seq) (r : Reg) (v : W64) : (s.put r v).looped = s.looped := by unfold Seq.put; split <;> rfl
@[simp] theorem Seq.put_sq (s : Seq) (r : Reg) (v : W64) : (s.put r v).sq = s.sq := by unfold Seq.put; split <;> rfl
@[simp] theorem Seq.put_handler (s : Seq) (r : Reg) (v : W64) : (s.put r v).handler = s.handler := by unfold Seq.put; split <;> rfl
@[simp] theorem Seq.put_sret (s : Seq) (r : Reg) (v : W64) : (s.put r v).sret = s.sret := by unfold Seq.put; split <;> rfl
@[simp] theorem Seq.put_tvec (s : Seq) (r : Reg) (v : W64) : (s.put r v).tvec = s.tvec := by unfold Seq.put; split <;> rfl
@[simp] theorem Seq.put_tcode (s : Seq) (r : Reg) (v : W64) : (s.put r v).tcode = s.tcode := by unfold Seq.put; split <;> rfl
@[simp] theorem Seq.put_tstrm (s : Seq) (r : Reg) (v : W64) : (s.put r v).tstrm = s.tstrm := by unfold Seq.put; split <;> rfl
@[simp] theorem Seq.put_ten (s : Seq) (r : Reg) (v : W64) : (s.put r v).ten = s.ten := by unfold Seq.put; split <;> rfl
@[simp] theorem Seq.put_tpc (s : Seq) (r : Reg) (v : W64) : (s.put r v).tpc = s.tpc := by unfold Seq.put; split <;> rfl
@[simp] theorem Seq.put_tval (s : Seq) (r : Reg) (v : W64) : (s.put r v).tval = s.tval := by unfold Seq.put; split <;> rfl
@[simp] theorem Seq.put_rcol (s : Seq) (r : Reg) (v : W64) : (s.put r v).rcol = s.rcol := by unfold Seq.put; split <;> rfl
@[simp] theorem Seq.put_rrow (s : Seq) (r : Reg) (v : W64) : (s.put r v).rrow = s.rrow := by unfold Seq.put; split <;> rfl
@[simp] theorem Seq.put_rstrm (s : Seq) (r : Reg) (v : W64) : (s.put r v).rstrm = s.rstrm := by unfold Seq.put; split <;> rfl
@[simp] theorem Seq.put_rvalid (s : Seq) (r : Reg) (v : W64) : (s.put r v).rvalid = s.rvalid := by unfold Seq.put; split <;> rfl
@[simp] theorem Seq.put_snr (s : Seq) (r : Reg) (v : W64) : (s.put r v).snr = s.snr := by unfold Seq.put; split <;> rfl
@[simp] theorem Seq.put_lstages (s : Seq) (r : Reg) (v : W64) : (s.put r v).lstages = s.lstages := by unfold Seq.put; split <;> rfl
@[simp] theorem Seq.put_rmode (s : Seq) (r : Reg) (v : W64) : (s.put r v).rmode = s.rmode := by unfold Seq.put; split <;> rfl
@[simp] theorem Seq.put_seed (s : Seq) (r : Reg) (v : W64) : (s.put r v).seed = s.seed := by unfold Seq.put; split <;> rfl
@[simp] theorem Seq.put_stsat (s : Seq) (r : Reg) (v : W64) : (s.put r v).stsat = s.stsat := by unfold Seq.put; split <;> rfl
@[simp] theorem Seq.put_arsat (s : Seq) (r : Reg) (v : W64) : (s.put r v).arsat = s.arsat := by unfold Seq.put; split <;> rfl
@[simp] theorem Seq.put_scaleOff (s : Seq) (r : Reg) (v : W64) : (s.put r v).scaleOff = s.scaleOff := by unfold Seq.put; split <;> rfl
@[simp] theorem Seq.put_spinLimit (s : Seq) (r : Reg) (v : W64) : (s.put r v).spinLimit = s.spinLimit := by unfold Seq.put; split <;> rfl
@[simp] theorem Seq.put_spinCount (s : Seq) (r : Reg) (v : W64) : (s.put r v).spinCount = s.spinCount := by unfold Seq.put; split <;> rfl
@[simp] theorem Seq.put_prefetch (s : Seq) (r : Reg) (v : W64) : (s.put r v).prefetch = s.prefetch := by unfold Seq.put; split <;> rfl
@[simp] theorem Seq.put_trapen (s : Seq) (r : Reg) (v : W64) : (s.put r v).trapen = s.trapen := by unfold Seq.put; split <;> rfl

/-! ## Updates of an instance -/

@[simp] theorem Inst.setStream_id (i : Inst) (e : Eng) (st : Stream) : (i.setStream e st).id = i.id := by cases e <;> rfl
@[simp] theorem Inst.setStream_fifo (i : Inst) (e : Eng) (st : Stream) : (i.setStream e st).fifo = i.fifo := by cases e <;> rfl
@[simp] theorem Inst.setStream_pad (i : Inst) (e : Eng) (st : Stream) : (i.setStream e st).pad = i.pad := by cases e <;> rfl
@[simp] theorem Inst.setStream_toks (i : Inst) (e : Eng) (st : Stream) : (i.setStream e st).toks = i.toks := by cases e <;> rfl
@[simp] theorem Inst.setStream_flags (i : Inst) (e : Eng) (st : Stream) : (i.setStream e st).flags = i.flags := by cases e <;> rfl
@[simp] theorem Inst.setStream_gens (i : Inst) (e : Eng) (st : Stream) : (i.setStream e st).gens = i.gens := by cases e <;> rfl
@[simp] theorem Inst.setStream_arrivals (i : Inst) (e : Eng) (st : Stream) : (i.setStream e st).arrivals = i.arrivals := by cases e <;> rfl
@[simp] theorem Inst.setStream_regs (i : Inst) (e : Eng) (st : Stream) : (i.setStream e st).regs = i.regs := by cases e <;> rfl
@[simp] theorem Inst.setStream_dbg (i : Inst) (e : Eng) (st : Stream) : (i.setStream e st).dbg = i.dbg := by cases e <;> rfl
@[simp] theorem Inst.setStream_sig (i : Inst) (e : Eng) (st : Stream) : (i.setStream e st).sig = i.sig := by cases e <;> rfl
@[simp] theorem Inst.setStream_source (i : Inst) (e : Eng) (st : Stream) : (i.setStream e st).source = i.source := by cases e <;> rfl
@[simp] theorem Inst.setStream_faulted (i : Inst) (e : Eng) (st : Stream) : (i.setStream e st).faulted = i.faulted := by cases e <;> rfl
@[simp] theorem Inst.setStream_taking (i : Inst) (e : Eng) (st : Stream) : (i.setStream e st).taking = i.taking := by cases e <;> rfl
@[simp] theorem Inst.setStream_parked (i : Inst) (e : Eng) (st : Stream) : (i.setStream e st).parked = i.parked := by cases e <;> rfl
@[simp] theorem Inst.setStream_fresh (i : Inst) (e : Eng) (st : Stream) : (i.setStream e st).fresh = i.fresh := by cases e <;> rfl
@[simp] theorem Inst.setStream_partAt (i : Inst) (e : Eng) (st : Stream) : (i.setStream e st).partAt = i.partAt := by cases e <;> rfl
@[simp] theorem Inst.setStream_lost (i : Inst) (e : Eng) (st : Stream) : (i.setStream e st).lost = i.lost := by cases e <;> rfl
@[simp] theorem Inst.setTokens_id (i : Inst) (a b : Eng) (n : Nat) : (i.setTokens a b n).id = i.id := rfl
@[simp] theorem Inst.setTokens_s (i : Inst) (a b : Eng) (n : Nat) : (i.setTokens a b n).s = i.s := rfl
@[simp] theorem Inst.setTokens_v (i : Inst) (a b : Eng) (n : Nat) : (i.setTokens a b n).v = i.v := rfl
@[simp] theorem Inst.setTokens_m (i : Inst) (a b : Eng) (n : Nat) : (i.setTokens a b n).m = i.m := rfl
@[simp] theorem Inst.setTokens_x (i : Inst) (a b : Eng) (n : Nat) : (i.setTokens a b n).x = i.x := rfl
@[simp] theorem Inst.setTokens_fifo (i : Inst) (a b : Eng) (n : Nat) : (i.setTokens a b n).fifo = i.fifo := rfl
@[simp] theorem Inst.setTokens_pad (i : Inst) (a b : Eng) (n : Nat) : (i.setTokens a b n).pad = i.pad := rfl
@[simp] theorem Inst.setTokens_flags (i : Inst) (a b : Eng) (n : Nat) : (i.setTokens a b n).flags = i.flags := rfl
@[simp] theorem Inst.setTokens_gens (i : Inst) (a b : Eng) (n : Nat) : (i.setTokens a b n).gens = i.gens := rfl
@[simp] theorem Inst.setTokens_arrivals (i : Inst) (a b : Eng) (n : Nat) : (i.setTokens a b n).arrivals = i.arrivals := rfl
@[simp] theorem Inst.setTokens_regs (i : Inst) (a b : Eng) (n : Nat) : (i.setTokens a b n).regs = i.regs := rfl
@[simp] theorem Inst.setTokens_dbg (i : Inst) (a b : Eng) (n : Nat) : (i.setTokens a b n).dbg = i.dbg := rfl
@[simp] theorem Inst.setTokens_sig (i : Inst) (a b : Eng) (n : Nat) : (i.setTokens a b n).sig = i.sig := rfl
@[simp] theorem Inst.setTokens_source (i : Inst) (a b : Eng) (n : Nat) : (i.setTokens a b n).source = i.source := rfl
@[simp] theorem Inst.setTokens_faulted (i : Inst) (a b : Eng) (n : Nat) : (i.setTokens a b n).faulted = i.faulted := rfl
@[simp] theorem Inst.setTokens_taking (i : Inst) (a b : Eng) (n : Nat) : (i.setTokens a b n).taking = i.taking := rfl
@[simp] theorem Inst.setTokens_parked (i : Inst) (a b : Eng) (n : Nat) : (i.setTokens a b n).parked = i.parked := rfl
@[simp] theorem Inst.setTokens_fresh (i : Inst) (a b : Eng) (n : Nat) : (i.setTokens a b n).fresh = i.fresh := rfl
@[simp] theorem Inst.setTokens_partAt (i : Inst) (a b : Eng) (n : Nat) : (i.setTokens a b n).partAt = i.partAt := rfl
@[simp] theorem Inst.setTokens_lost (i : Inst) (a b : Eng) (n : Nat) : (i.setTokens a b n).lost = i.lost := rfl
@[simp] theorem Inst.addFlags_id (i : Inst) (e : Eng) (x : BitVec 6) : (i.addFlags e x).id = i.id := rfl
@[simp] theorem Inst.addFlags_s (i : Inst) (e : Eng) (x : BitVec 6) : (i.addFlags e x).s = i.s := rfl
@[simp] theorem Inst.addFlags_v (i : Inst) (e : Eng) (x : BitVec 6) : (i.addFlags e x).v = i.v := rfl
@[simp] theorem Inst.addFlags_m (i : Inst) (e : Eng) (x : BitVec 6) : (i.addFlags e x).m = i.m := rfl
@[simp] theorem Inst.addFlags_x (i : Inst) (e : Eng) (x : BitVec 6) : (i.addFlags e x).x = i.x := rfl
@[simp] theorem Inst.addFlags_fifo (i : Inst) (e : Eng) (x : BitVec 6) : (i.addFlags e x).fifo = i.fifo := rfl
@[simp] theorem Inst.addFlags_pad (i : Inst) (e : Eng) (x : BitVec 6) : (i.addFlags e x).pad = i.pad := rfl
@[simp] theorem Inst.addFlags_toks (i : Inst) (e : Eng) (x : BitVec 6) : (i.addFlags e x).toks = i.toks := rfl
@[simp] theorem Inst.addFlags_gens (i : Inst) (e : Eng) (x : BitVec 6) : (i.addFlags e x).gens = i.gens := rfl
@[simp] theorem Inst.addFlags_arrivals (i : Inst) (e : Eng) (x : BitVec 6) : (i.addFlags e x).arrivals = i.arrivals := rfl
@[simp] theorem Inst.addFlags_regs (i : Inst) (e : Eng) (x : BitVec 6) : (i.addFlags e x).regs = i.regs := rfl
@[simp] theorem Inst.addFlags_dbg (i : Inst) (e : Eng) (x : BitVec 6) : (i.addFlags e x).dbg = i.dbg := rfl
@[simp] theorem Inst.addFlags_sig (i : Inst) (e : Eng) (x : BitVec 6) : (i.addFlags e x).sig = i.sig := rfl
@[simp] theorem Inst.addFlags_source (i : Inst) (e : Eng) (x : BitVec 6) : (i.addFlags e x).source = i.source := rfl
@[simp] theorem Inst.addFlags_faulted (i : Inst) (e : Eng) (x : BitVec 6) : (i.addFlags e x).faulted = i.faulted := rfl
@[simp] theorem Inst.addFlags_taking (i : Inst) (e : Eng) (x : BitVec 6) : (i.addFlags e x).taking = i.taking := rfl
@[simp] theorem Inst.addFlags_parked (i : Inst) (e : Eng) (x : BitVec 6) : (i.addFlags e x).parked = i.parked := rfl
@[simp] theorem Inst.addFlags_fresh (i : Inst) (e : Eng) (x : BitVec 6) : (i.addFlags e x).fresh = i.fresh := rfl
@[simp] theorem Inst.addFlags_partAt (i : Inst) (e : Eng) (x : BitVec 6) : (i.addFlags e x).partAt = i.partAt := rfl
@[simp] theorem Inst.addFlags_lost (i : Inst) (e : Eng) (x : BitVec 6) : (i.addFlags e x).lost = i.lost := rfl
@[simp] theorem Inst.setStream_stream (i : Inst) (e : Eng) (st : Stream) : (i.setStream e st).stream e = st := by
  cases e <;> rfl

end Sys2Proof.Machine
end

