-- ==== Sys2Proof/Laws/Run.lean ====
section
/-! SUPPORT. How a computation that may stop runs, piece by piece: these equations run a meaning symbolically. -/

namespace Sys2Proof.Machine
open Sys2Proof

section
variable {α β : Type} (m : Mach)

@[simp] theorem Run.go_pure (a : α) : (pure a : Run α).go m = (.ok a, m) := rfl

theorem Run.go_bind (x : Run α) (f : α → Run β) :
    (x >>= f).go m = match x.go m with | (.ok a, m') => (f a).go m' | (.error e, m') => (.error e, m') := by
  simp only [Run.go, ExceptT.run, bind, ExceptT.bind, ExceptT.mk, StateT.run, StateT.bind, Id.run]
  generalize x m = r
  obtain ⟨r, m'⟩ := r
  cases r <;> rfl

/-- A part that goes on hands its result to the rest. -/
theorem Run.go_bind_ok {x : Run α} {f : α → Run β} {a : α} {m m' : Mach} (h : x.go m = (.ok a, m')) :
    (x >>= f).go m = (f a).go m' := by rw [Run.go_bind, h]

/-- A part that stops, stops the whole. -/
theorem Run.go_bind_error {x : Run α} {f : α → Run β} {e : Stop} {m m' : Mach} (h : x.go m = (.error e, m')) :
    (x >>= f).go m = (.error e, m') := by rw [Run.go_bind, h]

@[simp] theorem Run.go_get : (get : Run Mach).go m = (.ok m, m) := rfl
@[simp] theorem Run.go_set (x : Mach) : (set x : Run Unit).go m = (.ok (), x) := rfl
@[simp] theorem Run.go_modify (f : Mach → Mach) : (modify f : Run Unit).go m = (.ok (), f m) := rfl
@[simp] theorem Run.go_throw (e : Stop) : (throw e : Run α).go m = (.error e, m) := rfl
@[simp] theorem Run.go_trap (k : Cause) (v : Nat) : (trap k v : Run α).go m = (.error (.trap k (BitVec.ofNat 64 v)), m) := rfl
@[simp] theorem Run.go_waitFor (k : WaitKind) : (waitFor k : Run α).go m = (.error (.wait k), m) := rfl
@[simp] theorem Run.go_getInst (c : CoreId) : (getInst c).go m = (.ok (m.inst c), m) := rfl
@[simp] theorem Run.go_setInst (c : CoreId) (f : Inst → Inst) : (setInst c f).go m = (.ok (), m.modInst c f) := rfl

theorem Run.go_require (b : Bool) (k : Cause) (v : Nat) :
    (require b k v).go m = if b then (.ok (), m) else (.error (.trap k (BitVec.ofNat 64 v)), m) := by
  cases b <;> rfl

@[simp] theorem Run.go_require_true {b : Bool} (k : Cause) (v : Nat) (h : b = true) :
    (require b k v).go m = (.ok (), m) := by rw [Run.go_require, if_pos h]

theorem Run.go_tryCatch (x : Run α) (f : Stop → Run α) :
    (tryCatch x f).go m = match x.go m with | (.ok a, m') => (.ok a, m') | (.error e, m') => (f e).go m' := by
  simp only [Run.go, tryCatch, tryCatchThe, MonadExceptOf.tryCatch, ExceptT.tryCatch, ExceptT.run, ExceptT.mk, bind,
    StateT.run, StateT.bind, Id.run]
  generalize x m = r
  obtain ⟨r, m'⟩ := r
  cases r <;> rfl

theorem Run.go_ite (p : Prop) [Decidable p] (x y : Run α) : (if p then x else y).go m = if p then x.go m else y.go m := by
  split <;> rfl

@[simp] theorem Run.go_map (f : α → β) (x : Run α) :
    (f <$> x).go m = match x.go m with | (.ok a, m') => (.ok (f a), m') | (.error e, m') => (.error e, m') := by
  simp only [Run.go, Functor.map, ExceptT.map, ExceptT.run, ExceptT.mk, bind, StateT.run, StateT.bind, Id.run]
  generalize x m = r
  obtain ⟨r, m'⟩ := r
  cases r <;> rfl

end

end Sys2Proof.Machine
end

