-- ==== Sys2Proof/Laws/Words.lean ====
section
/-! SUPPORT. What the shared operations of words do: the end of a word of S, its stops, the finish of a word of V, M
or X, and taking a trap. -/

namespace Sys2Proof.Machine
open Sys2Proof

/-! ## Updates that follow one another -/

theorem vset_vset {α : Type} {n : Nat} (v : Vector α n) (i : Fin n) (x y : α) : vset (vset v i x) i y = vset v i y := by
  simp [vset]

theorem Mach.setCore_setCore (m : Mach) (c : CoreId) (x y : Core) : (m.setCore c x).setCore c y = m.setCore c y := by
  simp [Mach.setCore, vset_vset]

theorem Mach.setInst_setInst (m : Mach) (c : CoreId) (x y : Inst) : (m.setInst c x).setInst c y = m.setInst c y := by
  simp [Mach.setInst_eq, Mach.setCore_setCore]

theorem Mach.modInst_modInst (m : Mach) (c : CoreId) (f g : Inst → Inst) :
    (m.modInst c f).modInst c g = m.modInst c fun i => g (f i) := by
  simp [Mach.modInst_eq, Mach.setInst_setInst]

theorem vset_self {α : Type} {n : Nat} (v : Vector α n) (i : Fin n) : vset v i (v.get i) = v := by
  simp [vset, Vector.get_eq_getElem]

theorem Mach.setInst_self (m : Mach) (c : CoreId) : m.setInst c (m.inst c) = m := by
  show { m with cores := vset m.cores c (m.cores.get c) } = m
  rw [vset_self]

/-! ## Waits -/

/-- Where a stream does not wait, ending its wait does nothing. -/
theorem Mach.endWait_of_none (m : Mach) (c : CoreId) (e : Eng) (o : Nat) (h : ((m.inst c).stream e).wait = none) :
    m.endWait c e o = m := by simp [Mach.endWait, h]

/-- The instance of a core after a completed word of S that does not end a wait. -/
def Inst.sDone (i : Inst) : Inst :=
  { i with
    pad := i.pad.forget .S
    s := { i.s with checking := false }
    dbg := { i.dbg with
      watchSkip := if i.dbg.watchSkip = some i.s.st.pc || !i.s.handler then none else i.dbg.watchSkip
      ran := i.dbg.ran || i.dbg.stepping == some .S } }

/-- Going on looks at nothing that a re-check in progress sets. -/
theorem Seq.advance_with_checking (s : Seq) (b : Bool) : { s with checking := b }.advance = { s.advance with checking := b } := by
  unfold Seq.advance Seq.loopEnd
  simp only
  split
  · split
    · split <;> rfl
    · rfl
  · rfl

/-- Where a word of S goes. -/
def Flow.next (f : Flow) (s : Seq) : Seq :=
  match f with | .fall => s.advance | .jump t => s.jump t | .goto t => s.goto t | .stay => s

/-- Nor does any other flow. -/
theorem Flow.next_with_checking (f : Flow) (s : Seq) (b : Bool) :
    f.next { s with checking := b } = { f.next s with checking := b } := by
  cases f with
  | fall => exact Seq.advance_with_checking s b
  | jump t => unfold Flow.next Seq.jump; simp only; split <;> rfl
  | goto t => rfl
  | stay => rfl

theorem Mach.sDone_of_none (m : Mach) (c : CoreId) (h : (m.inst c).s.st.wait = none) :
    m.sDone c = m.modInst c Inst.sDone := by
  rw [Mach.sDone, Mach.endWait_of_none m c .S 0 h]
  rfl

/-- A completed word of S that has not waited changes the instance alone. -/
theorem Mach.sFlow_of_none (m : Mach) (c : CoreId) (f : Flow) (h : (m.inst c).s.st.wait = none) :
    m.sFlow c f = m.setInst c { (m.inst c).sDone with s := { f.next (m.inst c).s with checking := false } } := by
  simp only [Mach.sFlow, Mach.sDone_of_none m c h, Mach.modSeq_eq, Mach.modInst_modInst]
  rw [Mach.modInst_eq, ← Flow.next_with_checking f (m.inst c).s false]
  cases f <;> rfl

/-- A word of S that computes one register from registers. -/
theorem Mach.sResult_of_none (m : Mach) (c : CoreId) (d : Reg) (v : W64) (h : (m.inst c).s.st.wait = none) :
    m.sResult c d v =
      m.setInst c { (m.inst c).sDone with s := { ((m.inst c).s.put d v).advance with checking := false } } := by
  have h' : ((m.modSeq c fun s => s.put d v).inst c).s.st.wait = none := by simp [h]
  rw [Mach.sResult, Mach.sFlow_of_none _ c .fall h', Mach.modSeq_inst, Mach.modSeq_eq, Mach.modInst_eq,
    Mach.setInst_setInst]
  simp [Inst.sDone, Flow.next]

/-- A word of S that completes: what its computation leaves, and then its flow. -/
theorem Mach.sWord_ok (m : Mach) (c : CoreId) (word : Instr) (f : Run Flow) {fl : Flow} {m' : Mach}
    (h : f.go m = (.ok fl, m')) : m.sWord c word f = m'.sFlow c fl := by simp [Mach.sWord, h]

/-- A word of S that stops. -/
theorem Mach.sWord_error (m : Mach) (c : CoreId) (word : Instr) (f : Run Flow) {st : Stop} {m' : Mach}
    (h : f.go m = (.error st, m')) : m.sWord c word f = m'.sStop c word st := by simp [Mach.sWord, h]

/-! ## The flow of S -/

/-- Going on past a word that ends no body. -/
theorem Seq.advance_of_not_end (s : Seq) (h : s.handler = true ∨ ∀ n, s.order.head? = some n → (s.loops.get n).stop ≠ s.st.pc) :
    s.advance = { s with st := { s.st with pc := s.st.pc + 4 }, looped := false } := by
  unfold Seq.advance
  split
  · next h1 h2 =>
    rcases h with h | h
    · simp [h] at h1
    · rw [if_neg (h _ (by simp [h2]))]
  · rfl

/-- Going on past the last word of the innermost body: the loop-end event. -/
theorem Seq.advance_of_end (s : Seq) {n : Fin 4} (h : s.handler = false) (ho : s.order.head? = some n)
    (hp : (s.loops.get n).stop = s.st.pc) : s.advance = { s.loopEnd n with looped := true } := by
  obtain ⟨k, hk⟩ : ∃ k, s.order = n :: k := by
    cases ho' : s.order with
    | nil => simp [ho'] at ho
    | cons a t => exact ⟨t, by simp [ho'] at ho; rw [ho]⟩
  unfold Seq.advance
  simp [h, hk, hp]

/-- The loop-end event touches no register. -/
@[simp] theorem Seq.loopEnd_regs (s : Seq) (n : Fin 4) : (s.loopEnd n).regs = s.regs := by
  unfold Seq.loopEnd
  simp only
  split <;> rfl

/-- Going on touches no register. -/
@[simp] theorem Seq.advance_regs (s : Seq) : s.advance.regs = s.regs := by
  unfold Seq.advance
  split
  · split <;> simp
  · rfl

/-- Going on looks at no register. -/
theorem Seq.advance_with_regs (s : Seq) (r : Vector W64 32) : { s with regs := r }.advance = { s.advance with regs := r } := by
  unfold Seq.advance Seq.loopEnd
  simp only
  split
  · split
    · split <;> rfl
    · rfl
  · rfl

/-- A result written before a word goes on. -/
theorem Seq.put_advance (s : Seq) (d : Reg) (v : W64) :
    (s.put d v).advance = { s.advance with regs := (s.put d v).regs } := by
  by_cases h : d = 0
  · subst h; rw [Seq.put_zero]
    rw [← Seq.advance_regs]
  · rw [Seq.put_eq s v h, Seq.advance_with_regs]

/-- The physical registers after a result: the one that the logical register names, unless it is s0. -/
theorem Seq.put_regs_get (s : Seq) (d : Reg) (v : W64) (r : Fin 32) :
    (s.put d v).regs.get r = if d ≠ 0 ∧ r = physReg s.rrb d then v else s.regs.get r := by
  by_cases h : d = 0
  · simp [h, Seq.put_zero]
  · rw [Seq.put_eq s v h]
    by_cases hr : r = physReg s.rrb d
    · simp [h, hr]
    · simp [hr, vset_get_of_ne]

/-! ## Words of V, M and X -/

/-- The instance of a core after a completed word of V, M or X. -/
def Inst.eDone (i : Inst) (e : Eng) : Inst :=
  { i.modStream e fun st => { st with pc := st.pc + 4, popped := false, pushing := none } with
    pad := i.pad.forget e
    dbg := { i.dbg with ran := i.dbg.ran || i.dbg.stepping == some e } }

theorem Mach.eAdvance_of_none (m : Mach) (c : CoreId) (e : Eng) (h : ((m.inst c).stream e).wait = none) :
    m.eAdvance c e = m.modInst c fun i => i.eDone e := by
  rw [Mach.eAdvance, Mach.endWait_of_none m c e 0 h]
  cases e <;> rfl

end Sys2Proof.Machine
end

