-- ==== Sys2Proof/Tests/Slice0.lean ====
section
/-! SUPPORT. Tests: words written out from the encodings of the spec, single steps whose results the spec works out, and
for every statement states that meet the hypotheses of its clauses. -/

namespace Sys2Proof.Tests
set_option Elab.async false
open Sys2Proof Sys2Proof.Machine Sys2Proof.Claims

/-! ## Words of the spec and the instructions they stand for -/

/-- Table 2.11, R126–R128: the integer and immediate groups. -/
theorem test_decode_integer :
    decode .S 0x02952C01 = .ok (.sub 9 10 11) ∧ decode .S 0x10630001 = .ok (.addi 6 6 1)
    ∧ decode .S 0x10327FFE = .ok (.addi 3 4 0x7FFE) ∧ decode .S 0x10528678 = .ok (.addi 5 5 0x678)
    ∧ decode .S 0x22512345 = .ok (.lui 5 0x12345) := by decide +kernel

/-- R129: the FP32 group. -/
theorem test_decode_float : decode .S 0x04429803 = .ok (.ffma 4 5 6) := by decide +kernel

/-- Table 2.11, R133, R136, R139: branches and loops. -/
theorem test_decode_flow :
    decode .S 0x32507FFD = .ok (.bne 5 0 0x7FFD) ∧ decode .S 0x3C100002 = .ok (.bpred 1 2)
    ∧ decode .S 0x4640C807 = .ok (.loopi 0 true false 100 7) ∧ decode .S 0x46200602 = .ok (.loopi 0 false true 3 2)
    ∧ decode .S 0x48800000 = .ok (.leave 1) ∧ decode .S 0x70000000 = .ok .exit := by decide +kernel

/-- Table 2.11, R137, R138: loads, stores and atomics. -/
theorem test_decode_memory :
    decode .S 0x50322010 = .ok (.ld 3 4 2 0x010) ∧ decode .S 0x54713008 = .ok (.st 7 2 3 8)
    ∧ decode .S 0x5863A102 = .ok (.amo 6 7 8 .min .rlx .sg) ∧ decode .S 0x5A63A034 = .ok (.cas 6 7 8 .ar .die) := by
  decide +kernel

/-- R101, R102, R107: the synchronisation words. -/
theorem test_decode_sync :
    decode .S 0x66229810 = .ok (.bind 2 5 6 16) ∧ decode .S 0x60029A03 = .ok (.acqC 5 6 .pkg)
    ∧ decode .S 0x62028203 = .ok (.relC 5 .pkg) ∧ decode .S 0x60048002 = .ok (.acqL 9 .die)
    ∧ decode .S 0x62048002 = .ok (.relL 9 .die) ∧ decode .S 0x64000003 = .ok (.fence .pkg) := by decide +kernel

/-- R139–R141, R248, R312, R313: the coupling words. -/
theorem test_decode_coupling :
    decode .S 0x68000001 = .ok (.sig 0) ∧ decode .S 0x6A000002 = .ok (.waitk 1) ∧ decode .S 0x6C028000 = .ok (.sqput 5)
    ∧ decode .S 0x6E000007 = .ok (.eidle 7) ∧ decode .S 0x72028000 = .ok (.fpsh 0 5) ∧ decode .S 0x74700002 = .ok (.fpop 7 2)
    ∧ decode .S 0x76400001 = .ok (.fcnt 4 1) ∧ decode .S 0x7863A022 = .ok (.waitw 6 7 8 .geu .dom)
    ∧ decode .S 0x7A000000 = .ok .yield := by decide +kernel

/-- R323–R326, R343, R344, R349: the barrier and page words. -/
theorem test_decode_objects :
    decode .S 0x80028003 = .ok (.barr 5 .pkg) ∧ decode .S 0x82628003 = .ok (.barw 6 5 .pkg)
    ∧ decode .S 0x84029C01 = .ok (.bbpost 5 7 .sg) ∧ decode .S 0x86828003 = .ok (.barq 8 5 .pkg)
    ∧ decode .S 0x88628001 = .ok (.pgreq 6 5 true) ∧ decode .S 0x8A628000 = .ok (.pgres 6 5)
    ∧ decode .S 0x8C628005 = .ok (.probe 6 5 5) := by decide +kernel

/-- R142, R146, R147, R413, R416: the trap and CSR words. -/
theorem test_decode_system :
    decode .S 0x90000003 = .ok (.svc 3) ∧ decode .S 0x92000000 = .ok .tret ∧ decode .S 0x94400300 = .ok (.csrr 4 0x060)
    ∧ decode .S 0x96030380 = .ok (.csrw 0x070 6) ∧ decode .S 0x9C000005 = .ok (.brk 5)
    ∧ decode .S 0x9E60002A = .ok (.trace 6 0x2A) := by decide +kernel

/-- Table 2.11 and Table 6.10: the words of V. -/
theorem test_decode_v :
    decode .V 0x04078F80 = .ok (.vview ⟨0, 0⟩ 3) ∧ decode .V 0x08258F80 = .ok (.vpset ⟨0, 0⟩ 2)
    ∧ decode .V 0x0C0302A0 = .ok (.vld ⟨⟨0, 0⟩, 2, false, false, false⟩ 1 0 5)
    ∧ decode .V 0x10E22F80 = .ok (.vst ⟨0, 3⟩ 0 1 2)
    ∧ decode .V 0x2C080890 = .ok (.vfma ⟨⟨0, 0⟩, 1, false, false, false⟩ 4 (.view 0) (.port 1))
    ∧ decode .V 0x22C408B1 = .ok (.vadd ⟨⟨2, 3⟩, 3, false, false, true⟩ 2 (.view 0) (.port 1))
    ∧ decode .V 0x60060C01 = .ok (.vcmp ⟨0, 0⟩ 0 false false .lt 3 (.view 0) .sq)
    ∧ decode .V 0x640400B0 = .ok (.vsel ⟨0, 0⟩ 3 false false 2 (.view 0) (.view 1))
    ∧ decode .V 0x68022183 = .ok (.vmlog ⟨0, 0⟩ .andn 1 2 3) ∧ decode .V 0x6C086F82 = .ok (.vmset ⟨0, 0⟩ .lower 4 6)
    ∧ decode .V 0x703E2000 = .ok (.vmcnt ⟨0, 0⟩ 2 (some 0))
    ∧ decode .V 0x80061F83 = .ok (.vcvt ⟨⟨0, 0⟩, 0, false, false, true⟩ true 3 (.view 1))
    ∧ decode .V 0x900A2F82 = .ok (.vred ⟨⟨0, 0⟩, 0, false, false, false⟩ .cols 5 (.view 2))
    ∧ decode .V 0xB03E7C00 = .ok (.vxs ⟨0, 0⟩ 7) ∧ decode .V 0xFD000000 = .ok (.vend ⟨1, 0⟩) := by decide +kernel

/-- Table 7.9: the words of M. -/
theorem test_decode_m :
    decode .M 0x08100002 = .ok (.mnest ⟨0, 0⟩ 1 2) ∧ decode .M 0x10200004 = .ok (.mbase ⟨0, 0⟩ .b 4)
    ∧ decode .M 0x18000006 = .ok (.mmask ⟨0, 0⟩ 6) ∧ decode .M 0x20210000 = .ok (.mfmt ⟨0, 0⟩ .e4m3 .bf16)
    ∧ decode .M 0x28400000 = .ok (.mbmapOff ⟨0, 0⟩ .b) ∧ decode .M 0x30460000 = .ok (.mcode ⟨0, 0⟩ .b 3)
    ∧ decode .M 0x38780008 = .ok (.mldb ⟨0, 0⟩ 15 8) ∧ decode .M 0x40300000 = .ok (.maccClear ⟨0, 0⟩ 1)
    ∧ decode .M 0x4A200000 = .ok (.mgo ⟨1, 0⟩ 1) ∧ decode .M 0x50800009 = .ok (.mdrn ⟨0, 1⟩ 0 9)
    ∧ decode .M 0xF8000000 = .ok (.mend ⟨0, 0⟩) := by decide +kernel

/-- Table 8.6: the words of X. -/
theorem test_decode_x :
    decode .X 0x08000002 = .ok (.xstg ⟨0, 0⟩ 2) ∧ decode .X 0x10900000 = .ok (.xcpy ⟨0, 1⟩ 1 0)
    ∧ decode .X 0x18100006 = .ok (.xgth ⟨0, 0⟩ 1 6) ∧ decode .X 0x20100007 = .ok (.xsct ⟨0, 0⟩ 1 7)
    ∧ decode .X 0x2C000008 = .ok (.xfill ⟨2, 0⟩ 0 8) ∧ decode .X 0x3038000A = .ok (.xwidRec ⟨0, 0⟩ 3 10)
    ∧ decode .X 0x381A0000 = .ok (.xcbReset ⟨0, 0⟩ 3) ∧ decode .X 0xF8000000 = .ok (.xend ⟨0, 0⟩) := by decide +kernel

/-- R35, R42, R43, R48: words that are no instruction are refused: opcode 0, a nonzero field named zero, a scope of 5, a
scope of 0 on a barrier word, a size exponent of 5, a group mask of 0. -/
theorem test_decode_refuses :
    (∃ r, decode .S 0 = .error r) ∧ (∃ r, decode .V 0 = .error r) ∧ (∃ r, decode .M 0 = .error r)
    ∧ (∃ r, decode .X 0 = .error r) ∧ (∃ r, decode .S 0x92000001 = .error r) ∧ (∃ r, decode .S 0x64000005 = .error r)
    ∧ (∃ r, decode .S 0x80028000 = .error r) ∧ (∃ r, decode .S 0x66229805 = .error r) ∧ ∃ r, decode .M 0x38000008 = .error r :=
  ⟨⟨.opcode, by decide +kernel⟩, ⟨.opcode, by decide +kernel⟩, ⟨.opcode, by decide +kernel⟩, ⟨.opcode, by decide +kernel⟩,
    ⟨.reserved, by decide +kernel⟩, ⟨.value, by decide +kernel⟩, ⟨.value, by decide +kernel⟩, ⟨.value, by decide +kernel⟩,
    ⟨.value, by decide +kernel⟩⟩

/-! ## Terms that the encodings do not admit -/

/-- R42, R43, R46, R48, R50: one term for each check, refused, and the term beside it admitted. -/
theorem test_ill_formed :
    (Instr.loop 0 false false 5 0).wf = false ∧ (Instr.loop 0 false false 5 1).wf = true
    ∧ (Instr.loopi 0 false false 0 7).wf = false ∧ (Instr.loopi 0 false false 1 0).wf = false
    ∧ (Instr.bind 2 5 6 5).wf = false ∧ (Instr.bind 2 5 6 41).wf = false ∧ (Instr.bind 2 5 6 6).wf = true
    ∧ (Instr.bind 2 5 6 40).wf = true ∧ (Instr.eidle 0).wf = false
    ∧ (Instr.barr 5 .core).wf = false ∧ (Instr.barw 6 5 .core).wf = false ∧ (Instr.bbpost 5 7 .core).wf = false
    ∧ (Instr.barq 8 5 .core).wf = false ∧ (Instr.barr 5 .sg).wf = true
    ∧ (Instr.vld ⟨⟨0, 0⟩, 0, true, true, false⟩ 1 0 0).wf = false ∧ (Instr.vld ⟨⟨0, 0⟩, 0, true, false, false⟩ 1 0 0).wf = true
    ∧ (Instr.vmov ⟨⟨0, 0⟩, 0, true, false, false⟩ 1 (.view 2)).wf = false
    ∧ (Instr.vmov ⟨⟨0, 0⟩, 0, false, true, false⟩ 1 (.port 2)).wf = false
    ∧ (Instr.vadd ⟨⟨0, 0⟩, 0, true, false, false⟩ 1 .sq (.port 1)).wf = false
    ∧ (Instr.vadd ⟨⟨0, 0⟩, 0, false, true, false⟩ 1 (.port 1) (.view 1)).wf = false
    ∧ (Instr.vadd ⟨⟨0, 0⟩, 0, true, true, false⟩ 1 (.port 1) (.port 0)).wf = true
    ∧ (Instr.vcmp ⟨0, 0⟩ 0 false false .eq 0 (.view 0) .sq).wf = false
    ∧ (Instr.vcmp ⟨0, 0⟩ 0 true false .eq 1 (.view 0) .sq).wf = false
    ∧ (Instr.vsel ⟨0, 0⟩ 0 false true 2 (.view 0) .sq).wf = false
    ∧ (Instr.vmlog ⟨0, 0⟩ .and 0 1 2).wf = false ∧ (Instr.vmset ⟨0, 0⟩ .clr 0 1).wf = false
    ∧ (Instr.vcvt ⟨⟨0, 0⟩, 0, true, false, false⟩ true 3 .sq).wf = false
    ∧ (Instr.vtrn ⟨⟨0, 0⟩, 0, false, false, false⟩ 1 .sq).wf = false
    ∧ (Instr.vshf ⟨⟨0, 0⟩, 0, true, false, false⟩ .rows 1 (.view 0) 2).wf = false
    ∧ (Instr.mldb ⟨0, 0⟩ 0 8).wf = false := by decide +kernel

/-! ## States to step from -/

/-- A module with one resident instance, context 0 on core 0, at a word of S. -/
def W : State := State.reset.withFetchWord 32 0x10630001

/-- W with its instance changed. -/
def withI (f : Inst → Inst) : State := { W with mach := W.mach.modInst 0 f }

/-- W with its sequencer changed. -/
def withQ (f : Seq → Seq) : State := withI fun i => { i with s := f i.s }

/-- s1, s2, … hold the numbers of the list, and the other registers 0. -/
def regFile (l : List W64) : Vector W64 32 := Vector.ofFn fun k => if k.val = 0 then 0 else l.getD (k.val - 1) 0

/-- W with registers. -/
def R (l : List W64) : State := withQ fun q => { q with regs := regFile l }

/-- The state that an instruction leaves. -/
def after (s : State) (i : Instr) : State :=
  match exec i s with
  | .next t => t
  | _ => s

/-- s[3] after an instruction on s1, s2 and s3. -/
def s3 (l : List W64) (i : Instr) : W64 := (after (R l) i).seq.get 3

/-! ## Integer, floating-point, branch and loop words -/

/-- R126: wraps, division by zero and of the most negative number, shift amounts modulo 64. -/
theorem test_integer :
    s3 [5, 7] (.sub 3 1 2) = 0xFFFFFFFFFFFFFFFE ∧ s3 [0xFFFFFFFFFFFFFFFF, 2] (.add 3 1 2) = 1
    ∧ s3 [0x8000000000000000, 2] (.mul 3 1 2) = 0
    ∧ s3 [0xFFFFFFFFFFFFFFFF, 2] (.mulh 3 1 2) = 0xFFFFFFFFFFFFFFFF ∧ s3 [0xFFFFFFFFFFFFFFFF, 2] (.mulhu 3 1 2) = 1
    ∧ s3 [0xFFFFFFFFFFFFFFF9, 2] (.div 3 1 2) = 0xFFFFFFFFFFFFFFFD
    ∧ s3 [0x8000000000000000, 0xFFFFFFFFFFFFFFFF] (.div 3 1 2) = 0x8000000000000000
    ∧ s3 [9, 0] (.divu 3 1 2) = 0xFFFFFFFFFFFFFFFF ∧ s3 [0xFFFFFFFFFFFFFFF9, 2] (.rem 3 1 2) = 0xFFFFFFFFFFFFFFFF
    ∧ s3 [9, 0] (.remu 3 1 2) = 9 ∧ s3 [12, 10] (.and 3 1 2) = 8 ∧ s3 [12, 10] (.or 3 1 2) = 14
    ∧ s3 [12, 10] (.xor 3 1 2) = 6 ∧ s3 [3, 65] (.shl 3 1 2) = 6 ∧ s3 [0x8000000000000000, 63] (.shr 3 1 2) = 1
    ∧ s3 [0x8000000000000000, 63] (.sra 3 1 2) = 0xFFFFFFFFFFFFFFFF := by decide +kernel

/-- R126: comparisons, minima, maxima and the words that look at bits; the field of the example of BFX is −89. -/
theorem test_integer_bits :
    s3 [0xFFFFFFFFFFFFFFFF, 0] (.slt 3 1 2) = 1 ∧ s3 [0xFFFFFFFFFFFFFFFF, 0] (.sltu 3 1 2) = 0
    ∧ s3 [0xFFFFFFFFFFFFFFFF, 0] (.min 3 1 2) = 0xFFFFFFFFFFFFFFFF ∧ s3 [0xFFFFFFFFFFFFFFFF, 0] (.max 3 1 2) = 0
    ∧ s3 [0xFFFFFFFFFFFFFFFF, 0] (.minu 3 1 2) = 0 ∧ s3 [0xFFFFFFFFFFFFFFFF, 0] (.maxu 3 1 2) = 0xFFFFFFFFFFFFFFFF
    ∧ s3 [1] (.clz 3 1) = 63 ∧ s3 [0] (.clz 3 1) = 64 ∧ s3 [0xF0F] (.popc 3 1) = 8
    ∧ s3 [0xA7123, 0x880C] (.bfx 3 1 2) = 0xFFFFFFFFFFFFFFA7 ∧ s3 [0xA7, 0x080C, 0xF00F] (.bfi 3 1 2) = 0xA700F := by
  decide +kernel

/-- R127, R128: signed immediates, LUI and APC. -/
theorem test_immediates :
    s3 [5] (.addi 3 1 0x7FFF) = 4 ∧ s3 [0xFF] (.andi 3 1 0x7FF0) = 0xF0 ∧ s3 [1] (.ori 3 1 0x7FFE) = 0xFFFFFFFFFFFFFFFF
    ∧ s3 [5] (.xori 3 1 1) = 4 ∧ s3 [1] (.shli 3 1 63) = 0x8000000000000000 ∧ s3 [0x8000000000000000] (.shri 3 1 63) = 1
    ∧ s3 [0x8000000000000000] (.srai 3 1 63) = 0xFFFFFFFFFFFFFFFF ∧ s3 [0] (.slti 3 1 0x7FFF) = 0
    ∧ s3 [0] (.sltui 3 1 0x7FFF) = 1 ∧ s3 [] (.lui 3 0x12345) = 0x12345000 ∧ s3 [] (.lui 3 0x80000) = 0xFFFFFFFF80000000
    ∧ s3 [] (.apc 3 1) = 0x2000 := by decide +kernel

/-- R129, R78: the FP32 words; the FFMA is the example of R129, whose product is not rounded. -/
theorem test_float :
    s3 [0x3F800000, 0x40000000] (.fadd 3 1 2) = 0x40400000 ∧ s3 [0x3F800000, 0x40000000] (.fsub 3 1 2) = 0xBF800000
    ∧ s3 [0x40400000, 0x40000000] (.fmul 3 1 2) = 0x40C00000
    ∧ s3 [0x3F800001, 0x3F7FFFFE, 0xBF800000] (.ffma 3 1 2) = 0xA8800000
    ∧ s3 [0x80000000, 0] (.fmin 3 1 2) = 0x80000000 ∧ s3 [0x80000000, 0] (.fmax 3 1 2) = 0
    ∧ s3 [0x80000000, 0] (.fceq 3 1 2) = 1 ∧ s3 [0x7FC00000, 0x7FC00000] (.fceq 3 1 2) = 0
    ∧ s3 [0x3F800000, 0x40000000] (.fclt 3 1 2) = 1 ∧ s3 [0x40000000, 0x40000000] (.fcle 3 1 2) = 1
    ∧ s3 [0xFFFFFFFFFFFFFFFE] (.fcvtf 3 1) = 0xC0000000 ∧ s3 [0xC0400000] (.fcvti 3 1) = 0xFFFFFFFFFFFFFFFD
    ∧ s3 [0x40400000] (.fexp2 3 1) = 0x41000000 ∧ s3 [0x41000000] (.flog2 3 1) = 0x40400000
    ∧ s3 [0x40800000] (.frcp 3 1) = 0x3E800000 := by decide +kernel

/-- R118: with RRB = 3, s17 is physical register 30 and s16 is 29. -/
theorem test_rotation : physReg 3 17 = 30 ∧ physReg 3 16 = 29 ∧ physReg 3 15 = 15 := by decide

/-- R130, R131: where S goes on, and what JAL leaves. -/
theorem test_branches :
    (after (R [5, 7]) (.beq 1 2 4)).seq.st.pc = 0x1004 ∧ (after (R [5, 7]) (.bne 1 2 4)).seq.st.pc = 0x1010
    ∧ (after (R [0xFFFFFFFFFFFFFFFF, 7]) (.blt 1 2 0x7FFC)).seq.st.pc = 0xFF0
    ∧ (after (R [5, 5]) (.bge 1 2 4)).seq.st.pc = 0x1010 ∧ (after (R [0xFFFFFFFFFFFFFFFF, 7]) (.bltu 1 2 4)).seq.st.pc = 0x1004
    ∧ (after (R [7, 7]) (.bgeu 1 2 4)).seq.st.pc = 0x1010 ∧ (after (withQ fun q => { q with preds := 2 }) (.bpred 1 2)).seq.st.pc = 0x1008
    ∧ (after (R []) (.jal 3 0xFFFFF)).seq.st.pc = 0xFFC ∧ s3 [] (.jal 3 0xFFFFF) = 0x1004
    ∧ (after (R [0x2000]) (.jalr 3 1 4)).seq.st.pc = 0x2004 ∧ (after (R [0x2000]) (.jalr 1 1 4)).seq.get 1 = 0x1004 := by
  decide +kernel

/-- R133, R136: LOOPI opens a level whose body ends at its last word, LOOP with 0 skips the body, LEAVE ends a level. -/
theorem test_loops :
    ((after W (.loopi 0 true false 3 2)).seq.loops.get 0).stop = 0x1008
    ∧ ((after W (.loopi 0 true true 3 2)).seq.loops.get 0).lcnt = 3
    ∧ (after (R [0]) (.loop 1 false false 1 5)).seq.st.pc = 0x1018
    ∧ (after (after W (.loopi 0 false false 3 5)) (.leave 0)).seq.order = []
    ∧ (after (after W (.loopi 0 false false 3 5)) (.leave 0)).seq.st.pc = 0x1018 := by decide +kernel

/-- R36, R126: the word at the program counter is run by a step, and the turn passes on. -/
theorem test_step_word :
    (match step W with
     | .next t => decide (t.seq.get 6 = 1 ∧ t.seq.st.pc = 0x1004 ∧ t.mach.cycle = 1)
     | _ => false) = true := by decide +kernel

/-! ## Witnesses: integer, floating-point, branch and loop words -/

/-- A state that meets the one hypothesis of IntegerGroup, BitWords, ImmediateWords and FloatWords. -/
theorem wit_Fresh : Fresh W := by unfold Fresh; decide +kernel

/-- The four cases of FloatSelection: a NaN, below, above, equal zeros of both signs. -/
theorem wit_FloatSelection :
    let s := R [0x7FC00000, 0x3F800000, 0x40000000, 0x80000000]
    Fresh s ∧ (s.seq.fp 1 = .nan ∨ s.seq.fp 2 = .nan) ∧ (¬(s.seq.fp 2 = .nan ∨ s.seq.fp 3 = .nan) ∧ cmpNum (s.seq.fp 2) (s.seq.fp 3) = .lt)
    ∧ (¬(s.seq.fp 3 = .nan ∨ s.seq.fp 2 = .nan) ∧ cmpNum (s.seq.fp 3) (s.seq.fp 2) = .gt)
    ∧ ¬(s.seq.fp 4 = .nan ∨ s.seq.fp 0 = .nan) ∧ cmpNum (s.seq.fp 4) (s.seq.fp 0) = .eq := by unfold Fresh; decide +kernel

theorem wit_RegisterMapping : (31 : Reg) ≠ 0 ∧ (15 : Reg).val < 16 ∧ (16 : Reg).val = 16 + 0 ∧ (31 : Reg).val = 16 + 15 := by decide

/-- The largest finite value of FP32, with the largest draw. -/
theorem wit_RoundingKeepsValues : 0x7F7FFFFF < 2 ^ Fmt.fp32.width ∧ 65535 < 65536
    ∧ ∃ neg m e, (decodeFloat .fp32 0x7F7FFFFF).1 = .exact neg m e := ⟨by decide, by decide, _, _, _, rfl⟩

/-- A level that is active, with a count, whose body is the words 0x1000 up to its last one. -/
def looping (stop : W64) (n : BitVec 40) : State := withQ fun q =>
  { q with
    order := [2], loops := vset q.loops 2 { q.loops.get 2 with active := true, start := 0xFF0, stop, lcnt := n } }

/-- The last pass and a pass before it, at the last word of the body. -/
theorem wit_LoopEnd :
    let q := (looping 0x1000 1).seq
    let r := (looping 0x1000 2).seq
    q.handler = false ∧ q.order = [2] ∧ (q.loops.get 2).stop = q.st.pc ∧ (q.loops.get 2).lcnt.toNat ≤ 1
    ∧ r.handler = false ∧ r.order = [2] ∧ (r.loops.get 2).stop = r.st.pc ∧ 1 < (r.loops.get 2).lcnt.toNat ∧ (3 : Fin 4) ≠ 2 := by
  decide +kernel

theorem wit_NoLoopEnd : (∀ n, (looping 0x1004 2).seq.order.head? = some n → ((looping 0x1004 2).seq.loops.get n).stop ≠ (looping 0x1004 2).seq.st.pc)
    ∧ (withQ fun q => { q with handler := true }).seq.handler = true := by decide +kernel

theorem wit_JumpLeavesLoops : (looping 0x1004 2).seq.handler = false ∧ (withQ fun q => { q with handler := true }).seq.handler = true := by
  decide +kernel

/-- Each branch taken and not taken; JALR to an aligned and to a misaligned address. -/
theorem wit_BranchesAndJumps :
    let s := R [5, 0xFFFFFFFFFFFFFFFF, 0x2002]
    Fresh s ∧ ¬AtBodyEnd s.seq ∧ s.seq.get 1 = s.seq.get 1 ∧ s.seq.get 1 ≠ s.seq.get 2
    ∧ (s.seq.get 2).toInt < (s.seq.get 1).toInt ∧ ¬(s.seq.get 1).toInt < (s.seq.get 1).toInt
    ∧ ¬(s.seq.get 1).toInt ≤ (s.seq.get 2).toInt ∧ (s.seq.get 1).toNat < (s.seq.get 2).toNat ∧ ¬(s.seq.get 2).toNat ≤ (s.seq.get 1).toNat
    ∧ ¬s.seq.preds.getLsbD 1 = true ∧ (withQ fun q => { q with preds := 2 }).seq.preds.getLsbD 1 = true
    ∧ (s.seq.get 3 + (BitVec.signExtend 64 (2 : BitVec 15))).extractLsb' 0 2 = 0
    ∧ (s.seq.get 3 + (BitVec.signExtend 64 (0 : BitVec 15))).extractLsb' 0 2 ≠ 0 := by unfold Fresh AtBodyEnd; decide +kernel

/-- Outside every body, and inside one that ends one word after the new body does; a count of 0 and the largest. -/
theorem wit_LoopWords :
    let s := R [0, 0xFFFFFFFF]
    let t := looping 0x1010 2
    Fresh s ∧ ¬AtBodyEnd s.seq ∧ s.seq.handler = false ∧ (s.seq.loops.get 1).active = false ∧ s.seq.order = []
    ∧ (s.seq.get 1).toNat = 0 ∧ 0 < (s.seq.get 2).toNat ∧ (s.seq.get 2).toNat < 2 ^ 32
    ∧ Fresh t ∧ ¬AtBodyEnd t.seq ∧ t.seq.handler = false ∧ (t.seq.loops.get 1).active = false ∧ t.seq.order = [2]
    ∧ (t.seq.loops.get 2).contains t.seq.st.pc = true ∧ t.seq.st.pc + BitVec.ofNat 64 (4 * (3 : BitVec 16).toNat) < (t.seq.loops.get 2).stop := by
  unfold Fresh AtBodyEnd; decide +kernel

theorem wit_LeaveLevels :
    let q := (looping 0x1010 2).seq
    Fresh (looping 0x1010 2) ∧ ¬AtBodyEnd q ∧ q.handler = false ∧ (q.loops.get 2).active = true ∧ q.order = [] ++ 2 :: [] ∧ q.order.Nodup := by
  unfold Fresh AtBodyEnd; decide +kernel

/-- A word that is the last of a body, an active level and one that is not, the handler, a count of 2³², and a body
that ends where the new one would. -/
theorem wit_LoopStructure :
    let q := (looping 0x1010 2).seq
    AtBodyEnd (looping 0x1000 2).seq ∧ (q.loops.get 2).active = true ∧ (q.loops.get 1).active = false
    ∧ (withQ fun q => { q with handler := true }).seq.handler = true ∧ 2 ^ 32 ≤ ((R [0x100000000]).seq.get 1).toNat
    ∧ q.order = 2 :: [] ∧ (q.loops.get 2).contains q.st.pc = true
    ∧ (q.loops.get 2).stop ≤ q.st.pc + BitVec.ofNat 64 (4 * (4 : BitVec 16).toNat)
    ∧ (q.loops.get 2).stop ≤ q.st.pc + BitVec.ofNat 64 (4 * (4 : BitVec 9).toNat) := by unfold AtBodyEnd; decide +kernel

/-! ## Witnesses: words, steps, reset, CSRs and traps -/

theorem ex_some {α : Type} {o : Option α} {P : α → Prop} [DecidablePred P] (h : (o.any fun a => decide (P a)) = true) :
    ∃ a, o = some a ∧ P a := by
  cases o with
  | none => cases h
  | some a => exact ⟨a, rfl, by simpa using h⟩

theorem ex_ok {ε α σ : Type} {r : Except ε α × σ} {P : α → σ → Prop} [∀ a m, Decidable (P a m)]
    (h : (match r with | (.ok p, m) => decide (P p m) | _ => false) = true) : ∃ p m, r = (.ok p, m) ∧ P p m := by
  obtain ⟨a, m⟩ := r
  cases a with
  | ok p => exact ⟨p, m, rfl, by simpa using h⟩
  | error _ => cases h

theorem ex_next {o : Host.Outcome State Fault Refusal} {P : State → Prop} [DecidablePred P]
    (h : (match o with | .next t => decide (P t) | _ => false) = true) : ∃ t, o = .next t ∧ P t := by
  cases o with
  | next t => exact ⟨t, rfl, by simpa using h⟩
  | fault _ => cases h
  | refused _ => cases h

/-- SUB s9,s10,s11 and the word 0x02952C01 of R126, in both directions. -/
theorem wit_DecodeEncode : (Instr.sub 9 10 11).wf = true ∧ encode (.sub 9 10 11) = some (.S, 0x02952C01) := by decide +kernel

theorem wit_EncodeDecode : 0xFD000000 < 2 ^ 32 ∧ decode .V 0xFD000000 = .ok (.vend ⟨1, 0⟩) := by decide +kernel

/-- The first byte of a section, and a word that is no instruction at the last word of it. -/
theorem wit_StepRunsDecoded :
    let base := ((inst W).id.secBase.get 0).toNat
    let bad := State.reset.withFetchWord 32 0
    W.mach.agenda = [] ∧ W.pwr.st.running = true ∧ W.mach.agent = .stream .S ∧ W.mach.agentReady W.mach.cur (.stream .S) = true
    ∧ W.seq.st.wait = none ∧ base ≤ W.seq.st.pc.toNat ∧ W.seq.st.pc.toNat < base + 4 * (inst W).id.secLen.get 0
    ∧ (∃ p, W.mach.walk (inst W).id.ctx.val W.seq.st.pc.toNat = some p ∧ p.x = true ∧ p.p = true ∧ W.mach.moving p = false
      ∧ decode .S (leNat (W.mach.bytes (W.mach.pageKey p W.seq.st.pc.toNat) 4)) = .ok (.addi 6 6 1))
    ∧ (∃ p, bad.mach.walk (inst bad).id.ctx.val bad.seq.st.pc.toNat = some p ∧ p.x = true ∧ p.p = true ∧ bad.mach.moving p = false
      ∧ decode .S (leNat (bad.mach.bytes (bad.mach.pageKey p bad.seq.st.pc.toNat) 4)) = .error .opcode)
    ∧ (let q := withI fun i => { i with id := { i.id with secLen := vset i.id.secLen 0 0 } }
       ¬q.seq.st.pc.toNat < ((inst q).id.secBase.get 0).toNat + 4 * (inst q).id.secLen.get 0)
    ∧ ({ W with mach := { W.mach with agenda := [.powerOff] } } : State).mach.agenda = [.powerOff] :=
  ⟨by decide +kernel, by decide +kernel, by decide +kernel, by decide +kernel, by decide +kernel, by decide +kernel,
    by decide +kernel, ex_some (by decide +kernel), ex_some (by decide +kernel), by decide +kernel, by decide +kernel⟩

/-- Pages of a fetch: an executable one that is there, whose page is no COUNT page, where a link reaches its home and whose
line is not poisoned; one that is arriving; and steps of which one goes before the others. -/
theorem wit_StepRunsDecoded_pages :
    (∃ p, W.mach.walk (inst W).id.ctx.val W.seq.st.pc.toNat = some p ∧ p.mode < 2 ∧ W.mach.pageWay (dieOf W.mach.cur) p W.seq.st.pc.toNat = true
      ∧ W.mach.pageKey p W.seq.st.pc.toNat / 64 ∉ W.mach.poison
      ∧ (let q : State := { W with mach := { W.mach with moves := [{ ctx := (inst W).id.ctx, page := p, pull := false }] } }
         q.mach.moving p = true ∧ ∀ v ∈ q.mach.moves, v.dead = []))
    ∧ (let l : List Instr := [.barrierRelease 0 1, .barrierRelease 0 2]
       (∀ x ∈ l, goesBefore .boostDecay x = true) ∧ ∀ x ∈ l, goesBefore x .boostDecay = false) :=
  ⟨ex_some (by decide +kernel), by decide +kernel⟩

/-- Instructions of that state answer a next state, as StepRunsDecoded asks. -/
theorem wit_StepRunsDecoded_next : (∃ t, exec (.addi 6 6 1) W = .next t ∧ True)
    ∧ (∃ t, exec (.trapEntry 0 .S .illegal 0x1000 0) W = .next t ∧ True)
    ∧ ∃ t, exec (.trapEntry 0 .S .protection 0x1000 0x1000) W = .next t ∧ True :=
  ⟨ex_next (by decide +kernel), ex_next (by decide +kernel), ex_next (by decide +kernel)⟩

theorem wit_CyclePasses : ((1, Instr.powerOff) : Nat × Instr) ∈ ({ W.mach with timers := [(1, .powerOff)] } : Mach).timers
    ∧ 1 ≤ W.mach.cycle + 1 := by decide +kernel

theorem wit_PowerStaysLegal : Safety.PowerLegal W.pwr ∧ ∃ t, step W = .next t ∧ True :=
  ⟨by unfold Safety.PowerLegal; decide +kernel, ex_next (by decide +kernel)⟩

theorem wit_WhoChangesPower : ∃ t, exec .powerOff W = .next t ∧ t.pwr ≠ W.pwr := ex_next (by decide +kernel)

theorem wit_EveryInstructionGoes : 768 * 2 ^ 30 - 4 + (List.replicate 4 (0 : Byte)).length ≤ 768 * 2 ^ 30
    ∧ 768 * 2 ^ 30 < 768 * 2 ^ 30 - 3 + (List.replicate 4 (0 : Byte)).length := by decide

/-- Both ends of the supervisor's numbers, and numbers on both sides of the list of Table 2.6. -/
theorem wit_CsrReads : Fresh W ∧ ((0x100 : BitVec 12) ≤ 0x100 ∧ (0x100 : BitVec 12) ≤ 0x3FF)
    ∧ ((0x100 : BitVec 12) ≤ 0x3FF ∧ (0x3FF : BitVec 12) ≤ 0x3FF)
    ∧ (¬((0x100 : BitVec 12) ≤ 0x082 ∧ (0x082 : BitVec 12) ≤ 0x3FF) ∧ 0x082 ∉ csrNumbers) ∧ 0x000 ∉ csrNumbers
    ∧ (¬((0x100 : BitVec 12) ≤ 0x400 ∧ (0x400 : BitVec 12) ≤ 0x3FF) ∧ 0x400 ∉ csrNumbers) := by unfold Fresh csrNumbers; decide +kernel

/-- LSTAGES at its largest value, with bits set and cleared. -/
theorem wit_CsrWrites :
    let s := R [8, 0, 1]
    let t := withQ fun q => { q with lstages := 3, regs := regFile [4, 1] }
    Fresh s ∧ (0x030 : BitVec 12) ≠ 0x001 ∧ csrOf s (inst s) 0x030 = some 1 ∧ csrTakes 0x030 (s.seq.get 1)
    ∧ csrTakes 0x030 (1 ||| s.seq.get 2) ∧ csrTakes 0x030 (1 &&& ~~~s.seq.get 2) ∧ csrOf t (inst t) 0x030 = some 3
    ∧ csrTakes 0x030 (3 ||| t.seq.get 1) ∧ csrTakes 0x030 (3 &&& ~~~t.seq.get 2) := by
  refine ⟨?_, ?_, ?_, ?_, ?_, ?_, ?_, ?_, ?_⟩
  all_goals first | decide +kernel | (unfold Fresh; decide +kernel) | (unfold csrTakes; decide +kernel)

/-- A supervisor number, a read-only CSR, and values one past the largest and below the smallest that LSTAGES takes. -/
theorem wit_CsrRejects :
    let s := R [9, 8, 1]
    Fresh s ∧ ((0x100 : BitVec 12) ≤ 0x3FF ∧ (0x3FF : BitVec 12) ≤ 0x3FF) ∧ (∀ v, ¬csrTakes 0x020 v)
    ∧ csrOf s (inst s) 0x030 = some 1 ∧ ¬csrTakes 0x030 (s.seq.get 1) ∧ ¬csrTakes 0x030 (1 ||| s.seq.get 2)
    ∧ ¬csrTakes 0x030 (1 &&& ~~~s.seq.get 3) ∧ ¬((0x100 : BitVec 12) ≤ 0x030 ∧ (0x030 : BitVec 12) ≤ 0x3FF) := by
  refine ⟨by unfold Fresh; decide +kernel, by decide, fun v => by simp [csrTakes], ?_⟩
  unfold csrTakes
  repeat' refine And.intro ?_ ?_
  all_goals decide +kernel

/-- Every flag and every enable at once. -/
theorem wit_FlagsWords :
    let s := R [0x3F3F]
    Fresh s ∧ csrTakes 0x001 (s.seq.get 1) ∧ csrTakes 0x001 (0 ||| s.seq.get 1) ∧ csrTakes 0x001 (0 &&& ~~~s.seq.get 1) := by
  refine ⟨?_, ?_, ?_, ?_⟩
  all_goals first | decide +kernel | (unfold Fresh; decide +kernel) | (unfold csrTakes; decide +kernel)

/-- The enable of cause 1, the first bit of EN. -/
theorem wit_TrapDelivered :
    let s := withQ fun q => { q with ten := 1 }
    let i := s.mach.inst 0
    (s.mach.core 0).resident = true ∧ i.s.handler = false ∧ i.s.st.ended = false
    ∧ i.s.ten.getLsbD (causeCode .illegal - 1) = true ∧ ∀ e, (i.stream e).wait = none := by
  refine ⟨by decide +kernel, by decide +kernel, by decide +kernel, by decide +kernel, fun e => ?_⟩
  cases e <;> decide +kernel

theorem wit_TrapParked :
    (W.mach.core 0).resident = true ∧ (W.mach.inst 0).s.ten.getLsbD (causeCode .illegal - 1) = false
    ∧ ((withQ fun q => { q with handler := true }).mach.inst 0).s.handler = true
    ∧ ((withQ fun q => { q with st := { q.st with ended := true } }).mach.inst 0).s.st.ended = true
    ∧ ((W.mach.modCtx 0 fun x => { x with attached := true }).ctx 0).attached = true := by
  decide +kernel

/-- A handler that was entered for V's word, for a nest step and for a transfer. -/
theorem wit_TrapWords :
    let h := fun (tstrm : BitVec 2) => withQ fun q => { q with handler := true, tstrm, tpc := 0x40 }
    let nest := withI fun i => { i with
      source := .nest, s := { i.s with handler := true, tstrm := 2 }
      m := { i.m with active := some { cfg := {}, n := 1, mgo := 0x44, push := none }, fault := some .status } }
    Fresh (h 0) ∧ ¬AtBodyEnd (h 0).seq ∧ (h 0).seq.handler = true ∧ W.seq.handler = false ∧ ¬AtBodyEnd W.seq
    ∧ (inst (h 1)).source = .word ∧ (h 1).seq.tstrm = 1
    ∧ (inst nest).source = .nest ∧ (inst nest).m.active = some { cfg := {}, n := 1, mgo := 0x44, push := none }
    ∧ nest.seq.tpc ≠ 0x44 ∧ (h 2).seq.tpc = 0x40 := by unfold Fresh AtBodyEnd; decide +kernel

theorem wit_TrapWords_transfer :
    let x : Transfer := { ch := 3, id := 9, kind := .copy, body := [], recAddr := 0, pc := 0x40, state := .faulted }
    let s := withI fun i => { i with
      source := .transfer 3 9, s := { i.s with handler := true, tstrm := 3, tpc := 0x40 }, x := { i.x with xfers := [x] } }
    Fresh s ∧ ¬AtBodyEnd s.seq ∧ s.seq.handler = true ∧ (inst s).source = .transfer 3 9 ∧ x ∈ (inst s).x.xfers
    ∧ x.state = .faulted := by unfold Fresh AtBodyEnd; decide +kernel

/-! ## CSR words and traps -/

/-- R142, R68, R82: a CSR that is written and read, the old value that CSRSET gives, and FLAGS. -/
theorem test_csr :
    (after (R [8]) (.csrw 0x030 1)).seq.lstages = 8 ∧ (after (R [2]) (.csrset 3 1 0x030)).seq.lstages = 3
    ∧ s3 [2] (.csrset 3 1 0x030) = 1 ∧ (after (R [1]) (.csrclr 3 1 0x073)).seq.tval = 0
    ∧ s3 [] (.csrr 3 0x081) = 65536 ∧ (inst (after (R [0x21]) (.csrw 0x001 1))).flags.get 0 = 0x21 := by decide +kernel

/-- R142, R143, R146, R147, R413: a CSR number of the supervisor, SVC, BRK and TRET, with SVC and BREAKPOINT enabled. -/
theorem test_traps :
    let s := withQ fun q => { q with ten := 0x7FFF, tvec := 0x2000 }
    let t := after s (.csrr 3 0x100)
    t.seq.tcode = 2 ∧ t.seq.tval = 0x94300800 ∧ t.seq.st.pc = 0x2000 ∧ t.seq.tpc = 0x1000 ∧ t.seq.handler = true
    ∧ (after s (.svc 3)).seq.tcode = 10 ∧ (after s (.svc 3)).seq.tpc = 0x1004 ∧ (after s (.svc 3)).seq.tval = 3
    ∧ (after s (.brk 5)).seq.tcode = 9 ∧ (after s (.brk 5)).seq.tpc = 0x1000
    ∧ (after (after s (.svc 3)) .tret).seq.st.pc = 0x1004 ∧ (after (after s (.svc 3)) .tret).seq.handler = false
    ∧ (after s .tret).seq.tcode = 1 ∧ ((inst (after W .tret)).faulted).isSome = true := by decide +kernel

/-! ## Witnesses: memory -/

/-- A page at 0x4000 in HBM frame 0x30000000, writable and readable. -/
def dpage : Page :=
  { asid := 0, base := 0x4000, size := 4096, frame := 0x30000000, p := true, w := true, x := false, rd := true, tier := 2
    fmt := 0, geo := 0, cb := 0, mode := 0, peer := 0, cthr := 0, xframe := 0, entry := 0, word0 := 0 }

/-- The memory key of a byte of the page. -/
def H (g : Nat) : Nat := hostKey (0x30000000 + g - 0x4000)

/-- The state with the instance changed. -/
def md (s : State) (f : Inst → Inst) : State := { s with mach := s.mach.modInst 0 f }

/-- W with its links up, registers, the page in S's page register, 64 bytes in it and 64 bytes of the scratchpad from 0x100. -/
def D (l : List W64) (p : Page := dpage) : State :=
  let s := withI fun i => { i with
    s := { i.s with regs := regFile l, prefetch := 0 }
    regs := [⟨.s, some { p with asid := (W.mach.ctx 0).asid.toNat }, none, 0⟩]
    pad := { i.pad with bytes := (List.range 64).map fun k => (0x100 + k, BitVec.ofNat 8 (0x90 + 3 * k)) } }
  { s with mach := { s.mach with
      ucie := Vector.replicate 10 { st := .up }
      mem := s.mach.mem ++ (List.range 64).map fun k => (hostKey 0x30000000 + k, BitVec.ofNat 8 (0x81 + 3 * k)) } }

/-- The state with a number in memory. -/
def sm (s : State) (k : Nat) (v : Nat) (n : Nat := 8) : State := { s with mach := { s.mach with mem := cellsWrite s.mach.mem k (bytesOf n v) } }

theorem wit_WalkFindsLeaf : ∃ p, W.mach.walk 0 0x1000 = some p ∧ p.p = true := ex_some (by decide +kernel)

theorem wit_TranslationChangesLittle : ∃ p m, Reaches (D []) (D []).mach .s 0x4FFF 0x4FFF .read p m ∧ p.p = true := ex_ok (by decide +kernel)

theorem resident_of_none {p : Pad} {l : Nat} (h : p.regionAt l = none) : Resident p l := by
  intro r hr
  rw [h] at hr
  cases hr

/-- The last eight bytes of the partition, for the widest access, and the first byte; CAS that compares equal and not. -/
theorem wit_LocalMemory :
    let s := D [localAddr 0xFFF8, 0, localAddr 0x100, 0xA5A29F9C99969390]
    Fresh s ∧ Resident (inst s).pad 0xFFF8 ∧ Resident (inst s).pad 0x100 ∧ (inst s).id.part = 0x10000
    ∧ s.seq.get 1 + (0 : BitVec 12).signExtend 64 = localAddr 0xFFF8 ∧ 0xFFF8 < 2 ^ 22 ∧ 0xFFF8 % 2 ^ (3 : Fin 4).val = 0
    ∧ 0xFFF8 + 2 ^ (3 : Fin 4).val ≤ (inst s).id.part ∧ 0xFFF8 + 2 ^ (2 : Fin 3).val ≤ (inst s).id.part
    ∧ s.seq.get 1 = localAddr 0xFFF8 ∧ loaded (inst s).pad.bytes 0xFFF8 8 false = s.seq.get 2
    ∧ s.seq.get 3 = localAddr 0x100 ∧ loaded (inst s).pad.bytes 0x100 8 false ≠ s.seq.get 2
    ∧ loaded (inst s).pad.bytes 0x100 8 false = s.seq.get 4 := by
  refine ⟨?_, ?_, ?_, ?_, ?_, ?_, ?_, ?_, ?_, ?_, ?_, ?_, ?_, ?_⟩
  · unfold Fresh; decide +kernel
  · exact resident_of_none (by decide +kernel)
  · exact resident_of_none (by decide +kernel)
  all_goals decide +kernel

/-- A region of one 256-byte page, in blocks of 64 bytes. -/
def reg0 : Region := { gbase := 0x4000, lbase := 0x100, size := 256, cached := false, blk := 6, gsize := 256 }

/-- D with the region, or another, and the rest of the scratchpad's records changed. -/
def DR (l : List W64) (r : Region) (f : Pad → Pad) : State := md (D l) fun i => { i with pad := f { i.pad with regions := [r] } }

/-- The last byte of the last block: not filled, known to be nonresident, and a CACHED copy that reads so. -/
theorem wit_RegionMemory :
    let l : List W64 := [localAddr 0x1FF]
    let s := DR l reg0 id
    let n := DR l reg0 fun p => { p with outcomes := [(0x1C0, .nonresident 0x40C0)] }
    let t : Tag := { slot := 0x1C0, block := 3, state := .nrvalid, lines := [0] }
    let u := DR l { reg0 with cached := true } fun p => { p with tags := [t] }
    Fresh s ∧ s.seq.get 1 + (0 : BitVec 12).signExtend 64 = localAddr 0x1FF ∧ 0x1FF < 2 ^ 22 ∧ 0x1FF % 2 ^ (0 : Fin 4).val = 0
    ∧ 0x1FF + 2 ^ (0 : Fin 4).val ≤ (inst s).id.part ∧ (inst s).pad.regionAt 0x1FF = some reg0 ∧ reg0.blockAt 0x1FF = 0x1C0
    ∧ reg0.cached = false ∧ 0x1C0 ∉ (inst s).pad.filled ∧ (∀ o ∈ (inst s).pad.outcomes, o.1 ≠ 0x1C0)
    ∧ alookup (inst n).pad.outcomes 0x1C0 = some (.nonresident 0x40C0) ∧ 0x1C0 ∉ (inst n).pad.filled
    ∧ (inst u).pad.regionAt 0x1FF = some { reg0 with cached := true }
    ∧ (inst u).pad.tags.find? (fun t => t.slot == 0x1C0) = some t ∧ t.state = .nrvalid ∧ (0x1FF - 0x1C0) / 64 ∈ t.lines := by unfold Fresh; decide +kernel

/-- The last eight bytes of the page, outside the windows and the poisoned lines; CAS that compares equal and not. -/
theorem wit_GlobalMemory :
    let s := D [0x4FF8, 0, 0x4000, 0x95928F8C89868381]
    let i := inst s
    let finds := fun (g : Nat) (need : Right) (rd wr : Bool) => g % 8 = 0 ∧ i.dbg.hits s.seq.st.pc g 8 rd wr = false
      ∧ ∃ p m, Reaches s s.mach .s (relocate i.id g) g need p m ∧ p.p = true ∧ p.allows need = true
        ∧ m.pageKey p (relocate i.id g) = H g ∧ H g / 64 ∉ s.mach.poison
    Fresh s ∧ Canonical (s.seq.get 1) ∧ (s.seq.get 1).toNat = 0x4FF8 ∧ finds 0x4FF8 .read true false ∧ finds 0x4FF8 .write false true
    ∧ finds 0x4FF8 .write true true ∧ loaded s.mach.mem (H 0x4FF8) 8 false = s.seq.get 2
    ∧ loaded s.mach.mem (H 0x4000) 8 false ≠ s.seq.get 2 ∧ finds 0x4000 .write true true ∧ Canonical (s.seq.get 3) := by
  refine ⟨?_, ?_, ?_, ⟨?_, ?_, ?_⟩, ⟨?_, ?_, ?_⟩, ⟨?_, ?_, ?_⟩, ?_, ?_, ⟨?_, ?_, ?_⟩, ?_⟩
  all_goals first | decide +kernel | exact ex_ok (by decide +kernel) | (unfold Fresh; decide +kernel) | (unfold Canonical; decide +kernel)

/-- A watchpoint on the whole of a page. -/
def watched (l : List W64) (p : Page) : State :=
  md (D l p) fun i => { i with dbg := { i.dbg with watches := vset i.dbg.watches 0 { base := 0x4000, k := 12, reads := true, writes := true, on := true } } }

/-- The first address that is not canonical, the first byte past the scratchpad's window, odd addresses, the first byte
past the partition, and an address that no leaf maps. -/
theorem wit_MemoryTraps_addresses :
    let s := D [0x0100000000000000, 0x4000000000400000, 0x4001, 0x4004, localAddr 0x10000, 0xFF00000000000000]
    Fresh s ∧ ¬Canonical (s.seq.get 1) ∧ ¬(∃ l, s.seq.get 1 = localAddr l ∧ l < 2 ^ 22)
    ∧ ¬Canonical (s.seq.get 2) ∧ ¬(∃ l, s.seq.get 2 = localAddr l ∧ l < 2 ^ 22) ∧ Canonical (s.seq.get 3) ∧ (s.seq.get 3).toNat % 2 ≠ 0
    ∧ Canonical (s.seq.get 4) ∧ (s.seq.get 4).toNat % 8 ≠ 0 ∧ s.seq.get 5 = localAddr 0x10000 ∧ 0x10000 < 2 ^ 22
    ∧ 0x10000 % 8 = 0 ∧ (inst s).id.part < 0x10000 + 1 ∧ (inst s).id.part < 0x10000 + 8
    ∧ Canonical (s.seq.get 6) ∧ (s.mach.lookup 0 .s (relocate (inst s).id (s.seq.get 6).toNat)).1 = none := by
  have no : ∀ v : W64, v.toNat < 2 ^ 62 ∨ 2 ^ 62 + 2 ^ 22 ≤ v.toNat → ¬∃ l, v = localAddr l ∧ l < 2 ^ 22 := by
    rintro v hv ⟨l, rfl, hl⟩
    rw [localAddr, BitVec.toNat_add, BitVec.toNat_ofNat, show (0x4000000000000000 : W64).toNat = 2 ^ 62 from rfl] at hv
    omega
  refine ⟨?_, ?_, no _ ?_, ?_, no _ ?_, ?_, ?_, ?_, ?_, ?_, ?_, ?_, ?_, ?_, ?_, ?_⟩
  all_goals first | decide +kernel | (unfold Fresh; decide +kernel) | (unfold Canonical; decide +kernel)

/-- What the page denies, a watchpoint, and a page that is not present. -/
theorem wit_MemoryTraps_pages :
    let at' := fun (s : State) (need : Right) (P : Page → Prop) => ∃ p m, Reaches s s.mach .s (relocate (inst s).id 0x4FF8) 0x4FF8 need p m ∧ P p
    let hits := fun (s : State) (rd wr : Bool) => (inst s).dbg.hits s.seq.st.pc 0x4FF8 8 rd wr
    let w := watched [0x4FF8] dpage
    Fresh (D [0x4FF8]) ∧ (D [0x4FF8]).seq.get 1 = 0x4FF8 ∧ w.seq.get 1 = 0x4FF8
    ∧ at' (D [0x4FF8] { dpage with rd := false }) .read (fun p => p.rd = false)
    ∧ (at' w .read (fun p => p.rd = true) ∧ hits w true false = true) ∧ at' (D [0x4FF8] { dpage with p := false }) .read (fun p => p.rd = true ∧ p.p = false)
    ∧ at' (D [0x4FF8] { dpage with w := false }) .write (fun p => p.w = false ∧ p.p = true)
    ∧ (at' w .write (fun p => p.w = true) ∧ hits w false true = true)
    ∧ at' (D [0x4FF8] { dpage with p := false }) .write (fun p => p.w = true ∧ p.p = false)
    ∧ hits (D [0x4FF8]) true true = false ∧ hits (D [0x4FF8]) true false = false ∧ hits (D [0x4FF8]) false true = false := by
  refine ⟨?_, ?_, ?_, ?_, ⟨?_, ?_⟩, ?_, ?_, ⟨?_, ?_⟩, ?_, ?_, ?_, ?_⟩
  all_goals first | decide +kernel | exact ex_ok (by decide +kernel) | (unfold Fresh; decide +kernel)

/-- A PULL page, a COUNT page one access below its threshold, and a page whose home no link reaches. -/
theorem wit_PageMovesStart :
    let pull := D [0x4FF8] { dpage with mode := 3 }
    let s := D [0x4FF8] { dpage with mode := 2, tier := 0, cthr := 3 }
    let count : State := { s with mach := s.mach.setDie 0 { s.mach.die 0 with counters := [(0, 0x4000, 7)] } }
    let finds := fun (s : State) (P : Page → Mach → Prop) => ∃ p m, s.mach.lookup 0 .s (relocate (inst s).id 0x4FF8) = (some p, m)
      ∧ p.rd = true ∧ (m.modInst 0 (·.notePage .s p 0x4FF8)).moving p = false ∧ P p m
    Fresh pull ∧ pull.mach.cur = 0 ∧ pull.seq.get 1 = 0x4FF8 ∧ finds pull (fun p _ => p.mode = 3) ∧ Fresh count ∧ count.seq.get 1 = 0x4FF8
    ∧ finds count (fun p m => p.mode = 2 ∧ p.p = true ∧ count.mach.pageWay (dieOf 0) p (relocate (inst count).id 0x4FF8) = true
        ∧ (m.die (dieOf 0)).counters = [(p.asid, p.base, 7)] ∧ 2 ^ p.cthr ≤ 7 + 1)
    ∧ (let cut : State := { D [0x4FF8] with mach := { (D [0x4FF8]).mach with ucie := W.mach.ucie } }
       Fresh cut ∧ finds cut (fun p _ => p.mode < 3 ∧ p.p = true ∧ cut.mach.pageWay (dieOf 0) p (relocate (inst cut).id 0x4FF8) = false)) := by
  have pair {r : Option Page × Mach} {P : Page → Mach → Prop} [∀ p m, Decidable (P p m)]
      (h : (match r with | (some p, m) => decide (P p m) | _ => false) = true) : ∃ p m, r = (some p, m) ∧ P p m := by
    obtain ⟨a, m⟩ := r
    cases a with
    | none => cases h
    | some p => exact ⟨p, m, rfl, by simpa using h⟩
  refine ⟨?_, ?_, ?_, ?_, ?_, ?_, ?_, ?_, ?_⟩
  all_goals first | decide +kernel | (unfold Fresh; decide +kernel) | exact pair (by decide +kernel)

/-! ## Memory -/

/-- R137, R138: sizes and signs of loads, what a store leaves beside its bytes, and the atomics, in memory and in the
scratchpad. -/
theorem test_memory :
    let s := D [0x4001, 0xAABBCCDDEEFF1122, 0x4000, localAddr 0x100, 0x9693908D8A878481, 1]
    let m := fun (i : Instr) => wordAt (after s i).mach (H 0x4000)
    (after s (.ld 7 1 0 0)).seq.get 7 = 0xFFFFFFFFFFFFFF84 ∧ (after s (.ldu 7 1 0 0)).seq.get 7 = 0x84
    ∧ (after s (.ld 7 3 2 4)).seq.get 7 = 0xFFFFFFFF9693908D ∧ (after s (.ld 7 4 1 0)).seq.get 7 = 0xFFFFFFFFFFFF9390
    ∧ (after s (.ld 7 1 3 0)).seq.handler = false ∧ m (.st 2 3 1 2) = 0x9693908D11228481
    ∧ m (.amo 7 3 6 .minu .rlx .core) = 1 ∧ m (.amo 7 3 6 .min .rlx .core) = 0x9693908D8A878481
    ∧ (after s (.amo 7 3 6 .add .rlx .core)).seq.get 7 = 0x9693908D8A878481 ∧ m (.amo 7 3 6 .add .rlx .core) = 0x9693908D8A878482
    ∧ m (.cas 5 3 6 .rlx .core) = 1 ∧ m (.cas 6 3 6 .rlx .core) = 0x9693908D8A878481
    ∧ (after s (.cas 6 3 6 .rlx .core)).seq.get 6 = 0x9693908D8A878481 := by decide +kernel

/-! ## Witnesses: synchronisation, coupling and barriers -/

theorem ex_ok2 {ε α σ : Type} {r : Except ε α × σ} {f : σ → Except ε α × σ} {P : α → α → σ → Prop} [∀ a b m, Decidable (P a b m)]
    (h : (match r with
      | (.ok a, m) => (match f m with | (.ok b, n) => decide (P a b n) | _ => false)
      | _ => false) = true) : ∃ a m, r = (.ok a, m) ∧ ∃ b n, f m = (.ok b, n) ∧ P a b n := by
  obtain ⟨a, m⟩ := r
  cases a with
  | error _ => cases h
  | ok a =>
    refine ⟨a, m, rfl, ?_⟩
    change (match f m with | (.ok b, n) => decide (P a b n) | _ => false) = true at h
    generalize f m = q at h
    obtain ⟨b, n⟩ := q
    cases b with
    | error _ => cases h
    | ok b => exact ⟨b, n, rfl, by simpa using h⟩

theorem clean_of {p : Pad} (copies : List (Region × Nat × Nat)) (h : p.dirty = []) : Clean p copies := by
  intro r b g _ e he
  rw [h] at he
  cases he

/-- A state with a region bound to the object at 0x4040, a filled copy in it, and a lock and a count there. -/
def locks (l : List W64) (lock count : Nat) : State :=
  let s := DR l { reg0 with gbase := 0x8000 } fun p => { p with filled := [0x1C0] }
  sm (sm { s with mach := s.mach.modCtx 0 fun x => { x with bindings := [(0x4040, 0x80C0, 6)] } } (H 0x4040) lock) (H 0x4048) count

/-- A free lock and one with the smallest value that is not free; a count reached exactly and one short of it. -/
theorem wit_Acquire :
    let s := locks [0x4040, 7, 8] 0 7
    let t := locks [0x4040] 1 0
    let finds := fun (s : State) (need : Right) => ∃ k1 m1, ObjectAt s s.mach 0x4040 64 need k1 m1
      ∧ ∃ k2 m2, ObjectAt s m1 0x4040 64 need k2 m2 ∧ k2 = H 0x4040 ∧ m2.cur = m2.cur
    Fresh s ∧ s.seq.get 1 = 0x4040 ∧ Clean (inst s).pad (boundTo s 0x4040) ∧ boundTo s 0x4040 ≠ [] ∧ finds s .write ∧ finds s .read
    ∧ s.mach.poison = [] ∧ wordAt s.mach (H 0x4040) = 0 ∧ s.seq.get 2 ≤ wordAt s.mach (H 0x4040 + 8)
    ∧ wordAt s.mach (H 0x4040 + 8) < s.seq.get 3
    ∧ Fresh t ∧ t.seq.get 1 = 0x4040 ∧ Clean (inst t).pad (boundTo t 0x4040) ∧ finds t .write ∧ wordAt t.mach (H 0x4040) ≠ 0 := by
  refine ⟨?_, ?_, clean_of _ ?_, ?_, ?_, ?_, ?_, ?_, ?_, ?_, ?_, ?_, clean_of _ ?_, ?_, ?_⟩
  all_goals first | decide +kernel | (unfold Fresh; decide +kernel) | exact ex_ok2 (P := fun _ k (m : Mach) => k = H 0x4040 ∧ m.cur = m.cur) (by decide +kernel)

/-- The holder's own tag, and a lock that another agent holds. -/
theorem wit_Release :
    let s := locks [0x4040] (tagOf W).toNat 0xFFFFFFFFFFFFFFFF
    let t := locks [0x4040] 3 0
    let finds := fun (s : State) => ∃ k m, ObjectAt s s.mach 0x4040 64 .write k m ∧ k = H 0x4040 ∧ m.cur = m.cur
    Fresh s ∧ s.seq.get 1 = 0x4040 ∧ Clean (inst s).pad (boundTo s 0x4040) ∧ finds s ∧ s.mach.poison = [] ∧ wordAt s.mach (H 0x4040) = tagOf s
    ∧ Fresh t ∧ t.seq.get 1 = 0x4040 ∧ Clean (inst t).pad (boundTo t 0x4040) ∧ finds t ∧ wordAt t.mach (H 0x4040) ≠ tagOf t := by
  refine ⟨?_, ?_, clean_of _ ?_, ?_, ?_, ?_, ?_, ?_, clean_of _ ?_, ?_, ?_⟩
  all_goals first | decide +kernel | (unfold Fresh; decide +kernel) | exact ex_ok (by decide +kernel)

/-- A copy of block 3 of the region, with its last byte written. -/
def dirty : State := DR [0x4040] reg0 fun p => { p with filled := [0x1C0], dirty := [(0x1FF, 1)] }

theorem wit_Fence : Fresh dirty ∧ (inst dirty).pad.copies ≠ [] ∧ (∃ u m, (writeBackAll dirty.mach.cur (inst dirty).pad.copies).go dirty.mach = (.ok u, m) ∧ m.cur = m.cur)
    ∧ Clean (inst (locks [] 0 0)).pad (inst (locks [] 0 0)).pad.copies ∧ (inst (locks [] 0 0)).pad.copies ≠ [] := by
  refine ⟨?_, ?_, ?_, clean_of _ ?_, ?_⟩
  all_goals first | decide +kernel | (unfold Fresh; decide +kernel) | exact ex_ok (by decide +kernel)

theorem wit_WriteBackStores :
    let s := md dirty fun i => { i with regs := [⟨.map, some { dpage with asid := (W.mach.ctx 0).asid.toNat }, none, 0⟩] }
    0x1C0 ≤ 0x1FF ∧ 0x1FF < 0x1C0 + reg0.bytes ∧ 0x1C0 % 8 = 0 ∧ (inst s).pad.dirty = [(0x1FF, 1)] ∧ (inst s).id.dual = false
    ∧ ∃ p m, Reaches s s.mach .map (0x40C0 + (0x1FF - 0x1C0)) (0x40C0 + (0x1FF - 0x1C0)) .write p m ∧ p.p = true ∧ p.w = true
      ∧ m.pageKey p (relocate (inst s).id (0x40C0 + (0x1FF - 0x1C0))) % 8 = 0x1FF % 8
      ∧ m.pageKey p (relocate (inst s).id (0x40C0 + (0x1FF - 0x1C0))) / 64 ∉ s.mach.poison := by
  refine ⟨?_, ?_, ?_, ?_, ?_, ?_⟩
  all_goals first | decide +kernel | exact ex_ok (by decide +kernel)

/-- W with registers and context 0's bindings. -/
def bound (l : List W64) (b : List (Nat × Nat × Nat)) : State := { R l with mach := (R l).mach.modCtx 0 fun x => { x with bindings := b } }

/-- The address checks at their first breach, the largest tables that take a binding, and the smallest that do not. -/
theorem wit_Bind :
    let s := bound [0x0100000000000000, 0x4041, 0x4040, 0x8040, 0x8041, 0x00FFFFFFFFFFFFC0, 0x0100000000000000] []
    let last := fun (v : W64) => (v &&& ~~~1#64) + BitVec.ofNat 64 (2 ^ (6 : BitVec 6).toNat) - 1
    let near := bound [] ((List.range 1016).map (fun k => (64 * k + 0x10000, 0, 6)) ++ (List.range 7).map fun k => (0x4040, 64 * k, 6))
    Fresh s ∧ ¬Canonical (s.seq.get 1) ∧ Canonical (s.seq.get 2) ∧ (s.seq.get 2).toNat % 64 ≠ 0 ∧ Canonical (s.seq.get 3)
    ∧ (s.seq.get 3).toNat % 64 = 0 ∧ (s.seq.get 4 &&& ~~~1#64).toNat % 128 ≠ 0 ∧ (s.seq.get 4 &&& ~~~1#64).toNat % 64 = 0
    ∧ Canonical (s.seq.get 4 &&& ~~~1#64) ∧ Canonical (last (s.seq.get 4)) ∧ (s.seq.get 4 &&& ~~~1#64).getLsbD 56 = (last (s.seq.get 4)).getLsbD 56
    ∧ (s.seq.get 4).getLsbD 0 = false ∧ (s.seq.get 5).getLsbD 0 = true ∧ Canonical (last (s.seq.get 6))
    ∧ (s.seq.get 7 &&& ~~~1#64).toNat % 64 = 0 ∧ ¬Canonical (s.seq.get 7 &&& ~~~1#64)
    ∧ (near.mach.ctx 0).bindings.length = 1023 ∧ (near.mach.ctx 0).bindings.countP (fun e => e.1 = 0x4040) = 7
    ∧ (0x4040, 0x8040, 6) ∉ (near.mach.ctx 0).bindings ∧ (0x4040, 0, 6) ∈ (near.mach.ctx 0).bindings
    ∧ 1024 ≤ ((bound [] (List.replicate 1024 (0, 0, 6))).mach.ctx 0).bindings.length
    ∧ 8 ≤ ((bound [] ((List.range 8).map fun k => (0x4040, 64 * k, 6))).mach.ctx 0).bindings.countP fun e => e.1 = 0x4040 := by
  unfold Fresh Canonical; decide +kernel

/-- W with its tokens, its scalar queue and its engines' ends. -/
def coupled (n : Fin 16) (sq : Nat) (ended : Bool) : State := withI fun i => { i with
  toks := Vector.replicate 16 n, s := { i.s with sq := List.replicate sq 5 }, v := { i.v with st := { i.v.st with ended } }
  m := { i.m with st := { i.m.st with ended } }, x := { i.x with st := { i.x.st with ended } } }

/-- One token below a full queue, a full one and an empty one; 31 and 32 entries; engines that are idle and a transfer
that runs. -/
theorem wit_Coupling :
    let x := withI fun i => { i with x := { i.x with xfers := [{ ch := 3, id := 9, kind := .copy, body := [], recAddr := 0, pc := 0x40 }] } }
    Fresh (coupled 14 31 false) ∧ (inst (coupled 14 31 false)).tokens .S .M = 14 ∧ ((inst (coupled 14 31 false)).stream .M).ended = false
    ∧ (coupled 14 31 false).seq.sq.length < 32 ∧ Fresh (coupled 15 32 false) ∧ (inst (coupled 15 32 false)).tokens .S .X = 15
    ∧ 32 ≤ (coupled 15 32 false).seq.sq.length ∧ 0 < (inst (coupled 1 0 false)).tokens .V .S ∧ (inst (coupled 0 0 false)).tokens .V .S = 0
    ∧ (inst (coupled 0 0 true)).tokens .V .S = 0 ∧ ((inst (coupled 0 0 true)).stream .V).ended = true ∧ Fresh (coupled 0 0 true)
    ∧ (inst (coupled 0 0 true)).v.st.ended = true ∧ (inst (coupled 0 0 true)).m.active = none ∧ (inst (coupled 0 0 true)).m.pending = none
    ∧ (inst (coupled 0 0 true)).x.xfers = [] ∧ Fresh x ∧ (4 : BitVec 3).getLsbD 2 = true ∧ (inst x).x.xfers ≠ [] := by
  unfold Fresh; decide +kernel

/-- D with one register and its FIFOs changed. -/
def fifos (v : W64) (g : Fifos → Fifos) : State := withI fun i => { i with s := { i.s with regs := regFile [v] }, fifo := g i.fifo }

/-- A header that is none and one that is, the last words that fit and no room, and the three ends of a result side. -/
theorem wit_FifoWords :
    let lengths : List (Nat × Nat) := [(1, 4), (2, 4), (3, 6), (4, 6), (5, 4), (6, 4), (7, 8), (8, 9)]
    let good := fun (v : W64) => (v.toNat % 256, v.toNat / 256 % 256) ∈ lengths ∧ v >>> 48 = 0
    let used := fun (s : State) => (inst s).fifo.open0.length + (inst s).fifo.queue0.flatten.length
    let e := fifos 0x908 id
    let full := fifos 0x401 fun x => { x with open0 := [0x401, 1, 2], queue0 := List.replicate 12 [0x401, 1, 2, 3, 4] ++ [[9]] }
    let one := fifos 5 fun x => { x with open0 := [0x401, 1, 2], queue0 := List.replicate 12 [0x401, 1, 2, 3, 4], res0 := [7], res1 := [8], f2 := [9] }
    Fresh e ∧ (inst e).fifo.open0 = [] ∧ good (e.seq.get 1) ∧ (inst e).id.dual = false ∧ ¬good 0x501 ∧ ¬good 0x1000000000401
    ∧ 64 - used full = 0 ∧ (inst full).fifo.open0 ≠ [] ∧ Fresh full ∧ 64 - used one = 1 ∧ (inst one).fifo.open0 ≠ [] ∧ Fresh one
    ∧ (inst one).fifo.res0 = 7 :: [] ∧ (inst one).fifo.res1 = 8 :: [] ∧ (inst one).fifo.f2 = 9 :: []
    ∧ (inst e).fifo.res0 = [] ∧ (inst e).fifo.queue0.length + (inst e).fifo.cmds.length = 0
    ∧ (inst full).fifo.res0 = [] ∧ ¬(inst full).fifo.queue0.length + (inst full).fifo.cmds.length = 0
    ∧ (inst e).fifo.f2 = [] ∧ (inst e).v.st.ended = false ∧ (inst (coupled 0 0 true)).fifo.f2 = [] := by unfold Fresh; decide +kernel

/-- A launch as a queue record gave it. -/
def lrec : LRec :=
  { image := 0x100000, sptr := [0, 0, 0, 0], param := 0, sched := 0, views := 0, regmap := 0, instn := 2, tsize := 1, plevel := 0
    gang := 0, prio := 5, tsFoot := 4096, bsFoot := 0, accsets := 1, spfoot := 65536, scaleOff := 0, nreg := 0, dual := false
    shadow := 0, outBase := 0, outSize := 0, dep0a := 0, dep0v := 0, dep1a := 0, dep1v := 0, compl := 0, args := [] }

/-- A running launch of number n, whose first team is resident. -/
def lau (n : Nat) : Launch :=
  { num := n, fn := 0, q := 0, index := 0, tag := 0, cpl := true, dies := [0], slots := [0], lr := lrec
    hdrs := [{ secOff := [0, 0, 0, 0], secLen := [1, 0, 0, 0], paramOff := 0, paramLen := 0, schedOff := 0, schedLen := 0, viewsOff := 0, viewsLen := 0 }]
    st := .running, teams := [{ num := 0, run := 0, die := 0, st := .resident, cores := [0] }, { num := 1, run := 0, die := 0 }] }

/-- The state with launches 2, 3 and 4, whose instance is of launch 3. -/
def launched (s : State) : State :=
  let s := md s fun i => { i with id := { i.id with launch := 3 } }
  { s with mach := { s.mach with launches := [lau 2, lau 3, lau 4] } }

/-- The last word of a line: a value that meets EQ, GEU and GE and one that meets NE, LTU and LT. -/
theorem wit_WaitwYield :
    let s := D [0x4038, 0, 1]
    Fresh s ∧ s.seq.get 1 = 0x4038 ∧ (∃ k m, ObjectAt s s.mach 0x4038 8 .read k m ∧ k = H 0x4038 ∧ m.cur = m.cur)
    ∧ H 0x4038 / 64 ∉ s.mach.poison ∧ wordAt (sm s (H 0x4038) 0).mach (H 0x4038) = s.seq.get 2 ∧ wordAt (sm s (H 0x4038) 0).mach (H 0x4038) < s.seq.get 3
    ∧ (launched W).mach.launches = [lau 2] ++ lau 3 :: [lau 4] ∧ (lau 3).num = (inst (launched W)).id.launch
    ∧ (∀ o ∈ [lau 2] ++ [lau 4], o.num ≠ (inst (launched W)).id.launch) ∧ ∀ o ∈ W.mach.launches, o.num ≠ (inst W).id.launch := by
  refine ⟨?_, ?_, ?_, ?_, ?_, ?_, ?_, ?_, ?_, ?_⟩
  all_goals first | decide +kernel | (unfold Fresh; decide +kernel) | exact ex_ok (by decide +kernel)

theorem wit_ObjectTraps :
    let s := R [0x0100000000000000, 0x4020, 0x4004]
    Fresh s ∧ ¬Canonical (s.seq.get 1) ∧ Canonical (s.seq.get 2) ∧ (s.seq.get 2).toNat % 64 ≠ 0 ∧ Canonical (s.seq.get 3) ∧ (s.seq.get 3).toNat % 8 ≠ 0 := by
  unfold Fresh Canonical; decide +kernel

/-- A barrier object at 0x4040 for an instance of launch 3, with its control word, rounds and arrival records. -/
def barrier (ctrl : Nat) (rounds : Bool) (arrivals : List Arrival) (b : W64 := 0xFFFFFFFFFFFF) : State :=
  let s := md (sm (launched (D [0x4040, b])) (H 0x4040) ctrl) fun i => { i with arrivals }
  let r : Round :=
    { num := 7, ctx := 0, obj := H 0x4040, va := 0x4040, scope := 1, pset := psetOf (inst s).id 0 1, round := 3, nmod := 0
      expect := 1, bytes := 0, arrived := [1] }
  { s with mach := { s.mach with rounds := if rounds then [{ r with num := 6, obj := 0 }, r] else [], nextRound := 9 } }

/-- The round of barrier objects with rounds. -/
def theRound : Round := (barrier 8 true []).mach.rounds.getD 1 { num := 0, ctx := 0, obj := 0, va := 0, scope := 0, pset := psetOf (inst W).id 0 1, round := 0, nmod := 0, expect := 0, bytes := 0, arrived := [] }

/-- An idle object, a poisoned one, an open round, another scope, a record that stands, a malformed object and 16 records. -/
theorem wit_BarrierArrive :
    let k := H 0x4040
    let s := barrier 8 false []
    let t := barrier 8 true []
    let dead := barrier 13 false []
    let two := barrier 8 false [⟨0x4040, 3, none, 0⟩]
    let many := barrier 8 false ((List.range 16).map fun j => ⟨0x8000 + 64 * j, 3, none, 0⟩)
    Fresh s ∧ Clean (inst s).pad (inst s).pad.copies ∧ s.seq.get 1 = 0x4040 ∧ (s.seq.get 2).toNat < 2 ^ 48
    ∧ (∃ k0 m0, ObjectAt s s.mach 0x4040 64 .write k0 m0 ∧ ∃ k1 m1, ObjectAt s m0 0x4040 64 .write k1 m1 ∧ k0 = k ∧ k1 = k ∧ m1.cur = m1.cur)
    ∧ (∀ e ∈ (inst s).arrivals, e.obj = 0x4040 → e.ended ≠ none) ∧ ((inst s).arrivals.filter (·.obj != 0x4040)).length < 16
    ∧ NoRound s k ∧ (∀ r ∈ s.mach.rounds, r.num < s.mach.nextRound) ∧ (s.mach.barObj k).ok = true ∧ (s.mach.barObj k).scope = scopeNumber .sg
    ∧ (s.mach.barObj k).st ≠ 5 ∧ s.mach.roundRoom (inst s).id.ctx.val (scopeNumber .sg) = true
    ∧ NoRound dead k ∧ (dead.mach.barObj k).st = 5 ∧ (dead.mach.barObj k).ok = true ∧ (dead.mach.barObj k).scope = scopeNumber .sg
    ∧ OneRound t k 0x4040 .sg [{ theRound with num := 6, obj := 0 }] theRound [] ∧ t.seq.get 1 = 0x4040
    ∧ NoRound s k ∧ (s.mach.barObj k).scope ≠ scopeNumber .die
    ∧ NoRound two k ∧ (∃ e ∈ (inst two).arrivals, e.obj = 0x4040 ∧ e.ended = none)
    ∧ NoRound many k ∧ 16 ≤ ((inst many).arrivals.filter (·.obj != 0x4040)).length
    ∧ (∀ e ∈ (inst many).arrivals, e.obj = 0x4040 → e.ended ≠ none)
    ∧ NoRound (barrier 15 false []) k ∧ ((barrier 15 false []).mach.barObj k).ok = false ∧ ((barrier 15 false []).mach.barObj k).st ≠ 5 ∧ ((barrier 15 false []).mach.barObj k).scope = scopeNumber .sg
    ∧ (inst s).id.dual = false
    ∧ (let full : State := { s with mach := { s.mach with rounds := (List.range 16).map fun n => { theRound with num := n, obj := n } } }
       NoRound full k ∧ (full.mach.barObj k).st ≠ 5 ∧ full.mach.roundRoom (inst full).id.ctx.val (scopeNumber .sg) = false) := by
  refine ⟨?_, clean_of _ ?_, ?_, ?_, ?_, ?_, ?_, ?_, ?_, ?_, ?_, ?_, ?_, ?_, ?_, ?_, ?_, ?_, ?_, ?_, ?_, ?_, ?_, ?_, ?_, ?_, ?_, ?_, ?_, ?_, ?_, ?_⟩
  all_goals first
    | decide +kernel
    | (unfold Fresh; decide +kernel)
    | (unfold NoRound; decide +kernel)
    | (unfold OneRound; decide +kernel)
    | exact ex_ok2 (P := fun a b (m : Mach) => a = H 0x4040 ∧ b = H 0x4040 ∧ m.cur = m.cur) (by decide +kernel)

theorem wit_BarrierCountTooLarge :
    let s := barrier 8 false [] 0x1000000000000
    Fresh s ∧ s.seq.get 1 = 0x4040 ∧ (∃ k m, ObjectAt s s.mach 0x4040 64 .write k m ∧ k = H 0x4040 ∧ m.cur = m.cur) ∧ NoRound s (H 0x4040)
    ∧ (s.mach.barObj (H 0x4040)).scope = scopeNumber .sg ∧ 2 ^ 48 ≤ (s.seq.get 2).toNat := by
  refine ⟨?_, ?_, ?_, ?_, ?_, ?_⟩
  all_goals first
    | decide +kernel | (unfold Fresh; decide +kernel) | (unfold NoRound; decide +kernel) | exact ex_ok (by decide +kernel)

/-- No record, one that stands, one that has ended, and one that has ended behind others, without and with a round. -/
theorem wit_BarrierWait :
    let mine := fun (s : State) => (inst s).arrivals.find? fun e => e.obj == 0x4040
    let s := fun (a : List Arrival) => barrier 8 false a
    Fresh (s []) ∧ (s []).seq.get 1 = 0x4040 ∧ Clean (inst (s [])).pad (inst (s [])).pad.copies
    ∧ (∃ k m, ObjectAt (s []) (s []).mach 0x4040 64 .write k m ∧ k = H 0x4040 ∧ m.cur = m.cur)
    ∧ NoRound (s []) (H 0x4040) ∧ ((s []).mach.barObj (H 0x4040)).scope = scopeNumber .sg
    ∧ OneRound (barrier 8 true []) (H 0x4040) 0x4040 .sg [{ theRound with num := 6, obj := 0 }] theRound []
    ∧ mine (s []) = none ∧ mine (s [⟨0x4040, 3, none, 0⟩]) = some ⟨0x4040, 3, none, 0⟩
    ∧ mine (s [⟨0x4040, 3, some (1, 3), 0⟩]) = some ⟨0x4040, 3, some (1, 3), 0⟩
    ∧ mine (s [⟨0x4040, 3, some (1, 3), 1⟩]) = some ⟨0x4040, 3, some (1, 3), 1⟩ := by
  refine ⟨?_, ?_, clean_of _ ?_, ?_, ?_, ?_, ?_, ?_, ?_, ?_, ?_⟩
  all_goals first
    | decide +kernel | (unfold Fresh; decide +kernel) | (unfold NoRound; decide +kernel) | (unfold OneRound; decide +kernel)
    | exact ex_ok (by decide +kernel)

theorem wit_Exit :
    let s := launched (looping 0x1010 2)
    Fresh s ∧ ¬AtBodyEnd s.seq ∧ s.seq.handler = false ∧ (∀ r ∈ s.mach.rounds, psetLaunch r.pset ≠ ((inst s).id.launch, (inst s).id.run))
    ∧ s.mach.launches = [lau 2] ++ lau 3 :: [lau 4] ∧ (lau 3).num = (inst s).id.launch ∧ (lau 3).st = .running
    ∧ (∀ o ∈ [lau 2] ++ [lau 4], o.num ≠ (inst s).id.launch) ∧ (withQ fun q => { q with handler := true }).seq.handler = true := by
  unfold Fresh AtBodyEnd; decide +kernel

/-- W with a trace ring of one page. -/
def ringed (on : Bool) (w r : Nat) : State :=
  sm (sm { W with mach := W.mach.modCtx 0 fun x => { x with trc := { base := 0x50000000, size := 1, on, threshold := 0, byPf := false } } } 0x50000000 w) 0x50000010 r

/-- A ring that is off, one with its last slot free, and a full one. -/
theorem wit_Trace :
    let free := fun (s : State) => (wordAt s.mach 0x50000000).toNat - (wordAt s.mach (0x50000000 + 16)).toNat
    Fresh (ringed true 62 0) ∧ ((ringed false 0 0).mach.ctx 0).trc.on = false ∧ ((ringed true 62 0).mach.ctx 0).trc.on = true
    ∧ free (ringed true 62 0) < 1 * 64 - 1 ∧ 1 * 64 - 1 ≤ free (ringed true 63 0) := by unfold Fresh; decide +kernel

/-- W with registers, a leaf entry's low word, and the requests that a die holds. -/
def leafed (l : List W64) (word : Nat → Nat) (held : List PgReq) : State :=
  let key := match W.mach.walk 0 0 with | some p => p.entry | none => 0
  let s := sm (R l) key (word (wordAt W.mach key).toNat)
  { s with mach := s.mach.setDie (ctxDie 0) { s.mach.die (ctxDie 0) with pgreqs := held } }

/-- An address of no space, one that no leaf maps, a page denied, a PULL page, one present, and one that is not: asked
for, with no tag, and with one. -/
theorem wit_PageWords :
    let found := fun (s : State) => s.mach.walk 0 0x4000
    let req : PgReq := { tag := 6, ctx := 0, page := 0, write := true }
    let all := (List.range 8).map (fun t => ({ tag := t, ctx := 0, page := 0x1000000 * (t + 1), write := true } : PgReq))
      ++ (List.range 512).map fun t => { tag := 2048 + t, ctx := 0, page := 0x1000000 * (t + 9), write := true }
    let s := fun word held => leafed [0x4000, 0x0100000000000000, 0x00FFFFFFFFFFFFFF] word held
    let absent := fun w => w - 4
    Fresh (s id []) ∧ (s id []).seq.get 1 = 0x4000 ∧ ¬Canonical ((s id []).seq.get 2) ∧ Canonical ((s id []).seq.get 3)
    ∧ (s id []).mach.walk 0 0x00FFFFFFFFFFFFFF = none ∧ Canonical ((s id []).seq.get 1)
    ∧ (∃ p, found (s (· - 8) []) = some p ∧ p.w = false) ∧ (∃ p, found (s (· + 3 * 2 ^ 21) []) = some p ∧ p.rd = true ∧ p.mode = 3)
    ∧ (∃ p, found (s id []) = some p ∧ p.w = true ∧ p.mode ≠ 3 ∧ p.p = true)
    ∧ (∃ p, found (s absent []) = some p ∧ p.w = true ∧ p.mode ≠ 3 ∧ p.p = false ∧ p.base = 0)
    ∧ ((s absent [req]).mach.die (ctxDie 0)).pgreqs.find? (fun e => e.ctx == 0 && e.page == 0) = some req
    ∧ (all.any fun e => e.ctx == 0 && e.page == 0) = false ∧ freeTag all 0 = none ∧ freeTag [] 0 = some 0
    ∧ freeTag (all.take 519) 0 = some 2559 := by
  refine ⟨?_, ?_, ?_, ?_, ?_, ?_, ?_, ?_, ?_, ?_, ?_, ?_, ?_, ?_, ?_⟩
  all_goals first
    | decide +kernel | (unfold Fresh; decide +kernel) | (unfold Canonical; decide +kernel) | exact ex_some (by decide +kernel)

/-- The set of block 1 of a CACHED region of two sets of four 64-byte ways. -/
def cached (g : W64) (tags : List Tag) : State := withI fun i => { i with
  s := { i.s with regs := regFile [g] }
  pad := { i.pad with regions := [{ gbase := 0x8000, lbase := 0x1000, size := 512, cached := true, blk := 6, gsize := 8192 }], tags } }

/-- The first address past the region, a hit in the last way, and an empty set. -/
theorem wit_Probe :
    let region := fun (s : State) => (inst s).pad.regions.find? fun r => r.cached && decide (r.gbase ≤ (s.seq.get 1).toNat) && decide ((s.seq.get 1).toNat < r.gbase + r.gsize)
    let tagAt := fun (s : State) (w : Nat) => (inst s).pad.tags.find? fun t => t.slot == 0x1000 + 1 % (512 / 64 / 4) * 4 * 64 + w * 64
    let r : Region := { gbase := 0x8000, lbase := 0x1000, size := 512, cached := true, blk := 6, gsize := 8192 }
    let hit := cached 0x8045 [{ slot := 0x11C0, block := 1, state := .valid }]
    Fresh hit ∧ ¬AtBodyEnd hit.seq ∧ Canonical (hit.seq.get 1) ∧ region (cached 0xA000 []) = none ∧ Canonical ((cached 0xA000 []).seq.get 1)
    ∧ r.bytes = 64 ∧ region hit = some r ∧ ((hit.seq.get 1).toNat - r.gbase) / 64 = 1 ∧ 3 < 4 ∧ tagAt hit 3 = some { slot := 0x11C0, block := 1, state := .valid }
    ∧ (∀ v < 3, tagAt hit v = none) ∧ region (cached 0x8045 []) = some r ∧ (∀ w < 4, tagAt (cached 0x8045 []) w = none)
    ∧ ((inst (cached 0x8045 [])).x.xfers.filter (·.ch == 7)).length < 4 ∧ ((inst (cached 0x8045 [])).x.tissue.get 7).toNat + 1 < 2 ^ 48 := by
  unfold Fresh AtBodyEnd Canonical; decide +kernel

/-! ## Witnesses: the streams of V, M and X, and the words of V -/

/-- The conditions of Starts, computed. -/
def startsAt (s : State) (e : Eng) (y : Sync) : Bool :=
  let i := inst s
  let st := i.stream e
  decide (st.popped = false ∧ st.wait = none ∧ st.pushing = none)
  && (match peerOf e y.pop with | some p => decide (0 < i.tokens p e) | none => true)
  && (match peerOf e y.push with | some p => !i.behind e p && ((i.stream p).ended || decide (i.tokens e p < 15)) | none => true)
  && decide ((e = .V → i.s.rvalid = true → i.s.rstrm ≠ 1)
    ∧ (e = .M → (i.s.rvalid = true → i.s.rstrm ≠ 2) ∧ i.m.drain = none ∧ i.m.drainFault = false ∧ i.m.record = none)
    ∧ (e = .X → ∀ g ∈ i.x.stagings, g.issuing = false))

theorem starts_of {s : State} {e : Eng} {y : Sync} (h : startsAt s e y = true) : Starts s e y := by
  simp only [startsAt, Bool.and_eq_true, decide_eq_true_eq] at h
  obtain ⟨⟨⟨⟨a, b, c⟩, pop⟩, push⟩, d, f, g⟩ := h
  refine ⟨a, b, c, fun p hp => ?_, fun p hp => ?_, d, f, g⟩
  · rw [hp] at pop
    exact of_decide_eq_true pop
  · rw [hp] at push
    simpa using push

theorem reads_of {s : State} {y : Sync} {a : Src} {b : Option Src} {ra rb : Bool} {rows : Nat}
    (h : (match (readSrcs s.mach.cur a b ra rb rows).go (begun s .V y) with | (.ok _, _) => true | _ => false) = true) :
    ∃ xa xb m, Reads s y a b ra rb rows xa xb m := by
  unfold Reads
  generalize (readSrcs s.mach.cur a b ra rb rows).go (begun s .V y) = r at h
  obtain ⟨r, m⟩ := r
  cases r with
  | ok p => exact ⟨p.1, p.2, m, rfl⟩
  | error _ => cases h

theorem rows_of {ε σ α β : Type} {r : Except ε (α × List β) × σ} (h : (match r with | (.ok (_, []), _) => true | _ => false) = true) :
    ∃ l m, r = (.ok (l, []), m) := by
  obtain ⟨r, m⟩ := r
  cases r with
  | error _ => cases h
  | ok p =>
    obtain ⟨l, k⟩ := p
    cases k with
    | nil => exact ⟨l, m, rfl⟩
    | cons _ _ => cases h

/-- W with n tokens in each queue, and S ended or not. -/
def tokened (n : Fin 16) (ended : Bool) : State := withI fun i => { i with
  toks := Vector.replicate 16 n, s := { i.s with st := { i.s.st with ended } } }

/-- A pop with one token, with none and with none to come; a push into the last place, into a full queue and to an ended
peer. -/
theorem wit_SyncNibble :
    Starts (tokened 14 false) .V ⟨1, 1⟩ ∧ Starts (tokened 1 false) .M ⟨2, 3⟩ ∧ Starts (tokened 15 true) .X ⟨1, 1⟩
    ∧ Starts (tokened 0 false) .V { (⟨1, 2⟩ : Sync) with pop := 0 } ∧ peerOf .V 1 = some .S ∧ (inst (tokened 0 false)).tokens .S .V = 0
    ∧ ((inst (tokened 0 false)).stream .S).ended = false ∧ Starts (tokened 0 true) .V { (⟨1, 2⟩ : Sync) with pop := 0 }
    ∧ (inst (tokened 0 true)).tokens .S .V = 0 ∧ ((inst (tokened 0 true)).stream .S).ended = true
    ∧ Starts (tokened 15 false) .V { (⟨1, 1⟩ : Sync) with push := 0 }
    ∧ ((begun (tokened 15 false) .V ⟨1, 1⟩).inst (tokened 15 false).mach.cur).tokens .V .S = 15
    ∧ ((inst (tokened 15 false)).stream .S).ended = false := by
  refine ⟨starts_of ?_, starts_of ?_, starts_of ?_, starts_of ?_, ?_, ?_, ?_, starts_of ?_, ?_, ?_, starts_of ?_, ?_, ?_⟩ <;> decide +kernel

theorem wit_EndWords :
    let k : Commit := { cfg := {}, n := 1, mgo := 0, push := none }
    let x : Transfer := { ch := 3, id := 9, kind := .copy, body := [], recAddr := 0, pc := 0x40 }
    let busy := md (tokened 1 false) fun i => { i with m := { i.m with active := some k }, x := { i.x with xfers := [x] } }
    let s := tokened 1 false
    Starts s .V ⟨1, 2⟩ ∧ Starts s .M ⟨1, 2⟩ ∧ Starts s .X ⟨1, 2⟩ ∧ (inst s).m.active = none ∧ (inst s).m.pending = none ∧ (inst s).m.pushes = []
    ∧ (inst s).x.xfers = [] ∧ (inst s).x.pushes = [] ∧ Starts busy .M ⟨1, 2⟩ ∧ Starts busy .X ⟨1, 2⟩
    ∧ (inst busy).m.active ≠ none ∧ (inst busy).x.xfers ≠ [] := by
  refine ⟨starts_of ?_, starts_of ?_, starts_of ?_, ?_, ?_, ?_, ?_, ?_, starts_of ?_, starts_of ?_, ?_, ?_⟩ <;> decide +kernel

/-- A view descriptor (Table 6.1). -/
def viewW (off pitch ar ac vr vc : Nat) (bf : Bool) : W64 :=
  BitVec.ofNat 64 (off / 16 + pitch / 16 * 2 ^ 14 + (ar - 1) * 2 ^ 24 + (ac - 1) * 2 ^ 30 + (vr - 1) * 2 ^ 36 + (vc - 1) * 2 ^ 42
    + if bf then 2 ^ 48 else 0)

/-- A port descriptor (Table 6.2): base, bits 23:22, format, geometry, row length, and one level. -/
def portW (base kind fmt geo rlen count step : Nat) : Vector W64 6 :=
  #v[BitVec.ofNat 64 (base + kind * 2 ^ 22 + fmt * 2 ^ 24 + geo * 2 ^ 28 + (rlen - 1) * 2 ^ 30), 0, BitVec.ofNat 64 (count - 1 + step * 2 ^ 16), 0, 0, 0]

/-- A state for the words of V: tokens, a scalar queue, a tile, a scratchpad, views 1 to 3, ports 2 and 4. -/
def VB (sq : List W64) (base : Nat := 0x100) : State := withI fun i => { i with
  toks := Vector.replicate 16 3, s := { i.s with sq }
  pad := { i.pad with bytes := (List.range 64).map fun k => (0x100 + k, BitVec.ofNat 8 (0x31 + 3 * k)) }
  v := { i.v with
    tile := (List.range 32).map fun k => (k, BitVec.ofNat 8 (if k % 4 = 3 then 0x3F + k / 4 else 0x40))
    views := vset (vset (vset i.v.views 1 (viewW 0 16 2 4 2 2 false)) 2 (viewW 16 16 2 4 2 2 true)) 3 (viewW 0 16 2 4 2 2 true)
    ports := vset (vset i.v.ports 2 { isSet := true, desc := portW base 0 2 0 6 3 16 }) 4 { isSet := true, desc := portW (0x10000 - 8) 2 3 0 4 1 0 } } }

/-- A view of the last row of the tile store, one a byte longer, a malformed one, and no entry. -/
theorem wit_ViewWords :
    let last := viewW 0xFF0 16 1 4 1 1 false
    let past := viewW 0xFF0 16 2 4 1 1 false
    let bad := viewW 0xFF0 16 1 5 1 1 false
    let good := fun (e : W64) => let f := viewD e; e < 2 ^ 49 ∧ 1 ≤ f.pitch ∧ f.ac * f.fmt.size ≤ f.pitch ∧ f.vr ≤ f.ar ∧ f.vc ≤ f.ac
    Starts (VB [last, 7]) .V ⟨1, 2⟩ ∧ (inst (VB [last, 7])).s.sq = last :: [7] ∧ good last
    ∧ (∀ r < (viewD last).ar, (viewD last).off + r * (viewD last).pitch + (viewD last).ac * (viewD last).fmt.size ≤ (inst (VB [])).id.tsFoot)
    ∧ good past ∧ viewBreach (viewD past) (inst (VB [])).id.tsFoot = some 0x1000 ∧ ¬good bad ∧ Starts (VB []) .V ⟨1, 2⟩
    ∧ (inst (VB [])).s.sq = [] ∧ (inst (VB [])).s.st.ended = false ∧ ∃ v, rejectVal (.vview ⟨1, 2⟩ 5) 0 v := by
  refine ⟨starts_of ?_, ?_, ?_, ?_, ?_, ?_, ?_, starts_of ?_, ?_, ?_, _, _, _, rfl, rfl⟩ <;> decide +kernel

/-- A descriptor that is accepted, with a slot held and without, and one for each check. -/
theorem wit_PortWords :
    let sq := fun (e : Vector W64 6) => VB (e.toList ++ [7])
    let good := portW 0x100 0 2 0 8 4 16
    let res := portW (0x100 + 2 ^ 60) 0 2 0 8 4 16
    let fmt := portW 0x100 0 7 0 8 4 16
    let mis := portW 0x101 0 2 0 8 4 16
    let held := md (sq good) fun i => { i with
      v := { i.v with ports := vset i.v.ports 3 { isSet := true, desc := portW 6 1 4 0 4 1 0, held := some 1 } }
      x := { i.x with cbs := vset i.x.cbs 6 { ready := true, n := 2, slots := [.filled, .held] } } }
    Starts (sq good) .V ⟨1, 2⟩ ∧ (inst (sq good)).s.sq = good.toList ++ [7] ∧ portReserved good = none ∧ (portD good).formatOk = true
    ∧ (portD good).misaligned = none ∧ Starts held .V ⟨1, 2⟩ ∧ ((inst held).v.ports.get 3).held = some 1
    ∧ Starts (sq res) .V ⟨1, 2⟩ ∧ portReserved res = some 0 ∧ Starts (sq fmt) .V ⟨1, 2⟩ ∧ portReserved fmt = none ∧ (portD fmt).formatOk = false
    ∧ Starts (sq mis) .V ⟨1, 2⟩ ∧ portReserved mis = none ∧ (portD mis).formatOk = true ∧ (portD mis).misaligned = some 0x101
    ∧ ∃ v, rejectVal (.vpset ⟨1, 2⟩ 3) 0 v := by
  refine ⟨starts_of ?_, ?_, ?_, ?_, ?_, starts_of ?_, ?_, starts_of ?_, ?_, starts_of ?_, ?_, ?_, starts_of ?_, ?_, ?_, ?_,
    _, _, _, rfl, rfl⟩ <;> decide +kernel

theorem wit_ViewSources : (inst (VB [0x3F800000, 7])).s.sq = 0x3F800000 :: [7] := by decide +kernel

/-- The last element of a row and the byte after it, in a shape whose rows fill the pitch. -/
theorem wit_TileWrites :
    let d := viewD (viewW 0 16 2 4 2 2 false)
    let l : List (Nat × Nat × Nat) := [(0, 3, 7), (1, 0, 9)]
    let at' := fun (r c : Nat) => d.off + r * d.pitch + c * d.fmt.size
    d.ac * d.fmt.size ≤ d.pitch ∧ (l.map fun e => (e.1, e.2.1)).Nodup ∧ (∀ e ∈ l, e.1 < d.ar ∧ e.2.1 < d.ac)
    ∧ (0, 3, 7) ∈ l ∧ (at' 0 3 ≤ 15 ∧ 15 < at' 0 3 + d.fmt.size)
    ∧ (∀ e ∈ l, ¬(at' e.1 e.2.1 ≤ 20 ∧ 20 < at' e.1 e.2.1 + d.fmt.size)) ∧ (at' 1 1 ≤ 20 ∧ 20 < at' 1 1 + d.fmt.size)
    ∧ (∀ e ∈ l, ¬(at' e.1 e.2.1 ≤ 32 ∧ 32 < at' e.1 e.2.1 + d.fmt.size))
    ∧ ¬∃ r < d.ar, ∃ c < d.ac, at' r c ≤ 32 ∧ 32 < at' r c + d.fmt.size := by decide +kernel

/-- Views, a port and the scalar queue as sources. -/
theorem wit_ElementWords :
    let s := VB [0x3FC00000, 1]
    let y : Sync := ⟨1, 2⟩
    Starts s .V y ∧ (inst s).v.views.get 1 ≠ 0 ∧ SourceOk (inst s) (.view 2) ∧ SourceOk (inst s) (.port 2) ∧ SourceOk (inst s) .sq
    ∧ (∃ xa xb m, Reads s y (.view 2) none false false 2 xa xb m) ∧ (∃ xa xb m, Reads s y (.port 2) none true false 2 xa xb m)
    ∧ (∃ xa xb m, Reads s y .sq none false false 2 xa xb m) ∧ (∃ xa xb m, Reads s y (.view 2) (some (.port 2)) false true 2 xa xb m)
    ∧ (viewD ((inst s).v.views.get 1)).vr = 2 := by
  refine ⟨starts_of ?_, ?_, ?_, ?_, ?_, reads_of ?_, reads_of ?_, reads_of ?_, reads_of ?_, ?_⟩
  all_goals first | decide +kernel | (unfold SourceOk; decide +kernel) | trivial

theorem wit_MovingWords :
    let s := VB [0x3FC00000, 1]
    let y : Sync := ⟨1, 2⟩
    Starts s .V y ∧ (inst s).v.views.get 1 ≠ 0 ∧ (inst s).v.views.get 3 ≠ 0 ∧ SourceOk (inst s) (.port 2) ∧ SourceOk (inst s) (.view 2)
    ∧ (∃ rows m, (popRows s.mach.cur (some (2, true)) none 2).go (begun s .V y) = (.ok (rows, []), m))
    ∧ (∃ xa xb m, Reads s y (.view 2) (some .sq) false false 2 xa xb m) ∧ (∃ xa xb m, Reads s y (.view 2) none false false 2 xa xb m)
    ∧ (∀ n, Src.view 2 ≠ .port n) ∧ (viewD ((inst s).v.views.get 1)).vr = 2 ∧ (viewD ((inst s).v.views.get 1)).vc = 2 := by
  refine ⟨starts_of ?_, ?_, ?_, ?_, ?_, rows_of ?_, reads_of ?_, reads_of ?_, fun n h => ?_, ?_, ?_⟩
  all_goals first | decide +kernel | (unfold SourceOk; decide +kernel) | cases h

theorem wit_LineWords :
    let s := VB [0x3FC00000, 1]
    Starts s .V ⟨1, 2⟩ ∧ (inst s).v.views.get 1 ≠ 0 ∧ SourceOk (inst s) (.view 2) ∧ SourceOk (inst s) .sq ∧ s.seq.trapen = 0
    ∧ (∃ xa xb m, Reads s ⟨1, 2⟩ (.view 2) none false false (viewD ((inst s).v.views.get 2)).vr xa xb m)
    ∧ ∃ xa xb m, Reads s ⟨1, 2⟩ .sq none false false (viewD ((inst s).v.views.get 1)).vr xa xb m := by
  refine ⟨starts_of ?_, ?_, ?_, ?_, ?_, reads_of ?_, reads_of ?_⟩
  all_goals first | decide +kernel | (unfold SourceOk; decide +kernel) | trivial

/-- The largest and the smallest mask that is written, an entry of the largest number and one beyond it, F2 with one place
left and full, S ended, two views, no view, and a source whose codes raise flags that TRAPEN enables. -/
theorem wit_MaskWords :
    let s := md (VB [0xFFF, 1]) fun i => { i with fifo := { i.fifo with f2 := List.replicate 63 5 } }
    let full := md (VB [0x1000]) fun i => { i with fifo := { i.fifo with f2 := List.replicate 64 5 } }
    let over' := md s fun i => { i with s := { i.s with st := { i.s.st with ended := true } } }
    let odd := md (VB []) fun i => { i with
      s := { i.s with trapen := 0x3F }
      pad := { i.pad with bytes := [(0x100, 0x7F)] }, v := { i.v with ports := vset i.v.ports 2 { isSet := true, desc := portW 0x100 0 4 0 6 3 16 } } }
    Starts s .V ⟨1, 2⟩ ∧ (7 : Fin 8) ≠ 0 ∧ (1 : Fin 8) ≠ 0 ∧ (inst s).v.views.get 1 ≠ 0 ∧ SourceOk (inst s) (.view 2) ∧ SourceOk (inst s) .sq
    ∧ (∃ xa xb m, Reads s ⟨1, 2⟩ (.view 2) (some .sq) false false (viewD ((inst s).v.views.get 2)).vr xa xb m)
    ∧ (∃ xa xb m, Reads s ⟨1, 2⟩ .sq (some (.view 2)) false false (viewD ((inst s).v.views.get 2)).vr xa xb m)
    ∧ (∀ n, Src.sq ≠ .view n) ∧ s.seq.trapen = 0 ∧ (inst s).s.st.ended = false ∧ (inst s).fifo.f2.length < 64
    ∧ (inst s).s.sq = 0xFFF :: [1] ∧ (0xFFF : W64) < 2 ^ 12
    ∧ Starts full .V ⟨1, 2⟩ ∧ (inst full).s.st.ended = false ∧ 64 ≤ (inst full).fifo.f2.length ∧ (inst full).s.sq = 0x1000 :: []
    ∧ (2 ^ 12 : W64) ≤ 0x1000 ∧ Starts over' .V ⟨1, 2⟩ ∧ (inst over').s.st.ended = true
    ∧ SourceOk (inst s) (.port 2) ∧ (∀ n, Src.port 2 ≠ .view n)
    ∧ Starts odd .V ⟨1, 2⟩ ∧ SourceOk (inst odd) (.port 2) ∧ SourceOk (inst odd) (.view 2)
    ∧ (∃ (x : SrcVal × SrcVal) (m : Mach), (readSrcs odd.mach.cur (.port 2) (some (.view 2)) false false 2).go (begun odd .V ⟨1, 2⟩) = (.ok x, m)
        ∧ ((chosen (inst odd) 0 2 2).foldl (fun f p => f ||| (x.1.get p.1 p.2).2 ||| (x.2.get p.1 p.2).2) 0) &&& odd.seq.trapen ≠ 0)
    ∧ (∃ v, rejectVal (.vcmp ⟨1, 2⟩ 0 false false .lt 3 .sq (.port 2)) 0 v) ∧ ∃ v, rejectVal (.vxs ⟨1, 2⟩ 1) 0 v := by
  refine ⟨starts_of ?_, ?_, ?_, ?_, ?_, ?_, reads_of ?_, reads_of ?_, fun n h => ?_, ?_, ?_, ?_, ?_, ?_, starts_of ?_, ?_, ?_, ?_, ?_,
    starts_of ?_, ?_, ?_, fun n h => ?_, starts_of ?_, ?_, ?_, ?_, ⟨_, _, _, rfl, rfl⟩, ⟨_, _, _, rfl, rfl⟩⟩
  all_goals first | decide +kernel | (unfold SourceOk; decide +kernel) | trivial | cases h | exact ex_ok (by decide +kernel)

theorem wit_ResidencyMask :
    let s := VB []
    Starts s .V ⟨1, 2⟩ ∧ (inst s).v.views.get 1 ≠ 0 ∧ SourceOk (inst s) (.port 2) ∧ (7 : Fin 8) ≠ 0 ∧ s.seq.trapen = 0
    ∧ ∃ rows m, (popRows s.mach.cur (some (2, false)) none (viewD ((inst s).v.views.get 1)).vr).go (begun s .V ⟨1, 2⟩) = (.ok (rows, []), m) := by
  refine ⟨starts_of ?_, ?_, ?_, ?_, ?_, rows_of ?_⟩
  all_goals first | decide +kernel | (unfold SourceOk; decide +kernel)

/-- A row that ends with the partition. -/
theorem wit_PortRow :
    let s := VB [] 0xFFD4
    let p := (inst s).v.ports.get 2
    let d := portD p.desc
    let row : Int := 0xFFD4
    d.cbm = false ∧ d.geo = 0 ∧ d.formatOk = true ∧ 2 ≤ halfBytes d.fmt ∧ (inst s).pad.regions = [] ∧ row = d.base + d.off p.j ∧ 0 ≤ row
    ∧ (md s fun i => { i with v := { i.v with ports := vset i.v.ports 2 { p with j := 2 } } }).mach.cur = 0
    ∧ ((0xFFD4 : Int) + d.off 2).toNat + d.rlen * (halfBytes d.fmt / 2) = (inst s).id.part
    ∧ row.toNat + d.rlen * (halfBytes d.fmt / 2) ≤ (inst s).id.part := by decide +kernel

/-- A store whose last element ends with the partition. -/
theorem wit_VectorStore :
    let s := VB []
    let i := inst s
    let v := viewD (i.v.views.get 1)
    let p := i.v.ports.get 4
    let pd := portD p.desc
    let pos := (chosen i 0 v.vr v.vc).filter fun e => e.2 < pd.rlen
    let addr := fun (e : Nat × Nat) => (pd.base : Int) + pd.off ((p.j + e.1) % pd.rows) + (e.2 * Fmt.fp16.size : Nat)
    Starts s .V ⟨1, 2⟩ ∧ i.v.views.get 1 ≠ 0 ∧ p.isSet = true ∧ pd.write = true ∧ pd.cbm = false ∧ pd.geo = 0 ∧ fmtOfCode pd.fmt = some .fp16
    ∧ i.pad.regions = [] ∧ (∀ e ∈ pos, 0 ≤ addr e ∧ addr e + Fmt.fp16.size ≤ i.id.part) ∧ pos.length = 4 ∧ s.seq.trapen = 0 := by
  refine ⟨starts_of ?_, ?_, ?_, ?_, ?_, ?_, ?_, ?_, ?_, ?_, ?_⟩ <;> decide +kernel

/-! ## Witnesses: the words of M and X -/

/-- A state for the words of M and X: a token in each queue, a record at 0x100, 32 bytes of the scratchpad, and its
identity and engines changed. -/
def MR (l : List Byte) (f : Inst → Inst := id) : State := md (D [1]) fun i => f { i with
  toks := Vector.replicate 16 3
  id := { i.id with bsFoot := 0x10000, accsets := 5 }
  pad := { i.pad with bytes := cellsWrite i.pad.bytes 0x100 (l ++ List.replicate (32 - l.length) 0) } }

/-- A signed field of 4 bytes. -/
def i4 (n : Int) : List Byte := bytesOf 4 (n % 2 ^ 32).toNat

/-- The record of MR lies in the partition and outside every region. -/
theorem record_of {s : State} {rec : BitVec 17} (h : rec.toNat * 32 + 32 ≤ (inst s).id.part) (r : (inst s).pad.regionAt (rec.toNat * 32) = none) :
    RecordReads s rec := ⟨h, resident_of_none r⟩

theorem kept_of {ε α σ : Type} [DecidableEq σ] {r : Except ε α × σ} {m : σ}
    (h : (match r with | (.ok _, n) => decide (n = m) | _ => false) = true) : ∃ a, r = (.ok a, m) := by
  obtain ⟨r, n⟩ := r
  cases r with
  | ok a => exact ⟨a, by simpa using h⟩
  | error _ => cases h

/-- The largest and smallest fields of each record that are accepted, and a count beyond 16 bits. -/
theorem wit_NestRecords :
    let u := fun (l : List Byte) => ufield (recordOf (MR l) 8)
    let n := fun (l : List Byte) => sfield (recordOf (MR l) 8)
    let zero := fun (l : List Byte) (a b : Nat) => ∀ k, a ≤ k → k < b → (recordOf (MR l) 8).getD k 0 = 0
    let ctrl := fun (l : List Byte) => BitVec.ofNat 32 (u l 12 4)
    let nest := bytesOf 2 0xFFFF ++ bytesOf 2 0 ++ i4 (-5) ++ i4 (-64) ++ i4 0
    let bad := bytesOf 2 0xFFFF ++ bytesOf 2 1
    let a0 := bytesOf 8 0x3FFFFF ++ i4 77 ++ i4 0
    let a1 := bytesOf 8 15 ++ i4 77 ++ i4 1
    let a2 := bytesOf 8 0xFF00000000000000 ++ i4 77 ++ i4 2
    let ag := bytesOf 8 64 ++ i4 77 ++ i4 4 ++ bytesOf 8 0x3FFFFF
    let b := i4 0x1FFFE0 ++ i4 2 ++ i4 0x1FFFC0
    let m := i4 768 ++ i4 256 ++ i4 4194304 ++ i4 0 ++ bytesOf 8 (2 ^ 63 + 0x3FFFE0)
    let map := i4 0x3FFFF8 ++ i4 (-8) ++ i4 8
    let aOk := fun (l : List Byte) =>
      let space := ((ctrl l).extractLsb' 0 2).toNat
      let geo := ((ctrl l).extractLsb' 2 2).toNat
      (space = 0 → u l 0 8 < 2 ^ 22) ∧ (space = 1 → u l 0 8 < 16) ∧ (space = 2 → Canonical (BitVec.ofNat 64 (u l 0 8)))
      ∧ ctrl l < 16 ∧ space ≠ 3 ∧ geo ≠ 3 ∧ (geo ≠ 0 → space = 0) ∧ (geo = 0 → u l 16 8 = 0) ∧ (geo ≠ 0 → u l 16 8 < 2 ^ 22) ∧ zero l 24 32
    Starts (MR nest) .M ⟨1, 2⟩ ∧ (inst (MR nest)).m.pending = none ∧ RecordReads (MR nest) 8
    ∧ (u nest 2 2 = 0 ∧ n nest 8 % 32 = 0 ∧ n nest 12 % 64 = 0 ∧ n nest 12 = 0 ∧ zero nest 16 32)
    ∧ u bad 2 2 ≠ 0 ∧ (∃ v, rejectRecord (.mnest ⟨1, 2⟩ 3 8) 0 v) ∧ aOk a0 ∧ aOk a1 ∧ aOk a2 ∧ aOk ag
    ∧ (u b 0 4 < 2 ^ 21 ∧ u b 0 4 % 32 = 0 ∧ u b 4 4 < 3 ∧ u b 8 4 < 2 ^ 21 ∧ u b 8 4 % 64 = 0 ∧ (u b 4 4 = 0 → u b 8 4 = 0) ∧ zero b 12 32)
    ∧ (u (i4 192) 0 4 ∈ [0, 64, 128, 192] ∧ zero (i4 192) 4 32)
    ∧ (1 ≤ u m 0 4 ∧ u m 0 4 ≤ 768 ∧ 1 ≤ u m 4 4 ∧ u m 4 4 ≤ 256 ∧ 1 ≤ u m 8 4 ∧ u m 8 4 ≤ 4194304 ∧ zero m 12 16
      ∧ BitVec.ofNat 64 (u m 16 8) % 32 = 0 ∧ (BitVec.ofNat 64 (u m 16 8)).extractLsb' 22 41 = 0 ∧ zero m 24 32)
    ∧ (u map 0 4 < 2 ^ 22 ∧ u map 0 4 % 8 = 0 ∧ ∀ k < 7, n map (4 + 4 * k) % 8 = 0) := by
  refine ⟨starts_of ?_, ?_, record_of ?_ ?_, ?_, ?_, ⟨_, _, _, rfl, rfl⟩, ?_, ?_, ?_, ?_, ?_, ?_, ?_, ?_⟩
  all_goals first | decide +kernel | (unfold Canonical; decide +kernel)

/-- A commit of one job. -/
def kc : Commit :=
  { cfg := { a := { addr := 0x200, pitch := 128 }, mask := { rows := 3, cols := 2, depth := 70, statusAddr := 0, sen := false } }
    n := 1, mgo := 0, push := none }

theorem wit_NestSettings :
    let active := MR [] fun i => { i with m := { i.m with pending := some kc, active := some kc } }
    Starts (MR []) .M ⟨1, 2⟩ ∧ (inst (MR [])).m.pending = none ∧ (inst (MR [])).id.accsets.getLsbD (2 : Fin 3).val = true
    ∧ (inst (MR [])).m.active = none ∧ (inst (MR [])).id.accsets.getLsbD (1 : Fin 3).val = false
    ∧ Starts active .M ⟨1, 2⟩ ∧ (inst active).m.pending ≠ none := by
  refine ⟨starts_of ?_, ?_, ?_, ?_, ?_, starts_of ?_, ?_⟩ <;> decide +kernel

theorem resident_of_filled {p : Pad} {l : Nat} {r : Region} (h : p.regionAt l = some r) (c : r.cached = false) (f : r.blockAt l ∈ p.filled) :
    Resident p l := by
  intro q hq
  rw [h] at hq
  cases hq
  rw [c]
  exact f

/-- A record of rows in a block whose fill, for M, met a page that is not resident. -/
def hole : State := MR (bytesOf 8 0x1C0 ++ i4 0 ++ i4 64 ++ i4 64 ++ i4 5 ++ i4 0 ++ i4 0) fun i => { i with
  pad := { i.pad with regions := [reg0], filled := [0x100], outcomes := [(0x1C0 + engCode .M, .nonresident 0x40C0)] } }

theorem hole_absent (k : Nat) (a : 0x1C0 ≤ k) (b : k < 0x1C0 + 64) : Absent (inst hole).pad .M k := by
  have all : ∀ k : Fin 64, (inst hole).pad.regionAt (0x1C0 + k.val) = some reg0 ∧ reg0.blockAt (0x1C0 + k.val) = 0x1C0 := by
    decide +kernel
  obtain ⟨n, rfl⟩ : ∃ n : Fin 64, k = 0x1C0 + n.val := ⟨⟨k - 0x1C0, by omega⟩, by simp; omega⟩
  refine ⟨reg0, (all n).1, ?_⟩
  rw [(all n).2]
  exact ⟨by decide +kernel, 0x40C0, by decide +kernel⟩

/-- Two rows of 64 bytes for groups 0 and 3 that end with the partition, into the end of the B footprint; a source beyond
4 MiB, rows beyond the footprint, a commit that reads them, and a row whose fill met a page that is not resident. -/
theorem wit_BLoad :
    let rec' := fun (src : Nat) (rows off : Int) => bytesOf 8 src ++ i4 rows ++ i4 64 ++ i4 64 ++ i4 5 ++ i4 off ++ i4 0
    let s := MR (rec' 0xFF71 1 (0x10000 - 128))
    let i := inst s
    let l := recordOf s 8
    let rows := ufield l 8 4 + 1
    let addr := fun (g r : Nat) => (ufield l 0 8 : Int) + g * sfield l 20 + r * sfield l 16
    let named := fun (g : Nat) => g < 4 ∧ (9 : BitVec 4).getLsbD g = true
    let far := MR (rec' 0x400000 0 0)
    let past := MR (rec' 0xFF71 1 (0x10000 - 64))
    let readB := MR (rec' 0xFF71 1 0) fun i => { i with m := { i.m with active := some kc } }
    let free := MR (rec' 0xFF71 1 (0x10000 - 128)) fun i => { i with m := { i.m with active := some kc } }
    Starts s .M ⟨1, 2⟩ ∧ RecordReads s 8 ∧ i.pad.regions = [] ∧ i.m.active = none ∧ i.m.pending = none ∧ ufield l 0 8 < 2 ^ 22 ∧ rows ≤ 2 ^ 16
    ∧ rows = 2 ∧ ufield l 12 4 ∈ [32, 64, 128] ∧ ufield l 24 4 < 2 ^ 21 ∧ ufield l 24 4 % 32 = 0 ∧ ufield l 28 4 = 0
    ∧ ufield l 24 4 + rows * ufield l 12 4 ≤ min i.id.bsFoot (2 ^ 21)
    ∧ (∀ g < 4, ∀ r < 2, named g → 0 ≤ addr g r ∧ addr g r + ufield l 12 4 ≤ i.id.part)
    ∧ (∃ x, alookup s.mach.ctxs i.id.ctx.val = some x ∧ x.lines = []) ∧ rows < 0xFFFF
    ∧ Starts far .M ⟨1, 2⟩ ∧ RecordReads far 8 ∧ ¬ufield (recordOf far 8) 0 8 < 2 ^ 22 ∧ (∃ v, rejectRecord (.mldb ⟨1, 2⟩ 9 8) 0 v)
    ∧ Starts past .M ⟨1, 2⟩ ∧ RecordReads past 8 ∧ (inst past).id.bsFoot < ufield (recordOf past 8) 24 4 + 2 * 64
    ∧ Starts readB .M ⟨1, 2⟩ ∧ (inst readB).m.active = some kc ∧ kc.active 0 = true ∧ kc.readsB 0 128 = true
    ∧ Starts free .M ⟨1, 2⟩ ∧ (inst free).m.active = some kc ∧ (inst free).m.pending = none ∧ kc.readsB (0x10000 - 128) 128 = false
    ∧ Starts hole .M ⟨1, 2⟩ ∧ RecordReads hole 8 ∧ ufield (recordOf hole 8) 0 8 = 0x1C0
    ∧ (∀ k, 0x1C0 ≤ k → k < 0x1C0 + 64 → Absent (inst hole).pad .M k) := by
  refine ⟨starts_of ?_, record_of ?_ ?_, ?_, ?_, ?_, ?_, ?_, ?_, ?_, ?_, ?_, ?_, ?_, ?_, ex_some ?_, ?_, starts_of ?_, record_of ?_ ?_, ?_,
    ⟨_, _, _, rfl, rfl⟩, starts_of ?_, record_of ?_ ?_, ?_, starts_of ?_, ?_, ?_, ?_, starts_of ?_, ?_, ?_, ?_,
    starts_of ?_, ⟨?_, resident_of_filled (r := reg0) ?_ rfl ?_⟩, ?_, hole_absent⟩
  all_goals decide +kernel

/-- A shadow of one job that ends with its set, with no commit, one and two. -/
theorem wit_CommitWords :
    let s := MR [] fun i => { i with m := { i.m with shadow := { kc.cfg with crow0 := 192 } } }
    let busy := MR [] fun i => { i with m := { i.m with shadow := kc.cfg, active := some kc } }
    let full := MR [] fun i => { i with m := { i.m with shadow := kc.cfg, active := some kc, pending := some kc } }
    let k : Commit := { cfg := { kc.cfg with crow0 := 192 }, n := 1, mgo := (inst s).m.st.pc, push := peerOf .M 2, scaleOff := (inst s).s.scaleOff }
    Starts s .M { (⟨1, 2⟩ : Sync) with push := 0 } ∧ (inst s).m.pending = none ∧ (inst s).m.active = none ∧ k.cfg.mask.rows ≠ 0
    ∧ k.firstBadB (inst s).id.bsFoot = none ∧ firstBadRow (inst s).id.accsets k.cfg.mblocks k.outer.reverse (256 * k.cfg.set.val + k.cfg.crow0 : Nat) = none
    ∧ Starts busy .M { (⟨1, 2⟩ : Sync) with push := 0 } ∧ (inst busy).m.pending = none ∧ (inst busy).m.active ≠ none
    ∧ Starts full .M { (⟨1, 2⟩ : Sync) with push := 0 } ∧ (inst full).m.pending ≠ none := by
  refine ⟨starts_of ?_, ?_, ?_, ?_, ?_, ?_, starts_of ?_, ?_, ?_, starts_of ?_, ?_⟩ <;> decide +kernel

/-- The record of a drain whose elements a page of global memory takes. -/
def drained : State := MR (bytesOf 8 0x4FF8 ++ i4 16 ++ i4 3 ++ i4 (255 + 256) ++ i4 (254 + 512)) fun i => { i with
  regs := [⟨.a, some { dpage with asid := (W.mach.ctx 0).asid.toNat }, none, 0⟩] }

/-- The last row and the last two columns of set 2, to the last eight bytes of the partition, the same with old elements
added, and to the last eight bytes of a page; an undeclared set, and a commit with a job row in the set. -/
theorem wit_Drain :
    let legal := fun (s : State) =>
      let l := recordOf s 8
      let ctrl := BitVec.ofNat 32 (ufield l 12 4)
      let rsel := ufield l 16 4
      let csel := ufield l 20 4
      (inst s).id.accsets.getLsbD (2 : Fin 3).val = true
      ∧ ctrl < 2 ^ 9 ∧ (ctrl.extractLsb' 4 3).toNat ≤ 4 ∧ fmtOfCode (ctrl.extractLsb' 1 3).toNat = some .fp32
      ∧ ufield l 8 4 % Fmt.fp32.size = 0 ∧ rsel < 2 ^ 17 ∧ 1 ≤ rsel / 256 ∧ rsel % 256 + rsel / 256 ≤ 256 ∧ csel < 2 ^ 17 ∧ 1 ≤ csel / 256
      ∧ csel % 256 + csel / 256 ≤ 256 ∧ (∀ k, 24 ≤ k → k < 32 → l.getD k 0 = 0)
      ∧ (ctrl.getLsbD 0 = false → ufield l 0 8 < 2 ^ 22) ∧ (ctrl.getLsbD 0 = true → Canonical (BitVec.ofNat 64 (ufield l 0 8)))
    let at' := fun (ctl : Int) => MR (bytesOf 8 0xFFF8 ++ i4 16 ++ i4 ctl ++ i4 (255 + 256) ++ i4 (254 + 512))
    let ok := fun (ctl : Int) =>
      let i := inst (at' ctl)
      let l := recordOf (at' ctl) 8
      legal (at' ctl) ∧ i.pad.regions = [] ∧ i.m.active = none ∧ i.m.pending = none ∧ (BitVec.ofNat 32 (ufield l 12 4)).getLsbD 0 = false
      ∧ ∀ r < 1, ∀ c < 2, ufield l 0 8 + r * ufield l 8 4 + c * Fmt.fp32.size + Fmt.fp32.size ≤ i.id.part
    let kept := (begun drained .M ⟨1, 2⟩).modInst drained.mach.cur fun j => { j with m := { j.m with record := some (recordOf drained 8) } }
    let word := Instr.mdrn ⟨1, 2⟩ 2 8
    Starts (MR []) .M ⟨1, 2⟩ ∧ RecordReads (MR []) 8 ∧ ok 2 ∧ ok (2 + 16 * 4 + 128 + 256)
    ∧ (inst (MR [])).id.accsets.getLsbD (1 : Fin 3).val = false
    ∧ (let k : Commit := { kc with cfg := { kc.cfg with set := 2 } }
       Starts (MR [] fun i => { i with m := { i.m with active := some k } }) .M ⟨1, 2⟩ ∧ k.rowIn (2 : Fin 3).val = true)
    ∧ Starts drained .M ⟨1, 2⟩ ∧ RecordReads drained 8 ∧ legal drained
    ∧ (BitVec.ofNat 32 (ufield (recordOf drained 8) 12 4)).getLsbD 0 = true
    ∧ (∃ d, (drainRecord word (recordOf drained 8)).go kept = (.ok d, kept))
    ∧ ∃ d m, (do
        let d ← drainRecord word (recordOf drained 8)
        [(0, 0), (0, 1)].forM fun p => drainGlobal drained.mach.cur d ((0x4FF8 + p.1 * 16 + p.2 * 4) % 2 ^ 64) 0
        return d : Run DrainRec).go kept = (.ok d, m) ∧ m.cur = m.cur := by
  refine ⟨starts_of ?_, record_of ?_ ?_, ?_, ?_, ?_, ⟨starts_of ?_, ?_⟩, starts_of ?_, record_of ?_ ?_, ?_, ?_, kept_of ?_, ex_ok ?_⟩
  all_goals first | decide +kernel | (unfold Canonical; decide +kernel)

/-- The last K-step, of 6 elements, of a job whose last element ends with the partition. -/
theorem wit_KStep :
    let k : Commit := { kc with cfg := { kc.cfg with
      a := { kc.cfg.a with addr := 0x10000 - 6 - 64 - 256 }, lv := vset kc.cfg.lv 0 { count := 2, astep := 64, bstep := 0, cstep := 0 } } }
    let s := MR [] fun i => { i with m := { i.m with active := some k, sas := vset i.m.sas 0 { job := some 0, k := 1 } } }
    let i := s.mach.inst 0
    let g := k.cfg
    let b := 0 % g.mblocks
    let ix := (k.tuple 0).2
    let kks := (List.range 64).filter fun kk => 64 * 1 + kk < g.mask.depth
    let start := fun (r kk : Nat) => 2 * ((g.a.addr : Int) + dotSteps ix (k.outer.map (·.astep)) + (64 * b + r : Nat) * (g.a.pitch : Int)
      + (1 : Nat) * k.inner.astep) + (kk * halfBytes g.fa : Nat)
    let size := max 1 (halfBytes g.fa / 2)
    (s.mach.core 0).resident = true ∧ i.m.active = some k ∧ i.m.mayStep k 0 = some (0, 1) ∧ g.a.space = 0 ∧ g.a.geo = 0 ∧ g.b.geo = 0 ∧ g.mapA = none
    ∧ g.mapB = none ∧ i.pad.regions = [] ∧ 2 ≤ g.fa ∧ g.fa ≤ 6 ∧ s.pwr.modthr = 0 ∧ s.pwr.dieThr.get (dieOf 0) = 0
    ∧ (s.mach.ctx i.id.ctx.val).thr = 0 ∧ kks.length = 6 ∧ (∀ r < 3, ∀ kk ∈ kks, 0 ≤ start r kk ∧ start r kk / 2 + size ≤ i.id.part)
    ∧ start 2 5 / 2 + size = i.id.part ∧ 0 + 1 < k.inner.count := by decide +kernel

/-- A commit that ends with one pending and without, with a status record at the end of the partition and without; an idle
time that has ended and one that has not; a walk of a new key, with another to begin and without, and none. -/
theorem wit_NestSteps :
    let ks : Commit := { kc with cfg := { kc.cfg with mask := { kc.cfg.mask with statusAddr := 0xFFE0, sen := true } } }
    let ended := fun k p => MR [] fun i => { i with m := { i.m with active := some k, pending := p, counters := Vector.replicate 4 1 } }
    let key := fun b => ({ W with mach := W.mach.modCtx 255 fun x => { x with newKey := some 7, rekeyNext := b } } : State)
    let ok := fun (k : Commit) (s : State) => let i := s.mach.inst 0
      (s.mach.core 0).resident = true ∧ i.m.active = some k ∧ i.m.fault = none ∧ i.m.allEnded k = true
      ∧ i.m.slots = [] ∧ i.m.pushes = [] ∧ k.push = none ∧ (k.cfg.mask.sen = true → k.cfg.mask.statusAddr + 32 ≤ i.id.part ∧ i.pad.regions = [])
    let late := MR [] fun i => { i with m := { i.m with sas := vset i.m.sas 5 { wake := 9, idle := true } } }
    ok kc (ended kc none) ∧ ok ks (ended ks (some kc)) ∧ ((ended kc none).mach.inst 0).m.pending = none
    ∧ ((ended ks (some kc)).mach.inst 0).m.pending = some kc
    ∧ ((key false).mach.ctx 255).newKey = some 7 ∧ ((key false).mach.ctx 255).rekeyNext = false ∧ ((key true).mach.ctx 255).rekeyNext = true
    ∧ (W.mach.ctx 255).newKey = none ∧ (((MR []).mach.inst 0).m.sas.get 5).wake ≤ (MR []).mach.cycle
    ∧ ¬((late.mach.inst 0).m.sas.get 5).wake ≤ late.mach.cycle := by decide +kernel

/-- A copy record (Table 8.5): source, destination, spaces, and bytes of a row. -/
def copyRec (src dst ssp dsp srb : Nat) : List Byte :=
  bytesOf 8 src ++ bytesOf 8 dst ++ bytesOf 4 1 ++ bytesOf 4 (ssp + dsp * 8) ++ bytesOf 8 (srb / 16 - 1)

/-- A gather record. -/
def gatherRec (table idxa loc lsp ntab n rb : Nat) : List Byte :=
  bytesOf 8 table ++ bytesOf 8 idxa ++ bytesOf 4 (loc + lsp * 2 ^ 22) ++ bytesOf 4 ntab ++ bytesOf 4 (n - 1) ++ bytesOf 4 (rb / 16 - 1)

/-- Transfers on channel 3 of the core whose turn it is. -/
def issuing (l : List Byte) (n : Nat) (slot : SlotState) : State := MR l fun i => { i with x := { i.x with
  xfers := (List.range n).map fun k => { ch := 3, id := k + 1, kind := .copy, body := [], recAddr := 0, pc := 0x40 }
  cbs := vset i.x.cbs 6 { ready := true, base := 0x400, slot := 64, n := 1, slots := [slot] } } }

/-- The four kinds of transfer, one below and at the channel's four; a buffer's slot that is free and one that is not. -/
theorem wit_IssueWords :
    let cp := issuing (copyRec 0x200 0x300 1 1 64) 3 .free
    let fl := issuing (copyRec 7 6 0 3 64) 3 .free
    let ga := issuing (gatherRec 0x4000 0x4000 0x300 1 5 3 32) 4 .free
    let no := issuing (copyRec 7 6 0 3 64) 3 .filled
    let y : Sync := ⟨1, 2⟩
    Starts cp .X { y with push := 0 } ∧ Starts fl .X { y with push := 0 } ∧ Starts ga .X { y with push := 0 } ∧ Starts no .X { y with push := 0 }
    ∧ RecordReads cp 8 ∧ RecordReads fl 8 ∧ RecordReads ga 8 ∧ RecordReads no 8
    ∧ (∃ d, (checkCopy cp.mach.cur (recordVal (.xcpy y 3 8) .X) false true (recordOf cp 8) 0x100).go (begun cp .X y) = (.ok d, begun cp .X y))
    ∧ (∃ d, (checkCopy fl.mach.cur (recordVal (.xfill y 3 8) .X) true true (recordOf fl 8) 0x100).go (begun fl .X y) = (.ok d, begun fl .X y))
    ∧ (∃ d, (checkGather ga.mach.cur (recordVal (.xgth y 3 8) .X) false (recordOf ga 8) 0x100).go (begun ga .X y) = (.ok d, begun ga .X y))
    ∧ (∃ d, (checkGather ga.mach.cur (recordVal (.xsct y 3 8) .X) true (recordOf ga 8) 0x100).go (begun ga .X y) = (.ok d, begun ga .X y))
    ∧ ((inst cp).x.tissue.get 3).toNat + 1 < 2 ^ 48 ∧ ((inst cp).x.xfers.filter (·.ch == 3)).length < 4
    ∧ 4 ≤ ((inst ga).x.xfers.filter (·.ch == 3)).length ∧ ((inst fl).x.cbs.get 6).slotAt ((inst fl).x.cbs.get 6).ph = .free
    ∧ ((inst no).x.cbs.get 6).slotAt ((inst no).x.cbs.get 6).ph ≠ .free := by
  refine ⟨starts_of ?_, starts_of ?_, starts_of ?_, starts_of ?_, record_of ?_ ?_, record_of ?_ ?_, record_of ?_ ?_, record_of ?_ ?_,
    kept_of ?_, kept_of ?_, kept_of ?_, kept_of ?_, ?_, ?_, ?_, ?_, ?_⟩ <;> decide +kernel

/-- A record, ids on channel 3, and a buffer of one slot. -/
def slotted (l : List Byte) (slot : SlotState) : State := MR l fun i => { i with x := { i.x with
  tissue := vset i.x.tissue 3 7, tdone := vset i.x.tdone 3 5
  cbs := vset i.x.cbs 6 { ready := true, base := 0x400, slot := 64, n := 1, slots := [slot] } } }

/-- Ids on both sides of TDONE and TISSUE, buffers with a slot in use and without, the last slot of the partition, and the
end of a schedule. -/
theorem wit_TransferWords :
    let u := fun (l : List Byte) => ufield (recordOf (slotted l .free) 8)
    let zero := fun (l : List Byte) (a : Nat) => ∀ k, a ≤ k → k < 32 → (recordOf (slotted l .free) 8).getD k 0 = 0
    let inUse := fun (k : SlotState) => ∃ t, t ∈ ((inst (slotted [] k)).x.cbs.get 6).slots ∧ (t = SlotState.filling ∨ t = SlotState.held)
    let cfg := i4 0xFFC0 ++ i4 64 ++ i4 1
    Starts (slotted [] .free) .X ⟨1, 2⟩ ∧ RecordReads (slotted [] .free) 8 ∧ (inst (slotted [] .free)).x.wid = none
    ∧ ((inst (slotted [] .free)).x.tdone.get 3).toNat = 5 ∧ ((inst (slotted [] .free)).x.tissue.get 3).toNat = 7
    ∧ ((inst (slotted [] .free)).x.tissue.get 4).toNat ≤ ((inst (slotted [] .free)).x.tdone.get 4).toNat
    ∧ (u (bytesOf 8 5) 0 8 ≤ 7 ∧ zero (bytesOf 8 5) 8 ∧ u (bytesOf 8 5) 0 8 ≤ 5) ∧ (u (bytesOf 8 6) 0 8 ≤ 7 ∧ 5 < u (bytesOf 8 6) 0 8)
    ∧ 7 < u (bytesOf 8 8) 0 8 ∧ (∃ v, rejectRecord (.xwidRec ⟨1, 2⟩ 3 8) 0 v)
    ∧ (u cfg 0 4 < 2 ^ 22 ∧ u cfg 0 4 % 64 = 0 ∧ 64 ≤ u cfg 4 4 ∧ u cfg 4 4 ≤ 2 ^ 20 ∧ u cfg 4 4 % 64 = 0 ∧ 1 ≤ u cfg 8 4 ∧ u cfg 8 4 ≤ 256 ∧ zero cfg 12)
    ∧ u cfg 0 4 + u cfg 8 4 * u cfg 4 4 ≤ (inst (slotted [] .free)).id.part ∧ ¬inUse .filled ∧ inUse .filling ∧ inUse .held
    ∧ (inst (slotted [] .free)).x.stagings = [] ∧ (inst (slotted [] .free)).x.pushes = [] ∧ (inst (slotted [] .free)).id.schedLen ≤ (inst (slotted [] .free)).x.pos := by
  refine ⟨starts_of ?_, record_of ?_ ?_, ?_, ?_, ?_, ?_, ?_, ?_, ?_, ⟨_, _, _, rfl, rfl⟩, ?_, ?_, ?_, ?_, ?_, ?_, ?_, ?_⟩
  all_goals first | decide +kernel | (beta_reduce; decide +kernel)

/-- Transfers of each kind on core 0, and another behind. -/
def moving (kind : XKind) (pos : Nat) (f : Transfer → Transfer := id) : State × Transfer × Transfer :=
  let t := f { ch := 3, id := 5, kind, recAddr := 0xFFC0, pc := 0x40, pos, body := match kind with
    | .gather | .scatter => gatherRec 0x4000 0x4000 0x300 1 5 1 32
    | _ => copyRec 0xFFC0 0xFFC0 (if kind = .fill then 0 else 1) 1 64 }
  let o : Transfer := { ch := 3, id := 6, kind := .copy, body := [], recAddr := 0, pc := 0x40 }
  (MR [] fun i => { i with x := { i.x with xfers := [t, o] } }, t, o)

/-- A copy and a fill that end with the partition, before their first byte and before their last; and a granule of each
kind that reads and writes the scratchpad, and of a gather and a scatter in progress at their engine. -/
theorem wit_Granules :
    let ok := fun kind pos =>
      let (s, t, o) := moving kind pos
      let i := s.mach.inst 0
      let d := copyD (t.kind == .fill) t.body
      (s.mach.core 0).resident = true ∧ i.x.xfers = [] ++ t :: [o] ∧ (∀ u ∈ [] ++ [o], ¬(u.ch = t.ch ∧ u.id = t.id)) ∧ t.state = .running
      ∧ (t.kind = .copy ∨ t.kind = .fill) ∧ (d.fill = false → converts t.sfmt t.dfmt = false) ∧ (d.fill = false → d.ssp = 1 ∨ d.ssp = 2)
      ∧ (d.dsp = 1 ∨ d.dsp = 2 ∨ d.dsp = 3) ∧ i.pad.regions = [] ∧ (t.nres = false → t.nraddr = 0) ∧ t.pos < d.rows * d.srb
      ∧ d.rows = 1 ∧ d.srb = 64 ∧ (d.src + d.srb ≤ i.id.part ∨ d.fill = true) ∧ d.dst + d.srb = i.id.part
    let runs := fun kind =>
      let (s, t, _) := moving kind 0
      s.mach.xferMoves 0 t = true ∧ ∃ (u : Transfer × Option Stop) (m : Mach), (granuleRun 0 t).go s.mach = (.ok u, m) ∧ u.2 = none
    ok .copy 0 ∧ ok .fill 0 ∧ ok .copy 63 ∧ runs .copy ∧ runs .fill ∧ runs .gather ∧ runs .scatter := by
  repeat' refine And.intro ?_ ?_
  all_goals first | decide +kernel | exact ex_ok (by decide +kernel)

/-- A copy and a gather after their last byte, without a completion record and with one that ends with the partition; a
push into a queue with room, into a full one, and to a stream that has ended. -/
theorem wit_TransferEnds :
    let ok := fun (x : State × Transfer × Transfer) =>
      let (s, t, o) := x
      let i := s.mach.inst 0
      (s.mach.core 0).resident = true ∧ i.x.xfers = [] ++ t :: [o] ∧ (∀ u ∈ [] ++ [o], ¬(u.ch = t.ch ∧ u.id = t.id)) ∧ t.state = .running
      ∧ t.total i ≤ t.pos ∧ (t.crec = true → i.pad.regions = []) ∧ i.x.pushes = [] ∧ i.x.stagings = []
    let rec' := fun (t : Transfer) => { t with body := t.body.set 22 4 }
    let pushes := fun (t : Transfer) => { t with push := some .V }
    ok (moving .copy 64) ∧ ok (moving .fill 64) ∧ ok (moving .gather 32 fun t => { t with body := gatherRec 0x4000 0x4000 0x300 1 5 1 32 })
    ∧ ok (moving .copy 64 rec') ∧ (moving .copy 64 rec').2.1.crec = true ∧ ok (moving .copy 64 pushes) ∧ (moving .copy 64 pushes).2.1.push = some .V
    ∧ (((moving .copy 64).1.mach.inst 0).stream .V).ended = false ∧ ((moving .copy 64).1.mach.inst 0).tokens .X .V < 15 := by
  repeat' refine And.intro ?_ ?_
  all_goals decide +kernel

/-- A command with a field out of range, and one that runs, with one place left for its result. -/
theorem wit_GatherCommand :
    let word := fun (l : List Byte) (k : Nat) => BitVec.ofNat 64 (leNat ((l.drop (8 * k)).take 8))
    let cmd := fun (l : List Byte) => [0x401, word l 0, word l 1, word l 2, word l 3]
    let s := fun (l : List Byte) => md (D [1]) fun i => { i with fifo := { i.fifo with queue1 := [cmd l, [1]], res1 := List.replicate 31 7 } }
    let bad := gatherRec 0x4000 0x4000 0x300 1 0 3 32
    let good := gatherRec 0x4000 0x4000 0x300 1 5 3 32
    (s bad).mach.gatherRuns 0 none ((s bad).mach.inst 0).fifo.ended1 = true ∧ (s good).mach.gatherRuns 0 none ((s good).mach.inst 0).fifo.ended1 = true
    ∧ ((s bad).mach.core 0).resident = true ∧ ((s bad).mach.inst 0).fifo.queue1 = cmd bad :: [[1]] ∧ ((s bad).mach.inst 0).fifo.res1.length < 32
    ∧ (gatherD (bodyBytes [word bad 0, word bad 1, word bad 2, word bad 3])).ntab = 0
    ∧ ((s good).mach.inst 0).fifo.queue1 = cmd good :: [[1]]
    ∧ ∃ w m, (runF1 0 ((0x401 : W64).toNat % 256 == 2) (((0x401 : W64) >>> 16).toNat % 2 ^ 32)
        (bodyBytes [word good 0, word good 1, word good 2, word good 3])).go (s good).mach = (.ok w, m) ∧ m.cur = m.cur := by
  refine ⟨?_, ?_, ?_, ?_, ?_, ?_, ?_, ?_⟩
  all_goals first | decide +kernel | exact ex_ok (by decide +kernel)

/-! ## Witnesses: waits, pre-emption, launches, contexts and power -/

/-- W with a wait of a stream, begun at cycle 5, 64 cycles ago, with n tokens in each queue. -/
def waits (e : Eng) (k : WaitKind) (w : Instr) (n : Fin 16 := 1) (f : Inst → Inst := id) : State :=
  let s := withI fun i => f ({ i with toks := Vector.replicate 16 n }.modStream e fun st => { st with wait := some ⟨k, 5, w⟩ })
  { s with mach := { s.mach with cycle := 69 } }

/-- Each wait with what ends it: the last token, the first place, an entry, an idle engine and a block's fill. -/
theorem wit_Wakes :
    let pushing := waits .V (.push .S) (.vnop ⟨0, 1⟩) 14 fun i => i.modStream .V fun st => { st with pushing := some .S }
    let orphan := waits .V (.token .S) (.vnop ⟨1, 0⟩) 0 fun i => i.modStream .S fun st => { st with ended := true }
    let full := waits .S .sqFull (.sqput 2) 1 fun i => { i with s := { i.s with sq := List.replicate 31 0 } }
    let entry := waits .V .sqEmpty (.vxs ⟨0, 0⟩ 3) 1 fun i => { i with s := { i.s with sq := [5] } }
    let f2 := waits .S (.fifoEmpty 2) (.fpop 4 2) 1 fun i => { i with fifo := { i.fifo with f2 := [7] } }
    let room := waits .V (.fifoFull 2) (.vxs ⟨0, 0⟩ 3) 1 fun i => { i with fifo := { i.fifo with f2 := List.replicate 63 7 } }
    let idle := waits .S .eidle (.eidle 1) 1 fun i => i.modStream .V fun st => { st with ended := true }
    let s := waits .S (.token .V) (.waitk 0)
    (s.mach.core 0).resident = true ∧ Unlogged s 0 ∧ ((s.mach.inst 0).stream .S).wait = some ⟨.token .V, 5, .waitk 0⟩
    ∧ 0 < (s.mach.inst 0).tokens .V .S ∧ s.mach.cycle = 5 + 64 * (0 + 1) ∧ ((waits .S (.token .V) (.waitk 0) 0).mach.inst 0).tokens .V .S = 0
    ∧ (((waits .S (.token .V) (.waitk 0) 0).mach.inst 0).stream .V).ended = false
    ∧ ((waits .V (.token .S) (.vnop ⟨1, 0⟩)).mach.inst 0).tokens .S .V = 1 ∧ (orphan.mach.inst 0).tokens .S .V = 0
    ∧ ((orphan.mach.inst 0).stream .S).ended = true ∧ ((waits .S (.push .V) (.sig 0) 14).mach.inst 0).tokens .S .V < 15
    ∧ ((pushing.mach.inst 0).stream .V).pushing = some .S ∧ ((pushing.mach.inst 0).stream .S).ended = false ∧ (pushing.mach.inst 0).tokens .V .S < 15
    ∧ (full.mach.inst 0).v.st.ended = false ∧ (full.mach.inst 0).s.sq.length < 32 ∧ (entry.mach.inst 0).s.sq ≠ []
    ∧ (f2.mach.inst 0).fifo.f2 = 7 :: [] ∧ (room.mach.inst 0).fifo.f2.length < 64
    ∧ (∀ q : Fin 3, (1 : BitVec 3).getLsbD q.val = true → ((idle.mach.inst 0).stream (peerEngine q)).ended = true)
    ∧ (idle.mach.inst 0).m.active = none ∧ (idle.mach.inst 0).m.pending = none ∧ (idle.mach.inst 0).x.xfers = [] := by
  refine ⟨?_, ?_, ?_, ?_, ?_, ?_, ?_, ?_, ?_, ?_, ?_, ?_, ?_, ?_, ?_, ?_, ?_, ?_, ?_, ?_, ?_, ?_, ?_⟩
  all_goals first | decide +kernel | (unfold Unlogged; decide +kernel)

/-- V waits for the fill of the last block of a region of the page. -/
theorem wit_Wakes_fill :
    let s := md (DR [] reg0 id) fun i => i.modStream .V fun st => { st with wait := some ⟨.fill 0x1C0, 5, .vxs ⟨0, 0⟩ 3⟩ }
    (s.mach.core 0).resident = true ∧ s.mach.fillWaiters 0 0x1C0 = [(.V, ⟨.fill 0x1C0, 5, .vxs ⟨0, 0⟩ 3⟩)]
    ∧ ∃ r m, (fillBlock 0 0x1C0).go s.mach = (.ok r, m) ∧ r = none ∧ (m.ctx (m.ctxOf 0)).wl.on = false := by
  refine ⟨?_, ?_, ?_⟩
  all_goals first | decide +kernel | exact ex_ok (by decide +kernel)

/-- What a fault record holds. -/
def trapInfo (e : Eng) (k : Cause) : TrapInfo := { cause := k, eng := e, hflag := false, pc := 76, val := 88, restart := 5, cycle := 6 }

/-- Context 0 in a state, with a command's argument, its instance resident or saved with a fault, and launches. -/
def context (st : CtxState) (arg : W64) (resident : Bool) (faulted : Option TrapInfo) (l : List Launch) : State :=
  let m := (W.mach.modCtx 0 fun x => { x with st, asid := 9 }).setFn 0 { W.mach.fn 0 with ctxBusy := true, ctxArg := arg, winSize := 0xFFFFFFFF }
  let m := m.modInst 0 fun i => { i with id := { i.id with launch := 3, uid := uidOf 3 0 0 } }
  let g : Image := { inst := { m.inst 0 with faulted }, core := 3, place := none, spilled := false, seq := 6 }
  let m := { m with launches := l, images := if resident then [] else [g] }
  { W with mach := m.setCore 0 { m.core 0 with resident } }

theorem wit_Preemption :
    let s := context .running 0 true none [lau 3]
    let susp : State := { s with mach := s.mach.setFn 63 { s.mach.fn 63 with suspendOf := some 0 } }
    (s.mach.core 0).resident = true ∧ Unlogged s 0 ∧ (s.mach.core 0).preempt = false ∧ (susp.mach.core 0).resident = true
    ∧ (susp.mach.fn 63).suspendOf = some (susp.mach.inst 0).id.ctx ∧ (∀ d, d ≠ 0 → (susp.mach.core d).resident = true → susp.mach.ctxOf d ≠ 0)
    ∧ ((context .running 0 false none []).mach.image (uidOf 3 0 0)).isSome = true := by
  refine ⟨?_, ?_, ?_, ?_, ?_, ?_, ?_⟩
  all_goals first | decide +kernel | (unfold Unlogged; decide +kernel)

/-- A start, the last instance of a draining launch, a launch that retires, with and without a word to count up, and a
launch whose dependences are met exactly. -/
theorem wit_LaunchEnds :
    let start := let s := context .running 0 true none [lau 3]; ({ s with mach := s.mach.setCore 0 { s.mach.core 0 with starting := true } } : State)
    let l : Launch := { lau 3 with st := .draining, counts := [1, 0, 0] }
    let last := let s := context .running 0 true none [l]
      md s fun i => [Eng.S, .V, .M, .X].foldl (fun i e => i.modStream e fun st => { st with ended := true }) i
    let i := last.mach.inst 0
    let all : Launch := { lau 3 with st := .draining, counts := [2, 0, 0], lr := { lrec with compl := 0x70000000 } }
    let wait : Launch := { lau 3 with st := .waiting, lr := { lrec with dep0a := 0x70000000, dep0v := 5 } }
    let dep := let s := context .running 0 true none [wait]; ({ s with mach := s.mach.storeWord (s.mach.fnKey 0 0x70000000) 5 } : State)
    (start.mach.core 0).resident = true ∧ (start.mach.core 0).starting = true ∧ (start.mach.core 0).moved = false
    ∧ start.mach.overlaps 0 (start.mach.core 0).place (start.mach.inst 0).id.part = [] ∧ (start.mach.ctx 0).landing = []
    ∧ (last.mach.core 0).resident = true ∧ (i.s.st.ended = true ∧ i.v.st.ended = true ∧ i.m.st.ended = true ∧ i.x.st.ended = true)
    ∧ i.x.xfers = [] ∧ i.fifo.queue0 = [] ∧ i.fifo.cmds = [] ∧ i.fifo.queue1 = [] ∧ i.pad.copies = [] ∧ last.mach.launch i.id.launch = some l
    ∧ (l.team? i.id.run i.id.team).isSome = true ∧ i.id.run < l.counts.length ∧ i.id.run < l.sigs.length
    ∧ (context .running 0 true none [all]).mach.launch 3 = some all ∧ all.st = .draining ∧ (∀ r < all.runs, all.counts.getD r 0 = all.lr.instn)
    ∧ all.lr.dual = false ∧ all.lr.compl ≠ 0 ∧ all.lr.compl % 8 = 0
    ∧ (context .running 0 true none [all]).mach.inWindow 0 ((context .running 0 true none [all]).mach.fn 0).winSpace all.lr.compl 8 = true
    ∧ dep.mach.launch 3 = some wait ∧ wait.st = .waiting
    ∧ ∀ p ∈ [(wait.lr.dep0a, wait.lr.dep0v), (wait.lr.dep1a, wait.lr.dep1v)],
        p.1 = 0 ∨ (dep.mach.word (dep.mach.fnKey 0 p.1) < 2 ^ 63 ∧ p.2 ≤ dep.mach.word (dep.mach.fnKey 0 p.1)) := by
  repeat' refine And.intro ?_ ?_
  all_goals decide +kernel

/-- The module in each state of its power, temperatures and powers on both sides of their thresholds. -/
theorem wit_PowerAndPorts :
    let boot : BootInput := { keyDigestOk := true, signatureOk := true, minVersion := 3, version := 3, insvc := 0, coefs := [], meas := [], pkg := 0 }
    State.reset.pwr.st = .booting ∧ State.reset.pwr.st ≠ .off ∧ ({ State.reset.pwr with st := .off } : Power).st = .off
    ∧ boot.keyDigestOk = true ∧ boot.signatureOk = true ∧ boot.minVersion ≤ boot.version
    ∧ ({ boot with version := 2 } : BootInput).version < ({ boot with version := 2 } : BootInput).minVersion ∧ W.pwr.st = .active ∧ 109 < 110 ∧ 110 ≤ 110
    ∧ 120 * W.pwr.limit.toNat < 100 * 2881 ∧ 50 < 51 ∧ ({ W.pwr with st := .halted } : Power).st = .halted
    ∧ (List.replicate 4 95).length = 4 ∧ (List.replicate 192 95).length = 192 ∧ (∀ t ∈ List.replicate 4 95 ++ List.replicate 192 95, t ≤ 95)
    ∧ 2400 ≤ W.pwr.limit.toNat ∧ 10 ≤ 10 ∧ 768 * 2 ^ 30 - 4 + (List.replicate 4 (0 : Byte)).length ≤ 768 * 2 ^ 30
    ∧ ({ W.mach with jtagPriv := true } : Mach).jtagPriv = true := by
  repeat' refine And.intro ?_ ?_
  all_goals decide +kernel

/-- A context descriptor in memory. -/
def described (spsize : Nat) : State :=
  let s := context .free 0x70000040 true none []
  { s with
    mach := s.mach.store (s.mach.fnKey 0 0x70000040) (bytesOf 8 0x5000 ++ bytesOf 8 0x200000 ++ bytesOf 4 spsize ++ bytesOf 4 64 ++ bytesOf 8 0x10000 ++ bytesOf 2 3 ++ bytesOf 30 0) }

/-- Each command in a state that takes it, with each answer. -/
theorem wit_ContextCommands :
    let asid := fun (st : AsidState) => let s := context .built 0xFFFF true none []; ({ s.mach with asids := aset s.mach.asids 0xFFFF st } : Mach)
    let l := fun (s : State) => s.mach.bytes (s.mach.fnKey 0 0x70000040) 64
    let off := context .swapped 0 false none []
    let small : State := { off with mach := off.mach.modCtx 0 fun x => { x with spsize := 70 } }
    Commands (described 7) 0 0 ∧ ((described 7).mach.ctx 0).st = .free ∧ 0x70000040 % 64 = 0 ∧ (described 7).mach.inWindow 0 ((described 7).mach.fn 0).winSpace 0x70000040 64 = true
    ∧ ((described 7).mach.fn 0).winSpace = false ∧ descriptorOk (described 7).mach 0 (ctxDie 0) (l (described 7)) = true
    ∧ descriptorOk (described 0).mach 0 (ctxDie 0) (l (described 0)) = false
    ∧ (context .built 0xFFFF true none []).mach.asidState 0xFFFF = .unused ∧ (asid .bound).asidState 0xFFFF = .bound ∧ (asid .stale).asidState 0xFFFF = .stale
    ∧ Commands (context .built 0 false none []) 0 0 ∧ ((context .built 0 true none []).mach.ctx 0).st = .built
    ∧ (let s := context .built 0 false none []; ({ s.mach with images := [] } : Mach).residentOf 0 = [] ∧ ({ s.mach with images := [] } : Mach).imagesOf 0 = [])
    ∧ (context .running 0 true none []).mach.residentOf 0 ≠ [] ∧ (context .ready 0 false none []).mach.residentOf 0 = []
    ∧ off.mach.ctxLaunches 0 = [] ∧ (context .spilled 0 false none [lau 3]).mach.ctxLaunches 0 ≠ [] ∧ (context .spilled 0 false none [lau 3]).mach.residentOf 0 = []
    ∧ off.mach.spiltKib 0 + off.mach.savedKib 0 > (off.mach.ctx 0).spsize * 1024
    ∧ small.mach.spiltKib 0 + small.mach.savedKib 0 ≤ (small.mach.ctx 0).spsize * 1024 := by
  repeat' refine And.intro ?_ ?_
  all_goals first | decide +kernel | (unfold Commands; decide +kernel)

/-- A context whose one instance has faulted, contexts at the end of their lives, and ASIDs held and not. -/
theorem wit_ContextEnds :
    let s := fun (k : Cause) (arg : W64) => context .waiting arg false (some (trapInfo .S k)) [lau 3]
    let found := fun (s : State) (k : Cause) => ∃ p, s.mach.faultedImage 0 6 = some p ∧ p.2 = trapInfo .S k
      ∧ s.mach.image p.1.inst.id.uid = some p.1 ∧ s.mach.launch p.1.inst.id.launch = some (lau 3)
    let down := context .tearingDown 0 false none []
    let asids := fun (st : AsidState) (other : CtxState) => ({ down.mach with asids := [(9, st)] } : Mach).setCtx 255 { st := other, asid := 9 }
    Commands (s .svc 6) 0 0 ∧ ((s .svc 6).mach.ctx 0).st = .waiting ∧ found (s .svc (6 + 2 ^ 48)) .svc ∧ ((6 + 2 ^ 48 : W64)).toNat.testBit 48 = true
    ∧ (6 + 2 ^ 48 : W64).toNat < 2 ^ 49 ∧ (6 + 2 ^ 48 : W64).toNat % 2 ^ 48 = 6 ∧ found (s .illegal 6) .illegal ∧ (6 : W64).toNat.testBit 48 = false
    ∧ (lau 3).st.live = true ∧ ((context .swapped 0x123456 false none []).mach.ctx 0).st = .swapped
    ∧ ((context .built 0 true none []).mach.ctx 0).st = .built ∧ (context .built 0 true none []).mach.ctxLaunches 0 = []
    ∧ (context .running 0 true none [lau 3]).mach.ctxLaunches 0 = [lau 3] ∧ (context .running 0 true none [lau 3]).mach.launch 3 = some (lau 3)
    ∧ ((context .dead 0 false none []).mach.ctx 0).st = .dead ∧ ((context .migrating 0 false none []).mach.ctx 0).st = .migrating
    ∧ (down.mach.ctx 0).st = .tearingDown ∧ (asids .bound .built).asidState 9 = .bound
    ∧ (∀ e ∈ (asids .bound .built).ctxs, ¬(e.1 ≠ 0 ∧ e.2.asid = 9 ∧ e.2.st ≠ .free ∧ e.2.st ≠ .built ∧ e.2.st ≠ .dead))
    ∧ (∃ e ∈ (asids .bound .running).ctxs, e.1 ≠ 0 ∧ e.2.asid = 9 ∧ e.2.st ≠ .free ∧ e.2.st ≠ .built ∧ e.2.st ≠ .dead)
    ∧ (asids .stale .built).asidState 9 ≠ .bound := by
  repeat' refine And.intro ?_ ?_
  all_goals first | decide +kernel | (unfold Commands; decide +kernel) | exact ex_some (by decide +kernel)

theorem wit_PeriodicSteps :
    let row : Fairness := { gang := 1, current := 5, buckets := List.replicate 64 16384, blocked := true }
    let m := W.mach.setDie 3 { W.mach.die 3 with fair := List.replicate 512 row }
    (m.die 3).fair[511]? = some row := by decide +kernel

theorem fall_of {r : Except Stop Flow × Mach} (h : (match r with | (.ok .fall, _) => true | _ => false) = true) : ∃ m, r = (.ok .fall, m) := by
  obtain ⟨a, m⟩ := r
  cases a with
  | error _ => cases h
  | ok f => cases f with
    | fall => exact ⟨m, rfl⟩
    | _ => cases h

theorem held_of {r : Except Stop Flow × Mach} {k : WaitKind} (h : (match r with | (.error (.wait o), _) => decide (o ≠ k) | _ => false) = true) :
    ∃ o m, r = (.error (.wait o), m) ∧ o ≠ k := by
  obtain ⟨a, m⟩ := r
  cases a with
  | ok _ => cases h
  | error e => cases e with
    | wait o => exact ⟨o, m, rfl, of_decide_eq_true h⟩
    | _ => cases h

/-- A spinning wait whose test holds, and one that an arriving page holds up; a push behind its engine's earlier push; a
block that is filled, and one whose page is not resident. -/
theorem wit_Wakes_again :
    let s := waits .S (.token .V) (.waitk 0)
    let w := D [0x4038, 0, 1]
    let w : State := { w with mach := { w.mach with cycle := 69, moves := [{ ctx := 0, page := { dpage with asid := (W.mach.ctx 0).asid.toNat }, pull := false }] } }
    let w := md w fun i => i.modStream .S fun st => { st with wait := some ⟨.word 0x4038, 5, .waitw 6 1 2 .eq .die⟩ }
    let push := waits .M (.push .S) (.mnop ⟨0, 1⟩) 1 fun i => { i.modStream .M (fun st => { st with pushing := some .S }) with m := { i.m with
      st := { i.m.st with pushing := some .S }, pushes := [.S] } }
    let filled := md (DR [] reg0 fun p => { p with filled := [0x1C0] }) fun i => i.modStream .V fun st => { st with wait := some ⟨.fill 0x1C0, 5, .vxs ⟨0, 0⟩ 3⟩ }
    let away := md (D [] { dpage with p := false }) fun i => { i with
      regs := [⟨.map, some { dpage with asid := (W.mach.ctx 0).asid.toNat, p := false }, none, 0⟩], pad := { i.pad with regions := [reg0] } }.modStream .V
        fun st => { st with wait := some ⟨.fill 0x1C0, 5, .vxs ⟨0, 0⟩ 3⟩ }
    (∃ again, retest 0 (.waitk 0) = some again ∧ ∃ m, again.go s.mach = (.ok .fall, m)) ∧ (WaitKind.token .V).spins = true
    ∧ s.mach.cycle = 5 + 64 * (0 + 1)
    ∧ (∃ again, retest 0 (.waitw 6 1 2 .eq .die) = some again ∧ ∃ o m, again.go w.mach = (.error (.wait o), m) ∧ o ≠ .word 0x4038)
    ∧ (WaitKind.word 0x4038).spins = true ∧ ((w.mach.inst 0).stream .S).wait = some ⟨.word 0x4038, 5, .waitw 6 1 2 .eq .die⟩ ∧ w.mach.cycle = 69
    ∧ (push.mach.inst 0).behind .M .S = true ∧ ((push.mach.inst 0).stream .M).pushing = some .S
    ∧ 0x1C0 ∈ (filled.mach.inst 0).pad.filled ∧ filled.mach.fillWaiters 0 0x1C0 = [(.V, ⟨.fill 0x1C0, 5, .vxs ⟨0, 0⟩ 3⟩)]
    ∧ away.mach.fillWaiters 0 0x1C0 = [(.V, ⟨.fill 0x1C0, 5, .vxs ⟨0, 0⟩ 3⟩)] ∧ 0x1C0 ∉ (away.mach.inst 0).pad.filled
    ∧ ∃ r m, (fillBlock 0 0x1C0).go away.mach = (.ok r, m) ∧ r ≠ none ∧ (m.ctx (m.ctxOf 0)).wl.on = false := by
  refine ⟨⟨_, rfl, fall_of ?_⟩, ?_, ?_, ⟨_, rfl, held_of ?_⟩, ?_, ?_, ?_, ?_, ?_, ?_, ?_, ?_, ?_, ex_ok ?_⟩
  all_goals decide +kernel

/-- A core whose release is under way, and a member whose restoration is not over, whose record names a save region. -/
theorem wit_Preemption_cores :
    let s := context .running 0 true none [lau 3]
    let k := s.mach.core 0
    let gone : State := { s with mach := s.mach.setCore 0 { k with preempt := true } }
    let starts : State := { s with mach := s.mach.setCore 0 { k with starting := true } }
    (gone.mach.core 0).resident = true ∧ (gone.mach.core 0).preempt = true ∧ (starts.mach.core 0).resident = true
    ∧ (starts.mach.core 0).starting = true ∧ (s.mach.core 1).resident = false := by decide +kernel

/-- A dual launch whose runs are all counted, with signatures. -/
def dual (sigs : List W64) (runs : Nat) (lr : LRec := { lrec with dual := true }) : State :=
  context .running 0 true none [{ lau 3 with st := .draining, counts := [2, 2, 2], runs, sigs, lr }]

/-- A team of two cores: this one restored, fresh or neither, with the other there and not; a launch of two runs that agree,
of two that do not with room for a third and without, and of three, and of a launch whose dependence failed or is open. -/
theorem wit_LaunchEnds_more :
    let two := fun (mate : Core → Core) (own : Core → Core) (f : Inst → Inst) =>
      let l : Launch := { lau 3 with teams := [{ num := 0, run := 0, die := 0, st := .resident, cores := [0, 1] }] }
      let s := context .running 0 true none [l]
      let m := (s.mach.modInst 0 fun i => f i).setCore 1 (mate { s.mach.core 0 with inst := { s.mach.inst 0 with id := { (s.mach.inst 0).id with num := 1, uid := uidOf 3 0 1 } } })
      ({ s with mach := m.setCore 0 (own { m.core 0 with starting := true }) } : State)
    let ready := two id (fun k => { k with restored := true }) id
    let held := two (fun k => { k with starting := true }) id id
    let fresh := two (fun k => { k with starting := true, restored := true }) id fun i => { i with fresh := true }
    let there := fun (s : State) => (s.mach.core 1).restored = true ∨ (s.mach.core 1).starting = false
    let ok := fun (s : State) =>
      (s.mach.core 0).resident = true ∧ (s.mach.core 0).starting = true ∧ s.mach.teamMates 0 = [1] ∧ (s.mach.inst 1).id.ctx = (s.mach.inst 0).id.ctx
      ∧ (s.mach.ctx 0).landing = []
      ∧ ((s.mach.core 0).restored = true ∨ ((s.mach.core 0).moved = false ∧ s.mach.overlaps 0 (s.mach.core 0).place (s.mach.inst 0).id.part = []
          ∧ (s.mach.inst 0).partAt = none))
    let is := fun (s : State) (n : Nat) (a b c : W64) => ∃ l, s.mach.launch 3 = some l ∧ l.st = .draining ∧ l.lr.dual = true ∧ l.runs = n
      ∧ (∀ r < n, l.counts.getD r 0 = l.lr.instn) ∧ l.sigs.getD 0 0 = a ∧ l.sigs.getD 1 0 = b ∧ l.sigs.getD 2 0 = c
    let wait : Launch := { lau 3 with st := .waiting, lr := { lrec with dep0a := 0x70000000, dep0v := 5 } }
    let dep := fun (n : Nat) => let s := context .running 0 true none [wait]; ({ s with mach := s.mach.storeWord (s.mach.fnKey 0 0x70000000) n } : State)
    ok ready ∧ there ready ∧ ok held ∧ ¬there held ∧ (held.mach.inst 0).fresh = false ∧ ok fresh ∧ there fresh ∧ (fresh.mach.core 0).restored = false
    ∧ (∃ l, fresh.mach.launch 3 = some l ∧ (l.hdrOn (dieOf 0)).paramLen = 0)
    ∧ (∃ b, fresh.mach.ctxRead 0 lrec.param 0 = some b ∧ b = [])
    ∧ is (dual [5, 5, 0] 2) 2 5 5 0 ∧ is (dual [5, 6, 0] 2) 2 5 6 0 ∧ is (dual [5, 6, 5] 3) 3 5 6 5 ∧ is (dual [5, 6, 6] 3) 3 5 6 6 ∧ is (dual [5, 6, 7] 3) 3 5 6 7
    ∧ (∃ l, (dual [5, 6, 0] 2).mach.launch 3 = some l ∧ l.thirdFits (BitVec.allOnes 48) = true ∧ l.thirdFits 0 = false)
    ∧ (∃ l, (dual [5, 6, 6] 3).mach.launch 3 = some l ∧ ((dual [5, 6, 6] 3).mach.copyWindow { l with st := .verifying }).2 = true
        ∧ ((dual [5, 6, 6] 3).mach.copyWindow { l with st := .verifying }).1.launch l.num = some l)
    ∧ DepFailed (dep (2 ^ 63)).mach wait wait.lr.dep0a ∧ (¬DepFailed (dep 4).mach wait wait.lr.dep0a ∧ ¬DepMet (dep 4).mach wait wait.lr.dep0a wait.lr.dep0v) := by
  repeat' refine And.intro ?_ ?_
  all_goals first
    | decide +kernel | exact ex_some (by decide +kernel) | (unfold DepFailed; decide +kernel) | (unfold DepMet; decide +kernel)
    | (intro h; unfold DepFailed at h; revert h; decide +kernel) | (intro h; unfold DepMet at h; revert h; decide +kernel)

/-- A host write that its die's link carries, and one that waits; and the states of power that the rows name. -/
theorem wit_PowerAndPorts_more :
    let upl : State := { W with mach := { W.mach with ucie := Vector.replicate 10 { st := .up } } }
    (∀ w ∈ upl.mach.hostWrites, upl.mach.iodUsable (dieOfPa w.1) = false) ∧ upl.mach.iodUsable (dieOfPa 0xBFFFFFFFFF) = true
    ∧ W.mach.iodUsable (dieOfPa 0x100) = false ∧ (W.pwr.st = .active ∨ W.pwr.st = .halted) ∧ ¬(State.reset.pwr.st = .active ∨ State.reset.pwr.st = .halted)
    ∧ State.reset.mach.jtagPriv = false := by
  repeat' refine And.intro ?_ ?_
  all_goals decide +kernel

/-- A descriptor that is poisoned, commands with an argument that they do not take, and a SPILL with room in the spill area
for the one image, and with none. -/
theorem wit_ContextCommands_more :
    let p : State := { described 7 with mach := { (described 7).mach with poison := [(described 7).mach.fnKey 0 0x70000040 / 64] } }
    let key := context .bound 0 false none []
    let off := context .swapped 0 false none []
    let one : State := { off with mach := off.mach.modCtx 0 fun x => { x with spsize := 4096, spbase := 0x20000000 } }
    let none' : State := { off with mach := off.mach.modCtx 0 fun x => { x with spsize := 0 } }
    (described 7).mach.fnKey 0 0x70000040 / 64 ∈ p.mach.poison ∧ (described 7).mach.fnKey 0 0x70000040 / 64 ∉ (described 7).mach.poison
    ∧ (context .free 0x70000041 true none []).mach.fn 0 ≠ (context .free 0 true none []).mach.fn 0 ∧ 0x70000041 % 64 ≠ 0
    ∧ (let s : State := { key with mach := { key.mach with images := [] } }
       Commands s 0 0 ∧ (s.mach.ctx 0).st = .bound ∧ s.mach.residentOf 0 = [] ∧ s.mach.imagesOf 0 = [])
    ∧ ((context .ready 5 true none []).mach.fn 0).ctxArg.toNat ≠ 0 ∧ ((context .ready 0 true none []).mach.ctx 0).st = .ready
    ∧ Commands one 0 0 ∧ (one.mach.ctx 0).st = .swapped ∧ (one.mach.spillAll (one.mach.imagesOf 0)).isSome = true
    ∧ (∃ g, (one.mach.imagesOf 0).head? = some g ∧ one.mach.imagesOf 0 = [g] ∧ one.mach.image g.inst.id.uid = some g ∧ g.spilled = false
        ∧ (one.mach.spillRoom 0 g.inst.id.imageKib).isSome = true)
    ∧ Commands none' 0 0 ∧ none'.mach.spillAll (none'.mach.imagesOf 0) = none := by
  repeat' refine And.intro ?_ ?_
  all_goals first | decide +kernel | (unfold Commands; decide +kernel) | exact ex_some (by decide +kernel)

/-- A launch of the context, in a context that is torn down, and one that has migrated. -/
theorem wit_ContextEnds_more :
    let s := context .running 0 true none [lau 3]
    let gone := context .migrating 0 false none [lau 3]
    Commands s 0 0 ∧ s.mach.ctxLaunches 0 = [lau 3] ∧ s.mach.launch (lau 3).num = some (lau 3) ∧ (gone.mach.ctx 0).st = .migrating
    ∧ gone.mach.launch 3 = some (lau 3) ∧ Commands (context .spilled 7 false none []) 0 0 ∧ ((context .spilled 7 false none []).mach.ctx 0).st = .spilled := by
  repeat' refine And.intro ?_ ?_
  all_goals first | decide +kernel | (unfold Commands; decide +kernel)

/-! ## Witnesses: queues, dispatch, barriers' steps, page commands and links -/

/-- Queue 3 of function 1, with its ring and its completion area. -/
def Q0 : Queue := { base := 0x70000000, log2n := 4, cbase := 0x70001000, log2m := 4 }

/-- The module with queue 3 of function 1, whose window is one MiB of host memory. -/
def QW (x : Queue) : State :=
  { W with mach := (W.mach.setFn 1 { W.mach.fn 1 with winBase := 0x7000, winSize := 0x10 }).setQueue 1 3 x }

/-- A queue in each state, with a ring that is and that is not in the window, and each WIDX: as many records as fit, one
more, and fewer than before; and an entry that can and that cannot be written. -/
theorem wit_QueueRegisters :
    let e : Entry := ⟨List.replicate 64 0x5A, none⟩
    let r : Queue := { Q0 with st := .running, ridx := 5, widx := 9, nextRec := 5, armed := true }
    let d := fun (x : Queue) (v : W64) => (v.toNat + 2 ^ 32 - x.ridx % 2 ^ 32) % 2 ^ 32
    let fits := fun (x : Queue) (v : W64) => d x v ≤ 2 ^ x.log2n ∧ x.widx - x.ridx ≤ d x v
    let ring := fun (x : Queue) => (QW x).mach.ringOk 1 x
    let h : Queue := { Q0 with st := .stalled, held := [e, e], ctail := 19, chead := 4, armed := true }
    (QW Q0).mach.queue 1 (3 : QId).val = Q0 ∧ Q0.st = .unconfigured ∧ ring Q0 = true ∧ ring { Q0 with base := 64 } = false
    ∧ ({ r with st := .quiesced } : Queue).st = .quiesced ∧ ring { r with st := .quiesced } = true ∧ ring { r with st := .quiesced, cbase := 64 } = false
    ∧ r.st = .running ∧ ring r = true ∧ ({ r with st := .quiescing } : Queue).st ≠ .quiesced ∧ ring { r with base := 64 } = false
    ∧ 2 ^ 32 ≤ (0x100000000 : W64).toNat ∧ (21 : W64).toNat < 2 ^ 32 ∧ fits r 21 ∧ ¬fits r 22 ∧ fits r 9 ∧ ¬fits r 8
    ∧ h.held = e :: [e] ∧ (QW h).mach.canWrite 1 h = true ∧ (QW h).mach.canWrite 1 { h with ctail := 20 } = false
    ∧ (QW h).mach.canWrite 1 { h with armed := false } = false ∧ e.ctx = none := by
  repeat' refine And.intro ?_ ?_
  all_goals decide +kernel

/-- A record of 64 bytes. -/
def recordOf (typ flags addr val n4 n : Nat) : List Byte :=
  bytesOf 1 typ ++ bytesOf 1 flags ++ bytesOf 2 0 ++ bytesOf 4 0xABC ++ bytesOf 8 addr ++ bytesOf 8 val ++ bytesOf 4 n4 ++ bytesOf 4 n ++ bytesOf 32 0

/-- The queue with a next record, and the word that the record names. -/
def QR (x : Queue) (l : List Byte) (w : Nat) : State :=
  let s := QW x
  let m := s.mach.store (s.mach.fnKey 1 (x.base + 64 * (x.nextRec % 2 ^ x.log2n))) l
  { s with mach := m.storeWord (m.fnKey 1 0x70002000) w }

/-- A running queue whose next record is the second of the ring's second round. -/
def Q17 : Queue := { Q0 with st := .running, nextRec := 17, ridx := 17, widx := 20 }

theorem bytes_of {s : State} {l : List Byte} (h : (s.mach.queue 1 3).st = .running ∧ s.mach.entryWaits 1 (s.mach.queue 1 3) = false
    ∧ (s.mach.queue 1 3).waitFrom = none ∧ (s.mach.queue 1 3).ridx ≤ (s.mach.queue 1 3).nextRec ∧ (s.mach.queue 1 3).nextRec < (s.mach.queue 1 3).widx
    ∧ s.mach.inWindow 1 (s.mach.fn 1).winSpace ((s.mach.queue 1 3).base + 64 * ((s.mach.queue 1 3).nextRec % 2 ^ (s.mach.queue 1 3).log2n)) 64 = true
    ∧ l = s.mach.bytes (s.mach.fnKey 1 ((s.mach.queue 1 3).base + 64 * ((s.mach.queue 1 3).nextRec % 2 ^ (s.mach.queue 1 3).log2n))) 64) : NextBytes s 1 3 l :=
  ⟨h.1, h.2.1, h.2.2.1, .inr h.2.2.2⟩

theorem copy_of {s : State} {l : List Byte} (h : (s.mach.queue 1 3).st = .running ∧ s.mach.entryWaits 1 (s.mach.queue 1 3) = false
    ∧ (s.mach.queue 1 3).waitFrom = none ∧ (s.mach.queue 1 3).nextRec < (s.mach.queue 1 3).ridx
    ∧ alookup (s.mach.queue 1 3).copies (s.mach.queue 1 3).nextRec = some l) : NextBytes s 1 3 l :=
  ⟨h.1, h.2.1, h.2.2.1, .inl h.2.2.2⟩

theorem taken_of {s : State} {typ : Nat} {l : List Byte} (b : NextBytes s 1 3 l)
    (h : recNat l 0 1 = typ ∧ s.mach.recordFault 1 l = none ∧ s.mach.launchOpen 1 3 = false) : NextRecord s 1 3 typ l :=
  ⟨b, h.1, h.2.1, fun _ => h.2.2⟩

theorem holds_geu {l : List Byte} {v : W64} (h : recNat l 0x18 4 = 2) : RecordHolds l v ↔ BitVec.ofNat 64 (recNat l 0x10 8) ≤ v := by
  simp [RecordHolds, h]

theorem ex_accepted {α : Type} {x : Except Nat α} {p : α → Bool} (h : x.toOption.any p = true) : ∃ a, x = .ok a ∧ p a = true := by
  cases x with
  | error _ => cases h
  | ok a => exact ⟨a, rfl, h⟩

/-- A record of each type, with the word that ends its wait, that does not, and that ends its loop; the waits of a stalled
queue, whose word is and is not in the window; a backward LOOP as far as the copies go and one record farther; a record
taken before; and a record of each type that the checks reject. -/
theorem wit_QueueRecords :
    let wait := recordOf 2 2 0x70002000 7 2 1
    let loop := fun (back : Nat) => recordOf 5 2 0x70002000 0 back 0
    let copies := (List.range 17).map fun k => (k, recordOf 2 0 0x70002000 0 0 0)
    let C : Queue := { Q17 with copies }
    let stalled := { QR { Q17 with st := .stalled, ridx := 18, waitFrom := some 3, copies := [(17, wait)] } wait 6 with
      mach.cycle := 1503 }
    let x := stalled.mach.queue 1 3
    let there := fun (s : State) (l : List Byte) => s.mach.inWindow 1 (s.mach.fn 1).winSpace (recNat l 8 8) 8
    let out : State := { stalled with mach := stalled.mach.setFn 1 { stalled.mach.fn 1 with winBase := 0x8000 } }
    let before := QR { Q17 with ridx := 18, copies := [(17, wait)] } wait 7
    let bad := fun (typ : Nat) => recordOf typ 2 0x70002001 7 2 1
    NextRecord (QR Q17 wait 7) 1 3 2 wait ∧ RecordHolds wait (recordWord (QR Q17 wait 7) 1 wait)
    ∧ NextRecord (QR Q17 wait 6) 1 3 2 wait ∧ ¬RecordHolds wait (recordWord (QR Q17 wait 6) 1 wait)
    ∧ NextRecord before 1 3 2 wait
    ∧ alookup x.copies x.nextRec = some wait ∧ x.waitFrom = some 3
    ∧ ¬RecordHolds wait (recordWord stalled 1 wait) ∧ recNat wait 0x1C 4 ≠ 0 ∧ 3 + 1500 * recNat wait 0x1C 4 ≤ stalled.mach.cycle
    ∧ there stalled wait = true ∧ there out wait = false
    ∧ NextRecord (QR Q17 (recordOf 3 2 0x70002000 7 1 0) 9) 1 3 3 (recordOf 3 2 0x70002000 7 1 0)
    ∧ NextRecord (QR Q17 (recordOf 4 2 0x70002000 7 3 65535) 9) 1 3 4 (recordOf 4 2 0x70002000 7 3 65535)
    ∧ NextRecord (QR C (loop 17) 9) 1 3 5 (loop 17) ∧ recordWord (QR C (loop 17) 9) 1 (loop 17) ≠ 0
    ∧ recordWord (QR C (loop 17) 0) 1 (loop 17) = 0
    ∧ (recNat (loop 17) 0x18 4 ≤ 17 ∧ 17 - recNat (loop 17) 0x18 4 ∈ copies.map (·.1))
    ∧ NextRecord (QR C (loop 18) 9) 1 3 5 (loop 18) ∧ 17 < recNat (loop 18) 0x18 4 ∧ recordWord (QR C (loop 18) 9) 1 (loop 18) ≠ 0
    ∧ NextRecord (QR Q17 (loop 17) 9) 1 3 5 (loop 17) ∧ (17 - recNat (loop 17) 0x18 4 ∉ Q17.copies.map (·.1) ∧ 17 - recNat (loop 17) 0x18 4 < takenTo Q17)
    ∧ NextRecord (QR Q17 (recordOf 6 2 0x70002000 3 0x20001 5) 9) 1 3 6 (recordOf 6 2 0x70002000 3 0x20001 5)
    ∧ (NextBytes (QR Q17 (bad 2) 0) 1 3 (bad 2) ∧ (QR Q17 (bad 2) 0).mach.recordFault 1 (bad 2) ≠ none)
    ∧ (NextBytes (QR Q17 (bad 3) 0) 1 3 (bad 3) ∧ (QR Q17 (bad 3) 0).mach.recordFault 1 (bad 3) ≠ none)
    ∧ (NextBytes (QR Q17 (bad 4) 0) 1 3 (bad 4) ∧ (QR Q17 (bad 4) 0).mach.recordFault 1 (bad 4) ≠ none)
    ∧ (NextBytes (QR Q17 (bad 5) 0) 1 3 (bad 5) ∧ (QR Q17 (bad 5) 0).mach.recordFault 1 (bad 5) ≠ none)
    ∧ (NextBytes (QR Q17 (bad 6) 0) 1 3 (bad 6) ∧ (QR Q17 (bad 6) 0).mach.recordFault 1 (bad 6) ≠ none)
    ∧ (NextBytes (QR Q17 (bad 9) 0) 1 3 (bad 9) ∧ (QR Q17 (bad 9) 0).mach.recordFault 1 (bad 9) ≠ none) := by
  repeat' refine And.intro ?_ ?_
  all_goals first
    | decide +kernel | exact taken_of (bytes_of (by decide +kernel)) (by decide +kernel) | exact bytes_of (by decide +kernel)
    | exact taken_of (copy_of (by decide +kernel)) (by decide +kernel) | (rw [holds_geu (by decide +kernel)]; decide +kernel)

/-- An image of one word for each engine at 0x2000 of context 0, and a queue of function 1 whose next record launches it on
die 0 with a launch record of n instances, one a team. -/
def submitted (st : CtxState) (n : Nat) : State :=
  let l := recordOf 1 2 0x70004000 1 0 0
  let s := QR Q17 l 0
  let sec := fun (o : Nat) => bytesOf 4 o ++ bytesOf 4 1
  let hdr := bytesOf 4 0x4B534842 ++ bytesOf 2 1 ++ bytesOf 2 0 ++ sec 0x80 ++ sec 0xC0 ++ sec 0x100 ++ sec 0x140 ++ bytesOf 16 0 ++ bytesOf 4 0x180 ++ bytesOf 36 0
  let lr := bytesOf 8 0x2000 ++ bytesOf 8 0x2080 ++ bytesOf 8 0x20C0 ++ bytesOf 8 0x2100 ++ bytesOf 8 0x2140 ++ bytesOf 8 0x2000 ++ bytesOf 8 0x2000 ++ bytesOf 8 0x2000
    ++ bytesOf 8 0 ++ bytesOf 4 (n - 1) ++ bytesOf 4 0x05000000 ++ bytesOf 4 0x10001 ++ bytesOf 4 0x10000 ++ bytesOf 168 0
  let m := (s.mach.store 0x20002000 hdr).store (s.mach.fnKey 1 0x70004000) lr
  { s with pwr := { s.pwr with insvc := 0xFFFFFFFFFFFF }, mach := m.modCtx 0 fun x => { x with st, key := some 0x5A } }

/-- A launch that die 0 accepts and one whose context is not built. -/
theorem wit_LaunchRecord :
    let l := recordOf 1 2 0x70004000 1 0 0
    let s := submitted .running 3
    let bytes := s.mach.bytes (s.mach.fnKey 1 (recNat l 8 8)) 256
    let f := submitted .free 3
    NextRecord s 1 3 1 l ∧ (∀ k ∈ s.mach.launches, k.num ≠ s.mach.nextLaunch) ∧ (List.range 4).filter (fun d => (recNat l 0x10 8).testBit d) = [0]
    ∧ (∃ p, s.mach.checkDie s.pwr.insvc 1 0 bytes = .ok p ∧ (p.1.secLen == [1, 1, 1, 1] && p.2 == []) = true) ∧ (launchRec bytes).instn = 3 ∧ (launchRec bytes).dep0a = 0 ∧ (launchRec bytes).dep1a = 0
    ∧ NextRecord f 1 3 1 l ∧ f.mach.checkDie f.pwr.insvc 1 0 bytes = .error 10 := by
  refine ⟨taken_of (bytes_of ?_) ?_, ?_, ?_, ex_accepted ?_, ?_, ?_, ?_, taken_of (bytes_of ?_) ?_, ?_⟩
  all_goals decide +kernel

/-- Every core in service, and launch 5 with teams on dies 0 and 1. -/
def shared (lr : LRec) (teams : List Team) : State :=
  { W with
    pwr := { W.pwr with insvc := 0xFFFFFFFFFFFF }
    mach := { W.mach with launches := [{ lau 5 with st := .ready, dies := [0, 1], slots := [0, 0, 0, 0], lr, teams }] } }

/-- Die 0 with one resident team that has waited 2^20 cycles, and three teams to run, with four cores in service. -/
def crowded : State :=
  let s := md (shared lrec [{ num := 0, run := 0, die := 0, st := .resident, group := some 0, waiting := some 7 }, { num := 1, run := 0, die := 0 }]) fun i =>
    { i with id := { i.id with launch := 5, team := 0, run := 0 } }
  let m := s.mach.modCtx 0 fun x => { x with st := .running }
  { s with mach := { m.setDie 0 { m.die 0 with waitSwap := 1000 } with cycle := 1007 } }

theorem teams_eq {xs : List TeamOn} {l : Launch} {t : Team} (h : xs.map (fun x => (x.l, x.t)) = [(l, t)]) : xs = [⟨l, t⟩] := by
  obtain ⟨⟨a, b⟩, rfl⟩ : ∃ x, xs = [x] := List.length_eq_one_iff.1 (by rw [← List.length_map (f := fun x => (x.l, x.t)), h]; rfl)
  simp only [List.map_cons, List.map_nil, List.cons.injEq, Prod.mk.injEq, and_true] at h
  rw [h.1, h.2]

/-- A launch of one instance. -/
def t1 : Team := { num := 0, run := 0, die := 0 }
def toPlace : State := shared { lrec with instn := 1 } [t1]
def l1 : Launch := (toPlace.mach.launch 5).getD (lau 1)

/-- A team of one fits; a die that has nothing to run may steal; a team has waited long enough to be swapped. -/
theorem wit_Dispatch :
    toPlace.pwr.st = .active ∧ toPlace.mach.placeable 0 = [⟨l1, t1⟩] ∧ toPlace.mach.launch l1.num = some l1 ∧ l1.team? t1.run t1.num = some t1 ∧ t1.die = 0
    ∧ l1.toRun t1 = [0] ∧ toPlace.mach.fit toPlace.pwr.insvc ⟨l1, t1⟩ = some [1] ∧ toPlace.mach.launchPages ⟨l1, t1⟩ = true
    ∧ toPlace.mach.image (uidOf l1.num t1.run 0) = none ∧ (toPlace.mach.reserveSave ⟨l1, t1⟩ [0] (toPlace.mach.saveRuns 0)).isSome = true
    ∧ W.pwr.st = .active ∧ ({ toPlace with pwr.st := .locked } : State).pwr.st ≠ .active := by
  refine ⟨?_, ?_, ?_, ?_, ?_, ?_, ?_, ?_, ?_, ?_, ?_, ?_⟩
  · decide +kernel
  · exact teams_eq (by decide +kernel)
  all_goals decide +kernel

/-- Launch 5, with both its teams on die 1. -/
def stealable : State := shared lrec [{ num := 0, run := 0, die := 1 }, { num := 1, run := 0, die := 1 }]
def l5 : Launch := (stealable.mach.launch 5).getD (lau 5)

theorem wit_Dispatch_steal :
    let up : State := { stealable with mach.ucie := Vector.replicate 10 { st := .up } }
    stealable.mach.idleDie stealable.pwr.insvc 0 = true ∧ stealable.mach.victims 0 = (l5, 1) :: []
    ∧ (∀ u ∈ l5.unstartedOn 1, u = { num := 1, run := 0, die := 1 } ∨ u.num < 1) ∧ { num := 1, run := 0, die := 1 } ∈ l5.unstartedOn 1
    ∧ up.mach.idleDie up.pwr.insvc 0 = true ∧ up.mach.victims 0 = (l5, 1) :: [] ∧ up.mach.pairUsable 0 1 = true ∧ stealable.mach.pairUsable 0 1 = false
    ∧ toPlace.mach.idleDie toPlace.pwr.insvc 0 = false := by
  refine ⟨?_, ?_, ?_, ?_, ?_, ?_, ?_, ?_, ?_⟩
  all_goals decide +kernel

theorem wit_Dispatch_swap :
    W.mach.nextSwap W.pwr.insvc 0 = none
    ∧ ∃ p, crowded.mach.nextSwap crowded.pwr.insvc 0 = some p ∧ p.1.t.num = 0 ∧ p.2.t.num = 1
        ∧ (crowded.mach.launch p.2.l.num).any (fun k => (k.team? p.2.t.run p.2.t.num).isSome) = true :=
  ⟨by decide +kernel, ex_some (by decide +kernel)⟩

/-- The round of a PKG barrier object at 0x4040 in which the instance of core 0 has arrived. -/
def pkgRound : Round := { theRound with scope := 3, pset := psetOf (inst W).id 0 3 }

/-- That round, with its arrival record. -/
def pkgBarrier (r : Round) : State :=
  let s := barrier 8 false [⟨0x4040, 7, none, 0⟩]
  { s with mach := { s.mach with rounds := [r] } }

/-- The machine whose instance waits at the object of a round that has ended. -/
def barWaits (r : Round) : State :=
  md (pkgBarrier r) fun i => { i with arrivals := [⟨0x4040, 7, none, 0⟩], s := { i.s with st := { i.s.st with wait := some ⟨.barrier 0x4040, 5, .barw 3 1 .die⟩ } } }

/-- A round whose other participants have and have not arrived, one with too few bytes, one of a domain whose object this
module does not hold, before and after its arrival is sent, with dies that reach the IOD and that do not; and one that has
ended, at package and at core scope, with a BARW that waits. -/
theorem wit_BarrierSteps :
    let down := fun (s : State) => ({ s with mach.ucie := Vector.replicate 10 {} } : State)
    let s := fun (r : Round) => (pkgBarrier r).mach.rounds.find? (fun q => q.num == r.num && q.ended.isNone) = some r ∧ (0 : DieId).val ∉ r.forwarded
      ∧ (pkgBarrier r).mach.allArrived r ((pkgBarrier r).mach.participantsOn r.pset 0) = true ∧ (pkgBarrier r).mach.iodUsable 0 = true
      ∧ (down (pkgBarrier r)).mach.iodUsable 0 = false ∧ (down (pkgBarrier r)).mach.rounds = (pkgBarrier r).mach.rounds
      ∧ (down (pkgBarrier r)).mach.allArrived r ((down (pkgBarrier r)).mach.participantsOn r.pset 0) = true
    let full := { pkgRound with expect := 0, arrived := [0, 1] }
    let few := { pkgRound with expect := 8, arrived := [0, 1] }
    let far := { full with scope := 4, obj := 2 ^ 66 + 0x80, pset := psetOf (inst W).id 0 4 }
    let complete := fun (r : Round) => (pkgBarrier r).mach.roundComplete { r with forwarded := r.forwarded ++ [0] }
    let package := fun (r : Round) => (pkgBarrier r).mach.packageComplete { r with forwarded := r.forwarded ++ [0] }
    let ended := { pkgRound with ended := some (0, 4), pending := [0] }
    let low := { ended with scope := 1 }
    let released := fun (r : Round) => ((pkgBarrier r).mach.releaseRound 0 r (0, 4)).releaseImages r (0, 4)
    s full ∧ complete full = true ∧ full.expect ≤ full.bytes ∧ s few ∧ few.bytes < few.expect
    ∧ s far ∧ package far = true ∧ far.scope = 4 ∧ 2 ^ 66 ≤ far.obj ∧ far.upward = false ∧ s { far with upward := true }
    ∧ (pkgBarrier { full with forwarded := [0] }).mach.rounds = [{ full with forwarded := [0] }]
    ∧ (pkgBarrier pkgRound).mach.rounds.find? (fun q => q.num == pkgRound.num && q.ended.isNone) = some pkgRound
    ∧ (pkgBarrier ended).mach.rounds.find? (fun q => q.num == ended.num) = some ended ∧ ended.ended = some (0, 4)
    ∧ ((pkgBarrier ended).mach.core 0).resident = true ∧ ((pkgBarrier ended).mach.inst 0).s.st.wait = none ∧ ended.pending = [(0 : CoreId).val]
    ∧ 3 ≤ ended.scope ∧ (pkgBarrier ended).mach.iodUsable (dieOf 0) = true ∧ (down (pkgBarrier ended)).mach.iodUsable (dieOf 0) = false ∧ low.scope < 3
    ∧ ((barWaits ended).mach.core 0).resident = true ∧ ((barWaits ended).mach.inst 0).s.st.wait = some ⟨.barrier 0x4040, 5, .barw 3 1 .die⟩
    ∧ ∃ again, retest 0 (.barw 3 1 .die) = some again
      ∧ ((match again.go (((barWaits ended).mach.releaseRound 0 ended (0, 4)).releaseImages ended (0, 4)) with | (.ok _, _) => true | _ => false) = true) := by
  repeat' refine And.intro ?_ ?_
  all_goals first | decide +kernel | exact ⟨_, rfl, by decide +kernel⟩

/-- A function's page command with arguments on context 0. -/
def paging (a0 a1 : W64) (st : AsidState) (busy : Bool) : State :=
  let m := W.mach.setFn 0 { W.mach.fn 0 with pgArg0 := a0, pgArg1 := a1, pgBusy := busy, winSize := 0xFFFFFFFF }
  let m := (m.modCtx 0 fun x => { x with asid := 9 }).setDie 0 { m.die 0 with tlb := [{ dpage with asid := 9 }], pgreqs := [{ tag := 5, ctx := 0, page := 0x4000, write := true }] }
  { W with mach := { m with asids := [(9, st)] } }

/-- A move of a COUNT page of 2 MiB and of a pulled one, both of this module. -/
def moved (pull : Bool) : Move :=
  { ctx := 0, pull, page := { dpage with asid := 9, size := 2 ^ 21, tier := 0, frame := 0x40000000, xframe := 0x50000000, mode := 2, entry := hostKey 0x30000100, word0 := 0x37 } }

theorem wit_PageCommandSteps :
    let s := paging 0x4000 0x1000 .bound false
    let tag := paging 5 0 .bound false
    let e := ((tag.mach.die 0).pgreqs.getD 0 { tag := 0, ctx := 0, page := 0, write := false })
    let retire := fun (st : AsidState) => paging 9 0x70000000 st false
    let scrub := paging 9 0 (.retiring (some (hostKey 0x70000000))) false
    let mv := fun (v : Move) => let t := sm W (hostKey 0x30000100) 0x37; ({ t with mach := { t.mach with moves := [v] } } : State)
    let v := moved false
    let w := moved true
    let far := { v with page := { v.page with peer := 9 } }
    PageCommands s 0 0 ∧ (s.mach.fn 0).pgArg0.toNat % 4096 = 0 ∧ (s.mach.fn 0).pgArg1.toNat % 4096 = 0 ∧ Covered { dpage with asid := 9 } 9 0x4000 0x1000
    ∧ PageCommands (paging 0x4001 0 .bound false) 0 0 ∧ ((paging 0x4001 0 .bound false).mach.fn 0).pgArg0.toNat % 4096 ≠ 0
    ∧ ((paging 0 0 .bound true).mach.fn 0).pgBusy = true
    ∧ PageCommands tag 0 0 ∧ (tag.mach.fn 0).pgArg1.toNat = 0 ∧ e ∈ (tag.mach.die 0).pgreqs ∧ e.ctx = 0 ∧ e.tag = (tag.mach.fn 0).pgArg0.toNat
    ∧ (s.mach.fn 0).pgArg1.toNat ≠ 0
    ∧ ((retire .stale).mach.fn 0).pgArg0.toNat < 2 ^ 16 ∧ (retire .stale).mach.wordInWindow 0 ((retire .stale).mach.fn 0).pgArg1.toNat = true
    ∧ (retire .stale).mach.asidState 9 = .stale ∧ (retire .unused).mach.asidState 9 = .unused ∧ (retire .bound).mach.asidState 9 = .bound
    ∧ 2 ^ 16 ≤ ((paging 0x10000 0 .bound false).mach.fn 0).pgArg0.toNat ∧ (paging 9 0x70000001 .stale false).mach.wordInWindow 0 0x70000001 = false
    ∧ scrub.mach.asidState (9 : BitVec 16).toNat = .retiring (some (hostKey 0x70000000))
    ∧ Memory.wf (mv v).mach.mem = true ∧ (mv v).mach.moves = [v] ∧ v.page.peer = (mv v).mach.pkg.toNat ∧ (mv v).mach.word v.page.entry = v.page.word0
    ∧ (v.page.entry + 16 ≤ v.page.xframe ∨ v.page.xframe + 2 ^ 21 ≤ v.page.entry) ∧ v.pull = false
    ∧ (w.page.entry + 16 ≤ w.page.frame ∨ w.page.frame + 2 ^ 21 ≤ w.page.entry) ∧ w.pull = true ∧ (mv w).mach.moves = [w]
    ∧ far.page.peer ≠ (mv far).mach.pkg.toNat ∧ ((mv far).mach.gwLink (ctxDie far.ctx.val)).isSome = false ∧ (mv far).mach.moves = [far] := by
  repeat' refine And.intro ?_ ?_
  all_goals first | decide +kernel | (unfold PageCommands; decide +kernel) | (unfold Covered; decide +kernel)

/-- A link in each state, with replays and failures on both sides of their limits; a gateway link that goes down under an
unacknowledged packet, with another of its die up and with none, and a die's link to the IOD that comes up. -/
theorem wit_Links :
    let l : LinkId := .gw 0
    let s := fun (x : Link) => ({ W with mach := W.mach.setLink l x } : State)
    let recent := fun (x : Link) (c : Nat) => (x.fails.filter fun t => c < t + 1500000000).length
    let pk : Packet := {
      typ := .write, cls := 0, group := 2, gang := 0, srcPkg := 0, srcDie := 0, srcCore := 1, ftag := 7, tgt := 3
      dstDie := 1, addr := 0
      seq := 0, cmd := 0x123, aux := 0, data := [], info := .none }
    let lost := fun (x : Link) => ({ W.mach with gw := W.mach.gw.set 1 x, unacked := [(0, pk)] } : Mach)
    W.mach.unacked = [] ∧ W.mach.hostWrites = [] ∧ ((s {}).mach.link l).st = .down ∧ ((s { st := .training, fails := [0, 0] }).mach.link l).st = .training
    ∧ 2 ≤ recent { st := .training, fails := [0, 0] } 0 ∧ recent { st := .training, fails := [0, 0, 5] } 1500000000 < 2 ∧ ((s { st := .up }).mach.link l).st = .up
    ∧ ((s { st := .retrying, replays := 6 }).mach.link l).replays < 7 ∧ ((s { st := .retrying, replays := 7 }).mach.link l).st = .retrying
    ∧ 7 ≤ ((s { st := .retrying, replays := 7 }).mach.link l).replays
    ∧ ((s { st := .up }).mach.link l).usable = true ∧ ((lost { st := .up }).link l).usable = false
    ∧ ((gwOf pk.srcDie).find? (fun q => ((lost { st := .up }).gw.get q).up) = some 1 ∧ pk.typ ≠ .ack)
    ∧ (gwOf pk.srcDie).find? (fun q => ((lost {}).gw.get q).up) = none := by
  repeat' refine And.intro ?_ ?_
  all_goals decide +kernel

/-! ## Witnesses: the fabric -/

/-- The instance of launch 3 in a context of TAG 7, with bytes of its scratchpad. -/
def fab (f : Fifos → Fifos) (bytes : List (Nat × Byte)) : State :=
  let s := md (launched W) fun i => { i with id := { i.id with uid := uidOf 3 0 0 }, fifo := f i.fifo, pad := { i.pad with bytes } }
  { s with mach := { s.mach.modCtx 0 fun x => { x with ftag := 7 } with launches := [lau 3], ucie := Vector.replicate 10 { st := .up } } }

/-- The same with a complete F0 command: its header's word and its body. -/
def fabNext (h : W64) (body : List W64) (bytes : List (Nat × Byte) := []) : State := fab (fun q => { q with queue0 := [h :: body], nextCmd := 9 }) bytes

/-- What that command becomes. -/
def cmdOf (code : Nat) (h : W64) (body : List W64) : Cmd := { id := 9, code, tag := BitVec.ofNat 32 (h.toNat / 2 ^ 16), body }

theorem command_of {s : State} {c : CoreId} {code : Nat} {x : Cmd} (h : W64) (body : List W64)
    (hs : (s.mach.core c).resident = true ∧ (s.mach.inst c).fifo.cmds.length < 16 ∧ (s.mach.inst c).fifo.res0.length + (s.mach.inst c).fifo.cmds.length < 64
      ∧ (s.mach.inst c).fifo.queue0 = [h :: body] ∧ h.toNat % 256 = code
      ∧ x = { id := (s.mach.inst c).fifo.nextCmd, code, tag := BitVec.ofNat 32 (h.toNat / 2 ^ 16), body }) : NextCommand s c code x :=
  ⟨hs.1, hs.2.1, hs.2.2.1, h, body, [], hs.2.2.2⟩

/-- The bodies of a PUT of the last byte of the partition, of a PUTSIG of one byte, of a GET, a RAMO and a COLL of two members. -/
def putBody : List W64 := [localAddr 0xFFFF, 0x5000, 0, 0]
def putsigBody : List W64 := [localAddr 0x100, 0x5000, 0, 0, 0x5008, 1]
def getBody : List W64 := [0x5000, 0x6000, 0, 0x1000]
def ramoBody : List W64 := [0x5000, 1, 2, 0, 0, 9]
def collBody : List W64 := [localAddr 0x1000, localAddr 0xFFFC, localAddr 0x2000, 0x410001]

theorem local_of {s : State} {c : CoreId} {addr n : Nat} {l : List Byte} {nr : Bool}
    (h : (match (fabRead c addr n).go s.mach with | (.ok p, _) => decide (p = (l, nr)) | _ => false) = true) (hl : l.length = n) :
    ∃ m, LocalBytes s c addr n l nr m := by
  unfold LocalBytes
  generalize (fabRead c addr n).go s.mach = r at h
  obtain ⟨a, m⟩ := r
  cases a with
  | error _ => cases h
  | ok p => exact ⟨m, by rw [of_decide_eq_true h], hl⟩

/-- Each command next in F0, with the bytes it reads, and what makes it be rejected. -/
theorem wit_FabricCommands :
    let w := fun (l : List W64) k => (l.getD (k - 1) 0).toNat
    let putOk := fun (l : List W64) => w l 4 < 2 ^ 28 ∧ dstOk (w l 4 / 2 ^ 24 % 4) (w l 2) = true ∧ w l 3 < 2 ^ 42 ∧ (w l 4 / 2 ^ 24 % 4 = 0 ∧ w l 4 / 2 ^ 26 % 4 = 0 → w l 3 / 2 ^ 26 = 0)
    let s := fabNext 0x12340001 putBody
    let x := cmdOf 5 0x12340005 collBody
    let c := fabNext 0x12340005 collBody
    let untagged : State := { s with mach := s.mach.modCtx 0 fun x => { x with ftag := 0 } }
    ((∀ q ∈ cuts 0xFFFC 9000, q.2 ≤ 4096 ∧ (q.1 = 0 ∨ (0xFFFC + q.1) % 8 = 0)) ∧ (cuts 0xFFFC 9000).length = 3)
    ∧ NextCommand s 0 1 (cmdOf 1 0x12340001 putBody) ∧ putOk putBody ∧ w putBody 4 / 2 ^ 26 % 4 = 0 ∧ Tagged s 0
    ∧ (∃ m, LocalBytes s 0 (w putBody 1) 1 [0] false m) ∧ ¬putOk [0, 0x100000000000000, 0, 0] ∧ ¬Tagged untagged 0
    ∧ NextCommand untagged 0 1 (cmdOf 1 0x12340001 putBody)
    ∧ s.mach.coreOf (inst s).id.uid = some 0 ∧ (∀ y ∈ (inst s).fifo.cmds, y.id ≠ 9) ∧ 9 < 2 ^ 32
    ∧ NextCommand (fabNext 0x12340003 putsigBody) 0 3 (cmdOf 3 0x12340003 putsigBody) ∧ putOk putsigBody
    ∧ sigOk (w putsigBody 4 / 2 ^ 26 % 4) (w putsigBody 5) (w putsigBody 6) = true ∧ Tagged (fabNext 0x12340003 putsigBody) 0
    ∧ (∃ m, LocalBytes (fabNext 0x12340003 putsigBody) 0 (w putsigBody 1) 1 [0] false m)
    ∧ NextCommand (fabNext 0x12340002 getBody) 0 2 (cmdOf 2 0x12340002 getBody) ∧ (w getBody 4 < 2 ^ 24 ∧ w getBody 3 < 2 ^ 26 ∧ isCanon (w getBody 1) = true)
    ∧ NextCommand (fabNext 0x12340004 ramoBody) 0 4 (cmdOf 4 0x12340004 ramoBody)
    ∧ (w ramoBody 6 < 2 ^ 6 ∧ w ramoBody 6 % 16 ≤ 9 ∧ (w ramoBody 6 % 16 ≠ 9 → w ramoBody 3 = 0) ∧ ((w ramoBody 6).testBit 4 = false → w ramoBody 4 = 0) ∧ w ramoBody 5 < 2 ^ 26
      ∧ isCanon (w ramoBody 1) = true ∧ w ramoBody 1 % 8 = 0 ∧ w ramoBody 4 % 8 = 0)
    ∧ NextCommand c 0 5 x ∧ c.mach.collNext 0 = none ∧ (w collBody 4 < 2 ^ 28 ∧ 2 ≤ x.collP ∧ x.collRank < x.collP) ∧ Tagged c 0
    ∧ isWindow (w collBody 1) = true ∧ isWindow (w collBody 2) = true ∧ w collBody 1 % 2 ^ 22 + 2 * x.collN ≤ (inst c).id.part
    ∧ w collBody 2 % 2 ^ 22 + (2 * x.collP - 2) * (2 * x.chunkLen) ≤ (inst c).id.part
    ∧ (∃ m, LocalBytes c 0 (w collBody 3) (8 * x.collP) (List.replicate 16 0) false m)
    ∧ c.mach.pkg.toNat + (inst c).id.ctx.val * 2 ^ 16 + (inst c).id.num * 2 ^ 26 = leNat (((List.replicate 16 (0 : Byte)).drop (8 * x.collRank)).take 8) := by
  refine ⟨?_, command_of 0x12340001 putBody ?_, ?_, ?_, ?_, local_of ?_ ?_, ?_, ?_, command_of 0x12340001 putBody ?_, ?_, ?_, ?_, command_of 0x12340003 putsigBody ?_,
    ?_, ?_, ?_, local_of ?_ ?_, command_of 0x12340002 getBody ?_, ?_, command_of 0x12340004 ramoBody ?_, ?_, command_of 0x12340005 collBody ?_, ?_, ?_, ?_, ?_,
    ?_, ?_, ?_, local_of ?_ ?_, ?_⟩
  all_goals first | decide +kernel | (unfold Tagged; decide +kernel)

/-- A request of module 5 for context 0. -/
def request (typ : PType) (addr aux : Nat) (data : List Byte) : Packet :=
  { typ, cls := 0, group := 2, gang := 0, srcPkg := 5, srcDie := 1, srcCore := 13, ftag := 7, tgt := 0, dstDie := 0, addr, seq := 11, cmd := 0x123, aux, data, info := .none }

theorem page_of {r : Except Took (Page × Nat) × Mach} {k : Nat} (h : (match r with | (.ok (_, j), _) => decide (j = k) | _ => false) = true) :
    ∃ g m, r = (.ok (g, k), m) := by
  obtain ⟨a, m⟩ := r
  cases a with
  | error _ => cases h
  | ok p => exact ⟨p.1, m, by rw [← of_decide_eq_true h]⟩

theorem line_of {m : Mach} {ctx va n : Nat} {need : Right} {k : Nat}
    (h : 0 < n ∧ va % 64 + n ≤ 64 ∧ (match m.ctxPage ctx va need with | (.ok (_, j), _) => decide (j = k) | _ => false) = true) :
    InLine m ctx va n need k := ⟨h.1, h.2.1, page_of h.2.2⟩

theorem target_of {o : Option Target} {t : Target} (h : o.map (fun x => (x.launch, x.team, x.num)) = some (t.launch, t.team, t.num)) : o = some t := by
  cases o with
  | none => cases h
  | some x =>
    simp only [Option.map_some, Option.some.injEq, Prod.mk.injEq] at h
    cases x; cases t; simp_all

/-- A module that takes any of these packets, with no command in progress. -/
def home : State := fab id []

/-- Eight bytes at the end of a line, for a write, a read of the last bytes of a command, a signal and an atomic; a read of
a page that is not there; a delivery into the scratchpad, a signal there and one beyond the partition; a target that is no
instance, and a context that takes the packet not. -/
theorem wit_FabricRequests :
    let p := request .write 0x5038 (4 * (4096 + 2 ^ 24 * 4104)) (bytesOf 8 0x1122334455667788)
    let pad := request .write 0x100 (1 + 2 ^ 24 * 4 * 8) (bytesOf 8 5)
    let tg : Target := { launch := lau 3, team := { num := 0, run := 0, die := 0, st := .resident, cores := [0] }, num := 0 }
    let here := home.mach.arrival pad.gang (ctxDie 0)
    let wrong := { p with ftag := 8 }
    let other := { pad with gang := 9 }
    Arrives home p ∧ Accepted home p 0 ∧ p.aux % 4 = 0 ∧ InLine home.mach 0 p.addr p.data.length .write 0x20005038
    ∧ min 4096 (p.aux / 2 ^ 26 - p.aux / 4 % 2 ^ 24) = 8 ∧ InLine home.mach 0 p.addr 8 .read 0x20005038 ∧ 0x20005038 / 64 ∉ home.mach.poison
    ∧ InLine here 0 p.addr 8 .write 0x20005038
    ∧ Arrives home pad ∧ Accepted home pad 0 ∧ pad.aux % 4 = 1 ∧ home.mach.targetInst pad.tgt pad.gang = some tg
    ∧ (here.offer tg (delivOf pad) pad.tgt 1 pad.addr pad.data 0 8).1 = .ok
    ∧ (here.offerSig tg (delivOf pad) pad.tgt pad.addr 5).1 = .ok ∧ (here.offerSig tg (delivOf pad) pad.tgt 0x10000 5).1 = .fail 3
    ∧ Arrives home wrong ∧ home.mach.targetCtx wrong.tgt wrong.ftag = .error 3
    ∧ Accepted home other 0 ∧ home.mach.targetInst other.tgt other.gang = none
    ∧ (here.countFor pad 0 0x5000 tg 8).1 ≠ .hold
    ∧ ∃ r m, home.mach.ctxLoad 0 0x5038 8 = (.ok r, m) ∧ r.2 = false := by
  refine ⟨?_, ?_, ?_, line_of ?_, ?_, line_of ?_, ?_, line_of ?_, ?_, ?_, ?_, target_of ?_, ?_, ?_, ?_, ?_, ?_, ?_, ?_, ?_, ex_ok ?_⟩
  all_goals first | decide +kernel | (unfold Arrives; decide +kernel) | (unfold Accepted; decide +kernel)

/-- An answer to the command of id 9 of the instance. -/
def reply (typ : PType) (aux : Nat) (data : List Byte) (st : Nat) (ask : PType := .write) : Packet :=
  { request typ (11 + 2 ^ 40 * typeCode ask) aux data with cls := 2, cmd := uidOf 3 0 0 * 2 ^ 32 + 9, info := .status st }

/-- The instance with a command in progress. -/
def busy (x : Cmd) : State := fab (fun q => { q with cmds := [{ x with started := true }] }) []

/-- Commands with one packet outstanding and with two, a PUTSIG whose signal waits, a GET's bytes, an AMO with and without a
place for the old value, an answer that tells its command nothing, a packet with no link, and the last bytes of a fragment,
of a step that is not awaited and of a length that is not the chunk's. -/
theorem wit_FabricAnswers :
    let x := fun (code : Nat) (body : List W64) (n : Nat) => ({ cmdOf code (BitVec.ofNat 64 code) body with outstanding := n, started := true } : Cmd)
    let ack := reply .ack 0 [] 0
    let sig := request .sig 0x5038 0 (bytesOf 8 1)
    let get := reply .readresp (4 * (2 ^ 24 * 8)) (bytesOf 8 5) 0
    let lost := { reply .ack 0 [] 0 with cls := 0, typ := .write, srcPkg := 0 }
    let ours := { lost with typ := .ack, cls := 2, srcPkg := 5, tgt := 5 }
    let s := busy (x 5 collBody 0)
    let frag := { request .frag 0 (4 * (1 + 2 ^ 24 * 2)) [0x5A] with }
    let first := { frag with aux := 0 }
    let tg : Target := { launch := lau 3, team := { num := 0, run := 0, die := 0, st := .resident, cores := [0] }, num := 0 }
    let ramo1 : List W64 := [0x5000, 1, 2, localAddr 0x108, 0, 0x19]
    (tellsCommand (answeredType ack.addr) = true ∧ tellsCommand (answeredType (reply .ack 0 [] 0 .amo).addr) = false)
    ∧ InProgress (busy (x 1 putBody 1)) ack.cmd (inst (busy (x 1 putBody 1))) (x 1 putBody 1) ∧ (x 1 putBody 1).status = 0 ∧ Arrives (busy (x 1 putBody 1)) ack
    ∧ ack.info = .status 0 ∧ (x 1 putBody 1).pendingSig = none
    ∧ InProgress (busy (x 1 putBody 2)) ack.cmd (inst (busy (x 1 putBody 2))) (x 1 putBody 2) ∧ 2 ≤ (x 1 putBody 2).outstanding
    ∧ (let y := { x 3 putsigBody 1 with pendingSig := some sig }; InProgress (busy y) ack.cmd (inst (busy y)) y)
    ∧ (InProgress (busy (x 5 collBody 1)) ack.cmd (inst (busy (x 5 collBody 1))) (x 5 collBody 1) ∧ (x 5 collBody 1).step ≠ (x 5 collBody 1).lastStep)
    ∧ (let y := { x 5 collBody 1 with step := 2 }; InProgress (busy y) ack.cmd (inst (busy y)) y ∧ y.step = y.lastStep)
    ∧ InProgress (busy (x 0xA collBody 1)) ack.cmd (inst (busy (x 0xA collBody 1))) (x 0xA collBody 1)
    ∧ InProgress (busy (x 2 getBody 1)) get.cmd (inst (busy (x 2 getBody 1))) (x 2 getBody 1) ∧ isCanon ((x 2 getBody 1).word 2 + get.aux / 4 % 2 ^ 24) = true
    ∧ InLine (busy (x 2 getBody 1)).mach (inst (busy (x 2 getBody 1))).id.ctx.val ((x 2 getBody 1).word 2 + get.aux / 4 % 2 ^ 24) get.data.length .write 0x20006000
    ∧ ((busy (x 2 getBody 1)).mach.localPut (get.cmd / 2 ^ 32) 0x6000 get.data).1 = .ok
    ∧ InProgress (busy (x 4 ramoBody 1)) ack.cmd (inst (busy (x 4 ramoBody 1))) (x 4 ramoBody 1) ∧ ((x 4 ramoBody 1).word 6).testBit 4 = false
    ∧ InProgress (busy (x 4 ramo1 1)) ack.cmd (inst (busy (x 4 ramo1 1))) (x 4 ramo1 1) ∧ ((x 4 ramo1 1).word 6).testBit 4 = true
    ∧ ((busy (x 4 ramo1 1)).mach.localPut (get.cmd / 2 ^ 32) ((x 4 ramo1 1).word 4) get.data).1 = .ok
    ∧ (let s := busy (x 1 putBody 1); let s := { s with mach.unacked := [(16, lost)] }
       (∃ j, 16 ≤ j ∧ (j, lost) ∈ s.mach.unacked) ∧ (lost.cls ≠ 2 ∧ lost.srcPkg = s.mach.pkg.toNat) ∧ ofCommand lost = true ∧ InProgress s lost.cmd (inst s) (x 1 putBody 1)
       ∧ (∃ j, 16 ≤ j ∧ (j, ours) ∈ ({ s with mach.unacked := [(16, ours)] } : State).mach.unacked) ∧ ours.cls = 2 ∧ destPkg ours ≠ s.mach.pkg.toNat
       ∧ ours.typ ∉ [.mgmt, .demand, .hist, .pdone])
    ∧ Arrives s frag ∧ Accepted s frag 0 ∧ s.mach.targetInst frag.tgt frag.gang = some tg ∧ s.mach.instOf tg.uid = some (inst s)
    ∧ ((s.mach.arrival first.gang 0).instOf tg.uid = some (inst s) ∧ (inst home).collFor 0 = none ∧ home.mach.instOf tg.uid = some (inst home))
    ∧ ((inst s).id.uid = tg.uid ∧ (x 5 collBody 0).lastStep ≤ 2 ∧ first.aux / 2 ^ 26 ≠ 2 * ((x 5 collBody 0).chunk ((x 5 collBody 0).recvChunk 0)).2)
    ∧ (inst s).collFor 0 = some (x 5 collBody 0) ∧ (x 5 collBody 0).id < 2 ^ 32 ∧ frag.addr < (x 5 collBody 0).lastStep
    ∧ frag.aux / 2 ^ 26 = 2 * ((x 5 collBody 0).chunk ((x 5 collBody 0).recvChunk 0)).2
    ∧ ∃ r m, s.mach.offer tg (delivOf frag) frag.tgt 1 ((x 5 collBody 0).stageOff 0 + 1) frag.data 1 2 = (r, m)
        ∧ r = .ok ∧ m.cmd? (tg.uid * 2 ^ 32 + 9) = some (x 5 collBody 0) := by
  repeat' refine And.intro ?_ ?_
  all_goals first
    | decide +kernel | exact ⟨16, by decide, by decide +kernel⟩ | exact line_of (by decide +kernel) | (unfold InProgress; decide +kernel) | (unfold Arrives; decide +kernel)
    | (unfold Accepted; decide +kernel) | exact target_of (by decide +kernel) | exact ⟨_, _, rfl, by decide +kernel, by decide +kernel⟩ | exact page_of (by decide +kernel)

/-- A COLL in progress: a step whose fragment goes out next, and one whose neighbour's has come. -/
theorem wit_FabricCommands_coll :
    let x : Cmd := { cmdOf 5 0x12340005 collBody with body := collBody ++ [0, 0], started := true }
    let y : Cmd := { x with sentStep := true, frags := [(0, 2)] }
    (busy x).mach.collNext 0 = some x ∧ (busy y).mach.collNext 0 = some y ∧ x.sentStep = false ∧ y.sentStep = true
    ∧ ((busy x).mach.core 0).resident = true
    ∧ (∃ r m, (lRead 0 none (windowOff (x.word 1) + 2 * (x.chunk (x.sendChunk x.step)).1) (2 * (x.chunk (x.sendChunk x.step)).2)).go (busy x).mach = (.ok r, m) ∧ r.2 = none)
    ∧ ∃ r m, (takeFrag 0 y).go (busy y).mach = (.ok r, m) ∧ r.step = 1 := by
  refine ⟨?_, ?_, ?_, ?_, ?_, ex_ok ?_, ex_ok ?_⟩
  all_goals decide +kernel

/-- A link that leads to switch 9, whose slot 4 takes two contributions of one FP32 element. -/
def sredBody : List W64 := [localAddr 0x100, localAddr 0x200, 0x100000 + 0x400 + 9, 0x11]
def slot4 : RedSlot := { sw := 9, slot := 4, gang := 0, ctag := 0x11, nc := 2, op := 0, dt := 1, n := 1, tmo := 0 }
def switched (slots : List RedSlot) (w1 : W64) : State :=
  let s := fabNext 0x12340006 sredBody
  let m := { s.mach.setLink (.gw 0) { st := .up, partner := 9 } with redSlots := slots, swRegs := { s.mach.swRegs with sw := 9, slot := 4, busy := true, w1, w2 := 0x4002 } }
  { s with mach := m }

/-- A contribution of a rank, and the answer to a command. -/
def contribution (rank : Nat) : Packet :=
  { request .sredc 0 (9 + 256 * 4) (bytesOf 4 0x3F800000) with cls := 3, info := .sred rank 0 0x11 1 1 0 0 0 false }
def sredAnswer : Packet := { reply .sredr 0 [] 0 with info := .sred 1 0 0x11 1 1 7 0 1 true }

/-- A slot that is Free, with a way to the switch and with none, a gang of 0, an SRED that the context, its fields or its link
stop, a first, a second and a last contribution, one in two packets, one that is late and one that does not match, a timeout
at its last cycle, an answer that failed and one with data, and what a management packet brings. -/
theorem wit_SwitchReductions :
    let s := switched [] 0x11000005
    let cut : State := { s with mach.ucie := Vector.replicate 10 {} }
    let g := s.mach.swRegs
    let fits := fun (w1 w2 : Nat) => w1 % 2 ^ 24 ≠ 0 ∧ w1 < 2 ^ 56 ∧ w2 < 2 ^ 46 ∧ 1 ≤ w2 % 2 ^ 11 ∧ w2 % 2 ^ 11 ≤ 1024 ∧ w2 / 2 ^ 11 % 8 ≤ 3 ∧ w2 / 2 ^ 14 % 4 ≤ 2
      ∧ (w2 / 2 ^ 11 % 8 = 3 ↔ w2 / 2 ^ 14 % 4 = 2)
    let one := { slot4 with held := [{ rank := 0, values := [5], src := contribution 0 }] }
    let r := switched [slot4] 0
    let away := fabNext 0x12340006 sredBody
    let up := { home with mach.rounds := [{ pkgRound with num := 0x123, upward := true }] }
    let whole := fun (m : Mach) (p : Packet) => contribLen p ≤ ((m.redParts.filter (sameContribution p) ++ [p]).map (·.data.length)).sum
    let half := { contribution 1 with data := [1, 2] }
    let result := { sredAnswer with data := bytesOf 4 5, info := .sred 1 0 0x11 1 1 0 0 2 false }
    let waiting := busy (cmdOf 6 6 sredBody)
    fits g.w1.toNat g.w2.toNat ∧ s.mach.toSwitch g.sw.toNat 0 = true ∧ s.mach.slot? g.sw.toNat g.slot.toNat = none ∧ ¬fits 0 g.w2.toNat
    ∧ s.mach.iodWay.isSome = true ∧ cut.mach.iodWay.isSome = false ∧ cut.mach.toSwitch g.sw.toNat 0 = true
    ∧ (∀ l, ({ s with mach.swRegs.sw := 8 } : State).mach.toSwitch 8 l = false)
    ∧ NextCommand r 0 6 (cmdOf 6 0x12340006 sredBody) ∧ (0x100409 < 2 ^ 46 ∧ 0x11 < 2 ^ 32) ∧ Tagged r 0 ∧ r.mach.switchLink (dieOf 0) (0x100409 % 256) = some (0, 0)
    ∧ (NextCommand away 0 6 (cmdOf 6 0x12340006 sredBody) ∧ Tagged away 0 ∧ away.mach.switchLink (dieOf 0) (0x100409 % 256) = none)
    ∧ r.mach.slot? (0x100409 % 256) (0x100409 / 2 ^ 8 % 2 ^ 12) = some slot4 ∧ (∃ m, LocalBytes r 0 (localAddr 0x100).toNat (slot4.n * 4) [0, 0, 0, 0] false m)
    ∧ (contribution 1).info = .sred 1 slot4.seq.toNat 0x11 slot4.n slot4.dt 0 0 0 false ∧ r.mach.slot? ((contribution 1).aux % 256) ((contribution 1).aux / 256) = some slot4
    ∧ (whole r.mach (contribution 1) ∧ ¬whole r.mach half ∧ whole { r.mach with redParts := [{ half with addr := 2 }] } half)
    ∧ slot4.gang = (contribution 1).gang ∧ slot4.ctag = 0x11 ∧ 1 < slot4.nc ∧ slot4.held.length + 1 < slot4.nc
    ∧ (∀ h ∈ one.held, h.rank ≠ 1) ∧ (∀ h ∈ one.held, h.src.info = .sred 0 0 0x11 1 1 0 0 0 false) ∧ one.held.length + 1 = one.nc
    ∧ (let late := { slot4 with seq := 1, rounds := 1 }; late.rounds ≠ 0 ∧ 0 = (late.seq - 1).toNat ∧ ¬(slot4.seq.toNat = (slot4.seq + 1).toNat))
    ∧ (switched [] 0).mach.slot? ((contribution 1).aux % 256) ((contribution 1).aux / 256) = none
    ∧ (switched [one] 0).mach.slot? 9 4 = some one ∧ one.held ≠ [] ∧ one.since + 1500 * 100 ≤ 150000 ∧ one.sw < 2 ^ 8 ∧ one.slot < 2 ^ 12
    ∧ InProgress waiting sredAnswer.cmd (inst waiting) { cmdOf 6 6 sredBody with started := true } ∧ Arrives home sredAnswer ∧ sredAnswer.data = [] ∧ 7 ≠ 0
    ∧ (Arrives waiting result ∧ result.data ≠ [] ∧ (waiting.mach.localPut (result.cmd / 2 ^ 32) ((cmdOf 6 6 sredBody).word 2 + result.aux) result.data).1 = .ok)
    ∧ (Arrives up { request .mgmt 0 0 [] with info := .status 0 } ∧ Arrives s { request .mgmt 0 0 [] with info := slot4.info })
    ∧ up.mach.rounds.find? (fun q => q.num == 0x123 && q.ended.isNone && q.upward) = some { pkgRound with num := 0x123, upward := true } := by
  repeat' refine And.intro ?_ ?_
  all_goals first
    | decide +kernel | exact ⟨0x12340006, sredBody, [], by decide +kernel⟩ | exact local_of (by decide +kernel) (by decide +kernel)
    | (unfold Tagged; decide +kernel) | (unfold InProgress; decide +kernel) | (unfold Arrives; decide +kernel)

/-! ## Witnesses: scheduled exchanges -/

theorem run_of {ε α σ : Type} {r : Except ε α × σ} {a : α} (h : r.1.toOption = some a) : r = (.ok a, r.2) := by
  obtain ⟨x, m⟩ := r
  cases x with
  | error _ => cases h
  | ok b => cases h; rfl

theorem run_some {ε α σ : Type} {r : Except ε α × σ} (h : r.1.toOption.isSome = true) : ∃ a m, r = (.ok a, m) := by
  obtain ⟨x, m⟩ := r
  cases x with
  | error _ => cases h
  | ok b => exact ⟨b, m, rfl⟩

/-- A domain of this module and of module 5, whose arbiter is this module and whose standby is module 3; a row; a key record
of one coordinate from 0 to 1. -/
def exchBytes : List (Nat × Byte) :=
  cellsWrite (cellsWrite (cellsWrite [] 0x100 (bytesOf 8 0x300000001 ++ bytesOf 24 0 ++ bytesOf 8 0 ++ bytesOf 8 5)) 0x200 (bytesOf 8 0 ++ bytesOf 8 64))
    0x300 (bytesOf 16 0 ++ bytesOf 4 0x3F800000 ++ bytesOf 44 0)
def theDom : Dom := { p := 2, arb := 0, stb := 3, ctmo := 0, tgts := [0, 5], nres := false }
def dpostBody : List W64 := [localAddr 0x100, localAddr 0x200, 0x5000, 0x6000, 0xFFFFFFFFFF, 0x7000, 0x7040, 12 * 2 ^ 22 + 0xFFFF]
def xrepBody : List W64 := [localAddr 0x400, localAddr 0x500, 0, localAddr 0x100, localAddr 0x300, 0x7000, 1 + 2 ^ 32, 1 + 16 * 2 ^ 7 + 9 * 2 ^ 21, 0]

theorem wit_ExchangeCommands :
    let s := fabNext 0x12340007 dpostBody exchBytes
    let m := s.mach
    let w := fun k => (dpostBody.getD (k - 1) 0).toNat
    let r1 := (readDom 0 (w 1) 0).go m
    let r2 := (fabRead 0 (w 2) 16).go r1.2
    NextCommand s 0 7 (cmdOf 7 0x12340007 dpostBody) ∧ m.partNext 0 7 = none
    ∧ (w 8 < 2 ^ 26 ∧ w 5 < 2 ^ 40 ∧ w 8 / 2 ^ 22 % 2 ^ 4 ≤ 12 ∧ w 1 % 8 = 0 ∧ w 6 % 8 = 0 ∧ w 7 % 64 = 0 ∧ w 8 / 2 ^ 16 % 2 ^ 6 = 0)
    ∧ r1 = (.ok (some theDom), r1.2) ∧ r2 = (.ok (bytesOf 8 0 ++ bytesOf 8 64, false), r2.2)
    ∧ (∀ v ∈ (List.range 2).map fun j => leNat (((bytesOf 8 0 ++ bytesOf 8 64).drop (8 * j)).take 8), v < 2 ^ 40)
    ∧ (r2.2.ctx (r2.2.inst 0).id.ctx.val).ftag = (m.ctx (m.inst 0).id.ctx.val).ftag ∧ (r2.2.inst 0).id = (m.inst 0).id ∧ Tagged s 0 := by
  refine ⟨command_of 0x12340007 dpostBody ?_, ?_, ?_, run_of ?_, run_of ?_, ?_, ?_, ?_, ?_⟩
  all_goals first | decide +kernel | (unfold Tagged; decide +kernel)

theorem wit_ExchangeCommands_xrep :
    let s := fabNext 0x12340008 xrepBody exchBytes
    let m := s.mach
    let x := cmdOf 8 0x12340008 xrepBody
    let k : KeyRec := { d := 1, b := 16, hilbert := false, bytes := bytesOf 16 0 ++ bytesOf 4 0x3F800000 ++ bytesOf 44 0 }
    let r1 := (readDom 0 (localAddr 0x100).toNat 0).go m
    let r2 := (fabRead 0 (localAddr 0x300).toNat 64).go r1.2
    NextCommand s 0 8 x ∧ m.partNext 0 8 = none ∧ xrepOk x = true ∧ r1 = (.ok (some theDom), r1.2) ∧ r2 = (.ok (k.bytes, false), r2.2) ∧ k.bytes.length = 64
    ∧ k.ok x.rs = true ∧ r2.2.noTag 0 = false ∧ (∃ p m3, (overRecords 0 x (Scan.add k) (List.range x.nin) {}).go r2.2 = (.ok p, m3)) ∧ x.nin = 1 := by
  refine ⟨command_of 0x12340008 xrepBody ?_, ?_, ?_, run_of ?_, run_of ?_, ?_, ?_, ?_, run_some ?_, ?_⟩
  all_goals decide +kernel

/-- What a rank of a domain of p members posts, and its packet. -/
def posting (p rank : Nat) (row : List Nat) : Posting :=
  { p, arb := 0, stb := 3, ctmo := 0, qc := 0, xrep := false, tgts := List.replicate p 5, cfg := [], rank, exid := 9, row, rcap := 0x10000 }
def post (p rank : Nat) (row : List Nat) : Packet :=
  { request .demand (2 * (9 + 7 * 2 ^ 16)) (9 * 2 ^ 48) [] with srcPkg := 5 + rank, srcDie := 0, info := .post (posting p rank row) }

/-- An exchange of key 9 with posts, and a module that arbitrates it. -/
def exchange (posts : List Packet) : Exch := { key := 9 + 7 * 2 ^ 16, standby := false, acting := true, posts }
def arbiter (l : List Exch) : State := { home with mach := { home.mach with exchs := l, cycle := 15000000 } }

/-- One post of two, with both quotas fixed and granted, all done at this module and none of the other. -/
def granted : Exch :=
  ((exchange [post 2 0 [0, 64], post 2 1 [64, 0]]).withQuotas [[0, 64], [64, 0]])

/-- A post of a rank for a redistribution. -/
def histPost (p rank : Nat) : Packet :=
  { post p rank [] with typ := .hist, info := .post { posting p rank [] with xrep := true } }

/-- A first post, with room and with none, a post of three and the last of two, of each kind, and one that breaks the rules
of its exchange; phases done that are not the last, that are, and results pushed; an ABORT; a heart and the states at a
standby; what a mirror tells one; and the timers at their last cycles. -/
theorem wit_ExchangeArbiter :
    let key := 9 + 7 * 2 ^ 16
    let e1 := exchange [post 2 0 [0, 64]]
    let e3 := exchange [post 3 0 [0, 64, 0]]
    let h1 : Exch := { exchange [] with hists := [histPost 2 0] }
    let h3 : Exch := { exchange [] with hists := [histPost 3 0] }
    let stb : Exch := { exchange [post 2 0 [0, 64], post 2 1 [64, 0]] with standby := true, acting := false }
    let fails : Exch := { stb with acting := true, st := .failingOver }
    let from1 : Packet := { post 2 1 [] with typ := .pdone, info := .none, aux := 9 * 2 ^ 48 + granted.phases }
    let part1 : Packet := { from1 with aux := 9 * 2 ^ 48 }
    let full := (arbiter (List.replicate 64 e1)).mach.exchs
    let almost : Exch := { granted with done := [(granted.phasesOf 0).length, 0] }
    let ends : Exch := { granted with st := .completing, pushed := [0] }
    let mirror : Packet := { from1 with typ := .mirror, info := .mirrorPost (posting 2 1 [64, 0]) false 6 0 0x55 7 0 }
    Arrives home (post 2 0 [0, 64]) ∧ NoExchange home key ∧ 0 = home.mach.pkg.toNat ∧ 64 ≤ (full.filter fun e => !e.standby).length
    ∧ (posting 2 2 []).p ≤ (posting 2 2 []).rank
    ∧ Arrives (arbiter [e1]) (post 2 1 [64, 0]) ∧ e1.acting = true ∧ e1.st = .collecting ∧ e1.hists = [] ∧ e1.posts ≠ []
    ∧ e1.breach (post 2 1 [64, 0]) (posting 2 1 [64, 0]) = false ∧ e1.posts.length + 1 = e1.head.p
    ∧ e3.breach (post 3 1 [0, 0, 0]) (posting 3 1 [0, 0, 0]) = false ∧ e3.posts.length + 1 < e3.head.p
    ∧ (h1.breach (histPost 2 1) (postOf (histPost 2 1)) = false ∧ h1.head.xrep = true ∧ h1.hists.length + 1 = h1.head.p)
    ∧ (h3.breach (histPost 3 1) (postOf (histPost 3 1)) = false ∧ h3.head.xrep = true ∧ h3.hists.length + 1 < h3.head.p)
    ∧ e1.breach (post 2 0 [64, 0]) (posting 2 0 [64, 0]) = true
    ∧ granted.acting = true ∧ granted.st = .issuing ∧ granted.rankOf from1 = some 1 ∧ granted.key = from1.addr / 2 ∧ Arrives (arbiter [granted]) from1
    ∧ granted.quotas ≠ [] ∧ 0 < granted.phases ∧ granted.allPushed = false ∧ granted.allDone = false
    ∧ (let d : Exch := { almost with done := almost.done.set 1 (max (almost.done.getD 1 0) ((almost.phasesOf 1).filter fun k => k ≤ part1.aux % 2 ^ 48).length) }
       d.allDone = true ∧ d.allPushed = false)
    ∧ ({ ends with pushed := 1 :: ends.pushed } : Exch).allPushed = true ∧ ends.allPushed = false
    ∧ from1.addr % 2 = 0 ∧ stb.quotas = [] ∧ fails.st = .failingOver ∧ fails.rankOf from1 = some 1 ∧ (∃ o, o ∈ fails.posters ∧ (postOf o).rank ∉ 1 :: fails.answered)
    ∧ (∀ o ∈ fails.posters, (postOf o).rank ∈ [1, 0]) ∧ (({ fails with quotas := [[0, 64], [64, 0]] } : Exch).quotas ≠ [])
    ∧ (Arrives (arbiter [stb]) mirror ∧ stb.key = mirror.addr / 2) ∧ (∃ x, x ∈ [stb] ∧ x.standby = true)
    ∧ e1.since + 10000 * 1500 ≤ (arbiter [e1]).mach.cycle ∧ ¬e1.since + 10000 * 1500 ≤ home.mach.cycle ∧ (arbiter [e1]).mach.heartsOut e1 < 3
    ∧ 3 ≤ ({ (arbiter [e1]).mach with unacked := (List.range 3).map fun k => (0, { from1 with typ := .heart, addr := 2 * e1.key, seq := k }) } : Mach).heartsOut e1
    ∧ stb.heard + 45000 ≤ (arbiter [stb]).mach.cycle ∧ (∃ o, o ∈ stb.posters ∧ 0 < stb.head.tgts.length ∧ stb.poster 0 = some o) := by
  repeat' refine And.intro ?_ ?_
  all_goals first
    | decide +kernel | exact ⟨post 2 0 [0, 64], by decide +kernel, by decide +kernel, by decide +kernel⟩ | exact ⟨post 2 0 [0, 64], by decide +kernel, by decide +kernel⟩
    | exact ⟨_, List.mem_singleton.2 rfl, rfl⟩ | (unfold Arrives; decide +kernel) | (unfold NoExchange; decide +kernel)

/-- The part of rank 0 of the exchange, and the instance whose command has it. -/
def part0 : Part := { posting := { posting 2 0 [0, 64] with tgts := [0, 5] }, key := 9 + 7 * 2 ^ 16, recv := [0, 0] }
def taking (body : List W64) (q : Part) : State := busy { cmdOf 7 7 body with part := some q }
def partCmd (body : List W64) (q : Part) : Cmd := { cmdOf 7 7 body with part := some q, started := true }

/-- A packet of the arbiter, and one of data from module 5. -/
def fromArbiter (typ : PType) (info : PInfo) : Packet :=
  { request typ (2 * (9 + 7 * 2 ^ 16) + 1) 0 [] with srcPkg := 3, cmd := uidOf 3 0 0 * 2 ^ 32 + 9, info }
def fromOther (typ : PType) (info : PInfo) (data : List Byte) : Packet :=
  { request typ 0 (9 * 2 ^ 48) data with srcDie := 0, cmd := uidOf 3 0 0 * 2 ^ 32 + 9, info }

/-- A participant that has no quotas, no grants and no owners yet; one whose arbiter has been silent for 10 ms; a module
without the part; and data of a phase that is past, of one that ends with it, its end marker when bytes are missing and when
none are, and the answer to a marker. -/
theorem wit_ExchangeParticipant :
    let p := fromArbiter .grant (.quotas [0, 64] [64, 0] [0, 0])
    let x := partCmd dpostBody part0
    let s := taking dpostBody part0
    let n := uidOf 3 0 0 * 2 ^ 32 + 9
    let waits := { part0 with gotG := true }
    let silent := taking dpostBody waits
    let d := fromOther .xdat .none (bytesOf 8 5)
    let past := { part0 with next := 1 }
    let ends : Part := { part0 with gotG := true, ready := true, grants := [⟨0, false, 1, 8, 0⟩], marks := [(0, 1, 8)] }
    let here := s.mach.arrival d.gang (ctxDie 0)
    Participant s p (inst s) x part0 ∧ part0.gotG = false ∧ part0.ready = false ∧ part0.first = [] ∧ part0.posting.stb = p.srcPkg ∧ part0.grants = [] ∧ p.addr % 2 = 1
    ∧ (Arrives home p ∧ home.mach.partFor p = none)
    ∧ InProgress silent n (inst silent) (partCmd dpostBody waits) ∧ waits.final = none ∧ waits.heard + 15000000 ≤ ({ silent.mach with cycle := 15000000 } : Mach).cycle
    ∧ ¬waits.heard + 15000000 ≤ silent.mach.cycle
    ∧ (Arrives s d ∧ Accepted s d 0 ∧ s.mach.dataFor d = some (n, x, part0, 1) ∧ InProgress s n (inst s) x ∧ part0.next ≤ d.aux % 2 ^ 48) ∧ part0.posting.xrep = false
    ∧ ((taking dpostBody past).mach.dataFor d = some (n, partCmd dpostBody past, past, 1) ∧ d.aux % 2 ^ 48 < past.next)
    ∧ (ends.ready = true ∧ (ends.addGot 0 1 8).phase = some 0 ∧ (ends.addGot 0 1 8).phaseDone 0 = true ∧ ends.phaseDone 0 = false)
    ∧ isCanon ((x.word 4 + d.addr) % 2 ^ 64) = true ∧ InLine here (inst s).id.ctx.val ((x.word 4 + d.addr) % 2 ^ 64) d.data.length .write 0x20006000
    ∧ (here.localPut (n / 2 ^ 32) 0x6000 d.data).1 = .ok
    ∧ part0.gotOf (d.aux % 2 ^ 48) 1 < 8 ∧ 0 ≤ part0.gotOf (d.aux % 2 ^ 48) 1 ∧ ({ part0 with sent := some 0 } : Part).sent = some (d.aux % 2 ^ 48) := by
  repeat' refine And.intro ?_ ?_
  all_goals first
    | decide +kernel | exact page_of (by decide +kernel) | (unfold InProgress Arrives; decide +kernel) | (unfold InProgress; decide +kernel)
    | (unfold Arrives; decide +kernel) | (unfold Accepted; decide +kernel)

/-- A participant with its quotas whose self part is next, one with a phase to send, and one that FINAL has reached. -/
theorem wit_ExchangeCommands_going :
    let body := dpostBody
    let bytes := exchBytes
    let s := fun (q : Part) => md (taking body q) fun i => { i with pad := { i.pad with bytes } }
    let self := { part0 with gotG := true, row := [0, 64], col := [0, 64], offs := [0, 0] }
    let send := { self with ready := true, alen := [(1, 0x100, 64)], grants := [⟨0, true, 1, 64, 0⟩] }
    let fin := { self with ready := true, final := some (1, false, false, false) }
    let next := fun (q : Part) => (s q).mach.partNext 0 7 = some (partCmd body q)
    next self ∧ next send ∧ next fin ∧ self.ready = false ∧ send.toSend = some ⟨0, true, 1, 64, 0⟩ ∧ fin.toSend = none
    ∧ (∃ r m, (selfStep 0 (partCmd body self)).go (s self).mach = (.ok r, m)) ∧ (∃ r m, (sendStep 0 (partCmd body send) ⟨0, true, 1, 64, 0⟩).go (s send).mach = (.ok r, m))
    ∧ ∃ r m, (finishStep 0 (partCmd body fin) (1, false, false, false)).go (s fin).mach = (.ok r, m) := by
  refine ⟨?_, ?_, ?_, ?_, ?_, ?_, run_some ?_, run_some ?_, run_some ?_⟩
  all_goals decide +kernel

/-! ## Witnesses: debugging, memory stacks and health -/

/-- Function 0's debug block names the instance of context 0, with an argument and data, and its attestation buffer lies in
its window. -/
def debugged (f : Inst → Inst) (arg data : W64) : State :=
  let s := md W f
  { s with mach := (s.mach.setFn 0 { s.mach.fn 0 with dbgArg := arg, dbgData := data, dbgBusy := true, attArg := 0x70000000, winBase := 0x7000, winSize := 0x10 }).setLaunch (lau 0) }

/-- The same, with the instance saved. -/
def savedDebug (f : Inst → Inst) (arg data : W64) : State :=
  let s := debugged f arg data
  let g : Image := { inst := inst s, core := 0, place := none, spilled := false, seq := 1 }
  { s with mach := { s.mach.setCore 0 { s.mach.core 0 with resident := false } with images := [g] } }

theorem may_of {s : State} (h : (s.mach.fn 0).suspendOf = none ∧ ∀ g, g ≠ 0 → (s.mach.fn g).suspendOf = none ∧ (s.mach.fn g).dbgBusy = false) : MayDebug s 0 := by
  refine ⟨fun g hg => ⟨?_, ?_⟩, .inl rfl⟩
  · rw [(h.2 g hg).1]; simp
  · rw [(h.2 g hg).2]; simp

theorem debugs_of {s : State} {c : CoreId} (h : ((s.mach.fn 0).suspendOf = none ∧ ∀ g, g ≠ 0 → (s.mach.fn g).suspendOf = none ∧ (s.mach.fn g).dbgBusy = false)
    ∧ s.mach.dbgInst 0 = some (s.mach.inst c) ∧ s.mach.coreOf (s.mach.inst c).id.uid = some c) : Debugs s 0 (some c) (s.mach.inst c) :=
  ⟨may_of h.1, h.2.1, h.2.2, rfl⟩

theorem saved_of {s : State} {i : Inst} (h : ((s.mach.fn 0).suspendOf = none ∧ ∀ g, g ≠ 0 → (s.mach.fn g).suspendOf = none ∧ (s.mach.fn g).dbgBusy = false)
    ∧ s.mach.dbgInst 0 = some i ∧ s.mach.coreOf i.id.uid = none ∧ ∀ g ∈ s.mach.images, g.inst.id.uid = i.id.uid → g.inst = i) : Debugs s 0 none i :=
  ⟨may_of h.1, h.2.1, h.2.2.1, h.2.2.2⟩

def stopped (i : Inst) : Inst := { i with dbg := { i.dbg with stopped := true } }
def committing (i : Inst) : Inst := { stopped i with m := { i.m with active := some ⟨{}, 1, 0, none, 0⟩ } }
def stepping (i : Inst) : Inst := { i with dbg := { i.dbg with stepping := some .V } }
def stopping (i : Inst) : Inst := { i with dbg := { i.dbg with stopReq := true } }

/-- An instance that runs, that is stopped with and without a commit, that stops, that steps and that is saved; elements
that are and that are not there; and a block that names no instance. -/
theorem wit_DebugCommands :
    let run := debugged id 0 0
    let stop := debugged stopped 0x108 76
    let halt := debugged stopping 0 0
    let step := debugged stepping 0 0
    let acc := debugged committing 6 0
    let away := savedDebug id 0 0
    let nobody := { run with mach := run.mach.setFn 0 { run.mach.fn 0 with dbgInst := 77 } }
    Debugs run 0 (some 0) (inst run) ∧ (inst run).dbg.stopped = false ∧ ((run.mach.fn 0).dbgArg).toNat = 0 ∧ Debugs (debugged stopped 3 0) 0 (some 0) (inst (debugged stopped 3 0))
    ∧ (Debugs (debugged stopped 4 0) 0 (some 0) (inst (debugged stopped 4 0)) ∧ 4 ≤ (4 : W64).toNat)
    ∧ (Debugs away 0 none (inst run) ∧ ((away.mach.fn 0).dbgArg).toNat = 0)
    ∧ Debugs stop 0 (some 0) (inst stop) ∧ (inst stop).dbg.stopped = true ∧ (inst stop).m.active = none ∧ (inst stop).m.pending = none ∧ (3 : W64).toNat < 4
    ∧ elementOk (inst stop) 8 1 = true ∧ elementOk (inst stop) 0 32 = false ∧ elementOk (inst stop) 0 31 = true ∧ elementOk (inst stop) 7 8 = true
    ∧ (stop.mach.readElement (inst stop) 8 1).isSome = true ∧ ((inst stop).writeElement 8 1 76).isSome = true ∧ (inst stop).writeElement 8 1 77 = none ∧ 77 % 4 ≠ 0
    ∧ elementOk (inst stop) 1 0x7FF = true ∧ stop.mach.readElement (inst stop) 1 0x7FF = none
    ∧ Debugs acc 0 (some 0) (inst acc) ∧ elementOk (inst acc) 6 0 = true ∧ (inst acc).m.active ≠ none ∧ (inst acc).dbg.stopped = true
    ∧ (MayDebug nobody 0 ∧ nobody.mach.dbgInst 0 = none)
    ∧ (halt.mach.core 0).resident = true ∧ halt.mach.coreOf (inst halt).id.uid = some 0 ∧ Unlogged halt 0 ∧ (inst halt).dbg.stopReq = true
    ∧ (halt.mach.fn 0).dbgBusy = true ∧ halt.mach.dbgInst 0 = some (inst halt) ∧ (inst step).dbg.stepping ≠ none ∧ Unlogged step 0
    ∧ (inst run).dbg.stopReq = false ∧ (inst run).dbg.stepping = none ∧ (run.mach.core 1).resident = false := by
  refine ⟨debugs_of ?_, ?_, ?_, debugs_of ?_, ⟨debugs_of ?_, ?_⟩, ⟨saved_of ?_, ?_⟩, debugs_of ?_, ?_, ?_, ?_, ?_, ?_, ?_, ?_, ?_, ?_, ?_, ?_, ?_, ?_, ?_,
    debugs_of ?_, ?_, ?_, ?_, ⟨may_of ?_, ?_⟩, ?_, ?_, ?_, ?_, ?_, ?_, ?_, ?_, ?_, ?_, ?_⟩
  all_goals first | decide +kernel | (unfold Unlogged; decide +kernel)

/-- A watch of the widest range, a ring that is enabled, one out of the window and one that is off, and an instance that waits. -/
theorem wit_DebugSettings :
    let watch := debugged id 0x10000000000 (40 + 512)
    let ring := fun (base : W64) (d : W64) => let s := debugged id base d
      ({ s with mach := s.mach.setFn 0 { s.mach.fn 0 with winSpace := true, winBase := 0x1000 } } : State)
    let ok := fun (s : State) => let arg := (s.mach.fn 0).dbgArg.toNat; let d := (s.mach.fn 0).dbgData.toNat
      d / 2 ^ 17 % 8 = 0 ∧ (d.testBit 16 = true → d % 2 ^ 16 ≠ 0 ∧ arg % 4096 = 0 ∧ isHbm arg (4096 * (d % 2 ^ 16)) = true
        ∧ s.mach.inWindow 0 true arg (4096 * (d % 2 ^ 16)) = true)
    let waits := debugged (fun i => { i with s := { i.s with st := { i.s.st with wait := some ⟨.token .V, 3, .waitk 0⟩ } } }) 0 0
    let run := debugged id 0 0
    Debugs watch 0 (some 0) (inst watch) ∧ (40 + 512 < 2 ^ 10 ∧ 40 + 512 < 2 ^ 17) ∧ 3 ≤ (40 + 512) % 64 ∧ (40 + 512) % 64 ≤ 40 ∧ isCanon 0x10000000000 = true ∧ 0x10000000000 % 2 ^ ((40 + 512) % 64) = 0
    ∧ ok (ring 0x10000000 0x10010) ∧ ¬ok (ring 0x100F1000 0x10010) ∧ ok (ring 0 0) ∧ MayDebug (ring 0x10000000 0x10010) 0 ∧ (((ring 0 0).mach.ctx 0).st ≠ .free ∧ ((ring 0 0).mach.ctx 0).st ≠ .dead)
    ∧ (let gone := { ring 0 0 with mach := (ring 0 0).mach.modCtx 0 fun x => { x with st := .dead } }; MayDebug gone 0 ∧ (gone.mach.ctx 0).st = .dead)
    ∧ ¬(3 ≤ (2 : Nat)) ∧ ((run.mach.ctx 0).wl.on = false) ∧ 65 % 64 ≠ 0
    ∧ (1 : W64).toNat < 2 ∧ 2 ≤ (2 : W64).toNat ∧ Debugs waits 0 (some 0) (inst waits) ∧ waits.mach.residentOf 0 = [0] ∧ (inst waits).v.st.wait = none ∧ (inst waits).m.st.wait = none
    ∧ (inst waits).x.st.wait = none ∧ (inst waits).s.st.wait = some ⟨.token .V, 3, .waitk 0⟩ ∧ (inst run).s.st.wait = none
    ∧ (run.mach.fn 0).attArg.toNat % 64 = 0 ∧ run.mach.inWindow 0 (run.mach.fn 0).winSpace (run.mach.fn 0).attArg.toNat 1024 = true
    ∧ ({ run.pwr with meas := [5, 6, 7] } : Power).meas.length = 3 := by
  refine ⟨debugs_of ?_, ?_, ?_, ?_, ?_, ?_, ?_, ?_, ?_, may_of ?_, ?_, ⟨may_of ?_, ?_⟩, ?_, ?_, ?_, ?_, ?_, debugs_of ?_, ?_, ?_, ?_, ?_, ?_, ?_, ?_, ?_, ?_⟩
  all_goals decide +kernel

/-- A pseudo-channel in each state, rows of which one has been counted before and which are and are not throttled, a bank
that is blocked, a request that is held, and each threshold of a temperature. -/
theorem wit_MemoryStacks :
    let e : HotRow := ⟨29 + 384, 2, 2046⟩
    let x := fun (c : Chan) => ({ chans := [(5, {}), (29, c)], rows := [e, ⟨29, 2, 7⟩], throttled := [⟨5, 6, 2, 0⟩] } : Stack)
    let r : DramReq := { line := 413, bank := 1, row := 2, write := false, who := .host, ecc := .corrected }
    let blocked := { x {} with blocks := [⟨413, 100, false⟩], held := [r] }
    let paired : State := { W with mach := { W.mach with hbm := vset W.mach.hbm 3 { blocks := [⟨413, W.mach.cycle, false⟩] } } }
    W.pwr.st = .active ∧ W.pwr.st ≠ .off ∧ 105 ≤ 105 ∧ 105 < 106 ∧ 413 % 384 = (29 : Fin 384).val ∧ ((x {}).chan 29).st = .active ∧ e ∈ (x {}).rows ∧ e.bank = 29 + 384 * 1 ∧ e.count + 1 < 2048
    ∧ (∀ r ∈ (x {}).rows, r.bank = e.bank ∧ r.row = 2 → r = e) ∧ (∀ q ∈ (x {}).throttled, ¬(q.bank = e.bank ∧ q.row = 2))
    ∧ ((∀ r ∈ (x {}).rows, r.bank ≠ 413 ∨ r.row ≠ 3) ∧ ((x {}).rows.filter fun r => r.bank == 413).length < 32)
    ∧ ({ e with count := 2047 } : HotRow).count + 1 = 2048
    ∧ (∃ b ∈ blocked.blocks, b.bank = 413 ∧ 99 < b.upto) ∧ (∃ q ∈ blocked.held, q.bankOf = 413 ∧ q.row = 2) ∧ blocked.held.any (fun r => r.line % 384 == 29) = true
    ∧ ((paired.mach.hbm.get 3).held = [] ∧ (paired.mach.hbm.get 3).blocks = [⟨413, paired.mach.cycle, false⟩])
    ∧ ((x { st := .selfRefresh }).chan 29).st = .selfRefresh ∧ (x {}).held.any (fun r => r.line % 384 == 29) = false
    ∧ ((x { st := .exiting }).chan 29).st = .exiting ∧ ((x { st := .exiting }).chan 29).held = [] ∧ 6 * 4096 ≤ 5 * (4916 - ((x {}).chan 29).timer)
    ∧ (x {}).ue = false ∧ 3 * 2 ^ 30 + 413 ∉ W.mach.poison
    ∧ (({ W with pwr.st := .halted } : State).pwr.st = .halted ∧ ({ W with pwr.st := .booting } : State).pwr.st = .booting ∧ ({ W with pwr.st := .off } : State).pwr.st = .off) := by
  repeat' refine And.intro ?_ ?_
  all_goals first
    | decide +kernel | exact ⟨⟨413, 100, false⟩, by decide⟩
    | exact ⟨{ line := 413, bank := 1, row := 2, write := false, who := .host, ecc := .corrected }, by decide +kernel⟩

/-- A resident core and an empty one, slacks and offsets at their limits, a queue that may and that may not be moved, command
words, one of them of a KEYLOAD with a reserved bit, and debug words while a command is in progress. -/
theorem wit_HealthAndRegisters :
    let h : Health := { least := some 11, voff := 30 }
    let build : W64 := 0x101
    let dbg := debugged id 1 0
    (W.mach.core 0).resident = true ∧ (W.mach.core 3).resident = false ∧ h.least ≠ none ∧ 11 < 12 ∧ h.voff = 30 ∧ ({ h with voff := 29 } : Health).voff ≠ 30
    ∧ 30 < 31 ∧ ({ h with above := 14 } : Health).above < 15 ∧ 15 ≤ ({ h with above := 15 } : Health).above ∧ 12 ≤ 30
    ∧ (W.pwr.st ≠ .off ∧ W.pwr.st ≠ .locked) ∧ (W.mach.queue 0 2).st = .unconfigured ∧ ({ Q0 with st := .armed } : Queue).st ≠ .unconfigured
    ∧ ({ Q0 with st := .armed } : Queue).st ≠ .quiesced ∧ (W.mach.fn 0).ctxBusy = false ∧ build.toNat % 256 = 1 ∧ build.toNat < 2 ^ 18
    ∧ ((0x40103 : W64).toNat % 256 = 3 ∧ 2 ^ 18 ≤ (0x40103 : W64).toNat) ∧ (0x4000000000000000 : W64).toNat / 2 ^ 62 = 1
    ∧ (dbg.mach.fn 0).dbgBusy = true ∧ (dbg.mach.fn 0).dbgArg ≠ 0 ∧ dbg.mach.dbgInst 0 = some (inst dbg) ∧ (inst dbg).dbg.stepping = none := by
  repeat' refine And.intro ?_ ?_
  all_goals decide +kernel

/-! ## Tags, keys, checksums and reductions -/

/-- The tags of a context's own eight first, and then the shared ones. -/
theorem wit_RequestTags :
    let own : List PgReq := (List.range 8).map fun k => ⟨40 + k, 5, 0x4000, false⟩
    freeTag [] 5 = some 40 ∧ freeTag (own.take 7) 5 = some 47 ∧ freeTag own 5 = some 2048 := by decide +kernel

/-- R388, R389: the keys of the cells of a 2 × 2 curve and of the cell (1, 2). -/
theorem test_keys :
    [[0, 0], [1, 0], [1, 1], [0, 1]].map (fun x => hilbertKey x 2) = [0, 1, 2, 3] ∧ hilbertKey [1, 2] 2 = 7 ∧ mortonKey [1, 2] 2 = 9 := by
  decide +kernel

/-- R387, R389: with LO 0, HI 10 and 4 bits, the multiplier is 0x3FCCCCCD, 6.25 is in cell 10 and 10 in cell 15. -/
theorem test_quantisation :
    let m := (multiplier 4 (ofFp32 0) (ofFp32 0x41200000)).1
    m = ofFp32 0x3FCCCCCD ∧ (quantise 4 (ofFp32 0) m (ofFp32 0x40C80000)).1 = 10 ∧ (quantise 4 (ofFp32 0) m (ofFp32 0x41200000)).1 = 15 := by
  decide +kernel

/-- R293: the CRC of the characters 1 to 9. -/
theorem test_crc : crc64 ((List.range 9).map fun k => BitVec.ofNat 8 (0x31 + k)) = 0x6C40DF5F0B497347 := by decide +kernel

/-- R368: 1 and 2 are reduced to 3. -/
theorem test_reduction : (reduceOne 0 1 [0x3F800000, 0x40000000]).1 = 0x40400000 ∧ (reduceOne 3 2 [2 ^ 64 - 1, 3]).1 = 2
    ∧ (reduceOne 0 1 [0x3F800000, 0x7FC00001]).2.2 = true := by decide +kernel

end Sys2Proof.Tests
end

section
/-! Which step of the agenda is taken, and what a fetch gives (R7, R31–R36). -/

namespace Sys2Proof.Machine
open Sys2Proof Sys2Proof.Claims

/-! ## The order of the agenda -/

theorem goesBefore_irrefl (x : Instr) : goesBefore x x = false := by
  simp only [goesBefore, lt_irrefl, decide_false, Bool.false_or]
  split
  · next p q h => cases h; simp
  · rfl

theorem firstStep_append (a : Instr) (l l' : List Instr) : firstStep a (l ++ l') = firstStep (firstStep a l) l' :=
  List.foldl_append

/-- The first step stays the first where no later one goes before it. -/
theorem firstStep_of_none_before {a : Instr} {l : List Instr} (h : ∀ x ∈ l, goesBefore x a = false) : firstStep a l = a := by
  induction l with
  | nil => rfl
  | cons y t ih =>
    have hy := h y (List.mem_cons_self ..)
    have ht := ih fun x hx => h x (List.mem_cons_of_mem _ hx)
    simpa [firstStep, hy] using ht

theorem firstStep_mem (a : Instr) (l : List Instr) : firstStep a l ∈ a :: l := by
  induction l generalizing a with
  | nil => exact List.mem_cons_self ..
  | cons y t ih =>
    have hm : firstStep (if goesBefore y a then y else a) t ∈ _ := ih _
    show firstStep (if goesBefore y a then y else a) t ∈ a :: y :: t
    rcases List.mem_cons.1 hm with h | h
    · rw [h]; split <;> simp
    · simp [h]

/-- The step taken from an agenda: the one that goes before all that are older, and that none which is younger goes
before. -/
theorem Mach.nextStep_of_first (m : Mach) {before after : List Instr} {i : Instr} (h : m.agenda = before ++ i :: after)
    (hb : ∀ x ∈ before, goesBefore i x = true) (ha : ∀ x ∈ after, goesBefore x i = false) :
    m.nextStep = some (i, { m with agenda := before ++ after }) := by
  have hlast := firstStep_of_none_before ha
  cases before with
  | nil => simp only [List.nil_append] at h; simp [Mach.nextStep, h, hlast]
  | cons b t =>
    have hbest : goesBefore i (firstStep b t) = true := hb _ (firstStep_mem b t)
    have hfirst : firstStep b (t ++ i :: after) = i := by
      have hcons : ∀ a, firstStep a (i :: after) = firstStep (if goesBefore i a then i else a) after := fun _ => rfl
      rw [firstStep_append, hcons, if_pos hbest, hlast]
    have hnot : i ∉ b :: t := fun hi => by simpa [goesBefore_irrefl] using hb i hi
    have herase : (b :: (t ++ i :: after)).erase i = b :: (t ++ after) := by
      rw [← List.cons_append, List.erase_append_right _ hnot, List.erase_cons_head, List.cons_append]
    simp only [List.cons_append] at h
    simp only [Mach.nextStep, h, hfirst, herase, List.cons_append]

/-! ## The turn of a stream -/

/-- What a stream does with the outcome of its fetch (R35, R36). -/
def State.afterFetch (s : State) (e : Eng) : Except Stop Nat × Mach → Out
  | (.error (.trap k v), m) => exec (.trapEntry s.mach.cur e k ((inst s).stream e).pc v) { s with mach := m }
  | (.error (.park k v), m) => s.to (m.takeTrap s.mach.cur e k ((inst s).stream e).pc v .word true)
  | (.error (.wait _), m) => s.to m
  | (.ok w, m) =>
    match decode e w with
    | .error _ => exec (.trapEntry s.mach.cur e .illegal ((inst s).stream e).pc (illegalVal e w)) { s with mach := m }
    | .ok i => exec i { s with mach := m }

/-- With an empty agenda the stream whose turn it is fetches, and a cycle passes. -/
theorem step_of_streamTurn {s t : State} {e : Eng} (hagenda : s.mach.agenda = []) (hruns : s.pwr.st.running = true)
    (hagent : s.mach.agent = .stream e) (hready : s.mach.agentReady s.mach.cur (.stream e) = true)
    (hwait : ((inst s).stream e).wait = none) (ht : s.afterFetch e ((fetchWord s.mach.cur e).go s.mach) = .next t) :
    step s = .next t.tick := by
  have hturn : s.turn = s.afterFetch e ((fetchWord s.mach.cur e).go s.mach) := by
    have hw : ((s.mach.inst s.mach.cur).stream e).wait = none := hwait
    simp only [State.turn, hagent, hready, State.streamTurn, hw]
    simp only [Bool.not_true, Bool.false_eq_true, if_false]
    generalize (fetchWord s.mach.cur e).go s.mach = r
    obtain ⟨r | r, m⟩ := r
    · cases r <;> rfl
    · simp only [State.afterFetch]; cases decode e r <;> rfl
  simp [step, Mach.nextStep, hagenda, hruns, hturn, ht]

/-! ## What a fetch gives (R32) -/

/-- The program counter of a stream stands in the stream's own section (R32). -/
def Inst.inSection (i : Inst) (e : Eng) : Prop :=
  (i.id.secBase.get (Fin.ofNat 4 (engCode e))).toNat ≤ (i.stream e).pc.toNat
    ∧ (i.stream e).pc.toNat
        < (i.id.secBase.get (Fin.ofNat 4 (engCode e))).toNat + 4 * i.id.secLen.get (Fin.ofNat 4 (engCode e))

/-- The page that the program counter of a stream lies in, by the tables of its context. -/
def Mach.fetchPage (m : Mach) (c : CoreId) (e : Eng) : Option Page :=
  m.walk (m.inst c).id.ctx.val ((m.inst c).stream e).pc.toNat

/-- The fetch of a word traps PROTECTION with the program counter. -/
def Mach.fetchDenied (m : Mach) (c : CoreId) (e : Eng) : Prop :=
  (fetchWord c e).go m = (.error (.trap .protection ((m.inst c).stream e).pc), m)

section
variable {m : Mach} {c : CoreId} {e : Eng} {p : Page}

theorem fetchDenied_outside (h : ¬(m.inst c).inSection e) : m.fetchDenied c e := by
  unfold Inst.inSection at h
  simp [Mach.fetchDenied, fetchWord, Run.go_bind, Run.go_require, h, -Fin.ofNat_eq_cast]

theorem fetchDenied_unmapped (h : (m.inst c).inSection e) (hp : m.fetchPage c e = none) : m.fetchDenied c e := by
  unfold Inst.inSection at h
  unfold Mach.fetchPage at hp
  simp [Mach.fetchDenied, fetchWord, Run.go_bind, h, hp, -Fin.ofNat_eq_cast]

theorem fetchDenied_not_executable (h : (m.inst c).inSection e) (hp : m.fetchPage c e = some p) (hx : p.x = false) :
    m.fetchDenied c e := by
  unfold Inst.inSection at h
  unfold Mach.fetchPage at hp
  simp [Mach.fetchDenied, fetchWord, Run.go_bind, Run.go_require, h, hp, hx, -Fin.ofNat_eq_cast]

theorem fetchDenied_not_resident (h : (m.inst c).inSection e) (hp : m.fetchPage c e = some p) (hx : p.x = true)
    (harr : ¬(p.mode = 3 ∨ m.moving p = true)) (hr : p.p = false) : m.fetchDenied c e := by
  unfold Inst.inSection at h
  unfold Mach.fetchPage at hp
  simp [Mach.fetchDenied, fetchWord, Run.go_bind, Run.go_require, h, hp, hx, harr, hr, -Fin.ofNat_eq_cast]

/-- A count below the threshold is kept, and nothing else happens (R334). -/
theorem countOne_below {w : Staller} {tv : Nat} (h : (m.countRequest (dieOf c) p).1 = false) :
    (countOne c p w tv).go m = (.ok (), (m.countRequest (dieOf c) p).2) := by
  simp [countOne, Run.go_bind, h]

/-- The machine after a fetch from a page that is there: a COUNT page has counted it (R334). -/
def Mach.fetched (m : Mach) (c : CoreId) (p : Page) : Mach := if p.mode = 2 then (m.countRequest (dieOf c) p).2 else m

/-- Counting a request touches the die's counters alone. -/
theorem Mach.countRequest_snd (m : Mach) (d : DieId) (p : Page) : (m.countRequest d p).2 =
    m.setDie d { m.die d with counters := (countPage (m.die d).counters p.asid p.base 1).1 } := rfl

@[simp] theorem Mach.setDie_pageKey (m : Mach) (d : DieId) (x : Die) (p : Page) (va : Nat) :
    (m.setDie d x).pageKey p va = m.pageKey p va := rfl

@[simp] theorem Mach.setDie_bytes (m : Mach) (d : DieId) (x : Die) (k n : Nat) :
    (m.setDie d x).bytes k n = m.bytes k n := rfl

/-- The word of a page that is there and executable (R32). -/
theorem fetchWord_ok (h : (m.inst c).inSection e) (hp : m.fetchPage c e = some p) (hx : p.x = true)
    (harr : ¬(p.mode = 3 ∨ m.moving p = true)) (hr : p.p = true)
    (hway : m.pageWay (dieOf c) p ((m.inst c).stream e).pc.toNat = true)
    (hcount : p.mode = 2 → (m.countRequest (dieOf c) p).1 = false)
    (hpoison : m.pageKey p ((m.inst c).stream e).pc.toNat / 64 ∉ m.poison) :
    (fetchWord c e).go m =
      (.ok (leNat (m.bytes (m.pageKey p ((m.inst c).stream e).pc.toNat) 4)), m.fetched c p) := by
  unfold Inst.inSection at h
  unfold Mach.fetchPage at hp
  have hstill : p.mode ≠ 3 ∧ m.moving p = false := by simpa [not_or] using harr
  by_cases h2 : p.mode = 2
  · simp only [fetchWord, Run.go_bind, Run.go_get, Run.go_require, h, hp, hx, hr, hway, hstill, h2]
    simp [Run.go_bind, countOne_below (hcount h2), Mach.fetched, h2, Mach.countRequest_snd, hpoison]
  · simp [fetchWord, Run.go_bind, h, hp, hx, hstill, hr, hway, hpoison, -Fin.ofNat_eq_cast, Mach.fetched, h2]

/-- No page is being moved whose peer was not reached: an access that stalls on an arriving page waits (R334, R335). -/
theorem Mach.stall_fst_of_not_dead (m : Mach) (p : Page) (w : Staller) (h : ∀ v ∈ m.moves, v.dead = []) :
    (m.stall p w).1 = false := by
  simp only [Mach.stall, List.any_eq_false, Bool.and_eq_true, not_and]
  intro v hv _
  simp [h v hv]

theorem Mach.stall_snd (m : Mach) (p : Page) (w : Staller) : (m.stall p w).2 = { m with moves := (m.stall p w).2.moves } :=
  rfl

/-- A fetch from a page that is being moved waits for it (R32, R334). -/
theorem fetchWord_arriving (h : (m.inst c).inSection e) (hp : m.fetchPage c e = some p) (hx : p.x = true)
    (hmode : p.mode < 3) (hmoves : m.moving p = true) (hdead : ∀ v ∈ m.moves, v.dead = []) :
    (fetchWord c e).go m = (.error (.wait (.retry 10 p.base)), (m.stall p (.fetch c e)).2) := by
  unfold Inst.inSection at h
  unfold Mach.fetchPage at hp
  have hstall := m.stall_fst_of_not_dead p (.fetch c e) hdead
  simp [fetchWord, stallOn, Run.go_bind, h, hp, hx, hmoves, hstall, hmode.ne, -Fin.ofNat_eq_cast]

end

end Sys2Proof.Machine

namespace Sys2Proof
open Sys2Proof.Machine Sys2Proof.Claims

/-- Settles O11: the agenda by the order of its steps, the turn of a stream by what its fetch gives. -/
theorem stepRunsDecoded : Obligations.StepRunsDecoded := by
  intro s e p i t c st k base pc inside w found arrives counted fetched then' denied
  refine ⟨fun before after h hb ha => ?_, fun hagenda hruns hagent hready hwait => ?_⟩
  · simp only [step, s.mach.nextStep_of_first h hb ha]
  have hturn : ∀ {t}, s.afterFetch e ((fetchWord c e).go s.mach) = .next t → step s = .next t.tick :=
    step_of_streamTurn hagenda hruns hagent hready hwait
  have hdenied : s.mach.fetchDenied c e → denied := fun hd ht => hturn (by rw [hd]; exact ht)
  refine ⟨fun hin hp hx harr hr hway hcount hpoison => ?_, fun hin => hdenied (fetchDenied_outside hin),
    fun hin hp => hdenied (fetchDenied_unmapped hin hp),
    fun hin hp hx => hdenied (fetchDenied_not_executable hin hp hx),
    fun hin hp hx harr hr => hdenied (fetchDenied_not_resident hin hp hx harr hr),
    fun hin hp hx hmode hmoves hdead => ?_⟩
  · have hw : (fetchWord c e).go s.mach = (.ok w, fetched) := fetchWord_ok hin hp hx harr hr hway hcount hpoison
    refine ⟨fun hd ht => hturn ?_, fun r hd ht => hturn ?_⟩
    · simp only [hw, State.afterFetch, hd]; exact ht
    · simp only [hw, State.afterFetch, hd]; exact ht
  · refine ⟨(s.mach.stall p (.fetch c e)).2, hturn ?_, s.mach.stall_snd p _⟩
    rw [fetchWord_arriving hin hp hx hmode hmoves hdead]; rfl

end Sys2Proof
end

section
/-! How a word of S ends, in the words of the statements: it passes, gives a result, traps or waits. -/

namespace Sys2Proof.Machine
open Sys2Proof Sys2Proof.Claims

/-! ## The program of the core whose turn it is -/

@[simp] theorem withInst_inst (s : State) (j : Inst) : (withInst s j).inst s.mach.cur = j := Mach.setInst_inst ..

theorem withInst_self (s : State) : withInst s (inst s) = s.mach := Mach.setInst_self ..

theorem withInst_setInst (s : State) (j k : Inst) : (withInst s j).setInst s.mach.cur k = withInst s k :=
  Mach.setInst_setInst ..

/-! ## How a word of S ends -/

/-- The core after a completed word of S that goes on to the next one. -/
def Inst.sNext (i : Inst) : Inst := { i.sDone with s := { i.s.advance with checking := false } }

theorem Inst.sNext_worked (i : Inst) : Worked i i.s.advance i.sNext := rfl

section
variable {s : State} {i : Instr} {f : CoreId → Run Flow} {m : Mach}

/-- The state that a completed word of S leaves, where its effect made the machine m. -/
theorem exec_of_fall (hexec : exec i s = s.sRun i f) (hgo : (f s.mach.cur).go s.mach = (.ok .fall, m))
    (hwait : (m.inst s.mach.cur).s.st.wait = none) :
    exec i s =  .next { s with mach := m.setInst s.mach.cur (m.inst s.mach.cur).sNext } := by
  rw [hexec, State.sRun, Mach.sWord_ok _ _ _ _ hgo, Mach.sFlow_of_none _ _ _ hwait]
  rfl

/-- A word whose effect makes m passes on m. -/
theorem passes_of_go (hexec : exec i s = s.sRun i f) (hgo : (f s.mach.cur).go s.mach = (.ok .fall, m))
    (hcur : m.cur = s.mach.cur)
    (hwait : (m.inst s.mach.cur).s.st.wait = none) : Passes s i m := by
  refine ⟨_, exec_of_fall hexec hgo hwait, ?_, ?_⟩
  · simp [inst, hcur]
  · simpa [inst, hcur] using (m.inst s.mach.cur).sNext_worked

/-- A word whose effect makes m and then writes v to s[d] gives v on m. -/
theorem givesOn_of_go {d : Reg} {v : W64} (hexec : exec i s = s.sRun i f)
    (hgo : (f s.mach.cur).go s.mach = (.ok .fall, m.modSeq s.mach.cur fun q => q.put d v))
    (hcur : m.cur = s.mach.cur) (hwait : (m.inst s.mach.cur).s.st.wait = none) : GivesOn s i m d v := by
  refine ⟨_, exec_of_fall hexec hgo (by simpa using hwait), ?_, ?_, ?_⟩
  · simp [inst, hcur, Mach.modSeq_eq, Mach.modInst_eq, Mach.setInst_setInst]
  · simp [inst, hcur, State.seq, Worked, Inst.sNext, Seq.put_advance, Inst.sDone]
  · intro r
    simp [hcur, State.seq, Inst.sNext, Seq.put_regs_get]

theorem traps_of_go {k : Cause} {v : W64} (hexec : exec i s = s.sRun i f)
    (hgo : (f s.mach.cur).go s.mach = (.error (.trap k v), s.mach)) : Traps s i k v := by
  rw [Traps, hexec, State.sRun, Mach.sWord_error _ _ _ _ hgo]
  rfl

/-- A word that waits for a fill waits with no other effect (R347). -/
theorem stalls_of_go {b : Nat} (hfresh : Fresh s) (hexec : exec i s = s.sRun i f)
    (hgo : (f s.mach.cur).go s.mach = (.error (.wait (.fill b)), s.mach)) : Stalls s i s.mach (.fill b) := by
  have hwait : (s.mach.inst s.mach.cur).s.st.wait = none := hfresh
  rw [Stalls, hexec, State.sRun, Mach.sWord_error _ _ _ _ hgo]
  simp [Mach.sStop, Mach.beginWait, Claims.waiting, State.to, Mach.modInst_eq, Inst.modStream, Inst.setStream, Inst.stream, hwait]

end

end Sys2Proof.Machine
end

section
/-! The user CSRs: which values each takes, what a read gives, and what a write leaves (R45, R142, Table 2.6). -/

namespace Sys2Proof.Machine
open Sys2Proof Sys2Proof.Claims

/-! ## Fields and masks -/

/-- A field of a number is zero where the number has no bit in common with the field's mask. -/
theorem and_fieldMask (x lo n : Nat) : x &&& ((2 ^ n - 1) * 2 ^ lo) = fld x lo n * 2 ^ lo := by
  apply Nat.eq_of_testBit_eq
  intro k
  simp only [fld, Nat.testBit_and, Nat.testBit_mul_two_pow, Nat.testBit_mod_two_pow, Nat.testBit_div_two_pow,
    Nat.testBit_two_pow_sub_one]
  by_cases h : lo ≤ k
  · simp [h, Bool.and_comm]
  · simp [h]

/-- A word has no bit of a mask where the mask's field in it is zero. -/
theorem and_eq_zero_iff_fld {v M : W64} (lo n : Nat) (hM : M.toNat = (2 ^ n - 1) * 2 ^ lo) :
    v &&& M = 0 ↔ fld v.toNat lo n = 0 := by
  rw [← BitVec.toNat_inj, BitVec.toNat_and, hM, and_fieldMask]
  simp

/-- A word has no bit of two masks together where it has none of either. -/
theorem and_or_eq_zero_iff (v A B : W64) : v &&& (A ||| B) = 0 ↔ v &&& A = 0 ∧ v &&& B = 0 := by
  rw [BitVec.and_or_distrib_left]
  exact BitVec.or_eq_zero_iff

/-! ## The values that a CSR takes -/

theorem csrWritable_iff (n : BitVec 12) : csrWritable n.toNat = true ↔ n ∈ ([0x001, 0x002, 0x003, 0x010, 0x030, 0x031,
    0x038, 0x039, 0x03A, 0x03B, 0x070, 0x071, 0x072, 0x073, 0x074, 0x080, 0x081] : List (BitVec 12)) := by
  simp only [csrWritable, List.contains_eq_mem, decide_eq_true_eq, List.mem_cons, List.not_mem_nil, ← BitVec.toNat_inj]
  rfl

section
variable (v : W64)

theorem flags_takes : csrTakes 0x001 v ↔ csrAccepts 0x001 v.toNat = true := by
  have hmask : v &&& 0xFFFFFFFFFFFFC0C0#64 = 0#64 ↔ fld v.toNat 6 2 = 0 ∧ fld v.toNat 14 50 = 0 := by
    rw [← and_eq_zero_iff_fld 6 2 (M := 0xC0) rfl, ← and_eq_zero_iff_fld 14 50 (M := 0xFFFFFFFFFFFFC000) rfl,
      ← and_or_eq_zero_iff]
    rfl
  simp [csrTakes, csrAccepts, hmask]

theorem rmode_takes : csrTakes 0x002 v ↔ csrAccepts 0x002 v.toNat = true := by
  have hmask : v &&& 0xFFFFFFF8#64 = 0#64 ↔ fld v.toNat 3 29 = 0 := and_eq_zero_iff_fld 3 29 rfl
  simp [csrTakes, csrAccepts, hmask, BitVec.le_def, fld]

theorem trap_takes : csrTakes 0x071 v ↔ csrAccepts 0x071 v.toNat = true := by
  have hmask : v &&& 0xFFFFFFFF9001FC00#64 = 0#64 ↔ fld v.toNat 10 7 = 0 ∧ fld v.toNat 31 33 = 0 ∧ fld v.toNat 28 1 = 0 := by
    rw [← and_eq_zero_iff_fld 10 7 (M := 0x1FC00) rfl, ← and_eq_zero_iff_fld 31 33 (M := 0xFFFFFFFF80000000) rfl,
      ← and_eq_zero_iff_fld 28 1 (M := 0x10000000) rfl, ← and_or_eq_zero_iff, ← and_or_eq_zero_iff]
    rfl
  have hbit : v.toNat.testBit 28 = false ↔ fld v.toNat 28 1 = 0 := by
    simp [Nat.testBit_eq_decide_div_mod_eq, fld]
  simp [csrTakes, csrAccepts, hmask, hbit, and_assoc]

theorem scale_takes : csrTakes 0x080 v ↔ csrAccepts 0x080 v.toNat = true := by
  have hsign : (v.extractLsb' 0 57).signExtend 64 = v ↔ fld v.toNat 57 7 = if v.toNat.testBit 56 then 127 else 0 := by
    have hmsb : (v.extractLsb' 0 57).msb = v.toNat.testBit 56 := by
      rw [BitVec.msb_eq_getLsbD_last, BitVec.getLsbD_extractLsb']
      rfl
    rw [← BitVec.toNat_inj, BitVec.toNat_signExtend, hmsb]
    have := v.isLt
    simp [fld]
    split <;> omega
  simp [csrTakes, csrAccepts, hsign, ← BitVec.toNat_inj, fld]

/-- A CSR whose value is bounded alone takes what fits its field. -/
theorem fld_eq_zero_iff_lt (lo n : Nat) (h : lo + n = 64) : fld v.toNat lo n = 0 ↔ v.toNat < 2 ^ lo := by
  have hv : v.toNat < 2 ^ lo * 2 ^ n := by rw [← Nat.pow_add, h]; exact v.isLt
  rw [fld, Nat.mod_eq_of_lt (Nat.div_lt_of_lt_mul hv), Nat.div_eq_zero_iff]
  simp

end

theorem csrWritable_of_takes {n : BitVec 12} {v : W64} (h : csrTakes n v) : csrWritable n.toNat = true := by
  rw [csrWritable_iff]
  simp only [csrTakes, List.mem_cons, List.not_mem_nil, or_false] at h ⊢
  tauto

/-- A CSR takes the values that the model's checks of a write accept (R142). -/
theorem csrTakes_iff (n : BitVec 12) (v : W64) :
    csrTakes n v ↔ csrWritable n.toNat = true ∧ csrAccepts n.toNat v.toNat = true := by
  by_cases hn : csrWritable n.toNat = true
  · simp only [hn, true_and]
    have hl := (csrWritable_iff n).1 hn
    simp only [List.mem_cons, List.not_mem_nil, or_false] at hl
    have hlow : fld v.toNat 0 2 = v.toNat % 4 := by simp [fld]
    rcases hl with rfl | rfl | rfl | rfl | rfl | rfl | rfl | rfl | rfl | rfl | rfl | rfl | rfl | rfl | rfl | rfl | rfl
    case inl => exact flags_takes v
    case inr.inl => exact rmode_takes v
    case inr.inr.inr.inr.inr.inr.inr.inr.inr.inr.inr.inl => exact trap_takes v
    case inr.inr.inr.inr.inr.inr.inr.inr.inr.inr.inr.inr.inr.inr.inr.inl => exact scale_takes v
    all_goals
      simp [csrTakes, csrAccepts, BitVec.lt_def, BitVec.le_def, ← BitVec.toNat_inj, fld_eq_zero_iff_lt v, hlow]
      try omega
  · exact ⟨fun h => absurd (csrWritable_of_takes h) hn, fun h => absurd h.1 hn⟩

/-! ## Reads -/

theorem csrOf_self (s : State) (n : BitVec 12) : csrOf s (inst s) n = s.mach.csrRead s.mach.cur n.toNat := by
  rw [csrOf, withInst_self]

/-- The counters of the transfer unit are CSRs of Table 2.6. -/
theorem mem_csrNumbers_of_counter {n : BitVec 12} (h : 0x40 ≤ n.toNat ∧ n.toNat ≤ 0x4F) : n ∈ csrNumbers := by
  have hall : ∀ k : Fin 16, BitVec.ofNat 12 (0x40 + k.val) ∈ csrNumbers := by decide
  have hn : n = BitVec.ofNat 12 (0x40 + (n.toNat - 0x40)) := by
    rw [Nat.add_sub_cancel' h.1, BitVec.ofNat_toNat, BitVec.setWidth_eq]
  rw [hn]
  exact hall ⟨n.toNat - 0x40, by omega⟩

/-- The numbers that a read knows are those of Table 2.6. -/
theorem Mach.csrRead_of_not_mem (m : Mach) (c : CoreId) {n : BitVec 12} (h : n ∉ csrNumbers) :
    m.csrRead c n.toNat = none := by
  have hcounter : ¬(0x40 ≤ n.toNat ∧ n.toNat ≤ 0x4F) := fun hn => h (mem_csrNumbers_of_counter hn)
  have hnat : n.toNat ∉ csrNumbers.map BitVec.toNat := fun hn => by
    obtain ⟨k, hk, e⟩ := List.mem_map.1 hn
    exact h (BitVec.eq_of_toNat_eq e ▸ hk)
  unfold Mach.csrRead
  split
  case h_28 =>
    have hdone : ¬(64 ≤ n.toNat ∧ n.toNat ≤ 71) := fun hn => hcounter ⟨hn.1, by omega⟩
    have hissue : ¬(72 ≤ n.toNat ∧ n.toNat ≤ 79) := fun hn => hcounter ⟨by omega, hn.2⟩
    simp [hdone, hissue]
  all_goals next hk => exact absurd (hk ▸ by decide) hnat

/-! ## What a write leaves -/

/-- A write of a CSR other than FLAGS sets the fields of that CSR, and those of no other. -/
def Seq.csrPut (q : Seq) (n v : Nat) : Seq :=
  { q with
    rmode := if n = 0x002 then BitVec.ofNat 3 v else q.rmode
    seed := if n = 0x002 then BitVec.ofNat 32 (v / 2 ^ 32) else q.seed
    stsat := if n = 0x003 then v.testBit 0 else q.stsat
    arsat := if n = 0x003 then v.testBit 1 else q.arsat
    spinLimit := if n = 0x010 then BitVec.ofNat 16 v else q.spinLimit
    lstages := if n = 0x030 then BitVec.ofNat 4 v else q.lstages
    rrb := if n = 0x031 then BitVec.ofNat 4 v else q.rrb
    loops :=
      if n = 0x038 ∨ n = 0x039 ∨ n = 0x03A ∨ n = 0x03B then
        vset q.loops (Fin.ofNat 4 (n - 0x038)) { q.loops.get (Fin.ofNat 4 (n - 0x038)) with lcnt := BitVec.ofNat 40 v }
      else q.loops
    tvec := if n = 0x070 then BitVec.ofNat 64 v else q.tvec
    tcode := if n = 0x071 then BitVec.ofNat 8 v else q.tcode
    tstrm := if n = 0x071 then BitVec.ofNat 2 (v / 2 ^ 8) else q.tstrm
    ten := if n = 0x071 then BitVec.ofNat 14 (v / 2 ^ 17) else q.ten
    tpc := if n = 0x072 then BitVec.ofNat 64 v else q.tpc
    tval := if n = 0x073 then BitVec.ofNat 64 v else q.tval
    rcol := if n = 0x074 then BitVec.ofNat 6 v else q.rcol
    rrow := if n = 0x074 then BitVec.ofNat 6 (v / 2 ^ 6) else q.rrow
    rstrm := if n = 0x074 then BitVec.ofNat 2 (v / 2 ^ 12) else q.rstrm
    rvalid := if n = 0x074 then v.testBit 14 else q.rvalid
    snr := if n = 0x074 then v.testBit 15 else q.snr
    scaleOff := if n = 0x080 then BitVec.ofNat 64 v else q.scaleOff
    prefetch := if n = 0x081 then BitVec.ofNat 21 v else q.prefetch }

/-- A write of a CSR changes the sequencer, and, for RMODE, the generators (R72). -/
theorem Inst.csrPut_eq (i : Inst) (n v : Nat) : i.csrPut n v = { i with
    s := i.s.csrPut n v
    gens := if n = 0x002 then seedAll (BitVec.ofNat 32 (v / 2 ^ 32)) else i.gens } := by
  unfold Inst.csrPut
  split
  case h_17 => simp_all [Seq.csrPut]
  all_goals rfl

@[simp] theorem Inst.csrPut_s (i : Inst) (n v : Nat) : (i.csrPut n v).s = i.s.csrPut n v := by rw [Inst.csrPut_eq]
@[simp] theorem Inst.csrPut_id (i : Inst) (n v : Nat) : (i.csrPut n v).id = i.id := by rw [Inst.csrPut_eq]
@[simp] theorem Inst.csrPut_x (i : Inst) (n v : Nat) : (i.csrPut n v).x = i.x := by rw [Inst.csrPut_eq]
@[simp] theorem Inst.csrPut_flagsWord (i : Inst) (n v : Nat) : (i.csrPut n v).flagsWord = i.flagsWord := by
  rw [Inst.csrPut_eq]; rfl

theorem map_vset {α β : Type} {n : Nat} (f : α → β) (v : Vector α n) (k : Fin n) (x : α) :
    (vset v k x).map f = vset (v.map f) k (f x) := by
  simp [vset]

/-- What no CSR but FLAGS holds is left by a write. -/
theorem noCsr_csrPut (q : Seq) (n v : Nat) : noCsr (q.csrPut n v) = noCsr q := by
  have h : (q.csrPut n v).loops.map (fun l => { l with lcnt := 0 }) = q.loops.map fun l => { l with lcnt := 0 } := by
    simp only [Seq.csrPut]
    split
    · rw [map_vset]
      exact (congrArg _ (by simp [Vector.get_eq_getElem])).trans (vset_self _ (Fin.ofNat 4 (n - 0x038)))
    · rfl
  simp only [noCsr, h]
  rfl

/-- A write looks at no register. -/
theorem Seq.csrPut_with_regs (q : Seq) (n v : Nat) (r : Vector W64 32) :
    { q with regs := r }.csrPut n v = { q.csrPut n v with regs := r } := rfl

theorem seedAll_get (seed : W32) (k : Fin 11) : (seedAll seed).get k = seedState seed k.val := by
  simp [seedAll, Vector.get_eq_getElem]

/-- The counters of the loops are CSRs of their own. -/
theorem Seq.csrPut_lcnt (q : Seq) (n v : Nat) (k : Fin 4) :
    ((q.csrPut n v).loops.get k).lcnt = if n = 0x038 + k.val then BitVec.ofNat 40 v else (q.loops.get k).lcnt := by
  simp only [Seq.csrPut]
  split
  case isFalse h => rw [if_neg (by omega)]
  case isTrue h =>
    by_cases hk : k = Fin.ofNat 4 (n - 0x038)
    · have hn : n = 0x038 + k.val := by rw [hk, Fin.val_ofNat]; omega
      rw [hk, vset_get_self, if_pos (hk ▸ hn)]
    · have hn : n ≠ 0x038 + k.val := fun e => hk (Fin.ext (by rw [Fin.val_ofNat]; omega))
      rw [vset_get_of_ne _ _ hk, if_neg hn]

/-! ## The penalty of a team -/

/-- Two instances that count alike in the penalty of a team (R299, R303). -/
def SamePenalty (i j : Inst) : Prop := i.id = j.id ∧ i.s.st.ended = j.s.st.ended ∧ penaltyOf i.s = penaltyOf j.s

theorem Mach.teamPenalty_setInst (m : Mach) (c : CoreId) (j : Inst) (h : SamePenalty j (m.inst c)) (l r t : Nat) :
    (m.setInst c j).teamPenalty l r t = m.teamPenalty l r t := by
  have hinst : ∀ d, SamePenalty ((m.setInst c j).inst d) (m.inst d) := by
    intro d
    by_cases hd : d = c
    · subst hd; simpa using h
    · simp [Mach.inst, Mach.setInst_eq, Mach.setCore_core_of_ne _ _ hd, SamePenalty]
  have hres : ∀ d, ((m.setInst c j).core d).resident = (m.core d).resident := by
    intro d
    by_cases hd : d = c
    · subst hd; simp [Mach.setInst_eq]
    · simp [Mach.setInst_eq, Mach.setCore_core_of_ne _ _ hd]
  have hall : List.Forall₂ SamePenalty ((m.setInst c j).teamInsts l r t) (m.teamInsts l r t) := by
    simp only [Mach.teamInsts, hres, Mach.setInst_images]
    refine List.rel_append (List.rel_filter ?_ ?_) (List.forall₂_same.2 fun _ _ => ⟨rfl, rfl, rfl⟩)
    · rintro a b ⟨hid, -, -⟩
      simp only [hid]
    · rw [List.forall₂_map_left_iff, List.forall₂_map_right_iff]
      exact List.forall₂_same.2 fun d _ => hinst d
  refine List.rel_foldl (R := SamePenalty) ?_ rfl (List.rel_filter ?_ hall)
  · rintro p _ rfl a b ⟨-, -, hpen⟩
    simp only [hpen]
  · rintro a b ⟨-, hended, -⟩
    simp only [hended]

/-! ## Reads after a write -/

/-- A write of a CSR leaves what the others read as, but for the penalty, which SPIN_LIMIT changes (R303). -/
theorem Mach.csrRead_csrPut_of_ne (m : Mach) (c : CoreId) {n k : Nat} (v : Nat) (hk : k ≠ n)
    (hpen : k = 0x011 ∨ k = 0x012 → n ≠ 0x010) :
    (m.setInst c ((m.inst c).csrPut n v)).csrRead c k = m.csrRead c k := by
  have hteam : n ≠ 0x010 → ∀ l r t, (m.setInst c ((m.inst c).csrPut n v)).teamPenalty l r t = m.teamPenalty l r t :=
    fun hn => m.teamPenalty_setInst c _ ⟨by simp, by simp [Seq.csrPut], by simp [penaltyOf, Seq.csrPut, hn]⟩
  have hctx : ∀ x, (m.setInst c ((m.inst c).csrPut n v)).ctx x = m.ctx x := fun _ => rfl
  unfold Mach.csrRead
  simp only [Mach.setInst_inst, Mach.setInst_pkg, Mach.setInst_cycle, hctx, Mach.effective, Inst.csrPut_id, Inst.csrPut_x,
    Inst.csrPut_s, Inst.csrPut_flagsWord, Seq.csrPut_lcnt, Seq.restart, penaltyOf]
  split
  case h_6 => rw [hteam (hpen (.inr rfl))]
  all_goals simp (disch := omega) only [Seq.csrPut, if_neg, Fin.isValue, Fin.val_zero, Fin.val_one, Fin.val_two]

/-- A CSR reads what it has taken. -/
theorem Mach.csrRead_csrPut_self (m : Mach) (c : CoreId) {n v : Nat} (hn : n ≠ 0x001) (hw : csrWritable n = true)
    (ha : csrAccepts n v = true) (hv : v < 2 ^ 64) :
    (m.setInst c ((m.inst c).csrPut n v)).csrRead c n = some (BitVec.ofNat 64 v) := by
  have hbit : ∀ k, v.testBit k = decide (v / 2 ^ k % 2 = 1) := fun k => Nat.testBit_eq_decide_div_mod_eq
  have hodd : ∀ x a, (if x % 2 = 1 then a else 0) = x % 2 * a := fun x a => by
    rcases Nat.mod_two_eq_zero_or_one x with h | h <;> simp [h]
  simp only [csrWritable, List.contains_eq_mem, decide_eq_true_eq, List.mem_cons, List.not_mem_nil, or_false] at hw
  rcases hw with rfl | rfl | rfl | rfl | rfl | rfl | rfl | rfl | rfl | rfl | rfl | rfl | rfl | rfl | rfl | rfl | rfl
  case inl => exact absurd rfl hn
  all_goals
    simp only [csrAccepts, fld, Bool.and_eq_true, beq_iff_eq, bne_iff_ne, decide_eq_true_eq, ne_eq] at ha
    simp only [Mach.csrRead, Mach.setInst_inst, Inst.csrPut_s, Seq.csrPut_lcnt, Seq.restart, Option.map_some]
    simp [Seq.csrPut, hbit, hodd]
    congr 1
    omega

/-- A value that a CSR takes is written as the statements say (R142). -/
theorem csrWritten_csrPut {s : State} {n : BitVec 12} {v : W64} (hn : n ≠ 0x001) (h : csrTakes n v) :
    csrWritten s n v ((inst s).csrPut n.toNat v.toNat) := by
  obtain ⟨hw, ha⟩ := (csrTakes_iff n v).1 h
  have hnat : ∀ k : BitVec 12, n.toNat = k.toNat ↔ n = k := fun k => BitVec.toNat_inj
  have h1 : n.toNat ≠ 0x001 := fun e => hn ((hnat 0x001).1 e)
  refine ⟨?_, fun k hk hpen => ?_, ?_, ?_, fun k => ?_⟩
  · have hself := s.mach.csrRead_csrPut_self s.mach.cur h1 hw ha v.isLt
    rwa [BitVec.ofNat_toNat, BitVec.setWidth_eq] at hself
  · rw [csrOf_self]
    refine s.mach.csrRead_csrPut_of_ne s.mach.cur _ (fun e => hk (BitVec.eq_of_toNat_eq e)) fun hk' hn' => hpen ⟨(hnat 0x010).1 hn', ?_⟩
    exact hk'.imp (fun e => BitVec.eq_of_toNat_eq e) fun e => BitVec.eq_of_toNat_eq e
  · rw [Inst.csrPut_s, noCsr_csrPut]; rfl
  · rw [Inst.csrPut_eq]
  · have hseed : BitVec.ofNat 32 (v.toNat / 2 ^ 32) = v.extractLsb' 32 32 := by
      apply BitVec.eq_of_toNat_eq
      simp [Nat.shiftRight_eq_div_pow]
    have h2 : (n.toNat = 0x002) = (n = 0x002) := propext (hnat 0x002)
    simp only [Inst.csrPut_eq, h2, hseed]
    split
    · rw [seedAll_get]
    · rfl

/-! ## The CSR words -/

theorem csrNumbers_lt {n : BitVec 12} (h : n ∈ csrNumbers) : n.toNat < 0x100 := by
  have hall : ∀ k ∈ csrNumbers, k.toNat < 0x100 := by simp [csrNumbers]
  exact hall n h

section
variable {m : Mach} {c : CoreId} {word : Instr} {n : BitVec 12} {old : W64}

theorem mem_csrNumbers_of_read (h : m.csrRead c n.toNat = some old) : n ∈ csrNumbers :=
  by_contra fun hn => by simp [m.csrRead_of_not_mem c hn] at h

theorem csrNumber_privileged (h : 0x100 ≤ n.toNat ∧ n.toNat ≤ 0x3FF) :
    (csrNumber c word n.toNat).go m = (.error (.trap .privilege (BitVec.ofNat 64 (wordOf word))), m) := by
  simp [csrNumber, Run.go_bind, h]

theorem csrNumber_unlisted (h : ¬(0x100 ≤ n.toNat ∧ n.toNat ≤ 0x3FF)) (hn : m.csrRead c n.toNat = none) :
    (csrNumber c word n.toNat).go m = (.error (.trap .illegal (BitVec.ofNat 64 (wordOf word))), m) := by
  simp [csrNumber, Run.go_bind, h, hn]

theorem csrNumber_listed (h : m.csrRead c n.toNat = some old) : (csrNumber c word n.toNat).go m = (.ok old, m) := by
  have := csrNumbers_lt (mem_csrNumbers_of_read h)
  have hp : ¬(0x100 ≤ n.toNat ∧ n.toNat ≤ 0x3FF) := by omega
  simp [csrNumber, Run.go_bind, h, hp]

/-- The value that a CSR word writes (R142). -/
def CsrOp.newValue (op : CsrOp) (old src : W64) : W64 :=
  match op with | .write => src | .set => old ||| src | .clear => old &&& ~~~src

/-- What a CSR word puts in s[d] before it writes. -/
def CsrOp.keepOld (op : CsrOp) (d : Reg) (old : W64) (i : Inst) : Inst :=
  if op = .write then i else { i with s := i.s.put d old }

variable {op : CsrOp} {d a : Reg}

theorem csrChange_rejected (h : m.csrRead c n.toNat = some old) (hr : ¬csrTakes n (op.newValue old ((m.inst c).s.get a))) :
    (csrChange c word op d a n).go m = (.error (.trap .illegal (BitVec.ofNat 64 (wordOf word))), m) := by
  rw [csrTakes_iff] at hr
  by_cases hw : csrWritable n.toNat = true
  · have ha : csrAccepts n.toNat (op.newValue old ((m.inst c).s.get a)).toNat = false := by simpa [hw] using hr
    cases op <;> simp only [CsrOp.newValue] at ha <;>
      simp [csrChange, Run.go_bind, Run.go_require, csrNumber_listed h, hw, ha, -BitVec.toNat_or, -BitVec.toNat_and]
  · simp [csrChange, Run.go_bind, Run.go_require, csrNumber_listed h, hw]

theorem csrChange_taken (h : m.csrRead c n.toNat = some old) (hn : n ≠ 0x001)
    (ht : csrTakes n (op.newValue old ((m.inst c).s.get a))) :
    (csrChange c word op d a n).go m = (.ok .fall,
      m.modInst c fun i => (op.keepOld d old i).csrPut n.toNat (op.newValue old ((m.inst c).s.get a)).toNat) := by
  obtain ⟨hw, ha⟩ := (csrTakes_iff _ _).1 ht
  have h1 : n.toNat ≠ 1 := fun e => hn (BitVec.eq_of_toNat_eq e)
  cases op <;> simp only [CsrOp.newValue] at ha ⊢ <;>
    simp [csrChange, Run.go_bind, csrNumber_listed h, hw, ha, h1, CsrOp.keepOld, -BitVec.toNat_or,
      -BitVec.toNat_and]

/-- A CSR word on a number that it may not name stops before its effect (R45, R142). -/
theorem csrChange_of_number {k : Cause}
    (h : (csrNumber c word n.toNat).go m = (.error (.trap k (BitVec.ofNat 64 (wordOf word))), m)) :
    (csrChange c word op d a n).go m = (.error (.trap k (BitVec.ofNat 64 (wordOf word))), m) :=
  Run.go_bind_error h

end

end Sys2Proof.Machine
end

section
/-! The CSR words, as the statements have them (R142). -/

namespace Sys2Proof.Machine
open Sys2Proof Sys2Proof.Claims

section
variable {s : State} {d a : Reg} {n : BitVec 12} {old : W64}

/-- CSRR of a number that reads gives its value. -/
theorem csrr_gives (hfresh : Fresh s) (h : csrOf s (inst s) n = some old) : Gives s (.csrr d n) d old := by
  rw [csrOf_self] at h
  refine givesOn_of_go (f := fun c => _) rfl ?_ rfl hfresh
  rw [Run.go_bind_ok (csrNumber_listed h)]
  rfl

theorem wordVal_wordOf {i : Instr} (h : (encode i).isSome = true) : wordVal i (BitVec.ofNat 64 (wordOf i)) := by
  obtain ⟨⟨e, w⟩, he⟩ := Option.isSome_iff_exists.1 h
  exact ⟨e, w, he, by simp [wordOf, he]⟩

theorem trapsWord_of_go {i : Instr} {f : CoreId → Run Flow} {k : Cause} (hexec : exec i s = s.sRun i f)
    (henc : (encode i).isSome = true)
    (hgo : (f s.mach.cur).go s.mach = (.error (.trap k (BitVec.ofNat 64 (wordOf i))), s.mach)) : TrapsWord s i k :=
  ⟨_, wordVal_wordOf henc, traps_of_go hexec hgo⟩

/-- The check of a number stops every word that names it. -/
def NumberTraps (s : State) (n : BitVec 12) (k : Cause) : Prop := ∀ word, (csrNumber s.mach.cur word n.toNat).go s.mach =
  (.error (.trap k (BitVec.ofNat 64 (wordOf word))), s.mach)

theorem numberTraps_privilege (h : 0x100 ≤ n ∧ n ≤ 0x3FF) : NumberTraps s n .privilege := fun _ => csrNumber_privileged h

theorem numberTraps_illegal (h : ¬(0x100 ≤ n ∧ n ≤ 0x3FF)) (hn : s.mach.csrRead s.mach.cur n.toNat = none) :
    NumberTraps s n .illegal := fun _ => csrNumber_unlisted h hn

theorem exec_csrw : exec (.csrw n a) s = s.sRun (.csrw n a) fun c => csrChange c (.csrw n a) .write 0 a n := rfl
theorem exec_csrset : exec (.csrset d a n) s = s.sRun (.csrset d a n) fun c => csrChange c (.csrset d a n) .set d a n := rfl
theorem exec_csrclr : exec (.csrclr d a n) s = s.sRun (.csrclr d a n) fun c => csrChange c (.csrclr d a n) .clear d a n := rfl

theorem csrr_traps {k : Cause} (h : NumberTraps s n k) : TrapsWord s (.csrr d n) k :=
  trapsWord_of_go (f := fun _ => _) rfl rfl (Run.go_bind_error (h _))

/-- The three words that change a CSR stop alike. -/
theorem csrChanges_trap {k : Cause} (h : NumberTraps s n k) :
    TrapsWord s (.csrw n a) k ∧ TrapsWord s (.csrset d a n) k ∧ TrapsWord s (.csrclr d a n) k :=
  ⟨trapsWord_of_go exec_csrw rfl (csrChange_of_number (h _)), trapsWord_of_go exec_csrset rfl (csrChange_of_number (h _)),
    trapsWord_of_go exec_csrclr rfl (csrChange_of_number (h _))⟩

end

/-- A flag in a register, as a number. -/
theorem ite_eq_toNat_mul (b : Bool) (a : Nat) : (if b = true then a else 0) = b.toNat * a := by cases b <;> simp

/-- The counters that stand under consecutive numbers. -/
theorem csrRead_counters (m : Mach) (c : CoreId) (k : Fin 8) :
    m.csrRead c (0x040 + BitVec.ofNat 12 k.val).toNat = some (BitVec.ofNat 64 ((m.inst c).x.tdone.get k).toNat)
    ∧ m.csrRead c (0x048 + BitVec.ofNat 12 k.val).toNat = some (BitVec.ofNat 64 ((m.inst c).x.tissue.get k).toNat) := by
  fin_cases k <;> exact ⟨rfl, rfl⟩

theorem csrRead_lcnt (m : Mach) (c : CoreId) (k : Fin 4) :
    m.csrRead c (0x038 + BitVec.ofNat 12 k.val).toNat = some (BitVec.ofNat 64 ((m.inst c).s.loops.get k).lcnt.toNat) := by
  fin_cases k <;> rfl

theorem csrReads : CsrReads := by
  intro s d n hfresh q i c reads
  have hreads : ∀ (k : BitVec 12) {v w : Nat}, s.mach.csrRead c k.toNat = some (BitVec.ofNat 64 v) → v = w → reads k w :=
    fun k v w h e => csrr_gives hfresh (by rw [csrOf_self, h, e])
  refine ⟨hreads _ rfl rfl, hreads _ rfl ?_, hreads _ rfl rfl, hreads _ rfl ?_, hreads _ rfl rfl, hreads _ rfl rfl,
    hreads _ rfl rfl, hreads _ rfl rfl, hreads _ rfl rfl, hreads _ rfl ?_, hreads _ rfl rfl, hreads _ rfl rfl, hreads _ rfl rfl,
    hreads _ rfl rfl, fun k => hreads _ ?_ rfl, fun k => ⟨hreads _ ?_ rfl, hreads _ ?_ rfl⟩, hreads _ rfl rfl,
    hreads _ rfl rfl, hreads _ rfl rfl, hreads _ rfl rfl, hreads _ rfl rfl, hreads _ ?_ rfl, hreads _ rfl rfl,
    hreads _ rfl rfl, fun hp => csrr_traps (numberTraps_privilege hp),
    fun hp hn => csrr_traps (numberTraps_illegal hp (s.mach.csrRead_of_not_mem _ hn))⟩
  case refine_1 => rw [ite_eq_toNat_mul, ite_eq_toNat_mul, Nat.mul_one, Nat.mul_comm]; rfl
  case refine_2 => rw [Nat.mul_comm (2 ^ 32)]; rfl
  case refine_3 => exact Nat.mod_eq_of_lt (by omega)
  case refine_4 => exact csrRead_lcnt s.mach c k
  case refine_5 => exact (csrRead_counters s.mach c k).1
  case refine_6 => exact (csrRead_counters s.mach c k).2
  case refine_7 =>
    show some (BitVec.ofNat 64 q.restart.toNat) = _
    rw [BitVec.ofNat_toNat, BitVec.setWidth_eq, Seq.restart, ite_eq_toNat_mul, ite_eq_toNat_mul]

/-- The value that CSRSET and CSRCLR give goes to the register that d names before the write (R118). -/
theorem csrPut_keepOld {op : CsrOp} (hop : op ≠ .write) (i : Inst) (d : Reg) (old : W64) (n v : Nat) :
    (op.keepOld d old i).csrPut n v =
      { i.csrPut n v with s := { (i.csrPut n v).s with regs := (i.s.put d old).regs } } := by
  have hput : i.s.put d old = { i.s with regs := (i.s.put d old).regs } := by
    by_cases hd : d = 0
    · rw [hd, Seq.put_zero]
    · rw [Seq.put_eq _ _ hd]
  rw [CsrOp.keepOld, if_neg hop, Inst.csrPut_eq, Inst.csrPut_eq]
  simp only
  rw [hput, Seq.csrPut_with_regs]

theorem csrWrites : CsrWrites := by
  intro s d a n old hfresh hn hold x gives
  rw [csrOf_self] at hold
  have hwait : ∀ v : W64, ((inst s).csrPut n.toNat v.toNat).s.st.wait = none := fun v => by
    rw [Inst.csrPut_s]; exact hfresh
  have hgives : ∀ {i : Instr} {op : CsrOp}, op ≠ .write → exec i s = s.sRun i (fun c => csrChange c i op d a n) →
      csrTakes n (op.newValue old x) → gives i (op.newValue old x) := fun {i op} hop hexec ht =>
    ⟨_, (s.seq.put d old).regs, csrWritten_csrPut hn ht,
      passes_of_go hexec ((csrChange_taken hold hn ht).trans (by rw [Mach.modInst_eq, csrPut_keepOld hop]; rfl)) rfl
        (by rw [withInst_inst]; exact hwait _),
      fun r => s.seq.put_regs_get d old r⟩
  exact ⟨fun ht => ⟨_, csrWritten_csrPut hn ht, passes_of_go exec_csrw (csrChange_taken hold hn ht) rfl
      (by rw [withInst_inst]; exact hwait _)⟩,
    hgives (by decide) exec_csrset, hgives (by decide) exec_csrclr⟩

theorem csrRejects : CsrRejects := by
  intro s d a n old hfresh x all
  have hrejected : ∀ {i : Instr} {op : CsrOp} {d' : Reg} {old : W64}, s.mach.csrRead s.mach.cur n.toNat = some old →
      exec i s = s.sRun i (fun c => csrChange c i op d' a n) → (encode i).isSome = true →
      ¬csrTakes n (op.newValue old x) → TrapsWord s i .illegal :=
    fun hold hexec henc hr => trapsWord_of_go hexec henc (csrChange_rejected hold hr)
  refine ⟨fun hp => csrChanges_trap (numberTraps_privilege hp), fun hp hno => ?_, fun hold => ?_⟩
  · cases hread : s.mach.csrRead s.mach.cur n.toNat with
    | none => exact csrChanges_trap (numberTraps_illegal hp hread)
    | some old =>
      exact ⟨hrejected hread exec_csrw rfl (hno _), hrejected hread exec_csrset rfl (hno _),
        hrejected hread exec_csrclr rfl (hno _)⟩
  · rw [csrOf_self] at hold
    exact ⟨fun hr _ => hrejected hold exec_csrw rfl hr, fun hr _ => hrejected hold exec_csrset rfl hr,
      fun hr _ => hrejected hold exec_csrclr rfl hr⟩

end Sys2Proof.Machine

namespace Sys2Proof
open Sys2Proof.Machine

/-- Settles O18: what each CSR word reads, what it writes, and where it stops. -/
theorem csrWords : Obligations.CsrWords := ⟨csrReads, csrWrites, csrRejects⟩

end Sys2Proof
end

section
/-! The scratchpad: what bytes hold, when a byte is there, and what loads, stores and atomics of S do with it
(R87–R89, R137, R138, R347, R348). -/

namespace Sys2Proof.Machine
open Sys2Proof Sys2Proof.Claims

/-! ## Bytes and numbers -/

theorem leNat_cons (b : Byte) (t : List Byte) : leNat (b :: t) = b.toNat + 256 * leNat t := rfl

theorem leNat_lt (t : List Byte) : leNat t < 256 ^ t.length := by
  induction t with
  | nil => decide
  | cons b t ih =>
    have := b.isLt
    rw [leNat_cons, List.length_cons, Nat.pow_succ]
    omega

/-- The bytes of a store as one number (R2). -/
theorem leNat_cellsRead (l : List (Nat × Byte)) (a n : Nat) :
    leNat (cellsRead l a n) = ∑ k : Fin n, (cellGet l (a + k.val)).toNat * 256 ^ k.val := by
  induction n generalizing a with
  | zero => rfl
  | succ n ih =>
    rw [cellsRead, leNat_cons, ih, Fin.sum_univ_succ, Finset.mul_sum]
    congr 1
    · simp
    · refine Finset.sum_congr rfl fun k _ => ?_
      rw [Fin.val_succ, Nat.pow_succ, Nat.add_right_comm a 1, ← Nat.add_assoc]
      ring

/-- The sign bit of a number that fits m bits. -/
theorem testBit_top {m v : Nat} (hm : 0 < m) (hv : v < 2 ^ m) : v.testBit (m - 1) = decide (2 ^ (m - 1) ≤ v) := by
  obtain ⟨k, rfl⟩ := Nat.exists_eq_add_of_lt hm
  simp only [Nat.zero_add, Nat.add_sub_cancel] at hv ⊢
  rw [Nat.testBit_eq_decide_div_mod_eq]
  have hq : v / 2 ^ k < 2 := Nat.div_lt_of_lt_mul (by rwa [← Nat.pow_succ])
  have hle : 1 ≤ v / 2 ^ k ↔ 2 ^ k ≤ v := Nat.one_le_div_iff (Nat.two_pow_pos k)
  rw [decide_eq_decide, ← hle]
  generalize v / 2 ^ k = y at hq
  omega

/-- What a load of nb bytes gives (R137). -/
theorem loaded_eq (l : List (Nat × Byte)) (a nb : Nat) (hnb : 0 < nb) (signed : Bool) :
    loaded l a nb signed =
      if signed && (leNat (cellsRead l a nb)).testBit (8 * nb - 1) then
        BitVec.ofInt 64 ((leNat (cellsRead l a nb) : Int) - 2 ^ (8 * nb))
      else BitVec.ofNat 64 (leNat (cellsRead l a nb)) := by
  have hlt : leNat (cellsRead l a nb) < 2 ^ (8 * nb) := by
    rw [Nat.pow_mul]
    simpa [cellsRead_length] using leNat_lt (cellsRead l a nb)
  rw [testBit_top (by omega) hlt]
  simp only [loaded, ← leNat_cellsRead, Bool.and_eq_true, decide_eq_true_eq]

theorem bytesOf_getD (n v j : Nat) (h : j < n) : (bytesOf n v).getD j 0 = BitVec.ofNat 8 (v / 256 ^ j) := by
  induction n generalizing v j with
  | zero => omega
  | succ n ih =>
    cases j with
    | zero => simp [bytesOf]
    | succ j =>
      rw [bytesOf, List.getD_cons_succ, ih _ _ (by omega), Nat.div_div_eq_div_mul, ← Nat.pow_succ']

/-- The bytes of a word, written, are stored (R2, R137). -/
theorem stored_cellsWrite (l : List (Nat × Byte)) (a : Nat) (x : W64) (nb : Nat) :
    Stored l (cellsWrite l a (bytesOf nb x.toNat)) a x nb := by
  intro k
  rw [cellGet_cellsWrite, bytesOf_length]
  refine ite_congr rfl (fun h => ?_) fun _ => rfl
  rw [bytesOf_getD _ _ _ (by omega)]
  apply BitVec.eq_of_toNat_eq
  simp [Nat.shiftRight_eq_div_pow, Nat.pow_mul]

/-! ## Addresses of the scratchpad (R88) -/

theorem localAddr_toNat {l : Nat} (h : l < 2 ^ 22) : (localAddr l).toNat = 2 ^ 62 + l := by
  have hbase : (0x4000000000000000 : W64).toNat = 2 ^ 62 := rfl
  simp only [localAddr, BitVec.toNat_add, BitVec.toNat_ofNat, hbase]
  omega

theorem sAddr_localAddr {l : Nat} (h : l < 2 ^ 22) : sAddr (localAddr l) = .local l := by
  have hspace : (2 ^ 62 + l) / 2 ^ 56 = 64 := by omega
  have hmid : (2 ^ 62 + l) / 2 ^ 22 % 2 ^ 34 = 0 := by omega
  have hlow : (2 ^ 62 + l) % 2 ^ 22 = l := by omega
  simp only [sAddr, localAddr_toNat h, isCanon, hspace, hmid, hlow]
  rfl

theorem localAddr_mod {l k : Nat} (h : l < 2 ^ 22) (hk : k ≤ 3) : (localAddr l).toNat % 2 ^ k = l % 2 ^ k := by
  rw [localAddr_toNat h]
  interval_cases k <;> omega

/-- An aligned access of up to 8 bytes lies inside one line. -/
theorem lineSegs_aligned {l k : Nat} (hk : k ≤ 3) (h : l % 2 ^ k = 0) : lineSegs l (2 ^ k) = [(l, 2 ^ k)] := by
  have hline : (l + 2 ^ k - 1) / 64 = l / 64 := by interval_cases k <;> omega
  have hhi : l + 2 ^ k ≤ (l / 64 + 1) * 64 := by interval_cases k <;> omega
  have hlo : l / 64 * 64 ≤ l := by omega
  simp [lineSegs, hline, hhi, hlo]

/-! ## When a byte is there (R347, R348) -/

section
variable {m : Mach} {c : CoreId} {l : Nat}

theorem localReady_resident (h : Resident (m.inst c).pad l) : (localReady c (some .S) l).go m = (.ok none, m) := by
  unfold Resident at h
  cases hr : (m.inst c).pad.regionAt l with
  | none => simp [localReady, Run.go_bind, hr]
  | some r =>
    specialize h r hr
    by_cases hc : r.cached = true
    · simp only [hc, if_true] at h
      cases ht : (m.inst c).pad.tags.find? (fun t => t.slot == r.blockAt l) with
      | none => simp [localReady, Run.go_bind, hr, hc, ht]
      | some t =>
        have hslot : t.slot = r.blockAt l := by simpa using List.find?_some ht
        rcases h t (List.mem_of_find?_eq_some ht) hslot with hv | ⟨hv, hl⟩
        · simp [localReady, Run.go_bind, hr, hc, ht, hv]
        · simp [localReady, Run.go_bind, hr, hc, ht, hv, hl]
    · simp only [hc] at h
      have hf : r.blockAt l ∈ (m.inst c).pad.filled := h
      simp [localReady, Run.go_bind, hr, hc, hf]

section
variable {r : Region} (hr : (m.inst c).pad.regionAt l = some r) (hc : r.cached = false)
  (hf : r.blockAt l ∉ (m.inst c).pad.filled)
include hr hc hf

/-- A word that has not waited for the fill of a DIRECT block waits for it (R347). -/
theorem localReady_unfilled (ho : alookup (m.inst c).pad.outcomes (r.blockAt l) = none) :
    (localReady c (some .S) l).go m = (.error (.wait (.fill (r.blockAt l))), m) := by
  simp [localReady, Run.go_bind, hr, hc, hf, engCode, ho]

theorem localReady_nonresident {g : Nat} (ho : alookup (m.inst c).pad.outcomes (r.blockAt l) = some (.nonresident g)) :
    (localReady c (some .S) l).go m = (.ok (some (r.gbase + (l - r.lbase))), m) := by
  simp [localReady, Run.go_bind, hr, hc, hf, engCode, ho, Pad.globalOf]

theorem localReady_denied {g : Nat} (ho : alookup (m.inst c).pad.outcomes (r.blockAt l) = some (.denied g)) :
    (localReady c (some .S) l).go m = (.error (.trap .protection (BitVec.ofNat 64 g)), m) := by
  simp [localReady, Run.go_bind, hr, hc, hf, engCode, ho]

end

/-- A line that the fill of a CACHED slot could not read is not resident. -/
theorem localReady_nrvalid {r : Region} {t : Tag} (hr : (m.inst c).pad.regionAt l = some r) (hc : r.cached = true)
    (ht : (m.inst c).pad.tags.find? (fun t => t.slot == r.blockAt l) = some t) (hs : t.state = .nrvalid)
    (hl : (l - r.blockAt l) / 64 ∈ t.lines) :
    (localReady c (some .S) l).go m = (.ok (some (r.gbase + t.block * r.bytes + (l - r.blockAt l))), m) := by
  simp [localReady, Run.go_bind, hr, hc, ht, hs, hl, Pad.globalOf]

/-! ## Reads and writes inside one line -/

section
variable {n : Nat} {who : Option Eng}

theorem lRead_there (hseg : lineSegs l n = [(l, n)]) (h : (localReady c who l).go m = (.ok none, m)) :
    (lRead c who l n).go m = (.ok (cellsRead (m.inst c).pad.bytes l n, none), m) := by
  simp [lRead, hseg, Run.go_bind, h]

theorem lRead_absent {g : Nat} (hseg : lineSegs l n = [(l, n)]) (h : (localReady c who l).go m = (.ok (some g), m)) :
    (lRead c who l n).go m = (.ok (List.replicate n 0, some g), m) := by
  simp [lRead, hseg, Run.go_bind, h]

theorem lRead_stop {e : Stop} (hseg : lineSegs l n = [(l, n)]) (h : (localReady c who l).go m = (.error e, m)) :
    (lRead c who l n).go m = (.error e, m) := by
  simp [lRead, hseg, Run.go_bind, h]

variable {bs : List Byte}

theorem lWrite_there (hseg : lineSegs l bs.length = [(l, bs.length)]) (h : (localReady c who l).go m = (.ok none, m)) :
    (lWrite c who l bs).go m = (.ok none, m.padStore c l bs) := by
  simp [lWrite, hseg, Run.go_bind, h]

theorem lWrite_absent {g : Nat} (hseg : lineSegs l bs.length = [(l, bs.length)])
    (h : (localReady c who l).go m = (.ok (some g), m)) : (lWrite c who l bs).go m = (.ok (some g), m) := by
  simp [lWrite, hseg, Run.go_bind, h]

theorem lWrite_stop {e : Stop} (hseg : lineSegs l bs.length = [(l, bs.length)])
    (h : (localReady c who l).go m = (.error e, m)) : (lWrite c who l bs).go m = (.error e, m) := by
  simp [lWrite, hseg, Run.go_bind, h]

end

/-! ## Loads and stores of S at a local address (R88, R137) -/

section
variable {k : Nat} (hl : l < 2 ^ 22) (hk : k ≤ 3) (ha : l % 2 ^ k = 0) (hp : l + 2 ^ k ≤ (m.inst c).id.part)
include hl hk ha hp

theorem sLoad_there (h : (localReady c (some .S) l).go m = (.ok none, m)) :
    (sLoad c (localAddr l) (2 ^ k)).go m = (.ok (some (cellsRead (m.inst c).pad.bytes l (2 ^ k))), m) := by
  have hread := lRead_there (lineSegs_aligned hk ha) h
  simp [sLoad, sAddr_localAddr hl, localAddr_mod hl hk, Run.go_bind, ha, hp, hread]

theorem sLoad_absent {g : Nat} (h : (localReady c (some .S) l).go m = (.ok (some g), m)) :
    (sLoad c (localAddr l) (2 ^ k)).go m = (.ok none, m) := by
  have hread := lRead_absent (lineSegs_aligned hk ha) h
  simp [sLoad, sAddr_localAddr hl, localAddr_mod hl hk, Run.go_bind, ha, hp, hread]

theorem sLoad_stop {e : Stop} (h : (localReady c (some .S) l).go m = (.error e, m)) :
    (sLoad c (localAddr l) (2 ^ k)).go m = (.error e, m) := by
  have hread := lRead_stop (lineSegs_aligned hk ha) h
  simp [sLoad, sAddr_localAddr hl, localAddr_mod hl hk, Run.go_bind, ha, hp, hread]

variable {bs : List Byte} (hb : bs.length = 2 ^ k)
include hb

theorem sStore_there (h : (localReady c (some .S) l).go m = (.ok none, m)) :
    (sStore c (localAddr l) bs).go m = (.ok (), m.padStore c l bs) := by
  have hwrite := lWrite_there (bs := bs) (hb ▸ lineSegs_aligned hk ha) h
  simp [sStore, sAddr_localAddr hl, localAddr_mod hl hk, Run.go_bind, ha, hp, hb, hwrite]

theorem sStore_absent {g : Nat} (h : (localReady c (some .S) l).go m = (.ok (some g), m)) :
    (sStore c (localAddr l) bs).go m = (.error (.trap .storeNonresident (BitVec.ofNat 64 g)), m) := by
  have hwrite := lWrite_absent (bs := bs) (hb ▸ lineSegs_aligned hk ha) h
  simp [sStore, sAddr_localAddr hl, localAddr_mod hl hk, Run.go_bind, ha, hp, hb, hwrite]

theorem sStore_stop {e : Stop} (h : (localReady c (some .S) l).go m = (.error e, m)) :
    (sStore c (localAddr l) bs).go m = (.error e, m) := by
  have hwrite := lWrite_stop (bs := bs) (hb ▸ lineSegs_aligned hk ha) h
  simp [sStore, sAddr_localAddr hl, localAddr_mod hl hk, Run.go_bind, ha, hp, hb, hwrite]

end

/-! ## Atomics at a local address (R138) -/

section
variable (hl : l < 2 ^ 22) (ha : l % 8 = 0) (hp : l + 8 ≤ (m.inst c).id.part) {f : W64 → Option W64}
  (h : (localReady c (some .S) l).go m = (.ok none, m))
include hl ha hp h

theorem sAtomic_writes {v : W64} (hf : f (loaded (m.inst c).pad.bytes l 8 false) = some v) :
    (sAtomic c (localAddr l) f).go m = (.ok (loaded (m.inst c).pad.bytes l 8 false), m.padStore c l (bytesOf 8 v.toNat)) := by
  have hmod : (localAddr l).toNat % 8 = l % 8 := localAddr_mod (k := 3) hl le_rfl
  rw [loaded_eq _ _ _ (by decide)] at hf ⊢
  simp only [Bool.false_and, Bool.false_eq_true, if_false] at hf ⊢
  simp [sAtomic, sAddr_localAddr hl, hmod, Run.go_bind, ha, hp, h, hf]

theorem sAtomic_keeps (hf : f (loaded (m.inst c).pad.bytes l 8 false) = none) :
    (sAtomic c (localAddr l) f).go m = (.ok (loaded (m.inst c).pad.bytes l 8 false), m) := by
  have hmod : (localAddr l).toNat % 8 = l % 8 := localAddr_mod (k := 3) hl le_rfl
  rw [loaded_eq _ _ _ (by decide)] at hf ⊢
  simp only [Bool.false_and, Bool.false_eq_true, if_false] at hf ⊢
  simp [sAtomic, sAddr_localAddr hl, hmod, Run.go_bind, ha, hp, h, hf]

end

end

/-! ## What a write of the scratchpad leaves (R89, R293) -/

theorem Mach.sign_eq (m : Mach) (c : CoreId) (va : Nat) (l : List Byte) :
    ∃ g, m.sign c va l = m.setInst c { m.inst c with sig := g } ∧ ((m.inst c).id.dual = false → g = (m.inst c).sig) := by
  unfold Mach.sign
  split
  · next h => exact ⟨_, rfl, fun hd => by simp [hd] at h⟩
  · exact ⟨_, (m.setInst_self c).symm, fun _ => rfl⟩

/-- A write outside every region sets bytes alone (R89). -/
theorem Mach.padStore_unmapped (m : Mach) (c : CoreId) (l : Nat) (bs : List Byte) (hr : (m.inst c).pad.regionAt l = none) :
    m.padStore c l bs =
      m.modInst c fun i => { i with pad := { i.pad with bytes := cellsWrite i.pad.bytes l bs } } := by
  simp [Mach.padStore, hr]

/-- A write in a region sets bytes, marks them written and may be signed (R89, R293). -/
theorem Mach.padStore_mapped (m : Mach) (c : CoreId) (l : Nat) (bs : List Byte) {r : Region}
    (hr : (m.inst c).pad.regionAt l = some r) : ∃ g, ((m.inst c).id.dual = false → g = (m.inst c).sig)
    ∧ m.padStore c l bs = m.modInst c fun i => { i with sig := g, pad := { i.pad with
        bytes := cellsWrite i.pad.bytes l bs
        dirty := cellsWrite i.pad.dirty l (List.replicate bs.length 1) } } := by
  simp only [Mach.padStore, hr]
  split
  · obtain ⟨g, hsign, hsame⟩ := Mach.sign_eq (m.modInst c fun i => { i with pad := { i.pad with
        bytes := cellsWrite i.pad.bytes l bs
        dirty := cellsWrite i.pad.dirty l (List.replicate bs.length 1) } }) c ‹Nat› bs
    refine ⟨g, fun hd => by simpa using hsame (by simpa using hd), ?_⟩
    rw [hsign, Mach.modInst_inst, Mach.modInst_eq, Mach.setInst_setInst]
    rfl
  · exact ⟨_, fun _ => rfl, rfl⟩

/-- A write of the scratchpad is one of the core's own state alone, as the statements say. -/
theorem Mach.padStore_eq (m : Mach) (c : CoreId) (l : Nat) (x : W64) (nb : Nat) :
    ∃ j, m.padStore c l (bytesOf nb x.toNat) = m.setInst c j ∧ PadWritten (m.inst c) j l x nb := by
  cases hr : (m.inst c).pad.regionAt l with
  | none =>
    refine ⟨_, m.padStore_unmapped c l _ hr, rfl, stored_cellsWrite _ _ _ _, fun _ => rfl, fun k => ?_⟩
    simp [hr]
  | some r =>
    obtain ⟨g, hsame, heq⟩ := m.padStore_mapped c l (bytesOf nb x.toNat) hr
    refine ⟨_, heq, rfl, stored_cellsWrite _ _ _ _, hsame, fun k => ?_⟩
    simp only [hr, Option.isSome_some, true_and, cellGet_cellsWrite, List.length_replicate, bytesOf_length]
    refine ite_congr rfl (fun h => ?_) fun _ => rfl
    rw [List.getD_eq_getElem _ _ (by simp; omega), List.getElem_replicate]

theorem padWritten_s {i j : Inst} {l : Nat} {x : W64} {nb : Nat} (h : PadWritten i j l x nb) : j.s = i.s := by
  rw [h.1]

end Sys2Proof.Machine
end

section
/-! Loads, stores and atomics of S on the scratchpad, as the statements have them (R137, R138, R347, R348). -/

namespace Sys2Proof.Machine
open Sys2Proof Sys2Proof.Claims

/-- The machine in which the core's next load has met bytes that are not resident: SNR is set (R137). -/
def snrSet (s : State) : Mach := withInst s { inst s with s := { (inst s).s with snr := true } }

theorem Seq.put_with_snr (q : Seq) (d : Reg) (v : W64) (b : Bool) : { q.put d v with snr := b } = { q with snr := b }.put d v := by
  by_cases hd : d = 0
  · rw [hd, Seq.put_zero, Seq.put_zero]
  · rw [Seq.put_eq _ _ hd, Seq.put_eq _ _ hd]

theorem snrSet_put (s : State) (d : Reg) (v : W64) :
    (s.mach.modInst s.mach.cur fun i => { i with s := { i.s.put d v with snr := true } }) =
      (snrSet s).modSeq s.mach.cur fun q => q.put d v := by
  simp only [snrSet, Mach.modSeq_eq, Mach.modInst_eq, withInst_inst, withInst_setInst, Seq.put_with_snr]
  rfl

theorem atomicOp_eq (op : AOp) (old v : W64) : atomicOp op old v = amoResult op old v := by
  cases op <;> simp [atomicOp, amoResult, BitVec.slt_iff_toInt_lt, BitVec.ult_iff_lt]

section
variable {s : State} {d a b : Reg} {off : BitVec 12} {l : Nat}

/-! ## Loads -/

section
variable {nb : Nat} {signed : Bool} (haddr : s.seq.get a + off.signExtend 64 = localAddr l)
include haddr

theorem loadWord_there (hnb : 0 < nb) (h : (sLoad s.mach.cur (localAddr l) nb).go s.mach =
      (.ok (some (cellsRead (inst s).pad.bytes l nb)), s.mach)) :
    (loadWord s.mach.cur d a nb off signed).go s.mach =
      (.ok .fall, s.mach.modSeq s.mach.cur fun q => q.put d (loaded (inst s).pad.bytes l nb signed)) := by
  have hmem : memAddr (s.mach.inst s.mach.cur).s a off = localAddr l := haddr
  rw [loaded_eq _ _ _ hnb]
  simp [loadWord, Run.go_bind, hmem, h]
  rfl

theorem loadWord_absent (h : (sLoad s.mach.cur (localAddr l) nb).go s.mach = (.ok none, s.mach)) :
    (loadWord s.mach.cur d a nb off signed).go s.mach = (.ok .fall, (snrSet s).modSeq s.mach.cur fun q => q.put d 0) := by
  have hmem : memAddr (s.mach.inst s.mach.cur).s a off = localAddr l := haddr
  simp only [loadWord, Run.go_bind, Run.go_getInst, hmem, h, Run.go_setInst, Run.go_pure, snrSet_put]

theorem loadWord_stop {e : Stop} (h : (sLoad s.mach.cur (localAddr l) nb).go s.mach = (.error e, s.mach)) :
    (loadWord s.mach.cur d a nb off signed).go s.mach = (.error e, s.mach) := by
  have hmem : memAddr (s.mach.inst s.mach.cur).s a off = localAddr l := haddr
  simp [loadWord, Run.go_bind, hmem, h]

end

end

/-! ## Stores and atomics -/

/-- What ST runs. -/
def storeRun (src base : Reg) (nb : Nat) (off : BitVec 12) (c : CoreId) : Run Flow := do
  let q := (← getInst c).s
  sStore c (memAddr q base off) (bytesOf nb (q.get src).toNat)
  return .fall

/-- What AMO and CAS run: s[d] takes the value that stood at the address. -/
def atomicRun (d addr : Reg) (f : Seq → W64 → Option W64) (c : CoreId) : Run Flow := do
  let q := (← getInst c).s
  let old ← sAtomic c (q.get addr) (f q)
  setInst c fun i => { i with s := i.s.put d old }
  return .fall

/-- What CAS writes. -/
def casResult (d src : Reg) (q : Seq) (old : W64) : Option W64 := if old = q.get d then some (q.get src) else none

section
variable {s : State} {d a b : Reg} {size : Fin 4} {usize : Fin 3} {off : BitVec 12} {op : AOp} {o : MemOrder} {sc : Scope}

theorem exec_ld : exec (.ld d a size off) s = s.sRun (.ld d a size off) fun c => loadWord c d a (2 ^ size.val) off true := rfl

theorem exec_ldu : exec (.ldu d a usize off) s = s.sRun (.ldu d a usize off) fun c => loadWord c d a (2 ^ usize.val) off false :=
  rfl

theorem exec_st : exec (.st b a size off) s = s.sRun (.st b a size off) (storeRun b a (2 ^ size.val) off) := rfl

theorem exec_amo : exec (.amo d a b op o sc) s =
    s.sRun (.amo d a b op o sc) (atomicRun d a fun q x => some (atomicOp op x (q.get b))) := rfl

theorem exec_cas : exec (.cas d a b o sc) s = s.sRun (.cas d a b o sc) (atomicRun d a (casResult d b)) := rfl

theorem storeRun_go {nb l : Nat} {r : Except Stop Unit} {m : Mach} (haddr : s.seq.get a + off.signExtend 64 = localAddr l)
    (h : (sStore s.mach.cur (localAddr l) (bytesOf nb (s.seq.get b).toNat)).go s.mach = (r, m)) :
    (storeRun b a nb off s.mach.cur).go s.mach = (r.map fun _ => .fall, m) := by
  have hmem : memAddr (s.mach.inst s.mach.cur).s a off = localAddr l := haddr
  have h' : (sStore s.mach.cur (localAddr l) (bytesOf nb ((s.mach.inst s.mach.cur).s.get b).toNat)).go s.mach = (r, m) := h
  cases r <;> simp [storeRun, Run.go_bind, hmem, h', Except.map]

theorem atomicRun_go {f : Seq → W64 → Option W64} {l : Nat} {old : W64} {m : Mach} (haddr : s.seq.get a = localAddr l)
    (h : (sAtomic s.mach.cur (localAddr l) (f s.seq)).go s.mach = (.ok old, m)) :
    (atomicRun d a f s.mach.cur).go s.mach = (.ok .fall, m.modSeq s.mach.cur fun q => q.put d old) := by
  have haddr' : (s.mach.inst s.mach.cur).s.get a = localAddr l := haddr
  have h' : (sAtomic s.mach.cur (localAddr l) (f (s.mach.inst s.mach.cur).s)).go s.mach = (.ok old, m) := h
  simp [atomicRun, Run.go_bind, haddr', h']
  rfl

end

/-! ## Accesses that complete -/

theorem localMemory : LocalMemory := by
  intro s d a b size usize off op o sc l q i at' addr old hfresh hres
  have hready := localReady_resident (m := s.mach) (c := s.mach.cur) hres
  have hwait : ∀ {j : Inst} {x : W64} {nb : Nat}, PadWritten i j l x nb →
      ((withInst s j).inst s.mach.cur).s.st.wait = none := fun hj => by
    rw [withInst_inst, padWritten_s hj]; exact hfresh
  refine ⟨fun ⟨haddr, hl, ha, hp⟩ => ⟨?_, ?_⟩, fun ⟨haddr, hl, ha, hp⟩ => ?_, fun ⟨haddr, hl, ha, hp⟩ => ⟨?_, fun heq => ?_, fun hne => ?_⟩⟩
  · exact givesOn_of_go exec_ld (loadWord_there haddr (by positivity) (sLoad_there hl (by omega) ha hp hready)) rfl hfresh
  · obtain ⟨j, hj, hw⟩ := s.mach.padStore_eq s.mach.cur l (q.get b) (2 ^ size.val)
    have hstore := sStore_there hl (by omega) ha hp (bytesOf_length (2 ^ size.val) (q.get b).toNat) hready
    rw [hj] at hstore
    exact ⟨j, hw, passes_of_go exec_st (storeRun_go haddr hstore) rfl (hwait hw)⟩
  · exact givesOn_of_go exec_ldu (loadWord_there haddr (by positivity) (sLoad_there hl (by omega) ha hp hready)) rfl hfresh
  · obtain ⟨j, hj, hw⟩ := s.mach.padStore_eq s.mach.cur l (amoResult op old (q.get b)) 8
    have hatomic := sAtomic_writes (f := fun x => some (atomicOp op x (q.get b))) hl ha hp hready (congrArg some (atomicOp_eq op old (q.get b)))
    rw [hj] at hatomic
    exact ⟨j, hw, givesOn_of_go exec_amo (atomicRun_go haddr hatomic) rfl (hwait hw)⟩
  · obtain ⟨j, hj, hw⟩ := s.mach.padStore_eq s.mach.cur l (q.get b) 8
    have hatomic := sAtomic_writes (f := casResult d b q) hl ha hp hready (if_pos heq)
    rw [hj] at hatomic
    exact ⟨j, hw, givesOn_of_go exec_cas (atomicRun_go haddr hatomic) rfl (hwait hw)⟩
  · exact givesOn_of_go exec_cas (atomicRun_go haddr (sAtomic_keeps hl ha hp hready (if_neg hne))) rfl hfresh

/-! ## Accesses that wait, and bytes that are not there -/

theorem alookup_eq_none {α : Type} {l : List (Nat × α)} {k : Nat} (h : ∀ e ∈ l, e.1 ≠ k) : alookup l k = none := by
  induction l with
  | nil => rfl
  | cons e t ih =>
    simp only [alookup, if_neg (h e (List.mem_cons_self ..))]
    exact ih fun x hx => h x (List.mem_cons_of_mem _ hx)

theorem regionMemory : RegionMemory := by
  intro s d a b size off l r q i blk hfresh haddr hl ha hp hr
  have hk : size.val ≤ 3 := by omega
  have hlen := bytesOf_length (2 ^ size.val) (q.get b).toNat
  have hstop : ∀ {e : Stop}, (localReady s.mach.cur (some .S) l).go s.mach = (.error e, s.mach) →
      (loadWord s.mach.cur d a (2 ^ size.val) off true).go s.mach = (.error e, s.mach)
      ∧ (storeRun b a (2 ^ size.val) off s.mach.cur).go s.mach = (.error e, s.mach) := fun h =>
    ⟨loadWord_stop haddr (sLoad_stop hl hk ha hp h), storeRun_go haddr (sStore_stop hl hk ha hp hlen h)⟩
  have habsent : ∀ {g : Nat}, (localReady s.mach.cur (some .S) l).go s.mach = (.ok (some g), s.mach) →
      GivesOn s (.ld d a size off) (snrSet s) d 0 ∧ Traps s (.st b a size off) .storeNonresident (BitVec.ofNat 64 g) := fun h =>
    ⟨givesOn_of_go exec_ld (loadWord_absent haddr (sLoad_absent hl hk ha hp h)) rfl (by rw [snrSet, withInst_inst]; exact hfresh),
      traps_of_go exec_st (storeRun_go haddr (sStore_absent hl hk ha hp hlen h))⟩
  refine ⟨fun hc hf ho => ?_, fun ⟨hc, hf, g, ho⟩ => habsent (localReady_nonresident hr hc hf ho), fun g hc hf ho => ?_,
    fun t ht hc hs hline => habsent (localReady_nrvalid hr hc ht hs hline)⟩
  · obtain ⟨hld, hst⟩ := hstop (localReady_unfilled hr hc hf (alookup_eq_none ho))
    exact ⟨stalls_of_go hfresh exec_ld hld, stalls_of_go hfresh exec_st hst⟩
  · obtain ⟨hld, hst⟩ := hstop (localReady_denied hr hc hf ho)
    exact ⟨traps_of_go exec_ld hld, traps_of_go exec_st hst⟩

end Sys2Proof.Machine

namespace Sys2Proof
open Sys2Proof.Machine

/-- Settles O21: an access of S to a local address, by whether its byte is there. -/
theorem localAndRegionMemory : Obligations.LocalAndRegionMemory := ⟨localMemory, regionMemory⟩

end Sys2Proof
end

section
/-! The health of the cores (R23, R419–R422), and what the failure of a launch leaves alone. -/

namespace Sys2Proof.Machine
open Sys2Proof Sys2Proof.Claims

/-! ## What a launch that fails leaves: the health registers -/

/-- Updates that leave the health registers, one after the other. -/
theorem foldl_health {α : Type} (f : Mach → α → Mach) (h : ∀ m x, (f m x).health = m.health) (l : List α) (m : Mach) :
    (l.foldl f m).health = m.health := by
  induction l generalizing m with
  | nil => rfl
  | cons x t ih => rw [List.foldl_cons, ih, h]

section
variable (m : Mach)

@[simp] theorem Mach.chargePacket_health (p : Packet) : (m.chargePacket p).health = m.health := by
  unfold Mach.chargePacket; split <;> rfl

@[simp] theorem Mach.waitLink_health (k : Nat) (p : Packet) : (m.waitLink k p).health = m.health := rfl

@[simp] theorem Mach.putOut_health (l : Fin 16) (p : Packet) : (m.putOut l p).health = m.health := by
  unfold Mach.putOut
  split <;> split <;> simp

@[simp] theorem Mach.transmit_health (p : Packet) : (m.transmit p).health = m.health := by
  unfold Mach.transmit
  repeat' split
  all_goals simp

@[simp] theorem Mach.send_health (p : Packet) : (m.send p).health = m.health := by
  simp [Mach.send, Mach.number]

@[simp] theorem Mach.sendIod_health (p : Packet) : (m.sendIod p).health = m.health := by
  unfold Mach.sendIod
  repeat' split
  all_goals simp

@[simp] theorem Mach.tellModules_health (r : Round) (res : Nat × Nat) : (m.tellModules r res).health = m.health := by
  rw [Mach.tellModules, foldl_health _ fun m p => m.sendIod_health p]

@[simp] theorem Mach.endRound_health (r : Round) (res : Nat × Nat) : (m.endRound r res).health = m.health := by
  simp [Mach.endRound]

@[simp] theorem Mach.poisonRound_health (r : Round) (ctx : Nat) : (m.poisonRound r ctx).health = m.health := by
  rw [Mach.poisonRound, Mach.endRound_health, Mach.storeWord_health, Mach.storeWord_health]

@[simp] theorem Mach.poisonRounds_health (n : Nat) (ctx : Option Nat) : (m.poisonRounds n ctx).health = m.health :=
  foldl_health _ (fun m r => m.poisonRound_health r _) _ _

@[simp] theorem Mach.completeWord_health (l : Launch) (failed : Bool) : (m.completeWord l failed).health = m.health := by
  unfold Mach.completeWord
  split <;> simp

@[simp] theorem Mach.postEntry_health (f : FnId) (q index tag status : Nat) :
    (m.postEntry f q index tag status).health = m.health := rfl

@[simp] theorem Mach.settleCtx_health (ctx : Nat) : (m.settleCtx ctx).health = m.health := by
  unfold Mach.settleCtx
  split <;> simp

@[simp] theorem Mach.settleLaunch_health (l : Launch) : (m.settleLaunch l).health = m.health :=
  foldl_health _ (fun m _ => m.settleCtx_health _) _ _

@[simp] theorem Mach.settleQueue_health (f : FnId) (q : QId) : (m.settleQueue f q).health = m.health := rfl

@[simp] theorem Mach.freeFairness_health (gang : Nat) (d : DieId) : (m.freeFairness gang d).health = m.health := by
  unfold Mach.freeFairness
  split <;> simp

@[simp] theorem Mach.leaveLaunch_health (l : Launch) : (m.leaveLaunch l).health = m.health := by
  rw [Mach.leaveLaunch, foldl_health _ fun m d => m.freeFairness_health _ d]
  simp

@[simp] theorem Mach.abortParts_health (i : Inst) : (m.abortParts i).health = m.health :=
  foldl_health _ (fun m k => by split <;> simp) _ _

@[simp] theorem Mach.abortAll_health (hit : Ident → Bool) : (m.abortAll hit).health = m.health := by
  rw [Mach.abortAll, foldl_health _ fun m g => m.abortParts_health _, foldl_health _ fun m c => m.abortParts_health _]

@[simp] theorem Mach.freeCore_health (c : CoreId) : (m.freeCore c).health = m.health := rfl

@[simp] theorem Mach.discardLaunch_health (l : Launch) : (m.discardLaunch l).health = m.health := by
  simp only [Mach.discardLaunch, Mach.setLaunch_health]
  rw [foldl_health _ fun m c => m.freeCore_health c, Mach.abortAll_health]

/-- A launch that fails leaves the health registers. -/
@[simp] theorem Mach.failLaunch_health (n status : Nat) (ctx : Option Nat) :
    (m.failLaunch n status ctx).health = m.health := by
  simp only [Mach.failLaunch]
  split
  · rfl
  · split
    · rfl
    · split <;> simp

end

/-! ## The events of a core's health -/

theorem PowerState.running_iff (p : PowerState) : p.running = true ↔ p = .active ∨ p = .halted := by
  cases p <;> simp [PowerState.running]

theorem PowerState.answers_iff (p : PowerState) : p.answers = true ↔ p ≠ .off ∧ p ≠ .locked := by
  cases p <;> simp [PowerState.answers]

theorem Mach.setHealth_self (m : Mach) (c : CoreId) : m.setHealth c (m.health.get c) = m := by
  rw [Mach.setHealth, vset_self]

/-- A counter that saturates (R421). -/
theorem bumpSat_eq (x : BitVec 16) : bumpSat x = if x = 65535 then x else x + 1 := rfl

section
variable {s : State} {c : CoreId}

/-- Without running compute dies nothing of a core's health happens (R28, R29). -/
theorem health_rests (h : s.pwr.st.running = false) (ok savePath : Bool) (slack : Nat) :
    ∀ ev ∈ [Instr.hlthRetire c, .parityReplay c ok savePath, .lupinSample c slack, .lupinPlan c], exec ev s = .next s := by
  intro ev hev
  simp only [List.mem_cons, List.not_mem_nil, or_false] at hev
  rcases hev with rfl | rfl | rfl | rfl
  · show execHlthRetire c s = _; simp [execHlthRetire, h]
  · show execParityReplay c ok savePath s = _; simp [execParityReplay, h]
  · show execLupinSample c slack s = _; simp [execLupinSample, h]
  · show execLupinPlan c s = _; simp [execLupinPlan, h]

variable (hruns : s.pwr.st.running = true)
include hruns

theorem hlthRetire_runs : exec (.hlthRetire c) s = .next (s.retireCore c) := by
  show execHlthRetire c s = _
  simp [execHlthRetire, hruns]

theorem parityReplay_ok (savePath : Bool) : exec (.parityReplay c true savePath) s = .next { s with
    mach := s.mach.setHealth c { s.mach.health.get c with trans := bumpSat (s.mach.health.get c).trans } } := by
  show execParityReplay c true savePath s = _
  simp [execParityReplay, hruns]
  rfl

/-- The state after a replay that failed for good: the core is out of service. -/
def State.failedReplay (s : State) (c : CoreId) : State :=
  State.retireCore { s with mach := s.mach.setHealth c { s.mach.health.get c with lasting := true } } c

omit hruns in
theorem failedReplay_health : (s.failedReplay c).mach.health.get c = { s.mach.health.get c with lasting := true } := by
  simp only [State.failedReplay, State.retireCore]
  split <;> simp [Mach.setHealth]

theorem parityReplay_fails {savePath : Bool} (h : savePath = false ∨ (s.mach.core c).resident = false) :
    exec (.parityReplay c false savePath) s = .next (s.failedReplay c) := by
  have hsave : (savePath && (s.mach.core c).resident) = false := by rcases h with h | h <;> simp [h]
  show execParityReplay c false savePath s = _
  simp [execParityReplay, hruns, hsave]
  rfl

theorem parityReplay_effect (savePath : Bool) : ∃ t, exec (.parityReplay c false savePath) s = .next t
    ∧ t.pwr = (s.failedReplay c).pwr ∧ t.mach.health.get c = { s.mach.health.get c with lasting := true } := by
  by_cases h : savePath = false ∨ (s.mach.core c).resident = false
  · exact ⟨_, parityReplay_fails hruns h, rfl, failedReplay_health⟩
  · have hsave : (savePath && (s.mach.core c).resident) = true := by simpa [not_or] using h
    refine ⟨{ s.failedReplay c with mach := (s.failedReplay c).mach.failLaunch (s.mach.inst c).id.launch 7 }, ?_, rfl, ?_⟩
    · show execParityReplay c false savePath s = _
      simp [execParityReplay, hruns, hsave]
      rfl
    · simp only [Mach.failLaunch_health, failedReplay_health]

theorem lupinSample_runs (slack : Nat) : exec (.lupinSample c slack) s = .next { s with
    mach := s.mach.setHealth c { s.mach.health.get c with
      least := some (match (s.mach.health.get c).least with | some l => min l slack | none => slack) } } := by
  show execLupinSample c slack s = _
  simp [execLupinSample, hruns]
  rfl

/-- The plan of a core, whose registers then are y and which stays in service. -/
theorem lupinPlan_stays {y : Health} (h : (s.mach.health.get c).plan = (y, false)) :
    exec (.lupinPlan c) s = .next { s with mach := s.mach.setHealth c y } := by
  show execLupinPlan c s = _
  simp [execLupinPlan, hruns, h]

theorem lupinPlan_retires {y : Health} (h : (s.mach.health.get c).plan = (y, true)) :
    exec (.lupinPlan c) s = .next (State.retireCore { s with mach := s.mach.setHealth c y } c) := by
  show execLupinPlan c s = _
  simp [execLupinPlan, hruns, h]

end

end Sys2Proof.Machine
end

section
/-! What a write of a register does, by its offset (R5, R9, R250, R269, R410). -/

namespace Sys2Proof.Machine
open Sys2Proof Sys2Proof.Claims

theorem hasLevel_g {lvl : Sys2Proof.Level} (h : lvl ≠ .u) : hasLevel lvl .g = true := by
  cases lvl <;> simp_all [hasLevel, levelRank]

theorem hasLevel_u_g : hasLevel .u .g = false := rfl
theorem hasLevel_g_h : hasLevel .g .h = false := rfl
theorem hasLevel_h_h : hasLevel .h .h = true := rfl

section
variable {s : State} {f : FnId} {lvl : Sys2Proof.Level} {off : Nat} {v : W64}

/-- Registers that do not answer, offsets that are no multiple of 8 and level U: no effect. -/
theorem registerWrite_silent (h : s.pwr.st.answers = false ∨ off % 8 ≠ 0 ∨ lvl = .u) :
    exec (.registerWrite f lvl off v) s = .next s := by
  refine if_pos ?_
  rcases h with h | h | rfl
  · simp [h]
  · simp [h]
  · simp [hasLevel_u_g]

section
variable (hans : s.pwr.st.answers = true)
include hans

/-! ## The registers of every function -/

section
variable (hl : lvl ≠ .u)
include hl

theorem registerWrite_ctxCmd : exec (.registerWrite f lvl 0x100 v) s = ctxCmdWrite f lvl v.toNat s := by
  show execRegisterWrite f lvl 0x100 v s = _
  simp [execRegisterWrite, hans, hasLevel_g hl]

theorem registerWrite_dbgCmd : exec (.registerWrite f lvl 0x180 v) s = dbgCmdWrite f v.toNat s := by
  show execRegisterWrite f lvl 0x180 v s = _
  simp [execRegisterWrite, hans, hasLevel_g hl]

theorem registerWrite_queue (q : QId) {o : Nat} (ho : o < 64) (ho8 : o % 8 = 0) :
    exec (.registerWrite f lvl (0x3000 + o + 64 * q.val) v) s = queueWrite f q o v.toNat s := by
  have hq := q.isLt
  have hidx : Fin.ofNat 8 ((0x3000 + o + 64 * q.val - 0x3000) / 64) = q := Fin.ext (by simp only [Fin.ofNat]; omega)
  have hoff : (0x3000 + o + 64 * q.val) % 64 = o := by omega
  have h8 : (0x3000 + o + 64 * q.val) % 8 = 0 := by omega
  have hrange : 0x3000 ≤ 0x3000 + o + 64 * q.val ∧ 0x3000 + o + 64 * q.val < 0x3200 := by omega
  show execRegisterWrite f lvl _ v s = _
  simp only [execRegisterWrite, hidx, hoff, h8, hans, hasLevel_g hl, hrange]
  generalize 0x3000 + o + 64 * q.val = off at hrange
  simp (disch := omega) [if_neg]

end

/-- The argument registers take a value at level G. -/
theorem registerWrite_args :
    exec (.registerWrite f .g 0x108 v) s = s.to (s.mach.setFn f { s.mach.fn f with ctxArg := v })
    ∧ exec (.registerWrite f .g 0x148 v) s = s.to (s.mach.setFn f { s.mach.fn f with pgArg0 := v })
    ∧ exec (.registerWrite f .g 0x150 v) s = s.to (s.mach.setFn f { s.mach.fn f with pgArg1 := v })
    ∧ exec (.registerWrite f .g 0x188 v) s = s.to (s.mach.setFn f { s.mach.fn f with dbgArg := v })
    ∧ exec (.registerWrite f .g 0x190 v) s = s.to (s.mach.setFn f { s.mach.fn f with dbgData := v })
    ∧ exec (.registerWrite f .g 0xB08 v) s = s.to (s.mach.setFn f { s.mach.fn f with attArg := v }) := by
  refine ⟨?_, ?_, ?_, ?_, ?_, ?_⟩ <;> refine (if_neg (by simp [hans, hasLevel, levelRank])).trans ?_ <;> rfl

/-- The key registers take a value at level H alone. -/
theorem registerWrite_keys :
    exec (.registerWrite f .g 0x118 v) s = .next s
    ∧ exec (.registerWrite f .h 0x118 v) s = s.to (s.mach.setFn f { s.mach.fn f with key0 := v })
    ∧ exec (.registerWrite f .g 0x120 v) s = .next s
    ∧ exec (.registerWrite f .h 0x120 v) s = s.to (s.mach.setFn f { s.mach.fn f with key1 := v }) := by
  refine ⟨?_, ?_, ?_, ?_⟩ <;> refine (if_neg (by simp [hans, hasLevel, levelRank])).trans ?_ <;> rfl

/-! ## The registers of the physical function -/

theorem registerWrite_phys : exec (.registerWrite 0 .g 0x10 v) s = physWrite 0x10 v.toNat s := by
  refine (if_neg (by simp [hans, hasLevel, levelRank])).trans ?_
  rfl

theorem registerWrite_limit_g : exec (.registerWrite f .g 0x18 v) s = .next s := by
  show execRegisterWrite f .g 0x18 v s = _
  simp [execRegisterWrite, hans, hasLevel, levelRank]

theorem registerWrite_hyper (h8 : off % 8 = 0)
    (hoff : off = 0x18 ∨ 0x400 ≤ off ∧ off < 0x420 ∨ 0x900 ≤ off ∧ off < 0xA80 ∨ 0x4000 ≤ off ∧ off < 0x6000) :
    exec (.registerWrite 0 .h off v) s = hyperWrite off v.toNat s := by
  show execRegisterWrite 0 .h off v s = _
  simp only [execRegisterWrite, hans, h8, hasLevel_h_h, hasLevel_g (lvl := .h) (by decide)]
  simp (disch := omega) [if_neg]

end

/-- The registers of the physical function are not there for the others. -/
theorem registerWrite_other (hf : f ≠ 0) (hoff : off < 0x100 ∨ 0x3200 ≤ off) :
    exec (.registerWrite f lvl off v) s = .next s := by
  show execRegisterWrite f lvl off v s = _
  simp only [execRegisterWrite]
  simp (disch := omega) [if_neg, hf]

theorem hyperWrite_limit (n : Nat) :
    hyperWrite 0x18 n s = .next { s with pwr := { s.pwr with limit := BitVec.ofNat 12 (max 600 (min 2400 (n % 2 ^ 12))) } } := rfl

theorem hyperWrite_waitSwap {k : Nat} (hk : k < 4) (n : Nat) :
    hyperWrite (0x400 + 8 * k) n s = s.to (s.mach.setDie (Fin.ofNat 4 k)
      { s.mach.die (Fin.ofNat 4 k) with waitSwap := BitVec.ofNat 32 (max 4096 (n % 2 ^ 32)) }) := by
  have hidx : (0x400 + 8 * k - 0x400) / 8 = k := by omega
  simp only [hyperWrite, hidx]
  have hlo : 0x400 ≤ 0x400 + 8 * k ∧ 0x400 + 8 * k < 0x420 := by omega
  generalize 0x400 + 8 * k = off at hlo
  simp (disch := omega) [if_neg, hlo]

theorem hyperWrite_retire (c : CoreId) (v : W64) :
    hyperWrite (0x900 + 8 * c.val) v.toNat s = if v.toNat / 2 ^ 62 = 1 then exec (.hlthRetire c) s else .next s := by
  have hc := c.isLt
  have hidx : Fin.ofNat 48 ((0x900 + 8 * c.val - 0x900) / 8) = c := Fin.ext (by simp only [Fin.ofNat]; omega)
  have hfld : fld v.toNat 62 2 = v.toNat / 2 ^ 62 := Nat.mod_eq_of_lt (Nat.div_lt_of_lt_mul v.isLt)
  simp only [hyperWrite, hidx, hfld]
  have hlo : 0x900 ≤ 0x900 + 8 * c.val ∧ 0x900 + 8 * c.val < 0xA80 := by omega
  generalize 0x900 + 8 * c.val = off at hlo
  simp (disch := omega) [if_neg, hlo]
  rfl

theorem hyperWrite_ftag {k : Nat} (hk : k < 1024) (n : Nat) :
    hyperWrite (0x4000 + 8 * k) n s = s.to (s.mach.modCtx k fun x => { x with ftag := BitVec.ofNat 32 n }) := by
  have hidx : (0x4000 + 8 * k - 0x4000) / 8 = k := by omega
  simp only [hyperWrite, hidx]
  have hlo : 0x4000 ≤ 0x4000 + 8 * k ∧ 0x4000 + 8 * k < 0x6000 := by omega
  generalize 0x4000 + 8 * k = off at hlo
  simp (disch := omega) [if_neg, hlo]

/-! ## Queue registers -/

section
variable {q : QId}

theorem queueWrite_base (h : (s.mach.queue f q.val).st = .unconfigured ∨ (s.mach.queue f q.val).st = .quiesced) (n : Nat) :
    queueWrite f q 0 n s = s.to (s.mach.setQueue f q.val { s.mach.queue f q.val with base := n / 64 * 64 }) := by
  simp [queueWrite, h]

/-- BASE of a queue in use keeps its value. -/
theorem queueWrite_base_used (h₁ : (s.mach.queue f q.val).st ≠ .unconfigured) (h₂ : (s.mach.queue f q.val).st ≠ .quiesced)
    (n : Nat) : queueWrite f q 0 n s = .next s := by
  simp [queueWrite, h₁, h₂, State.to]

theorem queueWrite_widx (v : W64) : queueWrite f q 0x20 v.toNat s = exec (.widxWrite f q v) s := by
  show execWidxWrite f q (BitVec.ofNat 64 v.toNat) s = execWidxWrite f q v s
  rw [BitVec.ofNat_toNat, BitVec.setWidth_eq]

section
variable {n : Nat}

theorem queueWrite_arm (h : n % 4 = 1) : queueWrite f q 0x38 n s = exec (.arm f q) s := by
  simp only [queueWrite, h]
  rfl

theorem queueWrite_quiesce (h : n % 4 = 2) : queueWrite f q 0x38 n s = exec (.quiesce f q) s := by
  simp only [queueWrite, h]
  rfl

theorem queueWrite_reset (h : n % 4 = 3) : queueWrite f q 0x38 n s = exec (.queueReset f q) s := by
  simp only [queueWrite, h]
  rfl

end

end

/-! ## Command registers -/

theorem Mach.setFn_setFn (m : Mach) (f : FnId) (x y : FnRegs) : (m.setFn f x).setFn f y = m.setFn f y := by
  simp only [Mach.setFn, vset_vset]

/-- The context that CTX_CMD names. -/
def cmdCtx (n : Nat) : CtxId := Fin.ofNat 1024 (n / 2 ^ 8)

/-- CTX_CMD has named a context. -/
def State.ctxNamed (s : State) (f : FnId) (ctx : CtxId) : State :=
  { s with mach := s.mach.setFn f { s.mach.fn f with ctxCtx := ctx } }

theorem cmdCtx_eq (n : Nat) : (Fin.ofNat 1024 (fld n 8 10) : CtxId) = cmdCtx n :=
  Fin.ext (by simp [Fin.ofNat, fld, cmdCtx])

theorem ctxCmdWrite_busy (h : (s.mach.fn f).ctxBusy = true) (n : Nat) : ctxCmdWrite f lvl n s = .next s := by
  simp [ctxCmdWrite, h]

section
variable (hbusy : (s.mach.fn f).ctxBusy = false) {n : Nat}
include hbusy

/-- A command of every level runs in the context it names. -/
theorem ctxCmdWrite_runs (hn : n < 2 ^ 18) :
    (n % 256 = 1 → ctxCmdWrite f lvl n s = exec (.build f (cmdCtx n)) (s.ctxNamed f (cmdCtx n)))
    ∧ (n % 256 = 2 → ctxCmdWrite f lvl n s = exec (.ctxBind f (cmdCtx n)) (s.ctxNamed f (cmdCtx n)))
    ∧ (n % 256 = 4 → ctxCmdWrite f lvl n s = exec (.suspend f (cmdCtx n)) (s.ctxNamed f (cmdCtx n)))
    ∧ (n % 256 = 10 → ctxCmdWrite f lvl n s = exec (.teardown f (cmdCtx n)) (s.ctxNamed f (cmdCtx n))) := by
  refine ⟨fun h => ?_, fun h => ?_, fun h => ?_, fun h => ?_⟩ <;>
    refine (if_neg (by simp [hbusy, h])).trans ((if_neg (not_le.2 hn)).trans ?_) <;>
    simp only [h, cmdCtx_eq] <;> rfl

/-- KEYLOAD at level G has no effect. -/
theorem ctxCmdWrite_keyload_g (hop : n % 256 = 3) : ctxCmdWrite f .g n s = .next s := by
  simp [ctxCmdWrite, hbusy, hop, hasLevel_g_h]

/-- KEYLOAD with reserved bits set ends with BADARG and clears the keys. -/
theorem ctxCmdWrite_keyload_reserved (hop : n % 256 = 3) (hn : 2 ^ 18 ≤ n) : ctxCmdWrite f .h n s =
    s.to (s.mach.setFn f { s.mach.fn f with ctxCtx := cmdCtx n, key0 := 0, key1 := 0, ctxBusy := false, ctxStatus := 7 }) := by
  refine (if_neg (by simp [hbusy, hasLevel_h_h])).trans ((if_pos hn).trans ?_)
  simp only [if_pos hop, cmdCtx_eq, Mach.ctxEnd, Mach.setFn_fn, Mach.setFn_setFn]
  rfl

end

/-- A write that is no STOP of the stepped program finds the register busy (R410). -/
theorem dbgCmdWrite_busy (h : (s.mach.fn f).dbgBusy = true) {n : Nat} (hstop : stopsStep s.mach f n = false) :
    dbgCmdWrite f n s = .next s := by
  simp [dbgCmdWrite, h, hstop]

theorem stopsStep_of_no_step {m : Mach} (h : ∀ i, m.dbgInst f = some i → i.dbg.stepping = none) (n : Nat) :
    stopsStep m f n = false := by
  unfold stopsStep
  cases hi : m.dbgInst f with
  | none => simp
  | some i => simp [h i hi]

theorem stopsStep_of_other {m : Mach} {n : Nat} (h : n % 256 ≠ 1 ∨ (m.fn f).dbgArg ≠ 0) : stopsStep m f n = false := by
  rcases h with h | h
  · simp [stopsStep, h]
  · simp only [stopsStep, beq_eq_false_iff_ne.2 h, Bool.and_false, Bool.false_and]

end

end Sys2Proof.Machine
end

section
/-! The health of the cores and the writes of registers, as the statement has them (R5, R9, R250, R269, R410, R419–R422). -/

namespace Sys2Proof.Machine
open Sys2Proof Sys2Proof.Claims

/-! ## The plan of a core -/

/-- The least slack of a period. -/
def Health.leastSlack (x : Health) : Nat := match x.least with | some l => l | none => 0

/-- The registers of a core in which the least slack has been taken over. -/
def Health.taken (x : Health) : Health := { x with slack := BitVec.ofNat 8 (min 255 x.leastSlack), least := none }

theorem Health.plan_eq {x : Health} (h : x.least ≠ none) : x.plan =
    if x.leastSlack < 12 then
      (if x.voff = 30 then ({ x.taken with aged := true }, true) else ({ x.taken with voff := x.voff + 1, above := 0 }, false))
    else if 30 < x.leastSlack then
      (if 15 ≤ x.above then { x.taken with voff := x.voff - 1, above := 0 } else { x.taken with above := x.above + 1 }, false)
    else ({ x.taken with above := 0 }, false) := by
  obtain ⟨l, hl⟩ := Option.ne_none_iff_exists'.1 h
  simp only [Health.plan, Health.taken, Health.leastSlack, hl]

theorem Health.plan_none {x : Health} (h : x.least = none) : x.plan = (x, false) := by
  simp only [Health.plan, h]

section
variable {s : State} {c : CoreId} {x : Health} (hruns : s.pwr.st.running = true) (hx : s.mach.health.get c = x)
include hruns hx

/-- Without a sample there is nothing to plan. -/
theorem lupinPlan_none (h : x.least = none) : exec (.lupinPlan c) s = .next s := by
  subst hx
  rw [lupinPlan_stays hruns (Health.plan_none h), Mach.setHealth_self]

/-- The plan by the least slack of the period (R422). -/
theorem lupinPlan_some (h : x.least ≠ none) :
    (x.leastSlack < 12 → x.voff ≠ 30 → exec (.lupinPlan c) s =
      .next { s with mach := s.mach.setHealth c { x.taken with voff := x.voff + 1, above := 0 } })
    ∧ (x.leastSlack < 12 → x.voff = 30 → exec (.lupinPlan c) s =
      .next (State.retireCore { s with mach := s.mach.setHealth c { x.taken with aged := true } } c))
    ∧ (30 < x.leastSlack → x.above < 15 → exec (.lupinPlan c) s =
      .next { s with mach := s.mach.setHealth c { x.taken with above := x.above + 1 } })
    ∧ (30 < x.leastSlack → 15 ≤ x.above → exec (.lupinPlan c) s =
      .next { s with mach := s.mach.setHealth c { x.taken with voff := x.voff - 1, above := 0 } })
    ∧ (12 ≤ x.leastSlack → x.leastSlack ≤ 30 → exec (.lupinPlan c) s =
      .next { s with mach := s.mach.setHealth c { x.taken with above := 0 } }) := by
  subst hx
  have hplan := Health.plan_eq h
  refine ⟨fun hl hv => lupinPlan_stays hruns ?_, fun hl hv => lupinPlan_retires hruns ?_,
    fun hl ha => lupinPlan_stays hruns ?_, fun hl ha => lupinPlan_stays hruns ?_,
    fun hlo hhi => lupinPlan_stays hruns ?_⟩ <;> rw [hplan]
  · rw [if_pos hl, if_neg hv]
  · rw [if_pos hl, if_pos hv]
  · rw [if_neg (by omega), if_pos hl, if_neg (by omega)]
  · rw [if_neg (by omega), if_pos hl, if_pos ha]
  · rw [if_neg (by omega), if_neg (by omega)]

end

end Sys2Proof.Machine

namespace Sys2Proof
open Sys2Proof.Machine

/-- Settles O60: each event of a core's health by its lemma, each write by the register its offset names. -/
theorem healthAndRegisters : Obligations.HealthAndRegisters := by
  intro s c f n slack v lvl q ok savePath m runs x health retired leaves l y k answers write fn r ctx
  have silent {off : Nat} {lvl : Sys2Proof.Level} (h : s.pwr.st.answers = false ∨ off % 8 ≠ 0 ∨ lvl = .u) :
      write off lvl = .next s := registerWrite_silent h
  refine ⟨fun h => ?_, fun h => ?_, fun h => ?_, fun h => ?_⟩
  · have hruns := (PowerState.running_iff _).2 h
    exact ⟨hlthRetire_runs hruns, parityReplay_fails hruns, parityReplay_effect hruns savePath, parityReplay_ok hruns savePath,
      lupinSample_runs hruns slack, lupinPlan_some (c := c) hruns rfl, lupinPlan_none hruns rfl⟩
  · exact health_rests (Bool.eq_false_iff.2 (mt (PowerState.running_iff _).1 h)) ok savePath slack
  · exact silent (.inl (Bool.eq_false_iff.2 (mt (PowerState.answers_iff _).1 h)))
  · have hans := (PowerState.answers_iff _).2 h
    have toQueue {o : Nat} {lvl : Sys2Proof.Level} (hl : lvl ≠ .u) (ho : o < 64) (h8 : o % 8 = 0) :
        write (0x3000 + o + 64 * q.val) lvl = queueWrite f q o v.toNat s := registerWrite_queue hans hl q ho h8
    have toCtxCmd {lvl : Sys2Proof.Level} (hl : lvl ≠ .u) : write 0x100 lvl = ctxCmdWrite f lvl v.toNat s :=
      registerWrite_ctxCmd hans hl
    have toDbgCmd (hb : r.dbgBusy = true) (hstop : stopsStep m f v.toNat = false) : write 0x180 lvl = .next s := by
      by_cases hl : lvl = .u
      · exact silent (.inr (.inr hl))
      · exact (registerWrite_dbgCmd hans hl).trans (dbgCmdWrite_busy hb hstop)
    obtain ⟨hctxArg, hpgArg0, hpgArg1, hdbgArg, hdbgData, hattArg⟩ := registerWrite_args (f := f) (v := v) hans
    obtain ⟨hkey0g, hkey0h, hkey1g, hkey1h⟩ := registerWrite_keys (f := f) (v := v) hans
    refine ⟨silent (.inr (.inr rfl)), fun h8 => silent (.inr (.inl h8)), hctxArg, hkey0g, hkey0h, hkey1g, hkey1h,
      hpgArg0, hpgArg1, hdbgArg, hdbgData, hattArg, ?_, ?_, ?_, ?_, ?_, ?_, ?_, ?_, ?_, ?_, ?_, ?_, ?_, ?_⟩
    · rintro rfl
      have toHyper {off : Nat} (h8 : off % 8 = 0) (hoff : off = 0x18 ∨ 0x400 ≤ off ∧ off < 0x420 ∨ 0x900 ≤ off ∧ off < 0xA80 ∨
          0x4000 ≤ off ∧ off < 0x6000) : write off .h = hyperWrite off v.toNat s := registerWrite_hyper hans h8 hoff
      have toRetire := (toHyper (by omega) (by have := c.isLt; omega)).trans (hyperWrite_retire c v)
      exact ⟨registerWrite_limit_g hans, (toHyper rfl (.inl rfl)).trans (hyperWrite_limit _),
        fun hn => (toHyper (by omega) (by omega)).trans (hyperWrite_ftag hn _),
        fun hn => (toHyper (by omega) (by omega)).trans (hyperWrite_waitSwap hn _),
        fun hv => toRetire.trans (if_pos hv), fun hv => toRetire.trans (if_neg hv), registerWrite_phys hans⟩
    · exact fun hf => ⟨registerWrite_other hf (by decide), registerWrite_other hf (by decide),
        fun _ => registerWrite_other hf (by omega)⟩
    · exact fun hk => (toQueue (o := 0) (by decide) (by decide) rfl).trans (queueWrite_base hk _)
    · exact fun h₁ h₂ => (toQueue (o := 0) (by decide) (by decide) rfl).trans (queueWrite_base_used h₁ h₂ _)
    · split
      · next hl => exact silent (.inr (.inr hl))
      · next hl => exact (toQueue (o := 0x20) hl (by decide) rfl).trans (queueWrite_widx v)
    · exact fun hl hv => (toQueue (o := 0x38) hl (by decide) rfl).trans (queueWrite_arm hv)
    · exact fun hl hv => (toQueue (o := 0x38) hl (by decide) rfl).trans (queueWrite_quiesce hv)
    · exact fun hl hv => (toQueue (o := 0x38) hl (by decide) rfl).trans (queueWrite_reset hv)
    · intro hb
      by_cases hl : lvl = .u
      · exact silent (.inr (.inr hl))
      · exact (toCtxCmd hl).trans (ctxCmdWrite_busy hb _)
    · intro hb hl hv
      obtain ⟨hbuild, hbind, hsuspend, hteardown⟩ := ctxCmdWrite_runs (lvl := lvl) hb hv
      have hcmd := toCtxCmd hl
      exact ⟨fun h => hcmd.trans (hbuild h), fun h => hcmd.trans (hbind h), fun h => hcmd.trans (hsuspend h),
        fun h => hcmd.trans (hteardown h)⟩
    · exact fun hb hop => (toCtxCmd (by decide)).trans (ctxCmdWrite_keyload_g hb hop)
    · exact fun hb hop hv => (toCtxCmd (by decide)).trans (ctxCmdWrite_keyload_reserved hb hop hv)
    · exact fun hb hstep => toDbgCmd hb (stopsStep_of_no_step hstep _)
    · exact fun hb hother => toDbgCmd hb (stopsStep_of_other hother)

end Sys2Proof
end

section
/-! Which steps change the module block, and that every step keeps the power limit legal (R23, R26–R28, R423). -/

namespace Sys2Proof.Machine
open Sys2Proof Sys2Proof.Claims

/-! ## Steps that leave the module block alone -/

/-- Where an outcome is a next state, its module block is p. -/
def KeepsPower (p : Power) (o : Out) : Prop := ∀ t, o = .next t → t.pwr = p

@[simp] theorem keepsPower_next (p : Power) (t : State) : KeepsPower p (.next t) ↔ t.pwr = p :=
  ⟨fun h => h t rfl, fun h _ e => by cases e; exact h⟩

@[simp] theorem keepsPower_fault (p : Power) (r : Fault) : KeepsPower p (.fault r) := fun _ h => nomatch h

@[simp] theorem keepsPower_to (p : Power) (s : State) (m : Mach) : KeepsPower p (s.to m) ↔ s.pwr = p := keepsPower_next ..

theorem KeepsPower.ite {p : Power} {c : Prop} [Decidable c] {a b : Out} (ha : KeepsPower p a) (hb : KeepsPower p b) :
    KeepsPower p (if c then a else b) := by
  split
  · exact ha
  · exact hb

section
variable {p : Power} {s : State} (h : s.pwr = p)
include h

theorem keepsPower_dbgCmd (f : FnId) (go : Mach → Inst → Except Nat Mach) : KeepsPower p (s.dbgCmd f go) := by
  dsimp only [State.dbgCmd]
  repeat' split
  all_goals simp [h]

theorem keepsPower_dbgCtxCmd (f : FnId) (go : Mach → Ctx → Except Nat Ctx) : KeepsPower p (s.dbgCtxCmd f go) := by
  dsimp only [State.dbgCtxCmd]
  repeat' split
  all_goals simp [h]

theorem keepsPower_ctxCmd (f : FnId) (ctx : CtxId) (states : List CtxState) (go : Mach → Ctx → Nat → Except Nat Mach) :
    KeepsPower p (s.ctxCmd f ctx states go) := by
  dsimp only [State.ctxCmd]
  repeat' split
  all_goals simp [h]

theorem keepsPower_onRecord (f : FnId) (q : QId) (typ : Nat) (go : Taken → Mach) : KeepsPower p (s.onRecord f q typ go) := by
  dsimp only [State.onRecord]
  split <;> simp [h]

end

/-- The steps that may change the module block. -/
def ChangesPower : Instr → Prop
  | .modEnAssert _ | .powerOff | .cxlFundamentalReset | .bootVerification _ | .powerWindowEnd _ | .thermalSensorRead _ _
  | .layerSensorRead _ _ _ | .powerOverrunStop _ _ | .moduleResume _ _ _ _ | .registerWrite _ _ _ _ | .parityReplay _ _ _
  | .lupinPlan _ | .hlthRetire _ => True
  | _ => False

/-- Every other instruction leaves the module block as it is: what it does is done to the machine (R26–R28, R423). -/
theorem keepsPower_exec (i : Instr) (s : State) (h : ¬ChangesPower i) : KeepsPower s.pwr (exec i s) := by
  cases i with
  | modEnAssert | powerOff | cxlFundamentalReset | bootVerification | powerWindowEnd | thermalSensorRead | layerSensorRead
  | powerOverrunStop | moduleResume | registerWrite | parityReplay | lupinPlan | hlthRetire => exact absurd trivial h
  | stop | go | step | settle | rdstate | wrstate | watch | wsnap =>
    dsimp only [exec, execStop, execGo, execStep, execSettle, execRdstate, execWrstate, execWatch, execWsnap]
    exact keepsPower_dbgCmd rfl _ _
  | trccfg | wlcfg | attach =>
    dsimp only [exec, execTrccfg, execWlcfg, execAttach]
    exact keepsPower_dbgCtxCmd rfl _ _
  | build | ctxBind | keyload | ctxResume | spill | iresume | ikill | migrate | teardown | release =>
    dsimp only [exec, execBuild, execCtxBind, execKeyload, execCtxResume, execSpill, execIresume, execIkill,
      execMigrate, execTeardown, execRelease]
    exact keepsPower_ctxCmd rfl _ _ _ _
  | suspend =>
    dsimp only [exec, execSuspend]
    split
    · simp
    · exact keepsPower_ctxCmd rfl _ _ _ _
  | queueLaunch | queueWait | queueSignal | queueCond | queueLoop | queueSwitch =>
    dsimp only [exec, execQueueLaunch, execQueueWait, execQueueSignal, execQueueCond, execQueueLoop, execQueueSwitch]
    exact keepsPower_onRecord rfl _ _ _ _
  | teamSwap | steal | placementEval | launchRetire | barrierRelease | barrierArrivalForward | spinRecheck | rekeyDone
  | teardownDone | migrateAck | arm | quiesce | queueReset | widxWrite | waitRecheck | waitTimeout | completionEntryPost
  | inval | pcomplete | pgRetire | asidScrubDone | retrain | linkTrainingEnd | linkReplay | replayAccepted
  | packetLinkfail | reserve | free | sredSlotTimeout | collectTimeout | stateTimeout | arbiterSilenceTimeout | abort
  | refresh | dramRequest | selfRefreshEntry | selfRefreshExit | hotRowWindowEnd | attest | getcert | lupinSample
  | cxlMemAccess | jtagPrivate =>
    dsimp only [exec, execTeamSwap, execSteal, execPlacementEval, execLaunchRetire, execBarrierRelease,
      execBarrierArrivalForward, execSpinRecheck, execRekeyDone, execTeardownDone, execMigrateAck, execArm, execQuiesce,
      execQueueReset, execWidxWrite, execWaitRecheck, execWaitTimeout, execCompletionEntryPost, execInval, execPcomplete,
      execPgRetire, execAsidScrubDone, execRetrain, execLinkTrainingEnd, execLinkReplay, execReplayAccepted,
      execPacketLinkfail, execReserve, execFree, execSredSlotTimeout, execCollectTimeout, execStateTimeout,
      execArbiterSilenceTimeout, execAbort, execRefresh, execDramRequest, execSelfRefreshEntry, execSelfRefreshExit,
      execHotRowWindowEnd, execAttest, execGetcert, execLupinSample, execCxlMemAccess, execJtagPrivate, State.toTap]
    repeat' split
    all_goals simp
  | _ => exact (keepsPower_to ..).2 rfl

/-! ## The power limit (R23) -/

/-- Where an outcome is a next state, its power limit is legal if that of p is. -/
def KeepsLegal (p : Power) (o : Out) : Prop := ∀ t, o = .next t → Safety.PowerLegal p → Safety.PowerLegal t.pwr

@[simp] theorem keepsLegal_next (p : Power) (t : State) :
    KeepsLegal p (.next t) ↔ (Safety.PowerLegal p → Safety.PowerLegal t.pwr) :=
  ⟨fun h => h t rfl, fun h _ e => by cases e; exact h⟩

theorem KeepsPower.keepsLegal {p : Power} {o : Out} (h : KeepsPower p o) : KeepsLegal p o := fun t ht hp => h t ht ▸ hp

theorem keepsLegal_to {s : State} {m : Mach} : KeepsLegal s.pwr (s.to m) := ((keepsPower_to ..).2 rfl).keepsLegal

theorem keepsLegal_self {s : State} : KeepsLegal s.pwr (.next s) := ((keepsPower_next ..).2 rfl).keepsLegal

theorem KeepsLegal.ite {p : Power} {c : Prop} [Decidable c] {a b : Out} (ha : KeepsLegal p a) (hb : KeepsLegal p b) :
    KeepsLegal p (if c then a else b) := by
  split
  · exact ha
  · exact hb

/-- Two blocks with the same limit are legal alike. -/
theorem powerLegal_of_limit {p q : Power} (h : q.limit = p.limit) (hp : Safety.PowerLegal p) : Safety.PowerLegal q := by
  rwa [Safety.PowerLegal, h]

/-- The limit after reset and after power is lost. -/
theorem powerLegal_default {p : Power} (h : p.limit = 2400) : Safety.PowerLegal p := by
  rw [Safety.PowerLegal, h]; decide

/-- A write of PLIMIT is clamped. -/
theorem powerLegal_clamped {p : Power} (v : Nat) (h : p.limit = BitVec.ofNat 12 (clampNat 600 2400 v)) :
    Safety.PowerLegal p := by
  rw [Safety.PowerLegal, h, BitVec.toNat_ofNat]
  simp only [clampNat]
  omega

@[simp] theorem State.halt_limit (s : State) (thermal : Bool) : (s.halt thermal).pwr.limit = s.pwr.limit := by
  cases thermal <;> simp only [State.halt] <;> split <;> rfl

/-! ### Writes of registers -/

section
variable {s : State} {f : FnId} {lvl : Sys2Proof.Level}

theorem keepsPower_ctxCmdWrite (v : Nat) : KeepsPower s.pwr (ctxCmdWrite f lvl v s) := by
  dsimp only [ctxCmdWrite]
  split
  · simp
  split
  · simp
  split
  exacts [keepsPower_exec (.build f _) _ id, keepsPower_exec (.ctxBind f _) _ id, keepsPower_exec (.keyload f _) _ id,
    keepsPower_exec (.suspend f _) _ id, keepsPower_exec (.ctxResume f _) _ id, keepsPower_exec (.spill f _) _ id,
    keepsPower_exec (.iresume f _) _ id, keepsPower_exec (.ikill f _) _ id, keepsPower_exec (.migrate f _) _ id,
    keepsPower_exec (.teardown f _) _ id, keepsPower_exec (.release f _) _ id, (keepsPower_to ..).2 rfl]

theorem keepsPower_pgCmdWrite (v : Nat) : KeepsPower s.pwr (pgCmdWrite f lvl v s) := by
  dsimp only [pgCmdWrite]
  split
  · simp
  split
  · simp
  split
  exacts [keepsPower_exec (.inval f _) _ id, keepsPower_exec (.pcomplete f _) _ id, keepsPower_exec (.pgRetire f) _ id,
    (keepsPower_to ..).2 rfl]

theorem keepsPower_dbgCmdWrite (v : Nat) : KeepsPower s.pwr (dbgCmdWrite f v s) := by
  dsimp only [dbgCmdWrite]
  split
  · simp
  split
  · simp
  split
  exacts [keepsPower_exec (.stop f) _ id, keepsPower_exec (.go f) _ id, keepsPower_exec (.step f) _ id,
    keepsPower_exec (.settle f) _ id, keepsPower_exec (.rdstate f) _ id, keepsPower_exec (.wrstate f) _ id,
    keepsPower_exec (.watch f) _ id, keepsPower_exec (.trccfg f) _ id, keepsPower_exec (.wlcfg f) _ id,
    keepsPower_exec (.wsnap f) _ id, keepsPower_exec (.attach f) _ id, (keepsPower_to ..).2 rfl]

theorem keepsPower_attWrite (v : Nat) : KeepsPower s.pwr (attWrite f v s) := by
  unfold attWrite
  split
  exacts [keepsPower_exec (.attest f) _ id, keepsPower_exec (.getcert f) _ id, (keepsPower_to ..).2 rfl]

theorem keepsPower_swWrite (v : Nat) : KeepsPower s.pwr (swWrite v s) := by
  dsimp only [swWrite]
  split
  · simp
  split
  exacts [keepsPower_exec .reserve _ id, keepsPower_exec .free _ id, (keepsPower_to ..).2 rfl]

theorem keepsPower_queueWrite (q : QId) (o v : Nat) : KeepsPower s.pwr (queueWrite f q o v s) := by
  dsimp only [queueWrite]
  split
  case h_5 => exact keepsPower_exec (.widxWrite f q _) _ id
  case h_6 =>
    split
    exacts [keepsPower_exec (.arm f q) _ id, keepsPower_exec (.quiesce f q) _ id, keepsPower_exec (.queueReset f q) _ id,
      (keepsPower_next ..).2 rfl]
  all_goals simp

theorem keepsPower_windowWrite (csr v : Nat) : KeepsPower s.pwr (windowWrite f lvl csr v s) := by
  dsimp only [windowWrite]
  split
  · exact (keepsPower_next ..).2 rfl
  · exact .ite ((keepsPower_to ..).2 rfl) (.ite ((keepsPower_to ..).2 rfl) ((keepsPower_next ..).2 rfl))

theorem keepsPower_linkWrite (l : LinkId) (v : Nat) : KeepsPower s.pwr (linkWrite l v s) := by
  unfold linkWrite
  split
  exacts [keepsPower_exec (.linkDown l) _ id, keepsPower_exec (.retrain l) _ id, (keepsPower_next ..).2 rfl]

theorem keepsLegal_hlthRetire (c : CoreId) : KeepsLegal s.pwr (execHlthRetire c s) := by
  refine (keepsLegal_next ..).2 (powerLegal_of_limit ?_)
  split <;> rfl

/-- The write of PLIMIT is clamped; the others of its level leave the limit (R23). -/
theorem keepsLegal_hyperWrite (off v : Nat) : KeepsLegal s.pwr (hyperWrite off v s) :=
  .ite ((keepsLegal_next ..).2 fun _ => powerLegal_clamped _ rfl)
  <| .ite keepsLegal_to <| .ite keepsLegal_to <| .ite keepsLegal_to <| .ite keepsLegal_to
  <| .ite (keepsPower_swWrite v).keepsLegal <| .ite keepsLegal_to <| .ite keepsLegal_to
  <| .ite (keepsPower_linkWrite _ v).keepsLegal <| .ite (keepsPower_linkWrite _ v).keepsLegal
  <| .ite (.ite (keepsLegal_hlthRetire _) keepsLegal_self) <| .ite keepsLegal_to keepsLegal_self

theorem keepsLegal_physWrite (off v : Nat) : KeepsLegal s.pwr (physWrite off v s) :=
  .ite ((keepsLegal_next ..).2 (powerLegal_of_limit rfl)) <| .ite keepsLegal_to keepsLegal_self

theorem keepsLegal_registerWrite (off : Nat) (v : W64) : KeepsLegal s.pwr (execRegisterWrite f lvl off v s) :=
  .ite keepsLegal_self <| .ite (keepsPower_ctxCmdWrite _).keepsLegal
  <| .ite keepsLegal_to <| .ite keepsLegal_to <| .ite keepsLegal_to
  <| .ite (keepsPower_pgCmdWrite _).keepsLegal <| .ite keepsLegal_to <| .ite keepsLegal_to
  <| .ite (keepsPower_dbgCmdWrite _).keepsLegal <| .ite keepsLegal_to <| .ite keepsLegal_to
  <| .ite (keepsPower_attWrite _).keepsLegal <| .ite keepsLegal_to
  <| .ite (keepsPower_windowWrite _ _).keepsLegal <| .ite (keepsPower_queueWrite _ _ _).keepsLegal
  <| .ite keepsLegal_self <| .ite (keepsLegal_physWrite _ _) <| .ite (keepsLegal_hyperWrite _ _) keepsLegal_self

end

/-! ### Every step -/

/-- Every instruction keeps the power limit legal (R23). -/
theorem keepsLegal_exec (i : Instr) (s : State) : KeepsLegal s.pwr (exec i s) := by
  by_cases h : ChangesPower i
  · cases i with
    | registerWrite f lvl off v => exact keepsLegal_registerWrite off v
    | hlthRetire c => exact keepsLegal_hlthRetire c
    | powerOff | cxlFundamentalReset =>
      refine (keepsLegal_next ..).2 fun hp => ?_
      split
      · exact hp
      · exact powerLegal_default rfl
    | modEnAssert =>
      refine (keepsLegal_next ..).2 fun hp => ?_
      split
      · exact powerLegal_default rfl
      · exact hp
    | powerWindowEnd | moduleResume | powerOverrunStop =>
      refine (keepsLegal_next ..).2 (powerLegal_of_limit ?_)
      split <;> simp
    | thermalSensorRead | layerSensorRead =>
      refine .ite keepsLegal_self ((keepsLegal_next ..).2 (powerLegal_of_limit ?_))
      split <;> simp
    | bootVerification =>
      exact .ite keepsLegal_self <| .ite ((keepsLegal_next ..).2 (powerLegal_of_limit rfl))
        ((keepsLegal_next ..).2 (powerLegal_of_limit rfl))
    | parityReplay =>
      exact .ite keepsLegal_self <| .ite keepsLegal_to <| .ite ((keepsLegal_next ..).2 (powerLegal_of_limit rfl))
        ((keepsLegal_next ..).2 (powerLegal_of_limit rfl))
    | lupinPlan c =>
      dsimp only [exec, execLupinPlan]
      refine .ite keepsLegal_self ((keepsLegal_next ..).2 (powerLegal_of_limit ?_))
      split <;> rfl
    | _ => exact h.elim
  · exact (keepsPower_exec i s h).keepsLegal

section
variable {s : State} {c : CoreId}

theorem keepsLegal_streamTurn (e : Eng) : KeepsLegal s.pwr (s.streamTurn c e) := by
  dsimp only [State.streamTurn]
  split
  · split
    · exact keepsLegal_exec _ _
    · exact keepsLegal_to
    · exact keepsLegal_to
    · split <;> exact keepsLegal_exec _ _
  · split <;> exact keepsLegal_exec _ s

theorem keepsLegal_nestTurn : KeepsLegal s.pwr (s.nestTurn c) := by
  dsimp only [State.nestTurn]
  split
  · exact keepsLegal_to
  · refine .ite (keepsLegal_exec _ _) ?_
    split
    · exact keepsLegal_exec _ _
    · exact keepsLegal_to

theorem keepsLegal_xferTurn : KeepsLegal s.pwr (s.xferTurn c) := by
  dsimp only [State.xferTurn]
  split
  · exact keepsLegal_exec _ _
  · split
    · exact keepsLegal_exec _ _
    · exact keepsLegal_to

theorem keepsLegal_fabricTurn : KeepsLegal s.pwr (s.fabricTurn c) := by
  refine .ite (keepsLegal_exec _ s) <| .ite (keepsLegal_exec _ s) <| .ite (keepsLegal_exec _ s) ?_
  split
  · exact keepsLegal_self
  · split
    case h_9 => exact keepsLegal_self
    all_goals exact keepsLegal_exec _ s

end

theorem keepsLegal_turn (s : State) : KeepsLegal s.pwr s.turn := by
  refine .ite keepsLegal_self ?_
  split
  exacts [keepsLegal_streamTurn _, keepsLegal_nestTurn, keepsLegal_xferTurn, keepsLegal_exec _ s, keepsLegal_fabricTurn]

@[simp] theorem State.tick_pwr (s : State) : s.tick.pwr = s.pwr := by
  simp only [State.tick]

/-- A step is an instruction of the agenda, or a turn and the cycle that follows it. -/
theorem keepsLegal_step (s : State) : KeepsLegal s.pwr (step s) := by
  dsimp only [step]
  split
  · exact keepsLegal_exec _ _
  · refine .ite keepsLegal_self ?_
    have hturn := keepsLegal_turn s
    split
    · next h => simpa [h] using hturn
    · exact fun _ h => nomatch h
    · exact fun _ h => nomatch h

end Sys2Proof.Machine

namespace Sys2Proof
open Sys2Proof.Machine

/-- Settles O15: an instruction leaves the limit, clamps it or resets it, and a turn runs instructions. -/
theorem powerStaysLegal : Obligations.PowerStaysLegal := by
  intro s t hlegal hstep
  exact keepsLegal_step s t hstep hlegal

/-- Settles O16: every other instruction is an update of the machine beside the module block. -/
theorem whoChangesPower : Obligations.WhoChangesPower := by
  intro i s t ht hne
  have hi : ChangesPower i := by_contra fun h => hne (keepsPower_exec i s h t ht)
  cases i with
  | modEnAssert | powerOff | cxlFundamentalReset | bootVerification | powerWindowEnd | thermalSensorRead | layerSensorRead
  | powerOverrunStop | moduleResume | registerWrite | parityReplay | lupinPlan | hlthRetire => simp
  | _ => exact hi.elim

/-- Settles O14. -/
theorem powerLegalAtReset : Obligations.PowerLegalAtReset := powerLegal_default rfl

end Sys2Proof
end

section
/-! The module after reset (R5, R28): every record at its default. -/

namespace Sys2Proof.Machine
open Sys2Proof Sys2Proof.Claims

theorem get_replicate {α : Type} {n : Nat} (x : α) (i : Fin n) : (Vector.replicate n x).get i = x := by
  simp [Vector.get_eq_getElem]

theorem reset_core (c : CoreId) : State.reset.mach.core c = {} := get_replicate _ c

theorem reset_inst (c : CoreId) : State.reset.mach.inst c = {} := by rw [Mach.inst, reset_core]

/-- A sequencer after reset reads every register as zero (R119). -/
theorem Seq.get_default (r : Reg) : ({} : Seq).get r = 0 := by
  unfold Seq.get
  split
  · rfl
  · exact get_replicate _ _

/-- The generators stand as SEED 0 leaves them (R72). -/
theorem gens_default : ({} : Inst).gens = seedAll 0 := by decide

end Sys2Proof.Machine

namespace Sys2Proof
open Sys2Proof.Machine

/-- Settles O13, record by record. -/
theorem resetState : Obligations.ResetState := by
  unfold Obligations.ResetState
  intro s m
  refine ⟨rfl, rfl, rfl, rfl, rfl, fun d => get_replicate _ d, rfl, rfl, rfl, fun c => ?_, fun n => rfl, fun f q => rfl,
    fun l => ?_, fun l => ?_, fun d => ?_, fun c => ?_, rfl, rfl, rfl, rfl⟩
  · rw [show m.core c = {} from reset_core c]
  · rw [show m.gw.get l = {} from get_replicate _ l]
  · rw [show m.ucie.get l = {} from get_replicate _ l]
  · rw [show m.die d = {} from get_replicate _ d]
  · intro i
    rw [show i = {} from reset_inst c]
    exact ⟨fun k => by rw [gens_default, seedAll_get], rfl, rfl, rfl, rfl, rfl, Seq.get_default, rfl, rfl,
      fun k => get_replicate _ k⟩

end Sys2Proof
end

section
/-! What sending packets does: each packet goes on its way, and little else changes (R21, R22, R353, R356). -/

namespace Sys2Proof.Machine
open Sys2Proof Sys2Proof.Claims

/-- n is m after packets have been put on their way: what stood on the agenda, on the links and among the packets that are
kept stands there still, before what is new. -/
structure Sends (m n : Mach) : Prop where
  rest : ∃ ctxs seqs agenda wire unacked timers, n = { m with
    ctxs := ctxs, seqs := seqs, agenda := agenda, wire := wire, unacked := unacked, timers := timers }
  agenda : m.agenda <+: n.agenda
  wire : m.wire <+: n.wire
  unacked : m.unacked <+: n.unacked

section
variable {m n k : Mach} {p q : Packet}

theorem Sends.refl (m : Mach) : Sends m m :=
  ⟨⟨_, _, _, _, _, _, rfl⟩, List.prefix_rfl, List.prefix_rfl, List.prefix_rfl⟩

theorem Sends.trans (h : Sends m n) (h' : Sends n k) : Sends m k := by
  obtain ⟨_, _, _, _, _, _, rfl⟩ := h.rest
  obtain ⟨_, _, _, _, _, _, rfl⟩ := h'.rest
  exact ⟨⟨_, _, _, _, _, _, rfl⟩, h.agenda.trans h'.agenda, h.wire.trans h'.wire, h.unacked.trans h'.unacked⟩

/-- Sends one after the other. -/
theorem Sends.foldl {α : Type} {f : Mach → α → Mach} (h : ∀ m x, Sends m (f m x)) (l : List α) (m : Mach) :
    Sends m (l.foldl f m) := by
  induction l generalizing m with
  | nil => exact .refl m
  | cons x t ih => exact (h m x).trans (ih _)

/-! ## What is as it was -/

theorem Sends.cores (h : Sends m n) : n.cores = m.cores := by obtain ⟨_, _, _, _, _, _, rfl⟩ := h.rest; rfl
theorem Sends.images (h : Sends m n) : n.images = m.images := by obtain ⟨_, _, _, _, _, _, rfl⟩ := h.rest; rfl
theorem Sends.mem (h : Sends m n) : n.mem = m.mem := by obtain ⟨_, _, _, _, _, _, rfl⟩ := h.rest; rfl
theorem Sends.pkg (h : Sends m n) : n.pkg = m.pkg := by obtain ⟨_, _, _, _, _, _, rfl⟩ := h.rest; rfl
theorem Sends.rounds (h : Sends m n) : n.rounds = m.rounds := by obtain ⟨_, _, _, _, _, _, rfl⟩ := h.rest; rfl
theorem Sends.redSlots (h : Sends m n) : n.redSlots = m.redSlots := by obtain ⟨_, _, _, _, _, _, rfl⟩ := h.rest; rfl
theorem Sends.consumed (h : Sends m n) : n.consumed = m.consumed := by obtain ⟨_, _, _, _, _, _, rfl⟩ := h.rest; rfl
theorem Sends.hostWrites (h : Sends m n) : n.hostWrites = m.hostWrites := by obtain ⟨_, _, _, _, _, _, rfl⟩ := h.rest; rfl
theorem Sends.ucie (h : Sends m n) : n.ucie = m.ucie := by obtain ⟨_, _, _, _, _, _, rfl⟩ := h.rest; rfl

/-- A packet on its way stays so. -/
theorem Sends.leaves (h : Sends m n) (hq : Leaves m q) : Leaves n q :=
  hq.imp (h.agenda.mem ·) (Or.imp (h.wire.mem ·) (h.unacked.mem ·))

/-! ## Sending -/

theorem Mach.chargePacket_eq (m : Mach) (p : Packet) : ∃ l, m.chargePacket p = { m with ctxs := l } := by
  unfold Mach.chargePacket
  split
  · exact ⟨_, rfl⟩
  · exact ⟨_, rfl⟩

theorem sends_chargePacket : Sends m (m.chargePacket p) := by
  obtain ⟨l, h⟩ := m.chargePacket_eq p
  rw [h]
  exact ⟨⟨_, _, _, _, _, _, rfl⟩, List.prefix_rfl, List.prefix_rfl, List.prefix_rfl⟩

theorem sends_post (l : List Instr) : Sends m (m.post l) :=
  ⟨⟨_, _, _, _, _, _, rfl⟩, List.prefix_append .., List.prefix_rfl, List.prefix_rfl⟩

theorem sends_waitLink (k : Nat) : Sends m (m.waitLink k p) :=
  ⟨⟨_, _, _, _, _, _, rfl⟩, List.prefix_rfl, List.prefix_rfl, List.prefix_append ..⟩

theorem waitLink_waits (k : Nat) : (k, p) ∈ (m.waitLink k p).unacked := by simp [Mach.waitLink, Mach.timer]

/-- A packet put on a link is on its way, and is kept unless it is an acknowledgement (R353). -/
theorem Mach.putOut_eq (m : Mach) (p : Packet) (l : Fin 16) : ∃ x, m.putOut l p = { m with
    ctxs := x, wire := m.wire ++ [p], unacked := if p.typ = .ack then m.unacked else m.unacked ++ [(l.val, p)] } := by
  obtain ⟨x, hx⟩ := Mach.chargePacket_eq { m with wire := m.wire ++ [p] } p
  unfold Mach.putOut
  simp only [hx]
  split <;> split <;> exact ⟨_, rfl⟩

theorem sends_putOut (l : Fin 16) : Sends m (m.putOut l p) := by
  obtain ⟨x, h⟩ := m.putOut_eq p l
  rw [h]
  refine ⟨⟨_, _, _, _, _, _, rfl⟩, List.prefix_rfl, List.prefix_append .., ?_⟩
  show m.unacked <+: if _ then _ else _
  split
  · exact List.prefix_rfl
  · exact List.prefix_append ..

theorem putOut_wire (l : Fin 16) : p ∈ (m.putOut l p).wire := by
  obtain ⟨x, h⟩ := m.putOut_eq p l
  simp [h]

/-- A packet that is transmitted is on its way. -/
theorem transmit_sends : Sends m (m.transmit p) ∧ Leaves (m.transmit p) p := by
  unfold Mach.transmit
  split
  · exact ⟨sends_waitLink 16, .inr (.inr (waitLink_waits 16))⟩
  split
  · split
    · refine ⟨.trans (n := if p.srcDie = p.dstDie then m else m.chargePacket p) ?_ (sends_post _), .inl (by simp)⟩
      split
      · exact .refl m
      · exact sends_chargePacket
    · exact ⟨sends_waitLink 16, .inr (.inr (waitLink_waits 16))⟩
  · split
    · exact ⟨sends_putOut _, .inr (.inl (putOut_wire _))⟩
    · exact ⟨sends_waitLink 16, .inr (.inr (waitLink_waits 16))⟩

/-- A packet that is sent is on its way with its number. -/
theorem send_sends : Sends m (m.send p) ∧ ∃ j, Leaves (m.send p) { p with seq := j } := by
  have hnumber : Sends m (m.number p).2 := ⟨⟨_, _, _, _, _, _, rfl⟩, List.prefix_rfl, List.prefix_rfl, List.prefix_rfl⟩
  obtain ⟨hsends, hleaves⟩ := transmit_sends (m := (m.number p).2) (p := (m.number p).1)
  exact ⟨hnumber.trans hsends, _, hleaves⟩

/-- Packets that are sent are on their way with their numbers. -/
theorem sendAll_sends (l : List Packet) : Sends m (m.sendAll l) ∧ ∀ p ∈ l, ∃ j, Leaves (m.sendAll l) { p with seq := j } := by
  induction l generalizing m with
  | nil => exact ⟨.refl m, by simp⟩
  | cons q t ih =>
    obtain ⟨hsends, j, hleaves⟩ := send_sends (m := m) (p := q)
    obtain ⟨hrest, hall⟩ := ih (m := m.send q)
    refine ⟨hsends.trans hrest, fun p hp => ?_⟩
    rcases List.mem_cons.1 hp with rfl | hp
    · exact ⟨j, hrest.leaves hleaves⟩
    · exact hall p hp

/-- A packet that the IOD sends is on its way, with a number and the die by which it leaves, or waits there (R21). -/
theorem sendIod_sends : Sends m (m.sendIod p) ∧ ∃ j d, LeavesIod (m.sendIod p) { p with seq := j, srcDie := d } := by
  unfold Mach.sendIod
  split
  · obtain ⟨hsends, j, hleaves⟩ := send_sends (m := m) (p := p)
    exact ⟨hsends, j, p.srcDie, .inl hleaves⟩
  split
  next d _ =>
    obtain ⟨hsends, j, hleaves⟩ := send_sends (m := m) (p := { p with srcDie := d })
    exact ⟨hsends, j, d, .inl hleaves⟩
  next => exact ⟨sends_waitLink 17, p.seq, p.srcDie, .inr (waitLink_waits 17)⟩

end

end Sys2Proof.Machine
end

section
/-! The links between dies and modules (R22, R352–R354): what waits for one, what one carried, and the rows of
Table 15.2. -/

namespace Sys2Proof.Machine
open Sys2Proof Sys2Proof.Claims

/-! ## What a packet on its way leaves alone -/

/-- What the host's writes depend on is as it was: the writes that wait and the links inside the module. -/
def SameHostSide (m n : Mach) : Prop := n.hostWrites = m.hostWrites ∧ n.ucie = m.ucie

theorem SameHostSide.refl (m : Mach) : SameHostSide m m := ⟨rfl, rfl⟩

theorem SameHostSide.trans {m n k : Mach} (h : SameHostSide m n) (h' : SameHostSide n k) : SameHostSide m k :=
  ⟨h'.1.trans h.1, h'.2.trans h.2⟩

/-- Updates that leave the host's side, one after the other. -/
theorem SameHostSide.foldl {α : Type} {f : Mach → α → Mach} (h : ∀ m x, SameHostSide m (f m x)) (l : List α) (m : Mach) :
    SameHostSide m (l.foldl f m) := by
  induction l generalizing m with
  | nil => exact .refl m
  | cons x t ih => exact (h m x).trans (ih _)

theorem Sends.sameHostSide {m n : Mach} (h : Sends m n) : SameHostSide m n := ⟨h.hostWrites, h.ucie⟩

section
variable (m : Mach)

theorem sameHostSide_resumePackets : SameHostSide m m.resumePackets := by
  refine SameHostSide.trans ⟨rfl, rfl⟩ (SameHostSide.foldl (fun n e => ?_) _ _)
  split
  · exact sendIod_sends.1.sameHostSide
  · exact transmit_sends.1.sameHostSide

/-! ## The host's waiting writes (R22, R370) -/

theorem Mach.foldl_store_hostWrites (l : List (Nat × List Byte)) :
    (l.foldl (fun m w => m.store w.1 w.2) m).hostWrites = m.hostWrites := by
  induction l generalizing m with
  | nil => rfl
  | cons w t ih => exact ih _

theorem Mach.drainHost_hostWrites :
    m.drainHost.hostWrites = m.hostWrites.filter fun w => !m.iodUsable (dieOfPa w.1) := by
  simp only [Mach.drainHost, Mach.foldl_store_hostWrites]

end

section
variable {m : Mach} {l : LinkId}

/-- A link that carries packets lets the host's waiting writes go on. -/
theorem linkChanged_hostWrites (h : (m.link l).usable = true) :
    (m.linkChanged l).hostWrites = m.hostWrites.filter fun w => !m.iodUsable (dieOfPa w.1) := by
  obtain ⟨hw, hu⟩ := sameHostSide_resumePackets m
  simp only [Mach.linkChanged, h, if_true, Mach.drainHost_hostWrites, Mach.iodUsable, hw, hu]

theorem resumePackets_idle (h : m.unacked = []) : m.resumePackets = m := by
  have hsame : ∀ ts, ts = m.timers → ({ m with unacked := [], timers := ts } : Mach) = m := by
    rintro _ rfl
    rw [← h]
  simp only [Mach.resumePackets, h, List.filter_nil, List.foldl_nil]
  exact hsame _ (List.filter_eq_self.2 fun t _ => by split <;> rfl)

theorem drainHost_idle (h : m.hostWrites = []) : m.drainHost = m := by
  simp only [Mach.drainHost, h, List.filter_nil, List.foldl_nil]
  rw [← h]

theorem reroute_idle (k : Fin 16) (h : m.unacked = []) : m.reroute k = m := by
  simp only [Mach.reroute, h, List.filter_nil, List.map_nil, List.foldl_nil]
  rw [← h]

/-- Where nothing is kept and nothing waits, a change of a link does nothing more. -/
theorem linkChanged_idle (hkept : m.unacked = []) (hwrites : m.hostWrites = []) : m.linkChanged l = m := by
  unfold Mach.linkChanged
  split
  · rw [resumePackets_idle hkept, drainHost_idle hwrites]
  · cases l with
    | gw k => exact reroute_idle k hkept
    | ucie k => rfl

end

/-! ## The packets of a link that carries none any more (R353) -/

section
variable {m : Mach} {k j : Fin 16} {p : Packet} (hdead : (m.link (.gw k)).usable = false) (hkept : m.unacked = [(k.val, p)])
include hdead hkept

/-- The one packet that a dead link had kept is put on another link of its die. -/
theorem linkChanged_resends (hup : (gwOf p.srcDie).find? (fun q => (m.gw.get q).up) = some j) :
    m.linkChanged (.gw k) = ({ m with unacked := [] } : Mach).putOut j p := by
  simp [Mach.linkChanged, hdead, Mach.reroute, hkept, hup]

/-- Or it waits for one. -/
theorem linkChanged_waits (hnone : (gwOf p.srcDie).find? (fun q => (m.gw.get q).up) = none) :
    m.linkChanged (.gw k) = ({ m with unacked := [] } : Mach).waitLink 16 p := by
  simp [Mach.linkChanged, hdead, Mach.reroute, hkept, hnone]

end

/-! ## The rows of Table 15.2 -/

section
variable {s : State} {l : LinkId} {x : Link} (hx : s.mach.link l = x)
include hx

theorem retrain_runs (h : x.st = .down ∨ x.st = .failed) : exec (.retrain l) s = s.to (s.mach.setLink l x.train) := by
  show execRetrain l s = _
  simp [execRetrain, hx, h]

theorem retrain_rests (h₁ : x.st ≠ .down) (h₂ : x.st ≠ .failed) : exec (.retrain l) s = .next s := by
  show execRetrain l s = _
  simp [execRetrain, hx, h₁, h₂, State.to]

theorem linkTrainingEnd_rests (h : x.st ≠ .training) (r : Training) (partner : Byte) (pport : BitVec 6) :
    exec (.linkTrainingEnd l r partner pport) s = .next s := by
  show execLinkTrainingEnd l r partner pport s = _
  simp [execLinkTrainingEnd, hx, h, State.to]

theorem linkReplay_carries (h : x.st = .up ∨ x.st = .degraded) : exec (.linkReplay l) s =
    s.to (s.mach.setLink l { x with st := .retrying, before := x.st, replays := 0, retries := bumpSat x.retries }) := by
  show execLinkReplay l s = _
  rcases h with h | h <;> simp [execLinkReplay, hx, h]

theorem linkReplay_retries (h : x.st = .retrying) : exec (.linkReplay l) s =
    if 7 ≤ x.replays then s.to ((s.mach.setLink l x.train).linkChanged l)
    else s.to (s.mach.setLink l { x with replays := x.replays + 1, retries := bumpSat x.retries }) := by
  show execLinkReplay l s = _
  simp [execLinkReplay, hx, h]

theorem linkReplay_rests (h : x.st = .down ∨ x.st = .training ∨ x.st = .failed) : exec (.linkReplay l) s = .next s := by
  show execLinkReplay l s = _
  rcases h with h | h | h <;> simp [execLinkReplay, hx, h, State.to]

theorem replayAccepted_eq : exec (.replayAccepted l) s =
    if x.st = .retrying then s.to ((s.mach.setLink l { x with st := x.before, replays := 0 }).linkChanged l) else .next s := by
  subst hx
  rfl

theorem linkTrainingEnd_failed (h : x.st = .training) (partner : Byte) (pport : BitVec 6) :
    exec (.linkTrainingEnd l .failed partner pport) s =
      let recent := x.fails.filter fun t => decide (s.mach.cycle < t + 1500000000)
      if 2 ≤ recent.length then
        s.to ((s.mach.setLink l { x with st := .failed, fails := recent ++ [s.mach.cycle] }).linkChanged l)
      else s.to (s.mach.setLink l { x.train with fails := recent ++ [s.mach.cycle] }) := by
  show execLinkTrainingEnd l .failed partner pport s = _
  simp [execLinkTrainingEnd, hx, h]

theorem linkTrainingEnd_trained (h : x.st = .training) (partner : Byte) (pport : BitVec 6) :
    let far := match l with | .gw _ => { x with partner, pport } | .ucie _ => x
    exec (.linkTrainingEnd l .allLanes partner pport) s = s.to ((s.mach.setLink l { far with st := .up }).linkChanged l)
    ∧ exec (.linkTrainingEnd l .halfLanes partner pport) s =
        s.to ((s.mach.setLink l { far with st := .degraded }).linkChanged l) := by
  subst hx
  exact ⟨if_neg (not_not.2 h), if_neg (not_not.2 h)⟩

end

end Sys2Proof.Machine

namespace Sys2Proof
open Sys2Proof.Machine

/-- Settles O54: each event by its row, and a change of a link by what waits for it or was on it. -/
theorem links : Obligations.Links := by
  intro s l partner pport k j pk m x sets turns far recent trains retries again
  refine ⟨rfl, retrain_runs rfl, retrain_rests rfl, fun h => ?_, fun h r => linkTrainingEnd_rests rfl h r partner pport,
    linkReplay_carries rfl, fun h => ?_, linkReplay_rests rfl, fun h => (replayAccepted_eq rfl).trans (if_neg h),
    linkChanged_idle, linkChanged_hostWrites, fun hl hdead hkept => ?_⟩
  · have hfailed := linkTrainingEnd_failed (s := s) (l := l) rfl h partner pport
    obtain ⟨hall, hhalf⟩ := linkTrainingEnd_trained (s := s) (l := l) rfl h partner pport
    exact ⟨hall, hhalf, fun hfew => hfailed.trans (if_neg (not_le.2 hfew)), fun hmany => hfailed.trans (if_pos hmany)⟩
  · exact ⟨fun hfew => (linkReplay_retries rfl h).trans (if_neg (not_le.2 hfew)),
      fun hmany => (linkReplay_retries rfl h).trans (if_pos hmany), (replayAccepted_eq rfl).trans (if_pos h)⟩
  · subst hl
    refine ⟨fun hup hack => ?_, linkChanged_waits hdead hkept⟩
    obtain ⟨c, hput⟩ := Mach.putOut_eq ({ m with unacked := [] } : Mach) pk j
    rw [linkChanged_resends hdead hkept hup, hput]
    exact ⟨rfl, if_neg hack⟩

end Sys2Proof
end

section
/-! Power, boot, the throttles and the halt, a host's access over CXL.mem and the test access port (R22, R26–R30, R370,
R399, R406, R423). -/

namespace Sys2Proof.Machine
open Sys2Proof Sys2Proof.Claims

section
variable {s : State}

/-! ## Power, reset and boot -/

theorem modEnAssert_eq (ok : Bool) : exec (.modEnAssert ok) s = .next (if s.pwr.st = .off ∧ ok = true then
    { pwr := { st := .booting }, mach := { s.mach.rowApplied with jtagPriv := false } } else s) := by
  show execModEnAssert ok s = _
  simp only [execModEnAssert, Bool.and_eq_true, decide_eq_true_eq]

theorem powerOff_eq : exec .powerOff s =
    .next (if s.pwr.st = .off then s else { pwr := { st := .off }, mach := s.mach.lost (2 ^ 64) }) := rfl

theorem cxlFundamentalReset_eq : exec .cxlFundamentalReset s =
    .next (if s.pwr.st = .off then s else { pwr := {}, mach := s.mach.lost 0 }) := rfl

theorem bootVerification_rests (h : s.pwr.st ≠ .booting) (b : BootInput) : exec (.bootVerification b) s = .next s := if_pos h

/-- A firmware image that the board accepts (R423). -/
def bootAccepted (b : BootInput) : Prop := b.keyDigestOk = true ∧ b.signatureOk = true ∧ b.minVersion ≤ b.version

/-- The machine after a boot: the idle timers run and the links train. -/
def Mach.booted (m : Mach) (b : BootInput) : Mach :=
  { m.rowApplied.startIdle with
    pkg := b.pkg, coefs := Vector.ofFn fun k => b.coefs.getD k.val 0
    gw := m.gw.map Link.train, ucie := m.ucie.map Link.train }

section
variable {b : BootInput} (h : s.pwr.st = .booting)
include h

theorem bootVerification_accepts (hb : bootAccepted b) : exec (.bootVerification b) s =
    .next { pwr := { s.pwr with st := .active, insvc := b.insvc, meas := b.meas }, mach := s.mach.booted b } := by
  obtain ⟨hkey, hsig, hver⟩ := hb
  show execBootVerification b s = _
  simp [execBootVerification, h, hkey, hsig, hver, Mach.booted]

theorem bootVerification_locks (hb : ¬bootAccepted b) : exec (.bootVerification b) s =
    .next { pwr := { s.pwr with st := .locked }, mach := s.mach.rowApplied } := by
  have hb' : (b.keyDigestOk && b.signatureOk && decide (b.minVersion ≤ b.version)) = false := by
    rw [Bool.eq_false_iff]
    simpa [bootAccepted, and_assoc] using hb
  show execBootVerification b s = _
  simp [execBootVerification, h, hb']

end

theorem vmap_get {α β : Type} {n : Nat} (f : α → β) (v : Vector α n) (k : Fin n) : (v.map f).get k = f (v.get k) := by
  simp [Vector.get_eq_getElem]

theorem startIdle_timers (m : Mach) (h : Fin 12) (pc : Fin 384) :
    (m.cycle + 4916, Instr.selfRefreshEntry h pc) ∈ m.startIdle.timers := by
  simp [Mach.startIdle]

/-! ## What is left when the dies lose their state (R28–R30) -/

section
variable {m : Mach} {keep : Nat}

theorem lost_core (c : CoreId) : (m.lost keep).core c = {} := get_replicate _ c

theorem lost_mem_zero : (m.lost 0).mem = m.mem := by simp [Mach.lost]

theorem lost_cellGet (a : Nat) : cellGet (m.lost keep).mem a = if a < keep then 0 else cellGet m.mem a := by
  refine (cellGet_filter m.mem (fun k => decide (keep ≤ k)) a).trans ?_
  by_cases h : a < keep
  · rw [if_neg (by simpa using h), if_pos h]
  · rw [if_pos (by simpa using h), if_neg h]

theorem lost_agenda {i : Instr} (h : i ∈ (m.lost keep).agenda) : i ∈ m.agenda ∧ powerRow i = false := by
  have hi := List.mem_filter.1 (List.mem_of_mem_filter (p := fromOutside) h)
  simpa using hi

end

/-! ## Throttles, the halt and its end (R26, R27) -/

theorem powerWindowEnd_eq (watts : Nat) : exec (.powerWindowEnd watts) s = .next (if s.pwr.st = .off then s
    else { s with pwr := { s.pwr with pin := BitVec.ofNat 12 watts, modthr := nextModthr s.pwr.modthr s.pwr.limit.toNat watts } }) := rfl

theorem State.halt_active (h : s.pwr.st = .active) (thermal : Bool) : s.halt thermal =
    { pwr := { (if thermal then { s.pwr with haltTh := true } else { s.pwr with haltPw := true } : Power) with st := .halted }
      mach := s.mach.preemptAll } := by
  simp only [State.halt, h]

theorem State.halt_halted (h : s.pwr.st = .halted) (thermal : Bool) : s.halt thermal =
    { s with pwr := if thermal then { s.pwr with haltTh := true } else { s.pwr with haltPw := true } } := by
  simp only [State.halt, h]

theorem State.halt_rests (h : s.pwr.st.running = false) (thermal : Bool) : s.halt thermal = s := by
  unfold State.halt
  cases hst : s.pwr.st <;> simp_all [PowerState.running]

/-- The state with a die's reading and the throttle that it sets (R26). -/
def State.read (s : State) (d : DieId) (celsius : Nat) : State := { s with pwr := { s.pwr with
  dieTemp := vset s.pwr.dieTemp d celsius, dieThr := vset s.pwr.dieThr d (thermalThrottle celsius) } }

theorem thermalSensorRead_runs (h : s.pwr.st.running = true) (d : DieId) (celsius : Nat) :
    exec (.thermalSensorRead d celsius) s = .next (if 110 ≤ celsius then (s.read d celsius).halt true else s.read d celsius) := by
  show execThermalSensorRead d celsius s = _
  simp [execThermalSensorRead, h, State.read]

theorem thermalSensorRead_rests (h : s.pwr.st.running = false) (d : DieId) (celsius : Nat) :
    exec (.thermalSensorRead d celsius) s = .next s := by
  show execThermalSensorRead d celsius s = _
  simp [execThermalSensorRead, h]

theorem powerOverrunStop_eq (watts micros : Nat) : exec (.powerOverrunStop watts micros) s =
    .next (if 120 * s.pwr.limit.toNat < 100 * watts ∧ 50 < micros then s.halt false else s) := by
  show execPowerOverrunStop watts micros s = _
  simp [execPowerOverrunStop]

/-- The resume condition of R27. -/
theorem resumeOk_iff (limit : Nat) (dies layers : List Nat) (watts millis : Nat) :
    resumeOk limit dies layers watts millis = true ↔
      dies.length = 4 ∧ layers.length = 192 ∧ (∀ t ∈ dies ++ layers, t ≤ 95) ∧ watts ≤ limit ∧ 10 ≤ millis := by
  simp only [resumeOk, Bool.and_eq_true, beq_iff_eq, List.all_eq_true, decide_eq_true_eq, List.forall_mem_append]
  tauto

theorem moduleResume_eq (dies layers : List Nat) (watts millis : Nat) : exec (.moduleResume dies layers watts millis) s =
    .next (if s.pwr.st = .halted ∧ resumeOk s.pwr.limit.toNat dies layers watts millis = true then
      { pwr := { s.pwr with st := .active }, mach := s.mach.rowApplied } else s) := by
  show execModuleResume dies layers watts millis s = _
  simp [execModuleResume]

/-! ## A host's access over CXL.mem (R22, R370) -/

section
variable {addr : Nat} {data : List Byte} (hrange : addr + data.length ≤ 768 * 2 ^ 30)
include hrange

theorem cxlMemAccess_rests {write : Bool} (h : s.pwr.st.running = false ∨ write = false) :
    exec (.cxlMemAccess addr write data) s = .next s := by
  refine (if_neg (not_lt.2 hrange)).trans (if_pos ?_)
  rcases h with h | h <;> simp [h]

theorem cxlMemAccess_writes (h : s.pwr.st.running = true) : exec (.cxlMemAccess addr true data) s =
    s.to ({ s.mach with hostWrites := s.mach.hostWrites ++ [(addr, data)] } : Mach).drainHost :=
  (if_neg (not_lt.2 hrange)).trans (if_neg (by simp [h]))

end

section
variable {m : Mach} {addr : Nat} {data : List Byte}
  (hwait : ∀ w ∈ m.hostWrites, m.iodUsable (dieOfPa w.1) = false)
include hwait

/-- Behind writes that wait, a write is performed where the IOD reaches its die, and otherwise waits too. -/
theorem drainHost_behind : ({ m with hostWrites := m.hostWrites ++ [(addr, data)] } : Mach).drainHost =
    if m.iodUsable (dieOfPa addr) then m.store addr data else { m with hostWrites := m.hostWrites ++ [(addr, data)] } := by
  have hgo : m.hostWrites.filter (fun w => m.iodUsable (dieOfPa w.1)) = [] :=
    List.filter_eq_nil_iff.2 fun w hw => by simp [hwait w hw]
  have hstay : m.hostWrites.filter (fun w => !m.iodUsable (dieOfPa w.1)) = m.hostWrites :=
    List.filter_eq_self.2 fun w hw => by simp [hwait w hw]
  have hlink : ∀ d ws, ({ m with hostWrites := ws } : Mach).iodUsable d = m.iodUsable d := fun _ _ => rfl
  cases h : m.iodUsable (dieOfPa addr) <;> simp [Mach.drainHost, hlink, hgo, hstay, h]

end

/-- A full-line write clears the poison of its lines, and nothing else does (R404). -/
theorem mem_store_poison (m : Mach) (k l : Nat) (data : List Byte) :
    l ∈ (m.store k data).poison ↔ l ∈ m.poison ∧ ¬(k ≤ 64 * l ∧ 64 * l + 64 ≤ k + data.length) := by
  simp only [Mach.store, linesCleared, List.mem_filter, Nat.mul_comm l 64, Bool.not_eq_true', Bool.and_eq_false_iff,
    decide_eq_false_iff_not, not_and_or]

/-! ## The test access port (R406) -/

theorem toTap_powered (h : s.pwr.st ≠ .off) (t : Tap) : s.toTap t = .next { s with mach := { s.mach with tap := t } } := by
  simp [State.toTap, State.to, h]

theorem toTap_off (h : s.pwr.st = .off) (t : Tap) : s.toTap t = .next s := by
  simp [State.toTap, State.to, h]

theorem enableByFirmware_eq : exec (.jtagPrivate .enableByFirmware) s =
    s.to (if s.pwr.st.running then { s.mach with jtagPriv := true } else s.mach) := rfl

theorem jtagInstruction_eq (code : Nat) : exec (.jtagPrivate (.instruction code)) s =
    if s.mach.jtagPriv then s.toTap (.priv code) else .next s := rfl

end

end Sys2Proof.Machine

namespace Sys2Proof
open Sys2Proof.Machine

/-- Settles O47: each event by its equation, in the power states that its row names. -/
theorem powerAndPorts : Obligations.PowerAndPorts := by
  intro s b d watts micros celsius millis addr code dies layers data ok h pc p m runs stops halted applied q resumes
  have hruns : runs → p.st.running = true := (PowerState.running_iff _).2
  have hrests : ¬runs → p.st.running = false := fun hr => Bool.eq_false_iff.2 (mt (PowerState.running_iff _).1 hr)
  have hresumes : resumeOk p.limit.toNat dies layers watts millis = true ↔ resumes := resumeOk_iff ..
  have hthermal : runs → exec (.thermalSensorRead d celsius) s = _ := fun hr => thermalSensorRead_runs (hruns hr) d celsius
  have hoverrun := powerOverrunStop_eq (s := s) watts micros
  have hresume := moduleResume_eq (s := s) dies layers watts millis
  refine ⟨fun hoff => (modEnAssert_eq true).trans (congrArg _ (if_pos ⟨hoff, rfl⟩)),
    fun hno => (modEnAssert_eq ok).trans (congrArg _ (if_neg ?_)), fun hon => ?_,
    fun hoff => powerOff_eq.trans (congrArg _ (if_pos hoff)), fun hon => ?_,
    fun hoff => cxlFundamentalReset_eq.trans (congrArg _ (if_pos hoff)),
    fun hboot => ⟨fun hb => ?_, bootVerification_locks hboot⟩, fun hst => bootVerification_rests hst b,
    fun hon => (powerWindowEnd_eq watts).trans (congrArg _ (if_neg hon)),
    fun hoff => (powerWindowEnd_eq watts).trans (congrArg _ (if_pos hoff)),
    fun hr hcool => (hthermal hr).trans (congrArg _ (if_neg (not_le.2 hcool))), fun hst hhot => ?_, fun hst hhot => ?_,
    fun hr => thermalSensorRead_rests (hrests hr) d celsius, fun hover => ⟨fun hst => ?_, fun hst => ?_⟩, fun hno => ?_,
    fun hst hres => hresume.trans (congrArg _ (if_pos ⟨hst, hresumes.2 hres⟩)),
    fun hno => hresume.trans (congrArg _ (if_neg ?_)), fun hrange => ⟨cxlMemAccess_rests hrange (.inr rfl),
      fun hr => cxlMemAccess_rests hrange (.inl (hrests hr)), fun hr hwait => ?_⟩,
    fun hon => ⟨toTap_powered hon _, toTap_powered hon _, toTap_powered hon _, toTap_powered hon _, fun hpriv => ?_⟩,
    fun hoff i hi => ?_, fun hr => ?_, fun hr => ?_, fun hpriv => ?_⟩
  · rintro ⟨hoff, hok⟩
    exact hno.elim (· hoff) fun hfalse => by rw [hok] at hfalse; exact absurd hfalse (by decide)
  · exact ⟨_, powerOff_eq.trans (congrArg _ (if_neg hon)), rfl, lost_cellGet, lost_core, fun n => ⟨rfl, rfl⟩, rfl,
      fun i => lost_agenda⟩
  · exact ⟨_, cxlFundamentalReset_eq.trans (congrArg _ (if_neg hon)), rfl, lost_mem_zero, lost_core,
      fun n => ⟨rfl, rfl⟩, fun i => lost_agenda⟩
  · refine ⟨_, bootVerification_accepts hboot hb, rfl, rfl, fun l => ?_, fun l => ?_, rfl, startIdle_timers _ h pc⟩
    · rw [Mach.booted, vmap_get]; rfl
    · rw [Mach.booted, vmap_get]; rfl
  · exact (hthermal (.inl hst)).trans (congrArg _ ((if_pos hhot).trans ((s.read d celsius).halt_active hst true)))
  · exact (hthermal (.inr hst)).trans (congrArg _ ((if_pos hhot).trans ((s.read d celsius).halt_halted hst true)))
  · exact hoverrun.trans (congrArg _ ((if_pos hover).trans (s.halt_active hst false)))
  · exact hoverrun.trans (congrArg _ ((if_pos hover).trans (s.halt_halted hst false)))
  · refine hoverrun.trans (congrArg _ ?_)
    split
    · next hover => exact s.halt_rests (hrests (hno.resolve_right (not_not.2 hover))) false
    · rfl
  · rintro ⟨hst, hok⟩
    exact hno.elim (· hst) (· (hresumes.1 hok))
  · have hwrites := cxlMemAccess_writes hrange (hruns hr)
    refine ⟨fun hway => ⟨{ s with mach := m.store addr data }, ?_, rfl, rfl, fun a => ?_, fun l => mem_store_poison m addr l data⟩,
      fun hway => ?_⟩
    · rw [hwrites, drainHost_behind hwait, if_pos hway]; rfl
    · rw [Mach.store_mem, cellGet_cellsWrite]
    · rw [hwrites, drainHost_behind hwait, if_neg (by rw [hway]; decide)]; rfl
  · exact (jtagInstruction_eq code).trans ((if_pos hpriv).trans (toTap_powered hon _))
  · simp only [List.mem_cons, List.not_mem_nil, or_false] at hi
    rcases hi with rfl | rfl | rfl | rfl <;> exact toTap_off hoff _
  · exact enableByFirmware_eq.trans (congrArg _ (if_pos (hruns hr)))
  · exact enableByFirmware_eq.trans (congrArg _ (if_neg (by rw [hrests hr]; decide)))
  · exact (jtagInstruction_eq code).trans (if_neg (by rw [hpriv]; decide))

end Sys2Proof
end

section
/-! Page tables and translation (R328–R337): what a leaf says, what a translation leaves unchanged, and how the moves of
pages start. -/

namespace Sys2Proof.Machine
open Sys2Proof Sys2Proof.Claims

/-! ## The walk (R328–R330) -/

/-- One bit of a word is the field of one bit there. -/
theorem testBit_eq_fld (w k : Nat) : w.testBit k = decide (w / 2 ^ k % 2 ^ 1 = 1) := by
  rw [Nat.testBit_eq_decide_div_mod_eq, pow_one]

theorem Mach.word_lt (m : Mach) (k : Nat) : m.word k < 2 ^ 64 := by
  have h := leNat_lt (m.bytes k 8)
  simpa [Mach.word, Mach.bytes, cellsRead] using h

section
variable {m : Mach} {x : Ctx} {va level key w0 w1 : Nat} {p : Page}

/-- What the two words of an entry say of the leaf that they give. -/
structure LeafSays (asid va level key w0 w1 : Nat) (p : Page) : Prop where
  asid : p.asid = asid
  base : p.base = va / p.size * p.size
  size : p.size = pageSize level
  frame : p.frame = fld w1 12 52 * 2 ^ 12
  low : fld w1 0 12 = 0
  aligned : p.frame % p.size = 0
  rights : p.p = w0.testBit 2 ∧ p.w = w0.testBit 3 ∧ p.x = w0.testBit 4 ∧ p.rd = w0.testBit 5
  tier : p.tier = fld w0 8 2
  level : p.tier + level = 2
  form : p.fmt = fld w0 12 4 ∧ p.geo = fld w0 16 2 ∧ p.cb = fld w0 18 3
  mode : p.mode = fld w0 21 2
  peer : p.peer = fld w0 23 12
  plain : p.mode = 0 ∨ p.tier = 0
  entry : p.entry = key

theorem leafOf_says (h : leafOf m x va level key w0 w1 = some p) : LeafSays x.asid.toNat va level key w0 w1 p := by
  simp only [leafOf, Option.ite_none_right_eq_some, Option.some.injEq, Bool.and_eq_true, Bool.or_eq_true, beq_iff_eq] at h
  obtain ⟨⟨⟨⟨⟨⟨⟨⟨⟨⟨⟨⟨⟨⟨-, -⟩, hlevel⟩, -⟩, -⟩, hlow⟩, haligned⟩, hplain⟩, -⟩, -⟩, -⟩, -⟩, -⟩, -⟩, rfl⟩ := h
  exact ⟨rfl, rfl, rfl, rfl, hlow, haligned, ⟨rfl, rfl, rfl, rfl⟩, rfl, hlevel, ⟨rfl, rfl, rfl⟩, rfl, rfl, hplain, rfl⟩

/-- A walk ends at an entry in memory, valid and a leaf. -/
theorem walkGo_leaf {cached : List WalkEntry} {levels : List (Nat × Nat × Nat)} {table : Nat} {acc : List WalkEntry}
    (h : (walkGo m x cached va levels table acc).1 = some p) :
    (m.word p.entry).testBit 0 = true ∧ (m.word p.entry).testBit 1 = true
      ∧ ∃ level, LeafSays x.asid.toNat va level p.entry (m.word p.entry) (m.word (p.entry + 8)) p := by
  induction levels generalizing table acc with
  | nil => simp [walkGo] at h
  | cons l rest ih =>
    obtain ⟨level, shift, bits⟩ := l
    unfold walkGo at h
    dsimp only at h
    split at h
    · exact ih h
    split at h
    · simp at h
    next hvalid =>
    split at h
    next hleaf =>
      have hsays := leafOf_says h
      rw [hsays.entry]
      simp only [Bool.or_eq_true, Bool.not_eq_true', not_or, Bool.not_eq_false] at hvalid
      exact ⟨hvalid.2, hleaf, level, hsays⟩
    next =>
      cases rest with
      | nil => simp at h
      | cons r rest =>
        rw [apply_ite Prod.fst, Option.ite_none_left_eq_some] at h
        exact ih h.2

theorem LeafSays.covers {asid : Nat} (h : LeafSays asid va level key w0 w1 p) : p.covers asid va = true := by
  have hpos : 0 < p.size := by rw [h.size, pageSize]; split_ifs <;> norm_num
  have hbase := Nat.div_add_mod' va p.size
  have hmod := Nat.mod_lt va hpos
  rw [← h.base] at hbase
  simp only [Page.covers, h.asid, beq_self_eq_true, Bool.true_and, Bool.and_eq_true, decide_eq_true_eq]
  omega

end

/-! ## What a translation touches (R333–R337) -/

/-- n is m but for the page registers of a core and the record of its die. -/
def SamePages (c : CoreId) (m n : Mach) : Prop :=
  ∃ x l, n = (m.setDie (dieOf c) x).setInst c { m.inst c with regs := l }

section
variable {c : CoreId} {m n k : Mach} {p : Page}

theorem Mach.setDie_self (m : Mach) (d : DieId) : m.setDie d (m.die d) = m := by
  rw [Mach.setDie, Mach.die, vset_self]

theorem Mach.setDie_setDie (m : Mach) (d : DieId) (x y : Die) : (m.setDie d x).setDie d y = m.setDie d y := by
  simp only [Mach.setDie, vset_vset]

theorem samePages_setDie (m : Mach) (x : Die) : SamePages c m (m.setDie (dieOf c) x) :=
  ⟨x, (m.inst c).regs, (Mach.setInst_self (m.setDie (dieOf c) x) c).symm⟩

theorem samePages_setPageRegs (m : Mach) (f : Inst → PageRegs) : SamePages c m (m.modInst c fun i => i.setPageRegs (f i)) :=
  ⟨m.die (dieOf c), _, by rw [Mach.setDie_self]; rfl⟩

theorem SamePages.refl (m : Mach) : SamePages c m m := ⟨m.die (dieOf c), (m.inst c).regs, by
  rw [Mach.setDie_self]; exact (Mach.setInst_self m c).symm⟩

theorem SamePages.trans (h : SamePages c m n) (h' : SamePages c n k) : SamePages c m k := by
  obtain ⟨x, l, rfl⟩ := h
  obtain ⟨y, l', rfl⟩ := h'
  refine ⟨y, l', ?_⟩
  change ((((m.setDie _ x).setDie _ y).setInst c _).setInst c _) = _
  rw [Mach.setInst_setInst, Mach.setDie_setDie, Mach.setInst_inst]

theorem SamePages.moving (h : SamePages c m n) (p : Page) : n.moving p = m.moving p := by obtain ⟨x, l, rfl⟩ := h; rfl

theorem SamePages.pageWay (h : SamePages c m n) (d : DieId) (p : Page) (va : Nat) : n.pageWay d p va = m.pageWay d p va := by
  obtain ⟨x, l, rfl⟩ := h; rfl

theorem SamePages.moves (h : SamePages c m n) : n.moves = m.moves := by obtain ⟨x, l, rfl⟩ := h; rfl
theorem SamePages.timers (h : SamePages c m n) : n.timers = m.timers := by obtain ⟨x, l, rfl⟩ := h; rfl
theorem SamePages.mem (h : SamePages c m n) : n.mem = m.mem := by obtain ⟨x, l, rfl⟩ := h; rfl
theorem SamePages.cur (h : SamePages c m n) : n.cur = m.cur := by obtain ⟨x, l, rfl⟩ := h; rfl
theorem SamePages.cycle (h : SamePages c m n) : n.cycle = m.cycle := by obtain ⟨x, l, rfl⟩ := h; rfl
theorem SamePages.word (h : SamePages c m n) (k : Nat) : n.word k = m.word k := by obtain ⟨x, l, rfl⟩ := h; rfl

theorem SamePages.inst (h : SamePages c m n) : ∃ l, n.inst c = { m.inst c with regs := l } := by
  obtain ⟨x, l, rfl⟩ := h
  exact ⟨l, Mach.setInst_inst ..⟩

theorem SamePages.eq (h : SamePages c m n) : n = { m with
    dies := (m.setDie (dieOf c) (n.die (dieOf c))).dies
    cores := (m.setInst c { m.inst c with regs := (n.inst c).regs }).cores } := by
  obtain ⟨x, l, rfl⟩ := h
  have hdie : ((m.setDie (dieOf c) x).setInst c { m.inst c with regs := l }).die (dieOf c) = x := m.setDie_die ..
  rw [Mach.setInst_inst, hdie]
  rfl

theorem lookup_touches (m : Mach) (c : CoreId) (who : PStream) (va : Nat) : SamePages c m (m.lookup c who va).2 := by
  rw [Mach.lookup]
  dsimp only
  split_ifs
  · exact .refl m
  · exact .refl m
  · split
    · exact .refl m
    · exact samePages_setDie ..

theorem lookup_covers {who : PStream} {va : Nat} (h : (m.lookup c who va).1 = some p) :
    p.covers (m.ctx (m.inst c).id.ctx.val).asid.toNat va = true := by
  rw [Mach.lookup] at h
  dsimp only at h
  split_ifs at h with hcur hnext
  · rw [show ((m.inst c).pageRegs who).cur = some p from h] at hcur; exact hcur
  · rw [show ((m.inst c).pageRegs who).next = some p from h] at hnext; exact hnext
  · split at h
    next q hq =>
      cases h
      simpa using List.find?_some hq
    next =>
      obtain ⟨-, -, level, hs⟩ := walkGo_leaf h
      exact hs.covers
end

section
variable {α : Type} {c : CoreId} {m n : Mach} {p q : Page} {who : PStream} {va tv : Nat} {need : Right}

/-- The start of a PULL page's pull by an access that stalls on it (R335). -/
def Mach.pullStarted (m : Mach) (c : CoreId) (p : Page) : Mach :=
  if p.mode = 3 then m.startMove (m.inst c).id.ctx p true else m

theorem stallOn_waits {w : Staller} (hlate : ((m.pullStarted c p).stall p w).1 = false) :
    (stallOn c p w tv : Run α).go m = (.error (.wait (.retry 10 p.base)), ((m.pullStarted c p).stall p w).2) := by
  simp only [Mach.pullStarted] at hlate ⊢
  simp [stallOn, Run.go_bind, hlate]

theorem stallOn_traps {w : Staller} (hlate : ((m.pullStarted c p).stall p w).1 = true) :
    (stallOn c p w tv : Run α).go m =
      (.error (.trap .protection (BitVec.ofNat 64 tv)), ((m.pullStarted c p).stall p w).2) := by
  simp only [Mach.pullStarted] at hlate ⊢
  simp [stallOn, Run.go_bind, Run.go_require, hlate]

/-- A stall never lets the access go on. -/
theorem stallOn_stops (m : Mach) (c : CoreId) (p : Page) (w : Staller) (tv : Nat) :
    ∃ e n, (stallOn c p w tv : Run α).go m = (.error e, n) := by
  cases hlate : ((m.pullStarted c p).stall p w).1
  · exact ⟨_, _, stallOn_waits hlate⟩
  · exact ⟨_, _, stallOn_traps hlate⟩

/-- The request that reaches the threshold never goes on. -/
theorem countOne_ok {w : Staller} {a : Unit} (h : (countOne c p w tv).go m = (.ok a, n)) :
    n = (m.countRequest (dieOf c) p).2 := by
  cases hfull : (m.countRequest (dieOf c) p).1
  · rw [countOne_below hfull] at h
    cases h; rfl
  · simp only [countOne, Run.go_bind, Run.go_get, Run.go_set, hfull, if_true, Run.go_modify] at h
    obtain ⟨e, k, hstop⟩ := stallOn_stops (α := Unit) (((m.countRequest (dieOf c) p).2).startMove
      (((m.countRequest (dieOf c) p).2).inst c).id.ctx p false) c p w tv
    cases hstop.symm.trans h

theorem samePages_prefetch {old : Nat} : SamePages c m (m.prefetchPage c who p va old) := by
  simp only [Mach.prefetchPage]
  generalize (if old ≤ va then va + (m.inst c).s.prefetch.toNat else va + 2 ^ 64 - (m.inst c).s.prefetch.toNat) % 2 ^ 64 = t
  split
  · exact .refl m
  · refine (lookup_touches m c who t).trans ?_
    rcases m.lookup c who t with ⟨_ | q, k⟩
    · exact samePages_setPageRegs k _
    · exact samePages_setPageRegs k _

/-- A translation that succeeds found the page by its lookup; the page is there to be used, and little has changed. -/
theorem translate_ok (h : (translate c who va tv need).go m = (.ok p, n)) :
    (m.lookup c who va).1 = some p ∧ p.mode ≠ 3 ∧ m.moving p = false
      ∧ (p.p = true → p.allows need = true → m.pageWay (dieOf c) p va = true) ∧ SamePages c m n := by
  have htouch := lookup_touches m c who va
  simp only [translate, Run.go_bind, Run.go_get] at h
  rcases hl : m.lookup c who va with ⟨_ | q, k⟩
  · rw [hl] at h
    simp [Run.go_bind] at h
  rw [hl] at htouch
  obtain ⟨e, x, hstop⟩ := stallOn_stops (α := Unit) (k.modInst c fun i => i.notePage who q va) c q (.core c who) tv
  have hmoving : k.moving q = m.moving q := htouch.moving q
  have hpageWay : k.pageWay (dieOf c) q va = m.pageWay (dieOf c) q va := htouch.pageWay ..
  simp only [hl, Run.go_bind, Run.go_set, Run.go_ite, Run.go_require, Run.go_waitFor, Run.go_modify, Run.go_pure,
    hmoving, hpageWay] at h
  have hnote : SamePages c m (k.modInst c fun i => i.notePage who q va) := htouch.trans (samePages_setPageRegs k _)
  split at h
  · cases hal : q.allows need
    · simp [hal] at h
    · simp [hal, hstop] at h
  next hstill =>
  split at h
  · cases h
  next hway =>
  suffices hend : q = p ∧ SamePages c m n by
    obtain ⟨rfl, hsame⟩ := hend
    simp only [Bool.or_eq_true, decide_eq_true_eq, not_or, Bool.not_eq_true, Bool.and_eq_true, Bool.not_eq_true',
      not_and, Bool.not_eq_false] at hstill hway
    exact ⟨rfl, hstill.1, hstill.2, fun hp hal => hway ⟨hp, hal⟩, hsame⟩
  split at h
  · rcases hc : (countOne c q (.core c who) tv).go (k.modInst c fun i => i.notePage who q va) with ⟨e | a, y⟩
    · rw [hc] at h; cases h
    · rw [hc] at h
      obtain rfl := countOne_ok hc
      cases h
      exact ⟨rfl, (hnote.trans (samePages_setDie ..)).trans samePages_prefetch⟩
  · cases h
    exact ⟨rfl, hnote.trans samePages_prefetch⟩

end

/-! ## How the moves of pages start (R334, R335) -/

section
variable {c : CoreId} {m k n : Mach} {p : Page} {who : PStream} {va tv : Nat} {need : Right} {e : Stop}

/-- The machine after a lookup that found a page. -/
def Mach.noted (k : Mach) (c : CoreId) (who : PStream) (p : Page) (va : Nat) : Mach := k.modInst c fun i => i.notePage who p va

section
variable (hl : m.lookup c who va = (some p, k)) (hal : p.allows need = true)
include hl hal

/-- An access to a PULL page, or to one that moves, ends as its stall does. -/
theorem translate_arriving (harr : p.mode = 3 ∨ k.moving p = true)
    (hstop : (stallOn c p (.core c who) tv : Run Unit).go (k.noted c who p va) = (.error e, n)) :
    (translate c who va tv need).go m = (.error e, n) := by
  have hcond : (decide (p.mode = 3) || k.moving p) = true := by simpa using harr
  rw [Mach.noted] at hstop
  simp only [translate, Run.go_bind, Run.go_get, hl, Run.go_set, hcond, if_true, Run.go_require_true (h := hal), hstop]

section
variable (hmoving : k.moving p = false) (hp : p.p = true)
include hmoving hp

/-- An access to a page whose home no link reaches waits for one (R22). -/
theorem translate_unreached (hmode : p.mode ≠ 3) (hway : k.pageWay (dieOf c) p va = false) :
    (translate c who va tv need).go m = (.error (.wait (.retry 10 p.base)), k.noted c who p va) := by
  simp [translate, Run.go_bind, hl, hmode, hmoving, hp, hal, hway, Mach.noted]

/-- An access that its page's count stops ends so (R334). -/
theorem translate_counted (hway : k.pageWay (dieOf c) p va = true) (hcount : p.mode = 2)
    (hstop : (countOne c p (.core c who) tv).go (k.noted c who p va) = (.error e, n)) :
    (translate c who va tv need).go m = (.error e, n) := by
  rw [Mach.noted] at hstop
  simp [translate, Run.go_bind, hl, hmoving, hp, hal, hway, hcount, hstop]

end

end

/-- The move that begins with an access, which stalls on it. -/
def Mach.firstMove (m : Mach) (ctx : CtxId) (p : Page) (pull : Bool) (w : Staller) : Move :=
  { ctx, page := { p with word0 := m.word p.entry }, pull, stalled := [w] }

/-- An access that starts a move waits for it. -/
theorem stall_startMove {ctx : CtxId} {pull : Bool} {w : Staller} (h : m.moving p = false) :
    (m.startMove ctx p pull).stall p w =
      (false, { m.startMove ctx p pull with moves := m.moves ++ [m.firstMove ctx p pull w] }) := by
  have hother : ∀ v ∈ m.moves, (v.page.asid == p.asid && v.page.base == p.base) = false := by
    simpa [Mach.moving] using h
  have hmoves : (m.startMove ctx p pull).moves =
      m.moves ++ [{ ctx, page := { p with word0 := m.word p.entry }, pull }] := by simp [Mach.startMove, h, Mach.timer]
  have hlate : m.moves.any (fun v => (v.page.asid == p.asid && v.page.base == p.base) && v.dead.contains w) = false := by
    simp only [List.any_eq_false]
    intro v hv
    simp [hother v hv]
  have hkept : ∀ f : Move → Move, m.moves.map (fun v =>
      if !(v.page.asid == p.asid && v.page.base == p.base) then v else f v) = m.moves := fun f =>
    (List.map_congr_left fun v hv => by simp [hother v hv]).trans (List.map_id _)
  simp only [Mach.stall, hmoves, List.any_append, hlate, List.map_append, hkept]
  simp [Mach.firstMove]

/-- The start of a move touches the moves and the timers alone. -/
theorem startMove_else {ctx : CtxId} {pull : Bool} :
    m.startMove ctx p pull =
      { m with moves := (m.startMove ctx p pull).moves, timers := (m.startMove ctx p pull).timers } := by
  rw [Mach.startMove]
  split <;> rfl

theorem startMove_timers {ctx : CtxId} {pull : Bool} (h : m.moving p = false) : (m.startMove ctx p pull).timers =
    m.timers ++ [(m.cycle + 1, if pull then .pullDone ctx p.base else .countMoveDone ctx p.base)] := by
  simp [Mach.startMove, h, Mach.timer]

/-- The first access to a PULL page starts its pull and waits for it (R335). -/
theorem stallOn_pulls {w : Staller} (hmode : p.mode = 3) (h : m.moving p = false) :
    (stallOn c p w tv : Run Unit).go m = (.error (.wait (.retry 10 p.base)),
      { m.startMove (m.inst c).id.ctx p true with moves := m.moves ++ [m.firstMove (m.inst c).id.ctx p true w] }) := by
  have hstarted : m.pullStarted c p = m.startMove (m.inst c).id.ctx p true := if_pos hmode
  rw [stallOn_waits (by rw [hstarted, stall_startMove h]), hstarted, stall_startMove h]

/-- The request that reaches a COUNT page's threshold starts the move and waits for it (R334). -/
theorem countOne_moves {w : Staller} (hmode : p.mode = 2) (h : m.moving p = false)
    (hfull : (m.countRequest (dieOf c) p).1 = true) :
    let k := (m.countRequest (dieOf c) p).2
    (countOne c p w tv).go m = (.error (.wait (.retry 10 p.base)),
      { k.startMove (m.inst c).id.ctx p false with moves := m.moves ++ [m.firstMove (m.inst c).id.ctx p false w] }) := by
  intro k
  have hk : k.moving p = false := h
  have hstarted : ∀ x : Mach, x.pullStarted c p = x := fun x => if_neg (by omega)
  have hstop : (stallOn c p w tv : Run Unit).go (k.startMove (m.inst c).id.ctx p false) = _ :=
    stallOn_waits (by rw [hstarted, stall_startMove hk])
  rw [hstarted, stall_startMove hk] at hstop
  simp only [countOne, Run.go_bind, Run.go_get, Run.go_set, hfull, if_true, Run.go_modify]
  exact hstop

/-- A page that is counted stands at its count and one more (R334). -/
theorem countRequest_full {d : DieId} {j : Nat} (hin : (p.asid, p.base, j) ∈ (m.die d).counters)
    (hone : ∀ j', (p.asid, p.base, j') ∈ (m.die d).counters → j' = j) (hj : 2 ^ p.cthr ≤ j + 1) :
    (m.countRequest d p).1 = true := by
  rcases hfind : (m.die d).counters.find? (fun e => e.1 == p.asid && e.2.1 == p.base) with _ | ⟨x, y, z⟩
  · simpa using List.find?_eq_none.1 hfind _ hin
  · have hkey := List.find?_some hfind
    simp only [Bool.and_eq_true, beq_iff_eq] at hkey
    obtain ⟨rfl, rfl⟩ := hkey
    have hz : z = j := hone z (List.mem_of_find?_eq_some hfind)
    simp [Mach.countRequest, countPage, hfind, hz, hj]

end

section
variable {s : State} {d a : Reg} {off : BitVec 12} {nb : Nat} {signed : Bool} {g : W64} {e : Stop} {n : Mach}

theorem sAddr_of_canonical (h : Canonical g) : sAddr g = .global g.toNat := by
  have hcanon : isCanon g.toNat = true := by
    have := g.isLt
    simp only [isCanon, Bool.or_eq_true, beq_iff_eq]
    rcases h with h | h <;> omega
  simp [sAddr, hcanon]

/-- A load whose translation stops, stops (R137). -/
theorem loadWord_stops (haddr : s.seq.get a + off.signExtend 64 = g) (hg : Canonical g) (halign : g.toNat % nb = 0)
    (h : (translate s.mach.cur .s (relocate (inst s).id g.toNat) g.toNat .read).go s.mach = (.error e, n)) :
    (loadWord s.mach.cur d a nb off signed).go s.mach = (.error e, n) := by
  have hmem : memAddr (s.mach.inst s.mach.cur).s a off = g := haddr
  have hload : (sLoad s.mach.cur g nb).go s.mach = (.error e, n) := by
    simp only [sLoad, sAddr_of_canonical hg]
    have hget : (getInst s.mach.cur).go s.mach = (.ok (inst s), s.mach) := rfl
    rw [Run.go_bind_ok (Run.go_require_true (h := decide_eq_true halign) ..), Run.go_bind_ok hget, Run.go_bind_error h]
  simp [loadWord, Run.go_bind, hmem, hload]

/-- A word that waits to be tried again keeps what its stop left. -/
theorem exec_of_retry {i : Instr} {f : CoreId → Run Flow} {x y : Nat} (hfresh : Fresh s) (hexec : exec i s = s.sRun i f)
    (hgo : (f s.mach.cur).go s.mach = (.error (.wait (.retry x y)), n)) (hcur : n.cur = s.mach.cur)
    (hseq : (n.inst s.mach.cur).s = s.seq) (hcycle : n.cycle = s.mach.cycle) :
    ∃ t, exec i s = .next t ∧ t.mach.moves = n.moves ∧ t.mach.timers = n.timers
      ∧ t.seq = { s.seq with st := { s.seq.st with wait := some ⟨.retry x y, s.mach.cycle, i⟩ } } ∧ t.mach.mem = n.mem := by
  refine ⟨_, by rw [hexec, State.sRun, Mach.sWord_error _ _ _ _ hgo]; rfl, rfl, rfl, ?_, rfl⟩
  have hwait : (s.mach.inst s.mach.cur).s.st.wait = none := hfresh
  simp [State.seq, hcur, Mach.sStop, Mach.beginWait, Mach.modInst_eq, Inst.modStream, Inst.setStream, Inst.stream, hseq,
    hwait, hcycle]
end

end Sys2Proof.Machine

namespace Sys2Proof
open Sys2Proof.Machine Sys2Proof.Claims

/-- The walk's claim, from what the leaf's two words say. -/
theorem walkFindsLeaf : Claims.WalkFindsLeaf := by
  intro m n va p h w bits
  obtain ⟨hv, hl, level, hs⟩ := walkGo_leaf h
  obtain ⟨hp, hw, hx, hrd⟩ := hs.rights
  have hlevel := hs.level
  have hsize : p.size = if p.tier = 0 then 2 ^ 21 else if p.tier = 1 then 2 ^ 16 else 2 ^ 12 := by
    rw [hs.size, pageSize]
    split_ifs <;> omega
  have hpos : 0 < p.size := by rw [hsize]; split_ifs <;> norm_num
  have hbase := Nat.div_add_mod' va p.size
  have hmod := Nat.mod_lt va hpos
  have hframe : p.frame = m.word (p.entry + 8) := by
    have hlow := hs.low
    have hlt := m.word_lt (p.entry + 8)
    rw [hs.frame]
    simp only [fld] at hlow ⊢
    omega
  have h01 : bits 0 2 = 3 := by
    rw [testBit_eq_fld, decide_eq_true_eq] at hv hl
    show w / 2 ^ 0 % 2 ^ 2 = 3
    omega
  rw [← hs.base] at hbase
  refine ⟨hs.asid, by omega, by omega, by rw [hs.base]; exact Nat.mul_mod_left _ _, hs.aligned, h01,
    hp.trans (testBit_eq_fld w 2), hw.trans (testBit_eq_fld w 3), hx.trans (testBit_eq_fld w 4),
    hrd.trans (testBit_eq_fld w 5), hs.tier, by omega, hs.form.1, hs.form.2.1, hs.form.2.2, hs.mode, hs.peer, hframe,
    hsize, fun h => hs.plain.resolve_left h⟩

/-- The translation's claim, from what one that succeeds has passed. -/
theorem translationChangesLittle : Claims.TranslationChangesLittle := by
  intro s who va tv need p m c h
  obtain ⟨hfound, hmode, hmoving, hway, hsame⟩ := translate_ok h
  have hcovers := lookup_covers hfound
  simp only [Page.covers, Bool.and_eq_true, decide_eq_true_eq] at hcovers
  exact ⟨hcovers.1.2, hcovers.2, hmode, hmoving, hway, hsame.eq⟩

/-- The claim of the moves: each access waits, on the machine that its start of a move leaves. -/
theorem pageMovesStart : Claims.PageMovesStart := by
  intro s d a size off p m i c g r ld noted waits way starts hfresh hg halign hl hrd hmoving
  have htouched : SamePages c s.mach m := by
    have h := lookup_touches s.mach c .s r
    rwa [hl] at h
  have htouch : SamePages c s.mach noted := htouched.trans (samePages_setPageRegs m _)
  have hctx : ((m.noted c .s p r).inst c).id.ctx = i.id.ctx := by
    change (noted.inst c).id.ctx = _
    obtain ⟨l, h⟩ := htouch.inst
    rw [h]; rfl
  have hallows : p.allows .read = true := hrd
  have hstops : ∀ {k n : Mach}, SamePages c s.mach k → n = { k with moves := n.moves, timers := n.timers } →
      (translate c .s r g.toNat .read).go s.mach = (.error (.wait (.retry 10 p.base)), n) →
      ∃ t, exec ld s = .next t ∧ t.mach.moves = n.moves ∧ t.mach.timers = n.timers ∧ t.seq = waits ∧ t.mach.mem = n.mem := by
    intro k n hk hn hgo
    obtain ⟨l, hinst⟩ := hk.inst
    refine exec_of_retry hfresh exec_ld (loadWord_stops rfl hg halign hgo) ?_ ?_ ?_
    · rw [hn]; exact hk.cur
    · rw [hn]
      change (k.inst c).s = _
      rw [hinst]; rfl
    · rw [hn]; exact hk.cycle
  have hstarts : ∀ {k : Mach} {pull : Bool}, SamePages c s.mach k →
      (translate c .s r g.toNat .read).go s.mach = (.error (.wait (.retry 10 p.base)),
        { k.startMove i.id.ctx p pull with moves := k.moves ++ [k.firstMove i.id.ctx p pull (.core c .s)] }) →
      starts pull (if pull then .pullDone i.id.ctx p.base else .countMoveDone i.id.ctx p.base) := by
    intro k pull hk hgo
    obtain ⟨t, ht, hmoves, htimers, hseq, hmem⟩ := hstops hk (by rw [startMove_else]) hgo
    refine ⟨t, ht, ?_, ?_, hseq, hmem.trans ?_⟩
    · rw [hmoves, ← hk.word, ← hk.moves]; rfl
    · rw [htimers]
      refine (startMove_timers ((hk.moving p).trans ((htouch.moving p).symm.trans hmoving))).trans ?_
      rw [hk.timers, hk.cycle]
    · rw [← hk.mem, Mach.startMove]
      split <;> rfl
  refine ⟨fun hmode => ?_, fun hmode hp hway => ?_, fun n hmode hp hway hin hone hn => ?_⟩
  · have hgo := translate_arriving hl hallows (.inl hmode) (stallOn_pulls (tv := g.toNat) hmode hmoving)
    rw [hctx] at hgo
    exact hstarts htouch hgo
  · obtain ⟨t, ht, hmoves, -, hseq, hmem⟩ := hstops htouch rfl
      (translate_unreached hl hallows hmoving hp (by omega) ((htouched.pageWay ..).trans hway))
    exact ⟨t, ht, hmoves.trans htouch.moves, hseq, hmem.trans htouch.mem⟩
  · have hgo := translate_counted hl hallows hmoving hp ((htouched.pageWay ..).trans hway) hmode
      (countOne_moves (tv := g.toNat) (w := .core c .s) hmode hmoving (countRequest_full hin hone hn))
    rw [hctx] at hgo
    exact hstarts (htouch.trans (samePages_setDie ..)) hgo

/-- Settles O24, by the walk, the translation that succeeds and the ones that stop. -/
theorem translation : Obligations.Translation := by
  unfold Obligations.Translation
  exact ⟨walkFindsLeaf, translationChangesLittle, pageMovesStart⟩

end Sys2Proof
end

section
/-! Reductions in a switch (R317, R357, R367–R369): the reservations, the contributions, the answers and the management
packets. -/

namespace Sys2Proof.Machine
open Sys2Proof Sys2Proof.Claims

/-! ## RESERVE and FREE (R367) -/

section
variable {s : State}

/-- A switch command ends with a status, the slots as given and packets on their way to the switch. -/
def Mach.switchAnswers (m : Mach) (st : BitVec 7) (slots : List RedSlot) (out : List Packet) : Mach :=
  { m with redSlots := slots, wire := m.wire ++ out, swRegs := { m.swRegs with busy := false, status := st } }

theorem Mach.swEnd_eq (m : Mach) (st : Nat) : m.swEnd st = m.switchAnswers (BitVec.ofNat 7 st) m.redSlots [] := by
  simp [Mach.swEnd, Mach.switchAnswers]

theorem switchThere_iff {m : Mach} {sw : Nat} : m.switchThere sw = true ↔ ∃ l, m.toSwitch sw l = true := by
  simp [Mach.switchThere]

/-- The fields of a reservation are in range (R367). -/
def reserveFits (w1 w2 : Nat) : Prop :=
  w1 % 2 ^ 24 ≠ 0 ∧ w1 < 2 ^ 56 ∧ w2 < 2 ^ 46 ∧ 1 ≤ w2 % 2 ^ 11 ∧ w2 % 2 ^ 11 ≤ 1024 ∧ w2 / 2 ^ 11 % 8 ≤ 3
    ∧ w2 / 2 ^ 14 % 4 ≤ 2 ∧ (w2 / 2 ^ 11 % 8 = 3 ↔ w2 / 2 ^ 14 % 4 = 2)

theorem reserveFits_iff {w1 w2 : Nat} : reserveFits w1 w2 ↔
    (w1 % 2 ^ 24 != 0 && decide (w1 < 2 ^ 56) && decide (w2 < 2 ^ 46) && decide (1 ≤ w2 % 2 ^ 11)
      && decide (w2 % 2 ^ 11 ≤ 1024) && decide (fld w2 11 3 ≤ 3) && decide (fld w2 14 2 ≤ 2)
      && (fld w2 11 3 == 3) == (fld w2 14 2 == 2)) = true := by
  simp only [Bool.and_eq_true, bne_iff_ne, decide_eq_true_eq, beq_iff_eq, beq_eq_beq, and_assoc, reserveFits]
  rfl

/-- The slot that the switch registers ask for. -/
def SwRegs.reserved (g : SwRegs) : RedSlot :=
  { sw := g.sw.toNat, slot := g.slot.toNat, gang := g.w1.toNat % 2 ^ 24, ctag := fld g.w1.toNat 24 32
    nc := g.w2.toNat % 2 ^ 11, op := fld g.w2.toNat 11 3, dt := fld g.w2.toNat 14 2, n := fld g.w2.toNat 16 10 + 1
    tmo := fld g.w2.toNat 26 20 }

/-- Of fields in range the slot holds all that the registers say. -/
theorem reserved_of_fits {g : SwRegs} (h : reserveFits g.w1.toNat g.w2.toNat) : g.reserved =
    { sw := g.sw.toNat, slot := g.slot.toNat, gang := g.w1.toNat % 2 ^ 24, ctag := g.w1.toNat / 2 ^ 24
      nc := g.w2.toNat % 2 ^ 11, op := g.w2.toNat / 2 ^ 11 % 8, dt := g.w2.toNat / 2 ^ 14 % 4
      n := g.w2.toNat / 2 ^ 16 % 2 ^ 10 + 1, tmo := g.w2.toNat / 2 ^ 26 } := by
  obtain ⟨-, hw1, hw2, -⟩ := h
  have hctag : fld g.w1.toNat 24 32 = g.w1.toNat / 2 ^ 24 := Nat.mod_eq_of_lt (by omega)
  have htmo : fld g.w2.toNat 26 20 = g.w2.toNat / 2 ^ 26 := Nat.mod_eq_of_lt (by omega)
  rw [SwRegs.reserved, hctag, htmo]
  rfl

theorem addSlot_free {m : Mach} {r : RedSlot} (h : m.slot? r.sw r.slot = none) :
    m.addSlot r = { m with redSlots := m.redSlots ++ [r] } := by
  simp [Mach.addSlot, h]

section
variable {g : SwRegs} (hg : s.mach.swRegs = g)
include hg

theorem reserve_misfit (h : ¬reserveFits g.w1.toNat g.w2.toNat) : exec .reserve s = s.to (s.mach.swEnd 7) := by
  subst hg
  rw [reserveFits_iff, Bool.not_eq_true] at h
  exact if_pos ((Bool.not_eq_true' _).mpr h)

section
variable (h : reserveFits g.w1.toNat g.w2.toNat)
include h

theorem reserve_fits : exec .reserve s =
    if !s.mach.switchThere g.sw.toNat then s.to (s.mach.swEnd 12)
    else if s.mach.iodWay.isNone then s.to (s.mach.timer 1 .reserve)
    else if (s.mach.slot? g.sw.toNat g.slot.toNat).isSome then s.to (s.mach.swEnd 11)
    else s.to (((s.mach.addSlot g.reserved).toTheSwitch g.reserved.info).swEnd 0) := by
  subst hg
  rw [reserveFits_iff] at h
  exact if_neg (fun hn => Bool.false_ne_true (((Bool.not_eq_true' _).mp hn).symm.trans h))

theorem reserve_nowhere (hthere : ¬∃ l, s.mach.toSwitch g.sw.toNat l = true) : exec .reserve s = s.to (s.mach.swEnd 12) := by
  rw [← switchThere_iff] at hthere
  simp only [reserve_fits hg h, hthere, Bool.not_false, if_true]

section
variable (hthere : ∃ l, s.mach.toSwitch g.sw.toNat l = true)
include hthere

theorem reserve_waits (hway : ¬s.mach.iodWay.isSome = true) : exec .reserve s = s.to (s.mach.timer 1 .reserve) := by
  rw [← switchThere_iff] at hthere
  have hnone : s.mach.iodWay.isNone = true := by simpa using hway
  simp only [reserve_fits hg h, hthere, Bool.not_true, Bool.false_eq_true, if_false, hnone, if_true]

theorem reserve_found (hway : s.mach.iodWay.isSome = true) : exec .reserve s =
    if (s.mach.slot? g.sw.toNat g.slot.toNat).isSome then s.to (s.mach.swEnd 11)
    else s.to (((s.mach.addSlot g.reserved).toTheSwitch g.reserved.info).swEnd 0) := by
  rw [← switchThere_iff] at hthere
  have hsome : s.mach.iodWay.isNone = false := by simpa [Option.isSome_iff_ne_none] using hway
  simp only [reserve_fits hg h, hthere, Bool.not_true, Bool.false_eq_true, if_false, hsome]

end
end

theorem free_nowhere (hthere : ¬∃ l, s.mach.toSwitch g.sw.toNat l = true) : exec .free s = s.to (s.mach.swEnd 12) := by
  subst hg
  rw [← switchThere_iff, Bool.not_eq_true] at hthere
  exact if_pos ((Bool.not_eq_true' _).mpr hthere)

section
variable (hthere : ∃ l, s.mach.toSwitch g.sw.toNat l = true)
include hthere

theorem free_there : exec .free s = if s.mach.iodWay.isNone then s.to (s.mach.timer 1 .free)
    else s.to (((s.mach.dropSlot g.sw.toNat g.slot.toNat).toTheSwitch (.free g.sw.toNat g.slot.toNat)).swEnd 0) := by
  subst hg
  rw [← switchThere_iff] at hthere
  exact if_neg (fun hn => Bool.false_ne_true (((Bool.not_eq_true' _).mp hn).symm.trans hthere))

theorem free_waits (hway : ¬s.mach.iodWay.isSome = true) : exec .free s = s.to (s.mach.timer 1 .free) :=
  (free_there hg hthere).trans (if_pos (by simpa using hway))

theorem free_leaves (hway : s.mach.iodWay.isSome = true) : exec .free s =
    s.to (((s.mach.dropSlot g.sw.toNat g.slot.toNat).toTheSwitch (.free g.sw.toNat g.slot.toNat)).swEnd 0) :=
  (free_there hg hthere).trans (if_neg (by simpa [Option.isSome_iff_ne_none] using hway))

end
end
end

/-! ## Instances by their number -/

/-- Where what a search finds is changed so that the search finds it still, it is found changed. -/
theorem find?_map_update {α : Type} {p : α → Bool} {f : α → α} {l : List α} {x : α} (hf : ∀ y, p y = true → p (f y) = true)
    (h : l.find? p = some x) : (l.map fun y => if p y then f y else y).find? p = some (f x) := by
  have hsame : (p ∘ fun y => if p y then f y else y) = p := by
    funext y
    by_cases hy : p y = true
    · simp [hy, hf y hy]
    · simp [hy]
  rw [List.find?_map, hsame, h]
  simp [List.find?_some h]

section
variable {m n : Mach} {c : CoreId} {uid : Nat} {i : Inst} {f : Inst → Inst}

/-- The core of a number follows from what is resident where. -/
theorem coreOf_congr (h : ∀ d, (n.core d).resident = (m.core d).resident ∧ (n.inst d).id.uid = (m.inst d).id.uid)
    (uid : Nat) : n.coreOf uid = m.coreOf uid := by
  unfold Mach.coreOf
  simp only [h]

theorem coreOf_modInst (hf : ∀ j, (f j).id.uid = j.id.uid) (c : CoreId) (uid : Nat) :
    (m.modInst c f).coreOf uid = m.coreOf uid := by
  refine coreOf_congr (fun d => ?_) uid
  by_cases hd : d = c
  · subst hd
    simp [Mach.modInst_eq, Mach.setInst_eq, Mach.inst, hf]
  · simp [Mach.inst, Mach.modInst_core_of_ne m f hd]

theorem modUid_of_coreOf (h : m.coreOf uid = some c) (f : Inst → Inst) : m.modUid uid f = m.modInst c f := by
  simp [Mach.modUid, h]

/-- What is changed under a number, resident or saved, is found changed. -/
theorem instOf_modUid (hf : ∀ j, (f j).id.uid = j.id.uid) (h : m.instOf uid = some i) :
    (m.modUid uid f).instOf uid = some (f i) := by
  cases hcore : m.coreOf uid with
  | some c =>
    have hi : m.inst c = i := by simpa [Mach.instOf, hcore] using h
    simp [modUid_of_coreOf hcore, Mach.instOf, coreOf_modInst hf, hcore, hi]
  | none =>
    obtain ⟨g, hg, rfl⟩ : ∃ g, m.image uid = some g ∧ g.inst = i := by simpa [Mach.instOf, hcore] using h
    have hchanged : (m.modUid uid f).image uid = some { g with inst := f g.inst } := by
      have himages : (m.modUid uid f).images =
          m.images.map fun g => if g.inst.id.uid == uid then { g with inst := f g.inst } else g := by
        simp [Mach.modUid, hcore]
      rw [Mach.image, himages]
      exact find?_map_update (f := fun g => { g with inst := f g.inst }) (fun g hg => by simpa [hf] using hg) hg
    have hstill : (m.modUid uid f).coreOf uid = none := by
      rw [← hcore]
      refine coreOf_congr (fun d => ?_) uid
      simp only [Mach.modUid, hcore]
      exact ⟨rfl, rfl⟩
    simp [Mach.instOf, hstill, hchanged]

end

/-! ## Commands that end (R362) -/

section
variable {m : Mach} {c : CoreId} {uid id st : Nat}

/-- A command in progress changes. -/
def Inst.cmdChanged (i : Inst) (id : Nat) (f : Cmd → Cmd) : Inst :=
  { i with fifo := { i.fifo with cmds := i.fifo.cmds.map fun x => if x.id = id then f x else x } }

/-- A command in progress ends: its result word enters F0's result side. -/
def Inst.cmdEnded (i : Inst) (id : Nat) : Inst :=
  match i.cmd? id with
  | none => i
  | some x => { i with fifo := { i.fifo with cmds := i.fifo.cmds.filter (·.id != id), res0 := i.fifo.res0 ++ [x.result] } }

theorem Mach.modCmd_eq (m : Mach) (n : Nat) (f : Cmd → Cmd) :
    m.modCmd n f = m.modUid (n / 2 ^ 32) fun i => i.cmdChanged (n % 2 ^ 32) f := rfl

theorem Mach.endCmd_eq (m : Mach) (n : Nat) : m.endCmd n = m.modUid (n / 2 ^ 32) fun i => i.cmdEnded (n % 2 ^ 32) := rfl

theorem Inst.cmdEnded_id (i : Inst) (id : Nat) : (i.cmdEnded id).id = i.id := by
  unfold Inst.cmdEnded
  split <;> rfl

/-- Failing a command on a core changes what is resident there alone. -/
theorem failCmd_of_coreOf (h : m.coreOf uid = some c) (hid : id < 2 ^ 32) :
    m.failCmd (uid * 2 ^ 32 + id) st =
      m.setInst c (((m.inst c).cmdChanged id fun x => { x with status := st }).cmdEnded id) := by
  have huid : (uid * 2 ^ 32 + id) / 2 ^ 32 = uid := by omega
  have hnum : (uid * 2 ^ 32 + id) % 2 ^ 32 = id := by omega
  have hstill : (m.modInst c fun i => i.cmdChanged id fun x => { x with status := st }).coreOf uid = some c :=
    (coreOf_modInst (f := fun i => i.cmdChanged id fun x => { x with status := st }) (fun _ => rfl) c uid).trans h
  rw [Mach.failCmd, Mach.modCmd_eq, Mach.endCmd_eq, huid, hnum, modUid_of_coreOf h, modUid_of_coreOf hstill,
    Mach.modInst_modInst, Mach.modInst_eq]

end

/-! ## Starting a command (R361) -/

section
variable {s : State} {c : CoreId} {code st : Nat} {x y : Cmd} {go : Cmd → Run Begun} {ps : List Packet} {m : Mach}

/-- A core's next command is in progress. -/
def Inst.begun (i : Inst) (x : Cmd) : Inst :=
  { i with fifo := { i.fifo with
    queue0 := i.fifo.queue0.drop 1, cmds := i.fifo.cmds ++ [x], nextCmd := i.fifo.nextCmd + 1 } }

theorem onResident_of_nextCommand (h : NextCommand s c code x) (f : Mach → Mach) : s.mach.onResident c f = f s.mach :=
  if_pos h.1

section
variable (h : NextCommand s c code x)
include h

/-- The record that the next command is made of. -/
theorem nextCommand_record : ∃ w body, (s.mach.inst c).fifo.nextFabric = some (w :: body) ∧ fld w.toNat 0 8 = code
    ∧ x = { id := (s.mach.inst c).fifo.nextCmd, code, tag := BitVec.ofNat 32 (fld w.toNat 16 32), body } := by
  obtain ⟨-, hroom, hres, w, body, rest, hqueue, hcode, rfl⟩ := h
  have htag : BitVec.ofNat 32 (fld w.toNat 16 32) = BitVec.ofNat 32 (w.toNat / 2 ^ 16) := by
    simp [← BitVec.toNat_inj, fld]
  exact ⟨w, body, by simp [Fifos.nextFabric, hroom, hres, hqueue], by simpa [fld] using hcode, by rw [htag]⟩

/-- A command that starts is in progress, and its packets leave. -/
theorem startCmd_started (hgo : (go x).go s.mach = (.ok (.ok (y, ps)), m)) :
    s.mach.startCmd c code go = (m.modInst c (·.begun { y with started := true })).sendAll ps := by
  obtain ⟨w, body, hnext, hcode, rfl⟩ := nextCommand_record h
  simp only [Mach.startCmd, hnext, List.headD_cons, hcode, ne_eq, not_true_eq_false, if_false, List.drop_succ_cons,
    List.drop_zero, hgo]
  rfl

theorem hasStarted_of_go {ev : Instr} (hexec : exec ev s = s.to (s.mach.onResident c fun m => m.startCmd c code go))
    (hgo : (go x).go s.mach = (.ok (.ok (y, ps)), m)) : HasStarted s ev c m y ps := by
  rw [HasStarted, hexec, onResident_of_nextCommand h, startCmd_started h hgo]
  rfl

/-- A command that does not start is in progress, and ends. -/
theorem startCmd_ended (hgo : (go x).go s.mach = (.ok (.error st), m)) :
    s.mach.startCmd c code go = (m.modInst c (·.begun x)).failCmd ((s.mach.inst c).id.uid * 2 ^ 32 + x.id) st := by
  obtain ⟨w, body, hnext, hcode, rfl⟩ := nextCommand_record h
  simp only [Mach.startCmd, hnext, List.headD_cons, hcode, ne_eq, not_true_eq_false, if_false, List.drop_succ_cons,
    List.drop_zero, hgo]
  rfl

/-- A command that is rejected as it starts ends at once, with no other effect. -/
theorem startCmd_rejected {ev : Instr} (hexec : exec ev s = s.to (s.mach.onResident c fun m => m.startCmd c code go))
    (hgo : (go x).go s.mach = (.ok (.error st), s.mach)) : Rejected s ev c x st := by
  intro hcore hother hid
  have hplain : x.flags = 0 ∧ x.nan = false ∧ x.snres = false ∧ x.contrib = 0 := by
    obtain ⟨w, body, -, -, rfl⟩ := nextCommand_record h
    exact ⟨rfl, rfl, rfl, rfl⟩
  obtain ⟨hflags, hnan, hsnres, hcontrib⟩ := hplain
  have hbegun : (s.mach.modInst c (·.begun x)).coreOf (s.mach.inst c).id.uid = some c :=
    (coreOf_modInst (f := (·.begun x)) (fun _ => rfl) c _).trans hcore
  have hfind : (s.mach.inst c).fifo.cmds.find? (fun y => y.id == x.id) = none := by simpa using hother
  have hkept : (s.mach.inst c).fifo.cmds.map (fun y => if y.id = x.id then { y with status := st } else y)
      = (s.mach.inst c).fifo.cmds := (List.map_congr_left fun y hy => if_neg (hother y hy)).trans (List.map_id _)
  have hfilter : (s.mach.inst c).fifo.cmds.filter (fun y => y.id != x.id) = (s.mach.inst c).fifo.cmds := by
    simpa using hother
  rw [hexec, onResident_of_nextCommand h, startCmd_ended h hgo, failCmd_of_coreOf hbegun hid]
  simp [Mach.modInst_eq, Mach.setInst_setInst, Inst.begun, Inst.cmdChanged, Inst.cmdEnded, Inst.cmd?, hkept, hfind,
    hfilter, Cmd.result, hflags, hnan, hsnres, hcontrib, State.to]

end
end

/-! ## SRED (R368) -/

section
variable {s : State} {c : CoreId} {x : Cmd} {d : DieId} {lk : Fin 16} {data : List Byte} {nr : Bool} {m : Mach}

/-- The elements and the type of a contribution, as its sender knows them (notes/assumptions/66.md). -/
def Mach.slotShape (m : Mach) (sw slot : Nat) : Nat × Nat :=
  match m.slot? sw slot with | some r => (r.n, r.dt) | none => (0, 0)

/-- The packets of a contribution to the switch that a link of a die leads to. -/
def Mach.sredParts (m : Mach) (c : CoreId) (x : Cmd) (d : DieId) (lk : Fin 16) (n dt : Nat) (data : List Byte) : List Packet :=
  (if data = [] then [(0, [])] else pieces 0 data).map fun q =>
    { m.packetOf c x.id .sredc (if d = dieOf c then 3 else 1) m.pkg.toNat q.1
        (sredAux (x.word 3 % 256) (fld (x.word 3) 8 12) (m.gw.get lk).pport.toNat) q.2
        (.sred (fld (x.word 3) 20 10) (fld (x.word 3) 30 16) (x.word 4) n dt 0 0 0 false) with dstDie := d }

theorem noTag_iff : s.mach.noTag c = true ↔ ¬Tagged s c := by simp [Mach.noTag, Tagged, Mach.ctxOf]

theorem sredGo_rejects (h : 2 ^ 46 ≤ x.word 3 ∨ 2 ^ 32 ≤ x.word 4) :
    (sredGo c x).go s.mach = (.ok (.error fabRej), s.mach) := by
  have hcond : (decide (2 ^ 46 ≤ x.word 3) || decide (2 ^ 32 ≤ x.word 4)) = true := by simpa using h
  simp only [sredGo, hcond, if_true, Run.go_pure]

section
variable (hctl : x.word 3 < 2 ^ 46) (hctag : x.word 4 < 2 ^ 32)
include hctl hctag

theorem sred_inRange : ¬(decide (2 ^ 46 ≤ x.word 3) || decide (2 ^ 32 ≤ x.word 4)) = true := by
  simp only [Bool.or_eq_true, decide_eq_true_eq]
  omega

theorem sredGo_denied (h : ¬Tagged s c) : (sredGo c x).go s.mach = (.ok (.error fabDenied), s.mach) := by
  simp only [sredGo, if_neg (sred_inRange hctl hctag), Run.go_bind, Run.go_get, if_pos (noTag_iff.2 h), Run.go_pure]

section
variable (h : Tagged s c)
include h

theorem sredGo_unlinked (hlink : s.mach.switchLink (dieOf c) (x.word 3 % 256) = none) :
    (sredGo c x).go s.mach = (.ok (.error fabLinkfail), s.mach) := by
  simp only [sredGo, if_neg (sred_inRange hctl hctag), Run.go_bind, Run.go_get, if_neg (mt noTag_iff.1 (not_not.2 h)),
    hlink, Run.go_pure]

/-- A contribution leaves for the die whose link leads to the switch. -/
theorem sredGo_sends {n dt : Nat} (hlink : s.mach.switchLink (dieOf c) (x.word 3 % 256) = some (d, lk))
    (hshape : s.mach.slotShape (x.word 3 % 256) (fld (x.word 3) 8 12) = (n, dt))
    (hread : (fabRead c (x.word 1) (n * dtSize dt)).go s.mach = (.ok (data, nr), m)) :
    (sredGo c x).go s.mach = (.ok (.ok ({ x with snres := nr }, m.sredParts c x d lk n dt data)), m) := by
  simp only [sredGo, if_neg (sred_inRange hctl hctag), Run.go_bind, Run.go_get, if_neg (mt noTag_iff.1 (not_not.2 h)),
    hlink]
  rw [Mach.slotShape] at hshape
  split at hshape
  next r hr =>
    cases hshape
    simp only [hr, hread, Run.go_pure, Mach.sredParts, List.isEmpty_iff]
  next hr =>
    cases hshape
    simp only [hr, hread, Run.go_pure, Mach.sredParts, List.isEmpty_iff]

end
end
end

/-! ## Reduction slots (R368, R369) -/

section
variable {m : Mach} {r r' : RedSlot} {p : Packet} {rank seq ctag n dt st flags contrib : Nat} {nan : Bool}

/-- A slot that is set is found set. -/
theorem slot?_setSlot (hr : m.slot? r.sw r.slot = some r') : (m.setSlot r).slot? r.sw r.slot = some r := by
  have hset : (m.setSlot r).redSlots = m.redSlots.map fun x => if x.sw == r.sw && x.slot == r.slot then r else x := by
    simp [Mach.setSlot]
  rw [Mach.slot?, hset]
  exact find?_map_update (f := fun _ => r) (fun _ _ => by simp) hr

theorem insertBy_perm {α : Type} (le : α → α → Bool) (x : α) (l : List α) : (insertBy le x l).Perm (x :: l) := by
  induction l with
  | nil => exact .refl _
  | cons y t ih =>
    unfold insertBy
    split
    · exact .refl _
    · exact (ih.cons y).trans (.swap ..)

theorem sortBy_perm {α : Type} (le : α → α → Bool) (l : List α) : (sortBy le l).Perm l := by
  induction l with
  | nil => exact .refl _
  | cons x t ih => exact (insertBy_perm le x _).trans (ih.cons x)

/-- A packet carries a contribution, or the answer to one. -/
def OfReduction (p : Packet) : Prop := ∃ a b e f k u v w z, p.info = .sred a b e f k u v w z

/-- A contribution has been answered with a status, and how many were in. -/
def SredAnswered (m : Mach) (p : Packet) (st n : Nat) : Prop :=
  ∃ q, Leaves m q ∧ q.typ = .sredr ∧ q.tgt = p.srcPkg ∧ q.cmd = p.cmd ∧ ∃ a b e f k fl nan, q.info = .sred a b e f k st fl n nan

theorem pieces_ne_nil {a : Nat} {l : List Byte} (h : l ≠ []) : pieces a l ≠ [] := by
  have hlen : 0 < l.length := List.length_pos_iff.2 h
  have hcuts : (a % 8 + l.length + 4095) / 4096 ≠ 0 := by omega
  simp [pieces, cuts, h, hcuts]

theorem sredAnswer_sends {data : List Byte} (hinfo : p.info = .sred rank seq ctag n dt st flags contrib nan)
    (st' fl n' : Nat) (nan' : Bool) : Sends m (m.sredAnswer p st' fl n' nan' data)
      ∧ ∃ q, Leaves (m.sredAnswer p st' fl n' nan' data) q ∧ q.typ = .sredr ∧ q.tgt = p.srcPkg ∧ q.cmd = p.cmd
        ∧ q.info = .sred rank seq ctag n dt st' fl n' nan' := by
  obtain ⟨x, hx⟩ := List.exists_mem_of_ne_nil (if data.isEmpty then [(0, [])] else pieces 0 data) (by
    split
    · simp
    next h => exact pieces_ne_nil (by simpa using h))
  simp only [Mach.sredAnswer, hinfo]
  obtain ⟨hsends, hall⟩ := sendAll_sends (m := m) ((if data.isEmpty then [(0, [])] else pieces 0 data).map fun q =>
    { m.answerOf p .sredr st' q.2 with gang := p.gang, aux := q.1, info := .sred rank seq ctag n dt st' fl n' nan' })
  obtain ⟨j, hj⟩ := hall _ (List.mem_map_of_mem hx)
  exact ⟨hsends, _, hj, rfl, rfl, rfl, rfl⟩

theorem foldl_sredAnswer_sends (st' fl n' : Nat) (nan' : Bool) (data : List Byte) (l : List Contribution)
    (hl : ∀ h ∈ l, OfReduction h.src) :
    Sends m (l.foldl (fun m h => m.sredAnswer h.src st' fl n' nan' data) m)
      ∧ ∀ h ∈ l, SredAnswered (l.foldl (fun m h => m.sredAnswer h.src st' fl n' nan' data) m) h.src st' n' := by
  induction l generalizing m with
  | nil => exact ⟨.refl m, by simp⟩
  | cons x t ih =>
    obtain ⟨a, b, e, f, k, u, v, w, z, hinfo⟩ := hl x (by simp)
    obtain ⟨hsends, q, hq, htyp, htgt, hcmd, hq'⟩ := sredAnswer_sends (m := m) (data := data) hinfo st' fl n' nan'
    obtain ⟨hrest, hall⟩ := ih (m := m.sredAnswer x.src st' fl n' nan' data) fun h hh => hl h (List.mem_cons_of_mem _ hh)
    refine ⟨hsends.trans hrest, fun h hh => ?_⟩
    rcases List.mem_cons.1 hh with rfl | hh
    · exact ⟨q, hrest.leaves hq, htyp, htgt, hcmd, _, _, _, _, _, _, _, hq'⟩
    · exact hall h hh

/-- A slot whose round has ended. -/
def RedSlot.roundOver (r : RedSlot) : RedSlot := { r with held := [], seq := r.seq + 1, rounds := r.rounds + 1 }

/-- The contributors of a round that ends are answered alike, in the order of their ranks. -/
theorem reduceSlot_eq (m : Mach) (r : RedSlot) (st : Nat) : ∃ fl nan data, m.reduceSlot r st =
    (sortBy (fun (a b : Contribution) => decide (a.rank ≤ b.rank)) r.held).foldl
      (fun m h => m.sredAnswer h.src st fl r.held.length nan data) (m.setSlot r.roundOver) := by
  rw [← (sortBy_perm (fun (a b : Contribution) => decide (a.rank ≤ b.rank)) r.held).length_eq]
  exact ⟨_, _, _, rfl⟩

/-- The end of a round answers every contributor. -/
theorem reduceSlot_answers (hr : m.slot? r.sw r.slot = some r') (hheld : ∀ h ∈ r.held, OfReduction h.src) (st' : Nat) :
    (m.reduceSlot r st').slot? r.sw r.slot = some r.roundOver
      ∧ ∀ h ∈ r.held, SredAnswered (m.reduceSlot r st') h.src st' r.held.length := by
  have hperm := sortBy_perm (fun (a b : Contribution) => decide (a.rank ≤ b.rank)) r.held
  obtain ⟨fl, nan', data, heq⟩ := reduceSlot_eq m r st'
  obtain ⟨hsends, hall⟩ := foldl_sredAnswer_sends (m := m.setSlot r.roundOver) st' fl r.held.length nan' data _
    fun h hh => hheld h (hperm.mem_iff.1 hh)
  rw [heq]
  refine ⟨?_, fun h hh => hall h (hperm.mem_iff.2 hh)⟩
  rw [Mach.slot?, hsends.redSlots]
  exact slot?_setSlot (r := r.roundOver) hr

/-! ### A contribution at its slot (Table 15.9) -/

/-- A contribution belongs to the reservation of a slot. -/
def RedSlot.mine (r : RedSlot) (p : Packet) (rank ctag : Nat) : Prop := r.gang = p.gang ∧ r.ctag = ctag ∧ rank < r.nc

/-- A contribution is for the round before. -/
def RedSlot.late (r : RedSlot) (seq : Nat) : Prop := r.rounds ≠ 0 ∧ seq = (r.seq - 1).toNat

/-- A contribution is one that the round of a slot waits for. -/
def RedSlot.awaits (r : RedSlot) (rank seq n : Nat) : Prop := seq = r.seq.toNat ∧ n = r.n ∧ ∀ h ∈ r.held, h.rank ≠ rank

/-- The microseconds that a slot waits for its contributions. -/
def RedSlot.patience (r : RedSlot) : Nat := if r.tmo = 0 then 100 else r.tmo

/-- A slot that holds one contribution more. -/
def RedSlot.joined (r : RedSlot) (cycle rank dt : Nat) (p : Packet) : RedSlot :=
  { r with held := r.held ++ [{ rank, values := valuesOf dt p.data, src := p }], since := if r.held = [] then cycle else r.since }

theorem not_mine_iff {ctag' : Nat} :
    (decide (r.gang ≠ p.gang) || decide (r.ctag ≠ ctag') || decide (r.nc ≤ rank)) = true ↔ ¬r.mine p rank ctag' := by
  simp only [RedSlot.mine, Bool.or_eq_true, decide_eq_true_eq]
  omega

theorem late_iff : (decide (r.rounds ≠ 0) && seq == (r.seq - 1).toNat) = true ↔ r.late seq := by simp [RedSlot.late]

theorem not_awaits_iff : (decide (seq ≠ r.seq.toNat) || r.held.any (fun x => x.rank == rank) || decide (n ≠ r.n)) = true
    ↔ ¬r.awaits rank seq n := by
  simp only [RedSlot.awaits, Bool.or_eq_true, decide_eq_true_eq, List.any_eq_true, beq_iff_eq]
  constructor
  · rintro ((h | ⟨x, hx, h⟩) | h) ⟨hseq, hn, hall⟩
    · exact h hseq
    · exact hall x hx h
    · exact h hn
  · intro h
    by_contra hno
    push Not at hno
    exact h ⟨hno.1.1, hno.2, hno.1.2⟩

/-- A slot with one contribution more; the first of a round starts the slot's timer (R368). -/
def Mach.joins (m : Mach) (r : RedSlot) (rank dt : Nat) (p : Packet) : Mach :=
  if r.held = [] then (m.setSlot (r.joined m.cycle rank dt p)).timer (1500 * r.patience)
    (.sredSlotTimeout (BitVec.ofNat 8 r.sw) (BitVec.ofNat 12 r.slot))
  else m.setSlot (r.joined m.cycle rank dt p)

section
variable (hinfo : p.info = .sred rank seq ctag n dt st flags contrib nan)
include hinfo

theorem contribute_absent (h : m.slot? (auxSwitch p.aux) (auxSlot p.aux) = none) :
    m.contribute p = m.sredAnswer p fabDenied 0 0 false [] := by
  simp only [Mach.contribute, hinfo, h]

section
variable (hr : m.slot? (auxSwitch p.aux) (auxSlot p.aux) = some r)
include hr

theorem contribute_foreign (h : ¬r.mine p rank ctag) : m.contribute p = m.sredAnswer p fabDenied 0 0 false [] := by
  simp only [Mach.contribute, hinfo, hr, not_mine_iff, h, not_false_eq_true, if_true]

section
variable (hmine : r.mine p rank ctag)
include hmine

theorem contribute_late (h : r.late seq) : m.contribute p = m.sredAnswer p fabLate 0 0 false [] := by
  simp only [Mach.contribute, hinfo, hr, not_mine_iff, hmine, not_true_eq_false, if_false, late_iff, h, if_true]

section
variable (hlate : ¬r.late seq)
include hlate

theorem contribute_unawaited (h : ¬r.awaits rank seq n) : m.contribute p = m.sredAnswer p fabMismatch 0 0 false [] := by
  simp only [Mach.contribute, hinfo, hr, not_mine_iff, hmine, not_true_eq_false, if_false, late_iff, hlate, not_awaits_iff,
    h, not_false_eq_true, if_true]

theorem contribute_joins (h : r.awaits rank seq n) : m.contribute p =
    if r.held.length + 1 = r.nc then (m.joins r rank dt p).reduceSlot (r.joined m.cycle rank dt p) fabOk
    else m.joins r rank dt p := by
  simp only [Mach.contribute, hinfo, hr, not_mine_iff, hmine, not_true_eq_false, if_false, late_iff, hlate, not_awaits_iff,
    h, List.isEmpty_iff, List.length_append, List.length_singleton]
  rfl

end
end
end
end
end

section
variable {m : Mach} {r : RedSlot} {p : Packet} {rank dt : Nat}

theorem slot?_key {a b : Nat} (h : m.slot? a b = some r) : r.sw = a ∧ r.slot = b := by
  simpa using List.find?_some h

theorem joins_slot? (hr : m.slot? r.sw r.slot = some r) :
    (m.joins r rank dt p).slot? r.sw r.slot = some (r.joined m.cycle rank dt p) := by
  have hset := slot?_setSlot (r := r.joined m.cycle rank dt p) hr
  unfold Mach.joins
  split
  · exact hset
  · exact hset

theorem joins_timers (h : r.held = []) :
    (m.cycle + 1500 * r.patience, Instr.sredSlotTimeout (BitVec.ofNat 8 r.sw) (BitVec.ofNat 12 r.slot))
      ∈ (m.joins r rank dt p).timers := by
  simp [Mach.joins, h, Mach.timer, Mach.setSlot]

section
variable {seq ctag k st flags contrib : Nat} {nan : Bool} (hinfo : p.info = .sred rank seq ctag k dt st flags contrib nan)
  (hr : m.slot? (auxSwitch p.aux) (auxSlot p.aux) = some r) (hmine : r.mine p rank ctag) (hlate : ¬r.late seq)
  (hawaits : r.awaits rank seq k)
include hinfo hr hmine hlate hawaits

/-- A contribution before the last is held. -/
theorem contribute_more (hmore : r.held.length + 1 < r.nc) :
    (m.contribute p).slot? r.sw r.slot = some (r.joined m.cycle rank dt p)
      ∧ (r.held = [] → (m.cycle + 1500 * r.patience, Instr.sredSlotTimeout (BitVec.ofNat 8 r.sw) (BitVec.ofNat 12 r.slot))
        ∈ (m.contribute p).timers) := by
  obtain ⟨hsw, hslot⟩ := slot?_key hr
  rw [contribute_joins hinfo hr hmine hlate hawaits, if_neg hmore.ne]
  exact ⟨joins_slot? (by rw [hsw, hslot, hr]), joins_timers⟩

/-- The last contribution ends the round, which answers them all. -/
theorem contribute_last (hlast : r.held.length + 1 = r.nc) (hheld : ∀ h ∈ r.held, OfReduction h.src) :
    (m.contribute p).slot? r.sw r.slot = some (r.joined m.cycle rank dt p).roundOver
      ∧ ∀ h ∈ { rank, values := valuesOf dt p.data, src := p } :: r.held, SredAnswered (m.contribute p) h.src fabOk r.nc := by
  obtain ⟨hsw, hslot⟩ := slot?_key hr
  have hjoined : (m.joins r rank dt p).slot? r.sw r.slot = _ := joins_slot? (by rw [hsw, hslot, hr])
  have hmem : ∀ h, h ∈ (r.joined m.cycle rank dt p).held ↔ h ∈ { rank, values := valuesOf dt p.data, src := p } :: r.held :=
    fun h => by simp [RedSlot.joined, or_comm]
  have hcount : (r.joined m.cycle rank dt p).held.length = r.nc := List.length_append.trans hlast
  obtain ⟨hover, hall⟩ := reduceSlot_answers (r := r.joined m.cycle rank dt p) hjoined (fun h hh => by
    rcases List.mem_cons.1 ((hmem h).1 hh) with rfl | hh
    · exact ⟨_, _, _, _, _, _, _, _, _, hinfo⟩
    · exact hheld h hh) fabOk
  rw [contribute_joins hinfo hr hmine hlate hawaits, if_pos hlast]
  rw [hcount] at hall
  exact ⟨hover, fun h hh => hall h ((hmem h).2 hh)⟩

end

/-! ### Packets of a contribution -/

/-- The packets of a contribution that have come, with the last. -/
def Mach.partsWith (m : Mach) (p : Packet) : List Packet := m.redParts.filter (sameContribution p) ++ [p]

/-- A whole contribution: the last of its packets with the bytes of all. -/
def Mach.wholeWith (m : Mach) (p : Packet) : Packet :=
  { p with data := (sortBy (fun (a b : Packet) => decide (a.addr ≤ b.addr)) (m.partsWith p)).flatMap (·.data) }

/-- The machine that the parts of a contribution have left. -/
def Mach.withoutParts (m : Mach) (p : Packet) : Mach := { m with redParts := m.redParts.filter fun q => !sameContribution p q }

theorem takeSredc_waits (h : ¬contribLen p ≤ ((m.partsWith p).map (·.data.length)).sum) :
    m.takeSredc p = { m with redParts := m.redParts ++ [p] } := if_pos (not_le.1 h)

theorem takeSredc_whole (h : contribLen p ≤ ((m.partsWith p).map (·.data.length)).sum) :
    m.takeSredc p = (m.withoutParts p).contribute (m.wholeWith p) := if_neg (not_lt.2 h)

end

/-! ## A packet that arrives (R311, R353) -/

section
variable {s : State} {m n : Mach} {p : Packet} {go : Bool → Mach → Took × Mach} {done : Took → Mach → Mach} {t : Took}

theorem sends_sunk : Sends m (m.sunk p) := by
  unfold Mach.sunk
  split
  · exact .refl m
  dsimp only
  refine sends_chargePacket.trans (n := m.chargePacket p) ?_
  split
  · exact .refl _
  split
  · unfold Mach.ackFar
    split
    · exact .refl _
    · exact sendIod_sends.1
  · exact send_sends.1

/-- n is what taking a packet in has made of m: the packet is held no more, and one of another module is marked as taken
and acknowledged (R353). -/
def TakenIn (p : Packet) (m n : Mach) : Prop :=
  ∃ held taken, Sends { m with heldDel := held, consumed := taken } n ∧ (p.srcPkg ≠ m.pkg.toNat → takenKey p ∈ taken)

theorem receive_taken (h : Arrives s p) (hgo : go false s.mach = (t, m)) (ht : t ≠ .hold) :
    ∃ n, s.mach.receive p go done = done t n ∧ TakenIn p m n := by
  obtain ⟨hdest, hnew, hfree⟩ := h
  have hheld : s.mach.heldDel.find? (fun e => e.1 == p) = none :=
    List.find?_eq_none.2 fun e he => by simpa using (hfree e he).1
  have hbefore : heldBefore s.mach.heldDel p = [] := by
    simp only [heldBefore, List.filter_eq_nil_iff]
    intro e he
    simp [(hfree e ((List.takeWhile_sublist _).mem he)).2]
  have hdup : ¬(p.srcPkg ≠ s.mach.pkg.toNat ∧ takenKey p ∈ s.mach.consumed) := fun hboth => hnew hboth.1 hboth.2
  have hdest' : destPkg p = s.mach.pkg.toNat := hdest
  have hreceive : s.mach.receive p go done =
      if p.srcPkg = m.pkg.toNat then done t { m with heldDel := m.heldDel.filter fun e => e.1 != p }
      else done t (({ m with
        heldDel := m.heldDel.filter fun e => e.1 != p, consumed := m.consumed ++ [takenKey p] } : Mach).sunk p) := by
    simp [Mach.receive, hheld, hbefore, hdup, hdest', hgo]
  rw [hreceive]
  split
  next hown => exact ⟨_, rfl, _, _, .refl _, fun hfar => absurd hown hfar⟩
  next => exact ⟨_, rfl, _, _, sends_sunk, fun _ => List.mem_append_right _ (List.mem_singleton_self _)⟩

theorem TakenIn.consumed (h : TakenIn p m n) (hfar : p.srcPkg ≠ m.pkg.toNat) : takenKey p ∈ n.consumed := by
  obtain ⟨held, taken, hsends, hkey⟩ := h
  rw [hsends.consumed]
  exact hkey hfar

/-- The IOD answers what it has taken in. -/
theorem iodAnswered_ackFar {st : Nat} (h : TakenIn p m n) (hpkg : m.pkg = s.mach.pkg) :
    IodAnswered s { s with mach := n.ackFar p st } p st := by
  intro hfar
  have htaken := h.consumed (by rwa [hpkg])
  obtain ⟨held, taken, hsends, -⟩ := h
  have hnpkg : n.pkg = s.mach.pkg := hsends.pkg.trans hpkg
  have hack : n.ackFar p st = n.sendIod (n.answerOf p .ack st []) := if_neg (by rwa [hnpkg])
  rw [hack]
  obtain ⟨hack', j, d, hleaves⟩ := sendIod_sends (m := n) (p := n.answerOf p .ack st [])
  exact ⟨hack'.consumed.symm ▸ htaken, _, hleaves, rfl, rfl, rfl, rfl, rfl, rfl, rfl⟩

theorem sends_ackFar {st : Nat} : Sends n (n.ackFar p st) := by
  unfold Mach.ackFar
  split
  · exact .refl n
  · exact sendIod_sends.1

/-! ## Management packets (R317, R357) -/

theorem mgmt_taken {code : Nat} (h : Arrives s p) (ht : s.mach.takeMgmt p = (code, m)) :
    ∃ n, exec (.mgmt p) s = .next { s with mach := n.ackFar p code } ∧ TakenIn p m n := by
  have hhold : mgmtTook code ≠ .hold := by unfold mgmtTook; split <;> simp
  have hstatus : (mgmtTook code).status = code := by
    unfold mgmtTook
    split
    next h => exact h.symm
    next => rfl
  obtain ⟨n, hn, htaken⟩ := receive_taken (done := fun t m => m.ackFar p t.status)
    (go := fun _ m => let r := m.takeMgmt p; (mgmtTook r.1, r.2)) h (by rw [ht]) hhold
  refine ⟨n, ?_, htaken⟩
  rw [hstatus] at hn
  exact congrArg (Host.Outcome.next { s with mach := · }) hn

end

section
variable {m : Mach} {r : Round}

theorem tellModules_sends (res : Nat × Nat) : Sends m (m.tellModules r res) := Sends.foldl (fun _ _ => sendIod_sends.1) _ _

theorem endRound_pkg (res : Nat × Nat) : (m.endRound r res).pkg = m.pkg := by
  simp [Mach.endRound, (tellModules_sends res).pkg]

theorem poisonRound_pkg (pctx : Nat) : (m.poisonRound r pctx).pkg = m.pkg := by
  dsimp only [Mach.poisonRound]
  rw [endRound_pkg, Mach.storeWord_pkg, Mach.storeWord_pkg]

theorem fireCheck_pkg (num : Nat) : (m.fireCheck num).pkg = m.pkg := by
  unfold Mach.fireCheck
  split
  · rfl
  split
  · split
    · exact sendIod_sends.1.pkg
    · rfl
  split
  · rfl
  split
  · rfl
  · dsimp only
    rw [endRound_pkg, Mach.storeWord_pkg, Mach.storeWord_pkg, Mach.storeWord_pkg, Mach.storeWord_pkg]

theorem homeBarrier_pkg (p : Packet) (obj expect bytes : Nat) (arrived : Bool) :
    (m.homeBarrier p obj expect bytes arrived).2.pkg = m.pkg := by
  unfold Mach.homeBarrier
  dsimp only
  generalize (if arrived = true then [(p.srcPkg, p.cmd)] else []) = who
  split
  · dsimp only
    split
    · exact fireCheck_pkg _
    · rfl
  · split
    · exact (Sends.foldl (fun _ _ => sendIod_sends.1) _ _).pkg
    split
    · rfl
    · dsimp only
      split
      · exact fireCheck_pkg _
      · rfl

theorem takeMgmt_pkg (p : Packet) : (m.takeMgmt p).2.pkg = m.pkg := by
  unfold Mach.takeMgmt
  split
  · exact homeBarrier_pkg ..
  · split
    · exact endRound_pkg _
    · rfl
  · split
    · exact poisonRound_pkg _
    · rfl
  · unfold Mach.addSlot
    split <;> rfl
  · rfl
  · rfl

/-- A management packet does what it does, is acknowledged with its status, and leaves the rest. -/
theorem mgmt_answered {s : State} {p : Packet} {code : Nat} (h : Arrives s p) (ht : s.mach.takeMgmt p = (code, m)) :
    ∃ n, exec (.mgmt p) s = .next { s with mach := n } ∧ IodAnswered s { s with mach := n } p code
      ∧ ∃ held taken, Sends { m with heldDel := held, consumed := taken } n := by
  have hpkg : m.pkg = s.mach.pkg := by
    have hkept := takeMgmt_pkg (m := s.mach) p
    rwa [ht] at hkept
  obtain ⟨n, hexec, htaken⟩ := mgmt_taken h ht
  refine ⟨n.ackFar p code, hexec, iodAnswered_ackFar htaken hpkg, ?_⟩
  obtain ⟨held, taken, hsends, -⟩ := htaken
  exact ⟨held, taken, hsends.trans sends_ackFar⟩

/-- A release goes to every core that holds a record of the round (R317). -/
theorem endRound_releases {c : CoreId} {res : Nat × Nat} (hres : (m.core c).resident = true)
    (ha : ∃ a ∈ (m.inst c).arrivals, a.round = r.num) : .barrierRelease c r.num ∈ (m.endRound r res).agenda := by
  have hholds : c ∈ m.holders r.num := by simpa [Mach.holders, hres] using ha
  simp only [Mach.endRound, Mach.post_agenda, List.mem_append, List.mem_map]
  exact .inr ⟨c, hholds, rfl⟩

end

end Sys2Proof.Machine
end

section
/-! What an access of local memory leaves alone: an invariant of the machine through a computation, and the accesses that
keep every identity and all FIFOs (R309, R347). -/

namespace Sys2Proof.Machine
open Sys2Proof Sys2Proof.Claims

/-! ## Invariants of a computation -/

/-- A computation keeps a property of the machine, however it ends. -/
structure Run.Keeps {α : Type} (P : Mach → Prop) (f : Run α) : Prop where
  keeps : ∀ m, P m → P (f.go m).2

namespace Run.Keeps

variable {α β : Type} {P : Mach → Prop}

protected theorem pure (a : α) : Run.Keeps P (pure a) := ⟨fun _ h => h⟩
protected theorem throw (e : Stop) : Run.Keeps P (throw e : Run α) := ⟨fun _ h => h⟩
protected theorem trap (k : Cause) (v : Nat) : Run.Keeps P (trap k v : Run α) := ⟨fun _ h => h⟩
protected theorem waitFor (k : WaitKind) : Run.Keeps P (waitFor k : Run α) := ⟨fun _ h => h⟩
protected theorem get : Run.Keeps P (get : Run Mach) := ⟨fun _ h => h⟩
protected theorem getInst (c : CoreId) : Run.Keeps P (getInst c) := ⟨fun _ h => h⟩
protected theorem set {m : Mach} (h : P m) : Run.Keeps P (set m : Run Unit) := ⟨fun _ _ => h⟩
protected theorem modify {f : Mach → Mach} (h : ∀ m, P m → P (f m)) : Run.Keeps P (modify f : Run Unit) := ⟨h⟩
protected theorem setInst {c : CoreId} {f : Inst → Inst} (h : ∀ m, P m → P (m.modInst c f)) : Run.Keeps P (setInst c f) := ⟨h⟩

protected theorem require (b : Bool) (k : Cause) (v : Nat) : Run.Keeps P (require b k v) := ⟨fun m h => by
  rw [Run.go_require]; split <;> exact h⟩

protected theorem bind {x : Run α} {f : α → Run β} (hx : Run.Keeps P x) (hf : ∀ a, Run.Keeps P (f a)) :
    Run.Keeps P (x >>= f) := ⟨fun m h => by
  have hm := hx.keeps m h
  rw [Run.go_bind]
  split
  next a m' hgo => rw [hgo] at hm; exact (hf a).keeps m' hm
  next e m' hgo => rw [hgo] at hm; exact hm⟩

/-- What reads the machine may use what holds of it. -/
protected theorem get_bind {f : Mach → Run β} (hf : ∀ m, P m → Run.Keeps P (f m)) : Run.Keeps P (get >>= f) :=
  ⟨fun m h => (hf m h).keeps m h⟩

protected theorem ite {q : Prop} [Decidable q] {x y : Run α} (hx : Run.Keeps P x) (hy : Run.Keeps P y) :
    Run.Keeps P (if q then x else y) := by
  split
  · exact hx
  · exact hy

/-- A part that runs under a condition, and the rest that runs in any case. -/
protected theorem when {q : Prop} [Decidable q] {x : Run PUnit} {f : PUnit → Run β} (hx : Run.Keeps P x)
    (hf : ∀ u, Run.Keeps P (f u)) : Run.Keeps P (if q then x >>= f else f ⟨⟩) := .ite (.bind hx hf) (hf _)

protected theorem tryCatch {x : Run α} {f : Stop → Run α} (hx : Run.Keeps P x) (hf : ∀ e, Run.Keeps P (f e)) :
    Run.Keeps P (tryCatch x f) := ⟨fun m h => by
  have hm := hx.keeps m h
  rw [Run.go_tryCatch]
  split
  next a m' hgo => rw [hgo] at hm; exact hm
  next e m' hgo => rw [hgo] at hm; exact (hf e).keeps m' hm⟩

protected theorem forIn {γ : Type} {l : List γ} {f : γ → β → Run (ForInStep β)} (hf : ∀ a b, Run.Keeps P (f a b)) (b : β) :
    Run.Keeps P (forIn l b f) := by
  induction l generalizing b with
  | nil => exact .pure b
  | cons a t ih =>
    rw [List.forIn_cons]
    refine .bind (hf a b) fun r => ?_
    cases r with
    | done b => exact .pure b
    | yield b => exact ih b

end Run.Keeps

/-! ## Identities and FIFOs -/

/-- The cores hold what they held, with the same identities and FIFOs, and the images are untouched. -/
def SameFifos (m n : Mach) : Prop :=
  n.images = m.images ∧ ∀ d, (n.core d).resident = (m.core d).resident ∧ (n.inst d).id = (m.inst d).id
    ∧ (n.inst d).fifo = (m.inst d).fifo

section
variable {m n k : Mach} {c : CoreId}

theorem SameFifos.refl (m : Mach) : SameFifos m m := ⟨rfl, fun _ => ⟨rfl, rfl, rfl⟩⟩

theorem SameFifos.trans (h : SameFifos m n) (h' : SameFifos n k) : SameFifos m k :=
  ⟨h'.1.trans h.1, fun d => ⟨(h'.2 d).1.trans (h.2 d).1, (h'.2 d).2.1.trans (h.2 d).2.1, (h'.2 d).2.2.trans (h.2 d).2.2⟩⟩

/-- What changes neither cores nor images keeps the FIFOs. -/
theorem sameFifos_of_cores (hcores : n.cores = m.cores) (himages : n.images = m.images) : SameFifos m n :=
  ⟨himages, fun d => by simp [Mach.inst, Mach.core, hcores]⟩

theorem sameFifos_modInst {f : Inst → Inst} (hid : ∀ i, (f i).id = i.id) (hfifo : ∀ i, (f i).fifo = i.fifo) :
    SameFifos m (m.modInst c f) := by
  refine ⟨rfl, fun d => ?_⟩
  by_cases hd : d = c
  · subst hd
    rw [Mach.modInst_inst, hid, hfifo]
    simp [Mach.modInst_eq, Mach.setInst_eq]
  · simp [Mach.inst, Mach.modInst_core_of_ne m f hd]

theorem SamePages.sameFifos (h : SamePages c m n) : SameFifos m n := by
  obtain ⟨x, l, rfl⟩ := h
  exact sameFifos_modInst (m := m.setDie (dieOf c) x) (f := fun i => { i with regs := l }) (fun _ => rfl) (fun _ => rfl)

/-- What a number names has the same FIFOs. -/
theorem SameFifos.instOf (h : SameFifos m n) {uid : Nat} {i : Inst} (hi : m.instOf uid = some i) :
    ∃ j, n.instOf uid = some j ∧ j.fifo = i.fifo := by
  have hcore : n.coreOf uid = m.coreOf uid := coreOf_congr (fun d => ⟨(h.2 d).1, by rw [(h.2 d).2.1]⟩) uid
  cases hc : m.coreOf uid with
  | some c =>
    have hi' : m.inst c = i := by simpa [Mach.instOf, hc] using hi
    exact ⟨n.inst c, by simp [Mach.instOf, hcore, hc], by rw [(h.2 c).2.2, hi']⟩
  | none =>
    refine ⟨i, ?_, rfl⟩
    simpa [Mach.instOf, hcore, hc, Mach.image, h.1] using hi

/-! ## Accesses keep them -/

theorem sameFifos_startMove (ctx : CtxId) (p : Page) (pull : Bool) : SameFifos m (m.startMove ctx p pull) := by
  rw [startMove_else]
  exact sameFifos_of_cores rfl rfl

section
variable {b : Mach}

theorem keepsFifos_modInst {f : Inst → Inst} (hid : ∀ i, (f i).id = i.id) (hfifo : ∀ i, (f i).fifo = i.fifo) :
    Run.Keeps (SameFifos b) (setInst c f) := .setInst fun _ hm => hm.trans (sameFifos_modInst hid hfifo)

theorem keepsFifos_stallOn {α : Type} (c : CoreId) (p : Page) (w : Staller) (tv : Nat) :
    Run.Keeps (SameFifos b) (stallOn c p w tv : Run α) := by
  refine .bind (.modify fun m hm => ?_) fun _ => .get_bind fun m hm => ?_
  · split
    · exact hm.trans (sameFifos_startMove ..)
    · exact hm
  · exact .bind (.set (hm.trans (sameFifos_of_cores rfl rfl))) fun _ => .bind (.require _ _ _) fun _ => .waitFor _

theorem keepsFifos_countOne (c : CoreId) (p : Page) (w : Staller) (tv : Nat) :
    Run.Keeps (SameFifos b) (countOne c p w tv) := by
  refine .get_bind fun m hm => .bind (.set (hm.trans (sameFifos_of_cores rfl rfl))) fun _ => ?_
  exact .ite (.bind (.modify fun m hm => SameFifos.trans hm (sameFifos_startMove ..)) fun _ => keepsFifos_stallOn ..) (.pure _)

theorem keepsFifos_translate (c : CoreId) (who : PStream) (va tv : Nat) (need : Right) :
    Run.Keeps (SameFifos b) (translate c who va tv need) := by
  refine .get_bind fun m hm => ?_
  have hlook := (lookup_touches m c who va).sameFifos
  generalize m.lookup c who va = r at hlook
  obtain ⟨_ | p, k⟩ := r
  · exact .bind (.set (hm.trans hlook)) fun _ => .trap _ _
  · have hnoted : SameFifos b (k.modInst c fun i => i.notePage who p va) :=
      (hm.trans hlook).trans (sameFifos_modInst (fun _ => rfl) fun _ => rfl)
    have hend : ∀ old, Run.Keeps (SameFifos b) (do modify fun m => m.prefetchPage c who p va old; pure p) := fun old =>
      .bind (.modify fun m hm => hm.trans samePages_prefetch.sameFifos) fun _ => .pure p
    refine .bind (.set hnoted) fun _ => .ite (.bind (.require _ _ _) fun _ => .bind (keepsFifos_stallOn ..) fun _ => ?_) ?_
    · exact .when (.waitFor _) fun _ => .when (keepsFifos_countOne ..) fun _ => hend _
    · exact .when (.waitFor _) fun _ => .when (keepsFifos_countOne ..) fun _ => hend _

theorem keepsFifos_gReadSeg (c : CoreId) (who : PStream) (va n : Nat) (need : Right) :
    Run.Keeps (SameFifos b) (gReadSeg c who va n need) := by
  refine .bind ?_ fun r => ?_
  · refine .bind (.getInst c) fun i => .bind (keepsFifos_translate ..) fun p => .bind (.require _ _ _) fun _ => ?_
    split
    · exact .bind (.modify fun m hm => hm.trans (sameFifos_of_cores rfl rfl)) fun _ => .bind .get fun _ => .pure _
    · exact .pure _
  · split
    · exact .pure _
    · refine .bind .get fun m => ?_
      split
      · exact .bind (.throw _) fun _ => .bind .get fun _ => .pure _
      · exact .bind .get fun _ => .pure _

theorem keepsFifos_fillBlock (c : CoreId) (block : Nat) : Run.Keeps (SameFifos b) (fillBlock c block) := by
  refine .bind (.getInst c) fun i => ?_
  split
  · exact .pure _
  next r _ =>
    refine .bind (.forIn (fun e l => ?_) _) fun l => ?_
    · refine .bind (.tryCatch (.bind (keepsFifos_gReadSeg ..) fun _ => .pure _) fun st => ?_) fun res => ?_
      · split
        · exact .pure _
        · exact .throw _
      · split
        · exact .pure _
        · exact .pure _
        · exact .pure _
        · exact .pure _
    · dsimp only
      split
      · exact .pure _
      · exact .bind (keepsFifos_modInst (fun _ => rfl) fun _ => rfl) fun _ => .pure _

theorem keepsFifos_localReady (c : CoreId) (who : Option Eng) (a : Nat) : Run.Keeps (SameFifos b) (localReady c who a) := by
  have hend : ∀ (x : Option Nat) (o : Option FillOutcome), Run.Keeps (SameFifos b) (match o with
      | none => pure none | some (.nonresident _) => pure x | some (.denied g) => trap .protection g : Run (Option Nat)) := by
    rintro x (_ | _ | _)
    · exact .pure _
    · exact .pure _
    · exact .trap _ _
  refine .bind (.getInst c) fun i => ?_
  dsimp only
  split
  · exact .pure _
  refine .ite ?_ (.ite (.pure _) ?_)
  · split
    · exact .pure _
    · split
      · exact .waitFor _
      · exact .pure _
      · exact .pure _
  · cases who with
    | none => exact .bind (keepsFifos_fillBlock ..) fun o => hend _ o
    | some e =>
      dsimp only
      split
      · exact .bind (.pure _) fun o => hend _ o
      · exact .bind (.waitFor _) fun o => hend _ o

theorem sameFifos_sign (m : Mach) (va : Nat) (l : List Byte) : SameFifos m (m.sign c va l) := by
  unfold Mach.sign
  split
  · exact sameFifos_modInst (fun _ => rfl) fun _ => rfl
  · exact .refl m

theorem sameFifos_padStore {m : Mach} (a : Nat) (l : List Byte) : SameFifos m (m.padStore c a l) := by
  unfold Mach.padStore
  dsimp only
  split
  · exact sameFifos_modInst (fun _ => rfl) fun _ => rfl
  · split
    · refine .trans ?_ (sameFifos_sign _ _ _)
      exact sameFifos_modInst (fun _ => rfl) fun _ => rfl
    · exact sameFifos_modInst (fun _ => rfl) fun _ => rfl

theorem keepsFifos_lWrite (c : CoreId) (who : Option Eng) (a : Nat) (l : List Byte) :
    Run.Keeps (SameFifos b) (lWrite c who a l) := by
  refine .bind (.forIn (fun e r => ?_) _) fun r => ?_
  · refine .bind (keepsFifos_localReady ..) fun o => ?_
    split
    · exact .pure _
    · exact .bind (.modify fun m hm => hm.trans (sameFifos_padStore ..)) fun _ => .pure _
  · dsimp only
    split
    · exact .pure _
    · exact .pure _

theorem keepsFifos_putLocal (c : CoreId) (a : Nat) (l : List Byte) : Run.Keeps (SameFifos b) (putLocal c a l) := by
  refine .bind (keepsFifos_lWrite ..) fun o => ?_
  split
  · exact .trap _ _
  · exact .pure _

end

/-! ## Deliveries keep them (R309) -/

theorem sameFifos_keepMoves {m n : Mach} : SameFifos m (m.keepMoves n) := sameFifos_of_cores rfl rfl

theorem sameFifos_tryOn {f : Run Unit} (hf : Run.Keeps (SameFifos m) f) : SameFifos m (m.tryOn f).2 := by
  have h := hf.keeps m (.refl m)
  unfold Mach.tryOn
  split
  next hgo => rw [hgo] at h; exact h
  next => exact sameFifos_keepMoves
  next => exact sameFifos_keepMoves
  next => exact sameFifos_keepMoves
  next => exact sameFifos_keepMoves

theorem sameFifos_ringStore (x : Ctx) (off : Nat) (l : List Byte) : SameFifos m (m.ringStore x off l) := by
  unfold Mach.ringStore
  dsimp only
  split
  · exact sameFifos_of_cores (by simp) (by simp)
  · exact sameFifos_of_cores (by simp) (by simp)

theorem sameFifos_land (ctx : Nat) (r : Landing) : SameFifos m (m.land ctx r).2 := by
  unfold Mach.land
  dsimp only
  split
  · exact .refl m
  · exact (sameFifos_ringStore ..).trans (sameFifos_of_cores rfl rfl)

/-- A piece of payload for the scratchpad. -/
theorem sameFifos_offer (t : Target) (deliv tgt addr : Nat) (l : List Byte) (done total : Nat) :
    SameFifos m (m.offer t deliv tgt 1 addr l done total).2 := by
  simp only [Mach.offer, if_true]
  split
  · exact .refl m
  · split
    · exact sameFifos_tryOn (keepsFifos_putLocal ..)
    · generalize Landing.mk _ _ _ _ _ _ _ _ = r
      have hland := sameFifos_land (m := m) t.ctx.val r
      generalize m.land t.ctx.val r = o at hland
      obtain ⟨_ | _, k⟩ := o
      · exact hland
      · exact hland

theorem sameFifos_stall (p : Page) (w : Staller) : SameFifos m (m.stall p w).2 := sameFifos_of_cores rfl rfl

/-- The stall of a delivery, however it ends. -/
theorem sameFifos_ctxPage (ctx va : Nat) (need : Right) : SameFifos m (m.ctxPage ctx va need).2 := by
  have hstalls : ∀ (k : Mach) (p : Page) (w : Staller) (x y : Except Took (Page × Nat)), SameFifos m k →
      SameFifos m (match k.stall p w with | (true, n) => (x, n) | (false, n) => (y, n)).2 := fun k p w x y hk => by
    have hstall := hk.trans (sameFifos_stall (m := k) p w)
    generalize k.stall p w = o at hstall
    obtain ⟨_ | _, n⟩ := o
    · exact hstall
    · exact hstall
  unfold Mach.ctxPage
  dsimp only
  split
  · exact .refl m
  split
  · exact .refl m
  split
  · exact hstalls _ _ _ _ _ (sameFifos_startMove ..)
  split
  · exact hstalls _ _ _ _ _ (.refl m)
  split
  · exact .refl m
  split
  · exact .refl m
  split
  next p _ _ _ _ _ _ _ =>
    have hcount : SameFifos m (m.countRequest (ctxDie ctx) p).2 := sameFifos_of_cores rfl rfl
    generalize m.countRequest (ctxDie ctx) p = o at hcount
    obtain ⟨_ | _, n⟩ := o
    · exact hcount
    · exact hstalls _ _ _ _ _ (hcount.trans (sameFifos_startMove ..))
  next => exact .refl m

theorem sameFifos_foldl {α : Type} {f : Took × Mach → α → Took × Mach} (hf : ∀ acc x, SameFifos acc.2 (f acc x).2)
    (l : List α) (acc : Took × Mach) : SameFifos acc.2 (l.foldl f acc).2 := by
  induction l generalizing acc with
  | nil => exact .refl _
  | cons x t ih => exact (hf acc x).trans (ih _)

theorem sameFifos_ctxStore (ctx va : Nat) (l : List Byte) : SameFifos m (m.ctxStore ctx va l).2 := by
  refine sameFifos_foldl (fun acc e => ?_) _ (.ok, m)
  split
  next m =>
    have hpage := sameFifos_ctxPage (m := m) ctx e.1 .write
    generalize m.ctxPage ctx e.1 .write = o at hpage
    obtain ⟨_ | _, n⟩ := o
    · exact hpage
    · exact hpage.trans (sameFifos_of_cores (by simp) (by simp))
  next => exact .refl _

theorem sameFifos_localPut (uid addr : Nat) (l : List Byte) : SameFifos m (m.localPut uid addr l).2 := by
  unfold Mach.localPut
  dsimp only
  split
  · exact .refl m
  · split
    · exact .refl m
    · refine sameFifos_foldl (fun acc e => ?_) _ (.ok, m)
      split
      next n =>
        split
        · exact .refl n
        · exact sameFifos_offer ..
      next => exact .refl _
  · split
    · exact .refl m
    · exact sameFifos_ctxStore ..

end

end Sys2Proof.Machine
end

section
/-! The answers to a contribution in a switch reduction, and the reductions as a whole (R317, R357, R367–R369). -/

namespace Sys2Proof.Machine
open Sys2Proof Sys2Proof.Claims

/-! ## Commands in progress (R361, R362) -/

section
variable {i : Inst} {x : Cmd} {id : Nat} {f : Cmd → Cmd}

theorem Inst.cmd?_cmdChanged (hf : ∀ y, (f y).id = y.id) (h : i.cmd? id = some x) :
    (i.cmdChanged id f).cmd? id = some (f x) := by
  have hmap : (i.cmdChanged id f).fifo.cmds = i.fifo.cmds.map fun y => if y.id == id then f y else y := by
    simp [Inst.cmdChanged]
  rw [Inst.cmd?, hmap]
  exact find?_map_update (fun y hy => by simpa [hf] using hy) h

/-- A command that changes and ends leaves its result word. -/
theorem Inst.cmdChanged_cmdEnded_fifo (hf : ∀ y, (f y).id = y.id) (h : i.cmd? id = some x) :
    ((i.cmdChanged id f).cmdEnded id).fifo =
      { i.fifo with cmds := i.fifo.cmds.filter (·.id != id), res0 := i.fifo.res0 ++ [(f x).result] } := by
  have hfilter : (i.fifo.cmds.map fun y => if y.id = id then f y else y).filter (·.id != id)
      = i.fifo.cmds.filter (·.id != id) := by
    induction i.fifo.cmds with
    | nil => rfl
    | cons y t ih => by_cases hy : y.id = id <;> simp [hy, hf, ih]
  simp only [Inst.cmdEnded, Inst.cmd?_cmdChanged hf h]
  simp only [Inst.cmdChanged, hfilter]

end

section
variable {m n : Mach} {i j : Inst} {x : Cmd} {num uid : Nat} {f : Cmd → Cmd} {g : Inst → Inst}

theorem Mach.modUid_mem (m : Mach) (uid : Nat) (g : Inst → Inst) : (m.modUid uid g).mem = m.mem := by
  unfold Mach.modUid
  split <;> rfl

theorem cmd?_eq_some : m.cmd? num = some x ↔ ∃ i, m.instOf (num / 2 ^ 32) = some i ∧ i.cmd? (num % 2 ^ 32) = some x := by
  simp [Mach.cmd?, Option.bind_eq_some_iff]

theorem cmd?_modCmd (hf : ∀ y, (f y).id = y.id) (h : m.cmd? num = some x) : (m.modCmd num f).cmd? num = some (f x) := by
  obtain ⟨i, hi, hx⟩ := cmd?_eq_some.1 h
  exact cmd?_eq_some.2 ⟨_, instOf_modUid (f := fun i => i.cmdChanged (num % 2 ^ 32) f) (fun _ => rfl) hi,
    Inst.cmd?_cmdChanged hf hx⟩

theorem instOf_modCmd_endCmd (hi : m.instOf (num / 2 ^ 32) = some i) : ((m.modCmd num f).endCmd num).instOf (num / 2 ^ 32) =
    some ((i.cmdChanged (num % 2 ^ 32) f).cmdEnded (num % 2 ^ 32)) :=
  instOf_modUid (f := fun i => i.cmdEnded (num % 2 ^ 32)) (fun j => by rw [Inst.cmdEnded_id])
    (instOf_modUid (f := fun i => i.cmdChanged (num % 2 ^ 32) f) (fun _ => rfl) hi)

/-- A command that ends as another with the same result word ends so too. -/
theorem commandEnded_of_result {t : State} {y : Cmd} (hj : t.mach.instOf (num / 2 ^ 32) = some j)
    (hfifo : j.fifo = { i.fifo with
      cmds := i.fifo.cmds.filter (·.id != num % 2 ^ 32), res0 := i.fifo.res0 ++ [y.result] })
    (hresult : y.result = x.result) : CommandEnded t num i x := ⟨j, hj, by rw [hfifo, hresult]; rfl⟩

theorem Cmd.noteFail_fields (x : Cmd) (st off : Nat) : x.noteFail st off =
    { x with status := (x.noteFail st off).status, failAt := (x.noteFail st off).failAt } := by
  unfold Cmd.noteFail
  split <;> rfl

/-- The first failure of a command is kept. -/
theorem Cmd.noteFail_status {x : Cmd} (h : x.status = 0) (st off : Nat) : (x.noteFail st off).status = st := by
  unfold Cmd.noteFail
  split
  next hst => simp_all
  next => rfl

end

/-! ## SREDR (R369) -/

section
variable {s : State} {p : Packet} {m n : Mach} {i : Inst} {x : Cmd} {rank seq ctag k dt st flags contrib : Nat} {nan : Bool}
  {took : Took}

/-- A command that a part of its result has reached. -/
def Cmd.partCome (x : Cmd) (p : Packet) (took : Took) (st flags contrib : Nat) (nan : Bool) : Cmd :=
  { x.noteFail (if st = 0 then took.status else st) p.aux with
    outstanding := x.outstanding + p.data.length, flags := BitVec.ofNat 6 flags, contrib, nan }

theorem Cmd.partCome_id (x : Cmd) : (x.partCome p took st flags contrib nan).id = x.id := by
  rw [Cmd.partCome, Cmd.noteFail_fields]

theorem Cmd.partCome_result (h : x.status = 0) : (x.partCome p took st flags contrib nan).result =
    { x with status := if st = 0 then took.status else st, flags := BitVec.ofNat 6 flags, contrib, nan : Cmd }.result := by
  simp only [Cmd.partCome, Cmd.result, Cmd.noteFail_status h]
  rw [Cmd.noteFail_fields]

theorem Sends.sameFifos (h : Sends m n) : SameFifos m n := sameFifos_of_cores h.cores h.images

theorem TakenIn.sameFifos (h : TakenIn p m n) : SameFifos m n := by
  obtain ⟨held, taken, hsends, -⟩ := h
  exact .trans (sameFifos_of_cores rfl rfl) hsends.sameFifos

theorem TakenIn.mem (h : TakenIn p m n) : n.mem = m.mem := by
  obtain ⟨held, taken, hsends, -⟩ := h
  exact hsends.mem

theorem SameFifos.cmd? (h : SameFifos m n) {num : Nat} (hx : m.cmd? num = some x) : n.cmd? num = some x := by
  obtain ⟨i, hi, hc⟩ := cmd?_eq_some.1 hx
  obtain ⟨j, hj, hfifo⟩ := h.instOf hi
  exact cmd?_eq_some.2 ⟨j, hj, by rw [Inst.cmd?, hfifo]; exact hc⟩

/-- What a part of a result does once it is taken in. -/
def sredrDone (p : Packet) (took : Took) (m : Mach) : Mach :=
  match p.info with
  | .sred _ _ _ _ _ st flags contrib nan =>
    let m := (m.acked p).modCmd p.cmd fun x => x.partCome p took st flags contrib nan
    match m.cmd? p.cmd with
    | some x => if p.data.isEmpty || decide (contribLen p ≤ x.outstanding) then m.endCmd p.cmd else m
    | none => m
  | _ => m

theorem exec_sredr : exec (.sredr p) s = s.to (s.mach.receive p (fun _ m => m.takeResult p) (sredrDone p)) := rfl

section
variable (harr : Arrives s p) (hgo : s.mach.takeResult p = (took, m)) (htook : took ≠ .hold)
  (hinfo : p.info = .sred rank seq ctag k dt st flags contrib nan) (hcmd : m.cmd? p.cmd = some x)
include harr hgo htook hinfo hcmd

/-- What an answer to a contribution does with its command: with the last part of the result the command ends. -/
theorem sredr_taken : ∃ n t, TakenIn p m n ∧ (n.acked p).cmd? p.cmd = some x ∧ exec (.sredr p) s = .next t
    ∧ t.mach = (if p.data = [] ∨ contribLen p ≤ x.outstanding + p.data.length then
        ((n.acked p).modCmd p.cmd fun x => x.partCome p took st flags contrib nan).endCmd p.cmd
      else (n.acked p).modCmd p.cmd fun x => x.partCome p took st flags contrib nan) := by
  obtain ⟨n, hn, htaken⟩ := receive_taken (go := fun _ m => m.takeResult p) (done := sredrDone p) harr hgo htook
  have hx : (n.acked p).cmd? p.cmd = some x := htaken.sameFifos.cmd? hcmd
  have hy := cmd?_modCmd (f := fun x => x.partCome p took st flags contrib nan) (fun y => y.partCome_id) hx
  refine ⟨n, _, htaken, hx, exec_sredr, ?_⟩
  rw [hn]
  simp only [sredrDone, hinfo, hy, Bool.or_eq_true, decide_eq_true_eq, List.isEmpty_iff]
  rfl

/-- The command of a result that is all in ends with its status. -/
theorem sredr_ends (hi : s.mach.instOf (p.cmd / 2 ^ 32) = some i) (hsame : SameFifos s.mach m) (hstatus : x.status = 0)
    (hall : p.data = [] ∨ contribLen p ≤ x.outstanding + p.data.length) :
    ∃ t, exec (.sredr p) s = .next t ∧ t.mach.mem = m.mem ∧ CommandEnded t p.cmd i
      { x with status := if st = 0 then took.status else st, flags := BitVec.ofNat 6 flags, contrib, nan } := by
  obtain ⟨n, t, htaken, hx, hexec, hmach⟩ := sredr_taken harr hgo htook hinfo hcmd
  rw [if_pos hall] at hmach
  obtain ⟨j, hj, hfifo⟩ := (hsame.trans htaken.sameFifos).instOf hi
  obtain ⟨j', hj', hx'⟩ := cmd?_eq_some.1 hx
  obtain rfl : j' = j := Option.some.inj (hj'.symm.trans hj)
  refine ⟨t, hexec, ?_, commandEnded_of_result (by rw [hmach]; exact instOf_modCmd_endCmd hj')
    (by rw [Inst.cmdChanged_cmdEnded_fifo (fun y => y.partCome_id) hx', hfifo]) (Cmd.partCome_result hstatus)⟩
  rw [hmach, Mach.endCmd, Mach.modUid_mem, Mach.modCmd, Mach.modUid_mem]
  exact htaken.mem

/-- The command of a result that is not all in goes on. -/
theorem sredr_goesOn (hstatus : x.status = 0) (hdata : p.data ≠ []) (hmore : x.outstanding + p.data.length < contribLen p) :
    ∃ t y, exec (.sredr p) s = .next t ∧ t.mach.mem = m.mem ∧ t.mach.cmd? p.cmd = some y
      ∧ y.outstanding = x.outstanding + p.data.length ∧ y.status = if st = 0 then took.status else st := by
  obtain ⟨n, t, htaken, hx, hexec, hmach⟩ := sredr_taken harr hgo htook hinfo hcmd
  rw [if_neg (not_or.2 ⟨hdata, not_le.2 hmore⟩)] at hmach
  refine ⟨t, x.partCome p took st flags contrib nan, hexec, ?_, ?_, rfl, Cmd.noteFail_status hstatus ..⟩
  swap
  · rw [hmach]
    exact cmd?_modCmd (f := fun y => y.partCome p took st flags contrib nan) (fun y => y.partCome_id) hx
  rw [hmach, Mach.modCmd, Mach.modUid_mem]
  exact htaken.mem

end
end

section
variable {s : State} {p : Packet} {m : Mach} {x : Cmd} {took : Took}

theorem takeResult_empty (hx : s.mach.cmd? p.cmd = some x) (h : p.data = []) : s.mach.takeResult p = (.ok, s.mach) := by
  simp [Mach.takeResult, hx, h]

theorem takeResult_put (hx : s.mach.cmd? p.cmd = some x) (h : p.data ≠ []) :
    s.mach.takeResult p = s.mach.localPut (p.cmd / 2 ^ 32) (x.word 2 + p.aux) p.data := by
  simp [Mach.takeResult, hx, h]

end

/-! ## The timeout of a slot (R368) -/

section
variable {s : State} {sw : Byte} {slot : BitVec 12} {r : RedSlot}

theorem sredSlotTimeout_none (h : s.mach.slot? sw.toNat slot.toNat = none) : exec (.sredSlotTimeout sw slot) s = .next s := by
  show execSredSlotTimeout sw slot s = _
  simp [execSredSlotTimeout, h, State.to]

section
variable (h : s.mach.slot? sw.toNat slot.toNat = some r)
include h

theorem sredSlotTimeout_found : exec (.sredSlotTimeout sw slot) s =
    if r.held ≠ [] && decide (r.since + 1500 * r.patience ≤ s.mach.cycle) then s.to (s.mach.reduceSlot r fabTimeout)
    else s.to s.mach := by
  show execSredSlotTimeout sw slot s = _
  simp only [execSredSlotTimeout, h]
  rfl

theorem sredSlotTimeout_early (hearly : r.held = [] ∨ s.mach.cycle < r.since + 1500 * r.patience) :
    exec (.sredSlotTimeout sw slot) s = .next s := by
  have hcond : ¬(r.held ≠ [] ∧ r.since + 1500 * r.patience ≤ s.mach.cycle) := fun hdue =>
    hearly.elim hdue.1 (not_lt.2 hdue.2)
  exact (sredSlotTimeout_found h).trans (if_neg (by simpa using hcond))

theorem sredSlotTimeout_due (hheld : r.held ≠ []) (hdue : r.since + 1500 * r.patience ≤ s.mach.cycle) :
    exec (.sredSlotTimeout sw slot) s = s.to (s.mach.reduceSlot r fabTimeout) :=
  (sredSlotTimeout_found h).trans (if_pos (by simpa using ⟨hheld, hdue⟩))

end
end

end Sys2Proof.Machine

namespace Sys2Proof
open Sys2Proof.Machine Sys2Proof.Claims

/-- Settles O56, command by command and packet by packet: RESERVE and FREE, SRED as it starts, a contribution at its slot,
the slot's timeout, the answer at the contributor and the management packet. -/
theorem switchReductions : Obligations.SwitchReductions := by
  unfold Obligations.SwitchReductions
  intro s c x i p d lk r data nr m' rd rank seq ctag flags contrib st n dt' code nan sw slot took m w ctl g w1 w2 nc op dt fits
    there way answers later reserved held emptied of parts us done come whole p' new there' contributions sent refuses mine late
    fitsNow written result takes
  refine ⟨fun hfits hthere hway hfree => ?_, fun hfits hthere hway hheld => ?_, fun hfits hthere hway => ?_,
    fun hfits hthere => ?_, fun hfits => ?_, fun hthere hway => ?_, fun hthere hway => ?_, fun hthere => ?_, fun hnext => ?_,
    fun hwhole => ?_, fun hwhole hinfo => ?_, fun hsw hslot hr hcontr hheld hdue => ?_, fun hidle => ?_,
    fun harr hprog hstatus hinfo => ?_, fun harr => ?_⟩
  · have hreserved : g.reserved = reserved := reserved_of_fits hfits
    have hadd : m.addSlot g.reserved = { m with redSlots := m.redSlots ++ [g.reserved] } := addSlot_free hfree
    refine (reserve_found rfl hfits hthere hway).trans ((if_neg (by rw [show m.slot? _ _ = none from hfree]; simp)).trans ?_)
    rw [hadd, hreserved]
    rfl
  · exact ((reserve_found rfl hfits hthere hway).trans (if_pos (Option.isSome_iff_ne_none.2 hheld))).trans
      (congrArg _ (Mach.swEnd_eq ..))
  · exact reserve_waits rfl hfits hthere hway
  · exact (reserve_nowhere rfl hfits hthere).trans (congrArg _ (Mach.swEnd_eq ..))
  · exact (reserve_misfit rfl hfits).trans (congrArg _ (Mach.swEnd_eq ..))
  · exact free_leaves rfl hthere hway
  · exact free_waits rfl hthere hway
  · exact (free_nowhere rfl hthere).trans (congrArg _ (Mach.swEnd_eq ..))
  · refine ⟨fun hctl hctag htag hlink hread => ?_, fun hbad => ?_, fun hctl hctag htag => ?_, fun hctl hctag htag hlink => ?_⟩
    · exact hasStarted_of_go hnext rfl (sredGo_sends hctl hctag htag hlink (n := of.1) (dt := of.2) rfl hread.1)
    · exact startCmd_rejected hnext rfl (sredGo_rejects hbad)
    · exact startCmd_rejected hnext rfl (sredGo_denied hctl hctag htag)
    · exact startCmd_rejected hnext rfl (sredGo_unlinked hctl hctag htag hlink)
  · exact congrArg s.to (takeSredc_waits hwhole)
  · have hexec : exec (.sredc p) s = .next { s with mach := (m.withoutParts p).contribute (m.wholeWith p) } :=
      congrArg s.to (takeSredc_whole hwhole)
    have hinfo' : (m.wholeWith p).info = .sred rank seq ctag n dt' st flags contrib nan := hinfo
    have hrefuses : ∀ st', (m.withoutParts p).contribute (m.wholeWith p) =
        (m.withoutParts p).sredAnswer (m.wholeWith p) st' 0 0 false [] → refuses st' := fun st' h => by
      obtain ⟨hsends, q, hq, htyp, htgt, hcmd, hq'⟩ :=
        sredAnswer_sends (m := m.withoutParts p) (data := []) hinfo' st' 0 0 false
      rw [h] at hexec
      exact ⟨_, q, hexec, hq, htyp, htgt, hcmd, hq', hsends.redSlots⟩
    refine ⟨fun hr hmine hlate hfits hcontr => ?_, fun hdenied => ?_, fun hr hmine hlate => ?_, fun hr hmine hlate hmis => ?_⟩
    · refine ⟨fun hmore => ?_, fun hlast => ?_⟩
      · obtain ⟨hslot, htimer⟩ := contribute_more (m := m.withoutParts p) hinfo' hr hmine hlate hfits hmore
        exact ⟨_, hexec, hslot, htimer⟩
      · obtain ⟨hslot, hall⟩ := contribute_last (m := m.withoutParts p) hinfo' hr hmine hlate hfits hlast hcontr
        exact ⟨_, _, hexec, hslot, hall⟩
    · rcases hdenied with hnone | ⟨hr, hmine⟩
      · exact hrefuses 3 (contribute_absent hinfo' hnone)
      · exact hrefuses 3 (contribute_foreign hinfo' hr hmine)
    · exact hrefuses 8 (contribute_late hinfo' hr hmine hlate)
    · exact hrefuses 9 (contribute_unawaited hinfo' hr hmine hlate hmis)
  · have hkeys : (BitVec.ofNat 8 r.sw).toNat = r.sw ∧ (BitVec.ofNat 12 r.slot).toNat = r.slot :=
      ⟨by simpa using Nat.mod_eq_of_lt hsw, by simpa using Nat.mod_eq_of_lt hslot⟩
    obtain ⟨hover, hall⟩ := reduceSlot_answers hr hcontr 7
    exact ⟨_, sredSlotTimeout_due (by rw [hkeys.1, hkeys.2]; exact hr) hheld hdue, hover, hall⟩
  · rcases hidle with hnone | ⟨hr, hidle⟩
    · exact sredSlotTimeout_none hnone
    · exact sredSlotTimeout_early hr hidle
  · obtain ⟨hi, huid, hx⟩ := hprog
    have hcmd : m.cmd? p.cmd = some x := cmd?_eq_some.2 ⟨i, hi, hx⟩
    refine ⟨fun hdata => ?_, fun hdata hput hwritten hcmd' => ?_⟩
    · have hresult : (if st = 0 then Took.ok.status else st) = st := by
        split
        next h => exact h.symm
        next => rfl
      have h := sredr_ends harr (takeResult_empty hcmd hdata) nofun hinfo hcmd hi (.refl _) hstatus (.inl hdata)
      rwa [hresult] at h
    · have hgo : m.takeResult p = (took, m') := (takeResult_put hcmd hdata).trans hput
      have hsame : SameFifos m m' := by
        have h := sameFifos_localPut (m := m) (p.cmd / 2 ^ 32) (x.word 2 + p.aux) p.data
        rw [hput] at h
        exact h
      have htook : took ≠ .hold ∧ took.status = code := by
        rcases hwritten with ⟨rfl, rfl⟩ | rfl
        · exact ⟨nofun, rfl⟩
        · exact ⟨nofun, rfl⟩
      obtain ⟨hhold, rfl⟩ := htook
      exact ⟨fun hall => sredr_ends harr hgo hhold hinfo hcmd' hi hsame hstatus (.inr hall),
        fun hmore => sredr_goesOn harr hgo hhold hinfo hcmd' hstatus hdata hmore⟩
  · refine ⟨fun hinfo hrd => ?_, fun hinfo hheld => ?_, fun hinfo => ?_, fun ht => ?_⟩
    · have ht : m.takeMgmt p = (fabOk, m.endRound rd (p.aux % 4, p.aux / 4)) := by
        rw [Mach.takeMgmt, hinfo]
        simp only [hrd]
      obtain ⟨n, hexec, hans, held, taken, hsends⟩ := mgmt_answered harr ht
      exact ⟨_, hexec, hans, fun c hres ha => hsends.agenda.mem (endRound_releases hres ha)⟩
    · have ht : m.takeMgmt p = (fabOk, { m with redSlots := m.redSlots ++ [reserved] }) := by
        have hadd : m.addSlot reserved = { m with redSlots := m.redSlots ++ [reserved] } := addSlot_free hheld
        rw [Mach.takeMgmt, hinfo, ← hadd]
        rfl
      obtain ⟨n, hexec, hans, held, taken, hsends⟩ := mgmt_answered harr ht
      exact ⟨_, hexec, hans, hsends.redSlots⟩
    · have ht : m.takeMgmt p = (fabOk, m.dropSlot sw.toNat slot.toNat) := by
        rw [Mach.takeMgmt, hinfo]
      obtain ⟨n, hexec, hans, held, taken, hsends⟩ := mgmt_answered harr ht
      exact ⟨_, hexec, hans, hsends.redSlots⟩
    · obtain ⟨n, hexec, hans, held, taken, hsends⟩ := mgmt_answered harr ht
      exact ⟨_, hexec, hans, hsends.mem, hsends.rounds, hsends.redSlots⟩

end Sys2Proof
end

section
/-! Rounding a value of a format into that format (R74): what a code decodes to stands on the format's own step, so
nothing is rounded away, and encoding it gives the code back. -/

namespace Sys2Proof.Machine
open Sys2Proof

/-! ## The step of a format -/

/-- The exponent of the step between subnormal values. -/
def Fmt.step (f : Fmt) : Int := f.emin - (f.p - 1 : Nat)

/-- m × 2^e stands on the step of its format: e is the least exponent, or m has the format's full precision. -/
def Fmt.OnStep (f : Fmt) (m : Nat) (e : Int) : Prop :=
  m < 2 ^ f.p ∧ (e = f.step ∨ f.step ≤ e ∧ 2 ^ (f.p - 1) ≤ m)

theorem Fmt.p_pos (f : Fmt) : 0 < f.p := by cases f <;> decide

/-- The exponent at which rounding cuts a value on its step is the value's own (R74). -/
theorem Fmt.OnStep.quantum {f : Fmt} {m : Nat} {e : Int} (h : f.OnStep m e) (hm : m ≠ 0) :
    max ((ilog2 m : Int) + e) f.emin - (f.p - 1 : Nat) = e := by
  obtain ⟨hlt, hstep⟩ := h
  have hp := f.p_pos
  have hlog : ilog2 m < f.p := (Nat.log2_lt hm).2 hlt
  rcases hstep with rfl | ⟨hle, hfull⟩
  · simp only [Fmt.step]; omega
  · have : f.p - 1 ≤ ilog2 m := (Nat.le_log2 hm).2 hfull
    simp only [Fmt.step] at hle
    omega

theorem shiftNat_zero (x : Nat) : shiftNat x 0 = x := by simp [shiftNat]

/-- A value on its step within the format's range is not rounded, in any mode (R74). -/
theorem roundCore_onStep {f : Fmt} {m : Nat} {e : Int} (h : f.OnStep m e) (hm : m ≠ 0) (hmax : exceedsMax f m e = false)
    (neg : Bool) (mode : RMode) (sat : Bool) (rnd : Nat) :
    roundCore (.exact neg m e) f mode sat rnd none = ⟨encodeMag f m e + f.signBit neg, 0⟩ := by
  cases mode <;> simp [roundCore, XNum.exact, hm, h.quantum hm, shiftNat_zero, hmax, Nat.mod_one]

/-! ## Encoding a value on its step -/

/-- A value of full precision is encoded by its exponent and its fraction (R62). -/
theorem encodeMag_normal {f : Fmt} {frac ex : Nat} (hfrac : frac < 2 ^ (f.p - 1)) (hex : ex ≠ 0) :
    encodeMag f (frac + 2 ^ (f.p - 1)) ((ex : Int) - f.bias - (f.p - 1 : Nat)) = ex * 2 ^ (f.p - 1) + frac := by
  have hpos : frac + 2 ^ (f.p - 1) ≠ 0 := by have := Nat.two_pow_pos (f.p - 1); omega
  have hlog : ilog2 (frac + 2 ^ (f.p - 1)) = f.p - 1 :=
    (Nat.log2_eq_iff hpos).2 ⟨Nat.le_add_left .., by rw [Nat.pow_succ]; omega⟩
  have hexp : ((f.p - 1 : Nat) : Int) + (ex - f.bias - (f.p - 1 : Nat)) = ex - f.bias := by omega
  have hnormal : ¬((ex : Int) - f.bias < f.emin) := by simp only [Fmt.emin]; omega
  simp only [encodeMag, if_neg hpos, hlog, hexp, if_neg hnormal, sub_self, shiftNat_zero, sub_add_cancel,
    Int.toNat_natCast, Nat.add_sub_cancel]

/-- A value below the normal ones is encoded by its fraction (R62). -/
theorem encodeMag_subnormal {f : Fmt} {frac : Nat} (hfrac : frac < 2 ^ (f.p - 1)) : encodeMag f frac f.step = frac := by
  by_cases h0 : frac = 0
  · simp [encodeMag, h0]
  have hlog : ilog2 frac < f.p - 1 := (Nat.log2_lt h0).2 hfrac
  have hsub : (ilog2 frac : Int) + f.step < f.emin := by simp only [Fmt.step]; omega
  rw [encodeMag, if_neg h0, if_pos hsub, Fmt.step, sub_self, shiftNat_zero]

/-! ## What a code decodes to -/

/-- The exponent field of a code. -/
def Fmt.expField (f : Fmt) (c : Nat) : Nat := c / 2 ^ (f.p - 1) % 2 ^ f.ebits
/-- The fraction field of a code. -/
def Fmt.fracField (f : Fmt) (c : Nat) : Nat := c % 2 ^ (f.p - 1)

theorem Fmt.fracField_lt (f : Fmt) (c : Nat) : f.fracField c < 2 ^ (f.p - 1) := Nat.mod_lt _ (Nat.two_pow_pos _)

/-- The two fields are the code without its sign bit (R62). -/
theorem Fmt.mag_eq (f : Fmt) (c : Nat) : f.expField c * 2 ^ (f.p - 1) + f.fracField c = c % 2 ^ (f.width - 1) := by
  have hw : f.width - 1 = (f.p - 1) + f.ebits := by cases f <;> rfl
  rw [hw, Nat.pow_add, Nat.mod_mul, Fmt.expField, Fmt.fracField, Nat.mul_comm, Nat.add_comm]

/-- A code is its fields and its sign (R62). -/
theorem Fmt.code_eq {f : Fmt} {c : Nat} (hc : c < 2 ^ f.width) :
    f.expField c * 2 ^ (f.p - 1) + f.fracField c + f.signBit (decide (2 ^ (f.width - 1) ≤ c)) = c := by
  have hw : 2 ^ f.width = 2 ^ (f.width - 1) * 2 := by rw [← Nat.pow_succ]; cases f <;> rfl
  rw [Fmt.mag_eq, Fmt.signBit]
  by_cases hneg : 2 ^ (f.width - 1) ≤ c
  · rw [decide_eq_true hneg, if_pos rfl, Nat.mod_eq_sub_mod hneg, Nat.mod_eq_of_lt (by omega), Nat.sub_add_cancel hneg]
  · rw [decide_eq_false hneg, if_neg nofun, Nat.mod_eq_of_lt (by omega), Nat.add_zero]

/-- How the fields of a code decode (R62, R70). -/
theorem decodeFloat_eq {f : Fmt} {c : Nat} (hc : c < 2 ^ f.width) :
    decodeFloat f c =
      (let neg := decide (2 ^ (f.width - 1) ≤ c)
       if f.expField c = 2 ^ f.ebits - 1 && f.hasInf then if f.fracField c = 0 then (.inf neg, 0) else (.nan, 0)
       else if f = .e4m3 && c % 128 = 127 then (.nan, flagInvalid ||| flagFormatCode)
       else if f.expField c = 0 then (.exact neg (f.fracField c) f.step, 0)
       else (.exact neg (f.fracField c + 2 ^ (f.p - 1)) ((f.expField c : Int) - f.bias - (f.p - 1 : Nat)), 0)) := by
  simp only [decodeFloat, Nat.mod_eq_of_lt hc]
  rfl

/-- The largest finite value of a format (Table 3.2). -/
theorem decodeFloat_maxCode (f : Fmt) : (decodeFloat f f.maxCode).1 =
    .exact false (f.fracField f.maxCode + 2 ^ (f.p - 1)) ((f.expField f.maxCode : Int) - f.bias - (f.p - 1 : Nat)) := by
  cases f <;> rfl

/-- A magnitude exceeds no format's largest value where its exponent is at most that value's, and so is its integer on
the step of that exponent. -/
theorem exceedsMax_eq_false {f : Fmt} {y : Nat} {q : Int}
    (hq : q ≤ (f.expField f.maxCode : Int) - f.bias - (f.p - 1 : Nat))
    (hy : y ≤ (f.fracField f.maxCode + 2 ^ (f.p - 1)) * 2 ^ ((f.expField f.maxCode : Int) - f.bias - (f.p - 1 : Nat) - q).toNat) :
    exceedsMax f y q = false := by
  simp only [exceedsMax, decodeFloat_maxCode, XNum.exact, if_pos hq, decide_eq_false_iff_not]
  exact not_lt.2 hy

/-! ## Codes of finite values -/

section
variable {f : Fmt} {c m : Nat} {neg : Bool} {e : Int} (hc : c < 2 ^ f.width) (h : (decodeFloat f c).1 = .exact neg m e)
include hc h

/-- What a code that decodes to a finite value decodes to: a subnormal or a normal value, of the code's sign (R62). -/
theorem decodeFloat_finite :
    neg = decide (2 ^ (f.width - 1) ≤ c) ∧ (f.expField c = 0 ∧ m = f.fracField c ∧ e = f.step
      ∨ f.expField c ≠ 0 ∧ m = f.fracField c + 2 ^ (f.p - 1) ∧ e = (f.expField c : Int) - f.bias - (f.p - 1 : Nat)) := by
  rw [decodeFloat_eq hc] at h
  split at h
  · split at h <;> exact XNum.noConfusion h
  split at h
  · exact XNum.noConfusion h
  split at h
  next h0 => cases h; exact ⟨rfl, .inl ⟨h0, rfl, rfl⟩⟩
  next h0 => cases h; exact ⟨rfl, .inr ⟨h0, rfl, rfl⟩⟩

/-- The magnitude of a finite code is at most the largest (Table 3.2). -/
theorem decodeFloat_finite_le : f.expField c * 2 ^ (f.p - 1) + f.fracField c ≤ f.maxCode := by
  rw [decodeFloat_eq hc] at h
  split at h
  · split at h <;> exact XNum.noConfusion h
  next hinf =>
  split at h
  · exact XNum.noConfusion h
  next hnan =>
  have hexp : f.expField c < 2 ^ f.ebits := Nat.mod_lt _ (Nat.two_pow_pos _)
  have hfrac := f.fracField_lt c
  have hmag := f.mag_eq c
  simp only [Bool.and_eq_true, decide_eq_true_eq, not_and] at hinf hnan
  have hfinite : f.hasInf = true → f.expField c ≠ 2 ^ f.ebits - 1 := fun hhas hexp => hinf hexp hhas
  cases f
  case e4m3 =>
    have hcode := hnan rfl
    simp only [Fmt.p, Fmt.ebits, Fmt.maxCode, Fmt.width] at *
    omega
  all_goals
    replace hfinite := hfinite rfl
    simp only [Fmt.p, Fmt.ebits, Fmt.maxCode, Fmt.width] at *
    omega

/-- The exponent field of a finite code is at most that of the largest value, and where they are the same the fractions
tell (Table 3.2). -/
theorem fields_le_of_finite :
    f.expField c < f.expField f.maxCode ∨ f.expField c = f.expField f.maxCode ∧ f.fracField c ≤ f.fracField f.maxCode := by
  have hle := decodeFloat_finite_le hc h
  have hmax : f.maxCode = f.expField f.maxCode * 2 ^ (f.p - 1) + f.fracField f.maxCode := by cases f <;> rfl
  have hlast := f.fracField_lt f.maxCode
  rcases lt_trichotomy (f.expField c) (f.expField f.maxCode) with hlt | heq | hgt
  · exact .inl hlt
  · rw [heq] at hle; exact .inr ⟨heq, by omega⟩
  · have := Nat.mul_le_mul_right (2 ^ (f.p - 1)) (Nat.succ_le_of_lt hgt)
    rw [Nat.succ_mul] at this
    omega

/-- No finite value of a format exceeds its largest. -/
theorem exceedsMax_finite : exceedsMax f m e = false := by
  have hfrac := f.fracField_lt c
  have hfirst : 0 < f.expField f.maxCode := by cases f <;> decide
  have hfields := fields_le_of_finite hc h
  rcases (decodeFloat_finite hc h).2 with ⟨-, rfl, rfl⟩ | ⟨-, rfl, rfl⟩
  · refine exceedsMax_eq_false (by simp only [Fmt.step, Fmt.emin]; omega)
      (le_trans ?_ (Nat.le_mul_of_pos_right _ (Nat.two_pow_pos _)))
    omega
  · refine exceedsMax_eq_false (by omega) ?_
    rcases hfields with hlt | ⟨heq, hle⟩
    · calc f.fracField c + 2 ^ (f.p - 1) ≤ (f.fracField f.maxCode + 2 ^ (f.p - 1)) * 2 := by omega
        _ ≤ _ := Nat.mul_le_mul_left _ (Nat.le_self_pow (by omega) 2)
    · rw [heq, sub_self]
      simpa using hle

/-- A finite value of a format stands on the format's step. -/
theorem onStep_finite : f.OnStep m e := by
  have hfrac := f.fracField_lt c
  have hp : 2 ^ f.p = 2 ^ (f.p - 1) * 2 := by rw [← Nat.pow_succ, Nat.succ_eq_add_one, Nat.sub_add_cancel f.p_pos]
  rcases (decodeFloat_finite hc h).2 with ⟨-, rfl, rfl⟩ | ⟨hexp, rfl, rfl⟩
  · exact ⟨by omega, .inl rfl⟩
  · refine ⟨by omega, .inr ⟨?_, Nat.le_add_left ..⟩⟩
    simp only [Fmt.step, Fmt.emin]
    omega

/-- Encoding a finite value with its sign gives the code back. -/
theorem encodeMag_finite : encodeMag f m e + f.signBit neg = c := by
  obtain ⟨rfl, hval⟩ := decodeFloat_finite hc h
  have hmag : encodeMag f m e = f.expField c * 2 ^ (f.p - 1) + f.fracField c := by
    rcases hval with ⟨hexp, rfl, rfl⟩ | ⟨hexp, rfl, rfl⟩
    · rw [encodeMag_subnormal (f.fracField_lt c), hexp, Nat.zero_mul, Nat.zero_add]
    · exact encodeMag_normal (f.fracField_lt c) hexp
  rw [hmag, Fmt.code_eq hc]

end

end Sys2Proof.Machine

namespace Sys2Proof
open Sys2Proof.Machine

/-- Settles O4: a finite value stands on its format's step, so it is not cut, and encoding it gives its code. -/
theorem roundingKeepsValues : Obligations.RoundingKeepsValues := by
  intro f c mode sat rnd hc _ ⟨neg, m, e, h⟩
  rw [h]
  by_cases hm : m = 0
  · have hcode := encodeMag_finite hc h
    simp only [encodeMag, hm, if_pos, Nat.zero_add] at hcode
    simp [roundCore, XNum.exact, hm, hcode]
  · rw [roundCore_onStep (onStep_finite hc h) hm (exceedsMax_finite hc h), encodeMag_finite hc h]

end Sys2Proof
end

section
/-! The words on FLAGS and the words of the trap group, as the statements have them (R82, R142, R143, R146, R147, R413). -/

namespace Sys2Proof.Machine
open Sys2Proof Sys2Proof.Claims

/-! ## FLAGS through the CSR words (R82) -/

/-- The four copies of FLAGS after a CSR word that names the bits lo. -/
def CsrOp.flags (op : CsrOp) (lo : BitVec 6) (old : Vector (BitVec 6) 4) (k : Fin 4) : BitVec 6 :=
  match op with
  | .write => if k = 0 then lo else 0
  | .set => if k = 0 then old.get 0 ||| lo else old.get k
  | .clear => old.get k &&& ~~~lo

/-- The program after a CSR word that names the low bits of src wrote new to FLAGS. -/
def Inst.flagsWritten (i : Inst) (op : CsrOp) (src new : W64) : Inst :=
  { i with s := { i.s with trapen := new.extractLsb' 8 6 }, flags := Vector.ofFn (op.flags (src.extractLsb' 0 6) i.flags) }

theorem ofNat_toNat_div_eq_extractLsb' (v : W64) (lo n : Nat) : BitVec.ofNat n (v.toNat / 2 ^ lo) = v.extractLsb' lo n := by
  apply BitVec.eq_of_toNat_eq
  simp [Nat.shiftRight_eq_div_pow]

theorem Inst.flagsPut_flags_get (i : Inst) (op : CsrOp) {src new : W64} (hw : op = .write → new = src) (k : Fin 4) :
    (i.flagsPut op src.toNat new.toNat).flags.get k = op.flags (src.extractLsb' 0 6) i.flags k := by
  have hlow : ∀ v : W64, BitVec.ofNat 6 v.toNat = v.extractLsb' 0 6 := fun v => by
    rw [← ofNat_toNat_div_eq_extractLsb' v 0 6, Nat.pow_zero, Nat.div_one]
  cases op with
  | write =>
    rw [hw rfl]
    simp only [Inst.flagsPut, hlow, CsrOp.flags]
    fin_cases k <;> rfl
  | set =>
    simp only [Inst.flagsPut, hlow, CsrOp.flags]
    split
    next h => rw [h, vset_get_self]
    next h => rw [vset_get_of_ne _ _ h]
  | clear => simp [Inst.flagsPut, hlow, CsrOp.flags, Vector.get_eq_getElem]

/-- What a write of FLAGS leaves; CSRW writes the bits that it names. -/
theorem Inst.flagsPut_eq (i : Inst) (op : CsrOp) {src new : W64} (hw : op = .write → new = src) :
    i.flagsPut op src.toNat new.toNat = i.flagsWritten op src new := by
  have hflags : (i.flagsPut op src.toNat new.toNat).flags = Vector.ofFn (op.flags (src.extractLsb' 0 6) i.flags) := by
    ext1 k hk
    rw [Vector.getElem_ofFn, ← i.flagsPut_flags_get op hw]
    rfl
  rw [Inst.flagsWritten, ← hflags, ← ofNat_toNat_div_eq_extractLsb' new 8 6]
  rfl

/-- The register that takes the old value is not touched by the write. -/
theorem Inst.keepOld_flagsWritten (i : Inst) (op : CsrOp) (d : Reg) (old src new : W64) :
    (op.keepOld d old i).flagsWritten op src new = op.keepOld d old (i.flagsWritten op src new) := by
  have hput : { i.s with trapen := new.extractLsb' 8 6 }.put d old = { i.s.put d old with trapen := new.extractLsb' 8 6 } := by
    unfold Seq.put; split <;> rfl
  unfold CsrOp.keepOld
  split
  · rfl
  · simp only [Inst.flagsWritten, hput]

/-- A CSR word whose new value FLAGS takes writes it, and the old value to s[d] (R142). -/
theorem csrChange_flags {m : Mach} {c : CoreId} {word : Instr} {d a : Reg} {old : W64} (op : CsrOp)
    (hread : m.csrRead c (0x001 : BitVec 12).toNat = some old) (ht : csrTakes 0x001 (op.newValue old ((m.inst c).s.get a))) :
    (csrChange c word op d a 0x001).go m = (.ok .fall, m.modInst c fun i => op.keepOld d old
      (i.flagsWritten op ((m.inst c).s.get a) (op.newValue old ((m.inst c).s.get a)))) := by
  have ha : csrAccepts 1 (op.newValue old ((m.inst c).s.get a)).toNat = true := ((csrTakes_iff _ _).1 ht).2
  have hw : csrWritable 1 = true := rfl
  have hwrite : op = .write → op.newValue old ((m.inst c).s.get a) = (m.inst c).s.get a := by rintro rfl; rfl
  have hput := fun i : Inst => (op.keepOld d old i).flagsPut_eq op hwrite
  simp only [← Inst.keepOld_flagsWritten, ← hput]
  rw [csrChange, Run.go_bind_ok (csrNumber_listed hread)]
  cases op <;> simp only [CsrOp.newValue] at ha ⊢ <;>
    simp [Run.go_bind, hw, ha, CsrOp.keepOld, -BitVec.toNat_or, -BitVec.toNat_and]

theorem flagsWords : FlagsWords := by
  intro s d a hfresh i x seen old put lo
  have hread : s.mach.csrRead s.mach.cur (0x001 : BitVec 12).toNat = some old := rfl
  have hwait : ∀ op new, ((s.mach.modInst s.mach.cur fun i => i.flagsWritten op x new).inst s.mach.cur).s.st.wait = none :=
    fun op new => by rw [Mach.modInst_inst]; exact hfresh
  refine ⟨csrr_gives hfresh (by rw [csrOf_self, hread]), fun ht => ?_, fun ht => ?_, fun ht => ?_⟩
  · exact passes_of_go exec_csrw (csrChange_flags .write hread ht) rfl (hwait .write x)
  · refine givesOn_of_go exec_csrset ((csrChange_flags .set hread ht).trans ?_) rfl (hwait .set (old ||| x))
    rw [← Mach.modInst_modInst]
    rfl
  · refine givesOn_of_go exec_csrclr ((csrChange_flags .clear hread ht).trans ?_) rfl (hwait .clear (old &&& ~~~x))
    rw [← Mach.modInst_modInst]
    rfl

/-! ## SVC, BRK and TRET -/

section
variable {s : State}

theorem inst_withInst (s : State) (j : Inst) : inst { s with mach := withInst s j } = j := withInst_inst s j

theorem atBodyEnd_eq_false {q : Seq} (h : ¬AtBodyEnd q) : q.atBodyEnd = false := by
  simpa [AtBodyEnd, Seq.atBodyEnd] using h

/-- SVC that ends no body completes, and then traps with TPC at the next word (R147). -/
theorem exec_svc (code : BitVec 20) (hend : s.seq.atBodyEnd = false) : exec (.svc code) s =
    s.to ((s.mach.sFlow s.mach.cur .fall).takeTrap s.mach.cur .S .svc (s.seq.st.pc + 4) (code.setWidth 64)) :=
  congrArg s.to (if_neg (ne_true_of_eq_false hend))

/-- A word of S that has not waited goes on with no effect of its own. -/
theorem passed_fall (hfresh : Fresh s) : Passed s { s with mach := s.mach.sFlow s.mach.cur .fall } := by
  have hnext : s.mach.sFlow s.mach.cur .fall = withInst s (inst s).sNext := s.mach.sFlow_of_none s.mach.cur .fall hfresh
  rw [hnext, Passed, inst_withInst]
  exact ⟨rfl, (inst s).sNext_worked⟩

/-- BRK that ends no body traps with its code (R413). -/
theorem brk_traps (code : BitVec 20) (hend : s.seq.atBodyEnd = false) : Traps s (.brk code) .breakpoint (code.setWidth 64) := by
  have hval : BitVec.ofNat 64 code.toNat = code.setWidth 64 := by
    apply BitVec.eq_of_toNat_eq
    simp
  refine traps_of_go (f := fun c => _) rfl ?_
  have hend' : (s.mach.inst s.mach.cur).s.atBodyEnd = false := hend
  rw [Run.go_bind_ok (Run.go_getInst ..), Run.go_bind_ok (Run.go_require_true _ _ _ (by rw [hend']; rfl)), Run.go_trap, hval]

/-- TRET outside the handler (R146). -/
theorem tret_traps (hend : s.seq.atBodyEnd = false) (hhandler : s.seq.handler = false) : TrapsWord s .tret .illegal := by
  refine ⟨_, wordVal_wordOf rfl, (congrArg s.to (if_neg (ne_true_of_eq_false hend))).trans ?_⟩
  have hhandler' : (s.mach.inst s.mach.cur).s.handler = false := hhandler
  rw [hhandler', if_pos (by rfl)]
  rfl

/-- The stream that TCAUSE names (Table 5.9). -/
def Seq.trapped (q : Seq) : Eng := if q.tstrm = 0 then .S else if q.tstrm = 1 then .V else if q.tstrm = 2 then .M else .X

theorem Seq.trapped_eq (q : Seq) : (match q.tstrm.toNat with | 0 => .S | 1 => .V | 2 => .M | _ => .X) = q.trapped := by
  have hall : ∀ t : BitVec 2, (match t.toNat with | 0 => Eng.S | 1 => .V | 2 => .M | _ => .X) =
      if t = 0 then .S else if t = 1 then .V else if t = 2 then .M else .X := by decide
  exact hall q.tstrm

/-- TRET in the handler (R146). -/
theorem exec_tret (hend : s.seq.atBodyEnd = false) (hhandler : s.seq.handler = true) :
    exec .tret s = .next { s with mach := withInst s ((inst s).trapReturn s.seq.trapped s.seq.tpc) } := by
  refine (congrArg s.to (if_neg (ne_true_of_eq_false hend))).trans ?_
  have hhandler' : (s.mach.inst s.mach.cur).s.handler = true := hhandler
  rw [hhandler', if_neg (by decide)]
  exact congrArg (fun e => Host.Outcome.next { s with mach := withInst s ((inst s).trapReturn e s.seq.tpc) }) s.seq.trapped_eq

end

/-! ## What a return from a trap resumes (R146) -/

section
variable (i : Inst) (src : TrapSource) (e : Eng) (pc : W64)

/-- What is resumed is a stream, the nest or a transfer. -/
theorem Inst.resumeFrom_eq : i.resumeFrom src e pc =
    { i with v := (i.resumeFrom src e pc).v, m := (i.resumeFrom src e pc).m, x := (i.resumeFrom src e pc).x } := by
  cases src with
  | word => cases e <;> rfl
  | nest => rfl
  | transfer ch id => rfl

/-- What is resumed does not depend on where S stands. -/
theorem Inst.resumeFrom_with_s (q : Seq) : { i with s := q }.resumeFrom src e pc = { i.resumeFrom src e pc with s := q } := by
  cases src with
  | word => cases e <;> rfl
  | nest => rfl
  | transfer ch id => rfl

/-- S goes on, and the rest is what is resumed. -/
theorem Inst.trapReturn_eq : i.trapReturn e pc =
    { i.resumeFrom i.source e pc with
      s := { i.s with handler := false }.jump (if e = Eng.S then pc else i.s.sret) } := by
  simp only [Inst.trapReturn, Inst.resumeSource, Inst.resumeFrom_with_s]

theorem Inst.setStream_stream_of_ne (st : Stream) {e f : Eng} (hf : f ≠ e) : (i.setStream e st).stream f = i.stream f := by
  cases e <;> cases f <;> simp [Inst.setStream, Inst.stream] at hf ⊢

/-- Every stream stands where it stood but for the one that trapped. -/
theorem Inst.resumeFrom_stream_of_ne {f : Eng} (hf : f ≠ e) : (i.resumeFrom src e pc).stream f = i.stream f := by
  cases src with
  | word =>
    rw [Inst.resumeFrom]
    split
    · rfl
    · exact i.setStream_stream_of_ne _ hf
  | nest => cases f <;> rfl
  | transfer ch id => cases f <;> rfl

/-- The stream that trapped stands at the address (R40). -/
theorem Inst.resumeFrom_word (he : e ≠ .S) : (i.resumeFrom .word e pc).stream e =
    { i.stream e with pc, popped := (i.stream e).popped && (i.stream e).pc == pc } := by
  rw [Inst.resumeFrom, if_neg he, Inst.modStream, Inst.setStream_stream]

/-- The nest goes on where the address is its MGO's, and is abandoned otherwise (Table 7.12). -/
theorem Inst.resumeFrom_nest {a : Commit} (ha : i.m.active = some a) : (i.resumeFrom .nest e pc).m.fault =
    if pc = a.mgo then none else some (if i.m.fault = some .status then .unrecorded else .abandoned) := by
  simp only [Inst.resumeFrom, ha, beq_iff_eq, eq_comm (a := pc)]

/-- A transfer that stands still goes on where the address is its issuing word's, and is abandoned otherwise (Table 8.2). -/
theorem Inst.resumeFrom_transfer {ch : Fin 8} {id : Nat} {x : Transfer} (hx : x ∈ i.x.xfers) (hch : x.ch = ch)
    (hid : x.id = id) (hst : x.state = .faulted) :
    { x with state := if x.pc = pc then .running else .abandoned } ∈ (i.resumeFrom (.transfer ch id) e pc).x.xfers :=
  List.mem_map.2 ⟨x, hx, if_pos (by simp [hch, hid, hst])⟩

end

theorem trapWords : TrapWords := by
  intro s code hfresh hend q c e
  replace hend : q.atBodyEnd = false := atBodyEnd_eq_false hend
  refine ⟨⟨_, passed_fall hfresh, exec_svc code hend⟩, brk_traps code hend, tret_traps hend, fun hh => ?_⟩
  refine ⟨_, exec_tret hend hh, ?_⟩
  have hstream : ∀ f, f ≠ .S →
      ((inst s).trapReturn e q.tpc).stream f = ((inst s).resumeFrom (inst s).source e q.tpc).stream f :=
    fun f hf => by
      rw [Inst.trapReturn_eq]
      cases f with
      | S => exact absurd rfl hf
      | V | M | X => rfl
  rw [show s.seq.trapped = e from rfl]
  rw [inst_withInst]
  refine ⟨rfl, ?_, ?_, ?_, ?_, fun f hS hf => ?_, fun hsrc hS => ?_, fun a hsrc ha => ?_, fun ch id x hsrc hx hch hid hst => ?_⟩
  · rw [Inst.trapReturn_eq]; rfl
  · rw [Inst.trapReturn_eq, Inst.resumeFrom_eq]
  · rw [Inst.trapReturn_eq, Inst.resumeFrom_eq]
  · rw [Inst.trapReturn_eq, Inst.resumeFrom_eq]
  · rw [hstream f hS, Inst.resumeFrom_stream_of_ne _ _ _ _ hf]
  · rw [hstream e hS, hsrc, Inst.resumeFrom_word _ _ _ hS]
    exact ⟨rfl, rfl⟩
  · rw [Inst.trapReturn_eq, hsrc, Inst.resumeFrom_nest _ _ _ ha]
    exact ⟨fun h => if_pos h, fun h => if_neg h⟩
  · rw [Inst.trapReturn_eq, hsrc]
    exact Inst.resumeFrom_transfer _ e _ hx hch hid hst

end Sys2Proof.Machine

namespace Sys2Proof
open Sys2Proof.Machine

/-- Settles O19: FLAGS as any CSR but for its four copies, and the return from a trap by what it resumes. -/
theorem flagsAndTrapWords : Obligations.FlagsAndTrapWords := ⟨flagsWords, trapWords⟩

end Sys2Proof
end

section
/-! How a word of V, M or X begins and ends, in the words of the statements (R39, R40), and how M starts one (R220). -/

namespace Sys2Proof.Machine
open Sys2Proof Sys2Proof.Claims

/-! ## The program of a word that has begun -/

/-- The program of the core whose turn it is once the sync pop of a word is made. -/
def Inst.popped (i : Inst) (e : Eng) (y : Sync) : Inst :=
  (match peerOf e y.pop with
    | some p => i.setTokens p e (i.tokens p e - 1)
    | none => i).modStream e fun st => { st with popped := true }

theorem Inst.popped_M_m (i : Inst) (y : Sync) : (i.popped .M y).m = { i.m with st := { i.m.st with popped := true } } := by
  unfold Inst.popped; split <;> rfl
@[simp] theorem Inst.popped_M_s (i : Inst) (y : Sync) : (i.popped .M y).s = i.s := by unfold Inst.popped; split <;> rfl
@[simp] theorem Inst.popped_id (i : Inst) (e : Eng) (y : Sync) : (i.popped e y).id = i.id := by
  unfold Inst.popped; split <;> cases e <;> rfl

theorem begun_eq (s : State) (e : Eng) (y : Sync) : begun s e y = s.mach.modInst s.mach.cur fun i => i.popped e y := rfl

@[simp] theorem begun_inst (s : State) (e : Eng) (y : Sync) : (begun s e y).inst s.mach.cur = (inst s).popped e y := by
  rw [begun_eq, Mach.modInst_inst]
  rfl

@[simp] theorem peerOf_zero (e : Eng) : peerOf e 0 = none := by cases e <;> rfl

/-- A word that passes with no push leaves its program finished. -/
theorem Inst.eDone_finished (i : Inst) {e : Eng} (hwait : (i.stream e).wait = none) : Finished e 0 i (i.eDone e) := by
  have hst : ∀ st : Stream, st.wait = none → { st with pc := st.pc + 4, popped := false, pushing := none } =
      { st with pc := st.pc + 4, popped := false, pushing := none, wait := none } := by
    rintro ⟨⟩ h; cases h; rfl
  refine ⟨?_, fun a b => ?_⟩
  · rw [Inst.eDone, Inst.modStream, Inst.modStream, hst _ hwait]
  · rw [peerOf_zero, if_neg (by simp)]
    cases e <;> rfl

section
variable {s : State} {e : Eng} {y : Sync}

/-- A word that has not begun pops its token and goes on (R40). -/
theorem syncPop_go (hpopped : ((inst s).stream e).popped = false)
    (htoken : ∀ p, peerOf e y.pop = some p → 0 < (inst s).tokens p e) :
    (syncPop s.mach.cur e y).go s.mach = (.ok (), begun s e y) := by
  have hpopped' : ((s.mach.inst s.mach.cur).stream e).popped = false := hpopped
  simp only [syncPop, Run.go_bind, Run.go_getInst, hpopped']
  cases hp : peerOf e y.pop with
  | none => simp [begun_eq, Inst.popped, hp]
  | some p =>
    have htok : (s.mach.inst s.mach.cur).tokens p e ≠ 0 := Nat.pos_iff_ne_zero.1 (htoken p hp)
    simp [begun_eq, Inst.popped, hp, Inst.popToken, htok, Run.go_bind, Mach.modInst_eq]

section
variable {word : Instr} {f : Run Unit} {m : Mach} (hstart : Starts s e y)
include hstart

/-- A word that begins and runs through has its effect on the machine that its pop has made (R40). -/
theorem eWord_ok (hgo : f.go (begun s e y) = (.ok (), m)) :
    s.mach.eWord s.mach.cur e y word f = m.ePush s.mach.cur e y word := by
  obtain ⟨hpopped, -, hpushing, htoken, -⟩ := hstart
  have hpushing' : ((s.mach.inst s.mach.cur).stream e).pushing = none := hpushing
  simp only [Mach.eWord, hpushing', Run.go_bind_ok (syncPop_go hpopped htoken), hgo]

/-- One that stops does so on the machine that is left. -/
theorem eWord_error {st : Stop} (hgo : f.go (begun s e y) = (.error st, m)) :
    s.mach.eWord s.mach.cur e y word f = m.eStop s.mach.cur e word st := by
  obtain ⟨hpopped, -, hpushing, htoken, -⟩ := hstart
  have hpushing' : ((s.mach.inst s.mach.cur).stream e).pushing = none := hpushing
  simp only [Mach.eWord, hpushing', Run.go_bind_ok (syncPop_go hpopped htoken), hgo]

/-- A word without a push that runs through passes on the machine that its effect has made. -/
theorem ePasses_of_go (hpush : y.push = 0) (hexec : exec word s = s.to (s.mach.eWord s.mach.cur e y word f))
    (hgo : f.go (begun s e y) = (.ok (), m)) (hcur : m.cur = s.mach.cur)
    (hwait : ((m.inst s.mach.cur).stream e).wait = none) : EPasses s e 0 word m := by
  have hdone : exec word s = .next { s with mach := m.setInst s.mach.cur ((m.inst s.mach.cur).eDone e) } := by
    have hadvance : m.ePush s.mach.cur e y word = m.eAdvance s.mach.cur e := by
      simp only [Mach.ePush, hpush, peerOf_zero]
    rw [hexec, eWord_ok hstart hgo, hadvance, Mach.eAdvance_of_none _ _ _ hwait]
    rfl
  refine ⟨_, hdone, ?_, ?_⟩
  · simp [inst, hcur]
  · have hinst : inst { s with mach := m.setInst s.mach.cur ((m.inst s.mach.cur).eDone e) } = (m.inst s.mach.cur).eDone e := by
      simp [inst, hcur]
    rw [hinst]
    exact (m.inst s.mach.cur).eDone_finished hwait

/-- A word that stops at a wait waits on the machine that is left (R40). -/
theorem eWaits_of_go {k : WaitKind} (hexec : exec word s = s.to (s.mach.eWord s.mach.cur e y word f))
    (hgo : f.go (begun s e y) = (.error (.wait k), m)) (hwait : ((m.inst s.mach.cur).stream e).wait = none) :
    EWaits s e word m k := by
  rw [EWaits, hexec, eWord_error hstart hgo]
  simp only [State.to, Mach.eStop, Mach.beginWait, Mach.modInst_eq, Inst.modStream, hwait]

end

end

/-! ## Words of M -/

/-- With no recorded point, M starts a word as any engine does (R220). -/
theorem mStart_of_starts {s : State} {y : Sync} {word : Instr} (hstart : Starts s .M y) :
    s.mach.mStart s.mach.cur word = s.mach := by
  obtain ⟨-, -, hpushing, -, -, -, hM, -⟩ := hstart
  obtain ⟨hrecorded, hdrain, hfault, -⟩ := hM rfl
  have hpoint : ((inst s).s.rvalid && (inst s).s.rstrm == 2) = false := by
    cases h : (inst s).s.rvalid with
    | false => rfl
    | true => simpa using hrecorded h
  have hmat : ∀ x : Mat, x.drain = none → x.drainFault = false → { x with drain := none, drainFault := false } = x := by
    rintro ⟨⟩ hd hf; cases hd; cases hf; rfl
  have hkeep : s.mach.modMat s.mach.cur (fun x => { x with drain := none, drainFault := false }) = s.mach := by
    rw [Mach.modMat, Mach.modInst_eq, hmat (s.mach.inst s.mach.cur).m hdrain hfault]
    exact s.mach.setInst_self s.mach.cur
  unfold Mach.mStart
  rw [if_neg (by simpa [inst, Inst.stream] using hpushing)]
  simp only [inst] at hpoint
  simp only [hpoint, Bool.false_and, Bool.false_eq_true, if_false, hkeep, ite_self]

/-- A part that is undone where it stops has its effect where it runs through. -/
theorem orRestore_ok {α : Type} {f : Run α} {m m' : Mach} {a : α} (h : f.go m = (.ok a, m')) :
    (orRestore f).go m = (.ok a, m') := by
  simp [orRestore, Run.go_bind, Run.go_tryCatch, h]

theorem Mach.keepMoves_self (m : Mach) : m.keepMoves m = m := rfl

/-- A part that stops is undone, but for the moves of pages that it started. -/
theorem orRestore_error {α : Type} {f : Run α} {m m' : Mach} {st : Stop} (h : f.go m = (.error st, m')) :
    (orRestore f).go m = (.error st, m.keepMoves m') := by
  simp [orRestore, Run.go_bind, Run.go_tryCatch, h]

end Sys2Proof.Machine
end
section
/-! How a commit begins (R197): what its sub-arrays take. -/

namespace Sys2Proof.Machine
open Sys2Proof Sys2Proof.Claims

/-- The job counters once the first n sub-arrays have taken their first jobs. -/
def Commit.taken (k : Commit) (n : Nat) : Vector Nat 4 :=
  Vector.ofFn fun g => if k.active g.val then min (min 4 (n - 4 * g.val)) k.jobs else 0

/-- The park records once the first n sub-arrays have taken their first jobs. -/
def Commit.parks (k : Commit) (n : Nat) : Vector SubArray 16 :=
  Vector.ofFn fun sa =>
    { job := if sa.val < n ∧ k.active (sa.val / 4) ∧ sa.val % 4 < k.jobs then some (sa.val % 4) else none }

/-- The nest with a commit active of which the first n sub-arrays have taken their first jobs. -/
def Mat.starting (m : Mat) (k : Commit) (n : Nat) : Mat :=
  { m with
    active := some k, pending := none, counters := k.taken n, sas := k.parks n
    done := [], slots := [], fault := none, dropped := false, ksteps := 0, kskip := 0 }

theorem ofFn_get {α : Type} {n : Nat} (f : Fin n → α) (i : Fin n) : (Vector.ofFn f).get i = f i := by
  rw [Vector.get_eq_getElem, Vector.getElem_ofFn]

theorem vector_ext_get {α : Type} {n : Nat} {v w : Vector α n} (h : ∀ i, v.get i = w.get i) : v = w :=
  Vector.ext fun i hi => h ⟨i, hi⟩

/-- A table with one entry changed. -/
theorem vset_eq_of_get {α : Type} {n : Nat} {v w : Vector α n} {i : Fin n} {x : α} (hself : w.get i = x)
    (hrest : ∀ j, j ≠ i → w.get j = v.get j) : vset v i x = w := by
  refine vector_ext_get fun j => ?_
  by_cases h : j = i
  · rw [h, vset_get_self, hself]
  · rw [vset_get_of_ne _ _ h, hrest _ h]

theorem Commit.taken_get (k : Commit) (n : Nat) (g : Fin 4) :
    (k.taken n).get g = if k.active g.val then min (min 4 (n - 4 * g.val)) k.jobs else 0 := ofFn_get _ g

theorem Commit.parks_get (k : Commit) (n : Nat) (sa : Fin 16) : (k.parks n).get sa =
    { job := if sa.val < n ∧ k.active (sa.val / 4) ∧ sa.val % 4 < k.jobs then some (sa.val % 4) else none } := ofFn_get _ sa

/-- A sub-array of an active group takes the group's next job (R197). -/
theorem Mat.take_of_job {m : Mat} {k : Commit} {sa : Fin 16} {j : Nat} (hnext : m.counters.get (Fin.ofNat 4 (sa.val / 4)) = j)
    (hactive : k.active (sa.val / 4) = true) (hj : j < k.jobs) : m.take k sa = { m with
      sas := vset m.sas sa { m.sas.get sa with job := some j, k := 0 }
      counters := vset m.counters (Fin.ofNat 4 (sa.val / 4)) (j + 1) } := by
  simp only [Mat.take, hnext, hactive, hj, decide_true, Bool.and_self, if_true]

/-- Without one it stays free. -/
theorem Mat.take_of_no_job {m : Mat} {k : Commit} {sa : Fin 16}
    (h : ¬(k.active (sa.val / 4) = true ∧ m.counters.get (Fin.ofNat 4 (sa.val / 4)) < k.jobs)) :
    m.take k sa = { m with sas := vset m.sas sa { m.sas.get sa with job := none, k := 0 } } := by
  rw [Mat.take, if_neg (by simpa using h)]

section
variable (k : Commit) (sa : Fin 16)

theorem group_val : (Fin.ofNat 4 (sa.val / 4)).val = sa.val / 4 := by rw [Fin.val_ofNat]; omega

/-- Before a sub-array takes its job, its group has given one to each before it. -/
theorem Commit.taken_group :
    (k.taken sa.val).get (Fin.ofNat 4 (sa.val / 4)) = if k.active (sa.val / 4) then min (sa.val % 4) k.jobs else 0 := by
  have hplace : min 4 (sa.val - 4 * (sa.val / 4)) = sa.val % 4 := by omega
  rw [Commit.taken_get, group_val, hplace]

theorem Commit.taken_succ_of_ne {g : Fin 4} (hg : g ≠ Fin.ofNat 4 (sa.val / 4)) :
    (k.taken (sa.val + 1)).get g = (k.taken sa.val).get g := by
  have hval : g.val ≠ sa.val / 4 := fun h => hg (Fin.ext (by rw [group_val, h]))
  have hmin : min 4 (sa.val + 1 - 4 * g.val) = min 4 (sa.val - 4 * g.val) := by omega
  rw [Commit.taken_get, Commit.taken_get, hmin]

theorem Commit.taken_group_succ : (k.taken (sa.val + 1)).get (Fin.ofNat 4 (sa.val / 4)) =
    if k.active (sa.val / 4) then min (sa.val % 4 + 1) k.jobs else 0 := by
  have hplace : min 4 (sa.val + 1 - 4 * (sa.val / 4)) = sa.val % 4 + 1 := by omega
  rw [Commit.taken_get, group_val, hplace]

theorem Commit.parks_succ_of_ne {j : Fin 16} (hj : j ≠ sa) : (k.parks (sa.val + 1)).get j = (k.parks sa.val).get j := by
  have hlt : j.val < sa.val + 1 ↔ j.val < sa.val := by have := Fin.val_ne_of_ne hj; omega
  simp only [Commit.parks_get, hlt]

theorem Commit.parks_self : (k.parks sa.val).get sa = {} := by
  rw [Commit.parks_get, if_neg fun h => Nat.lt_irrefl _ h.1]

theorem Commit.parks_succ_self : (k.parks (sa.val + 1)).get sa =
    { job := if k.active (sa.val / 4) ∧ sa.val % 4 < k.jobs then some (sa.val % 4) else none } := by
  simp only [Commit.parks_get, Nat.lt_succ_self, true_and]

end

/-- Each sub-array takes the job that its place in its group names, where the commit has it (R197). -/
theorem Mat.take_starting (m : Mat) (k : Commit) (sa : Fin 16) :
    (m.starting k sa.val).take k sa = m.starting k (sa.val + 1) := by
  have hparks : ∀ x, (k.parks (sa.val + 1)).get sa = x → vset (k.parks sa.val) sa x = k.parks (sa.val + 1) := fun x hx =>
    vset_eq_of_get hx fun j hj => k.parks_succ_of_ne sa hj
  have hgroup := k.taken_group sa
  by_cases h : k.active (sa.val / 4) = true ∧ sa.val % 4 < k.jobs
  · obtain ⟨hactive, hj⟩ := h
    rw [if_pos hactive, min_eq_left hj.le] at hgroup
    have htaken : vset (k.taken sa.val) (Fin.ofNat 4 (sa.val / 4)) (sa.val % 4 + 1) = k.taken (sa.val + 1) :=
      vset_eq_of_get (by rw [k.taken_group_succ, if_pos hactive, min_eq_left hj]) fun g hg => k.taken_succ_of_ne sa hg
    rw [Mat.take_of_job (m := m.starting k sa.val) hgroup hactive hj]
    simp only [Mat.starting, htaken, k.parks_self]
    rw [hparks _ (by rw [k.parks_succ_self, if_pos ⟨hactive, hj⟩])]
  · have hfew : k.active (sa.val / 4) = true → k.jobs ≤ sa.val % 4 := fun hactive => not_lt.1 fun hj => h ⟨hactive, hj⟩
    have htaken : k.taken (sa.val + 1) = k.taken sa.val := vector_ext_get fun g => by
      by_cases hg : g = Fin.ofNat 4 (sa.val / 4)
      · rw [hg, hgroup, k.taken_group_succ]
        split
        next hactive => have := hfew hactive; omega
        next => rfl
      · exact k.taken_succ_of_ne sa hg
    have hnone : ¬(k.active (sa.val / 4) = true ∧ (m.starting k sa.val).counters.get (Fin.ofNat 4 (sa.val / 4)) < k.jobs) := by
      rintro ⟨hactive, hlt⟩
      have hcount : (m.starting k sa.val).counters.get (Fin.ofNat 4 (sa.val / 4)) = min (sa.val % 4) k.jobs :=
        hgroup.trans (if_pos hactive)
      have := hfew hactive
      omega
    rw [Mat.take_of_no_job hnone]
    simp only [Mat.starting, htaken, k.parks_self]
    rw [hparks _ (by rw [k.parks_succ_self, if_neg h])]

theorem Mat.starting_zero (m : Mat) (k : Commit) : m.starting k 0 = { m with
    active := some k, pending := none, counters := Vector.replicate 4 0, sas := Vector.replicate 16 {}
    done := [], slots := [], fault := none, dropped := false, ksteps := 0, kskip := 0 } := by
  have hcounters : k.taken 0 = Vector.replicate 4 0 := by
    ext1 g hg
    simp [Commit.taken]
  have hsas : k.parks 0 = Vector.replicate 16 {} := by
    ext1 sa hsa
    simp [Commit.parks]
  rw [Mat.starting, hcounters, hsas]

/-- A commit begins with its sub-arrays' first jobs (R197). -/
theorem Mat.start_eq (m : Mat) (k : Commit) : m.start k = m.starting k 16 := by
  have hfold : ∀ n ≤ 16, ((List.finRange 16).take n).foldl (fun m sa => m.take k sa) (m.starting k 0) = m.starting k n := by
    intro n hn
    induction n with
    | zero => rfl
    | succ n ih =>
      have hget : (List.finRange 16)[n]? = some ⟨n, hn⟩ := by
        rw [List.getElem?_eq_getElem (by simpa using hn), List.getElem_finRange]
        rfl
      rw [List.take_add_one, List.foldl_append, ih (by omega), hget]
      exact m.take_starting k ⟨n, hn⟩
  rw [Mat.start, ← Mat.starting_zero]
  exact hfold 16 le_rfl

/-- The counter of a group once its commit has begun. -/
theorem Mat.start_counters (m : Mat) (k : Commit) (g : Fin 4) :
    (m.start k).counters.get g = if 64 * g.val < k.cfg.mask.cols then min 4 k.jobs else 0 := by
  have hall : min 4 (16 - 4 * g.val) = 4 := by omega
  rw [Mat.start_eq, Mat.starting, Commit.taken_get, hall]
  simp only [Commit.active, decide_eq_true_eq]

/-- The sub-arrays of a group once its commit has begun. -/
theorem Mat.start_sas (m : Mat) (k : Commit) (g x : Fin 4) : (m.start k).sas.get (Fin.ofNat 16 (4 * g.val + x.val)) =
    { job := if 64 * g.val < k.cfg.mask.cols ∧ x.val < k.jobs then some x.val else none, k := 0, idle := false } := by
  have hval : (Fin.ofNat 16 (4 * g.val + x.val)).val = 4 * g.val + x.val := by rw [Fin.val_ofNat]; omega
  have hgroup : (4 * g.val + x.val) / 4 = g.val := by omega
  have hplace : (4 * g.val + x.val) % 4 = x.val := by omega
  have hlt : 4 * g.val + x.val < 16 := by omega
  rw [Mat.start_eq, Mat.starting, Commit.parks_get]
  simp only [hval, hgroup, hplace, hlt, true_and, Commit.active, decide_eq_true_eq]

end Sys2Proof.Machine
end
section
/-! MGO, as the statements have it (R85, R197, R215). -/

namespace Sys2Proof.Machine
open Sys2Proof Sys2Proof.Claims

/-- The commit that MGO at the word where M stands makes of the shadow (R85, R215). -/
def Inst.commitOf (i : Inst) (y : Sync) (n : Fin 6) : Commit :=
  { cfg := i.m.shadow, n := n.val + 1, mgo := i.m.st.pc, push := peerOf .M y.push, scaleOff := i.s.scaleOff }

/-- A commit that is accepted starts, or is pending behind the active one (R215). -/
def Mat.accept (x : Mat) (k : Commit) : Mat := if x.active.isNone then x.start k else { x with pending := some k }

theorem Mat.accept_of_idle {x : Mat} (k : Commit) (h : x.active = none) : x.accept k = x.start k := by
  rw [Mat.accept, if_pos (by rw [h]; rfl)]

theorem Mat.accept_of_busy {x : Mat} (k : Commit) (h : x.active ≠ none) : x.accept k = { x with pending := some k } := by
  rw [Mat.accept, if_neg (by simpa using h)]

theorem Mat.accept_st (x : Mat) (k : Commit) : (x.accept k).st = x.st := by
  rw [Mat.accept, Mat.start_eq]
  split <;> rfl

/-- The effect of MGO. -/
def mgoRun (y : Sync) (n : Fin 6) (c : CoreId) : Run Unit := do
  noPending c
  let i ← getInst c
  let k := i.commitOf y n
  require (k.cfg.mask.rows != 0) .illegal (recordVal (.mgo y n) .M 60)
  match firstBadRow i.id.accsets k.cfg.mblocks k.outer.reverse (256 * k.cfg.set.val + k.cfg.crow0) with
  | some r => trap .protection (addr64 r)
  | none => pure ()
  match k.firstBadB i.id.bsFoot with
  | some o => trap .protection (addr64 o)
  | none => pure ()
  setMat c fun x => x.accept k

theorem exec_mgo (s : State) (y : Sync) (n : Fin 6) : exec (.mgo y n) s =
    s.to ((s.mach.mStart s.mach.cur (.mgo y n)).eWord s.mach.cur .M { y with push := 0 } (.mgo y n)
      (orRestore (mgoRun y n s.mach.cur))) := rfl

section
variable {m : Mach} {c : CoreId} {y : Sync} {n : Fin 6}

theorem mgoRun_waits (h : (m.inst c).m.pending ≠ none) : (mgoRun y n c).go m = (.error (.wait (.retry 0 0)), m) := by
  have hpending : (m.inst c).m.pending.isSome = true := Option.isSome_iff_ne_none.2 h
  exact Run.go_bind_error (by simp [noPending, Run.go_bind, hpending])

/-- A commit that passes the checks starts, or is pending behind the active one. -/
theorem mgoRun_accepts {k : Commit} (hk : (m.inst c).commitOf y n = k) (hpending : (m.inst c).m.pending = none)
    (hrows : k.cfg.mask.rows ≠ 0) (hB : k.firstBadB (m.inst c).id.bsFoot = none)
    (hrow : firstBadRow (m.inst c).id.accsets k.cfg.mblocks k.outer.reverse (256 * k.cfg.set.val + k.cfg.crow0 : Nat) = none) :
    (mgoRun y n c).go m = (.ok (), m.modMat c (·.accept k)) := by
  push_cast at hrow
  have hfree : (noPending c).go m = (.ok (), m) := by simp [noPending, Run.go_bind, hpending]
  have hmask : (require (k.cfg.mask.rows != 0) .illegal (recordVal (.mgo y n) .M 60)).go m = (.ok (), m) :=
    Run.go_require_true _ _ _ (by simpa using hrows)
  rw [mgoRun, Run.go_bind_ok hfree, Run.go_bind_ok (Run.go_getInst ..)]
  simp only [hk]
  rw [Run.go_bind_ok hmask]
  simp only [hrow, hB]
  rfl

end

section
variable {s : State} {y : Sync} {n : Fin 6} (hstart : Starts s .M { y with push := 0 })
include hstart

/-- MGO runs as a word of M whose push is made later (R215). -/
theorem exec_mgo_of_starts : exec (.mgo y n) s =
    s.to (s.mach.eWord s.mach.cur .M { y with push := 0 } (.mgo y n) (orRestore (mgoRun y n s.mach.cur))) := by
  rw [exec_mgo, mStart_of_starts hstart]

theorem mgo_waits (hpending : (inst s).m.pending ≠ none) : EWaits s .M (.mgo y n) (begun s .M y) (.retry 0 0) := by
  have hbegun : ((begun s .M y).inst s.mach.cur).m.pending ≠ none := by rwa [begun_inst, Inst.popped_M_m]
  have hgo := orRestore_error (mgoRun_waits (y := y) (n := n) hbegun)
  rw [Mach.keepMoves_self] at hgo
  refine eWaits_of_go hstart (exec_mgo_of_starts hstart) hgo ?_
  rw [begun_inst, Inst.stream, Inst.popped_M_m]
  exact hstart.2.1

/-- MGO whose commit passes the checks goes on once the commit is accepted (R197, R215). -/
theorem mgo_passes {k : Commit} (hk : (inst s).commitOf y n = k) (hpending : (inst s).m.pending = none)
    (hrows : k.cfg.mask.rows ≠ 0) (hB : k.firstBadB (inst s).id.bsFoot = none)
    (hrow : firstBadRow (inst s).id.accsets k.cfg.mblocks k.outer.reverse (256 * k.cfg.set.val + k.cfg.crow0 : Nat) = none) :
    EPasses s .M 0 (.mgo y n) ((begun s .M y).modMat s.mach.cur (·.accept k)) := by
  have hinst := begun_inst s .M y
  refine ePasses_of_go hstart rfl (exec_mgo_of_starts hstart)
    (orRestore_ok (mgoRun_accepts (m := begun s .M y) ?_ ?_ hrows ?_ ?_)) rfl ?_
  · rw [hinst, Inst.commitOf, Inst.popped_M_m, Inst.popped_M_s]; exact hk
  · rw [hinst, Inst.popped_M_m]; exact hpending
  · rw [hinst, Inst.popped_id]; exact hB
  · rw [hinst, Inst.popped_id]; exact hrow
  · rw [Mach.modMat, Mach.modInst_inst, hinst, Inst.stream, Mat.accept_st, Inst.popped_M_m]
    exact hstart.2.1

end

theorem mgoCommits : Claims.CommitWords := by
  intro s y n i k word hstart
  refine ⟨fun hpending hrows hB hrow => ?_, mgo_waits hstart⟩
  have hpasses := mgo_passes hstart (n := n) (k := k) rfl hpending hrows hB hrow
  rw [Mach.modMat, Mach.modInst_eq, begun_inst] at hpasses
  have hactive : (i.popped .M y).m.active = i.m.active := by rw [Inst.popped_M_m]
  refine ⟨fun hidle => ⟨i.m.start k, ?_, ?_, fun g => ⟨i.m.start_counters k g, i.m.start_sas k g⟩⟩, fun hbusy => ?_⟩
  · have hstarted : (i.popped .M y).m.start k = { i.m.start k with st := (i.popped .M y).m.st } := by
      rw [Mat.start_eq, Mat.start_eq, Inst.popped_M_m]; rfl
    rw [Mat.accept_of_idle k (hactive.trans hidle), hstarted] at hpasses
    rw [Mach.modInst_eq, begun_inst]
    exact hpasses
  · rw [Mat.start_eq]; rfl
  · rw [Mat.accept_of_busy k (hactive ▸ hbusy)] at hpasses
    rw [Mach.modInst_eq, begun_inst]
    exact hpasses

end Sys2Proof.Machine
end
section
/-! The end of a throttle idle, of a commit and of a re-key walk, as the statements have them (R201, R211, R218, R261). -/

namespace Sys2Proof.Machine
open Sys2Proof Sys2Proof.Claims

/-! ## The end of a throttle idle (R201) -/

section
variable {s : State} {c : CoreId} {sa : Fin 16}

theorem throttleIdleEnd_due (h : ((s.mach.inst c).m.sas.get sa).wake ≤ s.mach.cycle) : exec (.throttleIdleEnd c sa) s =
    .next { s with mach := s.mach.modInst c fun j => { j with m := { j.m with
      sas := vset j.m.sas sa { j.m.sas.get sa with idle := false } } } } := congrArg s.to (if_pos h)

/-- A timer of an idle time that has ended before does nothing. -/
theorem throttleIdleEnd_early (h : ¬((s.mach.inst c).m.sas.get sa).wake ≤ s.mach.cycle) :
    exec (.throttleIdleEnd c sa) s = .next s := congrArg s.to (if_neg h)

end

/-! ## The end of a re-key walk (R261) -/

section
variable {s : State} {ctx : CtxId}

theorem rekeyDone_none (h : (s.mach.ctx ctx.val).newKey = none) : exec (.rekeyDone ctx) s = .next s := by
  show execRekeyDone ctx s = _
  simp only [execRekeyDone, h]
  rfl

/-- The end of a walk in which no line has come to its last count. -/
theorem rekeyDone_last {key : BitVec 128} (h : (s.mach.ctx ctx.val).newKey = some key)
    (hnext : (s.mach.ctx ctx.val).rekeyNext = false) :
    exec (.rekeyDone ctx) s = .next { s with mach := s.mach.setCtx ctx.val ((s.mach.ctx ctx.val).rekeyed key) } := by
  show execRekeyDone ctx s = _
  simp only [execRekeyDone, h, hnext]
  rfl

/-- The end of a walk in which one has begins the next. -/
theorem rekeyDone_again {key : BitVec 128} (h : (s.mach.ctx ctx.val).newKey = some key)
    (hnext : (s.mach.ctx ctx.val).rekeyNext = true) : exec (.rekeyDone ctx) s =
      .next { s with mach := (s.mach.setCtx ctx.val ((s.mach.ctx ctx.val).rekeyed key)).startRekey ctx } := by
  show execRekeyDone ctx s = _
  simp only [execRekeyDone, h, hnext]
  rfl

/-- Where a slot holds one key, a walk begins (R261). -/
theorem startRekey_begins {m : Mach} {x : Ctx} {key : BitVec 128} (hx : m.ctx ctx.val = x) (hkey : x.key = some key)
    (hnew : x.newKey = none) : m.startRekey ctx =
      (m.setCtx ctx.val { x with newKey := some (aes128 key x.rekeyBlock), rekeyNext := false }).timer 1 (.rekeyDone ctx) := by
  simp only [Mach.startRekey, hx, hkey, hnew]

theorem Ctx.rekeyBlock_eq (x : Ctx) : x.rekeyBlock = BitVec.ofNat 128 (0x52454B4559 * 2 ^ 88 + x.gen.toNat) := by
  rw [Ctx.rekeyBlock]
  cases x.gen <;> rfl

end

/-! ## The end of a commit (R211, R218) -/

/-- The program once the status record of its commit is stored, outside every region (R211). -/
def Inst.statusStored (i : Inst) (k : Commit) : Inst :=
  { i with
    pad := { i.pad with bytes := cellsWrite i.pad.bytes k.cfg.mask.statusAddr i.m.statusRecord }
    m := { i.m with nraddr := none } }

/-- The nest once its commit has ended, with no slot held and no push that waits: the pending commit begins (R218). -/
def Mat.ended (x : Mat) : Mat :=
  let idle := { x with
    active := none, sas := Vector.replicate 16 {}, done := [], slots := [], fault := none, dropped := false, pushes := [] }
  match x.pending with | some p => idle.start p | none => idle

/-- What the end of a commit leaves of the nest. -/
theorem Mat.ended_frame (x : Mat) : x.ended.acc = x.acc ∧ x.ended.bstore = x.bstore ∧ x.ended.shadow = x.shadow
    ∧ x.ended.st = x.st ∧ x.ended.pending = none ∧ x.ended.nraddr = x.nraddr := by
  unfold Mat.ended
  cases h : x.pending with
  | none => exact ⟨rfl, rfl, rfl, rfl, rfl, rfl⟩
  | some p => simp only [Mat.start_eq]; exact ⟨rfl, rfl, rfl, rfl, rfl, rfl⟩

theorem Mat.ended_idle (x : Mat) (h : x.pending = none) : x.ended.active = none := by
  simp only [Mat.ended, h]

theorem Mat.ended_next (x : Mat) {next : Commit} (h : x.pending = some next) :
    x.ended.active = some next ∧ x.ended.ksteps = 0 ∧ x.ended.kskip = 0 := by
  simp only [Mat.ended, h, Mat.start_eq]
  exact ⟨rfl, rfl, rfl⟩

/-- A word that was written among others is loaded. -/
theorem loaded_cellsWrite_word (l : List (Nat × Byte)) (a : Nat) (p r : List Byte) (v : Nat) :
    loaded (cellsWrite l a (p ++ bytesOf 8 v ++ r)) (a + p.length) 8 false = BitVec.ofNat 64 v := by
  have hcells : ∀ k : Fin 8, cellGet (cellsWrite l a (p ++ bytesOf 8 v ++ r)) (a + p.length + k.val) =
      cellGet (cellsWrite l (a + p.length) (bytesOf 8 v)) (a + p.length + k.val) := fun k => by
    have hlen := bytesOf_length 8 v
    rw [cellGet_cellsWrite, cellGet_cellsWrite, if_pos (by simp; omega), if_pos (by simp), List.append_assoc,
      List.getD_append_right _ _ _ _ (by omega), List.getD_append _ _ _ _ (by omega)]
    congr 1
    omega
  have hread : loaded (cellsWrite l (a + p.length) (bytesOf 8 v)) (a + p.length) 8 false = BitVec.ofNat 64 v := by
    have h := cellsRead_cellsWrite (bytesOf 8 v) l (a + p.length)
    rw [bytesOf_length] at h
    rw [loaded_eq _ _ _ (by decide), h, leNat_bytesOf]
    apply BitVec.eq_of_toNat_eq
    simp
  rw [← hread]
  simp only [loaded, hcells]

/-- Four words that were written one after the other are loaded. -/
theorem loaded_cellsWrite_four (l : List (Nat × Byte)) (a v0 v1 v2 v3 : Nat) :
    let at' := fun (o : Nat) =>
      (loaded (cellsWrite l a (bytesOf 8 v0 ++ bytesOf 8 v1 ++ bytesOf 8 v2 ++ bytesOf 8 v3)) (a + o) 8 false).toNat
    at' 0 = v0 % 2 ^ 64 ∧ at' 8 = v1 % 2 ^ 64 ∧ at' 16 = v2 % 2 ^ 64 ∧ at' 24 = v3 % 2 ^ 64 := by
  have hword : ∀ (bs p r : List Byte) (v o : Nat), p ++ bytesOf 8 v ++ r = bs → p.length = o →
      (loaded (cellsWrite l a bs) (a + o) 8 false).toNat = v % 2 ^ 64 := by
    rintro _ p r v _ rfl rfl
    rw [loaded_cellsWrite_word, BitVec.toNat_ofNat]
  exact ⟨hword _ [] (bytesOf 8 v1 ++ bytesOf 8 v2 ++ bytesOf 8 v3) v0 0 (by simp) rfl,
    hword _ (bytesOf 8 v0) (bytesOf 8 v2 ++ bytesOf 8 v3) v1 8 (by simp) (by simp),
    hword _ (bytesOf 8 v0 ++ bytesOf 8 v1) (bytesOf 8 v3) v2 16 (by simp) (by simp),
    hword _ (bytesOf 8 v0 ++ bytesOf 8 v1 ++ bytesOf 8 v2) [] v3 24 (by simp) (by simp)⟩

/-- The last word of a status record (Table 7.7). -/
theorem Mat.statusBits (x : Mat) : ((if x.nraddr.isSome then 1 else 0) + if x.dropped then 2 else 0) % 2 ^ 64 =
    x.nraddr.isSome.toNat + 2 * x.dropped.toNat := by
  cases x.nraddr.isSome <;> cases x.dropped <;> rfl

/-- A stored status record holds the nest's counts, and no other byte changes (Table 7.7). -/
theorem Inst.statusStored_bytes (i : Inst) (k : Commit) :
    let a := k.cfg.mask.statusAddr
    let bytes := (i.statusStored k).pad.bytes
    let at' := fun (o : Nat) => (loaded bytes (a + o) 8 false).toNat
    at' 0 = i.m.ksteps % 2 ^ 64 ∧ at' 8 = i.m.kskip % 2 ^ 64 ∧ at' 16 = i.m.nraddr.getD 0 % 2 ^ 64
      ∧ at' 24 = i.m.nraddr.isSome.toNat + 2 * i.m.dropped.toNat
      ∧ ∀ q, ¬(a ≤ q ∧ q < a + 32) → cellGet bytes q = cellGet i.pad.bytes q := by
  intro a bytes at'
  obtain ⟨hsteps, hskips, haddr, hbits⟩ := loaded_cellsWrite_four i.pad.bytes a i.m.ksteps i.m.kskip (i.m.nraddr.getD 0) _
  refine ⟨hsteps, hskips, haddr, hbits.trans i.m.statusBits, fun q hq => ?_⟩
  have hlen : i.m.statusRecord.length = 32 := by simp [Mat.statusRecord]
  exact cellGet_cellsWrite_outside _ _ _ _ (by omega)

section
variable {m : Mach} {c : CoreId} {k : Commit}

/-- The status record is stored where its bytes lie in the partition and in no region (R211). -/
theorem writeStatus_go (hpart : k.cfg.mask.statusAddr + 32 ≤ (m.inst c).id.part) (hreg : (m.inst c).pad.regions = []) :
    (writeStatus c k).go m = (.ok (), m.setInst c ((m.inst c).statusStored k)) := by
  have hregion : ∀ a, (m.inst c).pad.regionAt a = none := fun a => by rw [Pad.regionAt, hreg]; rfl
  have hbound : (localBound c k.cfg.mask.statusAddr 32).go m = (.ok (), m) := by
    simp [localBound, Run.go_bind, hpart]
  have hready : (localReady c none k.cfg.mask.statusAddr).go m = (.ok none, m) := by
    simp [localReady, Run.go_bind, hregion]
  rw [writeStatus, Run.go_bind_ok (Run.go_getInst ..), Run.go_bind_ok hbound]
  simp [Run.go_bind, Run.go_tryCatch, hready, m.padStore_unmapped c _ _ (hregion _), setMat, Mach.modInst_modInst]
  rfl

theorem Inst.flushMat_of_none {i : Inst} {x : Mat} (h : x.pushes = []) :
    ({ i with m := x } : Inst).flushMat = { i with m := x } := by
  unfold Inst.flushMat
  simp only [h, pushAll, List.foldl_nil]
  rw [← h]

/-- Ending the active commit, where it holds no slot and no push waits. -/
theorem Inst.finishCommit_eq {i : Inst} (hslots : i.m.slots = []) (hpushes : i.m.pushes = []) (hpush : k.push = none) :
    i.finishCommit k = { i with m := i.m.ended } := by
  have hended : i.m.ended.pushes = [] := by
    unfold Mat.ended
    cases i.m.pending with
    | none => rfl
    | some p => simp only [Mat.start_eq]; rfl
  rw [← Inst.flushMat_of_none hended]
  cases hpending : i.m.pending <;>
    simp only [Inst.finishCommit, Mat.ended, hslots, hpushes, hpush, hpending, List.foldl_nil, Option.toList_none,
      List.append_nil]

/-- The program once its active commit has ended, with its status record stored where it has one (R211, R218). -/
def Inst.commitEnded (i : Inst) (k : Commit) : Inst :=
  let j := if k.cfg.mask.sen then i.statusStored k else i
  { j with m := j.m.ended }

theorem Inst.commitEnded_plain {i : Inst} (hsen : k.cfg.mask.sen = false) : i.commitEnded k = { i with m := i.m.ended } := by
  simp [Inst.commitEnded, hsen]

theorem Inst.commitEnded_recorded {i : Inst} (hsen : k.cfg.mask.sen = true) :
    i.commitEnded k = { i.statusStored k with m := (i.statusStored k).m.ended } := by
  simp [Inst.commitEnded, hsen]

/-- Where its jobs have ended, the active commit ends (R211, R218). -/
theorem commitEndOf_eq (hactive : (m.inst c).m.active = some k) (hfault : (m.inst c).m.fault = none)
    (hended : (m.inst c).m.allEnded k = true) (hslots : (m.inst c).m.slots = []) (hpushes : (m.inst c).m.pushes = [])
    (hpush : k.push = none)
    (hstatus : k.cfg.mask.sen = true → k.cfg.mask.statusAddr + 32 ≤ (m.inst c).id.part ∧ (m.inst c).pad.regions = []) :
    m.commitEndOf c = m.setInst c ((m.inst c).commitEnded k) := by
  cases hsen : k.cfg.mask.sen with
  | false =>
    have hfinish := (m.inst c).finishCommit_eq hslots hpushes hpush
    simp [Mach.commitEndOf, hactive, hfault, hended, hsen, Mach.modInst_eq, hfinish, Inst.commitEnded_plain hsen]
  | true =>
    obtain ⟨hpart, hreg⟩ := hstatus hsen
    have hfinish := ((m.inst c).statusStored k).finishCommit_eq hslots hpushes hpush
    simp [Mach.commitEndOf, hactive, hfault, hended, hsen, writeStatus_go hpart hreg, Mach.modInst_eq, Mach.setInst_setInst,
      hfinish, Inst.commitEnded_recorded hsen]

end

theorem exec_commitEnd {s : State} {c : CoreId} (hres : (s.mach.core c).resident = true) :
    exec (.commitEnd c) s = s.to (s.mach.commitEndOf c) := congrArg s.to (if_pos hres)

theorem nestSteps : NestSteps := by
  intro s c sa k next ctx key i x a idle
  refine ⟨?_, ?_, ?_, ?_, ?_⟩
  · split
    next h => exact throttleIdleEnd_due h
    next h => exact throttleIdleEnd_early h
  · intro hres hactive hfault hended hslots hpushes hpush hstatus
    refine ⟨{ s with mach := s.mach.setInst c (i.commitEnded k) }, ?_, ?_⟩
    · rw [exec_commitEnd hres, commitEndOf_eq hactive hfault hended hslots hpushes hpush hstatus]
      rfl
    simp only [Mach.setInst_inst, true_and]
    cases hsen : k.cfg.mask.sen with
    | false =>
      obtain ⟨hacc, hbstore, hshadow, hst, hpending, hnr⟩ := i.m.ended_frame
      rw [Inst.commitEnded_plain hsen]
      exact ⟨rfl, hacc, hbstore, hshadow, hst, hpending, fun _ => ⟨rfl, hnr⟩, nofun, i.m.ended_idle, i.m.ended_next⟩
    | true =>
      obtain ⟨hacc, hbstore, hshadow, hst, hpending, hnr⟩ := (i.statusStored k).m.ended_frame
      obtain ⟨hsteps, hskips, haddr, hbits, hrest⟩ := i.statusStored_bytes k
      rw [Inst.commitEnded_recorded hsen]
      exact ⟨rfl, hacc, hbstore, hshadow, hst, hpending, nofun, fun _ => ⟨hnr, hsteps, hskips, haddr, hbits, hrest⟩,
        (i.statusStored k).m.ended_idle, (i.statusStored k).m.ended_next⟩
  · exact rekeyDone_none
  · intro hnew hnext
    rw [rekeyDone_last hnew hnext]
    rfl
  · intro hnew hnext
    have hstart := startRekey_begins (ctx := ctx) (s.mach.setCtx_ctx ctx.val (x.rekeyed key)) rfl rfl
    refine ⟨_, rekeyDone_again hnew hnext, ?_, ?_⟩
    · rw [hstart, Ctx.rekeyBlock_eq]
      exact Mach.setCtx_ctx ..
    · rw [hstart]; rfl

end Sys2Proof.Machine

namespace Sys2Proof
open Sys2Proof.Machine

/-- Settles O40: a commit as it is accepted, and the ends of idles, commits and walks event by event. -/
theorem commitWords : Obligations.CommitWords := ⟨mgoCommits, nestSteps⟩

end Sys2Proof
end
